-- ==== Sys2Proof/Word.lean ====
section
/-! DEFINITION. The word types of Darxia 1 (R4, R31, R36): bytes, 32-bit elements, 64-bit words and the numbers of registers. -/

namespace Sys2Proof

/-- One byte (R4). -/
abbrev Byte := BitVec 8
/-- One 32-bit register element (R146). -/
abbrev W32 := BitVec 32
/-- One 64-bit word: a scalar register, an instruction word, a virtual address (R31, R146). -/
abbrev W64 := BitVec 64
/-- The number of a vector register, v0 to v255 (R41). -/
abbrev VNum := BitVec 8
/-- The number of a scalar register, s0 to s63 (R41). -/
abbrev SNum := BitVec 6
/-- The number of a matrix register, m0 to m15 (R41). -/
abbrev MNum := BitVec 4
/-- The number of a ring register, k0 to k7 (R41). -/
abbrev KNum := BitVec 3

end Sys2Proof
end

