-- ==== Sys2Proof/Syntax.lean ====
section
/-! DEFINITION. The instructions of Darxia 1 and the events of the Heltolen 7200: one constructor of `Instr` for each row
of spec/opcode_table.json. The first part is the instruction words (R62); the second is the rows that no instruction word
encodes (the asynchronous, host and management steps), which carry the numbers of the things they act on. -/

namespace Sys2Proof

/-- The format tags (R73), in the order of their codes 0 to 12. -/
inductive Tag where
  | raw | i32 | n32 | f32 | f64 | h16 | b16 | e4m3 | e5m2 | f4 | pt8 | i8 | i4
deriving DecidableEq, Repr

/-- The condition of SCMP and ICMP (R62). -/
inductive Cond where
  | eq | ne | lt | le | gt | ge
deriving DecidableEq, Repr

/-- The condition of FCMP (R62). -/
inductive FCond where
  | eq | ne | lt | le | gt | ge | ord | uno
deriving DecidableEq, Repr

/-- The rounding modes (R11, R76). -/
inductive Rnd where
  | rne | rtz | rup | rdn
deriving DecidableEq, Repr

/-- The TYPE field of the integer element forms (R165). -/
inductive IType where
  | i32 | n32 | i8 | n8 | i4
deriving DecidableEq, Repr

/-- The modes of SHFL (R181). -/
inductive ShflMode where
  | idx | up | down | xor
deriving DecidableEq, Repr

/-- The kinds of VOTE (R181). -/
inductive VoteKind where
  | ballot | any | all | eq
deriving DecidableEq, Repr

/-- The operations of LREDUCE (R181). -/
inductive RedOp where
  | add | min | max | or
deriving DecidableEq, Repr

/-- The four directions of the neighbour grid (R254). -/
inductive Dir where
  | n | e | s | w
deriving DecidableEq, Repr

/-- The qualifiers of scratchpad loads (R151). -/
inductive LQual where
  | none | fe | feClr | poll
deriving DecidableEq, Repr

/-- The qualifiers of scratchpad stores (R151). -/
inductive SQual where
  | none | fill | fe
deriving DecidableEq, Repr

/-- The address forms of scratchpad loads and stores (R151). -/
inductive AMode where
  | base | scaled | ring
deriving DecidableEq, Repr

/-- The eight scopes (R27, R255). -/
inductive Scope where
  | coh | blk | core | quad | clus | die | pkg | pod
deriving DecidableEq, Repr

/-- The orders (R255, R256). -/
inductive MOrd where
  | rlx | acq | rel | ar | sc
deriving DecidableEq, Repr

/-- The spaces an atomic may name (R255). -/
inductive ASpace where
  | core | die | mem
deriving DecidableEq, Repr

/-- The operations of ATOM, in the order of their OP (R258). -/
inductive AtomOp where
  | add | min | max | and | or | xor | exch | fadd | fmin | fmax
deriving DecidableEq, Repr

/-- The scratchpad spaces of loads, stores, MLD and MST (R141, R199). -/
inductive Space where
  | core | window | die | frame
deriving DecidableEq, Repr

/-- The modes of a DX prefix (R16, R223). -/
inductive DxMode where
  | prop | stop | tonly | seed
deriving DecidableEq, Repr

/-- The index modes of Turret words (R127). -/
inductive IdxMode where
  | uns | sx | a64
deriving DecidableEq, Repr

/-- A source operand (R41, R50): a register, a special, an inline value, the literal, or a latch entry. -/
inductive Src where
  | v (n : VNum)
  | s (n : SNum)
  | b (n : SNum)
  | m (n : MNum)
  | k (n : KNum)
  /-- special 0x1A0 + n (R42) -/
  | special (n : BitVec 5)
  /-- inline integer n − 16, n below 48 (R45) -/
  | int (n : BitVec 6)
  /-- inline FP32 constant 0x1F0 + n, n below 15 (R46) -/
  | fp (n : BitVec 4)
  /-- the literal word (R47) -/
  | lit
  /-- ^(n + 1) (R50) -/
  | latch (n : BitVec 3)
deriving DecidableEq, Repr

/-- A destination (R43): a register, SEED, or the latch window alone (NWB = 1, R53). -/
inductive Dst where
  | v (n : VNum)
  | s (n : SNum)
  | b (n : SNum)
  | m (n : MNum)
  | k (n : KNum)
  | seed
  | nwb
deriving DecidableEq, Repr

/-- The fields every instruction word has (R36): the counters it waits for, the counter it sets, and the literal word that
follows it (R37), if it names one. -/
structure Ctl where
  wait : BitVec 8
  set  : Option (BitVec 3)
  lit  : Option W64
deriving DecidableEq, Repr

/-- The control of CVT and CVTS (R176). -/
structure CvtCtl where
  tgt  : Tag
  sat  : Bool
  dstU : Bool
  srcU : Bool
  src  : Option Tag
deriving DecidableEq, Repr

/-- The format, qualifier, address form and displacement of a scratchpad load (R151). -/
structure LdCtl where
  fmt  : Tag
  q    : LQual
  mode : AMode
  disp : BitVec 8
deriving DecidableEq, Repr

/-- The qualifier, address form and displacement of a scratchpad store (R151). -/
structure StCtl where
  q    : SQual
  mode : AMode
  disp : BitVec 7
deriving DecidableEq, Repr

/-- The control of atomics (R255); RET stands in the form of the word. -/
structure AtCtl where
  space : ASpace
  scope : Scope
  ord   : MOrd
deriving DecidableEq, Repr

/-- What BQUERY asks for (R121). -/
inductive BqSel where
  | obj (o : Src)
  | batches
  | slots
deriving DecidableEq, Repr

/-- The names of a path: block, cohort and slot (R21). -/
structure PathRef where
  blk : Nat
  coh : Nat
  isB : Bool
deriving DecidableEq, Repr

/-- The kind of access that a translation serves (R91). -/
inductive Access where
  | read | write | atomic | exclRead | fetch | copyIn | copyOut | pref
deriving DecidableEq, Repr

/-- The registers of the management plane and of BAR2 (R5, R339, R370, R376, R386, R388, R402), those with a row of their own among them. -/
inductive HReg where
  | bpc (n : Nat) | wpb (n : Nat) | smpper | smpbase | smpsize | mbxst | recctl | recarm | logbase | logstride | logcount
  | ckbase | ckdepth | engbase | engsize | mcstatus (n : Nat) | mcctl (n : Nat) | mccount (n : Nat)
  | lifethr | featacc (n : Nat) | route (n : Nat) | ro (n : Nat)
  | bphit (part : Nat) | stopst | smpdrop | mcaddr (n : Nat) | mcmisc (n : Nat) | lifeh
  | featoff (n : Nat) | featst | featgo | qtbase | qtinv | qtinvst | dbdrop | plim | bootst
  | fenced (core : Nat) | down | inletTemp | inputPower
deriving DecidableEq, Repr

/-- The instructions and events: one constructor for each row of spec/opcode_table.json. -/
inductive Instr where
  -- CLASS 0x0 (R162)
  | sadd (c : Ctl) (d : Dst) (a b : Src)
  | ssub (c : Ctl) (d : Dst) (a b : Src)
  | smul (c : Ctl) (d : Dst) (a b : Src)
  | smin (c : Ctl) (u : Bool) (d : Dst) (a b : Src)
  | smax (c : Ctl) (u : Bool) (d : Dst) (a b : Src)
  | sand (c : Ctl) (d : Dst) (a b : Src)
  | sor (c : Ctl) (d : Dst) (a b : Src)
  | sxor (c : Ctl) (d : Dst) (a b : Src)
  | sandn (c : Ctl) (d : Dst) (a b : Src)
  | snot (c : Ctl) (d : Dst) (a : Src)
  | sshl (c : Ctl) (d : Dst) (a b : Src)
  | sshr (c : Ctl) (d : Dst) (a b : Src)
  | ssar (c : Ctl) (d : Dst) (a b : Src)
  | smov (c : Ctl) (d : Dst) (a : Src)
  | ssel (c : Ctl) (d : Dst) (p a b : Src)
  | spopc (c : Ctl) (d : Dst) (a : Src)
  | sffs (c : Ctl) (d : Dst) (a : Src)
  | sfls (c : Ctl) (d : Dst) (a : Src)
  | srdlane (c : Ctl) (w : Bool) (d : Dst) (a l : Src)
  | scmp (c : Ctl) (cc : Cond) (u : Bool) (d : Dst) (a b : Src)
  -- CLASS 0x1 (R165)
  | iadd (c : Ctl) (sat : Bool) (ty : IType) (d : Dst) (a b : Src)
  | isub (c : Ctl) (sat : Bool) (ty : IType) (d : Dst) (a b : Src)
  | imul (c : Ctl) (sat : Bool) (ty : IType) (d : Dst) (a b : Src)
  | imulh (c : Ctl) (ty : IType) (d : Dst) (a b : Src)
  | imad (c : Ctl) (u : Bool) (d : Dst) (a b e : Src)
  | idiv (c : Ctl) (ty : IType) (d : Dst) (a b : Src)
  | irem (c : Ctl) (ty : IType) (d : Dst) (a b : Src)
  | imin (c : Ctl) (ty : IType) (d : Dst) (a b : Src)
  | imax (c : Ctl) (ty : IType) (d : Dst) (a b : Src)
  | iabs (c : Ctl) (sat : Bool) (ty : IType) (d : Dst) (a : Src)
  | vand (c : Ctl) (d : Dst) (a b : Src)
  | vor (c : Ctl) (d : Dst) (a b : Src)
  | vxor (c : Ctl) (d : Dst) (a b : Src)
  | vandn (c : Ctl) (d : Dst) (a b : Src)
  | vnot (c : Ctl) (d : Dst) (a : Src)
  | shl (c : Ctl) (d : Dst) (a b : Src)
  | shr (c : Ctl) (d : Dst) (a b : Src)
  | sar (c : Ctl) (d : Dst) (a b : Src)
  | rot (c : Ctl) (d : Dst) (a b : Src)
  | bfe (c : Ctl) (sx : Bool) (d : Dst) (a b : Src)
  | bfi (c : Ctl) (d : Dst) (a b e : Src)
  | popc (c : Ctl) (d : Dst) (a : Src)
  | clz (c : Ctl) (d : Dst) (a : Src)
  | brev (c : Ctl) (d : Dst) (a : Src)
  | icmp (c : Ctl) (cc : Cond) (u : Bool) (d : Dst) (a b : Src)
  | sel (c : Ctl) (w : Bool) (d : Dst) (p a b : Src)
  | mov (c : Ctl) (w : Bool) (as : Option Tag) (d : Dst) (a : Src)
  | movs (c : Ctl) (w : Bool) (d : Dst) (p a : Src)
  -- CLASS 0x2 (R170)
  | fadd (c : Ctl) (r : Rnd) (d : Dst) (a b : Src)
  | fsub (c : Ctl) (r : Rnd) (d : Dst) (a b : Src)
  | fmul (c : Ctl) (r : Rnd) (d : Dst) (a b : Src)
  | ffma (c : Ctl) (r : Rnd) (d : Dst) (a b e : Src)
  | fmin (c : Ctl) (d : Dst) (a b : Src)
  | fmax (c : Ctl) (d : Dst) (a b : Src)
  | fdiv (c : Ctl) (r : Rnd) (d : Dst) (a b : Src)
  | fsqrt (c : Ctl) (r : Rnd) (d : Dst) (a : Src)
  | fcmp (c : Ctl) (fc : FCond) (d : Dst) (a b : Src)
  | frnd (c : Ctl) (r : Rnd) (d : Dst) (a : Src)
  | fclass (c : Ctl) (d : Dst) (a : Src)
  | fscl (c : Ctl) (r : Rnd) (d : Dst) (a b : Src)
  | fdot2 (c : Ctl) (r : Rnd) (d : Dst) (a b e : Src)
  | fdot4 (c : Ctl) (r : Rnd) (d : Dst) (a b e : Src)
  -- CLASS 0x3 (R176 to R179)
  | cvt (c : Ctl) (r : Rnd) (cv : CvtCtl) (d : Dst) (a : Src)
  | cvts (c : Ctl) (cv : CvtCtl) (d : Dst) (a : Src)
  | pack (c : Ctl) (d : Dst) (a b e : Src)
  | unpk (c : Ctl) (d : Dst) (a b : Src)
  | frcp (c : Ctl) (d : Dst) (a : Src)
  | frsq (c : Ctl) (d : Dst) (a : Src)
  | fexp2 (c : Ctl) (d : Dst) (a : Src)
  | flog2 (c : Ctl) (d : Dst) (a : Src)
  | fsin (c : Ctl) (d : Dst) (a : Src)
  | fcos (c : Ctl) (d : Dst) (a : Src)
  | ftanh (c : Ctl) (d : Dst) (a : Src)
  -- CLASS 0x4 (R181)
  | shfl (c : Ctl) (mode : ShflMode) (w : Bool) (d : Dst) (a b : Src)
  | vote (c : Ctl) (vk : VoteKind) (d : Dst) (a : Src)
  | mpref (c : Ctl) (incl : Bool) (d : Dst) (a : Src)
  | lbcast (c : Ctl) (w : Bool) (d : Dst) (a b : Src)
  | lreduce (c : Ctl) (op : RedOp) (d : Dst) (a : Src)
  -- CLASS 0x5 (R197)
  | mshape (c : Ctl) (kax : Bool) (d : MNum) (a b e : Src)
  | mzero (c : Ctl) (d : MNum)
  | mid (c : Ctl) (d : MNum)
  | mld (c : Ctl) (sp : Space) (pitch : BitVec 7) (d : MNum) (a b : Src)
  | mst (c : Ctl) (sp : Space) (pitch : BitVec 7) (a b : Src) (m : MNum)
  | mget (c : Ctl) (d : Dst) (a : MNum) (r e : Src)
  | mput (c : Ctl) (d : MNum) (a r e : Src)
  | mmul (c : Ctl) (acc neg : Bool) (d a b : MNum)
  | mmult (c : Ctl) (acc neg : Bool) (d a b : MNum)
  | mtmul (c : Ctl) (acc neg : Bool) (d a b : MNum)
  | madd (c : Ctl) (d a b : MNum)
  | msub (c : Ctl) (d a b : MNum)
  | mscal (c : Ctl) (d a : MNum) (f : Src)
  | mhad (c : Ctl) (d a b : MNum)
  | mtr (c : Ctl) (d a : MNum)
  | mcvt (c : Ctl) (kax : Bool) (tgt : Tag) (d a : MNum)
  | mring (c : Ctl) (dir : Dir) (d a : MNum)
  -- CLASS 0x6 (R197)
  | minv (c : Ctl) (d a : MNum) (t : SNum)
  | mlu (c : Ctl) (d a : MNum) (t : SNum) (p : VNum)
  | mlus (c : Ctl) (d a b : MNum) (p : Src)
  | mchol (c : Ctl) (d a : MNum) (t : SNum)
  | mexp (c : Ctl) (d a : MNum)
  | mtrq (c : Ctl) (d a : MNum)
  | mnrm1 (c : Ctl) (d : Dst) (a : MNum)
  | minvT (c : Ctl) (d a : MNum) (t : SNum)
  | mluT (c : Ctl) (d a : MNum) (t : SNum) (p : VNum)
  | mcholT (c : Ctl) (d a : MNum) (t : SNum)
  -- CLASS 0x7 (R151)
  | lds (c : Ctl) (l : LdCtl) (d : Dst) (a b : Src)
  | ldc (c : Ctl) (l : LdCtl) (d : Dst) (a b : Src)
  | ldd (c : Ctl) (l : LdCtl) (d : Dst) (a b : Src)
  | ldp (c : Ctl) (l : LdCtl) (d : Dst) (a b : Src)
  | sts (c : Ctl) (l : StCtl) (a b v : Src)
  | stc (c : Ctl) (l : StCtl) (a b v : Src)
  | std (c : Ctl) (l : StCtl) (a b v : Src)
  | stp (c : Ctl) (l : StCtl) (a b v : Src)
  -- CLASS 0x8 (R111)
  | bcp (c : Ctl) (out box : Bool) (d : SNum) (a n o : Src)
  | bcpm (c : Ctl) (box : Bool) (d : SNum) (a : Src) (n : SNum) (o : Src)
  | bfill (c : Ctl) (out : Bool) (d : SNum) (a n o : Src)
  | bfillEmpty (c : Ctl) (d : SNum) (n o : Src)
  | bpref (c : Ctl) (a n : Src)
  | bobj (c : Ctl) (o n : Src)
  | barv (c : Ctl) (o : Src)
  | bwait (c : Ctl) (o p : Src)
  | bcommit (c : Ctl)
  | bwaitn (c : Ctl) (n : Src)
  | bquery (c : Ctl) (d : Dst) (sel : BqSel)
  -- CLASS 0x9 (R127)
  | gath (c : Ctl) (mode : IdxMode) (fmt : Tag) (d : Dst) (a b : Src)
  | gaths (c : Ctl) (w sx : Bool) (d : SNum) (a b o : Src)
  | scat (c : Ctl) (mode : IdxMode) (a b v : Src)
  | scata (c : Ctl) (mode : IdxMode) (a b v : Src)
  | ldspl (c : Ctl) (mode : IdxMode) (d : MNum) (a b : Src)
  | hacc (c : Ctl) (d : SNum) (k : KNum) (key v : Src)
  -- CLASS 0xA (R254)
  | atom (c : Ctl) (op : AtomOp) (w u : Bool) (al : AtCtl) (d : Option Dst) (a b : Src)
  | cas (c : Ctl) (w : Bool) (al : AtCtl) (d : Dst) (a b : Src)
  | ldx (c : Ctl) (w : Bool) (al : AtCtl) (d : Dst) (a : Src)
  | stx (c : Ctl) (w : Bool) (al : AtCtl) (d : Dst) (a b : Src)
  | fence (c : Ctl) (sc : Scope) (ord : MOrd)
  | bar (c : Ctl)
  | bara (c : Ctl) (d : Dst)
  | barw (c : Ctl) (t : Src)
  | sbar (c : Ctl) (sc : Scope) (n : Src)
  | sbarGrid (c : Ctl)
  | nsend (c : Ctl) (dir : Dir) (a : Src)
  | nrecv (c : Ctl) (dir : Dir) (d : Dst)
  | yield (c : Ctl)
  | sleep (c : Ctl) (n : Src)
  -- CLASS 0xB (R247, R299)
  | nop (c : Ctl)
  | bra (c : Ctl) (off : BitVec 19)
  | brc (c : Ctl) (off : BitVec 19) (rec : BitVec 10) (p : Src)
  | brcBlk (c : Ctl) (off : BitVec 19) (rec : BitVec 10) (p : Src)
  | brcBlkKeep (c : Ctl) (off : BitVec 19) (rec : BitVec 10) (p : Src)
  | brx (c : Ctl) (a : Src)
  | call (c : Ctl) (off : BitVec 19) (link : VNum)
  | ret (c : Ctl) (link : Src)
  | join (c : Ctl)
  | regroup (c : Ctl)
  | exit (c : Ctl)
  | spawn (c : Ctl) (entry : Src) (v : VNum) (aff : Src)
  -- CLASS 0xC (R229, R230)
  | dx (mode : DxMode) (mask : BitVec 4)
  | tget (c : Ctl) (k : BitVec 2) (d : Dst) (a : Src)
  | tset (c : Ctl) (k : BitVec 2) (d : Dst) (a : Src)
  | tzero (c : Ctl) (mask : BitVec 4) (d : Dst)
  | tseed (c : Ctl) (k : BitVec 2) (d : Dst)
  -- CLASS 0xD (R323)
  | finf (c : Ctl) (d : Dst) (cap : Src) (sel : BitVec 4)
  | frdv (c : Ctl) (w : Bool) (k : BitVec 3) (d : Dst) (cap r : Src)
  | fwrv (c : Ctl) (w : Bool) (k : BitVec 3) (r : Dst) (cap v : Src)
  | frds (c : Ctl) (d : Dst) (cap r : Src)
  | fwrs (c : Ctl) (r : Dst) (cap v : Src)
  | frdm (c : Ctl) (k : BitVec 3) (d : Dst) (cap : Src) (r : MNum)
  | fwrm (c : Ctl) (k : BitVec 3) (r : MNum) (cap : Src) (a : MNum)
  | frsmRetry (c : Ctl) (cap : Src)
  | frsmSkip (c : Ctl) (cap : Src)
  | frsmPc (c : Ctl) (cap pc : Src)
  | frsmStep (c : Ctl) (cap : Src)
  | fkilLanes (c : Ctl) (cap p : Src)
  | fkilCoh (c : Ctl) (cap : Src)
  | fkilGrid (c : Ctl) (cap : Src)
  | frel (c : Ctl) (cap : Src)
  -- CLASS 0xE (R332, R351)
  | srd (c : Ctl) (d : Dst) (n : BitVec 10)
  | swr (c : Ctl) (n : BitVec 10) (a : Src)
  | brk (c : Ctl)
  | trap (c : Ctl) (n : BitVec 8)
  | tlbinvPage (c : Ctl) (a : Src)
  | tlbinvPasid (c : Ctl)
  | icinvRange (c : Ctl) (a n : Src)
  | icinvAll (c : Ctl)
  | mbxr (c : Ctl) (acq : Bool) (d : Dst) (j : BitVec 4) (w : BitVec 3)
  | mbxw (c : Ctl) (post : Bool) (j : BitVec 4) (w : BitVec 3) (a : Src)
  | psamp (c : Ctl) (a : Option Src)
  | ckpt (c : Ctl)
  -- EVENTS: the rows that no instruction word encodes
  | sfuResultWrite (id lane : Nat)
  | matrixWordStart (id : Nat)
  | matrixWordFinish (id : Nat)
  | shapeGroupFinish (id : Nat)
  | scratchpadLoadLands (id lane : Nat)
  | scratchpadStorePerformed (id lane : Nat)
  | feWaitSatisfied (id lane : Nat)
  | bulkSlotGrant (core : Nat)
  | copyByteLands (id n : Nat)
  | bprefWalkEnd (id : Nat)
  | bwaitReturn (p : PathRef)
  | bwaitnReturn (p : PathRef)
  | bcommitRoom (p : PathRef)
  | turretLaneReply (id lane : Nat)
  | atomicStepPerformed (id lane : Nat)
  | fenceWaitEnd (p : PathRef)
  | scopedBarrierRelease (grid key : Nat)
  | nsendRoom (p : PathRef)
  | neighbourEntryArrival (p : PathRef)
  | yieldPauseEnd (blk coh : Nat)
  | sleepEnd (p : PathRef)
  | spawnQueueRoom (p : PathRef)
  | meetingComplete (blk : Nat)
  | blkRecordRestore (blk : Nat)
  | singleStepFreeze (blk coh : Nat)
  | issueSelect (core part : Nat)
  | cohortBecomesUrgent (blk coh : Nat)
  | fairnessRotation (blk coh : Nat)
  | counterWaitRelease (blk coh : Nat)
  | heldFaultEnqueue (die : Nat)
  | handlerSlotTakesRecord (die : Nat)
  | nestSlotTakesFault (die : Nat)
  | replyToSavedImage (id lane : Nat)
  | translationWalk (unit pasid : Nat) (va : W64) (ac : Access)
  | missQueueResume (unit : Nat)
  | blockPlacement (grid : Nat)
  | scratchpadCompaction (core : Nat)
  | blockRotation (grid : Nat)
  | rotatedBlockRestore (grid : Nat)
  | residencyDeadlockKill (grid : Nat)
  | taskGroupTimeout (die : Nat)
  | gridEnd (grid : Nat)
  | preemption (grid : Nat)
  | hostStopRequest (core part : Nat)
  | partitionResume (core part : Nat)
  | partitionDump (core part : Nat)
  | autoCheckpoint (blk : Nat)
  | reverseStep (blk coh n : Nat)
  | engineReplay (die lo hi : Nat)
  | hostMailboxWrite (die : Nat) (j : BitVec 4) (w : BitVec 3) (v : W64)
  | crcRetransmit (link : Nat) (again : Bool)
  | fatalStop (die bank : Nat)
  | selftestGroupComplete (die group : Nat)
  | lifehUpdate (die : Nat) (v : W32)
  | doorbell (q tail : Nat)
  | queueCommandFetch (q : Nat)
  | launch (q id : Nat)
  | copy (q id : Nat)
  | waitval (q id : Nat)
  | waitvalTimeout (q id : Nat)
  | signal (q id : Nat)
  | branch (q id : Nat)
  | selftest (q id : Nat)
  | fenceCommand (q id : Nat)
  | qbindWrite (n : Nat) (v : W64)
  | qtinv (v : W64)
  | qtinvComplete
  | qtbaseWrite (v : W64)
  | featgo
  | qwWeightWrite (die n : Nat) (router : Bool) (v : W32)
  | packageFlitArrival (die id : Nat)
  | requestReassembled (id : Nat)
  | spireLinkDown (link : Nat)
  | powerOn
  | firmwareImage (img : List Byte)
  | attestationRequest (nonce : List Byte)
  | plimWrite (v : W32)
  | ps2Entry
  | thermalThrottle (die : Nat)
  | thermalTrip (die : Nat)
  | powerOff
  | registerWrite (die core : Nat) (r : HReg) (v : W64)
  | thermalThrottleEnd (die : Nat)
  | firmwareVerifyComplete
  | waitvalCompareHolds (q id : Nat)
  | returnToLive (blk : Nat)
  | handlerOrSystemReadLands (id : Nat)
deriving DecidableEq, Repr

end Sys2Proof
end

