-- ==== Sys2Proof/WellFormed.lean ====
section
/-! DEFINITION. Which operands an instruction word may hold (R41 to R57 and the field tables of the chapters): the kind of
every source and destination field, and the conditions that the field tables add. A word that is not well formed is an
illegal-encoding fault. -/

namespace Sys2Proof

/-- What the launch fixes for decoding: the vector registers VR and the reserved tangents T (R146, R147, R218). -/
structure Lim where
  vr : Nat
  t  : Nat
deriving DecidableEq, Repr

/-- The kind of a source field (R41). -/
inductive SK where
  /-- a vector source; `int`, `fp`: inline integers, inline FP constants are allowed; `w`: fixed at 64 bits (R44, R45, R46) -/
  | vec (int fp w : Bool)
  /-- a vector register or a vector latch entry (R176, R230); `w`: a pair, by a forced F64 format (R44, R176) -/
  | reg (w : Bool)
  /-- a scalar source; `fp`: an inline FP constant is moved (R46) -/
  | sca (fp : Bool)
  /-- a pair source -/
  | pair
  /-- a pair or scalar source (R254, R299) -/
  | pairSca
  /-- a ring register -/
  | ring
  /-- a vector register by number (ring index, R151) -/
  | vreg
  /-- a scalar register whose group of `n` stays within s63 (R111) -/
  | group (n : Nat)
  /-- a frozen register or special named lane for lane (R323) -/
  | frzV (w : Bool) (k : BitVec 3)
  /-- a frozen register or special of the cohort (R323) -/
  | frzS
  /-- a matrix register (R230) -/
  | mat
deriving DecidableEq, Repr

/-- The kind of a destination field (R43); `nwb`: NWB = 1 is allowed (R53). -/
inductive DK where
  | vec (w nwb : Bool)
  | sca (nwb : Bool)
  /-- SMOV: also a ring register (R162) -/
  | smov
  /-- LREDUCE: vector, pair, s or b (R181) -/
  | lred
  /-- tangent words: vector, pair or matrix (R230); TGET writes a primal, and may write SEED (R43) -/
  | tan (nwb : Bool)
  /-- FWRV's frozen register (R323) -/
  | frzV (w : Bool) (k : BitVec 3)
  /-- FWRS's frozen register (R323) -/
  | frzS
  /-- FRDM: a matrix register, or a vector register with .desc (R323) -/
  | frdm
deriving DecidableEq, Repr

/-- A vector register number below VR; for a pair, even and with its high register below VR (R44, R146). -/
def VNum.ok (L : Lim) (w : Bool) (n : VNum) : Bool :=
  if w then n.toNat % 2 == 0 && decide (n.toNat + 1 < L.vr) else decide (n.toNat < L.vr)

/-- The specials that are not reserved (R42). -/
def specialOk (n : BitVec 5) : Bool := decide (n.toNat ≤ 0x1C)

/-- The specials that are no thread's: the ones a scalar source may read (R42). -/
def specialSca (n : BitVec 5) : Bool :=
  specialOk n && !(n == 1#5 || n == 2#5 || n == 3#5 || n == 4#5 || n == 0x18#5)

/-- The value kinds that any vector or scalar field may hold (R41, R45, R46). -/
def Src.inlineOk (int fp : Bool) : Src → Bool
  | .int n => int && decide (n.toNat < 48)
  | .fp n => fp && decide (n.toNat < 15)
  | .lit => true
  | _ => false

/-- A source fits the kind of its field (R41). Latch entries are checked against the clause (R52). -/
def Src.ok (L : Lim) : SK → Src → Bool
  | .vec _ _ w, .v n => VNum.ok L w n
  | .vec _ _ _, .s _ => true
  | .vec _ _ _, .b _ => true
  | .vec _ _ _, .special n => specialOk n
  | .vec _ _ _, .latch _ => true
  | .vec i f _, x => x.inlineOk i f
  | .reg w, .v n => VNum.ok L w n
  | .reg _, .latch _ => true
  | .reg _, _ => false
  | .sca _, .s _ => true
  | .sca _, .b _ => true
  | .sca _, .special n => specialSca n
  | .sca _, .latch _ => true
  | .sca f, x => x.inlineOk true f
  | .pair, .v n => VNum.ok L true n
  | .pair, .latch _ => true
  | .pair, _ => false
  | .pairSca, .v n => VNum.ok L true n
  | .pairSca, .s _ => true
  | .pairSca, .b _ => true
  | .pairSca, .special n => specialSca n
  | .pairSca, .latch _ => true
  | .pairSca, x => x.inlineOk true false
  | .ring, .k _ => true
  | .ring, _ => false
  | .vreg, .v n => VNum.ok L false n
  | .vreg, _ => false
  | .group n, .s x => decide (x.toNat + n ≤ 64)
  | .group _, _ => false
  | .frzV w kk, .v n => decide (kk.toNat ≤ 4) && (!w || n.toNat % 2 == 0)
  | .frzV w kk, .special n => kk == 0#3 && (n == 1#5 || n == 2#5 || n == 3#5 || n == 4#5 || (n == 0x18#5 && !w))
  | .frzV _ _, _ => false
  | .frzS, .s _ => true
  | .frzS, .b _ => true
  | .frzS, .k _ => true
  | .frzS, .special n => specialSca n
  | .frzS, _ => false
  | .mat, .m _ => true
  | .mat, _ => false

/-- A destination fits the kind of its field (R43). -/
def Dst.ok (L : Lim) : DK → Dst → Bool
  | .vec w _, .v n => VNum.ok L w n
  | .vec w _, .seed => !w
  | .vec _ ok, .nwb => ok
  | .vec _ _, _ => false
  | .sca _, .s _ => true
  | .sca _, .b _ => true
  | .sca ok, .nwb => ok
  | .sca _, _ => false
  | .smov, .s _ => true
  | .smov, .b _ => true
  | .smov, .k _ => true
  | .smov, .nwb => true
  | .smov, _ => false
  | .lred, .v n => VNum.ok L false n
  | .lred, .s _ => true
  | .lred, .b _ => true
  | .lred, .seed => true
  | .lred, .nwb => true
  | .lred, _ => false
  | .tan _, .v n => VNum.ok L false n
  | .tan _, .m _ => true
  | .tan ok, .seed => ok
  | .tan ok, .nwb => ok
  | .tan _, _ => false
  | .frzV w kk, .v n => decide (kk.toNat ≤ 4) && (!w || n.toNat % 2 == 0)
  | .frzV w kk, .seed => !w && kk == 0#3
  | .frzV _ _, _ => false
  | .frzS, .s _ => true
  | .frzS, .b _ => true
  | .frzS, .k _ => true
  | .frzS, _ => false
  | .frdm, .m _ => true
  | .frdm, .v n => VNum.ok L false n
  | .frdm, _ => false

/-- An integer vector source. -/
def SK.vi : SK := .vec true false false
/-- A floating-point vector source. -/
def SK.vf : SK := .vec false true false
/-- A vector source that is moved, or whose format is known only at issue. -/
def SK.va : SK := .vec true true false
/-- A vector source that is moved, 64 bits wide when `w` holds. -/
def SK.vm (w : Bool) : SK := .vec true true w
/-- A scalar integer source. -/
def SK.si : SK := .sca false

/-- The kind of the address base in the address forms of R151. -/
def AMode.baseK : AMode → SK
  | .ring => .ring
  | _ => .vi
/-- The kind of the index in the address forms of R151. -/
def AMode.idxK : AMode → SK
  | .ring => .vreg
  | _ => .vi
/-- The kind of the Turret index (R127). -/
def IdxMode.idxK : IdxMode → SK
  | .a64 => .pair
  | _ => .vi
/-- The kind of an atomic's address field (R254). -/
def ASpace.addrK : ASpace → SK
  | .mem => .pairSca
  | _ => .vi
/-- The kind of an atomic's value field (R257). -/
def AtomOp.valK (w : Bool) : AtomOp → SK
  | .exch => .vec true true w
  | .fadd | .fmin | .fmax => .vec false true w
  | _ => .vec true false w

/-- The source fields of a word with their kinds, in the order SA, SB, SC. -/
def Instr.srcs : Instr → List (SK × Src)
  | .sadd _ _ a b | .ssub _ _ a b | .smul _ _ a b | .smin _ _ _ a b | .smax _ _ _ a b | .sand _ _ a b | .sor _ _ a b
  | .sxor _ _ a b | .sandn _ _ a b | .sshl _ _ a b | .sshr _ _ a b | .ssar _ _ a b | .scmp _ _ _ _ a b => [(.si, a), (.si, b)]
  | .snot _ _ a | .spopc _ _ a | .sffs _ _ a | .sfls _ _ a => [(.si, a)]
  | .smov _ _ a => match a with
    | .k _ => [(.ring, a)]
    | _ => [(.sca true, a)]
  | .ssel _ _ p a b => [(.si, p), (.sca true, a), (.sca true, b)]
  | .srdlane _ w _ a l => [(if w then .pair else .vi, a), (.si, l)]
  | .iadd _ _ _ _ a b | .isub _ _ _ _ a b | .imul _ _ _ _ a b | .imulh _ _ _ a b | .idiv _ _ _ a b | .irem _ _ _ a b
  | .imin _ _ _ a b | .imax _ _ _ a b | .vand _ _ a b | .vor _ _ a b | .vxor _ _ a b | .vandn _ _ a b | .shl _ _ a b
  | .shr _ _ a b | .sar _ _ a b | .rot _ _ a b | .bfe _ _ _ a b | .icmp _ _ _ _ a b => [(.vi, a), (.vi, b)]
  | .imad _ _ _ a b e | .bfi _ _ a b e => [(.vi, a), (.vi, b), (.vi, e)]
  | .iabs _ _ _ _ a | .vnot _ _ a | .popc _ _ a | .clz _ _ a | .brev _ _ a => [(.vi, a)]
  | .sel _ w _ p a b => [(.si, p), (.vm w, a), (.vm w, b)]
  | .mov _ w _ _ a => [(.vm w, a)]
  | .movs _ w _ p a => [(.si, p), (.vm w, a)]
  | .fadd _ _ _ a b | .fsub _ _ _ a b | .fmul _ _ _ a b | .fmin _ _ a b | .fmax _ _ a b | .fdiv _ _ _ a b | .fcmp _ _ _ a b =>
    [(.vf, a), (.vf, b)]
  | .ffma _ _ _ a b e | .fdot2 _ _ _ a b e | .fdot4 _ _ _ a b e => [(.vf, a), (.vf, b), (.vf, e)]
  | .fsqrt _ _ _ a | .frnd _ _ _ a | .fclass _ _ a => [(.vf, a)]
  | .fscl _ _ _ a b => [(.vf, a), (.vi, b)]
  | .cvt _ _ cv _ a | .cvts _ cv _ a => [(.reg (cv.src == some .f64), a)]
  | .pack _ _ a b e => [(.va, a), (.va, b), (.vi, e)]
  | .unpk _ _ a b => [(.va, a), (.vi, b)]
  | .frcp _ _ a | .frsq _ _ a | .fexp2 _ _ a | .flog2 _ _ a | .fsin _ _ a | .fcos _ _ a | .ftanh _ _ a => [(.vf, a)]
  | .shfl _ _ w _ a b => [(.vm w, a), (.vi, b)]
  | .vote _ _ _ a => [(.vi, a)]
  | .mpref _ _ _ a => [(.si, a)]
  | .lbcast _ w _ a b => [(.vm w, a), (.si, b)]
  | .lreduce _ _ _ a => [(.va, a)]
  | .mshape _ _ _ a b e => [(.vi, a), (.vi, b), (.vi, e)]
  | .mld _ _ _ _ a b | .mst _ _ _ a b _ => [(.vi, a), (.vi, b)]
  | .mget _ _ _ r e => [(.vi, r), (.vi, e)]
  | .mput _ _ a r e => [(.va, a), (.vi, r), (.vi, e)]
  | .mscal _ _ _ f => [(.va, f)]
  | .mlus _ _ _ _ p => [(.vi, p)]
  | .lds _ l _ a b | .ldc _ l _ a b | .ldd _ l _ a b | .ldp _ l _ a b => [(l.mode.baseK, a), (l.mode.idxK, b)]
  | .sts _ l a b v | .stc _ l a b v | .std _ l a b v | .stp _ l a b v => [(l.mode.baseK, a), (l.mode.idxK, b), (.va, v)]
  | .bcp _ _ box _ a n o => [(.si, a), (if box then .group 5 else .si, n), (.si, o)]
  | .bcpm _ box _ a n o => [(.si, a), (.group (if box then 6 else 2), .s n), (.si, o)]
  | .bfill _ _ _ a n o => [(.si, a), (.si, n), (.si, o)]
  | .bfillEmpty _ _ n o => [(.si, n), (.si, o)]
  | .bpref _ a n => [(.si, a), (.si, n)]
  | .bobj _ o n | .bwait _ o n => [(.si, o), (.si, n)]
  | .barv _ o | .bwaitn _ o => [(.si, o)]
  | .bquery _ _ (.obj o) => [(.si, o)]
  | .gath _ mode _ _ a b | .ldspl _ mode _ a b => [(.si, a), (mode.idxK, b)]
  | .gaths _ _ _ _ a b o => [(.si, a), (.vi, b), (.si, o)]
  | .scat _ mode a b v | .scata _ mode a b v => [(.si, a), (mode.idxK, b), (.va, v)]
  | .hacc _ _ _ key v => [(.vi, key), (.va, v)]
  | .atom _ op w _ al _ a b => [(al.space.addrK, a), (op.valK w, b)]
  | .cas _ w al _ a b | .stx _ w al _ a b => [(al.space.addrK, a), (.vec true true w, b)]
  | .ldx _ _ al _ a => [(al.space.addrK, a)]
  | .barw _ t => [(.si, t)]
  | .sbar _ _ n => [(.si, n)]
  | .nsend _ _ a => [(.va, a)]
  | .sleep _ n => [(.si, n)]
  | .brc _ _ _ p | .brcBlk _ _ _ p | .brcBlkKeep _ _ _ p => [(.si, p)]
  | .brx _ a => [(.si, a)]
  | .ret _ l => [(.pair, l)]
  | .spawn _ e _ f => [(.si, e), (.pairSca, f)]
  | .tget _ _ _ a => match a with
    | .m _ => [(.mat, a)]
    | _ => [(.reg false, a)]
  | .tset _ _ _ a => match a with
    | .m _ => [(.mat, a)]
    | _ => [(.va, a)]
  | .finf _ _ cap _ => [(.si, cap)]
  | .frdv _ w k _ cap r => [(.si, cap), (.frzV w k, r)]
  | .fwrv _ w _ _ cap v => [(.si, cap), (.vm w, v)]
  | .frds _ _ cap r => [(.si, cap), (.frzS, r)]
  | .fwrs _ _ cap v => [(.si, cap), (.si, v)]
  | .frdm _ _ _ cap _ | .fwrm _ _ _ cap _ => [(.si, cap)]
  | .frsmRetry _ cap | .frsmSkip _ cap | .frsmStep _ cap | .fkilCoh _ cap | .fkilGrid _ cap | .frel _ cap => [(.si, cap)]
  | .frsmPc _ cap p | .fkilLanes _ cap p => [(.si, cap), (.si, p)]
  | .swr _ _ a => [(.si, a)]
  | .tlbinvPage _ a => [(.si, a)]
  | .icinvRange _ a n => [(.si, a), (.si, n)]
  | .mbxw _ _ _ _ a => [(.si, a)]
  | .psamp _ (some a) => [(.si, a)]
  | _ => []

/-- The destination field of a word with its kind. -/
def Instr.dst : Instr → Option (DK × Dst)
  | .sadd _ d _ _ | .ssub _ d _ _ | .smul _ d _ _ | .smin _ _ d _ _ | .smax _ _ d _ _ | .sand _ d _ _ | .sor _ d _ _
  | .sxor _ d _ _ | .sandn _ d _ _ | .sshl _ d _ _ | .sshr _ d _ _ | .ssar _ d _ _ | .scmp _ _ _ d _ _ | .snot _ d _
  | .spopc _ d _ | .sffs _ d _ | .sfls _ d _ | .ssel _ d _ _ _ | .srdlane _ _ d _ _ => some (.sca true, d)
  | .smov _ d _ => some (.smov, d)
  | .iadd _ _ _ d _ _ | .isub _ _ _ d _ _ | .imul _ _ _ d _ _ | .imulh _ _ d _ _ | .idiv _ _ d _ _ | .irem _ _ d _ _
  | .imin _ _ d _ _ | .imax _ _ d _ _ | .vand _ d _ _ | .vor _ d _ _ | .vxor _ d _ _ | .vandn _ d _ _ | .shl _ d _ _
  | .shr _ d _ _ | .sar _ d _ _ | .rot _ d _ _ | .bfe _ _ d _ _ | .imad _ _ d _ _ _ | .bfi _ d _ _ _ | .iabs _ _ _ d _
  | .vnot _ d _ | .popc _ d _ | .clz _ d _ | .brev _ d _ => some (.vec false true, d)
  | .icmp _ _ _ d _ _ | .fcmp _ _ d _ _ | .vote _ _ d _ => some (.sca true, d)
  | .sel _ w d _ _ _ | .mov _ w _ d _ | .movs _ w d _ _ | .shfl _ _ w d _ _ | .lbcast _ w d _ _ => some (.vec w true, d)
  | .fadd _ _ d _ _ | .fsub _ _ d _ _ | .fmul _ _ d _ _ | .fmin _ d _ _ | .fmax _ d _ _ | .fdiv _ _ d _ _ | .ffma _ _ d _ _ _
  | .fdot2 _ _ d _ _ _ | .fdot4 _ _ d _ _ _ | .fsqrt _ _ d _ | .frnd _ _ d _ | .fclass _ d _ | .fscl _ _ d _ _
  | .pack _ d _ _ _ | .unpk _ d _ _ | .mpref _ _ d _ => some (.vec false true, d)
  | .cvt _ _ cv d _ | .cvts _ cv d _ => some (.vec (cv.tgt == .f64) true, d)
  | .frcp _ d _ | .frsq _ d _ | .fexp2 _ d _ | .flog2 _ d _ | .fsin _ d _ | .fcos _ d _ | .ftanh _ d _ => some (.vec false false, d)
  | .lreduce _ _ d _ => some (.lred, d)
  | .mget _ d _ _ _ | .mnrm1 _ d _ => some (.vec false false, d)
  | .lds _ l d _ _ | .ldc _ l d _ _ | .ldd _ l d _ _ | .ldp _ l d _ _ => some (.vec (l.fmt == .f64) false, d)
  | .bquery _ d _ | .bara _ d | .stx _ _ _ d _ _ | .finf _ d _ _ | .frds _ d _ _ | .srd _ d _ | .mbxr _ _ d _ _ =>
    some (.sca false, d)
  | .gath _ _ fmt d _ _ => some (.vec (fmt == .f64) false, d)
  | .atom _ _ w _ _ (some d) _ _ | .cas _ w _ d _ _ | .ldx _ w _ d _ => some (.vec w false, d)
  | .nrecv _ _ d => some (.vec false false, d)
  | .tget _ _ d _ => some (.tan true, d)
  | .tset _ _ d _ | .tzero _ _ d | .tseed _ _ d => some (.tan false, d)
  | .frdv _ w _ d _ _ => some (.vec w false, d)
  | .fwrv _ w k r _ _ => some (.frzV w k, r)
  | .fwrs _ r _ _ => some (.frzS, r)
  | .frdm _ _ d _ _ => some (.frdm, d)
  | _ => none

/-- The common fields of a word; none for a prefix and for an event. -/
def Instr.ctl : Instr → Option Ctl
  | .sadd c .. | .ssub c .. | .smul c .. | .smin c .. | .smax c .. | .sand c .. | .sor c .. | .sxor c .. | .sandn c .. | .snot c ..
  | .sshl c .. | .sshr c .. | .ssar c .. | .smov c .. | .ssel c .. | .spopc c .. | .sffs c .. | .sfls c .. | .srdlane c .. | .scmp c ..
  | .iadd c .. | .isub c .. | .imul c .. | .imulh c .. | .imad c .. | .idiv c .. | .irem c .. | .imin c .. | .imax c .. | .iabs c ..
  | .vand c .. | .vor c .. | .vxor c .. | .vandn c .. | .vnot c .. | .shl c .. | .shr c .. | .sar c .. | .rot c .. | .bfe c ..
  | .bfi c .. | .popc c .. | .clz c .. | .brev c .. | .icmp c .. | .sel c .. | .mov c .. | .movs c ..
  | .fadd c .. | .fsub c .. | .fmul c .. | .ffma c .. | .fmin c .. | .fmax c .. | .fdiv c .. | .fsqrt c .. | .fcmp c .. | .frnd c ..
  | .fclass c .. | .fscl c .. | .fdot2 c .. | .fdot4 c .. | .cvt c .. | .cvts c .. | .pack c .. | .unpk c .. | .frcp c .. | .frsq c ..
  | .fexp2 c .. | .flog2 c .. | .fsin c .. | .fcos c .. | .ftanh c .. | .shfl c .. | .vote c .. | .mpref c .. | .lbcast c ..
  | .lreduce c .. | .mshape c .. | .mzero c .. | .mid c .. | .mld c .. | .mst c .. | .mget c .. | .mput c .. | .mmul c .. | .mmult c ..
  | .mtmul c .. | .madd c .. | .msub c .. | .mscal c .. | .mhad c .. | .mtr c .. | .mcvt c .. | .mring c .. | .minv c .. | .mlu c ..
  | .mlus c .. | .mchol c .. | .mexp c .. | .mtrq c .. | .mnrm1 c .. | .minvT c .. | .mluT c .. | .mcholT c .. | .lds c .. | .ldc c ..
  | .ldd c .. | .ldp c .. | .sts c .. | .stc c .. | .std c .. | .stp c .. | .bcp c .. | .bcpm c .. | .bfill c .. | .bfillEmpty c ..
  | .bpref c .. | .bobj c .. | .barv c .. | .bwait c .. | .bcommit c .. | .bwaitn c .. | .bquery c .. | .gath c .. | .gaths c ..
  | .scat c .. | .scata c .. | .ldspl c .. | .hacc c .. | .atom c .. | .cas c .. | .ldx c .. | .stx c .. | .fence c .. | .bar c ..
  | .bara c .. | .barw c .. | .sbar c .. | .sbarGrid c .. | .nsend c .. | .nrecv c .. | .yield c .. | .sleep c .. | .nop c .. | .bra c ..
  | .brc c .. | .brcBlk c .. | .brcBlkKeep c .. | .brx c .. | .call c .. | .ret c .. | .join c .. | .regroup c .. | .exit c ..
  | .spawn c .. | .tget c .. | .tset c .. | .tzero c .. | .tseed c .. | .finf c .. | .frdv c .. | .fwrv c .. | .frds c .. | .fwrs c ..
  | .frdm c .. | .fwrm c .. | .frsmRetry c .. | .frsmSkip c .. | .frsmPc c .. | .frsmStep c .. | .fkilLanes c .. | .fkilCoh c ..
  | .fkilGrid c .. | .frel c .. | .srd c .. | .swr c .. | .brk c .. | .trap c .. | .tlbinvPage c .. | .tlbinvPasid c ..
  | .icinvRange c .. | .icinvAll c .. | .mbxr c .. | .mbxw c .. | .psamp c .. | .ckpt c .. => some c
  | _ => none

/-- The words with an asynchronous register result, which need SE = 1 (R56, R57). -/
def Instr.needsSet : Instr → Bool
  | .lds .. | .ldc .. | .ldd .. | .ldp .. | .frcp .. | .frsq .. | .fexp2 .. | .flog2 .. | .fsin .. | .fcos .. | .ftanh ..
  | .gath .. | .ldspl .. | .hacc .. | .atom _ _ _ _ _ (some _) _ _ | .cas .. | .ldx .. | .stx .. | .nrecv .. | .bquery ..
  | .finf .. | .frdv .. | .frds .. | .frdm .. | .srd .. | .mbxr .. => true
  | _ => false

/-- The SRD numbers that name a register (R333, R339, R370). -/
def srdOk (n : BitVec 10) : Bool :=
  let x := n.toNat
  x == 0 || x == 1 || x == 2 || x == 4 || x == 5 || x == 8 || x == 0x10 || x == 0x11 || x == 0x12
  || (decide (0x100 ≤ x) && decide (x ≤ 0x123)) || x == 0x128 || x == 0x130 || x == 0x140 || x == 0x141 || x == 0x150 || x == 0x160
  || (decide (0x200 ≤ x) && decide (x < 0x300) && decide (x % 8 ≤ 4))

/-- The SWR numbers: the Belfry registers marked RW (R339). -/
def swrOk (n : BitVec 10) : Bool := decide (0x100 ≤ n.toNat) && decide (n.toNat ≤ 0x123)

/-- The matrix tags that MCVT may name (R190, R201). -/
def Tag.matOk : Tag → Bool
  | .raw | .n32 => false
  | _ => true

/-- The targets that CVTS allows (R176). -/
def Tag.cvtsOk : Tag → Bool
  | .h16 | .b16 | .e4m3 | .e5m2 | .f4 | .pt8 => true
  | _ => false

/-- A register whose number is even, for a pair (R44). -/
def VNum.even (n : VNum) : Bool := n.toNat % 2 == 0

/-- The limits of the CVT control (R176). -/
def CvtCtl.ok (cv : CvtCtl) : Bool :=
  cv.tgt != .raw && cv.src != some .raw
  && (!cv.dstU || cv.tgt == .i8 || cv.tgt == .i4)
  && (!cv.srcU || cv.src == some .i8 || cv.src == some .i4)
  && (!cv.sat || cv.tgt == .e4m3 || cv.tgt == .e5m2)

/-- Where each load qualifier is allowed (R151). -/
def LQual.okOn (q : LQual) (sp : Space) : Bool :=
  match q, sp with
  | .none, _ => true
  | .fe, .core | .fe, .window => true
  | .feClr, .core => true
  | .poll, .core | .poll, .window | .poll, .die => true
  | _, _ => false

/-- Where each store qualifier is allowed (R151). -/
def SQual.okOn (q : SQual) (sp : Space) : Bool :=
  match q, sp with
  | .none, _ => true
  | .fill, .core | .fill, .window => true
  | .fe, .core => true
  | _, _ => false

/-- The form of a load fits its space: qualifier, ring mode, and a ring index that is not the destination (R151). -/
def LdCtl.ok (l : LdCtl) (sp : Space) (d : Dst) (b : Src) : Bool :=
  l.q.okOn sp && (l.mode != .ring || (sp != .frame && (match d, b with | .v x, .v y => x != y | _, _ => true)))

/-- The form of a store fits its space (R151). -/
def StCtl.ok (l : StCtl) (sp : Space) : Bool := l.q.okOn sp && (l.mode != .ring || sp != .frame)

/-- Destination and source of a tangent word are both vector or both matrix (R230). -/
def sameBank (d : Dst) (a : Src) : Bool :=
  match d, a with
  | .m _, .m _ => true
  | .m _, _ => false
  | _, .m _ => false
  | _, _ => true

/-- A tangent index written K − 1 that does not exceed T (R146, R218). -/
def tanOk (L : Lim) (k : BitVec 2) : Bool := decide (k.toNat + 1 ≤ L.t)

/-- A tangent mask that names no tangent above T and is not empty (R218, R219, R230). -/
def maskOk (L : Lim) (m : BitVec 4) : Bool := m != 0#4 && decide (m.toNat < 2 ^ L.t)

/-- The conditions that the field tables add to the kinds of the operands. -/
def Instr.extra (L : Lim) : Instr → Bool
  | .imulh _ ty _ _ _ | .idiv _ ty _ _ _ | .irem _ ty _ _ _ => ty == .i32 || ty == .n32
  | .iabs _ _ ty _ _ => ty == .i32 || ty == .i8 || ty == .i4
  | .mov _ w as _ _ => w || as != some .f64
  | .cvt _ _ cv _ _ => cv.ok
  | .cvts _ cv _ _ => cv.ok && cv.tgt.cvtsOk
  | .mcvt _ _ tgt _ _ => tgt.matOk
  | .mlu _ _ _ _ p | .mluT _ _ _ _ p => VNum.ok L false p
  | .lds _ l d _ b => l.ok .core d b
  | .ldc _ l d _ b => l.ok .window d b
  | .ldd _ l d _ b => l.ok .die d b
  | .ldp _ l d _ b => l.ok .frame d b
  | .sts _ l _ _ _ => l.ok .core
  | .stc _ l _ _ _ => l.ok .window
  | .std _ l _ _ _ => l.ok .die
  | .stp _ l _ _ _ => l.ok .frame
  | .atom _ op _ u _ _ _ _ => !u || op == .min || op == .max
  | .ldx _ _ al _ _ => al.ord == .rlx || al.ord == .acq || al.ord == .sc
  | .stx _ _ al _ _ _ => al.ord == .rlx || al.ord == .rel || al.ord == .sc
  | .fence _ _ ord => ord != .rlx
  | .sbar _ sc _ => sc != .coh && sc != .blk
  | .brc _ _ r _ | .brcBlk _ _ r _ | .brcBlkKeep _ _ r _ => r != 0#10
  | .call _ _ link => VNum.ok L true link
  | .spawn _ _ v _ => decide (v.toNat + 3 < L.vr)
  | .dx _ mask => maskOk L mask
  | .tget _ k d a => tanOk L k && sameBank d a
  | .tset _ k d a => tanOk L k && sameBank d a
  | .tzero _ mask _ => maskOk L mask
  | .tseed _ k _ => tanOk L k
  | .finf _ _ _ fs => decide (fs.toNat ≤ 11)
  | .frdm _ k d _ _ => decide (k.toNat ≤ 4) && (match d with | .m _ => true | _ => k == 0#3)
  | .fwrm _ k _ _ _ => decide (k.toNat ≤ 4)
  | .srd _ _ n => srdOk n
  | .swr _ n _ => swrOk n
  | _ => true

/-- A field of the kind is read as a register specifier, and so names the literal with 0x1FF (R37, R49): only the reassigned fields, a
group's first register and a frozen register, are not. Log entry 77. -/
def SK.takesLit : SK → Bool
  | .vec _ _ _ | .sca _ | .pairSca | .reg _ | .pair | .ring | .vreg | .mat => true
  | .group _ | .frzV _ _ | .frzS => false

/-- The word names the literal specifier in a source field (R37, R47). -/
def Instr.usesLit (i : Instr) : Bool := i.srcs.any (fun x => x.1.takesLit && x.2 == .lit)

/-- A prefix, or a word with common fields: not an event. -/
def Instr.isWord : Instr → Bool
  | .dx _ _ => true
  | i => i.ctl.isSome

/-- The literal is present exactly when the word names it (R37), and SE is set where R57 asks for it. -/
def Instr.ctlOk (i : Instr) : Bool :=
  match i.ctl with
  | some c => (c.lit.isSome == i.usesLit) && (c.set.isSome || !i.needsSet)
  | none => true

/-- An instruction word that the field tables allow under the limits `L`. -/
def Instr.wf (L : Lim) (i : Instr) : Bool :=
  i.isWord && i.ctlOk && i.srcs.all (fun x => Src.ok L x.1 x.2)
  && (match i.dst with | some (k, d) => Dst.ok L k d | none => true) && i.extra L

end Sys2Proof
end

