-- ==== Sys2Proof/Decode.lean ====
section
/-! DEFINITION. Decoding (R31 to R64). A 64-bit word is split into its fields (R36); `raw` reads the fields of each
CLASS/OP point of R62; a word is accepted when the instruction read is well formed and its own encoding is the word again,
so that every unused, reserved or unlisted field value is an illegal-encoding fault (R11, R49). After the decoder stands the
encoder, written from the same tables, and the check of a whole clause (R40). -/

namespace Sys2Proof

/-- The fields of an instruction word (R36). -/
structure Fields where
  wait : BitVec 8
  se   : Bool
  slot : BitVec 3
  cls  : BitVec 4
  op   : BitVec 6
  nwb  : Bool
  dst  : BitVec 9
  sa   : BitVec 10
  sb   : BitVec 10
  sc   : BitVec 10
  m    : BitVec 2
deriving DecidableEq, Repr

/-- The fields of a word (R36). -/
def Fields.ofWord (w : W64) : Fields where
  wait := w.extractLsb' 56 8
  se := w.getLsbD 55
  slot := w.extractLsb' 52 3
  cls := w.extractLsb' 48 4
  op := w.extractLsb' 42 6
  nwb := w.getLsbD 41
  dst := w.extractLsb' 32 9
  sa := w.extractLsb' 22 10
  sb := w.extractLsb' 12 10
  sc := w.extractLsb' 2 10
  m := w.extractLsb' 0 2

/-- The word of the fields (R36). -/
def Fields.toWord (f : Fields) : W64 :=
  f.wait ++ BitVec.ofBool f.se ++ f.slot ++ f.cls ++ f.op ++ BitVec.ofBool f.nwb ++ f.dst ++ f.sa ++ f.sb ++ f.sc ++ f.m

/-! ## Fields -/

/-- The specifier of a source (R41, R50). -/
def Src.enc : Src → BitVec 10
  | .v n => n.setWidth 10
  | .s n => 0x100#10 + n.setWidth 10
  | .b n => 0x140#10 + n.setWidth 10
  | .m n => 0x180#10 + n.setWidth 10
  | .k n => 0x190#10 + n.setWidth 10
  | .special n => 0x1A0#10 + n.setWidth 10
  | .int n => 0x1C0#10 + n.setWidth 10
  | .fp n => 0x1F0#10 + n.setWidth 10
  | .lit => 0x1FF#10
  | .latch n => 0x200#10 + n.setWidth 10

/-- The source a specifier names (R41, R50); a specifier that names none reads as some source whose own specifier differs. -/
def Src.dec (x : BitVec 10) : Src :=
  if x < 0x100#10 then .v (x.setWidth 8)
  else if x < 0x140#10 then .s (x.setWidth 6)
  else if x < 0x180#10 then .b (x.setWidth 6)
  else if x < 0x190#10 then .m (x.setWidth 4)
  else if x < 0x198#10 then .k (x.setWidth 3)
  else if x < 0x1A0#10 then .v 0#8
  else if x < 0x1C0#10 then .special (x.setWidth 5)
  else if x < 0x1F0#10 then .int (x.setWidth 6)
  else if x < 0x1FF#10 then .fp (x.setWidth 4)
  else if x = 0x1FF#10 then .lit
  else .latch (x.setWidth 3)

/-- The specifier of a destination (R41, R43); with NWB the field holds 0 (R53). -/
def Dst.enc : Dst → BitVec 9
  | .v n => n.setWidth 9
  | .s n => 0x100#9 + n.setWidth 9
  | .b n => 0x140#9 + n.setWidth 9
  | .m n => 0x180#9 + n.setWidth 9
  | .k n => 0x190#9 + n.setWidth 9
  | .seed => 0x1B8#9
  | .nwb => 0#9

/-- NWB of a destination (R53). -/
def Dst.isNwb : Dst → Bool
  | .nwb => true
  | _ => false

/-- The destination a specifier names. -/
def Dst.dec (nwb : Bool) (x : BitVec 9) : Dst :=
  if nwb then .nwb
  else if x < 0x100#9 then .v (x.setWidth 8)
  else if x < 0x140#9 then .s (x.setWidth 6)
  else if x < 0x180#9 then .b (x.setWidth 6)
  else if x < 0x190#9 then .m (x.setWidth 4)
  else if x < 0x198#9 then .k (x.setWidth 3)
  else .seed

/-- The code of a tag (R73). -/
def Tag.code : Tag → BitVec 4
  | .raw => 0#4 | .i32 => 1#4 | .n32 => 2#4 | .f32 => 3#4 | .f64 => 4#4 | .h16 => 5#4 | .b16 => 6#4 | .e4m3 => 7#4
  | .e5m2 => 8#4 | .f4 => 9#4 | .pt8 => 10#4 | .i8 => 11#4 | .i4 => 12#4

/-- The tag of a code; the reserved codes have none (R73). -/
def Tag.ofCode (x : BitVec 4) : Option Tag :=
  match x.toNat with
  | 0 => some .raw | 1 => some .i32 | 2 => some .n32 | 3 => some .f32 | 4 => some .f64 | 5 => some .h16 | 6 => some .b16
  | 7 => some .e4m3 | 8 => some .e5m2 | 9 => some .f4 | 10 => some .pt8 | 11 => some .i8 | 12 => some .i4 | _ => none

/-- A tag read from a field that must name one. -/
def Tag.dec (x : BitVec 4) : Tag := (Tag.ofCode x).getD .raw

/-- An inline tag: the inline integer of its code (R11, R127). -/
def Tag.encInline (t : Tag) : BitVec 10 := 0x1D0#10 + t.code.setWidth 10
/-- The tag of an inline integer. -/
def Tag.decInline (x : BitVec 10) : Tag := Tag.dec ((x - 0x1D0#10).setWidth 4)
/-- An optional inline tag: 0x000 is none (R165, R176). -/
def encTagOpt : Option Tag → BitVec 10
  | none => 0#10
  | some t => t.encInline
/-- The optional inline tag of a field. -/
def decTagOpt (x : BitVec 10) : Option Tag := if x = 0#10 then none else some (Tag.decInline x)

/-- A bit of M. -/
def mBit (b : Bool) : BitVec 2 := if b then 1#2 else 0#2
/-- Two bits of M, [1] then [0]. -/
def mBits (hi lo : Bool) : BitVec 2 := (if hi then 2#2 else 0#2) + (if lo then 1#2 else 0#2)

def Rnd.enc : Rnd → BitVec 2
  | .rne => 0#2 | .rtz => 1#2 | .rup => 2#2 | .rdn => 3#2
def Rnd.dec (x : BitVec 2) : Rnd :=
  if x = 0#2 then .rne else if x = 1#2 then .rtz else if x = 2#2 then .rup else .rdn

def IType.enc : IType → BitVec 10
  | .i32 => 0#10 | .n32 => 1#10 | .i8 => 2#10 | .n8 => 3#10 | .i4 => 4#10
def IType.dec (x : BitVec 10) : IType :=
  if x = 0#10 then .i32 else if x = 1#10 then .n32 else if x = 2#10 then .i8 else if x = 3#10 then .n8 else .i4

def Cond.enc : Cond → BitVec 6
  | .eq => 0#6 | .ne => 1#6 | .lt => 2#6 | .le => 3#6 | .gt => 4#6 | .ge => 5#6
def Cond.dec (x : BitVec 6) : Cond :=
  if x = 0#6 then .eq else if x = 1#6 then .ne else if x = 2#6 then .lt else if x = 3#6 then .le else if x = 4#6 then .gt else .ge

def FCond.enc : FCond → BitVec 6
  | .eq => 0#6 | .ne => 1#6 | .lt => 2#6 | .le => 3#6 | .gt => 4#6 | .ge => 5#6 | .ord => 6#6 | .uno => 7#6
def FCond.dec (x : BitVec 6) : FCond :=
  if x = 0#6 then .eq else if x = 1#6 then .ne else if x = 2#6 then .lt else if x = 3#6 then .le else if x = 4#6 then .gt
  else if x = 5#6 then .ge else if x = 6#6 then .ord else .uno

def ShflMode.enc : ShflMode → BitVec 2
  | .idx => 0#2 | .up => 1#2 | .down => 2#2 | .xor => 3#2
def ShflMode.dec (x : BitVec 2) : ShflMode :=
  if x = 0#2 then .idx else if x = 1#2 then .up else if x = 2#2 then .down else .xor

def VoteKind.enc : VoteKind → BitVec 2
  | .ballot => 0#2 | .any => 1#2 | .all => 2#2 | .eq => 3#2
def VoteKind.dec (x : BitVec 2) : VoteKind :=
  if x = 0#2 then .ballot else if x = 1#2 then .any else if x = 2#2 then .all else .eq

def RedOp.enc : RedOp → BitVec 2
  | .add => 0#2 | .min => 1#2 | .max => 2#2 | .or => 3#2
def RedOp.dec (x : BitVec 2) : RedOp :=
  if x = 0#2 then .add else if x = 1#2 then .min else if x = 2#2 then .max else .or

def Dir.enc : Dir → BitVec 2
  | .n => 0#2 | .e => 1#2 | .s => 2#2 | .w => 3#2
def Dir.dec (x : BitVec 2) : Dir :=
  if x = 0#2 then .n else if x = 1#2 then .e else if x = 2#2 then .s else .w

def Space.enc : Space → BitVec 2
  | .core => 0#2 | .window => 1#2 | .die => 2#2 | .frame => 3#2
def Space.dec (x : BitVec 2) : Space :=
  if x = 0#2 then .core else if x = 1#2 then .window else if x = 2#2 then .die else .frame

def LQual.enc : LQual → BitVec 2
  | .none => 0#2 | .fe => 1#2 | .feClr => 2#2 | .poll => 3#2
def LQual.dec (x : BitVec 2) : LQual :=
  if x = 0#2 then .none else if x = 1#2 then .fe else if x = 2#2 then .feClr else .poll

def SQual.enc : SQual → BitVec 2
  | .none => 0#2 | .fill => 1#2 | .fe => 2#2
def SQual.dec (x : BitVec 2) : SQual :=
  if x = 0#2 then .none else if x = 1#2 then .fill else .fe

def AMode.enc : AMode → BitVec 2
  | .base => 0#2 | .scaled => 1#2 | .ring => 2#2
def AMode.dec (x : BitVec 2) : AMode :=
  if x = 0#2 then .base else if x = 1#2 then .scaled else .ring

def IdxMode.enc : IdxMode → BitVec 2
  | .uns => 0#2 | .sx => 1#2 | .a64 => 2#2
def IdxMode.dec (x : BitVec 2) : IdxMode :=
  if x = 0#2 then .uns else if x = 1#2 then .sx else .a64

def Scope.enc : Scope → BitVec 3
  | .coh => 0#3 | .blk => 1#3 | .core => 2#3 | .quad => 3#3 | .clus => 4#3 | .die => 5#3 | .pkg => 6#3 | .pod => 7#3
def Scope.dec (x : BitVec 3) : Scope :=
  if x = 0#3 then .coh else if x = 1#3 then .blk else if x = 2#3 then .core else if x = 3#3 then .quad
  else if x = 4#3 then .clus else if x = 5#3 then .die else if x = 6#3 then .pkg else .pod

def MOrd.enc : MOrd → BitVec 3
  | .rlx => 0#3 | .acq => 1#3 | .rel => 2#3 | .ar => 3#3 | .sc => 4#3
def MOrd.dec (x : BitVec 3) : MOrd :=
  if x = 0#3 then .rlx else if x = 1#3 then .acq else if x = 2#3 then .rel else if x = 3#3 then .ar else .sc

def ASpace.enc : ASpace → BitVec 2
  | .core => 0#2 | .die => 2#2 | .mem => 3#2
def ASpace.dec (x : BitVec 2) : ASpace :=
  if x = 0#2 then .core else if x = 2#2 then .die else .mem

def AtomOp.enc : AtomOp → BitVec 6
  | .add => 0#6 | .min => 1#6 | .max => 2#6 | .and => 3#6 | .or => 4#6 | .xor => 5#6 | .exch => 6#6 | .fadd => 7#6
  | .fmin => 8#6 | .fmax => 9#6
def AtomOp.dec (x : BitVec 6) : AtomOp :=
  if x = 0#6 then .add else if x = 1#6 then .min else if x = 2#6 then .max else if x = 3#6 then .and else if x = 4#6 then .or
  else if x = 5#6 then .xor else if x = 6#6 then .exch else if x = 7#6 then .fadd else if x = 8#6 then .fmin else .fmax

def DxMode.enc : DxMode → BitVec 2
  | .prop => 0#2 | .stop => 1#2 | .tonly => 2#2 | .seed => 3#2
def DxMode.dec (x : BitVec 2) : DxMode :=
  if x = 0#2 then .prop else if x = 1#2 then .stop else if x = 2#2 then .tonly else .seed

/-- The control of CVT (R176). -/
def CvtCtl.enc (c : CvtCtl) : BitVec 10 :=
  0#3 ++ BitVec.ofBool c.srcU ++ BitVec.ofBool c.dstU ++ BitVec.ofBool c.sat ++ c.tgt.code
def CvtCtl.dec (sb sc : BitVec 10) : CvtCtl where
  tgt := Tag.dec (sb.setWidth 4)
  sat := sb.getLsbD 4
  dstU := sb.getLsbD 5
  srcU := sb.getLsbD 6
  src := decTagOpt sc

/-- The control of an atomic (R255). -/
def AtCtl.enc (c : AtCtl) (ret : Bool) : BitVec 10 :=
  c.space.enc ++ c.scope.enc ++ c.ord.enc ++ BitVec.ofBool ret ++ 0#1
def AtCtl.dec (x : BitVec 10) : AtCtl where
  space := ASpace.dec (x.extractLsb' 8 2)
  scope := Scope.dec (x.extractLsb' 5 3)
  ord := MOrd.dec (x.extractLsb' 2 3)
/-- RET of the control (R255). -/
def atRet (x : BitVec 10) : Bool := x.getLsbD 1

/-- The offset of a branch: DST:SB (R11). -/
def offOf (dst : BitVec 9) (sb : BitVec 10) : BitVec 19 := dst ++ sb
/-- A register number of a reassigned s field (R111, R197). -/
def sNumEnc9 (n : SNum) : BitVec 9 := 0x100#9 + n.setWidth 9
def sNumEnc (n : SNum) : BitVec 10 := 0x100#10 + n.setWidth 10
def mNumEnc9 (n : MNum) : BitVec 9 := 0x180#9 + n.setWidth 9
def mNumEnc (n : MNum) : BitVec 10 := 0x180#10 + n.setWidth 10
def kNumEnc (n : KNum) : BitVec 10 := 0x190#10 + n.setWidth 10

/-! ## The encoder (R62 and the field tables) -/

/-- A word with its common fields. -/
def mkF (c : Ctl) (cls : BitVec 4) (op : BitVec 6) (nwb : Bool) (dst : BitVec 9) (sa sb sc : BitVec 10) (m : BitVec 2) : Fields where
  wait := c.wait
  se := c.set.isSome
  slot := c.set.getD 0#3
  cls := cls
  op := op
  nwb := nwb
  dst := dst
  sa := sa
  sb := sb
  sc := sc
  m := m

/-- A word whose destination is a register or the latch window. -/
def mkD (c : Ctl) (cls : BitVec 4) (op : BitVec 6) (d : Dst) (sa sb sc : BitVec 10) (m : BitVec 2) : Fields :=
  mkF c cls op d.isNwb d.enc sa sb sc m

/-- A word without NWB. -/
def mkN (c : Ctl) (cls : BitVec 4) (op : BitVec 6) (dst : BitVec 9) (sa sb sc : BitVec 10) (m : BitVec 2) : Fields :=
  mkF c cls op false dst sa sb sc m

/-- The fields of an instruction word; none for an event, which no word encodes. -/
def Instr.fields : Instr → Option Fields
  | .sadd c d a b => some (mkD c 0#4 0x00#6 d a.enc b.enc 0#10 0#2)
  | .ssub c d a b => some (mkD c 0#4 0x01#6 d a.enc b.enc 0#10 0#2)
  | .smul c d a b => some (mkD c 0#4 0x02#6 d a.enc b.enc 0#10 0#2)
  | .smin c u d a b => some (mkD c 0#4 0x03#6 d a.enc b.enc 0#10 (mBit u))
  | .smax c u d a b => some (mkD c 0#4 0x04#6 d a.enc b.enc 0#10 (mBit u))
  | .sand c d a b => some (mkD c 0#4 0x05#6 d a.enc b.enc 0#10 0#2)
  | .sor c d a b => some (mkD c 0#4 0x06#6 d a.enc b.enc 0#10 0#2)
  | .sxor c d a b => some (mkD c 0#4 0x07#6 d a.enc b.enc 0#10 0#2)
  | .sandn c d a b => some (mkD c 0#4 0x08#6 d a.enc b.enc 0#10 0#2)
  | .snot c d a => some (mkD c 0#4 0x09#6 d a.enc 0#10 0#10 0#2)
  | .sshl c d a b => some (mkD c 0#4 0x0A#6 d a.enc b.enc 0#10 0#2)
  | .sshr c d a b => some (mkD c 0#4 0x0B#6 d a.enc b.enc 0#10 0#2)
  | .ssar c d a b => some (mkD c 0#4 0x0C#6 d a.enc b.enc 0#10 0#2)
  | .smov c d a => some (mkD c 0#4 0x0D#6 d a.enc 0#10 0#10 0#2)
  | .ssel c d p a b => some (mkD c 0#4 0x0E#6 d p.enc a.enc b.enc 0#2)
  | .spopc c d a => some (mkD c 0#4 0x0F#6 d a.enc 0#10 0#10 0#2)
  | .sffs c d a => some (mkD c 0#4 0x10#6 d a.enc 0#10 0#10 0#2)
  | .sfls c d a => some (mkD c 0#4 0x11#6 d a.enc 0#10 0#10 0#2)
  | .srdlane c w d a l => some (mkD c 0#4 0x12#6 d a.enc l.enc 0#10 (mBit w))
  | .scmp c cc u d a b => some (mkD c 0#4 (0x18#6 + cc.enc) d a.enc b.enc 0#10 (mBit u))
  | .iadd c sat ty d a b => some (mkD c 1#4 0x00#6 d a.enc b.enc ty.enc (mBit sat))
  | .isub c sat ty d a b => some (mkD c 1#4 0x01#6 d a.enc b.enc ty.enc (mBit sat))
  | .imul c sat ty d a b => some (mkD c 1#4 0x02#6 d a.enc b.enc ty.enc (mBit sat))
  | .imulh c ty d a b => some (mkD c 1#4 0x03#6 d a.enc b.enc ty.enc 0#2)
  | .imad c u d a b e => some (mkD c 1#4 0x04#6 d a.enc b.enc e.enc (mBit u))
  | .idiv c ty d a b => some (mkD c 1#4 0x05#6 d a.enc b.enc ty.enc 0#2)
  | .irem c ty d a b => some (mkD c 1#4 0x06#6 d a.enc b.enc ty.enc 0#2)
  | .imin c ty d a b => some (mkD c 1#4 0x07#6 d a.enc b.enc ty.enc 0#2)
  | .imax c ty d a b => some (mkD c 1#4 0x08#6 d a.enc b.enc ty.enc 0#2)
  | .iabs c sat ty d a => some (mkD c 1#4 0x09#6 d a.enc 0#10 ty.enc (mBit sat))
  | .vand c d a b => some (mkD c 1#4 0x0A#6 d a.enc b.enc 0#10 0#2)
  | .vor c d a b => some (mkD c 1#4 0x0B#6 d a.enc b.enc 0#10 0#2)
  | .vxor c d a b => some (mkD c 1#4 0x0C#6 d a.enc b.enc 0#10 0#2)
  | .vandn c d a b => some (mkD c 1#4 0x0D#6 d a.enc b.enc 0#10 0#2)
  | .vnot c d a => some (mkD c 1#4 0x0E#6 d a.enc 0#10 0#10 0#2)
  | .shl c d a b => some (mkD c 1#4 0x0F#6 d a.enc b.enc 0#10 0#2)
  | .shr c d a b => some (mkD c 1#4 0x10#6 d a.enc b.enc 0#10 0#2)
  | .sar c d a b => some (mkD c 1#4 0x11#6 d a.enc b.enc 0#10 0#2)
  | .rot c d a b => some (mkD c 1#4 0x12#6 d a.enc b.enc 0#10 0#2)
  | .bfe c sx d a b => some (mkD c 1#4 0x13#6 d a.enc b.enc 0#10 (mBit sx))
  | .bfi c d a b e => some (mkD c 1#4 0x14#6 d a.enc b.enc e.enc 0#2)
  | .popc c d a => some (mkD c 1#4 0x15#6 d a.enc 0#10 0#10 0#2)
  | .clz c d a => some (mkD c 1#4 0x16#6 d a.enc 0#10 0#10 0#2)
  | .brev c d a => some (mkD c 1#4 0x17#6 d a.enc 0#10 0#10 0#2)
  | .icmp c cc u d a b => some (mkD c 1#4 (0x18#6 + cc.enc) d a.enc b.enc 0#10 (mBit u))
  | .sel c w d p a b => some (mkD c 1#4 0x1E#6 d p.enc a.enc b.enc (mBit w))
  | .mov c w as d a => some (mkD c 1#4 0x1F#6 d a.enc 0#10 (encTagOpt as) (mBit w))
  | .movs c w d p a => some (mkD c 1#4 0x20#6 d p.enc a.enc 0#10 (mBit w))
  | .fadd c r d a b => some (mkD c 2#4 0x00#6 d a.enc b.enc 0#10 r.enc)
  | .fsub c r d a b => some (mkD c 2#4 0x01#6 d a.enc b.enc 0#10 r.enc)
  | .fmul c r d a b => some (mkD c 2#4 0x02#6 d a.enc b.enc 0#10 r.enc)
  | .ffma c r d a b e => some (mkD c 2#4 0x03#6 d a.enc b.enc e.enc r.enc)
  | .fmin c d a b => some (mkD c 2#4 0x04#6 d a.enc b.enc 0#10 0#2)
  | .fmax c d a b => some (mkD c 2#4 0x05#6 d a.enc b.enc 0#10 0#2)
  | .fdiv c r d a b => some (mkD c 2#4 0x06#6 d a.enc b.enc 0#10 r.enc)
  | .fsqrt c r d a => some (mkD c 2#4 0x07#6 d a.enc 0#10 0#10 r.enc)
  | .fcmp c fc d a b => some (mkD c 2#4 (0x08#6 + fc.enc) d a.enc b.enc 0#10 0#2)
  | .frnd c r d a => some (mkD c 2#4 0x10#6 d a.enc 0#10 0#10 r.enc)
  | .fclass c d a => some (mkD c 2#4 0x11#6 d a.enc 0#10 0#10 0#2)
  | .fscl c r d a b => some (mkD c 2#4 0x12#6 d a.enc b.enc 0#10 r.enc)
  | .fdot2 c r d a b e => some (mkD c 2#4 0x13#6 d a.enc b.enc e.enc r.enc)
  | .fdot4 c r d a b e => some (mkD c 2#4 0x14#6 d a.enc b.enc e.enc r.enc)
  | .cvt c r cv d a => some (mkD c 3#4 0x00#6 d a.enc cv.enc (encTagOpt cv.src) r.enc)
  | .cvts c cv d a => some (mkD c 3#4 0x01#6 d a.enc cv.enc (encTagOpt cv.src) 0#2)
  | .pack c d a b e => some (mkD c 3#4 0x02#6 d a.enc b.enc e.enc 0#2)
  | .unpk c d a b => some (mkD c 3#4 0x03#6 d a.enc b.enc 0#10 0#2)
  | .frcp c d a => some (mkD c 3#4 0x08#6 d a.enc 0#10 0#10 0#2)
  | .frsq c d a => some (mkD c 3#4 0x09#6 d a.enc 0#10 0#10 0#2)
  | .fexp2 c d a => some (mkD c 3#4 0x0A#6 d a.enc 0#10 0#10 0#2)
  | .flog2 c d a => some (mkD c 3#4 0x0B#6 d a.enc 0#10 0#10 0#2)
  | .fsin c d a => some (mkD c 3#4 0x0C#6 d a.enc 0#10 0#10 0#2)
  | .fcos c d a => some (mkD c 3#4 0x0D#6 d a.enc 0#10 0#10 0#2)
  | .ftanh c d a => some (mkD c 3#4 0x0E#6 d a.enc 0#10 0#10 0#2)
  | .shfl c mode w d a b => some (mkD c 4#4 0x00#6 d a.enc b.enc (if w then 1#10 else 0#10) mode.enc)
  | .vote c vk d a => some (mkD c 4#4 0x01#6 d a.enc 0#10 0#10 vk.enc)
  | .mpref c incl d a => some (mkD c 4#4 0x02#6 d a.enc 0#10 0#10 (mBit incl))
  | .lbcast c w d a b => some (mkD c 4#4 0x03#6 d a.enc b.enc 0#10 (mBit w))
  | .lreduce c op d a => some (mkD c 4#4 0x04#6 d a.enc 0#10 0#10 op.enc)
  | .mshape c kax d a b e => some (mkN c 5#4 0x00#6 (mNumEnc9 d) a.enc b.enc e.enc (mBit kax))
  | .mzero c d => some (mkN c 5#4 0x01#6 (mNumEnc9 d) 0#10 0#10 0#10 0#2)
  | .mid c d => some (mkN c 5#4 0x02#6 (mNumEnc9 d) 0#10 0#10 0#10 0#2)
  | .mld c sp p d a b => some (mkN c 5#4 0x03#6 (mNumEnc9 d) a.enc b.enc (0#1 ++ sp.enc ++ p) 0#2)
  | .mst c sp p a b m => some (mkN c 5#4 0x04#6 (sp.enc ++ p) a.enc b.enc (mNumEnc m) 0#2)
  | .mget c d a r e => some (mkD c 5#4 0x05#6 d (mNumEnc a) r.enc e.enc 0#2)
  | .mput c d a r e => some (mkN c 5#4 0x06#6 (mNumEnc9 d) a.enc r.enc e.enc 0#2)
  | .mmul c acc neg d a b => some (mkN c 5#4 0x07#6 (mNumEnc9 d) (mNumEnc a) (mNumEnc b) 0#10 (mBits neg acc))
  | .mmult c acc neg d a b => some (mkN c 5#4 0x08#6 (mNumEnc9 d) (mNumEnc a) (mNumEnc b) 0#10 (mBits neg acc))
  | .mtmul c acc neg d a b => some (mkN c 5#4 0x09#6 (mNumEnc9 d) (mNumEnc a) (mNumEnc b) 0#10 (mBits neg acc))
  | .madd c d a b => some (mkN c 5#4 0x0A#6 (mNumEnc9 d) (mNumEnc a) (mNumEnc b) 0#10 0#2)
  | .msub c d a b => some (mkN c 5#4 0x0B#6 (mNumEnc9 d) (mNumEnc a) (mNumEnc b) 0#10 0#2)
  | .mscal c d a f => some (mkN c 5#4 0x0C#6 (mNumEnc9 d) (mNumEnc a) f.enc 0#10 0#2)
  | .mhad c d a b => some (mkN c 5#4 0x0D#6 (mNumEnc9 d) (mNumEnc a) (mNumEnc b) 0#10 0#2)
  | .mtr c d a => some (mkN c 5#4 0x0E#6 (mNumEnc9 d) (mNumEnc a) 0#10 0#10 0#2)
  | .mcvt c kax tgt d a => some (mkN c 5#4 0x0F#6 (mNumEnc9 d) (mNumEnc a) tgt.encInline 0#10 (mBit kax))
  | .mring c dir d a => some (mkN c 5#4 0x10#6 (mNumEnc9 d) (mNumEnc a) 0#10 0#10 dir.enc)
  | .minv c d a t => some (mkN c 6#4 0x00#6 (mNumEnc9 d) (mNumEnc a) (sNumEnc t) 0#10 0#2)
  | .mlu c d a t p => some (mkN c 6#4 0x01#6 (mNumEnc9 d) (mNumEnc a) (sNumEnc t) (p.setWidth 10) 0#2)
  | .mlus c d a b p => some (mkN c 6#4 0x02#6 (mNumEnc9 d) (mNumEnc a) (mNumEnc b) p.enc 0#2)
  | .mchol c d a t => some (mkN c 6#4 0x03#6 (mNumEnc9 d) (mNumEnc a) (sNumEnc t) 0#10 0#2)
  | .mexp c d a => some (mkN c 6#4 0x04#6 (mNumEnc9 d) (mNumEnc a) 0#10 0#10 0#2)
  | .mtrq c d a => some (mkN c 6#4 0x05#6 (mNumEnc9 d) (mNumEnc a) 0#10 0#10 0#2)
  | .mnrm1 c d a => some (mkD c 6#4 0x06#6 d (mNumEnc a) 0#10 0#10 0#2)
  | .minvT c d a t => some (mkN c 6#4 0x08#6 (mNumEnc9 d) (mNumEnc a) (sNumEnc t) 0#10 0#2)
  | .mluT c d a t p => some (mkN c 6#4 0x09#6 (mNumEnc9 d) (mNumEnc a) (sNumEnc t) (p.setWidth 10) 0#2)
  | .mcholT c d a t => some (mkN c 6#4 0x0B#6 (mNumEnc9 d) (mNumEnc a) (sNumEnc t) 0#10 0#2)
  | .lds c l d a b => some (mkD c 7#4 (0x00#6 + l.fmt.code.setWidth 6) d a.enc b.enc (l.q.enc ++ l.disp) l.mode.enc)
  | .ldc c l d a b => some (mkD c 7#4 (0x14#6 + l.fmt.code.setWidth 6) d a.enc b.enc (l.q.enc ++ l.disp) l.mode.enc)
  | .ldd c l d a b => some (mkD c 7#4 (0x21#6 + l.fmt.code.setWidth 6) d a.enc b.enc (l.q.enc ++ l.disp) l.mode.enc)
  | .ldp c l d a b => some (mkD c 7#4 (0x2E#6 + l.fmt.code.setWidth 6) d a.enc b.enc (l.q.enc ++ l.disp) l.mode.enc)
  | .sts c l a b v => some (mkN c 7#4 0x10#6 (l.q.enc ++ l.disp) a.enc b.enc v.enc l.mode.enc)
  | .stc c l a b v => some (mkN c 7#4 0x11#6 (l.q.enc ++ l.disp) a.enc b.enc v.enc l.mode.enc)
  | .std c l a b v => some (mkN c 7#4 0x12#6 (l.q.enc ++ l.disp) a.enc b.enc v.enc l.mode.enc)
  | .stp c l a b v => some (mkN c 7#4 0x13#6 (l.q.enc ++ l.disp) a.enc b.enc v.enc l.mode.enc)
  | .bcp c out box d a n o => some (mkN c 8#4 0x00#6 (sNumEnc9 d) a.enc n.enc o.enc (mBits out box))
  | .bcpm c box d a n o => some (mkN c 8#4 0x01#6 (sNumEnc9 d) a.enc (sNumEnc n) o.enc (mBit box))
  | .bfill c out d a n o => some (mkN c 8#4 0x02#6 (sNumEnc9 d) a.enc n.enc o.enc (mBits out false))
  | .bfillEmpty c d n o => some (mkN c 8#4 0x02#6 (sNumEnc9 d) 0#10 n.enc o.enc 1#2)
  | .bpref c a n => some (mkN c 8#4 0x03#6 0#9 a.enc n.enc 0#10 0#2)
  | .bobj c o n => some (mkN c 8#4 0x04#6 0#9 o.enc n.enc 0#10 0#2)
  | .barv c o => some (mkN c 8#4 0x05#6 0#9 o.enc 0#10 0#10 0#2)
  | .bwait c o p => some (mkN c 8#4 0x06#6 0#9 o.enc p.enc 0#10 0#2)
  | .bcommit c => some (mkN c 8#4 0x07#6 0#9 0#10 0#10 0#10 0#2)
  | .bwaitn c n => some (mkN c 8#4 0x08#6 0#9 n.enc 0#10 0#10 0#2)
  | .bquery c d (.obj o) => some (mkD c 8#4 0x09#6 d o.enc 0x1D0#10 0#10 0#2)
  | .bquery c d .batches => some (mkD c 8#4 0x09#6 d 0#10 0x1D1#10 0#10 0#2)
  | .bquery c d .slots => some (mkD c 8#4 0x09#6 d 0#10 0x1D2#10 0#10 0#2)
  | .gath c mode fmt d a b => some (mkD c 9#4 0x00#6 d a.enc b.enc fmt.encInline mode.enc)
  | .gaths c w sx d a b o => some (mkN c 9#4 0x01#6 (sNumEnc9 d) a.enc b.enc o.enc (mBits w sx))
  | .scat c mode a b v => some (mkN c 9#4 0x02#6 0#9 a.enc b.enc v.enc mode.enc)
  | .scata c mode a b v => some (mkN c 9#4 0x03#6 0#9 a.enc b.enc v.enc mode.enc)
  | .ldspl c mode d a b => some (mkN c 9#4 0x04#6 (mNumEnc9 d) a.enc b.enc 0#10 mode.enc)
  | .hacc c d k key v => some (mkN c 9#4 0x05#6 (sNumEnc9 d) (kNumEnc k) key.enc v.enc 0#2)
  | .atom c op w u al none a b => some (mkN c 0xA#4 op.enc 0#9 a.enc b.enc (al.enc false) (mBits w u))
  | .atom c op w u al (some d) a b => some (mkD c 0xA#4 op.enc d a.enc b.enc (al.enc true) (mBits w u))
  | .cas c w al d a b => some (mkD c 0xA#4 0x10#6 d a.enc b.enc (al.enc true) (mBits w false))
  | .ldx c w al d a => some (mkD c 0xA#4 0x11#6 d a.enc 0#10 (al.enc true) (mBits w false))
  | .stx c w al d a b => some (mkD c 0xA#4 0x12#6 d a.enc b.enc (al.enc true) (mBits w false))
  | .fence c sc ord => some (mkN c 0xA#4 0x13#6 0#9 0#10 0#10 (0#2 ++ sc.enc ++ ord.enc ++ 0#2) 0#2)
  | .bar c => some (mkN c 0xA#4 0x14#6 0#9 0#10 0#10 0#10 0#2)
  | .bara c d => some (mkD c 0xA#4 0x15#6 d 0#10 0#10 0#10 0#2)
  | .barw c t => some (mkN c 0xA#4 0x16#6 0#9 t.enc 0#10 0#10 0#2)
  | .sbar c sc n => some (mkN c 0xA#4 0x17#6 0#9 n.enc 0#10 (0#2 ++ sc.enc ++ 0#5) 0#2)
  | .sbarGrid c => some (mkN c 0xA#4 0x17#6 0#9 0#10 0#10 0#10 1#2)
  | .nsend c dir a => some (mkN c 0xA#4 0x18#6 0#9 a.enc 0#10 0#10 dir.enc)
  | .nrecv c dir d => some (mkD c 0xA#4 0x19#6 d 0#10 0#10 0#10 dir.enc)
  | .yield c => some (mkN c 0xA#4 0x1A#6 0#9 0#10 0#10 0#10 0#2)
  | .sleep c n => some (mkN c 0xA#4 0x1B#6 0#9 n.enc 0#10 0#10 0#2)
  | .nop c => some (mkN c 0xB#4 0x00#6 0#9 0#10 0#10 0#10 0#2)
  | .bra c off => some (mkN c 0xB#4 0x01#6 (off.extractLsb' 10 9) 0#10 (off.extractLsb' 0 10) 0#10 0#2)
  | .brc c off r p => some (mkN c 0xB#4 0x02#6 (off.extractLsb' 10 9) p.enc (off.extractLsb' 0 10) r 0#2)
  | .brcBlk c off r p => some (mkN c 0xB#4 0x0A#6 (off.extractLsb' 10 9) p.enc (off.extractLsb' 0 10) r 0#2)
  | .brcBlkKeep c off r p => some (mkN c 0xB#4 0x0B#6 (off.extractLsb' 10 9) p.enc (off.extractLsb' 0 10) r 0#2)
  | .brx c a => some (mkN c 0xB#4 0x03#6 0#9 a.enc 0#10 0#10 0#2)
  | .call c off link => some (mkN c 0xB#4 0x04#6 (off.extractLsb' 10 9) (link.setWidth 10) (off.extractLsb' 0 10) 0#10 0#2)
  | .ret c l => some (mkN c 0xB#4 0x05#6 0#9 l.enc 0#10 0#10 0#2)
  | .join c => some (mkN c 0xB#4 0x06#6 0#9 0#10 0#10 0#10 0#2)
  | .regroup c => some (mkN c 0xB#4 0x07#6 0#9 0#10 0#10 0#10 0#2)
  | .exit c => some (mkN c 0xB#4 0x08#6 0#9 0#10 0#10 0#10 0#2)
  | .spawn c e v f => some (mkN c 0xB#4 0x09#6 0#9 e.enc (v.setWidth 10) f.enc 0#2)
  | .dx mode mask => some (mkN ⟨0#8, none, none⟩ 0xC#4 0x00#6 (mask.setWidth 9) 0#10 0#10 0#10 mode.enc)
  | .tget c k d a => some (mkD c 0xC#4 0x01#6 d a.enc 0#10 0#10 k)
  | .tset c k d a => some (mkD c 0xC#4 0x02#6 d a.enc 0#10 0#10 k)
  | .tzero c mask d => some (mkD c 0xC#4 0x03#6 d 0#10 (mask.setWidth 10) 0#10 0#2)
  | .tseed c k d => some (mkD c 0xC#4 0x04#6 d 0#10 0#10 0#10 k)
  | .finf c d cap fs => some (mkD c 0xD#4 0x00#6 d cap.enc (0x1D0#10 + fs.setWidth 10) 0#10 0#2)
  | .frdv c w k d cap r => some (mkD c 0xD#4 0x01#6 d cap.enc r.enc (k.setWidth 10) (mBit w))
  | .fwrv c w k r cap v => some (mkD c 0xD#4 0x02#6 r cap.enc v.enc (k.setWidth 10) (mBit w))
  | .frds c d cap r => some (mkD c 0xD#4 0x03#6 d cap.enc r.enc 0#10 0#2)
  | .fwrs c r cap v => some (mkD c 0xD#4 0x04#6 r cap.enc v.enc 0#10 0#2)
  | .frdm c k (.m d) cap r => some (mkN c 0xD#4 0x05#6 (mNumEnc9 d) cap.enc (mNumEnc r) (k.setWidth 10) 0#2)
  | .frdm c k d cap r => some (mkD c 0xD#4 0x05#6 d cap.enc (mNumEnc r) (k.setWidth 10) 1#2)
  | .fwrm c k r cap a => some (mkN c 0xD#4 0x06#6 (mNumEnc9 r) cap.enc (mNumEnc a) (k.setWidth 10) 0#2)
  | .frsmRetry c cap => some (mkN c 0xD#4 0x07#6 0#9 cap.enc 0#10 0#10 0#2)
  | .frsmSkip c cap => some (mkN c 0xD#4 0x07#6 0#9 cap.enc 0#10 0#10 1#2)
  | .frsmPc c cap p => some (mkN c 0xD#4 0x07#6 0#9 cap.enc p.enc 0#10 2#2)
  | .frsmStep c cap => some (mkN c 0xD#4 0x07#6 0#9 cap.enc 0#10 0#10 3#2)
  | .fkilLanes c cap p => some (mkN c 0xD#4 0x08#6 0#9 cap.enc p.enc 0#10 0#2)
  | .fkilCoh c cap => some (mkN c 0xD#4 0x08#6 0#9 cap.enc 0#10 0#10 1#2)
  | .fkilGrid c cap => some (mkN c 0xD#4 0x08#6 0#9 cap.enc 0#10 0#10 2#2)
  | .frel c cap => some (mkN c 0xD#4 0x09#6 0#9 cap.enc 0#10 0#10 0#2)
  | .srd c d n => some (mkD c 0xE#4 0x00#6 d 0#10 n 0#10 0#2)
  | .swr c n a => some (mkN c 0xE#4 0x01#6 0#9 a.enc n 0#10 0#2)
  | .brk c => some (mkN c 0xE#4 0x02#6 0#9 0#10 0#10 0#10 0#2)
  | .trap c n => some (mkN c 0xE#4 0x03#6 0#9 0#10 (n.setWidth 10) 0#10 0#2)
  | .tlbinvPage c a => some (mkN c 0xE#4 0x04#6 0#9 a.enc 0#10 0#10 0#2)
  | .tlbinvPasid c => some (mkN c 0xE#4 0x04#6 0#9 0#10 0#10 0#10 1#2)
  | .icinvRange c a n => some (mkN c 0xE#4 0x05#6 0#9 a.enc n.enc 0#10 0#2)
  | .icinvAll c => some (mkN c 0xE#4 0x05#6 0#9 0#10 0#10 0#10 1#2)
  | .mbxr c acq d j w => some (mkD c 0xE#4 0x06#6 d 0#10 (0#3 ++ j ++ w) 0#10 (mBit acq))
  | .mbxw c post j w a => some (mkN c 0xE#4 0x07#6 0#9 a.enc (0#3 ++ j ++ w) 0#10 (mBit post))
  | .psamp c none => some (mkN c 0xE#4 0x08#6 0#9 0#10 0#10 0#10 0#2)
  | .psamp c (some a) => some (mkN c 0xE#4 0x08#6 0#9 a.enc 0#10 0#10 0#2)
  | .ckpt c => some (mkN c 0xE#4 0x09#6 0#9 0#10 0#10 0#10 0#2)
  | _ => none

/-! ## The decoder -/

/-- The common fields of a word, with the literal that follows it. -/
def Fields.ctl (f : Fields) (lit : Option W64) : Ctl where
  wait := f.wait
  set := if f.se then some f.slot else none
  lit := lit

/-- The destination of a word. -/
def Fields.d (f : Fields) : Dst := Dst.dec f.nwb f.dst
def Fields.a (f : Fields) : Src := Src.dec f.sa
def Fields.b (f : Fields) : Src := Src.dec f.sb
def Fields.e (f : Fields) : Src := Src.dec f.sc
def Fields.m0 (f : Fields) : Bool := f.m.getLsbD 0
def Fields.m1 (f : Fields) : Bool := f.m.getLsbD 1
def Fields.dM (f : Fields) : MNum := f.dst.setWidth 4
def Fields.aM (f : Fields) : MNum := f.sa.setWidth 4
def Fields.bM (f : Fields) : MNum := f.sb.setWidth 4
def Fields.cM (f : Fields) : MNum := f.sc.setWidth 4
def Fields.dS (f : Fields) : SNum := f.dst.setWidth 6
def Fields.bS (f : Fields) : SNum := f.sb.setWidth 6
def Fields.off (f : Fields) : BitVec 19 := offOf f.dst f.sb
def Fields.k3 (f : Fields) : BitVec 3 := f.sc.setWidth 3
/-- The load control with the format of the OP. -/
def Fields.ld (f : Fields) (base : BitVec 6) : LdCtl where
  fmt := Tag.dec ((f.op - base).setWidth 4)
  q := LQual.dec (f.sc.extractLsb' 8 2)
  mode := AMode.dec f.m
  disp := f.sc.setWidth 8
/-- The store control. -/
def Fields.st (f : Fields) : StCtl where
  q := SQual.dec (f.dst.extractLsb' 7 2)
  mode := AMode.dec f.m
  disp := f.dst.setWidth 7

/-- CLASS 0x0 (R162). -/
def raw0 (f : Fields) (c : Ctl) : Option Instr :=
  if f.op = 0x00#6 then some (.sadd c f.d f.a f.b)
  else if f.op = 0x01#6 then some (.ssub c f.d f.a f.b)
  else if f.op = 0x02#6 then some (.smul c f.d f.a f.b)
  else if f.op = 0x03#6 then some (.smin c f.m0 f.d f.a f.b)
  else if f.op = 0x04#6 then some (.smax c f.m0 f.d f.a f.b)
  else if f.op = 0x05#6 then some (.sand c f.d f.a f.b)
  else if f.op = 0x06#6 then some (.sor c f.d f.a f.b)
  else if f.op = 0x07#6 then some (.sxor c f.d f.a f.b)
  else if f.op = 0x08#6 then some (.sandn c f.d f.a f.b)
  else if f.op = 0x09#6 then some (.snot c f.d f.a)
  else if f.op = 0x0A#6 then some (.sshl c f.d f.a f.b)
  else if f.op = 0x0B#6 then some (.sshr c f.d f.a f.b)
  else if f.op = 0x0C#6 then some (.ssar c f.d f.a f.b)
  else if f.op = 0x0D#6 then some (.smov c f.d f.a)
  else if f.op = 0x0E#6 then some (.ssel c f.d f.a f.b f.e)
  else if f.op = 0x0F#6 then some (.spopc c f.d f.a)
  else if f.op = 0x10#6 then some (.sffs c f.d f.a)
  else if f.op = 0x11#6 then some (.sfls c f.d f.a)
  else if f.op = 0x12#6 then some (.srdlane c f.m0 f.d f.a f.b)
  else if 0x18#6 ≤ f.op ∧ f.op ≤ 0x1D#6 then some (.scmp c (Cond.dec (f.op - 0x18#6)) f.m0 f.d f.a f.b)
  else none

/-- CLASS 0x1 (R165). -/
def raw1 (f : Fields) (c : Ctl) : Option Instr :=
  if f.op = 0x00#6 then some (.iadd c f.m0 (IType.dec f.sc) f.d f.a f.b)
  else if f.op = 0x01#6 then some (.isub c f.m0 (IType.dec f.sc) f.d f.a f.b)
  else if f.op = 0x02#6 then some (.imul c f.m0 (IType.dec f.sc) f.d f.a f.b)
  else if f.op = 0x03#6 then some (.imulh c (IType.dec f.sc) f.d f.a f.b)
  else if f.op = 0x04#6 then some (.imad c f.m0 f.d f.a f.b f.e)
  else if f.op = 0x05#6 then some (.idiv c (IType.dec f.sc) f.d f.a f.b)
  else if f.op = 0x06#6 then some (.irem c (IType.dec f.sc) f.d f.a f.b)
  else if f.op = 0x07#6 then some (.imin c (IType.dec f.sc) f.d f.a f.b)
  else if f.op = 0x08#6 then some (.imax c (IType.dec f.sc) f.d f.a f.b)
  else if f.op = 0x09#6 then some (.iabs c f.m0 (IType.dec f.sc) f.d f.a)
  else if f.op = 0x0A#6 then some (.vand c f.d f.a f.b)
  else if f.op = 0x0B#6 then some (.vor c f.d f.a f.b)
  else if f.op = 0x0C#6 then some (.vxor c f.d f.a f.b)
  else if f.op = 0x0D#6 then some (.vandn c f.d f.a f.b)
  else if f.op = 0x0E#6 then some (.vnot c f.d f.a)
  else if f.op = 0x0F#6 then some (.shl c f.d f.a f.b)
  else if f.op = 0x10#6 then some (.shr c f.d f.a f.b)
  else if f.op = 0x11#6 then some (.sar c f.d f.a f.b)
  else if f.op = 0x12#6 then some (.rot c f.d f.a f.b)
  else if f.op = 0x13#6 then some (.bfe c f.m0 f.d f.a f.b)
  else if f.op = 0x14#6 then some (.bfi c f.d f.a f.b f.e)
  else if f.op = 0x15#6 then some (.popc c f.d f.a)
  else if f.op = 0x16#6 then some (.clz c f.d f.a)
  else if f.op = 0x17#6 then some (.brev c f.d f.a)
  else if 0x18#6 ≤ f.op ∧ f.op ≤ 0x1D#6 then some (.icmp c (Cond.dec (f.op - 0x18#6)) f.m0 f.d f.a f.b)
  else if f.op = 0x1E#6 then some (.sel c f.m0 f.d f.a f.b f.e)
  else if f.op = 0x1F#6 then some (.mov c f.m0 (decTagOpt f.sc) f.d f.a)
  else if f.op = 0x20#6 then some (.movs c f.m0 f.d f.a f.b)
  else none

/-- CLASS 0x2 (R170). -/
def raw2 (f : Fields) (c : Ctl) : Option Instr :=
  if f.op = 0x00#6 then some (.fadd c (Rnd.dec f.m) f.d f.a f.b)
  else if f.op = 0x01#6 then some (.fsub c (Rnd.dec f.m) f.d f.a f.b)
  else if f.op = 0x02#6 then some (.fmul c (Rnd.dec f.m) f.d f.a f.b)
  else if f.op = 0x03#6 then some (.ffma c (Rnd.dec f.m) f.d f.a f.b f.e)
  else if f.op = 0x04#6 then some (.fmin c f.d f.a f.b)
  else if f.op = 0x05#6 then some (.fmax c f.d f.a f.b)
  else if f.op = 0x06#6 then some (.fdiv c (Rnd.dec f.m) f.d f.a f.b)
  else if f.op = 0x07#6 then some (.fsqrt c (Rnd.dec f.m) f.d f.a)
  else if 0x08#6 ≤ f.op ∧ f.op ≤ 0x0F#6 then some (.fcmp c (FCond.dec (f.op - 0x08#6)) f.d f.a f.b)
  else if f.op = 0x10#6 then some (.frnd c (Rnd.dec f.m) f.d f.a)
  else if f.op = 0x11#6 then some (.fclass c f.d f.a)
  else if f.op = 0x12#6 then some (.fscl c (Rnd.dec f.m) f.d f.a f.b)
  else if f.op = 0x13#6 then some (.fdot2 c (Rnd.dec f.m) f.d f.a f.b f.e)
  else if f.op = 0x14#6 then some (.fdot4 c (Rnd.dec f.m) f.d f.a f.b f.e)
  else none

/-- CLASS 0x3 (R176 to R179). -/
def raw3 (f : Fields) (c : Ctl) : Option Instr :=
  if f.op = 0x00#6 then some (.cvt c (Rnd.dec f.m) (CvtCtl.dec f.sb f.sc) f.d f.a)
  else if f.op = 0x01#6 then some (.cvts c (CvtCtl.dec f.sb f.sc) f.d f.a)
  else if f.op = 0x02#6 then some (.pack c f.d f.a f.b f.e)
  else if f.op = 0x03#6 then some (.unpk c f.d f.a f.b)
  else if f.op = 0x08#6 then some (.frcp c f.d f.a)
  else if f.op = 0x09#6 then some (.frsq c f.d f.a)
  else if f.op = 0x0A#6 then some (.fexp2 c f.d f.a)
  else if f.op = 0x0B#6 then some (.flog2 c f.d f.a)
  else if f.op = 0x0C#6 then some (.fsin c f.d f.a)
  else if f.op = 0x0D#6 then some (.fcos c f.d f.a)
  else if f.op = 0x0E#6 then some (.ftanh c f.d f.a)
  else none

/-- CLASS 0x4 (R181). -/
def raw4 (f : Fields) (c : Ctl) : Option Instr :=
  if f.op = 0x00#6 then some (.shfl c (ShflMode.dec f.m) (f.sc.getLsbD 0) f.d f.a f.b)
  else if f.op = 0x01#6 then some (.vote c (VoteKind.dec f.m) f.d f.a)
  else if f.op = 0x02#6 then some (.mpref c f.m0 f.d f.a)
  else if f.op = 0x03#6 then some (.lbcast c f.m0 f.d f.a f.b)
  else if f.op = 0x04#6 then some (.lreduce c (RedOp.dec f.m) f.d f.a)
  else none

/-- CLASS 0x5 (R197). -/
def raw5 (f : Fields) (c : Ctl) : Option Instr :=
  if f.op = 0x00#6 then some (.mshape c f.m0 f.dM f.a f.b f.e)
  else if f.op = 0x01#6 then some (.mzero c f.dM)
  else if f.op = 0x02#6 then some (.mid c f.dM)
  else if f.op = 0x03#6 then some (.mld c (Space.dec (f.sc.extractLsb' 7 2)) (f.sc.setWidth 7) f.dM f.a f.b)
  else if f.op = 0x04#6 then some (.mst c (Space.dec (f.dst.extractLsb' 7 2)) (f.dst.setWidth 7) f.a f.b f.cM)
  else if f.op = 0x05#6 then some (.mget c f.d f.aM f.b f.e)
  else if f.op = 0x06#6 then some (.mput c f.dM f.a f.b f.e)
  else if f.op = 0x07#6 then some (.mmul c f.m0 f.m1 f.dM f.aM f.bM)
  else if f.op = 0x08#6 then some (.mmult c f.m0 f.m1 f.dM f.aM f.bM)
  else if f.op = 0x09#6 then some (.mtmul c f.m0 f.m1 f.dM f.aM f.bM)
  else if f.op = 0x0A#6 then some (.madd c f.dM f.aM f.bM)
  else if f.op = 0x0B#6 then some (.msub c f.dM f.aM f.bM)
  else if f.op = 0x0C#6 then some (.mscal c f.dM f.aM f.b)
  else if f.op = 0x0D#6 then some (.mhad c f.dM f.aM f.bM)
  else if f.op = 0x0E#6 then some (.mtr c f.dM f.aM)
  else if f.op = 0x0F#6 then some (.mcvt c f.m0 (Tag.decInline f.sb) f.dM f.aM)
  else if f.op = 0x10#6 then some (.mring c (Dir.dec f.m) f.dM f.aM)
  else none

/-- CLASS 0x6 (R197). -/
def raw6 (f : Fields) (c : Ctl) : Option Instr :=
  if f.op = 0x00#6 then some (.minv c f.dM f.aM f.bS)
  else if f.op = 0x01#6 then some (.mlu c f.dM f.aM f.bS (f.sc.setWidth 8))
  else if f.op = 0x02#6 then some (.mlus c f.dM f.aM f.bM f.e)
  else if f.op = 0x03#6 then some (.mchol c f.dM f.aM f.bS)
  else if f.op = 0x04#6 then some (.mexp c f.dM f.aM)
  else if f.op = 0x05#6 then some (.mtrq c f.dM f.aM)
  else if f.op = 0x06#6 then some (.mnrm1 c f.d f.aM)
  else if f.op = 0x08#6 then some (.minvT c f.dM f.aM f.bS)
  else if f.op = 0x09#6 then some (.mluT c f.dM f.aM f.bS (f.sc.setWidth 8))
  else if f.op = 0x0B#6 then some (.mcholT c f.dM f.aM f.bS)
  else none

/-- CLASS 0x7 (R62, R151). -/
def raw7 (f : Fields) (c : Ctl) : Option Instr :=
  if f.op ≤ 0x0C#6 then some (.lds c (f.ld 0x00#6) f.d f.a f.b)
  else if f.op = 0x10#6 then some (.sts c f.st f.a f.b f.e)
  else if f.op = 0x11#6 then some (.stc c f.st f.a f.b f.e)
  else if f.op = 0x12#6 then some (.std c f.st f.a f.b f.e)
  else if f.op = 0x13#6 then some (.stp c f.st f.a f.b f.e)
  else if 0x14#6 ≤ f.op ∧ f.op ≤ 0x20#6 then some (.ldc c (f.ld 0x14#6) f.d f.a f.b)
  else if 0x21#6 ≤ f.op ∧ f.op ≤ 0x2D#6 then some (.ldd c (f.ld 0x21#6) f.d f.a f.b)
  else if 0x2E#6 ≤ f.op ∧ f.op ≤ 0x3A#6 then some (.ldp c (f.ld 0x2E#6) f.d f.a f.b)
  else none

/-- CLASS 0x8 (R111). -/
def raw8 (f : Fields) (c : Ctl) : Option Instr :=
  if f.op = 0x00#6 then some (.bcp c f.m1 f.m0 f.dS f.a f.b f.e)
  else if f.op = 0x01#6 then some (.bcpm c f.m0 f.dS f.a f.bS f.e)
  else if f.op = 0x02#6 then
    (if f.m0 then some (.bfillEmpty c f.dS f.b f.e) else some (.bfill c f.m1 f.dS f.a f.b f.e))
  else if f.op = 0x03#6 then some (.bpref c f.a f.b)
  else if f.op = 0x04#6 then some (.bobj c f.a f.b)
  else if f.op = 0x05#6 then some (.barv c f.a)
  else if f.op = 0x06#6 then some (.bwait c f.a f.b)
  else if f.op = 0x07#6 then some (.bcommit c)
  else if f.op = 0x08#6 then some (.bwaitn c f.a)
  else if f.op = 0x09#6 then
    some (.bquery c f.d (if f.sb = 0x1D1#10 then .batches else if f.sb = 0x1D2#10 then .slots else .obj f.a))
  else none

/-- CLASS 0x9 (R127). -/
def raw9 (f : Fields) (c : Ctl) : Option Instr :=
  if f.op = 0x00#6 then some (.gath c (IdxMode.dec f.m) (Tag.decInline f.sc) f.d f.a f.b)
  else if f.op = 0x01#6 then some (.gaths c f.m1 f.m0 f.dS f.a f.b f.e)
  else if f.op = 0x02#6 then some (.scat c (IdxMode.dec f.m) f.a f.b f.e)
  else if f.op = 0x03#6 then some (.scata c (IdxMode.dec f.m) f.a f.b f.e)
  else if f.op = 0x04#6 then some (.ldspl c (IdxMode.dec f.m) f.dM f.a f.b)
  else if f.op = 0x05#6 then some (.hacc c f.dS (f.sa.setWidth 3) f.b f.e)
  else none

/-- CLASS 0xA (R254). -/
def rawA (f : Fields) (c : Ctl) : Option Instr :=
  if f.op ≤ 0x09#6 then
    some (.atom c (AtomOp.dec f.op) f.m1 f.m0 (AtCtl.dec f.sc) (if atRet f.sc then some f.d else none) f.a f.b)
  else if f.op = 0x10#6 then some (.cas c f.m1 (AtCtl.dec f.sc) f.d f.a f.b)
  else if f.op = 0x11#6 then some (.ldx c f.m1 (AtCtl.dec f.sc) f.d f.a)
  else if f.op = 0x12#6 then some (.stx c f.m1 (AtCtl.dec f.sc) f.d f.a f.b)
  else if f.op = 0x13#6 then some (.fence c (Scope.dec (f.sc.extractLsb' 5 3)) (MOrd.dec (f.sc.extractLsb' 2 3)))
  else if f.op = 0x14#6 then some (.bar c)
  else if f.op = 0x15#6 then some (.bara c f.d)
  else if f.op = 0x16#6 then some (.barw c f.a)
  else if f.op = 0x17#6 then (if f.m0 then some (.sbarGrid c) else some (.sbar c (Scope.dec (f.sc.extractLsb' 5 3)) f.a))
  else if f.op = 0x18#6 then some (.nsend c (Dir.dec f.m) f.a)
  else if f.op = 0x19#6 then some (.nrecv c (Dir.dec f.m) f.d)
  else if f.op = 0x1A#6 then some (.yield c)
  else if f.op = 0x1B#6 then some (.sleep c f.a)
  else none

/-- CLASS 0xB (R247, R299). -/
def rawB (f : Fields) (c : Ctl) : Option Instr :=
  if f.op = 0x00#6 then some (.nop c)
  else if f.op = 0x01#6 then some (.bra c f.off)
  else if f.op = 0x02#6 then some (.brc c f.off f.sc f.a)
  else if f.op = 0x03#6 then some (.brx c f.a)
  else if f.op = 0x04#6 then some (.call c f.off (f.sa.setWidth 8))
  else if f.op = 0x05#6 then some (.ret c f.a)
  else if f.op = 0x06#6 then some (.join c)
  else if f.op = 0x07#6 then some (.regroup c)
  else if f.op = 0x08#6 then some (.exit c)
  else if f.op = 0x09#6 then some (.spawn c f.a (f.sb.setWidth 8) f.e)
  else if f.op = 0x0A#6 then some (.brcBlk c f.off f.sc f.a)
  else if f.op = 0x0B#6 then some (.brcBlkKeep c f.off f.sc f.a)
  else none

/-- CLASS 0xC (R229, R230). -/
def rawC (f : Fields) (c : Ctl) : Option Instr :=
  if f.op = 0x00#6 then some (.dx (DxMode.dec f.m) (f.dst.setWidth 4))
  else if f.op = 0x01#6 then some (.tget c f.m f.d f.a)
  else if f.op = 0x02#6 then some (.tset c f.m f.d f.a)
  else if f.op = 0x03#6 then some (.tzero c (f.sb.setWidth 4) f.d)
  else if f.op = 0x04#6 then some (.tseed c f.m f.d)
  else none

/-- CLASS 0xD (R323). -/
def rawD (f : Fields) (c : Ctl) : Option Instr :=
  if f.op = 0x00#6 then some (.finf c f.d f.a ((f.sb - 0x1D0#10).setWidth 4))
  else if f.op = 0x01#6 then some (.frdv c f.m0 f.k3 f.d f.a f.b)
  else if f.op = 0x02#6 then some (.fwrv c f.m0 f.k3 f.d f.a f.b)
  else if f.op = 0x03#6 then some (.frds c f.d f.a f.b)
  else if f.op = 0x04#6 then some (.fwrs c f.d f.a f.b)
  else if f.op = 0x05#6 then some (.frdm c f.k3 f.d f.a f.bM)
  else if f.op = 0x06#6 then some (.fwrm c f.k3 f.dM f.a f.bM)
  else if f.op = 0x07#6 then
    (if f.m = 0#2 then some (.frsmRetry c f.a) else if f.m = 1#2 then some (.frsmSkip c f.a)
     else if f.m = 2#2 then some (.frsmPc c f.a f.b) else some (.frsmStep c f.a))
  else if f.op = 0x08#6 then
    (if f.m = 0#2 then some (.fkilLanes c f.a f.b) else if f.m = 1#2 then some (.fkilCoh c f.a) else some (.fkilGrid c f.a))
  else if f.op = 0x09#6 then some (.frel c f.a)
  else none

/-- CLASS 0xE (R332, R351). -/
def rawE (f : Fields) (c : Ctl) : Option Instr :=
  if f.op = 0x00#6 then some (.srd c f.d f.sb)
  else if f.op = 0x01#6 then some (.swr c f.sb f.a)
  else if f.op = 0x02#6 then some (.brk c)
  else if f.op = 0x03#6 then some (.trap c (f.sb.setWidth 8))
  else if f.op = 0x04#6 then (if f.m = 0#2 then some (.tlbinvPage c f.a) else some (.tlbinvPasid c))
  else if f.op = 0x05#6 then (if f.m = 0#2 then some (.icinvRange c f.a f.b) else some (.icinvAll c))
  else if f.op = 0x06#6 then some (.mbxr c f.m0 f.d (f.sb.extractLsb' 3 4) (f.sb.setWidth 3))
  else if f.op = 0x07#6 then some (.mbxw c f.m0 (f.sb.extractLsb' 3 4) (f.sb.setWidth 3) f.a)
  else if f.op = 0x08#6 then some (.psamp c (if f.sa = 0#10 then none else some f.a))
  else if f.op = 0x09#6 then some (.ckpt c)
  else none

/-- The instruction that the CLASS/OP point of a word encodes, with its fields read as that point reads them; none at a
point that R62 does not list (R63). Whether each field holds a listed value is decided in `decodeFields`. -/
def raw (f : Fields) (lit : Option W64) : Option Instr :=
  let c := f.ctl lit
  if f.cls = 0x0#4 then raw0 f c
  else if f.cls = 0x1#4 then raw1 f c
  else if f.cls = 0x2#4 then raw2 f c
  else if f.cls = 0x3#4 then raw3 f c
  else if f.cls = 0x4#4 then raw4 f c
  else if f.cls = 0x5#4 then raw5 f c
  else if f.cls = 0x6#4 then raw6 f c
  else if f.cls = 0x7#4 then raw7 f c
  else if f.cls = 0x8#4 then raw8 f c
  else if f.cls = 0x9#4 then raw9 f c
  else if f.cls = 0xA#4 then rawA f c
  else if f.cls = 0xB#4 then rawB f c
  else if f.cls = 0xC#4 then rawC f c
  else if f.cls = 0xD#4 then rawD f c
  else if f.cls = 0xE#4 then rawE f c
  else none

/-- The faults of decoding (R33, R38 to R40, R63). -/
inductive DecErr where
  | illegalInstruction
  | illegalEncoding
  | illegalClause
deriving DecidableEq, Repr

/-- A word with its literal: the instruction, when every field holds a value its point allows (R40, R49). -/
def decodeFields (L : Lim) (f : Fields) (lit : Option W64) : Except DecErr Instr :=
  match raw f lit with
  | none => .error .illegalInstruction
  | some i => if i.wf L && decide (i.fields = some f) then .ok i else .error .illegalEncoding

/-- DST of a point is read as a register specifier (R37): every destination but a frozen register and the reassigned s fields (R49). -/
def Instr.dstSpec : Instr → Bool
  | .fwrv .. | .fwrs .. => false
  | .mshape .. | .mzero .. | .mid .. | .mld .. | .mput .. | .mmul .. | .mmult .. | .mtmul .. | .madd .. | .msub .. | .mscal .. | .mhad ..
  | .mtr .. | .mcvt .. | .mring .. | .minv .. | .mlu .. | .mlus .. | .mchol .. | .mexp .. | .mtrq .. | .minvT .. | .mluT .. | .mcholT ..
  | .ldspl .. => true
  | i => i.dst.isSome

/-- The source fields of a point that hold a matrix or a ring register by its number (R37, R41). -/
def Instr.bankSpecs (i : Instr) (f : Fields) : List (BitVec 10) :=
  match i with
  | .mmul .. | .mmult .. | .mtmul .. | .madd .. | .msub .. | .mhad .. | .mlus .. => [f.sa, f.sb]
  | .mget .. | .mscal .. | .mtr .. | .mcvt .. | .mring .. | .minv .. | .mlu .. | .mchol .. | .mexp .. | .mtrq .. | .mnrm1 .. | .minvT ..
  | .mluT .. | .mcholT .. | .hacc .. => [f.sa]
  | .mst .. => [f.sc]
  | .fwrm .. => [f.sb]
  | _ => []

/-- The instruction of a point names the literal specifier in a field that it reads as a register specifier (R37). -/
def Instr.namesLit (i : Instr) (f : Fields) : Bool :=
  i.usesLit || (i.dstSpec && !f.nwb && f.dst == 0x1FF#9) || (i.bankSpecs f).any (· == 0x1FF#10)

/-- The word names the literal specifier in a field that it reads as a register specifier (R37). -/
def namesLit (w : W64) : Bool :=
  match raw (Fields.ofWord w) none with
  | some i => i.namesLit (Fields.ofWord w)
  | none => false

/-- A word and the word after it. -/
def decodeWord (L : Lim) (w next : W64) : Except DecErr Instr :=
  decodeFields L (Fields.ofWord w) (if namesLit w then some next else none)

/-- The words of an instruction: itself and, when it names one, its literal. -/
def encode (i : Instr) : List W64 :=
  match i.fields with
  | none => []
  | some f => f.toWord :: (match i.ctl with | some c => c.lit.toList | none => [])

/-- The instruction that the decoder reads from a row's bits: bits 63:0 are the instruction word, bits 127:64 its literal
word, which follows it in the clause (R31, R37). -/
def decodeTableWord (nbits w : Nat) : Option Instr :=
  let w' := w % 2 ^ nbits
  match decodeWord ⟨256, 4⟩ (BitVec.ofNat 64 w') (BitVec.ofNat 64 (w' / 2 ^ 64)) with
  | .ok i => some i
  | .error _ => none

/-! ## The clause header (R31 to R33) -/

/-- SIG of a header. -/
def hdrSig (h : W64) : BitVec 4 := h.extractLsb' 60 4
/-- N of a header: its number of words. -/
def hdrN (h : W64) : Nat := (h.extractLsb' 56 4).toNat + 1
/-- CCLS of a header. -/
def hdrCcls (h : W64) : BitVec 3 := h.extractLsb' 53 3
/-- YLD of a header. -/
def hdrYld (h : W64) : Bool := h.getLsbD 52
/-- CWAIT of a header. -/
def hdrCwait (h : W64) : BitVec 8 := h.extractLsb' 44 8

/-- The word class is allowed in the clause class (R38). -/
def placeOk (cls : BitVec 4) (op : BitVec 6) (ccls : BitVec 3) : Bool :=
  if cls = 0#4 then true
  else if cls = 1#4 ∨ cls = 2#4 ∨ cls = 3#4 ∨ cls = 4#4 then ccls == 0#3
  else if cls = 5#4 ∨ cls = 6#4 then ccls == 1#3
  else if cls = 7#4 then ccls == 2#3
  else if cls = 8#4 ∨ cls = 9#4 then ccls == 3#3
  else if cls = 0xA#4 then ccls == 2#3 || ccls == 4#3
  else if cls = 0xB#4 then true
  else if cls = 0xC#4 then (op == 0#6) || ccls == 0#3
  else ccls == 4#3

/-! ## Latches (R51 to R53) and prefixes (R61, R225) -/

/-- What a word pushes into the latch window (R51). -/
inductive Push where
  | vec | sca | none
deriving DecidableEq, Repr

/-- The kind of entry that a destination gives. -/
def Dst.push : Dst → Push
  | .v _ | .seed => .vec
  | .s _ | .b _ | .k _ => .sca
  | .m _ => .none
  | .nwb => .none

/-- The entry that a word of CLASS 0x0 to 0x4, or TGET, pushes (R51). An NWB word pushes the entry of its destination kind:
scalar for CLASS 0x0, ICMP, FCMP and VOTE, vector for the others. -/
def Instr.push (i : Instr) : Push :=
  match i with
  | .frcp .. | .frsq .. | .fexp2 .. | .flog2 .. | .fsin .. | .fcos .. | .ftanh .. => .none
  | .lreduce _ _ d _ => if d.isNwb then .vec else d.push
  | .tget _ _ d a => if d.isNwb then (match a with | .m _ => .none | _ => .vec) else d.push
  | i => match i.dst with
    | some (.sca true, _) => .sca
    | some (.smov, .k _) => .none
    | some (.smov, _) => .sca
    | some (.vec _ true, _) => .vec
    | _ => .none

/-- The entry that a latch field needs fits the entry pushed (R52). -/
def SK.fits (k : SK) (p : Push) : Bool :=
  match k, p with
  | _, .none => false
  | .vec _ _ _, _ => true
  | .reg _, .vec => true
  | .sca _, .sca => true
  | .pair, .vec => true
  | .pairSca, _ => true
  | _, _ => false

/-- Every latch that a word names lies in the window and holds a fitting entry; `ps` are the entries of the words before it
in the clause, the newest first (R52). -/
def latchOk (i : Instr) (ps : List Push) : Bool :=
  i.srcs.all fun x => match x.2 with
    | .latch n => match ps[n.toNat]? with
      | some p => x.1.fits p
      | none => false
    | _ => true

/-- NWB = 1 stands only on a word that pushes a non-empty entry (R53). -/
def nwbOk (i : Instr) : Bool :=
  match i.dst with
  | some (_, .nwb) => i.push != .none
  | _ => true

/-- The DX modes that a word takes (R224, R225, R122, R159, R214). SEED holds no tangents (R220). -/
def dxAllowed (f : Fields) (i : Instr) (mode : DxMode) : Bool :=
  let scalarDst := match i.dst with
    | some (.sca _, _) | some (.smov, _) | some (_, .seed) => true
    | some (.lred, .s _) | some (.lred, .b _) => true
    | _ => false
  let c := f.cls.toNat
  if c ≤ 4 then
    (mode == .prop || mode == .stop || (!scalarDst && !f.nwb))
  else if c = 5 ∨ c = 6 then
    (match i with
    | .mld .. | .mst .. | .mring .. => mode == .prop
    | _ => mode == .prop || mode == .stop || !f.nwb)
  else if c = 7 then
    (match i with | .sts .. | .stc .. | .std .. | .stp .. => mode == .prop | _ => mode == .prop || mode == .stop)
  else if c = 8 then
    (match i with | .bcp .. | .bcpm .. | .bfill .. | .bfillEmpty .. => mode == .prop | _ => false)
  else if c = 9 then mode == .prop
  else if c = 0xA then
    (match i with | .atom .. | .cas .. | .ldx .. | .stx .. => mode == .prop | _ => false)
  else false

/-! ## The whole clause (R40) -/

/-- A fault of the clause check: its kind and the word index it reports. -/
structure ClauseErr where
  err  : DecErr
  widx : Nat
deriving DecidableEq, Repr

/-- The words of a clause from index `w` on, checked in order (R37 to R40, R52, R53, R61). `ps`: entries pushed so far;
`dx`: the prefix that stands before, with its mode. `fuel` bounds the words. -/
def checkWords (L : Lim) (ccls : BitVec 3) : List W64 → Nat → List Push → Option DxMode → Bool → Option ClauseErr
  | [], _, _, _, _ => none
  | x :: rest, w, ps, dx, skip =>
    if skip then checkWords L ccls rest (w + 1) ps dx false
    else
      let f := Fields.ofWord x
      match raw f none with
      | none => some ⟨.illegalInstruction, w⟩
      | some i0 =>
        let lit := i0.namesLit f
        if !placeOk f.cls f.op ccls then some ⟨.illegalClause, w⟩
        else if f.cls = 0xC#4 ∧ f.op = 0#6 then
          match rest with
          | [] => some ⟨.illegalClause, w⟩
          | y :: _ =>
            let fy := Fields.ofWord y
            if fy.cls = 0xC#4 ∧ fy.op = 0#6 then some ⟨.illegalClause, w⟩
            else match decodeFields L f none with
              | .error e => some ⟨e, w⟩
              | .ok (.dx mode _) =>
                match raw fy none with
                | none => checkWords L ccls rest (w + 1) ps (some mode) false
                | some iy => if dxAllowed fy iy mode then checkWords L ccls rest (w + 1) ps (some mode) false
                             else some ⟨.illegalEncoding, w⟩
              | .ok _ => some ⟨.illegalEncoding, w⟩
        else if lit && rest.isEmpty then some ⟨.illegalClause, w⟩
        else if decide (f.cls = 0xB#4) && decide (rest.length > (if lit then 1 else 0)) then some ⟨.illegalClause, w⟩
        else match decodeFields L f (if lit then rest.head? else none) with
          | .error e => some ⟨e, w⟩
          | .ok i =>
            if latchOk i ps && nwbOk i then checkWords L ccls rest (w + 1) (i.push :: ps) none lit
            else some ⟨.illegalEncoding, w⟩

/-- The check of a whole clause, in the order of R40: SIG, CCLS, the reserved bits, then word by word. -/
def checkClause (L : Lim) (h : W64) (ws : List W64) : Option ClauseErr :=
  if hdrSig h ≠ 0xD#4 then some ⟨.illegalClause, 0⟩
  else if 5 ≤ (hdrCcls h).toNat then some ⟨.illegalClause, 0⟩
  else if h.extractLsb' 0 44 ≠ 0#44 then some ⟨.illegalEncoding, 0⟩
  else checkWords L (hdrCcls h) ws 1 [] none false

end Sys2Proof
end

