-- ==== Sys2Proof/Config.lean ====
section
/-! DEFINITION. What the spec leaves open and the model leaves open with it: constants without a body, so that no proof can
see their values (log entry 3), and the functions of the firmware complex that the spec names without defining (log entry 13). -/

namespace Sys2Proof.Config

/-- A fresh free value for each number drawn (log entry 3): a value the spec leaves open. -/
opaque freeWord : Nat → W64

/-- The bits of capabilities carry no meaning for software (R316): capability n is `capBase` + n, with `capBase` free. -/
opaque capBase : W64

/-- The bytes of CXL memory on the expanders that are attached (R83): the installation's. -/
opaque cxlBytes : Nat

/-- What the sensors of the module show at each CLK (R402): physical quantities from outside the machine. -/
opaque inletTemp : Nat → W32
opaque inputPower : Nat → W32

/-- The SHA-512 hash of an image (R396, R398). -/
opaque hash : List Byte → List Byte

/-- The signature check of a firmware image against the fused key (R396). -/
opaque signatureOk : List Byte → Bool

/-- The fused 128-bit device serial (R398). -/
opaque serial : List Byte

/-- The signature over an attestation report (R398). -/
opaque sign : List Byte → List Byte

end Sys2Proof.Config
end

