-- ==== Sys2Proof/Machine/State.lean ====
section
/-! DEFINITION. The state of the machine as plain data: everything the spec gives the Heltolen 7200 (INVENTORY.md, State),
the agenda of outside events, the reasons a step can stop, and the state after reset. -/

namespace Sys2Proof.Machine

/-- Sparse data by number: pairs in ascending order of the key. -/
abbrev AMap (α : Type) := List (Nat × α)

/-- Memory: the bytes that do not read as zero, in ascending order of the address (log entry 5). -/
abbrev Memory := List Host.Cell

/-- A store of bytes: physical memory, the scratchpad of a core, the die-wide scratchpad of a die (R83, R141), the own
scratchpad of a handler block (R314). -/
inductive Store where
  | phys
  | core (n : Nat)
  | die (n : Nat)
  | hblk (b : Nat)
deriving DecidableEq, Repr

/-! ## Threads (R20, R146) -/

/-- A vector register of one thread with its tangents: value, tag, poison mark; tangents absent read 0 (R146, R220). -/
structure VReg where
  val  : W32
  tag  : Tag
  psn  : Bool
  tan  : AMap W32
  tpsn : List Nat
deriving DecidableEq, Repr

/-- A matrix register of one thread: the descriptor of R189, the elements in row-major order, the scale and micro byte of
each K-line (R190), the tangents present (R214). -/
structure MReg where
  rows : Nat
  cols : Nat
  tag  : Tag
  kax  : Bool
  psn  : Bool
  tp   : Nat
  el   : List W64
  sc   : List (Byte × Byte)
  tan  : AMap (List W64)
deriving DecidableEq, Repr

/-- A reservation of LDX: one granule of 16 bytes of a store (R260). -/
structure Resv where
  store : Store
  gran  : Nat
deriving DecidableEq, Repr

/-- One thread (R20): its index and identity (R23), its registers, SEED (R79) and its reservation (R260). -/
structure Thread where
  t    : Nat
  tid  : W32 × W32 × W32
  bid  : W32 × W32 × W32
  v    : AMap VReg
  m    : AMap MReg
  seed : W32
  resv : Option Resv
deriving DecidableEq, Repr

/-! ## Cohorts (R21) -/

/-- One lane of a vector latch entry (R51); the poison mark comes from a parity error alone (R367). -/
structure LEl where
  val : W64
  tag : Tag
  tan : AMap W64
  psn : Bool
deriving DecidableEq, Repr

/-- A latch entry (R51); a scalar entry is poisoned by a parity error alone (R367). -/
inductive LEnt where
  | none
  | sca (v : W64) (psn : Bool)
  | vec (lanes : AMap LEl)
deriving DecidableEq, Repr

/-- The fetched copy of a clause (R31, R64): the header, its words, the index of the next word to issue, and the DX prefix
that stands before that word (R61). -/
structure Clause where
  hdr   : W64
  words : List W64
  wi    : Nat
  dx    : Option (DxMode × BitVec 4)
deriving DecidableEq, Repr

/-- The blocked waits of R102. -/
inductive WaitKind where
  | slot | bobj | barv | bwait | bcommit | bwaitn | order | fence | bar | bara | barw | sbar | sbarGrid
  | nsend | nrecv | mringSend | mringRecv | sleep | spawn | meeting | regs | tlb | reply
deriving DecidableEq, Repr

/-- A blocked wait: its kind, whether it has ended, the clock it began at, the number its kind needs (the phase awaited, the
end of a SLEEP, the phase before arrival, the operation whose replies it awaits), and the threads that arrive at the barrier only in the next phase (R263). -/
structure PWait where
  kind     : WaitKind
  released : Bool
  since    : Nat
  num      : Nat
  late     : List Nat
deriving DecidableEq, Repr

/-- A path (R235): PC, MASK, RPC; the wait it stands in; a demotion waiting for the boundary (R240); the clause it is in; the CAS, STX
and .poll operations in flight that it has issued, whose results may demote it (R158, R240); whether a single step has issued its word on
it (R329). -/
structure Path where
  pc   : W64
  mask : W32
  rpc  : Option W64
  wait : Option PWait
  dem  : Bool
  cl   : Option Clause
  ops  : List Nat
  stp  : Bool
deriving DecidableEq, Repr

/-- A spill-stack entry (R144). -/
structure Spill where
  path : Path
  kind : BitVec 2
deriving DecidableEq, Repr

/-- A freeze (R312, R313, R324): kind, code, level, word index, path, the clause's header address, the address of the lowest
faulting lane, whether it stands at the header or between words; and code, level and address of each faulting lane where the lanes
differ (R90). -/
structure Freeze where
  kind    : Nat
  code    : Nat
  level   : Nat
  widx    : Nat
  isB     : Bool
  hdr     : W64
  va      : W64
  header  : Bool
  between : Bool
  per     : AMap (Nat × Nat × W64)
deriving DecidableEq, Repr

/-- A cohort (R21): see INVENTORY.md for the rule of each field. `ready` holds the counted cycles and the CLK at which its next clause
became ready (R308, R309); `idle` marks a cohort that a block-wide branch without KEEP has left empty with its resources (R246). -/
structure Cohort where
  lanes   : AMap Thread
  pa      : Option Path
  pb      : Option Path
  selB    : Bool
  mid     : Bool
  spill   : List Spill
  s       : AMap W64
  k       : AMap W64
  d       : AMap (BitVec 6)
  latch   : List LEnt
  flane   : W32
  pmask   : W32
  pidx    : W32
  frz     : Option Freeze
  rpm     : W32
  rinc    : Bool
  ncls    : Nat
  fair    : Nat
  openg   : List Nat
  batches : List (List Nat)
  polls   : Nat
  step    : Nat
  psamp   : Option (BitVec 16)
  part    : Nat
  cslot   : Nat
  ready   : Option (Nat × Nat)
  urgent  : Option Nat
  ypause  : Option (List (Nat × Nat) × Nat)
  bpskip  : Option W64
  idle    : Bool
deriving DecidableEq, Repr

/-! ## Blocks (R23) -/

/-- A join record (R235): threads are named by their linear index. -/
structure Rec where
  rp      : W64
  orpc    : Option W64
  m       : List Nat
  arr     : List Nat
  blk     : Bool
  keep    : Bool
  origins : AMap (Nat × Nat)
deriving DecidableEq, Repr

/-- What kind of block it is: of the grid's index space, of tasks (R25), of a handler (R315) in a handler or nest slot. -/
inductive BKind where
  | grid
  | task
  | handler (nest : Bool) (slot cap : Nat)
deriving DecidableEq, Repr

/-- The block's sizes: from the launch record, or R315's for a handler. -/
structure BCfg where
  vr    : Nat
  t     : Nat
  mtb   : Nat
  sb    : Nat
  pfb   : Nat
  spd   : Nat
  bslot : Bool
  dualn : Nat
deriving DecidableEq, Repr

/-- The open SBAR phase of a block (R266): grid form or the scope and count, and whether the block's arrival is made. -/
structure SOpen where
  isGrid : Bool
  scope  : Scope
  n      : Nat
  made   : Bool
deriving DecidableEq, Repr

/-- A block (R23). -/
structure Block where
  grid  : Nat
  kind  : BKind
  die   : Nat
  core  : Nat
  bid   : W32 × W32 × W32
  ntid  : Nat × Nat × Nat
  nt    : Nat
  ncoh  : Nat
  cfg   : BCfg
  base  : Nat
  size  : Nat
  order : Nat
  cohs  : AMap Cohort
  b     : AMap W32
  recs  : List Rec
  arr   : List Nat
  ph    : Nat
  sbo   : Option SOpen
  nb    : Bool
  mem   : Memory
  mfe   : List Nat
  mpsn  : List Nat
  mobj  : List Nat
  saved : Bool
  logr  : Option Nat
  ckw   : Bool
  ckat  : Nat
  ckn   : Nat
deriving DecidableEq, Repr

/-! ## Grids (R24, R292) -/

/-- The launch record (R292). -/
structure LaunchRec where
  prog    : W64
  hentry  : W64
  gx      : Nat
  gy      : Nat
  gz      : Nat
  bx      : Nat
  by'     : Nat
  bz      : Nat
  vr8     : Nat
  mtb     : Nat
  dualn   : Nat
  prio    : Nat
  tc      : Nat
  bslot   : Nat
  sb      : Nat
  pfb     : Nat
  spd     : Nat
  trapen  : BitVec 3
  aff     : Bool
  win     : Bool
  dstride : W64
  sdstr   : W32
  ddstr   : W32
  dwbase  : Nat
  dwsize  : Nat
  seedb   : W32
  tdecl   : Nat
  affbase : W64
  affstr  : W64
  rsave   : W64
  rsize   : Nat
  result  : W64
deriving DecidableEq, Repr

/-- A scoped barrier of a grid (R266): its instance, the expected count of the phase, the blocks that have arrived. -/
structure SBarI where
  scope : Scope
  inst  : Nat
  n     : Nat
  arr   : List Nat
deriving DecidableEq, Repr

/-- The state of a grid (R298, R330). -/
inductive GStat where
  | running | killed | ended
deriving DecidableEq, Repr

/-- A grid (R24). -/
structure Grid where
  lrec   : LaunchRec
  pasid  : BitVec 20
  qn     : BitVec 16
  cmd    : Nat
  stat   : GStat
  status : Nat
  next   : Nat
  ahead  : List Nat
  done   : Nat
  gph    : Nat
  garr   : List Nat
  sbars  : List SBarI
  since  : Option Nat
  rot    : List Nat
  slots  : AMap Nat
  waits  : Option Nat
  recd   : Bool
  regn   : Nat
deriving DecidableEq, Repr

/-- A task record (R300) with its grid, cluster, the clock it arrived at and the number of the cohort it launches in (R301). -/
structure Task where
  grid  : Nat
  entry : W64
  args  : List W32
  aff   : W64
  clus  : Option Nat
  at'   : Nat
  seq   : Option Nat
deriving DecidableEq, Repr

/-- A fault record (R317): the frozen cohort or the suspended copy it names. -/
inductive FRec where
  | coh (blk coh : Nat)
  | copy (id : Nat)
deriving DecidableEq, Repr

/-- A live capability (R316): its number, what it names, the handler block that holds it. -/
structure Cap where
  num  : Nat
  what : FRec
  hblk : Nat
deriving DecidableEq, Repr

/-! ## Cores and dies (R17) -/

/-- A message in a neighbour FIFO (R267): the sender's grid and COH; the lanes with element and tag, or for MRING the matrices; the
32-lane words it takes, those that have entered the FIFO and those that have left it (R213; a vector message is one word). -/
structure FEntry where
  grid : Nat
  coh  : Nat
  vec  : Option (AMap (W32 × Tag × Bool))
  mat  : AMap MReg
  size : Nat
  sent : Nat
  took : Nat
deriving DecidableEq, Repr

/-- A partition (R17): the cohort inside a clause, the cohort that issued last and its YLD chain (R34), the clauses chosen so far
(the counted cycles of R309), the words counted for sampling (R345), the stop of R342, BPHIT (R339). -/
structure Part where
  cur     : Option (Nat × Nat)
  last    : Option (Nat × Nat)
  chain   : Nat
  cnt     : Nat
  smp     : Nat
  stopped : Bool
  bphit   : BitVec 16
deriving DecidableEq, Repr

/-- A core (R17): scratchpad with its full granules (R108) and poisoned granules (R154), the granules that hold barrier objects (R105, R106), FIFOs by side (R267), Belfry
registers (R339), cached clauses (R64), self-test state (R373). -/
structure Core where
  scr     : Memory
  fe      : List Nat
  psn     : List Nat
  objs    : List Nat
  fifo    : AMap (List FEntry)
  bpc     : AMap W64
  wpb     : AMap W64
  ic      : List (BitVec 20 × W64 × W64)
  parts   : AMap Part
  fenced  : Bool
  testing : Bool
deriving DecidableEq, Repr

/-- A machine-check bank (R370). -/
structure Bank where
  status : W64
  addr   : W64
  misc   : W64
  ctl    : W64
  count  : W64
deriving DecidableEq, Repr

/-- An operation logged by the engines of a die (R350): its number, its operand tiles and output, whether it has ended, the bytes
that the ring had taken before it. -/
structure EngLog where
  id     : Nat
  tiles  : List Byte
  out    : List Byte
  whole  : Bool
  at'    : Nat
deriving DecidableEq, Repr

/-- The arbiter of an output (R390, R391): the deficit counter of each class in bytes; the class that the round of the high and of the
normal group visits; the weights of the rounds (R392); for each input the inputs that it has been granted more recently than. -/
structure Arb where
  dc  : AMap Nat
  hi  : Option Nat
  lo  : Option Nat
  w   : AMap Nat
  lru : AMap (List Nat)
deriving DecidableEq, Repr

/-- A die (R17); `net` is the arbiter of its injection queue into the package network (R393). -/
structure Die where
  dw       : Memory
  dwpsn    : List Nat
  caps     : List Cap
  fq       : List FRec
  heldq    : List FRec
  nestq    : List FRec
  tq       : List Task
  tseq     : Nat
  mbx      : AMap W64
  mbxst    : BitVec 16
  smpper   : W32
  smpdrop  : W32
  smpbase  : W64
  smpsize  : Nat
  smpptr   : Nat
  banks    : AMap Bank
  lifeh    : W32
  lifethr  : W32
  qw       : AMap W32
  net      : Arb
  hot      : Bool
  englog   : List EngLog
  engbase  : W64
  engsize  : W64
  engptr   : Nat
deriving DecidableEq, Repr

/-! ## Operations in flight -/

/-- One element access of a lane: tangent index (0 the primal), store, byte address, size in bytes, the value to write or
combine with its poison mark, and the virtual address for faults. -/
structure Acc where
  k     : Nat
  store : Store
  addr  : Nat
  z     : Nat
  val   : W64
  cmp   : W64
  psn   : Bool
deriving DecidableEq, Repr

/-- A vector or scalar source of a matrix word as it was read at issue (R193): the value, the tag it carries, its tangents, and
for an untagged source whether it is an inline integer (1), an inline FP constant of that number (2) or a b register (3). -/
structure MSrc where
  val  : W64
  tag  : Option Tag
  tan  : AMap W64
  kind : Nat
deriving DecidableEq, Repr

/-- What a matrix word computes in one lane: the matrix, the vector value (value, pair, tag, tangents), the pivots, whether the
lane is singular (R206). -/
structure MRes where
  mat  : Option MReg
  vec  : Option (W64 × Bool × Tag × AMap W64)
  piv  : Option W32
  sing : Bool
deriving DecidableEq, Repr

/-- A matrix word in the sequencer (R193 to R196): the word, its DX mode and tangents, its sources, the threshold, the matrix
received (R213), the results, whether it has started, the shape groups still to finish. -/
structure MatOp where
  i       : Instr
  mode    : DxMode
  ks      : List Nat
  src     : AMap (List MSrc)
  thr     : W64
  ring    : AMap MReg
  res     : AMap MRes
  started : Bool
  groups  : List W32
  ngrp    : Nat
deriving DecidableEq, Repr

/-- A hash table of HACC (R137): its store and address, its slots, the stride of its tangents. -/
structure HTable where
  store : Store
  base  : Nat
  n     : Nat
  str   : Nat
deriving DecidableEq, Repr

/-- What kind of asynchronous operation is in flight. A store holds the granules that its lanes cover whole with unpoisoned data (R154). -/
inductive PKind where
  | load (q : LQual) (old : AMap W64)
  | store (q : SQual) (cov : List (Store × Nat))
  | sfu
  | gath
  | gaths (dst : AMap (List Acc)) (obj : Option (Store × Nat))
  | scat
  | scata (tags : AMap Tag)
  | ldspl
  | hacc (tbl : HTable) (tags : AMap Tag) (mask : W32)
  | atom (op : AtomOp) (u ret : Bool)
  | cas (hit : Bool)
  | ldx
  | stx (mask : W32)
  | matrix (op : MatOp)
  | sysread (v : W64)
  | regread (lanes : AMap VReg) (mats : AMap MReg)
  | mbxr (j : BitVec 4) (w : BitVec 3)
  | bquery (sel : Nat) (obj : W64)
  | pref (pages : List W64)
deriving DecidableEq, Repr

/-- An operation in flight: the cohort and path that issued it, its destination, format and counter, the lanes still to be
performed with their accesses, the lanes done, whether lanes are still to be
issued (R60), the lanes whose request was lost on a link (R285), its order (R256) and its issue with the granules it touches (R345). -/
structure Pend where
  id    : Nat
  grid  : Nat
  blk   : Nat
  coh   : Nat
  isB   : Bool
  kind  : PKind
  dst   : Option Dst
  tag   : Tag
  slot  : Option (BitVec 3)
  exec  : W32
  lanes : AMap (List Acc)
  done  : W32
  more  : Bool
  lost  : W32
  acq   : Bool
  rel   : Bool
  scope : Scope
  clk0  : Nat
  pc    : W64
  widx  : Nat
  cls   : BitVec 4
  op    : BitVec 6
  smp   : Option (BitVec 16 × Bool)
  sect  : Nat
deriving DecidableEq, Repr

/-- One run of bytes of a copy (R99): the tangent box it belongs to is already added to its addresses. -/
structure Box where
  x   : Nat
  y   : Nat
  z   : Nat
  sr  : W64
  dr  : W64
  sp  : W64
  dp  : W64
deriving DecidableEq, Repr

/-- A scratchpad end of a copy (R98, R114): through the cluster window `win`, or at `base` of a store; and its offset. -/
structure SpEnd where
  win   : Option Nat
  store : Store
  base  : Nat
  off   : W64
deriving DecidableEq, Repr

/-- A copy or fill in flight (R99 to R124): its issuer, its pattern when it is a fill, whether it is BFILL.empty, whether its
destination is main memory, its scratchpad ends, its main-memory end, the tangent boxes with their strides, the box, the bytes
of all boxes and those done, its objects with the bytes each counts, its counter, its scope and traffic class (R103), its
suspension; the 4-byte elements of its destination of which it has landed a part (R287), and whether poisoned bytes lie among those it has
landed in its present granule (R97). -/
structure CopyT where
  id    : Nat
  blk   : Nat
  coh   : Nat
  grid  : Nat
  die   : Nat
  core  : Nat
  fill  : Option W32
  empty : Bool
  out   : Bool
  sps   : List SpEnd
  va    : W64
  spstr : Nat
  memst : W64
  tans  : List Nat
  box   : Box
  total : Nat
  done  : Nat
  objs  : List (Store × Nat)
  slot  : Option (BitVec 3)
  scope : Nat
  tc    : Nat
  susp  : Option Freeze
  hnd   : Bool
  hdr   : W64
  widx  : Nat
  pasid : BitVec 20
  bid   : W32 × W32 × W32
  part  : Nat
  isB   : Bool
  torn  : List (Store × Nat)
  dirty : Bool
deriving DecidableEq, Repr

/-! ## Translation (R93 to R95) -/

/-- A cached translation: unit, PASID, virtual page base, its size as a power of two, and the entry. -/
structure TlbEnt where
  unit  : Nat
  pasid : BitVec 20
  page  : W64
  lg    : Nat
  ent   : W64
deriving DecidableEq, Repr

/-! ## Host, debug, power (R339 to R401) -/

/-- A command of a queue that has started (R380 to R383). -/
structure Cmd where
  id    : Nat
  slot  : Nat
  op    : Nat
  flags : W64
  words : List W64
  began : Bool
  done  : Bool
  stat  : Nat
  since : Nat
deriving DecidableEq, Repr

/-- A host work queue (R376 to R383). -/
structure Queue where
  head   : Nat
  tail   : Nat
  state  : Nat
  err    : Nat
  bound  : Bool
  binding : W64
  entry  : Option (List W64)
  cmds   : List Cmd
deriving DecidableEq, Repr

/-- The host side of the package (R376 to R388): QTBASE, the invalidations under way in their order (BUSY while there are some), DBDROP,
the features offered, accepted, FEATST and the features committed, the queues, the cached first-level entries. -/
structure HostSt where
  qtbase   : W64
  qtinv    : List W64
  dbdrop   : W64
  featoff  : W64
  featacc  : BitVec 256
  featst   : W64
  featcom  : W64
  queues   : AMap Queue
  pasids   : AMap (W64 × W64)
deriving DecidableEq, Repr

/-- A state of a recorded block for reverse stepping (R348, R349): the image of the block with its allocation, whether it is a
checkpoint, the log entries before it. -/
structure Snap where
  blk  : Nat
  clk  : Nat
  ck   : Bool
  nlog : Nat
  img  : Block
deriving DecidableEq, Repr

/-- A join record as dumps show it (R235): its header, then one bit per thread for M and ARR, and the origins of a block-wide record
without KEEP. -/
structure RecDump where
  orpc : W64
  rp   : W64
  low  : W64
  m    : List Bool
  arr  : List Bool
  org  : List (BitVec 16)
deriving DecidableEq, Repr

/-- What a dump holds of one cohort (R343): the items of R321, the registers of each thread with their tangents beside them (R228), and its
pending writes. -/
structure Dump where
  blk   : Nat
  coh   : Nat
  cslot : Nat
  img   : Cohort
  b     : AMap W32
  recs  : List RecDump
  live  : List Nat
  arr   : List Nat
  ph    : Nat
  ncoh  : Nat
  mem   : Memory
  mfe   : List Nat
  pend  : List W64
deriving DecidableEq, Repr

/-- The debug broker's registers and Belfry's recordings (R346 to R350). -/
structure DbgSt where
  recarm    : W64
  recctl    : W64
  logbase   : W64
  logstride : W32
  logcount  : BitVec 16
  ckbase    : W64
  ckdepth   : Byte
  snaps     : List Snap
  live      : AMap Block
  status    : Nat
  dump      : List Dump
deriving DecidableEq, Repr

/-- Power, boot and firmware (R396 to R401); a fatal error that has been logged in a bank of a die and has not stopped the package yet
(R372), and whether the package is stopped by one. -/
structure PowSt where
  on      : Bool
  ps2     : Bool
  plim    : W32
  bootst  : Nat
  img     : Option (List Byte)
  ver     : W64
  imghash : List Byte
  idle    : Option Nat
  report  : List Byte
  raised  : Option (Nat × Nat)
  fatal   : Bool
deriving DecidableEq, Repr

/-- A request on the package network (R393, R394): the operation it belongs to, its traffic class (R125) and the crossbar port that it comes
from (R389), its dies, its injection CLK, its sequence number between them, and its flits, each with the router it stands at and whether it
has been injected. -/
structure NetReq where
  id    : Nat
  tc    : Nat
  port  : Nat
  src   : Nat
  dst   : Nat
  inj   : Nat
  seq   : Nat
  flits : List (Nat × Bool)
deriving DecidableEq, Repr

/-- The package network and the Spire links (R393 to R395): requests, sequence numbers handed out for each pair of dies, CRC
failures of the flit on each link, links that are down, the routing table by package, this package's number. -/
structure FabSt where
  reqs   : List NetReq
  seqOut : AMap Nat
  crcs   : AMap Nat
  down   : List Nat
  route  : AMap W32
  self   : Nat
deriving DecidableEq, Repr

/-- A physical error about to strike (log entry 9): the next word of a cohort meets a residue mismatch (passing or failing on
its retry, in a lane), a vector register, vector latch entry or matrix register of a lane has a parity error, a byte of a store a single error, a granule of a store is
unreadable, the host link aborts the accesses to a 64-byte granule of host memory, or a core fails its next self-test. -/
inductive ErrIn where
  | residue (blk coh lane : Nat) (again : Bool)
  | parity (blk coh lane : Nat) (r : Src)
  | ecc1 (s : Store) (addr : Nat)
  | ecc (s : Store) (gran : Nat)
  | abort (gran : Nat)
  | core (n : Nat)
deriving DecidableEq, Repr

/-- A cohort by block and index. -/
structure CohRef where
  blk : Nat
  coh : Nat
deriving DecidableEq, Repr

/-- The machine: the clock CLK counts (R306); the outside events to come, each after a count of steps; the cohort that issues, and the
partition (core × 4 + partition) that chose a clause last; the counter of free values (log entry 3) and of names; the errors that
strike next; main memory and its poisoned granules; grids, blocks (their cohorts and threads in them), operations in flight, copies;
cores and dies; the translation caches and the queue of misses; the package network; the host's side; debugging; power and boot. -/
structure State where
  clk     : Nat
  agenda  : List (Nat × Instr)
  cur     : Option CohRef
  turn    : Nat
  free    : Nat
  nid     : Nat
  errIn   : List ErrIn
  phys    : Memory
  physPsn : List Nat
  grids   : AMap Grid
  blocks  : AMap Block
  pend    : List Pend
  copies  : List CopyT
  cores   : AMap Core
  dies    : AMap Die
  tlb     : List TlbEnt
  missq   : AMap Nat
  fab     : FabSt
  host    : HostSt
  dbg     : DbgSt
  pow     : PowSt
deriving DecidableEq, Repr

/-! ## Registers nothing has written -/

/-- A vector register of a new thread (R73, R146). -/
def VReg.zero : VReg := ⟨0#32, .raw, false, [], []⟩
/-- A matrix register of a new thread: empty (R146, R189). -/
def MReg.empty : MReg := ⟨0, 0, .raw, false, false, 0, [], [], []⟩
/-- A partition at reset. -/
def Part.zero : Part := ⟨none, none, 0, 0, 0, false, 0#16⟩
/-- A core at reset (R108, R339). -/
def Core.zero : Core := ⟨[], [], [], [], [], [], [], [], [], false, false⟩
/-- A machine-check bank at reset (R370): MCCTL.EN is 1. -/
def Bank.zero : Bank := ⟨0#64, 0#64, 0#64, 1#64, 0#64⟩
/-- An arbiter at reset (R391). -/
def Arb.zero : Arb := ⟨[], none, none, [], []⟩
/-- A die at reset. -/
def Die.zero : Die where
  dw := []
  dwpsn := []
  caps := []
  fq := []
  heldq := []
  nestq := []
  tq := []
  tseq := 0
  mbx := []
  mbxst := 0#16
  smpper := 0#32
  smpdrop := 0#32
  smpbase := 0#64
  smpsize := 0
  smpptr := 0
  banks := []
  lifeh := 0#32
  lifethr := 0#32
  qw := []
  net := Arb.zero
  hot := false
  englog := []
  engbase := 0#64
  engsize := 0#64
  engptr := 0
/-- A queue at reset: disabled (R378). -/
def Queue.zero : Queue := ⟨0, 0, 0, 0, false, 0#64, none, []⟩

/-- Why a step stops. -/
inductive Fault where
  /-- Raised by the meaning of an instruction word when `State.cur` names no resident cohort with a path to issue it: no
  issuer exists, so the spec gives no effect. Safe: the machine stops where no hardware step exists. -/
  | noIssuer
deriving DecidableEq, Repr

/-- Why the model gives no meaning. -/
inductive Refusal where
  /-- Raised by an arm of `exec` whose instruction has no meaning yet. Safe: nothing is claimed of it. -/
  | notModelled (mnemonic : String)
deriving DecidableEq, Repr

/-- The package network at reset (R393; log entry 6). -/
def FabSt.reset : FabSt where
  reqs := []
  seqOut := []
  crcs := []
  down := []
  route := []
  self := 0

/-- The host side at reset (R376, R388; log entry 6). -/
def HostSt.reset : HostSt where
  qtbase := 0#64
  qtinv := []
  dbdrop := 0#64
  featoff := 0x3F#64
  featacc := 0#256
  featst := 0#64
  featcom := 0#64
  queues := []
  pasids := []

/-- The debug broker at reset (R346; log entry 6). -/
def DbgSt.reset : DbgSt where
  recarm := 0#64
  recctl := 0#64
  logbase := 0#64
  logstride := 0#32
  logcount := 0#16
  ckbase := 0#64
  ckdepth := 0#8
  snaps := []
  live := []
  status := 0
  dump := []

/-- Power and boot at reset (R396, R399): the package runs its boot ROM. -/
def PowSt.reset : PowSt where
  on := true
  ps2 := false
  plim := 2800#32
  bootst := 1
  img := none
  ver := 0#64
  imghash := []
  idle := none
  report := []
  raised := none
  fatal := false

/-- The machine right after reset (R396 for the boot ROM; log entries 5 to 8 for what the spec leaves open). -/
def State.reset : State where
  clk := 0
  agenda := []
  cur := none
  turn := 0
  free := 0
  nid := 1
  errIn := []
  phys := []
  physPsn := []
  grids := []
  blocks := []
  pend := []
  copies := []
  cores := []
  dies := []
  tlb := []
  missq := []
  fab := FabSt.reset
  host := HostSt.reset
  dbg := DbgSt.reset
  pow := PowSt.reset

end Sys2Proof.Machine
end

