-- ==== Sys2Proof/Machine/Bits.lean ====
section
/-! DEFINITION. Bit masks, byte order, sparse maps and the plain integer helpers that the meanings share. -/

namespace Sys2Proof.Machine

/-- The index of the highest set bit plus one; 0 for 0. -/
def bitLen (n : Nat) : Nat := if n = 0 then 0 else Nat.log2 n + 1

/-- The lanes 0 to 31. -/
def lanes32 : List Nat :=
  [0, 1, 2, 3, 4, 5, 6, 7, 8, 9, 10, 11, 12, 13, 14, 15, 16, 17, 18, 19, 20, 21, 22, 23, 24, 25, 26, 27, 28, 29, 30, 31]

/-- The lanes of a mask, ascending. -/
def lanesOf (m : W32) : List Nat := lanes32.filter (fun l => m.getLsbD l)

/-- The mask of a list of lanes. -/
def maskOf (ls : List Nat) : W32 := ls.foldl (fun m l => m ||| (1#32 <<< l)) 0#32

/-- The number of set bits of a word. -/
def popcount {w : Nat} (x : BitVec w) : Nat := (List.range w).foldl (fun n i => if x.getLsbD i then n + 1 else n) 0

/-- The index of the lowest set bit, `w` for 0. -/
def lowBit {w : Nat} (x : BitVec w) : Nat := ((List.range w).find? (fun i => x.getLsbD i)).getD w

/-- The index of the highest set bit, `w` for 0. -/
def highBit {w : Nat} (x : BitVec w) : Nat := if x.toNat = 0 then w else Nat.log2 x.toNat

/-- The bits in reverse order (R168). -/
def bitRev {w : Nat} (x : BitVec w) : BitVec w :=
  (List.range w).foldl (fun r i => if x.getLsbD i then r ||| (1#w <<< (w - 1 - i)) else r) 0#w

/-- The lowest `n` bits set. -/
def lowMask (n : Nat) : Nat := 2 ^ n - 1

/-- The two's-complement value of an element of width `w` read as signed or unsigned. -/
def elInt (w : Nat) (signed : Bool) (x : Nat) : Int :=
  let y := x % 2 ^ w
  if signed && decide (2 ^ (w - 1) ≤ y) then (y : Int) - (2 ^ w : Nat) else (y : Int)

/-- The low `w` bits of an integer. -/
def wrapInt (w : Nat) (x : Int) : Nat := (x % ((2 ^ w : Nat) : Int)).toNat

/-- The range of an element (R69). -/
def elMin (w : Nat) (signed : Bool) : Int := if signed then -((2 ^ (w - 1) : Nat) : Int) else 0
def elMax (w : Nat) (signed : Bool) : Int := if signed then ((2 ^ (w - 1) : Nat) : Int) - 1 else ((2 ^ w : Nat) : Int) - 1

/-- Clamped to the range of an element, as bits (R166). -/
def satInt (w : Nat) (signed : Bool) (x : Int) : Nat :=
  wrapInt w (if x < elMin w signed then elMin w signed else if elMax w signed < x then elMax w signed else x)

/-- The bits [o + n − 1 : o] of a number. -/
def bitsAt (x o n : Nat) : Nat := (x >>> o) % 2 ^ n

/-- The bits [o + n − 1 : o] replaced. -/
def putBits (x o n v : Nat) : Nat := (x - (bitsAt x o n) * 2 ^ o) + (v % 2 ^ n) * 2 ^ o

/-! ## Sparse maps -/

/-- The value at a key. -/
def AMap.find {α : Type} : AMap α → Nat → Option α
  | [], _ => none
  | (k, v) :: r, i => if k = i then some v else AMap.find r i

/-- The value at a key, or the value nothing has written yet. -/
def AMap.get {α : Type} (m : AMap α) (i : Nat) (d : α) : α := (m.find i).getD d

/-- The value at a key replaced or inserted, in ascending order of the key. -/
def AMap.set {α : Type} : AMap α → Nat → α → AMap α
  | [], i, v => [(i, v)]
  | (k, w) :: r, i, v =>
    if k = i then (i, v) :: r else if i < k then (i, v) :: (k, w) :: r else (k, w) :: AMap.set r i v

/-- The key removed. -/
def AMap.del {α : Type} (m : AMap α) (i : Nat) : AMap α := m.filter (fun p => p.1 != i)

/-- The value at a key changed, when there is one. -/
def AMap.upd {α : Type} (m : AMap α) (i : Nat) (f : α → α) : AMap α :=
  m.map (fun p => if p.1 = i then (p.1, f p.2) else p)

/-- The keys, ascending. -/
def AMap.keys {α : Type} (m : AMap α) : List Nat := m.map (·.1)

/-- A number added to an ascending list without repeats. -/
def setIns : List Nat → Nat → List Nat
  | [], i => [i]
  | k :: r, i => if k = i then k :: r else if i < k then i :: k :: r else k :: setIns r i

/-- A number removed. -/
def setDel (l : List Nat) (i : Nat) : List Nat := l.filter (· != i)

/-- The granules of `g` bytes that a range touches. -/
def granules (g a n : Nat) : List Nat :=
  if n = 0 then [] else (List.range ((a + n - 1) / g - a / g + 1)).map (· + a / g)

/-! ## Bytes (little-endian, R4) -/

/-- The first `n` bytes of a number, the lowest first. -/
def leBytes (n v : Nat) : List Byte := (List.range n).map (fun i => BitVec.ofNat 8 (v >>> (8 * i)))

/-- The number of bytes given lowest first. -/
def leNat (bs : List Byte) : Nat := bs.foldr (fun b n => b.toNat + 256 * n) 0

/-! ## Memory in canonical form (log entry 5) -/

/-- What an unlisted address reads as. -/
def memDefault : Byte := 0#8

/-- One byte. -/
def Memory.read (m : Memory) (a : Nat) : Byte := ((m.find? (fun c => c.1 == a)).map (·.2)).getD memDefault

/-- A cell put in its place among ascending addresses, in the stead of any other at its address; a cell that reads as the default is not
listed. -/
def Memory.ins : Memory → Nat → Byte → Memory
  | [], a, b => if b = memDefault then [] else [(a, b)]
  | c :: r, a, b =>
    if c.1 < a then c :: Memory.ins r a b
    else (if b = memDefault then [] else [(a, b)]) ++ (c :: r).filter (fun d => d.1 != a)

/-- One byte written. -/
def Memory.write (m : Memory) (a : Nat) (b : Byte) : Memory := Memory.ins m a b

/-- `n` bytes from an address, lowest first. -/
def Memory.readN (m : Memory) (a n : Nat) : List Byte := (List.range n).map (fun i => m.read (a + i))

/-- A number of `n` bytes. -/
def Memory.readNat (m : Memory) (a n : Nat) : Nat := leNat (m.readN a n)

/-- Bytes written from an address on. -/
def Memory.writeN (m : Memory) (a : Nat) : List Byte → Memory
  | [] => m
  | b :: r => Memory.writeN (m.write a b) (a + 1) r

/-- The canonical form: addresses strictly rising, no cell that an unlisted address reads as. -/
abbrev Memory.wf (m : Memory) : Prop :=
  List.Pairwise (fun c d : Host.Cell => c.1 < d.1) m ∧ ∀ c ∈ m, c.2 ≠ memDefault

end Sys2Proof.Machine
end

