-- ==== Sys2Proof/Machine/Map.lean ====
section
/-! DEFINITION. The physical map of the package (R83 to R85): which addresses exist, where they are served, and the one location behind
an own-package pod address. -/

namespace Sys2Proof.Machine

/-! ## The physical map (R83, R85) -/

/-- A feature of R386 has been committed. -/
def State.feature (s : State) (n : Nat) : Bool := s.host.featcom.getLsbD n

/-- An address of an attached CXL expander, with feature 5 (R83, R386): how many bytes are attached is free (log entry 54). -/
def State.cxlRange (s : State) (a : Nat) : Bool :=
  s.feature 5 && decide (0x40000000000 ≤ a) && decide (a < 0x80000000000) && decide (a < 0x40000000000 + Config.cxlBytes)

/-- A local address of HBM4E or, with feature 0, the second tier (R83, R386). -/
def State.localRange (s : State) (a : Nat) : Bool :=
  decide (a < 0xA000000000) || (s.feature 0 && decide (0x10000000000 ≤ a) && decide (a < 0x2DCD6500000))

/-- A host-memory address. -/
def isHostAddr (a : Nat) : Bool := decide (0x80000000000 ≤ a) && decide (a < 0x100000000000)

/-- A link of the routing entry of another package is up (R395). -/
def State.routeUp (s : State) (pk : Nat) : Bool :=
  (List.range 18).any (fun l => (s.fab.route.get pk 0#32).getLsbD l && !s.fab.down.contains l)

/-- Where a physical address is served: none is a hole. An expander's address is its own. A pod address of this package names the local location; one of another
package keeps its pod address as its location (R85). Pod addresses need feature 1 (R386). -/
def State.physAddr (s : State) (a : Nat) : Option Nat :=
  if s.localRange a then some a
  else if isHostAddr a || s.cxlRange a then some a
  else if s.feature 1 ∧ 0x8000000000000 ≤ a ∧ a < 0x10000000000000 then
    let pk := bitsAt a 42 9
    let lo := a % 2 ^ 42
    if !s.localRange lo then none
    else if pk = s.fab.self then some lo
    else if s.routeUp pk then some a
    else none
  else none

/-- The die and stack that hold a physical address, with its channel, when it lies in HBM4E (R84). -/
def hbmPlace (a : Nat) : Option (Nat × Nat × Nat) :=
  if a < 0xA000000000 then
    let st := a / 0x1400000000
    some (st / 2, st, (a % 0x1400000000) / 65536 % 32)
  else none

/-- The address is served in host memory or in another package: a Turret word waits for the reply (R128). -/
def farAddr (a : Nat) : Bool := isHostAddr a || decide (0x8000000000000 ≤ a)

/-- The location of a physical address that the host has given in a register, a record or a command: the local address where it is
the package's own pod address (R85). -/
def State.physLoc (s : State) (a : Nat) : Nat := (s.physAddr a).getD a

end Sys2Proof.Machine
end

