-- ==== Sys2Proof/Machine/Num.lean ====
section
/-! DEFINITION. Numbers (R65 to R81): the value of an element, exact arithmetic on values, rounding once (R76), and the
conversions to every format (R67, R68, R77, R78). -/

namespace Sys2Proof

open Sys2Proof.Machine

/-- A value: NaN, an infinity, or (−1)^s · m · 2^e. A zero keeps its sign. -/
inductive FVal where
  | nan
  | inf (s : Bool)
  | fin (s : Bool) (m : Nat) (e : Int)
deriving DecidableEq, Repr

/-- The three conditions of R78, as bits: 0 invalid, 1 division by zero, 2 overflow. -/
abbrev Cnd := BitVec 3
def cInv : Cnd := 1#3
def cDz : Cnd := 2#3
def cOv : Cnd := 4#3

/-- A value with the conditions met on the way to it. -/
structure FRes where
  v : FVal
  c : Cnd
deriving DecidableEq, Repr

/-- An element with the conditions met in writing it. -/
structure BRes where
  bits : Nat
  c    : Cnd
deriving DecidableEq, Repr

/-- An IEEE-like layout: exponent bits, fraction bits, bias (R65, R67). -/
structure Lay where
  eb   : Nat
  mb   : Nat
  bias : Int
deriving DecidableEq, Repr

def lay64 : Lay := ⟨11, 52, 1023⟩
def lay32 : Lay := ⟨8, 23, 127⟩
def lay16 : Lay := ⟨5, 10, 15⟩
def layB16 : Lay := ⟨8, 7, 127⟩
def layE4 : Lay := ⟨4, 3, 7⟩
def layE5 : Lay := ⟨5, 2, 15⟩
def layF4 : Lay := ⟨2, 1, 1⟩

/-- The layout of a floating-point tag; PT8 and the integers have none. -/
def Tag.lay : Tag → Option Lay
  | .f32 => some lay32
  | .f64 => some lay64
  | .h16 => some lay16
  | .b16 => some layB16
  | .e4m3 => some layE4
  | .e5m2 => some layE5
  | .f4 => some layF4
  | _ => none

/-- The width of one element in bits (R69). -/
def Tag.width : Tag → Nat
  | .raw | .i32 | .n32 | .f32 => 32
  | .f64 => 64
  | .h16 | .b16 => 16
  | .e4m3 | .e5m2 | .pt8 | .i8 => 8
  | .f4 | .i4 => 4

/-- The elements of a register (R69, R177). -/
def Tag.count : Tag → Nat
  | .raw | .i32 | .n32 | .f32 | .f64 => 1
  | .h16 | .b16 => 2
  | .e4m3 | .e5m2 | .pt8 | .i8 => 4
  | .f4 | .i4 => 8

/-- The tags of the floating-point formats that have tangents (R214, R223). -/
def Tag.isFp : Tag → Bool
  | .f32 | .f64 | .h16 | .b16 => true
  | _ => false

/-- The blocked tags (R190). -/
def Tag.blocked : Tag → Bool
  | .e4m3 | .e5m2 | .f4 | .pt8 | .i4 => true
  | _ => false

/-- The integer tags. -/
def Tag.isInt : Tag → Bool
  | .i32 | .n32 | .i8 | .i4 => true
  | _ => false

/-- A finite value of a layout. -/
def Lay.finVal (l : Lay) (x : Nat) : FVal :=
  let s := bitsAt x (l.eb + l.mb) 1 == 1
  let e := bitsAt x l.mb l.eb
  let f := bitsAt x 0 l.mb
  if e = 0 then .fin s f (1 - l.bias - l.mb) else .fin s (f + 2 ^ l.mb) ((e : Int) - l.bias - l.mb)

/-- The value of an IEEE element (R65). -/
def Lay.ieee (l : Lay) (x : Nat) : FVal :=
  if bitsAt x l.mb l.eb = 2 ^ l.eb - 1 then
    (if bitsAt x 0 l.mb = 0 then .inf (bitsAt x (l.eb + l.mb) 1 == 1) else .nan)
  else l.finVal x

/-- T(c) of R68, in units of 2^−6. -/
def ptTerm (c : Nat) : Int := if c = 7 then 0 else ((2 ^ (6 - c) : Nat) : Int)

/-- The value of a PT8 byte, in units of 2^−6 (R68). -/
def ptVal (x : Nat) : Int :=
  (if bitsAt x 7 1 = 1 then - ptTerm (bitsAt x 4 3) else ptTerm (bitsAt x 4 3))
  + (if bitsAt x 3 1 = 1 then - ptTerm (bitsAt x 0 3) else ptTerm (bitsAt x 0 3))

/-- An integer as a value. -/
def FVal.ofInt (i : Int) (e : Int) : FVal := .fin (decide (i < 0)) i.natAbs e

/-- The value of an element (R65 to R69); `u` reads an 8-bit or 4-bit integer as unsigned. -/
def Tag.value (t : Tag) (u : Bool) (x : Nat) : FVal :=
  match t with
  | .f32 => lay32.ieee x
  | .f64 => lay64.ieee x
  | .h16 => lay16.ieee x
  | .b16 => layB16.ieee x
  | .e4m3 => if bitsAt x 0 7 = 0x7F then .nan else layE4.finVal x
  | .e5m2 => layE5.ieee x
  | .f4 => layF4.finVal x
  | .pt8 => FVal.ofInt (ptVal (x % 256)) (-6)
  | .raw | .n32 => .fin false (x % 2 ^ 32) 0
  | .i32 => FVal.ofInt (elInt 32 true x) 0
  | .i8 => FVal.ofInt (elInt 8 (!u) x) 0
  | .i4 => FVal.ofInt (elInt 4 (!u) x) 0

/-! ## Rounding -/

/-- m · 2^e rounded to a multiple of 2^q in a mode, for a number of sign `s` (R76). -/
def roundAt (r : Rnd) (s : Bool) (m : Nat) (e q : Int) : Nat :=
  if q ≤ e then m <<< (e - q).toNat
  else
    let sh := (q - e).toNat
    let hi := m >>> sh
    let rem := m % 2 ^ sh
    let half := 2 ^ (sh - 1)
    let up := match r with
      | .rne => decide (half < rem) || (rem == half && hi % 2 == 1)
      | .rtz => false
      | .rup => !s && rem != 0
      | .rdn => s && rem != 0
    if up then hi + 1 else hi

/-- Rounded to `p` significant bits with no unit below 2^emin: the significand, below 2^p, and its unit. -/
def roundP (r : Rnd) (p : Nat) (emin : Int) (s : Bool) (m : Nat) (e : Int) : Nat × Int :=
  if m = 0 then (0, emin)
  else
    let q0 := e + (bitLen m : Int) - (p : Int)
    let q := if q0 < emin then emin else q0
    let x := roundAt r s m e q
    if 2 ^ p ≤ x then (x / 2, q + 1) else (x, q)

/-- The unit of the subnormals of a layout. -/
def Lay.emin (l : Lay) : Int := 1 - l.bias - l.mb

/-- The bits of a rounded significand and its unit. -/
def Lay.bits (l : Lay) (s : Bool) (m : Nat) (q : Int) : Nat :=
  (if s then 2 ^ (l.eb + l.mb) else 0)
  + (if m < 2 ^ l.mb then m else ((q + l.mb + l.bias).toNat) * 2 ^ l.mb + (m - 2 ^ l.mb))

/-- The largest finite code of a format, without its sign (R65, R67). -/
def Tag.maxCode (t : Tag) : Nat :=
  match t with
  | .e4m3 => 0x7E
  | .f4 => 7
  | t => match t.lay with
    | some l => (2 ^ l.eb - 1) * 2 ^ l.mb - 1
    | none => 0

/-- The sign bit of a format. -/
def Tag.signBit (t : Tag) (s : Bool) : Nat := if s then 2 ^ (t.width - 1) else 0

/-- The canonical NaN (R65, R67); 0x08 for PT8 and +0 for FP4, which have none (R77). -/
def Tag.nanCode : Tag → Nat
  | .f64 => 0x7FF8000000000000
  | .f32 => 0x7FC00000
  | .h16 => 0x7E00
  | .b16 => 0x7FC0
  | .e4m3 => 0x7F
  | .e5m2 => 0x7E
  | .pt8 => 0x08
  | _ => 0

/-- The infinity of a format that has one. -/
def Tag.infCode (t : Tag) : Nat :=
  match t.lay with
  | some l => (2 ^ l.eb - 1) * 2 ^ l.mb
  | none => 0

/-- Overflow of a finite value: an infinity or the largest finite value, as the mode gives (R76); .sat and the formats without
infinities as R77 gives. -/
def Tag.overflow (t : Tag) (r : Rnd) (sat : Bool) (s : Bool) : Nat :=
  match t with
  | .e4m3 => if sat then t.maxCode + t.signBit s else 0x7F
  | .f4 => t.maxCode + t.signBit s
  | t =>
    if sat then t.maxCode + t.signBit s
    else
      let toInf := match r with
        | .rne => true
        | .rtz => false
        | .rup => !s
        | .rdn => s
      (if toInf then t.infCode else t.maxCode) + t.signBit s

/-- The PT8 encodings in ascending order of the byte with their values in units of 2^−6 (R68). -/
def ptTable : List (Nat × Int) := (List.range 256).map (fun x => (x, ptVal x))

/-- The lowest byte of each PT8 value wins ties; `d` measures a candidate, smaller is better, none excludes it. -/
def ptBest (d : Int → Option Nat) : Nat :=
  (ptTable.foldl (fun (best : Option (Nat × Nat)) x =>
    match d x.2 with
    | none => best
    | some k => match best with
      | none => some (x.1, k)
      | some (b, kb) => if k < kb then some (x.1, k) else some (b, kb)) none).elim 0x08 (·.1)

/-- Conversion of a finite value into PT8 (R68), with the value scaled to units of 2^e ≤ 2^−6. -/
def ptRound (r : Rnd) (s : Bool) (m : Nat) (e : Int) : BRes :=
  let e' : Int := if e < -6 then e else -6
  let u : Nat := 2 ^ (-6 - e').toNat
  let x : Int := (if s then -(m : Int) else (m : Int)) * ((2 ^ (e - e').toNat : Nat) : Int)
  let lim : Int := 128 * (u : Int)
  if lim < x then ⟨0x00, cOv⟩
  else if x < -lim then ⟨0x88, cOv⟩
  else
    ⟨ptBest (fun v =>
      let y := v * (u : Int)
      let diff := (y - x).natAbs
      match r with
      | .rne => some diff
      | .rtz => if y.natAbs ≤ x.natAbs ∧ (0 ≤ y * x) then some diff else none
      | .rup => if x ≤ y then some diff else none
      | .rdn => if y ≤ x then some diff else none), 0#3⟩

/-- A value written as an integer of width `w` (R77, R78). -/
def toIntEl (w : Nat) (signed : Bool) (r : Rnd) (v : FVal) : BRes :=
  match v with
  | .nan => ⟨0, cInv⟩
  | .inf s => ⟨wrapInt w (if s then elMin w signed else elMax w signed), cInv⟩
  | .fin s m e =>
    let x := roundAt r s m e 0
    let i : Int := if s then -(x : Int) else x
    if i < elMin w signed then ⟨wrapInt w (elMin w signed), cOv⟩
    else if elMax w signed < i then ⟨wrapInt w (elMax w signed), cOv⟩
    else ⟨wrapInt w i, 0#3⟩

/-- A value written as one element of a format, rounded once (R76, R77, R78). -/
def Tag.pack (t : Tag) (r : Rnd) (sat u : Bool) (v : FVal) : BRes :=
  match t with
  | .raw | .n32 => toIntEl 32 false r v
  | .i32 => toIntEl 32 true r v
  | .i8 => toIntEl 8 (!u) r v
  | .i4 => toIntEl 4 (!u) r v
  | .pt8 =>
    match v with
    | .nan => ⟨0x08, cInv⟩
    | .inf s => ⟨if s then 0x88 else 0x00, 0#3⟩
    | .fin s m e => ptRound r s m e
  | t =>
    match v with
    | .nan => ⟨t.nanCode, if t = .f4 then cInv else 0#3⟩
    | .inf s =>
      if sat || t == .f4 then ⟨t.maxCode + t.signBit s, 0#3⟩
      else if t = .e4m3 then ⟨0x7F, cInv⟩
      else ⟨t.infCode + t.signBit s, 0#3⟩
    | .fin s m e =>
      match t.lay with
      | none => ⟨0, 0#3⟩
      | some l =>
        let (x, q) := roundP r (l.mb + 1) l.emin s m e
        let code := l.bits s x q
        if x ≠ 0 ∧ t.maxCode < l.bits false x q then ⟨t.overflow r sat s, cOv⟩ else ⟨code, 0#3⟩

/-! ## Exact arithmetic -/

def FVal.neg : FVal → FVal
  | .nan => .nan
  | .inf s => .inf (!s)
  | .fin s m e => .fin (!s) m e

def FVal.abs : FVal → FVal
  | .nan => .nan
  | .inf _ => .inf false
  | .fin _ m e => .fin false m e

def FVal.isNan : FVal → Bool
  | .nan => true
  | _ => false

def FVal.isInf : FVal → Bool
  | .inf _ => true
  | _ => false

def FVal.isZero : FVal → Bool
  | .fin _ m _ => m == 0
  | _ => false

def FVal.sign : FVal → Bool
  | .nan => false
  | .inf s => s
  | .fin s _ _ => s

/-- The integer of a finite value in units of 2^e, for e not above its own. -/
def finInt (s : Bool) (m : Nat) (d : Nat) : Int := if s then -((m <<< d : Nat) : Int) else ((m <<< d : Nat) : Int)

/-- The exact sum of two finite values; an exact zero of opposite signs is +0, or −0 in RDN (R66). -/
def addFin (r : Rnd) (s1 : Bool) (m1 : Nat) (e1 : Int) (s2 : Bool) (m2 : Nat) (e2 : Int) : FVal :=
  if m1 = 0 ∧ m2 = 0 then .fin (if s1 = s2 then s1 else r == .rdn) 0 0
  else if m1 = 0 then .fin s2 m2 e2
  else if m2 = 0 then .fin s1 m1 e1
  else
    let e := if e1 < e2 then e1 else e2
    let x := finInt s1 m1 (e1 - e).toNat + finInt s2 m2 (e2 - e).toNat
    if x = 0 then .fin (r == .rdn) 0 0 else .fin (decide (x < 0)) x.natAbs e

/-- a + b (R171). -/
def fAdd (r : Rnd) (a b : FVal) : FRes :=
  match a, b with
  | .nan, _ => ⟨.nan, 0#3⟩
  | _, .nan => ⟨.nan, 0#3⟩
  | .inf s, .inf s' => if s = s' then ⟨.inf s, 0#3⟩ else ⟨.nan, cInv⟩
  | .inf s, _ => ⟨.inf s, 0#3⟩
  | _, .inf s => ⟨.inf s, 0#3⟩
  | .fin s1 m1 e1, .fin s2 m2 e2 => ⟨addFin r s1 m1 e1 s2 m2 e2, 0#3⟩

/-- a × b (R171). -/
def fMul (a b : FVal) : FRes :=
  match a, b with
  | .nan, _ => ⟨.nan, 0#3⟩
  | _, .nan => ⟨.nan, 0#3⟩
  | .inf s, .inf s' => ⟨.inf (s != s'), 0#3⟩
  | .inf s, .fin s' m _ => if m = 0 then ⟨.nan, cInv⟩ else ⟨.inf (s != s'), 0#3⟩
  | .fin s m _, .inf s' => if m = 0 then ⟨.nan, cInv⟩ else ⟨.inf (s != s'), 0#3⟩
  | .fin s1 m1 e1, .fin s2 m2 e2 => ⟨.fin (s1 != s2) (m1 * m2) (e1 + e2), 0#3⟩

/-- a × b + c before rounding; 0 × ∞ is invalid even when c is NaN (R171). -/
def fFma (r : Rnd) (a b c : FVal) : FRes :=
  let p := fMul a b
  if p.c ≠ 0#3 then p else fAdd r p.v c

/-- The integer square root, by binary digits from the top. -/
def isqrt (n : Nat) : Nat :=
  let k := (bitLen n + 1) / 2
  (List.range k).foldl (fun x i =>
    let y := x + 2 ^ (k - 1 - i)
    if y * y ≤ n then y else x) 0

/-- a ÷ b with a sticky bit below at least 128 significant bits (R81, R171). -/
def fDiv (a b : FVal) : FRes :=
  match a, b with
  | .nan, _ => ⟨.nan, 0#3⟩
  | _, .nan => ⟨.nan, 0#3⟩
  | .inf _, .inf _ => ⟨.nan, cInv⟩
  | .inf s, .fin s' _ _ => ⟨.inf (s != s'), 0#3⟩
  | .fin s _ _, .inf s' => ⟨.fin (s != s') 0 0, 0#3⟩
  | .fin s1 m1 e1, .fin s2 m2 e2 =>
    if m2 = 0 then (if m1 = 0 then ⟨.nan, cInv⟩ else ⟨.inf (s1 != s2), cDz⟩)
    else if m1 = 0 then ⟨.fin (s1 != s2) 0 0, 0#3⟩
    else
      let k := 128 + bitLen m2
      let n := m1 <<< k
      let q := n / m2
      ⟨.fin (s1 != s2) (2 * q + (if n % m2 = 0 then 0 else 1)) (e1 - e2 - k - 1), 0#3⟩

/-- √a with a sticky bit (R81, R171). -/
def fSqrt (a : FVal) : FRes :=
  match a with
  | .nan => ⟨.nan, 0#3⟩
  | .inf s => if s then ⟨.nan, cInv⟩ else ⟨.inf false, 0#3⟩
  | .fin s m e =>
    if m = 0 then ⟨.fin s 0 0, 0#3⟩
    else if s then ⟨.nan, cInv⟩
    else
      let odd := e % 2 = 1
      let m' := if odd then 2 * m else m
      let e' := if odd then e - 1 else e
      let n := m' <<< 160
      let q := isqrt n
      ⟨.fin false (2 * q + (if q * q = n then 0 else 1)) (e' / 2 - 80 - 1), 0#3⟩

/-- The order of two values that are no NaN: −1, 0 or 1; the zeros are equal. -/
def fCmp (a b : FVal) : Int :=
  match a, b with
  | .nan, _ => 0
  | _, .nan => 0
  | .inf s, .inf s' => if s = s' then 0 else if s then -1 else 1
  | .inf s, _ => if s then -1 else 1
  | _, .inf s => if s then 1 else -1
  | .fin s1 m1 e1, .fin s2 m2 e2 =>
    let e := if e1 < e2 then e1 else e2
    let d := finInt s1 m1 (e1 - e).toNat - finInt s2 m2 (e2 - e).toNat
    if d < 0 then -1 else if d = 0 then 0 else 1

/-- The lesser or greater of two values with −0 below +0; true selects the first operand (R172). -/
def fSelA (isMax : Bool) (a b : FVal) : Bool :=
  match a.isNan, b.isNan with
  | true, false => false
  | false, true => true
  | _, _ =>
    let c := fCmp a b
    if c = 0 then
      (if a.isZero && a.sign != b.sign then (if isMax then !a.sign else a.sign) else true)
    else if isMax then decide (c > 0) else decide (c < 0)

/-! ## Operations on the bits of one element of a float format -/

/-- A value rounded into a format, its own conditions and those of the operation together. -/
def FRes.pack (x : FRes) (t : Tag) (r : Rnd) : BRes :=
  let p := t.pack r false false x.v
  ⟨p.bits, x.c ||| p.c⟩

def opAdd (t : Tag) (r : Rnd) (a b : Nat) : BRes := (fAdd r (t.value false a) (t.value false b)).pack t r
def opSub (t : Tag) (r : Rnd) (a b : Nat) : BRes := (fAdd r (t.value false a) (t.value false b).neg).pack t r
def opMul (t : Tag) (r : Rnd) (a b : Nat) : BRes := (fMul (t.value false a) (t.value false b)).pack t r
def opFma (t : Tag) (r : Rnd) (a b c : Nat) : BRes :=
  (fFma r (t.value false a) (t.value false b) (t.value false c)).pack t r
def opDiv (t : Tag) (r : Rnd) (a b : Nat) : BRes := (fDiv (t.value false a) (t.value false b)).pack t r
def opSqrt (t : Tag) (r : Rnd) (a : Nat) : BRes := (fSqrt (t.value false a)).pack t r
/-- The sign bit flipped: −a. -/
def negBits (t : Tag) (a : Nat) : Nat := if a / 2 ^ (t.width - 1) % 2 = 1 then a - 2 ^ (t.width - 1) else a + 2 ^ (t.width - 1)
/-- −a for an operand of an fma; the NaN stays a NaN. -/
def opFnma (t : Tag) (r : Rnd) (a b c : Nat) : BRes :=
  (fFma r (t.value false a).neg (t.value false b) (t.value false c)).pack t r

/-- 1.0 in a float format. -/
def Tag.one (t : Tag) : Nat := (t.pack .rne false false (.fin false 1 0)).bits

/-- a × 2^n, rounded once (R174). -/
def opScale (t : Tag) (r : Rnd) (a : Nat) (n : Int) : BRes :=
  match t.value false a with
  | .fin s m e => (⟨.fin s m (e + n), 0#3⟩ : FRes).pack t r
  | v => (⟨v, 0#3⟩ : FRes).pack t r

/-- a rounded to an integral value, in its own format (R174). -/
def opRnd (t : Tag) (r : Rnd) (a : Nat) : Nat :=
  match t.value false a with
  | .fin s m e => if m = 0 ∨ 0 ≤ e then a else (t.pack r false false (.fin s (roundAt r s m e 0) 0)).bits
  | .nan => t.nanCode
  | .inf _ => a

/-- The class bits of an element (R174). -/
def opClass (t : Tag) (a : Nat) : Nat :=
  match t.value false a with
  | .nan => 2 ^ 8
  | .inf s => if s then 1 else 2 ^ 7
  | .fin s m _ =>
    if m = 0 then (if s then 2 ^ 3 else 2 ^ 4)
    else
      let sub := match t.lay with
        | some l => decide (bitsAt a l.mb l.eb = 0)
        | none => false
      if sub then (if s then 2 ^ 2 else 2 ^ 5) else (if s then 2 else 2 ^ 6)

/-- The exact sum of products (R82, R175). The conditions do not depend on the order: 0 × ∞ is invalid; a NaN among the products makes
the sum NaN and meets nothing more; without one, infinite products of opposite signs are invalid (log entry 78). The sum starts at its first
product, so that a sum of zeros carries its IEEE sign in every mode (R66). -/
def fDot (r : Rnd) (ps : List (FVal × FVal)) : FRes :=
  let ms := ps.map (fun p => fMul p.1 p.2)
  let c := ms.foldl (fun c m => c ||| m.c) 0#3
  if ms.any (fun m => m.v.isNan) then ⟨.nan, c⟩
  else if ms.any (fun m => m.v.isInf && m.v.sign) && ms.any (fun m => m.v.isInf && !m.v.sign) then ⟨.nan, c ||| cInv⟩
  else match ms with
    | [] => ⟨.fin true 0 0, c⟩
    | m :: rest => ⟨rest.foldl (fun v q => (fAdd r v q.v).v) m.v, c⟩

/-! ## Stochastic rounding (R79, R80) -/

/-- One step of SEED (R79). -/
def seedStep (x0 : W32) : W32 :=
  let x := if x0 = 0#32 then 0x9E3779B9#32 else x0
  let x := x ^^^ (x <<< 13)
  let x := x ^^^ (x >>> 17)
  x ^^^ (x <<< 5)

/-- The formation of SEED (R79). -/
def seedForm (b : W32) (g : Nat) : W32 :=
  let x := b ^^^ BitVec.ofNat 32 ((g + 1) * 0x9E3779B9)
  if x = 0#32 then 0x9E3779B9#32 else x

/-- The PT8 neighbours of a magnitude in units of 2^−6·u: the largest value not above it and the least not below it. -/
def ptBelow (x : Int) (u : Nat) : Int := ptTable.foldl (fun b p => if p.2 * u ≤ x ∧ b < p.2 ∧ 0 ≤ p.2 then p.2 else b) 0
def ptAbove (x : Int) (u : Nat) : Int := ptTable.foldl (fun b p => if x ≤ p.2 * u ∧ p.2 < b then p.2 else b) 128

/-- One element converted with stochastic rounding from the state `q` (R80). -/
def Tag.packStoch (t : Tag) (sat : Bool) (q : W32) (v : FVal) : BRes :=
  match v with
  | .fin s m e =>
    if t = .pt8 then
      let e' : Int := if e < -6 then e else -6
      let u : Nat := 2 ^ (-6 - e').toNat
      let x : Int := ((m <<< (e - e').toNat : Nat) : Int)
      if 128 * (u : Int) < x then ⟨if s then 0x88 else 0x00, cOv⟩
      else
        let lo := ptBelow x u
        let hi := ptAbove x u
        let f := if hi = lo then 0 else ((x - lo * u).toNat * 2 ^ 32) / ((hi - lo).toNat * u)
        let y := if q.toNat < f then hi else lo
        ptRound .rne s y.toNat (-6)
    else match t.lay with
      | none => t.pack .rne sat false v
      | some l =>
        if m = 0 then t.pack .rne sat false v
        else
          let q0 := e + (bitLen m : Int) - ((l.mb + 1 : Nat) : Int)
          let un := if q0 < l.emin then l.emin else q0
          let lo := roundAt .rtz s m e un
          let f := if un ≤ e then 0 else ((m - lo * 2 ^ (un - e).toNat) <<< 32) / 2 ^ (un - e).toNat
          let y := if q.toNat < f then lo + 1 else lo
          t.pack .rne sat false (.fin s y un)
  | v => t.pack .rne sat false v

/-- The elements of a register (R69). -/
def Tag.elems (t : Tag) (x : Nat) : List Nat := (List.range t.count).map (fun i => bitsAt x (i * t.width) t.width)

/-- A register of elements. -/
def Tag.joinEls (t : Tag) (xs : List Nat) : Nat := xs.foldr (fun x n => x % 2 ^ t.width + n * 2 ^ t.width) 0

end Sys2Proof
end

