-- ==== Sys2Proof/Machine/Sfu.lean ====
section
/-! DEFINITION. The special functions (R81, R179, R180): each argument's exact value is carried through fixed-point arithmetic
of 320 bits below the binary point, far beyond what correct rounding of a 24-bit result needs, and the result keeps a sticky
bit, so that it is rounded once (log entry 14). -/

namespace Sys2Proof

open Sys2Proof.Machine

/-- The bits below the binary point. -/
def sfuP : Nat := 320
/-- π scaled by 2^512. -/
def piFix : Nat := 42121870893450636219446821484559388105255997313489254605594685088103805782276098919793885372247726346443771296916333485327292916625599161542353774203832599
/-- ln 2 scaled by 2^512. -/
def ln2Fix : Nat := 9293584264128987901384440660653081117630633404975079641076009770578364573633075645167623918067512986930843040596952636663673675798576024949780480621393957
/-- ln 2 at the working precision. -/
def ln2P : Nat := ln2Fix >>> (512 - sfuP)

/-- m · 2^e in fixed point. -/
def toFix (m : Nat) (e : Int) : Nat :=
  let d := e + (sfuP : Int)
  if 0 ≤ d then m <<< d.toNat else m >>> (-d).toNat

/-- A fixed-point result with its sticky bit: no exact case reaches it. -/
def ofFix (s : Bool) (x : Nat) (e : Int) : FVal := .fin s (2 * x + 1) (e - (sfuP : Int) - 1)

/-- e^r for 0 ≤ r < 1 in fixed point. -/
def expFix (r : Nat) : Nat :=
  ((List.range 90).foldl (fun (p : Nat × Nat) i =>
    let t := ((p.1 * r) >>> sfuP) / (i + 1)
    (t, p.2 + t)) (2 ^ sfuP, 2 ^ sfuP)).2

/-- The alternating series of sine and cosine for a reduced argument: the sum of r^(2i+b) / (2i+b)!. -/
def trigFix (b : Nat) (r : Nat) : Nat :=
  let r2 := (r * r) >>> sfuP
  let t0 := if b = 0 then 2 ^ sfuP else r
  (((List.range 45).foldl (fun (p : Nat × Int × Bool) i =>
    let t := ((p.1 * r2) >>> sfuP) / ((2 * i + 1 + b) * (2 * i + 2 + b))
    (t, (if p.2.2 then p.2.1 - (t : Int) else p.2.1 + (t : Int)), !p.2.2)) (t0, ((t0 : Int), true))).2.1).toNat

/-- ln z for 1 ≤ z < 2 in fixed point: 2·atanh((z − 1)/(z + 1)). -/
def lnFix (z : Nat) : Nat :=
  let one := 2 ^ sfuP
  let y := ((z - one) <<< sfuP) / (z + one)
  let y2 := (y * y) >>> sfuP
  2 * ((List.range 110).foldl (fun (p : Nat × Nat) i =>
    let t := (p.1 * y2) >>> sfuP
    (t, p.2 + t / (2 * i + 3))) (y, y)).2

/-- 1 ÷ a (R180). -/
def sfuRcp (a : FVal) : FRes := fDiv (.fin false 1 0) a

/-- 1 ÷ √a (R180). -/
def sfuRsq (a : FVal) : FRes :=
  match a with
  | .nan => ⟨.nan, 0#3⟩
  | .inf s => if s then ⟨.nan, cInv⟩ else ⟨.fin false 0 0, 0#3⟩
  | .fin s m e =>
    if m = 0 then ⟨.inf s, cDz⟩
    else if s then ⟨.nan, cInv⟩
    else
      let odd := e % 2 = 1
      let m' := if odd then 2 * m else m
      let e' := if odd then e - 1 else e
      let n := 2 ^ 320 / m'
      let q := isqrt n
      ⟨.fin false (2 * q + (if q * q * m' = 2 ^ 320 then 0 else 1)) (-(e' / 2) - 160 - 1), 0#3⟩

/-- 2^a (R180). -/
def sfuExp2 (a : FVal) : FRes :=
  match a with
  | .nan => ⟨.nan, 0#3⟩
  | .inf s => if s then ⟨.fin false 0 0, 0#3⟩ else ⟨.inf false, 0#3⟩
  | .fin s m e =>
    if m = 0 then ⟨.fin false 1 0, 0#3⟩
    else if 10 < (bitLen m : Int) + e then
      (if s then ⟨.fin false 1 (-1000), 0#3⟩ else ⟨.fin false 1 1000, 0#3⟩)
    else
      let x : Int := if s then -(toFix m e : Int) else (toFix m e : Int)
      let n := x / ((2 ^ sfuP : Nat) : Int)
      let f := (x % ((2 ^ sfuP : Nat) : Int)).toNat
      if f = 0 then ⟨.fin false 1 n, 0#3⟩
      else ⟨ofFix false (expFix ((f * ln2P) >>> sfuP)) n, 0#3⟩

/-- log₂ a (R180). -/
def sfuLog2 (a : FVal) : FRes :=
  match a with
  | .nan => ⟨.nan, 0#3⟩
  | .inf s => if s then ⟨.nan, cInv⟩ else ⟨.inf false, 0#3⟩
  | .fin s m e =>
    if m = 0 then ⟨.inf true, cDz⟩
    else if s then ⟨.nan, cInv⟩
    else
      let k := e + (bitLen m : Int) - 1
      if m = 2 ^ (bitLen m - 1) then ⟨FVal.ofInt k 0, 0#3⟩
      else
        let z := toFix m (1 - (bitLen m : Int))
        let l : Int := (((lnFix z <<< sfuP) / ln2P : Nat) : Int) + k * ((2 ^ sfuP : Nat) : Int)
        ⟨ofFix (decide (l < 0)) l.natAbs 0, 0#3⟩

/-- The quadrant and the reduced argument of |a| for sine and cosine: n, and r = |a| − n·π/2 with |r| ≤ π/4. -/
def trigReduce (m : Nat) (e : Int) : Nat × Int :=
  let x := toFix m e
  let n := ((2 * (x <<< 512) / piFix) + 2 ^ (sfuP - 1)) >>> sfuP
  (n, (x : Int) - (((n * piFix) >>> (513 - sfuP) : Nat) : Int))

/-- sin (cos when `c`) of a finite non-zero a (R180). -/
def sfuTrig (c : Bool) (s : Bool) (m : Nat) (e : Int) : FVal :=
  let (n, r) := trigReduce m e
  let q := (n + (if c then 1 else 0)) % 4
  let rs := decide (r < 0)
  let ra := r.natAbs
  let sgn := if c then false else s
  if q % 2 = 0 then ofFix (sgn != (rs != (q == 2))) (trigFix 1 ra) 0
  else ofFix (sgn != (q == 3)) (trigFix 0 ra) 0

/-- sin a (R180). -/
def sfuSin (a : FVal) : FRes :=
  match a with
  | .nan => ⟨.nan, 0#3⟩
  | .inf _ => ⟨.nan, cInv⟩
  | .fin s m e => if m = 0 then ⟨.fin s 0 0, 0#3⟩ else ⟨sfuTrig false s m e, 0#3⟩

/-- cos a (R180). -/
def sfuCos (a : FVal) : FRes :=
  match a with
  | .nan => ⟨.nan, 0#3⟩
  | .inf _ => ⟨.nan, cInv⟩
  | .fin s m e => if m = 0 then ⟨.fin false 1 0, 0#3⟩ else ⟨sfuTrig true s m e, 0#3⟩

/-- tanh a (R180). -/
def sfuTanh (a : FVal) : FRes :=
  match a with
  | .nan => ⟨.nan, 0#3⟩
  | .inf s => ⟨.fin s 1 0, 0#3⟩
  | .fin s m e =>
    if m = 0 then ⟨.fin s 0 0, 0#3⟩
    else if 5 < (bitLen m : Int) + e then ⟨.fin s 1 0, 0#3⟩
    else
      let y := 2 * toFix m e
      let k := y / ln2P
      let ex := expFix (y - k * ln2P) <<< k
      let one := 2 ^ sfuP
      ⟨ofFix s (((ex - one) <<< sfuP) / (ex + one)) 0, 0#3⟩

/-- The seven functions, on F32 elements. -/
inductive SfuFn where
  | rcp | rsq | exp2 | log2 | sin | cos | tanh
deriving DecidableEq, Repr

/-- A function's exact value on a value (R179, R180). -/
def SfuFn.val (f : SfuFn) (a : FVal) : FRes :=
  match f with
  | .rcp => sfuRcp a
  | .rsq => sfuRsq a
  | .exp2 => sfuExp2 a
  | .log2 => sfuLog2 a
  | .sin => sfuSin a
  | .cos => sfuCos a
  | .tanh => sfuTanh a

/-- A function on an F32 element, correctly rounded to RNE (R81, R179). -/
def SfuFn.run (f : SfuFn) (a : Nat) : BRes := (f.val (Tag.value .f32 false a)).pack .f32 .rne

end Sys2Proof
end

