-- ==== Sys2Proof/Machine/Ops.lean ====
section
/-! DEFINITION. The named operations over the state that every meaning uses: cores, dies, blocks, cohorts and registers by
name; bytes, full-empty bits, poison and reservations of the stores; freezing a cohort and starting its handler (R313 to R318),
which is how this machine takes an exception; and issuing one word (`word`). -/

namespace Sys2Proof.Machine

/-- What a meaning answers. -/
abbrev Out := Host.Outcome State Fault Refusal

/-! ## Places (R17) -/

/-- A core of the package, by 256 × die + core. -/
def State.core (s : State) (c : Nat) : Core := s.cores.get c Core.zero
def State.setCore (s : State) (c : Nat) (x : Core) : State := { s with cores := s.cores.set c x }
/-- A die. -/
def State.die (s : State) (d : Nat) : Die := s.dies.get d Die.zero
def State.setDie (s : State) (d : Nat) (x : Die) : State := { s with dies := s.dies.set d x }
/-- A partition of a core. -/
def Core.part (c : Core) (p : Nat) : Part := c.parts.get p Part.zero
def Core.setPart (c : Core) (p : Nat) (x : Part) : Core := { c with parts := c.parts.set p x }
/-- The core a block stands on, by 256 × die + core. -/
def Block.coreId (b : Block) : Nat := 256 * b.die + b.core

def State.block (s : State) (b : Nat) : Option Block := s.blocks.find b
def State.setBlock (s : State) (b : Nat) (x : Block) : State := { s with blocks := s.blocks.set b x }
def State.grid (s : State) (g : Nat) : Option Grid := s.grids.find g
def State.setGrid (s : State) (g : Nat) (x : Grid) : State := { s with grids := s.grids.set g x }
def Block.coh (b : Block) (c : Nat) : Option Cohort := b.cohs.find c
def Block.setCoh (b : Block) (c : Nat) (x : Cohort) : Block := { b with cohs := b.cohs.set c x }
/-- A cohort of a block. -/
def State.coh (s : State) (r : CohRef) : Option Cohort :=
  match s.block r.blk with
  | some b => b.coh r.coh
  | none => none
def State.setCoh (s : State) (r : CohRef) (x : Cohort) : State :=
  match s.block r.blk with
  | some b => s.setBlock r.blk (b.setCoh r.coh x)
  | none => s
/-- A cohort changed. -/
def State.updCoh (s : State) (r : CohRef) (f : Cohort → Cohort) : State :=
  match s.coh r with
  | some c => s.setCoh r (f c)
  | none => s

def Block.isHandler (b : Block) : Bool :=
  match b.kind with
  | .handler .. => true
  | _ => false
/-- A second-level handler stands in a nest slot (R318). -/
def Block.isNest (b : Block) : Bool :=
  match b.kind with
  | .handler n _ _ => n
  | _ => false
/-- The decoding limits of a block (R146, R218). -/
def Block.lim (b : Block) : Lim := ⟨b.cfg.vr, b.cfg.t⟩
/-- The path in a slot. -/
def Cohort.path (c : Cohort) (isB : Bool) : Option Path := if isB then c.pb else c.pa
def Cohort.setPath (c : Cohort) (isB : Bool) (p : Option Path) : Cohort := if isB then { c with pb := p } else { c with pa := p }
/-- A block takes part in the machine: it is placed and not saved. -/
def Block.resident (b : Block) : Bool := !b.saved

/-! ## Registers (R146) -/

def Thread.vreg (t : Thread) (n : Nat) : VReg := t.v.get n VReg.zero
def Thread.setV (t : Thread) (n : Nat) (x : VReg) : Thread := { t with v := t.v.set n x }
def Thread.mreg (t : Thread) (n : Nat) : MReg := t.m.get n MReg.empty
def Thread.setM (t : Thread) (n : Nat) (x : MReg) : Thread := { t with m := t.m.set n x }
def Cohort.thread (c : Cohort) (l : Nat) : Option Thread := c.lanes.find l
def Cohort.setThread (c : Cohort) (l : Nat) (t : Thread) : Cohort := { c with lanes := c.lanes.set l t }
/-- A lane's thread changed. -/
def Cohort.updThread (c : Cohort) (l : Nat) (f : Thread → Thread) : Cohort :=
  match c.thread l with
  | some t => c.setThread l (f t)
  | none => c
def Cohort.sreg (c : Cohort) (n : Nat) : W64 := c.s.get n 0#64
def Cohort.setS (c : Cohort) (n : Nat) (x : W64) : Cohort := { c with s := c.s.set n x }
def Cohort.kreg (c : Cohort) (n : Nat) : W64 := c.k.get n 0#64
def Cohort.setK (c : Cohort) (n : Nat) (x : W64) : Cohort := { c with k := c.k.set n x }
def Cohort.ctr (c : Cohort) (n : Nat) : BitVec 6 := c.d.get n 0#6
def Cohort.setCtr (c : Cohort) (n : Nat) (x : BitVec 6) : Cohort := { c with d := c.d.set n x }
/-- A counter incremented, decremented (R55). -/
def Cohort.incCtr (c : Cohort) (n : BitVec 3) : Cohort := c.setCtr n.toNat (c.ctr n.toNat + 1#6)
def Cohort.decCtr (c : Cohort) (n : BitVec 3) : Cohort :=
  c.setCtr n.toNat (if c.ctr n.toNat = 0#6 then 0#6 else c.ctr n.toNat - 1#6)
def Block.breg (b : Block) (n : Nat) : W32 := b.b.get n 0#32
def Block.setB (b : Block) (n : Nat) (x : W32) : Block := { b with b := b.b.set n x }
/-- Every counter of the cohort is zero. -/
def Cohort.quiet (c : Cohort) : Bool := c.d.all (fun p => p.2 == 0#6)
/-- The counters a mask names are zero (R35, R36). -/
def Cohort.waitOk (c : Cohort) (w : BitVec 8) : Bool :=
  (List.range 8).all (fun i => !w.getLsbD i || c.ctr i == 0#6)
/-- The lanes that hold a thread. -/
def Cohort.populated (c : Cohort) : W32 := maskOf c.lanes.keys
/-- The threads, by linear index, of the lanes of a mask. -/
def Cohort.threadsOf (c : Cohort) (m : W32) : List Nat :=
  c.lanes.foldl (fun ts p => if m.getLsbD p.1 then setIns ts p.2.t else ts) []

/-! ## Stores of bytes -/

/-- The bytes of a store. -/
def State.mem (s : State) : Store → Memory
  | .phys => s.phys
  | .core c => (s.core c).scr
  | .die d => (s.die d).dw
  | .hblk b => ((s.block b).map (·.mem)).getD []

def State.setMem (s : State) (st : Store) (m : Memory) : State :=
  match st with
  | .phys => { s with phys := m }
  | .core c => s.setCore c { s.core c with scr := m }
  | .die d => s.setDie d { s.die d with dw := m }
  | .hblk b => match s.block b with
    | some x => s.setBlock b { x with mem := m }
    | none => s

/-- One byte of a store. -/
def State.byte (s : State) (st : Store) (a : Nat) : Byte := (s.mem st).read a
/-- `n` bytes as a number (R4). -/
def State.readNat (s : State) (st : Store) (a n : Nat) : Nat := (s.mem st).readNat a n

/-- The size of a poison granule (R96, R154). -/
def Store.pg : Store → Nat
  | .phys => 64
  | _ => 16

/-- The poisoned granules of a store. -/
def State.psns (s : State) : Store → List Nat
  | .phys => s.physPsn
  | .core c => (s.core c).psn
  | .die d => (s.die d).dwpsn
  | .hblk b => ((s.block b).map (·.mpsn)).getD []

def State.setPsns (s : State) (st : Store) (l : List Nat) : State :=
  match st with
  | .phys => { s with physPsn := l }
  | .core c => s.setCore c { s.core c with psn := l }
  | .die d => s.setDie d { s.die d with dwpsn := l }
  | .hblk b => match s.block b with
    | some x => s.setBlock b { x with mpsn := l }
    | none => s

/-- A byte of the range lies in a poisoned granule. -/
def State.poisoned (s : State) (st : Store) (a n : Nat) : Bool :=
  (granules st.pg a n).any (fun g => (s.psns st).contains g)

/-- The full granules of a store (R108); only core scratchpads and handler scratchpads have the bits. -/
def State.fes (s : State) : Store → List Nat
  | .core c => (s.core c).fe
  | .hblk b => ((s.block b).map (·.mfe)).getD []
  | _ => []

def State.setFes (s : State) (st : Store) (l : List Nat) : State :=
  match st with
  | .core c => s.setCore c { s.core c with fe := l }
  | .hblk b => match s.block b with
    | some x => s.setBlock b { x with mfe := l }
    | none => s
  | _ => s

/-- The full-empty bit of the granule of an address. -/
def State.full (s : State) (st : Store) (a : Nat) : Bool := (s.fes st).contains (a / 16)
def State.setFull (s : State) (st : Store) (a : Nat) : State := s.setFes st (setIns (s.fes st) (a / 16))
def State.setEmpty (s : State) (st : Store) (a : Nat) : State := s.setFes st (setDel (s.fes st) (a / 16))

/-- A thread loses its reservation when the range touches its granule (R260). -/
def Thread.loseResv (t : Thread) (st : Store) (a n : Nat) : Thread :=
  match t.resv with
  | some r => if r.store = st ∧ (granules 16 a n).contains r.gran then { t with resv := none } else t
  | none => t

/-- Every reservation on a granule that the range touches is cleared (R260). -/
def State.clearResv (s : State) (st : Store) (a n : Nat) : State :=
  { s with blocks := s.blocks.map (fun b => (b.1, { b.2 with cohs := b.2.cohs.map (fun c => (c.1,
      { c.2 with lanes := c.2.lanes.map (fun l => (l.1, l.2.loseResv st a n)) })) })) }

/-- Some thread holds a reservation. -/
def State.anyResv (s : State) : Bool :=
  s.blocks.any (fun b => b.2.cohs.any (fun c => c.2.lanes.any (fun l => l.2.resv.isSome)))

/-- Bytes written to a store, with the reservations they clear (R260). -/
def State.writeBytes (s : State) (st : Store) (a : Nat) (bs : List Byte) : State :=
  let s' := s.setMem st ((s.mem st).writeN a bs)
  if s'.anyResv then s'.clearResv st a bs.length else s'

/-- Poison after a write (R97, R154): a poisoned value marks the granules it touches; unpoisoned data clears the granules it
covers whole. -/
def State.writePsn (s : State) (st : Store) (a n : Nat) (psn : Bool) : State :=
  let gs := granules st.pg a n
  if psn then s.setPsns st (gs.foldl setIns (s.psns st))
  else
    let whole := gs.filter (fun g => decide (a ≤ g * st.pg) && decide ((g + 1) * st.pg ≤ a + n))
    if whole.any (fun g => (s.psns st).contains g) then s.setPsns st (whole.foldl setDel (s.psns st)) else s

/-- An element of `n` bytes written with its poison mark. -/
def State.writeEl (s : State) (st : Store) (a n : Nat) (v : W64) (psn : Bool) : State :=
  (s.writeBytes st a (leBytes n v.toNat)).writePsn st a n psn

/-! ## The issuing cohort -/

/-- Who issues: the cohort named by `State.cur`, its block and grid, the path whose turn it is. -/
structure Ctx where
  ref  : CohRef
  grid : Grid
  blk  : Block
  coh  : Cohort
  path : Path
  isB  : Bool
  smp  : Option (BitVec 16 × Bool)
deriving DecidableEq, Repr

/-- EXEC: the mask of the issuing path (R22, R42). -/
def Ctx.exec (x : Ctx) : W32 := x.path.mask
/-- The lanes of EXEC, ascending. -/
def Ctx.lanes (x : Ctx) : List Nat := lanesOf x.path.mask

/-- The lanes a word runs: those of EXEC that no earlier issue has done (R60, R206). -/
def Ctx.todo (x : Ctx) : List Nat := x.lanes.filter (fun l => !x.coh.rpm.getLsbD l)

/-- The issuer: none when `cur` names no cohort, or one that is frozen or saved, or that has no path in the slot. -/
def State.ctx (s : State) : Option Ctx :=
  match s.cur with
  | none => none
  | some r =>
    match s.block r.blk with
    | none => none
    | some b =>
      match b.coh r.coh, s.grid b.grid with
      | some c, some g =>
        match c.path c.selB with
        | some p => if c.frz.isSome || b.saved then none else some ⟨r, g, b, c, p, c.selB, none⟩
        | none => none
      | _, _ => none

/-! ## Machine-check records (R370, R371) -/

/-- COUNT advanced by one, saturating; THR set when it reaches THRESH (R370, R371). -/
def Bank.bump (b : Bank) : Bank :=
  let n := (b.count.extractLsb' 0 32).toNat
  let n' := if n = 2 ^ 32 - 1 then n else n + 1
  let th := (b.ctl.extractLsb' 32 32).toNat
  { b with count := (if b.count.getLsbD 63 || (th ≠ 0 && decide (th ≤ n')) then 1#64 <<< 63 else 0#64) ||| BitVec.ofNat 64 n' }

/-- An error event of unit `unit` (R369) reaches its bank (R371): counted; written when the bank is empty; over a record of a
lower class; otherwise it sets OVER. Corrected events are kept only while EN is set (R370). -/
def State.logMc (s : State) (die unit cls : Nat) (psn : Bool) (code : Nat) (addr misc : Option W64) : State :=
  let d := s.die die
  let n := unit - 1
  let b := (d.banks.get n Bank.zero).bump
  let newSt : W64 :=
    (1#64 <<< 63) ||| (BitVec.ofNat 64 cls <<< 60) ||| (if psn then 1#64 <<< 59 else 0#64)
    ||| (if addr.isSome then 1#64 <<< 58 else 0#64) ||| (if misc.isSome then 1#64 <<< 57 else 0#64)
    ||| (BitVec.ofNat 64 unit <<< 16) ||| BitVec.ofNat 64 code
  let put (ovr : Bool) : Bank :=
    { b with
      status := newSt ||| (if ovr then 1#64 <<< 62 else 0#64)
      addr := addr.getD 0#64
      misc := misc.getD 0#64 }
  let b' :=
    if cls = 0 && !b.ctl.getLsbD 0 then { b with status := b.status ||| (1#64 <<< 62) }
    else if !b.status.getLsbD 63 then put (b.status.getLsbD 62)
    else if (b.status.extractLsb' 60 2).toNat < cls then put true
    else { b with status := b.status ||| (1#64 <<< 62) }
  s.setDie die { d with banks := d.banks.set n b' }

/-- MCMISC of the work of a cohort (R370). -/
def mcMisc (pasid : BitVec 20) (core part : Nat) (hnd : Bool) (coh : Nat) : W64 :=
  (pasid.setWidth 64 <<< 36) ||| (BitVec.ofNat 64 core <<< 8) ||| (BitVec.ofNat 64 part <<< 6)
  ||| (if hnd then 1#64 <<< 5 else 0#64) ||| BitVec.ofNat 64 (coh % 32)

/-! ## Forming threads (R23, R79, R146) -/

/-- The index g of R79. -/
def seedIndex (t nt : Nat) (bid : W32 × W32 × W32) (gx gy : Nat) : Nat :=
  t + nt * (bid.1.toNat + gx * (bid.2.1.toNat + gy * bid.2.2.toNat))

/-- A new thread: every register at its reset value (R146), SEED formed (R79). -/
def mkThread (t nt : Nat) (tid bid : W32 × W32 × W32) (g : LaunchRec) : Thread where
  t := t
  tid := tid
  bid := bid
  v := []
  m := []
  seed := seedForm g.seedb (seedIndex t nt bid g.gx g.gy)
  resv := none

/-- A new path. -/
def mkPath (pc : W64) (mask : W32) (rpc : Option W64) : Path := ⟨pc, mask, rpc, none, false, none, [], false⟩

/-- A new cohort with its threads in path A (R25, R146, R315). -/
def mkCohort (lanes : AMap Thread) (pc : W64) (part cslot : Nat) : Cohort where
  lanes := lanes
  pa := some (mkPath pc (maskOf lanes.keys) none)
  pb := none
  selB := false
  mid := false
  spill := []
  s := []
  k := []
  d := []
  latch := []
  flane := 0#32
  pmask := 0#32
  pidx := 0#32
  frz := none
  rpm := 0#32
  rinc := false
  ncls := 0
  fair := 0
  openg := []
  batches := []
  polls := 0
  step := 0
  psamp := none
  part := part
  cslot := cslot
  ready := none
  urgent := none
  ypause := none
  bpskip := none
  idle := false

/-! ## Capabilities and fault records (R316, R317, R324) -/

/-- The value of a capability (R316): its bits carry no meaning. -/
def capVal (num : Nat) : W64 := Config.capBase + BitVec.ofNat 64 num

/-- The live capability of a value on a die. -/
def State.capOf (s : State) (die : Nat) (v : W64) : Option Cap := (s.die die).caps.find? (fun c => capVal c.num == v)

/-- A capability ended (R316). -/
def State.endCap (s : State) (die num : Nat) : State :=
  let d := s.die die
  s.setDie die { d with caps := d.caps.filter (fun c => c.num != num) }

/-- The copy of a number. -/
def State.copyT (s : State) (id : Nat) : Option CopyT := s.copies.find? (fun c => c.id == id)

def State.updCopy (s : State) (id : Nat) (f : CopyT → CopyT) : State :=
  { s with copies := s.copies.map (fun c => if c.id = id then f c else c) }

/-- RPC as it is stored: 0 for none (R235). -/
def rpcBits (r : Option W64) : W64 := r.getD 0#64

/-- The selector word 3 of R324. -/
def whereWord (pidx : W32) (coh part core die : Nat) (isB : Bool) : W64 :=
  pidx.setWidth 64 ||| (BitVec.ofNat 64 (coh % 32) <<< 32) ||| (BitVec.ofNat 64 (part % 4) <<< 37)
  ||| (BitVec.ofNat 64 (core % 256) <<< 39) ||| (BitVec.ofNat 64 (die % 4) <<< 47) ||| (if isB then 1#64 <<< 49 else 0#64)

/-- The code, level and address of the lowest faulting lane (R90, R324). -/
def Freeze.lead (f : Freeze) (flane : W32) : Nat × Nat × W64 := (f.per.find (lowBit flane)).getD (f.code, f.level, f.va)

/-- The kind word of R324. -/
def kindWord (f : Freeze) (nest copy : Bool) : W64 :=
  BitVec.ofNat 64 (f.kind % 256) ||| (BitVec.ofNat 64 (f.code % 256) <<< 8) ||| (BitVec.ofNat 64 (f.level % 16) <<< 16)
  ||| (BitVec.ofNat 64 (f.widx % 65536) <<< 32) ||| (if copy then 1#64 <<< 48 else 0#64) ||| (if nest then 1#64 <<< 49 else 0#64)

/-- One word of the fault record of a frozen cohort (R324). -/
def finfCoh (g : Grid) (b : Block) (coh : Nat) (c : Cohort) (f : Freeze) (sel : Nat) : W64 :=
  let mA := (c.pa.map (·.mask)).getD 0#32
  let mB := (c.pb.map (·.mask)).getD 0#32
  match sel with
  | 0 => kindWord { f with code := (f.lead c.flane).1, level := (f.lead c.flane).2.1 } b.isHandler false
  | 1 => f.hdr
  | 2 => c.flane.setWidth 64 ||| (c.pmask.setWidth 64 <<< 32)
  | 3 => whereWord c.pidx coh c.part b.core b.die f.isB
  | 4 => if f.kind = 1 ∨ f.kind = 2 then (f.lead c.flane).2.2 else 0#64
  | 6 => mA.setWidth 64 ||| (mB.setWidth 64 <<< 32)
  | 7 => (c.pa.map (·.pc)).getD 0#64
  | 8 => (c.pb.map (·.pc)).getD 0#64
  | 9 => rpcBits (c.pa.bind (·.rpc))
  | 10 => rpcBits (c.pb.bind (·.rpc))
  | 11 => g.pasid.setWidth 64 ||| (g.qn.setWidth 64 <<< 20)
  | _ => 0#64

/-- One word of the fault record of a suspended copy (R123, R324). -/
def finfCopy (g : Grid) (c : CopyT) (f : Freeze) (sel : Nat) : W64 :=
  match sel with
  | 0 => kindWord f false true
  | 1 => c.hdr
  | 3 => whereWord 0#32 c.coh c.part c.core c.die c.isB
  | 4 => f.va
  | 5 => BitVec.ofNat 64 c.done
  | 11 => g.pasid.setWidth 64 ||| (g.qn.setWidth 64 <<< 20)
  | _ => 0#64

/-- One word of a fault record; 0 when the record is gone. -/
def State.finf (s : State) (w : FRec) (sel : Nat) : W64 :=
  match w with
  | .coh b c =>
    match s.block b with
    | none => 0#64
    | some bk =>
      match s.grid bk.grid, bk.coh c with
      | some g, some ch => match ch.frz with
        | some f => finfCoh g bk c ch f sel
        | none => 0#64
      | _, _ => 0#64
  | .copy id =>
    match s.copyT id with
    | none => 0#64
    | some c => match s.grid c.grid, c.susp with
      | some g, some f => finfCopy g c f sel
      | _, _ => 0#64

/-- The grid a record belongs to. -/
def State.recGrid (s : State) : FRec → Option Nat
  | .coh b _ => (s.block b).map (·.grid)
  | .copy id => (s.copyT id).map (·.grid)

/-! ## Killing a grid (R319, R330) -/

/-- The blocks of a grid, handlers among them. -/
def State.gridBlocks (s : State) (g : Nat) : List Nat := AMap.keys (s.blocks.filter (fun b => b.2.grid == g))

/-- A partition forgets the cohorts of the given blocks. -/
def Part.forget (p : Part) (bs : List Nat) : Part :=
  { p with
    cur := p.cur.filter (fun c => !bs.contains c.1)
    last := p.last.filter (fun c => !bs.contains c.1) }

/-- The partitions of a core forget the cohorts of the given blocks. -/
def Core.forget (c : Core) (bs : List Nat) : Core := { c with parts := c.parts.map (fun p => (p.1, p.2.forget bs)) }

/-- An operation in flight that only writes registers of its cohort. -/
def PKind.regOnly : PKind → Bool
  | .sfu | .matrix .. | .sysread _ | .regread _ _ | .mbxr _ _ | .bquery _ _ => true
  | _ => false

/-- The machine without the given blocks: their capabilities, records and waits go with them. -/
def State.dropBlocks (s : State) (bs : List Nat) : State :=
  let hit (r : FRec) : Bool := match r with
    | .coh b _ => bs.contains b
    | .copy _ => false
  { s with
    blocks := s.blocks.filter (fun b => !bs.contains b.1)
    cores := s.cores.map (fun c => (c.1, c.2.forget bs))
    dies := s.dies.map (fun d => (d.1, { d.2 with
      caps := d.2.caps.filter (fun c => !(hit c.what || bs.contains c.hblk))
      fq := d.2.fq.filter (fun r => !hit r)
      heldq := d.2.heldq.filter (fun r => !hit r)
      nestq := d.2.nestq.filter (fun r => !hit r) }))
    cur := s.cur.filter (fun r => !bs.contains r.blk) }

/-- A store of bytes that outlives the blocks of a grid. -/
def Store.lasting : Store → Bool
  | .phys | .die _ => true
  | _ => false

/-- What is left of an operation in flight when its grid is killed: the accesses already sent to main memory and to die-wide
scratchpads still happen (R330); waits, prefetches, and accesses to allocations that are gone do not. -/
def Pend.afterKill (p : Pend) : Option Pend :=
  let ls := p.lanes.filter (fun l => l.2.all (fun a => a.z == 0 || a.store.lasting))
  let keep : Bool := match p.kind with
    | .gaths _ _ | .pref _ | .load _ _ | .ldspl | .gath => false
    | .hacc t _ _ => t.store.lasting
    | k => !k.regOnly
  if keep && !ls.isEmpty then some { p with lanes := ls, more := false } else none

/-- The messages of a grid that has ended are discarded (R267). -/
def Core.dropMessages (k : Core) (g : Nat) : Core := { k with fifo := k.fifo.map (fun f => (f.1, f.2.filter (fun e => e.grid != g))) }

/-- A grid is killed: its handlers, fault records, cohorts, tasks and copies are discarded; accesses already sent still
happen (R319, R330). The LAUNCH completes at GRID_END with the status of R383. -/
def State.killGrid (s : State) (g : Nat) (status : Nat) : State :=
  match s.grid g with
  | none => s
  | some gr =>
    if gr.stat ≠ .running then s
    else
      let bs := s.gridBlocks g
      let ids := (s.copies.filter (fun c => c.grid == g)).map (·.id)
      let hit (r : FRec) : Bool := match r with
        | .coh _ _ => false
        | .copy id => ids.contains id
      let s1 := s.dropBlocks bs
      let s2 : State := { s1 with
        copies := s1.copies.filter (fun c => c.grid != g)
        pend := s1.pend.filterMap (fun p => if p.grid = g then p.afterKill else some p)
        dies := s1.dies.map (fun d => (d.1, { d.2 with
          tq := d.2.tq.filter (fun t => t.grid != g)
          caps := d.2.caps.filter (fun c => !hit c.what)
          fq := d.2.fq.filter (fun r => !hit r)
          heldq := d.2.heldq.filter (fun r => !hit r)
          nestq := d.2.nestq.filter (fun r => !hit r) }))
        cores := s1.cores.map (fun k => (k.1, k.2.dropMessages g)) }
      s2.setGrid g { gr with stat := .killed, status := status }

/-! ## Taking an exception: the freeze and the handler (R313 to R318) -/

/-- Handler slot j of a core is free, and the core takes handlers (R314, R373). -/
def State.hslotFree (s : State) (core j : Nat) : Bool :=
  !(s.core core).fenced && !(s.core core).testing
  && !s.blocks.any (fun b => b.2.coreId == core && (match b.2.kind with
    | .handler false k _ => k == j
    | _ => false))

/-- The free handler slots of a die, by core and slot, the lowest core first. -/
def State.freeHslots (s : State) (die : Nat) : List (Nat × Nat) :=
  (List.range 256).flatMap (fun c => [0, 1].filterMap (fun j => if s.hslotFree (256 * die + c) j then some (c, j) else none))

/-- The slot Lantern takes: of the faulting core first, then of the core with the lowest CORE (R314). -/
def State.pickHslot (s : State) (die core : Nat) : Option (Nat × Nat) :=
  if s.hslotFree (256 * die + core) 0 then some (core, 0)
  else if s.hslotFree (256 * die + core) 1 then some (core, 1)
  else (s.freeHslots die).head?

/-- Nest slot j of a die is free (R318). -/
def State.nslotFree (s : State) (die j : Nat) : Bool :=
  !s.blocks.any (fun b => b.2.die == die && (match b.2.kind with
    | .handler true k _ => k == j
    | _ => false))

/-- The sizes of a handler's block (R315). -/
def handlerCfg : BCfg := ⟨64, 0, 8, 4096, 0, 8, false, 0⟩

/-- A handler block: one cohort of 32 lanes at HENTRY, s0 the capability, s1 the kind word (R315). -/
def mkHandler (s : State) (g : Grid) (gid : Nat) (nest : Bool) (slot cap die core : Nat) (bid : W32 × W32 × W32) (w : FRec) :
    Block :=
  let lanes : AMap Thread := lanes32.map (fun l => (l, mkThread l 32 (BitVec.ofNat 32 l, 0#32, 0#32) bid g.lrec))
  let part := if nest then slot / 2 else 2 * slot
  let cslot := if nest then 9 + slot % 2 else 8
  let c := ((mkCohort lanes g.lrec.hentry part cslot).setS 0 (capVal cap)).setS 1 (s.finf w 0)
  { grid := gid
    kind := .handler nest slot cap
    die := die
    core := core
    bid := bid
    ntid := (32, 1, 1)
    nt := 32
    ncoh := 1
    cfg := handlerCfg
    base := 0xFFFFFFFF
    size := 4352
    order := s.nid
    cohs := [(0, c)]
    b := []
    recs := []
    arr := []
    ph := 0
    sbo := none
    nb := false
    mem := []
    mfe := []
    mpsn := []
    mobj := []
    saved := false
    logr := none
    ckw := false
    ckat := 0
    ckn := 0 }

/-- A handler placed in a slot with a new capability for a record. -/
def State.placeHandler (s : State) (nest : Bool) (slot die core : Nat) (gid : Nat) (bid : W32 × W32 × W32) (w : FRec) : State :=
  match s.grid gid with
  | none => s
  | some g =>
    let h := s.nid
    let cap := s.nid + 1
    let b := mkHandler s g gid nest slot cap die core bid w
    let d := s.die die
    { (s.setDie die { d with caps := d.caps ++ [⟨cap, w, h⟩] }).setBlock h b with nid := s.nid + 2 }

/-- The die fault queue's size (R317). -/
def fqMax : Nat := 4096

/-- A record enters the die fault queue at its tail, or is held behind those that are (R317). -/
def Die.enqueue (d : Die) (w : FRec) : Die :=
  if d.fq.length < fqMax && d.heldq.isEmpty then { d with fq := d.fq ++ [w] } else { d with heldq := d.heldq ++ [w] }

/-- A record goes to the first place it finds: a handler slot, the die fault queue, or it is held (R314, R317). A slot that frees takes
the oldest record, so no record passes those that wait. -/
def State.spawnHandler (s : State) (gid die core : Nat) (bid : W32 × W32 × W32) (w : FRec) : State :=
  match (if (s.die die).fq.isEmpty && (s.die die).heldq.isEmpty then s.pickHslot die core else none) with
  | some (c, j) => s.placeHandler false j die c gid bid w
  | none => s.setDie die ((s.die die).enqueue w)

/-- The first free nest slot of a die. -/
def State.pickNslot (s : State) (die : Nat) : Option Nat := (List.range 8).find? (fun j => s.nslotFree die j)

/-- A handler's fault goes to a nest slot of the die, or waits for one behind those that wait (R318). -/
def State.spawnNest (s : State) (gid die : Nat) (bid : W32 × W32 × W32) (w : FRec) : State :=
  match (if (s.die die).nestq.isEmpty then s.pickNslot die else none) with
  | some j => s.placeHandler true j die 0 gid bid w
  | none =>
    let d := s.die die
    s.setDie die { d with nestq := d.nestq ++ [w] }

/-- The status of a killed grid's LAUNCH (R383). -/
def stKilled : Nat := 0x10

/-- A partition gives up the cohort it is inside a clause of (R102, R313). -/
def State.releaseIssue (s : State) (r : CohRef) : State :=
  match s.block r.blk with
  | none => s
  | some b =>
    match b.coh r.coh with
    | none => s
    | some c =>
      let k := s.core b.coreId
      let p := k.part c.part
      let s1 := if p.cur = some (r.blk, r.coh) then s.setCore b.coreId (k.setPart c.part { p with cur := none, last := none }) else s
      if s1.cur = some r then { s1 with cur := none } else s1

/-- A path of a frozen cohort that waits at a barrier arrives again when the cohort resumes (R263); one whose phase has completed does
not. -/
def Path.unbar (p : Path) : Path :=
  match p.wait with
  | some w => match w.kind with
    | .bar | .bara | .sbar | .sbarGrid => if w.released then p else { p with wait := none }
    | _ => p
  | none => p

/-- The cohort frozen (R313): the freeze and FLANE, PMASK, PIDX; its waits at barriers withdrawn. -/
def Cohort.freeze (c : Cohort) (f : Freeze) (flane pmask pidx : W32) : Cohort :=
  { c with
    frz := some f
    flane := flane
    pmask := pmask
    pidx := pidx
    step := 0
    pa := c.pa.map Path.unbar
    pb := c.pb.map Path.unbar
    spill := c.spill.map (fun e => { e with path := e.path.unbar }) }

/-- A live capability names the cohort: it was resumed by FRSM.step and freezes again under the same handler (R329). -/
def State.heldCap (s : State) (die : Nat) (r : CohRef) : Bool := (s.die die).caps.any (fun c => c.what == .coh r.blk r.coh)

/-- The progress of the cohort's running matrix word: the lanes of its finished shape groups, and their number of groups (R196). -/
def State.matProgress (s : State) (r : CohRef) : Option (W32 × W32) :=
  s.pend.findSome? (fun p => if p.blk = r.blk ∧ p.coh = r.coh then (match p.kind with
    | .matrix op => if op.started then some (p.done, BitVec.ofNat 32 op.ngrp) else none
    | _ => none) else none)

/-- PMASK and PIDX of a freeze: at a word those of its description; at a header or between words the progress of the running matrix
word (R196, R313). -/
def State.progress (s : State) (r : CohRef) (f : Freeze) (pm px : W32) : W32 × W32 :=
  if f.header || f.between then (s.matProgress r).getD (pm, px) else (pm, px)

/-- TAKING AN EXCEPTION (R313, R314, R318): the whole cohort freezes, its threads leave the barrier (R263), the partition
issues others, and Lantern starts a handler: first level in a handler slot, second level in a nest slot; a second-level
handler's fault kills the grid. -/
def State.freezeCoh (s : State) (r : CohRef) (f : Freeze) (flane pmask pidx : W32) : State :=
  match s.block r.blk with
  | none => s
  | some b =>
    match b.coh r.coh with
    | none => s
    | some c =>
      let pr := s.progress r f pmask pidx
      let c' := c.freeze f flane pr.1 pr.2
      let ts := c.threadsOf c.populated
      let b' := { b.setCoh r.coh c' with arr := b.arr.filter (fun t => !ts.contains t) }
      let s1 := (s.setBlock r.blk b').releaseIssue r
      match b.kind with
      | .handler true _ _ =>
        let pasid := ((s.grid b.grid).map (·.pasid)).getD 0#20
        (s1.logMc b.die 0x0D 1 false 8 (some f.hdr) (some (mcMisc pasid b.core c.part true 0))).killGrid b.grid stKilled
      | .handler false _ _ => if s.heldCap b.die r then s1 else s1.spawnNest b.grid b.die b.bid (.coh r.blk r.coh)
      | _ => if s.heldCap b.die r then s1 else s1.spawnHandler b.grid b.die b.core b.bid (.coh r.blk r.coh)

/-- What a word asks the freeze to hold. -/
structure Fz where
  kind  : Nat
  code  : Nat
  level : Nat
  va    : W64
  flane : W32
  pmask : W32
  pidx  : W32
  per   : AMap (Nat × Nat × W64)
deriving DecidableEq, Repr

/-- The kinds of R312. -/
def kTranslation : Nat := 0x01
def kProtection : Nat := 0x02
def kIllInstr : Nat := 0x03
def kIllEnc : Nat := 0x04
def kIllClause : Nat := 0x05
def kIllState : Nat := 0x06
def kFormat : Nat := 0x07
def kMatCap : Nat := 0x08
def kPoison : Nat := 0x09
def kSingular : Nat := 0x0A
def kArith : Nat := 0x0B
def kBrk : Nat := 0x0C
def kTrap : Nat := 0x0D
def kStep : Nat := 0x0E
def kCap : Nat := 0x0F
def kCheck : Nat := 0x10
def kWatch : Nat := 0x11

/-- A fault of the lanes of a mask, with nothing done: PIDX and PMASK are 0. LEVEL of a protection fault that makes no walk is 0xF
(R324). -/
def Fz.of (kind code : Nat) (flane : W32) : Fz := ⟨kind, code, if kind = kProtection then 0xF else 0, 0#64, flane, 0#32, 0#32, []⟩

/-! ## Issuing one word -/

/-- What the body of a word answers. -/
inductive WRes where
  /-- the word completes; the entry it pushes -/
  | done (s : State) (e : LEnt)
  /-- the word is under way: its operation is in flight and holds the counter -/
  | async (s : State)
  /-- the word faults with nothing done -/
  | trap (z : Fz)
  /-- the word freezes after a part of its effect (R60): the counter stays as counted -/
  | part (s : State) (z : Fz) (async : Bool)
  /-- the word waits, blocked (R102), and issues again when the wait has ended -/
  | wait (s : State) (w : PWait)
  /-- the word completes and the cohort freezes behind it (R341) -/
  | doneFrz (s : State) (e : LEnt) (async : Bool) (z : Fz)
  /-- a control word that has placed the paths itself -/
  | ctl (s : State)

/-- The words the issued word takes: itself and its literal (R37). -/
def ctlLen (c : Ctl) : Nat := if c.lit.isSome then 2 else 1

/-- The latch window after a push (R51). -/
def pushLatch (l : List LEnt) (e : LEnt) : List LEnt := (e :: l).take 8

/-- Every path of a cohort, in slots and on the spill stack, changed. -/
def Cohort.mapPaths (c : Cohort) (f : Path → Path) : Cohort :=
  { c with
    pa := c.pa.map f
    pb := c.pb.map f
    spill := c.spill.map (fun e => { e with path := f e.path }) }

/-- A path stands in a wait that has not ended at word 1 of its clause, and so at its clause boundary (R102). -/
def Path.waitsFirst (p : Path) : Bool :=
  (p.wait.map (fun w => !w.released)).getD false && (p.cl.map (fun cl => cl.wi == 1)).getD false

/-- A path stands at its clause boundary (R54, R102). -/
def Path.atBoundary (p : Path) : Bool := p.cl.isNone || p.waitsFirst

/-- A path stands at its clause boundary in a barrier's wait: with an entry on the spill stack it is demoted (R265). -/
def Path.barWait (p : Path) : Bool :=
  p.waitsFirst && (match p.wait with
    | some w => (match w.kind with
      | .bar | .barw | .sbar | .sbarGrid => true
      | _ => false)
    | none => false)

/-- The path behind a completed word: the next word, no prefix, no wait. -/
def Path.advance (p : Path) (n : Nat) : Path :=
  { p with
    wait := none
    cl := p.cl.map (fun cl => { cl with wi := cl.wi + n, dx := none }) }

/-- A word of the cohort has issued and is complete (R60, R241, R329): the fairness timer, which restarts at 256 when no spill
entry waits; the marks of a re-issued word; the single step, which marks the stepped path. -/
def Cohort.wordDone (c : Cohort) (isB : Bool) : Cohort :=
  { (if c.step = 1 then c.setPath isB ((c.path isB).map (fun p => { p with stp := true })) else c) with
    fair := if 256 ≤ c.fair + 1 && c.spill.isEmpty then 0 else c.fair + 1
    rpm := 0#32
    rinc := false
    step := if c.step = 1 then 2 else c.step }

/-- The path leaves its clause for the header `pc` (R31, R51): the latch window is emptied, NCLS counts the clause. -/
def Cohort.closeClause (c : Cohort) (isB : Bool) (pc : W64) : Cohort :=
  { c.setPath isB ((c.path isB).map (fun p => { p with pc := pc, wait := none, cl := none })) with
    latch := []
    mid := false
    ncls := c.ncls + 1 }

/-- The path demoted at its boundary (R240): it becomes the oldest spill entry and the newest takes its slot; with an empty
stack the other slot issues next. -/
def Cohort.demote (c : Cohort) (isB : Bool) : Cohort :=
  match c.path isB with
  | none => c
  | some p =>
    let p' := { p with dem := false }
    match c.spill with
    | [] => { c.setPath isB (some p') with selB := isB }
    | e :: es => { c.setPath isB (some e.path) with spill := es ++ [⟨p', 0#2⟩], fair := 0 }

/-- The paths in slots that wait at a barrier leave them while the spill stack holds a path that does not (R265). -/
def Cohort.yieldBar : Nat → Cohort → Cohort
  | 0, c => c
  | n + 1, c =>
    if c.spill.all (fun e => e.path.barWait) then c
    else if (c.pa.map Path.barWait).getD false then Cohort.yieldBar n (c.demote false)
    else if (c.pb.map Path.barWait).getD false then Cohort.yieldBar n (c.demote true)
    else c

/-- A demotion of the path that has issued an operation, wherever it now stands (R240): in a slot at its boundary or on the spill stack
it takes effect at once, elsewhere at its next boundary. With an empty spill stack the other slot issues next (`State.nextPath`). -/
def Cohort.demand (c : Cohort) (id : Nat) : Cohort :=
  let c1 := c.mapPaths (fun p => if p.ops.contains id then { p with dem := true } else p)
  let c2 : Cohort := { c1 with
    spill := c1.spill.filter (fun e => !e.path.dem)
      ++ (c1.spill.filter (fun e => e.path.dem)).map (fun e => { e with path := { e.path with dem := false } }) }
  let go (isB : Bool) (k : Cohort) : Cohort :=
    if (k.path isB).any (fun p => p.dem && p.atBoundary) && !k.spill.isEmpty then k.demote isB else k
  go true (go false c2)

/-- The operations whose results may demote the path that issued them (R158, R240). -/
def PKind.demotes : PKind → Bool
  | .cas _ | .stx _ | .load .poll _ => true
  | _ => false

/-- The path that issues notes such an operation: those numbered from `n0` on are its own. -/
def State.noteOps (s : State) (r : CohRef) (isB : Bool) (n0 : Nat) : State :=
  let ids := (s.pend.filter (fun p => decide (n0 ≤ p.id) && p.kind.demotes)).map (·.id)
  if ids.isEmpty then s
  else s.updCoh r (fun c => c.setPath isB ((c.path isB).map (fun p => { p with ops := p.ops ++ ids.filter (fun i => !p.ops.contains i) })))

/-- The cohort behind a completed word (R51, R55, R241): the latch entry, the next word. -/
def Cohort.advance (c : Cohort) (isB : Bool) (n : Nat) (e : LEnt) : Cohort :=
  let c1 := { c.wordDone isB with latch := pushLatch c.latch e }
  c1.setPath isB ((c1.path isB).map (fun p => p.advance n))

/-- The counter of an asynchronous word (R55, R60): one increment, once. -/
def Cohort.count (c : Cohort) (slot : Option (BitVec 3)) : Cohort :=
  match slot with
  | some n => if c.rinc then c else c.incCtr n
  | none => c

/-- The freeze of a word at its position (R312). -/
def Ctx.frz (x : Ctx) (z : Fz) : Freeze where
  kind := z.kind
  code := z.code
  level := z.level
  widx := (x.path.cl.map (·.wi)).getD 0
  isB := x.isB
  hdr := x.path.pc
  va := z.va
  header := false
  between := false
  per := z.per

/-- The words of the clause left behind the issued word. -/
def Ctx.left (x : Ctx) (n : Nat) : Nat :=
  match x.path.cl with
  | some cl => cl.words.length + 1 - (cl.wi + n)
  | none => 0

/-- The header address of the clause after the one the path is in (R31). -/
def Ctx.nextHdr (x : Ctx) : W64 :=
  match x.path.cl with
  | some cl => x.path.pc + BitVec.ofNat 64 (8 * (cl.words.length + 1))
  | none => x.path.pc

/-- The freeze between words behind the issued word (R324): WIDX 0 and the next header when it was the last of its clause. -/
def Ctx.frzAfter (x : Ctx) (n : Nat) (z : Fz) : Freeze :=
  let wi := (x.path.cl.map (·.wi)).getD 0
  { kind := z.kind
    code := z.code
    level := z.level
    widx := if x.left n = 0 then 0 else wi + n
    isB := x.isB
    hdr := if x.left n = 0 then x.nextHdr else x.path.pc
    va := z.va
    header := false
    between := true
    per := z.per }

/-! ## Memory samples (R345) -/

/-- The instruction word the issuer stands at. -/
def Ctx.wordBits (x : Ctx) : W64 :=
  match x.path.cl with
  | some cl => cl.words.getD (cl.wi - 1) 0#64
  | none => 0#64
def Ctx.cls (x : Ctx) : BitVec 4 := x.wordBits.extractLsb' 48 4
def Ctx.op (x : Ctx) : BitVec 6 := x.wordBits.extractLsb' 42 6

/-- The words that sampling counts: CLASS 0x7 and 0x9, ATOM, CAS, LDX and STX. -/
def sampledWord (cls : BitVec 4) (op : BitVec 6) : Bool :=
  cls == 7#4 || cls == 9#4 || (cls == 0xA#4 && (decide (op.toNat ≤ 9) || op == 0x10#6 || op == 0x11#6 || op == 0x12#6))

/-- Whether this issue is sampled: its tag and whether PSAMP forced it (R345, R352). -/
def State.sampleOf (s : State) (x : Ctx) : Option (BitVec 16 × Bool) :=
  let d := s.die x.blk.die
  if d.smpsize = 0 ∨ !sampledWord x.cls x.op then none
  else
    let n := ((s.core x.blk.coreId).part x.coh.part).smp + 1
    match x.coh.psamp with
    | some t => some (t, true)
    | none => if d.smpper.toNat ≠ 0 ∧ n % d.smpper.toNat = 0 then some (0#16, false) else none

/-- The issue counted on its partition, the pending PSAMP used. -/
def State.sampleCount (s : State) (x : Ctx) : State :=
  if !sampledWord x.cls x.op then s
  else
    let k := s.core x.blk.coreId
    let p := k.part x.coh.part
    let s1 := s.setCore x.blk.coreId (k.setPart x.coh.part { p with smp := p.smp + 1 })
    if x.smp.isSome then s1.updCoh x.ref (fun c => { c with psamp := none }) else s1

/-- The words that start the count of unchanged polls again (R302): those that write a location, and those that issue a bulk copy,
a Turret word, an atomic, NSEND, MRING or SPAWN. -/
def unpolls (cls : BitVec 4) (op : BitVec 6) : Bool :=
  match cls.toNat with
  | 0x5 => op == 0x04#6 || op == 0x10#6
  | 0x7 => decide (0x10 ≤ op.toNat) && decide (op.toNat ≤ 0x13)
  | 0x8 => op != 0x03#6 && decide (op.toNat ≤ 0x05)
  | 0x9 => true
  | 0xA => decide (op.toNat ≤ 0x12) || op == 0x18#6
  | 0xB => op == 0x09#6
  | _ => false

/-- The instruction word the issuer stands at. -/
def Ctx.instr (x : Ctx) : Option Instr :=
  match decodeWord x.blk.lim x.wordBits ((x.path.cl.map (fun cl => cl.words.getD cl.wi 0#64)).getD 0#64) with
  | .ok i => some i
  | .error _ => none

/-- The word writes a block-shared register, which is a location (R271). -/
def Ctx.writesB (x : Ctx) : Bool :=
  match x.instr.bind (·.dst) with
  | some (_, .b _) => true
  | _ => false

/-- A word has issued: sampling and the count of unchanged polls. -/
def State.issued (s : State) (x : Ctx) : State :=
  let s1 := s.sampleCount x
  if unpolls x.cls x.op || x.writesB then s1.updCoh x.ref (fun c => { c with polls := 0 }) else s1

/-- One sample record of 64 bytes, as a number (R345): the queue times and REPL are free values (log entry 3). -/
def sampleRec (s : State) (pc : W64) (clk0 : Nat) (exec : W32) (widx : Nat) (cls : BitVec 4) (op : BitVec 6)
    (ident : Nat) (tag : BitVec 16) (sect : Nat) (lastl : Nat) : Nat :=
  let q (i : Nat) : Nat := (Config.freeWord (s.free + i)).toNat % 2 ^ 32
  pc.toNat + (clk0 % 2 ^ 64) * 2 ^ 64 + exec.toNat * 2 ^ 128 + (widx % 2 ^ 16) * 2 ^ 160 + cls.toNat * 2 ^ 176
  + op.toNat * 2 ^ 184 + (ident % 2 ^ 32) * 2 ^ 192 + tag.toNat * 2 ^ 224 + (sect % 2 ^ 16) * 2 ^ 240
  + ((q 5) % 256) * 2 ^ 256 + (lastl % 256) * 2 ^ 264 + q 0 * 2 ^ 288 + q 1 * 2 ^ 320 + q 2 * 2 ^ 352 + q 3 * 2 ^ 384 + q 4 * 2 ^ 416
  + ((s.clk - clk0) % 2 ^ 32) * 2 ^ 448

/-- IDENT of a sample record. -/
def sampleIdent (coh part core die : Nat) (isB forced froze : Bool) : Nat :=
  coh % 32 + (part % 4) * 2 ^ 5 + (core % 256) * 2 ^ 7 + (die % 4) * 2 ^ 15 + (if isB then 2 ^ 17 else 0)
  + (if forced then 2 ^ 18 else 0) + (if froze then 2 ^ 19 else 0)

/-- A record appended to the sample buffer of a die; a full buffer drops it and counts (R345). -/
def State.putSample (s : State) (die : Nat) (r : Nat) : State :=
  let d := s.die die
  if d.smpptr + 64 ≤ d.smpsize then
    let s1 := s.writeBytes .phys (s.physLoc (d.smpbase.toNat + d.smpptr)) (leBytes 64 r)
    { s1.setDie die { d with smpptr := d.smpptr + 64 } with free := s.free + 6 }
  else s.setDie die { d with smpdrop := if d.smpdrop = 0xFFFFFFFF#32 then d.smpdrop else d.smpdrop + 1#32 }

/-- The record of a sampled word that freezes (R345). -/
def State.sampleFroze (s : State) (x : Ctx) : State :=
  match x.smp with
  | none => s
  | some t =>
    s.putSample x.blk.die (sampleRec s x.path.pc s.clk x.exec ((x.path.cl.map (·.wi)).getD 0) x.cls x.op
      (sampleIdent x.ref.coh x.coh.part x.blk.core x.blk.die x.isB t.2 true) t.1 0 0)

/-- The issuing path stands in a wait (R102): at word 1 of its clause it stands at the boundary, where a demotion that waits takes effect
(R240) and a barrier gives the slot to a path of the spill stack (R265). A word behind a prefix stands at the prefix, with which it issues
again (R61). -/
def State.stand (s : State) (x : Ctx) (w : PWait) : State :=
  let back (cl : Clause) : Clause := if cl.dx.isSome then { cl with wi := cl.wi - 1, dx := none } else cl
  let word1 := (x.path.cl.map (fun cl => (back cl).wi)).getD 0 == 1
  (s.updCoh x.ref (fun k =>
    let k1 := { k.setPath x.isB ((k.path x.isB).map (fun p => { p with wait := some w, cl := p.cl.map back })) with mid := !word1 }
    let k2 := if word1 && (k1.path x.isB).any (fun p => p.dem && p.waitsFirst) then k1.demote x.isB else k1
    Cohort.yieldBar k2.spill.length k2)).releaseIssue x.ref

/-- The word in the path's wait has counted already (R55, R60): it issues again for the lanes that it has not sent, or for the records
that it has not appended. -/
def Path.counts (p : Path) : Bool := (p.wait.map (fun w => w.kind == .reply || w.kind == .spawn)).getD false
/-- The word has counted already (R60): it waits for no counter again. -/
def Ctx.counted (x : Ctx) : Bool := x.coh.rinc || x.path.counts

/-! ## Scalar operands from the latch window (R97, R367; log entry 9) -/

/-- The latch entries that scalar fields of the issued word read. -/
def Ctx.scaLatches (x : Ctx) : List (BitVec 3) :=
  (x.instr.map (fun i => i.srcs.filterMap (fun q => match q with
    | (.sca _, .latch n) => some n
    | (.pairSca, .latch n) => some n
    | _ => none))).getD []

/-- A scalar entry of the latch window is poisoned. -/
def Cohort.scaPsn (c : Cohort) (n : Nat) : Bool :=
  match c.latch.getD n .none with
  | .sca _ p => p
  | _ => false

/-- A scalar entry marked poisoned. -/
def Cohort.markSca (c : Cohort) (n : Nat) : Cohort :=
  { c with latch := c.latch.zipIdx.map (fun p => if p.2 = n then (match p.1 with
    | .sca v _ => .sca v true
    | e => e) else p.1) }

/-- A parity error strikes a scalar latch entry that the word reads. -/
def State.scaHit (s : State) (x : Ctx) : Option (BitVec 3) :=
  s.errIn.findSome? (fun e => match e with
    | .parity b c _ (.latch n) => if b = x.ref.blk ∧ c = x.ref.coh ∧ x.scaLatches.contains n then some n else none
    | _ => none)

/-- The check of the scalar latch entries that a word reads: a parity error (kind 0x10, unit 0x06), then a poisoned entry; the operand is
the path's, so FLANE holds EXEC. It comes before the word's other checks. -/
def scaCheck (x : Ctx) (s : State) : Option WRes :=
  match s.scaHit x with
  | some n =>
    let s1 : State := { s with errIn := s.errIn.filter (fun e => match e with
      | .parity b c _ (.latch k) => !(b == x.ref.blk && c == x.ref.coh && k == n)
      | _ => true) }
    let s2 := (s1.updCoh x.ref (fun c => c.markSca n.toNat)).logMc x.blk.die 0x06 1 false 0x0003 none
      (some (mcMisc x.grid.pasid x.blk.core x.coh.part x.blk.isHandler x.ref.coh))
    some (.part s2 (Fz.of kCheck 0x06 x.exec) false)
  | none =>
    if x.coh.latch.any (fun e => match e with
        | .sca _ p => p
        | _ => false) && x.scaLatches.any (fun n => x.coh.scaPsn n.toNat) then some (.trap (Fz.of kPoison 0 x.exec))
    else none

/-- A word of the issuing cohort: it stalls while a counter it waits for is not zero or its own is full (R36, R55); otherwise its body
runs. The words that unfinished matrix words hold are kept back where a step chooses its word (`State.wordStalls`). -/
def word (c : Ctl) (s : State) (body : Ctx → WRes) : Out :=
  match s.ctx with
  | none => .fault .noIssuer
  | some x =>
    if !x.counted && !x.coh.waitOk c.wait then .next s
    else if (match c.set with | some n => x.coh.ctr n.toNat == 63#6 && !x.counted | none => false) then .next s
    else
      let y : Ctx := { x with smp := s.sampleOf x }
      match (scaCheck y s).getD (body y) with
      | .done s' e => .next ((s'.issued y).updCoh x.ref (fun k => k.advance x.isB (ctlLen c) e))
      | .async s' => .next (((s'.issued y).noteOps x.ref x.isB s.nid).updCoh x.ref (fun k => (k.count c.set).advance x.isB (ctlLen c) .none))
      | .trap z => .next (((s.sampleCount y).sampleFroze y).freezeCoh x.ref (x.frz z) z.flane z.pmask z.pidx)
      | .part s' z a =>
        let s1 := ((s'.issued y).noteOps x.ref x.isB s.nid).sampleFroze y
        let s2 := if a then s1.updCoh x.ref (fun k => { k.count c.set with rinc := true }) else s1
        .next (s2.freezeCoh x.ref (x.frz z) z.flane z.pmask z.pidx)
      | .wait s' w => .next (s'.stand x w)
      | .doneFrz s' e a z =>
        let s1 := ((s'.issued y).noteOps x.ref x.isB s.nid).updCoh x.ref (fun k =>
          let k1 := (if a then k.count c.set else k).advance x.isB (ctlLen c) e
          if x.left (ctlLen c) = 0 then k1.closeClause x.isB x.nextHdr else k1)
        .next (s1.freezeCoh x.ref (x.frzAfter (ctlLen c) z) z.flane z.pmask z.pidx)
      | .ctl s' => .next s'

end Sys2Proof.Machine
end

