-- ==== Sys2Proof/Machine/Operands.lean ====
section
/-! DEFINITION. Operands (R41 to R50): what a scalar field and a lane of a vector field read, with tags, poison and tangents;
the operation format of a lane (R48, R160); and what a lane's write does to a register, its tag and its shadows. -/

namespace Sys2Proof.Machine

/-! ## Specials (R42) -/

/-- The spill stack's base in the block allocation (R143). -/
def Block.spillBase (b : Block) (coh : Nat) : Nat := b.cfg.sb + b.nt * b.cfg.pfb + coh * 32 * b.cfg.spd

/-- A special of the cohort; thread-scope specials read through `threadSpecial`. -/
def Ctx.special (x : Ctx) (clk : Nat) (n : BitVec 5) : W64 :=
  match n.toNat with
  | 0x00 => x.path.mask.setWidth 64
  | 0x05 => x.blk.bid.1.setWidth 64
  | 0x06 => x.blk.bid.2.1.setWidth 64
  | 0x07 => x.blk.bid.2.2.setWidth 64
  | 0x08 => BitVec.ofNat 32 x.ref.coh |>.setWidth 64
  | 0x09 => BitVec.ofNat 32 x.blk.ncoh |>.setWidth 64
  | 0x0A => x.coh.pidx.setWidth 64
  | 0x0B => x.coh.pmask.setWidth 64
  | 0x0C => x.coh.flane.setWidth 64
  | 0x0E => BitVec.ofNat 64 clk
  | 0x0F => BitVec.ofNat 32 x.blk.ntid.1 |>.setWidth 64
  | 0x10 => BitVec.ofNat 32 x.blk.ntid.2.1 |>.setWidth 64
  | 0x11 => BitVec.ofNat 32 x.blk.ntid.2.2 |>.setWidth 64
  | 0x12 => BitVec.ofNat 32 x.grid.lrec.gx |>.setWidth 64
  | 0x13 => BitVec.ofNat 32 x.grid.lrec.gy |>.setWidth 64
  | 0x14 => BitVec.ofNat 32 x.grid.lrec.gz |>.setWidth 64
  | 0x15 => BitVec.ofNat 32 x.blk.core |>.setWidth 64
  | 0x16 => BitVec.ofNat 32 x.blk.die |>.setWidth 64
  | 0x17 => BitVec.ofNat 32 x.coh.part |>.setWidth 64
  | 0x19 => BitVec.ofNat 32 x.blk.cfg.dualn |>.setWidth 64
  | 0x1A => if x.isB then 1#64 else 0#64
  | 0x1B => BitVec.ofNat 32 (x.blk.spillBase x.ref.coh + 32 * x.coh.spill.length) |>.setWidth 64
  | 0x1C => BitVec.ofNat 64 x.coh.ncls
  | _ => 0#64

/-- A special as lane `l` reads it: LANE, TID and SEED are its thread's. -/
def Ctx.threadSpecial (x : Ctx) (clk : Nat) (n : BitVec 5) (l : Nat) : W64 :=
  let t := x.coh.thread l
  match n.toNat with
  | 0x01 => BitVec.ofNat 64 l
  | 0x02 => (t.map (·.tid.1.setWidth 64)).getD 0#64
  | 0x03 => (t.map (·.tid.2.1.setWidth 64)).getD 0#64
  | 0x04 => (t.map (·.tid.2.2.setWidth 64)).getD 0#64
  | 0x18 => (t.map (·.seed.setWidth 64)).getD 0#64
  | _ => x.special clk n

/-! ## Inline values (R45, R46) -/

/-- Inline integer n − 16, sign-extended to 64 bits. -/
def inlineInt (n : BitVec 6) : W64 := BitVec.ofInt 64 ((n.toNat : Int) - 16)

/-- The FP32 bits of the inline constants. -/
def fpConsts : List W32 :=
  [0x00000000#32, 0x3F000000#32, 0x3F800000#32, 0x40000000#32, 0x40800000#32, 0x41000000#32, 0x3E800000#32, 0xBF000000#32,
   0xBF800000#32, 0xC0000000#32, 0xC0800000#32, 0x3F317218#32, 0x3FB8AA3B#32, 0x40490FDB#32, 0x3E22F983#32]

def inlineFp (n : BitVec 4) : W32 := fpConsts.getD n.toNat 0#32

/-- An inline FP constant in the format of the operation; none is a format fault (R46). -/
def inlineFpAs (n : BitVec 4) (f : Tag) : Option W64 :=
  let v := Tag.value .f32 false (inlineFp n).toNat
  match f with
  | .f64 => some (BitVec.ofNat 64 (Tag.pack .f64 .rne false false v).bits)
  | .h16 | .b16 =>
    let h := (f.pack .rne false false v).bits
    some (BitVec.ofNat 64 (h + h * 2 ^ 16))
  | .e4m3 | .e5m2 | .f4 | .pt8 => none
  | _ => some ((inlineFp n).setWidth 64)

/-! ## Latches (R50 to R52) -/

/-- ^(n + 1): entry n of the window, the newest first. -/
def Cohort.latchAt (c : Cohort) (n : BitVec 3) : LEnt := c.latch.getD n.toNat .none

/-- A lane of a vector entry: lanes outside EXEC hold zero, RAW and zero tangents (R51). -/
def latchLane (ls : AMap LEl) (l : Nat) : LEl := ls.get l ⟨0#64, .raw, [], false⟩

/-! ## Scalar fields (R41, R162) -/

/-- What a scalar field reads: 64 bits. -/
def Ctx.sca (x : Ctx) (clk : Nat) (lit : Option W64) (src : Src) : W64 :=
  match src with
  | .s n => x.coh.sreg n.toNat
  | .b n => (x.blk.breg n.toNat).setWidth 64
  | .k n => x.coh.kreg n.toNat
  | .special n => x.special clk n
  | .int n => inlineInt n
  | .fp n => (inlineFp n).setWidth 64
  | .lit => lit.getD 0#64
  | .latch n => match x.coh.latchAt n with
    | .sca v _ => v
    | _ => 0#64
  | _ => 0#64

/-! ## Vector fields -/

/-- What one lane of a vector field reads: the value, the tag it carries, its poison mark, its tangents and which of them are
poisoned. -/
structure El where
  val  : W64
  tag  : Option Tag
  psn  : Bool
  tan  : AMap W64
  tpsn : List Nat
deriving DecidableEq, Repr

/-- A value without a tag (R48, R220). -/
def El.plain (v : W64) : El := ⟨v, none, false, [], []⟩

/-- The value of a register, with the odd register of its pair as the high half. -/
def pairVal (lo hi : W32) : W64 := (hi ++ lo : BitVec 64)

/-- The tangent indices a register can have. -/
def tanIdx : List Nat := [1, 2, 3, 4]

/-- Register v(n) of a thread as an operand of 32 or 64 bits (R44). DESIGN CHOICE (log entry 69): where the two registers of a
pair carry different tags, a .b64 move (R169) writes the even register's. -/
def Thread.el (t : Thread) (wide : Bool) (n : Nat) : El :=
  let a := t.vreg n
  if wide then
    let b := t.vreg (n + 1)
    { val := pairVal a.val b.val
      tag := some a.tag
      psn := a.psn || b.psn
      tan := tanIdx.filterMap (fun k =>
        let v := pairVal (a.tan.get k 0#32) (b.tan.get k 0#32)
        if v = 0#64 then none else some (k, v))
      tpsn := tanIdx.filter (fun k => a.tpsn.contains k || b.tpsn.contains k) }
  else
    { val := a.val.setWidth 64
      tag := some a.tag
      psn := a.psn
      tan := a.tan.map (fun p => (p.1, p.2.setWidth 64))
      tpsn := a.tpsn }

/-- The low 32 bits, or all 64. -/
def narrow (wide : Bool) (v : W64) : W64 := if wide then v else (v.setWidth 32).setWidth 64

/-- What lane `l` reads from a vector field of 32 or 64 bits (R41, R44, R45, R47); a lane without a thread reads 0, RAW. -/
def Ctx.el (x : Ctx) (clk : Nat) (lit : Option W64) (wide : Bool) (l : Nat) (src : Src) : El :=
  match src with
  | .v n => match x.coh.thread l with
    | some t => t.el wide n.toNat
    | none => ⟨0#64, some .raw, false, [], []⟩
  | .special n => .plain (narrow wide (x.threadSpecial clk n l))
  | .latch n => match x.coh.latchAt n with
    | .vec ls =>
      let e := latchLane ls l
      ⟨narrow wide e.val, some e.tag, e.psn, e.tan, []⟩
    | .sca v p => { El.plain (narrow wide v) with psn := p }
    | .none => .plain 0#64
  | s => .plain (narrow wide (x.sca clk lit s))

/-- What lane `l` reads from a field of the floating-point or packed format `f`; none is a format fault (R41, R44, R46, R74). -/
def Ctx.elFmt (x : Ctx) (clk : Nat) (lit : Option W64) (f : Tag) (l : Nat) (src : Src) : Option El :=
  let wide := f == .f64
  let e := x.el clk lit wide l src
  match src with
  | .v n =>
    if e.tag ≠ some f then none
    else if wide then
      (if n.toNat % 2 = 1 ∨ (x.el clk lit false l (.v (n + 1#8))).tag ≠ some .f64 then none else some e)
    else some e
  | .latch _ => if e.tag.isSome && e.tag != some f then none else some e
  | .b _ => if wide then none else some e
  | .fp n => (inlineFpAs n f).map El.plain
  | _ => some e

/-- The operation format of a lane: the tag of the first format source that has one, else the default (R48, R160). -/
def Ctx.fmt (x : Ctx) (clk : Nat) (l : Nat) (dflt : Tag) : List Src → Tag
  | [] => dflt
  | src :: r => match (x.el clk none false l src).tag with
    | some t => t
    | none => x.fmt clk l dflt r

/-- The tag a moved value has: its own, F32 for an inline FP constant, else RAW (R46, R169). -/
def El.moved (e : El) (src : Src) : Tag :=
  match e.tag with
  | some t => t
  | none => match src with
    | .fp _ => .f32
    | _ => .raw

/-! ## The tangents a word acts on (R217 to R219, R223) -/

/-- The DX mode: the prefix's, else PROP. -/
def Ctx.dxMode (x : Ctx) : DxMode :=
  match x.path.cl.bind (·.dx) with
  | some p => p.1
  | none => .prop

/-- The tangents 1 to 4 that a mask names. -/
def maskTans (m : BitVec 4) : List Nat := tanIdx.filter (fun k => m.getLsbD (k - 1))

/-- The tangents the word acts on: those of the prefix, else 1 to DUALN. -/
def Ctx.tans (x : Ctx) : List Nat :=
  match x.path.cl.bind (·.dx) with
  | some p => maskTans p.2
  | none => tanIdx.filter (fun k => decide (k ≤ x.blk.cfg.dualn))

/-- The tangents whose rule the word computes: PROP and TONLY. -/
def Ctx.want (x : Ctx) : List Nat :=
  match x.dxMode with
  | .prop | .tonly => x.tans
  | _ => []

/-- A tangent of an operand. -/
def El.t (e : El) (k : Nat) : W64 := e.tan.get k 0#64
/-- A tangent of an operand as a number. -/
def El.tn (e : El) (k : Nat) : Nat := (e.t k).toNat
/-- One of the given tangents is poisoned. -/
def El.tpoisoned (e : El) (ks : List Nat) : Bool := ks.any (fun k => e.tpsn.contains k)
/-- The operand, or a tangent the word reads, is poisoned. -/
def El.poisoned (e : El) (ks : List Nat) : Bool := e.psn || e.tpoisoned ks

/-! ## Writing a lane -/

/-- A register written: the primal with its tag and poison mark unless it is kept; the tangents given, each with its mark. -/
def VReg.put (r : VReg) (primal : Option (W32 × Tag × Bool)) (tans : AMap (W32 × Bool)) : VReg :=
  let r1 := match primal with
    | some p => { r with val := p.1, tag := p.2.1, psn := p.2.2 }
    | none => r
  { r1 with
    tan := tans.foldl (fun m p => if p.2.1 = 0#32 then m.del p.1 else m.set p.1 p.2.1) r1.tan
    tpsn := tans.foldl (fun m p => if p.2.2 then setIns m p.1 else setDel m p.1) r1.tpsn }

/-- v(n), or the pair from v(n), written in a thread. -/
def Thread.putV (t : Thread) (n : Nat) (wide : Bool) (primal : Option (W64 × Tag × Bool)) (tans : AMap (W64 × Bool)) : Thread :=
  let lo := (t.vreg n).put (primal.map (fun p => (p.1.setWidth 32, p.2))) (tans.map (fun q => (q.1, q.2.1.setWidth 32, q.2.2)))
  let t1 := t.setV n lo
  if wide then
    t1.setV (n + 1) ((t.vreg (n + 1)).put (primal.map (fun p => (p.1.extractLsb' 32 32, p.2)))
      (tans.map (fun q => (q.1, q.2.1.extractLsb' 32 32, q.2.2))))
  else t1

/-- A vector destination written in a thread: a register, SEED (R79), or nothing (NWB, R53). -/
def Thread.putD (t : Thread) (d : Dst) (wide : Bool) (primal : Option (W64 × Tag × Bool)) (tans : AMap (W64 × Bool)) : Thread :=
  match d with
  | .v n => t.putV n.toNat wide primal tans
  | .seed => match primal with
    | some p => { t with seed := p.1.setWidth 32 }
    | none => t
  | _ => t

/-- A scalar destination written by a cohort: s, b (bits [31:0]), k, or nothing (R149, R150, R162). -/
def State.putS (s : State) (r : CohRef) (d : Dst) (v : W64) : State :=
  match d with
  | .s n => s.updCoh r (fun c => c.setS n.toNat v)
  | .k n => s.updCoh r (fun c => c.setK n.toNat v)
  | .b n => match s.block r.blk with
    | some b => s.setBlock r.blk (b.setB n.toNat (v.setWidth 32))
    | none => s
  | _ => s

/-- 1.0 in every element of a format with tangents, 0 for another tag (R223, R231). -/
def tagOnes (t : Tag) : W64 :=
  match t with
  | .f32 => 0x3F800000#64
  | .f64 => 0x3FF0000000000000#64
  | .h16 => 0x3C003C00#64
  | .b16 => 0x3F803F80#64
  | _ => 0#64

end Sys2Proof.Machine
end

