-- ==== Sys2Proof/Machine/Flags.lean ====
section
/-! DEFINITION. Conditions, traps and masks: the arithmetic conditions of a word and their trap (R78), the order of the checks
of R161, the physical errors a word can meet (R365 to R367), the masks of compares (R169, R173), and the write of a vector
result in the mode of its DX prefix (R223, R224). -/

namespace Sys2Proof.Machine

/-! ## Arithmetic traps (R78) -/

/-- The enabled conditions met, over all lanes: CODE. -/
def trapCode (en : Cnd) (cs : AMap Cnd) : Cnd := cs.foldl (fun m p => m ||| (p.2 &&& en)) 0#3

/-- The lanes that met an enabled condition: FLANE. -/
def trapLanes (en : Cnd) (cs : AMap Cnd) : W32 := maskOf (AMap.keys (cs.filter (fun p => p.2 &&& en != 0#3)))

/-- The arithmetic trap of a word, if an enabled condition was met. -/
def trapOf (en : Cnd) (cs : AMap Cnd) : Option Fz :=
  let code := trapCode en cs
  if code = 0#3 then none else some (Fz.of kArith code.toNat (trapLanes en cs))

/-! ## Compares -/

/-- A condition over signed or unsigned integers (R163, R169). -/
def condHolds (c : Cond) (a b : Int) : Bool :=
  match c with
  | .eq => a == b
  | .ne => a != b
  | .lt => decide (a < b)
  | .le => decide (a ≤ b)
  | .gt => decide (b < a)
  | .ge => decide (b ≤ a)

/-- A condition over floating-point values (R173). -/
def fcondHolds (c : FCond) (a b : FVal) : Bool :=
  let nan := a.isNan || b.isNan
  let o := fCmp a b
  match c with
  | .eq => !nan && o == 0
  | .ne => nan || o != 0
  | .lt => !nan && decide (o < 0)
  | .le => !nan && decide (o ≤ 0)
  | .gt => !nan && decide (0 < o)
  | .ge => !nan && decide (0 ≤ o)
  | .ord => !nan
  | .uno => nan

/-! ## Physical errors (R365 to R367; log entry 9) -/

/-- A residue mismatch about to strike a cohort: its lane and whether the re-execution fails too. -/
def State.residueHit (s : State) (r : CohRef) : Option (Nat × Bool) :=
  s.errIn.findSome? (fun e => match e with
    | .residue b c l again => if b = r.blk ∧ c = r.coh then some (l, again) else none
    | _ => none)

/-- The residue errors of a cohort taken out of those about to strike. -/
def State.dropResidue (s : State) (r : CohRef) : State :=
  { s with errIn := s.errIn.filter (fun e => match e with
    | .residue b c _ _ => !(b == r.blk && c == r.coh)
    | _ => true) }

/-- MCMISC of the issuer. -/
def Ctx.misc (x : Ctx) : W64 := mcMisc x.grid.pasid x.blk.core x.coh.part x.blk.isHandler x.ref.coh

/-- The residue check of a unit (R366): passed, corrected with a record, or a check fault. -/
def residueCheck (x : Ctx) (s : State) (unit : Nat) : Except WRes State :=
  if unit = 0 then .ok s
  else
    match s.residueHit x.ref with
    | none => .ok s
    | some (l, again) =>
      let s1 := s.dropResidue x.ref
      if again then .error (.part (s1.logMc x.blk.die unit 1 false 0x0002 none (some x.misc)) (Fz.of kCheck unit (maskOf [l])) false)
      else .ok (s1.logMc x.blk.die unit 0 false 0x0001 none (some x.misc))

/-- The lanes and registers with a parity error that the word reads (R367): vector registers, latch entries and matrix registers
among its sources. -/
def State.parityHits (s : State) (r : CohRef) (srcs : List Src) (lanes : List Nat) : List (Nat × Src) :=
  s.errIn.filterMap (fun e => match e with
    | .parity b c l v => if b = r.blk ∧ c = r.coh ∧ lanes.contains l ∧ srcs.contains v then some (l, v) else none
    | _ => none)

/-- The unit of the structure that holds a register (R369). -/
def parityUnit : Src → Nat
  | .latch _ => 0x06
  | .m _ => 0x07
  | _ => 0x05

/-- A latch entry with a lane marked poisoned. -/
def LEnt.markPsn (e : LEnt) (l : Nat) : LEnt :=
  match e with
  | .vec ls => .vec (ls.upd l (fun x => { x with psn := true }))
  | .sca v _ => .sca v true
  | .none => .none

/-- A register of a lane marked poisoned. -/
def Cohort.markPsn (c : Cohort) (l : Nat) (r : Src) : Cohort :=
  match r with
  | .v n => c.updThread l (fun t => t.setV n.toNat { t.vreg n.toNat with psn := true })
  | .m n => c.updThread l (fun t => t.setM n.toNat { t.mreg n.toNat with psn := true })
  | .latch n => { c with latch := c.latch.zipIdx.map (fun p => if p.2 = n.toNat then p.1.markPsn l else p.1) }
  | _ => c

/-- The parity check of the registers a word reads (R367). -/
def parityCheck (x : Ctx) (s : State) (srcs : List Src) (lanes : List Nat) : Except WRes State :=
  match s.parityHits x.ref srcs lanes with
  | [] => .ok s
  | h :: hs =>
    let u := parityUnit h.2
    let hits := (h :: hs).filter (fun p => parityUnit p.2 == u)
    let s1 : State := { s with errIn := s.errIn.filter (fun e => match e with
      | .parity b c l v => !(b == x.ref.blk && c == x.ref.coh && hits.contains (l, v))
      | _ => true) }
    let s2 := s1.updCoh x.ref (fun c => hits.foldl (fun c p => c.markPsn p.1 p.2) c)
    .error (.part (s2.logMc x.blk.die u 1 false 0x0003 none (some x.misc)) (Fz.of kCheck u (maskOf (hits.map (·.1)))) false)

/-! ## Results of vector words -/

/-- What one lane of a vector word computes: the value (64 bits when it writes a pair), its tag, the tangents of its rule,
whether an operand is poisoned, the conditions met, and whether the lane keeps its destination (MOVS). -/
structure LRes where
  val  : W64
  wide : Bool
  tag  : Tag
  tan  : AMap W64
  psn  : Bool
  c    : Cnd
  keep : Bool
deriving DecidableEq, Repr

/-- A result without tangents or conditions. -/
def LRes.plain (v : W64) (tag : Tag) (psn : Bool) : LRes := ⟨v, false, tag, [], psn, 0#3, false⟩

/-- The tag of a destination register. -/
def Ctx.dstTag (x : Ctx) (l : Nat) (d : Dst) : Option Tag :=
  match d with
  | .v n => (x.coh.thread l).map (fun t => (t.vreg n.toNat).tag)
  | _ => none

/-- The destination fits the lane's result: a pair at an even register (R44); under TONLY the tag that the result would carry
(R224). -/
def Ctx.dstFits (x : Ctx) (d : Dst) (l : Nat) (r : LRes) : Bool :=
  let pairOk := match d with
    | .v n => !r.wide || n.toNat % 2 == 0
    | .seed => !r.wide
    | _ => true
  let tonlyOk := match x.dxMode with
    | .tonly => r.keep || (match x.dstTag l d with
      | some t => t == r.tag && (!r.wide || (match d with
        | .v n => x.dstTag l (.v (n + 1#8)) == some r.tag
        | _ => true))
      | none => true)
    | _ => true
  pairOk && tonlyOk

/-- The lanes whose format check fails (R75): FLANE holds every one. -/
def badLanes (x : Ctx) (d : Dst) (rs : AMap (Option LRes)) : W32 :=
  maskOf (AMap.keys (rs.filter (fun p => match p.2 with
    | none => true
    | some r => !x.dstFits d p.1 r)))

/-- The results that are there. -/
def okRes (rs : AMap (Option LRes)) : AMap LRes :=
  rs.filterMap (fun p => match p.2 with
    | some r => some (p.1, r)
    | none => none)

/-- The lanes of poisoned operands. -/
def psnLanes (rs : AMap LRes) : W32 := maskOf (AMap.keys (rs.filter (fun p => p.2.psn)))

/-- The checks of a vector word in the order of R161: parity, format, poison, residue, arithmetic traps. -/
def vecChecks (x : Ctx) (s : State) (unit : Nat) (d : Dst) (srcs : List Src) (lanes : List Nat) (rs : AMap (Option LRes)) : Except WRes State :=
  match parityCheck x s srcs lanes with
  | .error e => .error e
  | .ok s1 =>
    let bad := badLanes x d rs
    if bad ≠ 0#32 then .error (.trap (Fz.of kFormat 0 bad))
    else
      let ok := okRes rs
      let psn := psnLanes ok
      if psn ≠ 0#32 then .error (.trap (Fz.of kPoison 0 psn))
      else
        match residueCheck x s1 unit with
        | .error e => .error e
        | .ok s2 =>
          match trapOf x.grid.lrec.trapen (ok.map (fun p => (p.1, p.2.c))) with
          | some z => .error (.trap z)
          | none => .ok s2

/-- The tangents a write gives its destination in a mode (R223). -/
def modeTans (mode : DxMode) (ks : List Nat) (tag : Tag) (tan : AMap W64) : AMap W64 :=
  match mode with
  | .stop => ks.map (fun k => (k, 0#64))
  | .seed => ks.map (fun k => (k, tagOnes tag))
  | _ => ks.map (fun k => (k, tan.get k 0#64))

/-- The tangents a lane's write gives its destination. -/
def Ctx.newTans (x : Ctx) (r : LRes) : AMap W64 := modeTans x.dxMode x.tans r.tag r.tan

/-- A lane's result written (R223, R224): under TONLY the primal stays. -/
def Ctx.putLane (x : Ctx) (d : Dst) (t : Thread) (r : LRes) : Thread :=
  if r.keep then t
  else
    let tans := (x.newTans r).map (fun p => (p.1, p.2, false))
    t.putD d r.wide (if x.dxMode = .tonly then none else some (r.val, r.tag, false)) tans

/-- The lane's part of the latch entry (R51, R224): under TONLY the old primal with its poison mark. -/
def Ctx.latchEl (x : Ctx) (d : Dst) (t : Thread) (r : LRes) : LEl :=
  let old : W64 × Bool := match x.dxMode, d with
    | .tonly, .v n => let e := t.el r.wide n.toNat; (e.val, e.psn)
    | .tonly, .seed => (t.seed.setWidth 64, false)
    | _, _ => (r.val, false)
  ⟨old.1, r.tag, (x.newTans r).filter (fun p => p.2 != 0#64), old.2⟩

/-- The lanes' results written in a cohort. -/
def Ctx.putLanes (x : Ctx) (d : Dst) (rs : AMap LRes) (c : Cohort) : Cohort :=
  rs.foldl (fun c p => c.updThread p.1 (fun t => x.putLane d t p.2)) c

/-- The vector entry a word pushes. -/
def Ctx.latchVec (x : Ctx) (d : Dst) (rs : AMap LRes) : LEnt :=
  .vec (rs.filterMap (fun p => (x.coh.thread p.1).map (fun t => (p.1, if p.2.keep then ⟨p.2.val, p.2.tag, p.2.tan, false⟩ else x.latchEl d t p.2))))

/-- The body of an interlocked word with a vector destination (R161): the lanes it reads, what it does beside. -/
def vecBody (s : State) (unit : Nat) (d : Dst) (srcs : List Src) (lanes : List Nat) (pre : State → State)
    (f : Ctx → Nat → Option LRes) (x : Ctx) : WRes :=
  let rs := x.lanes.map (fun l => (l, f x l))
  match vecChecks x s unit d srcs lanes rs with
  | .error e => e
  | .ok s1 =>
    let ok := okRes rs
    .done ((pre s1).updCoh x.ref (x.putLanes d ok)) (x.latchVec d ok)

/-- An interlocked word with a vector destination that reads the lanes of EXEC. -/
def vecWord (c : Ctl) (s : State) (unit : Nat) (d : Dst) (srcs : List Src) (f : Ctx → Nat → Option LRes) : Out :=
  word c s (fun x => vecBody s unit d srcs x.lanes id f x)

/-- An interlocked word that reads lanes and writes one scalar (R161): each lane's result carries its checks, `fin` makes the
scalar of them. -/
def maskWord (c : Ctl) (s : State) (unit : Nat) (d : Dst) (srcs : List Src) (f : Ctx → Nat → Option LRes)
    (fin : AMap LRes → W64) : Out :=
  word c s (fun x =>
    let rs := x.lanes.map (fun l => (l, f x l))
    match vecChecks x s unit d srcs x.lanes rs with
    | .error e => e
    | .ok s1 =>
      let v := fin (okRes rs)
      .done (s1.putS x.ref d v) (.sca v false))

/-- The mask of the lanes whose result is not zero (R169, R173). -/
def laneMask (rs : AMap LRes) : W64 := (maskOf (AMap.keys (rs.filter (fun p => p.2.val != 0#64)))).setWidth 64

/-- A scalar word (R162): once for the path, whatever EXEC holds. -/
def scaWord (c : Ctl) (s : State) (unit : Nat) (d : Dst) (f : Ctx → W64) : Out :=
  word c s (fun x =>
    match residueCheck x s unit with
    | .error e => e
    | .ok s1 =>
      let v := f x
      .done (s1.putS x.ref d v) (.sca v false))

end Sys2Proof.Machine
end

