-- ==== Sys2Proof/Machine/Scalar.lean ====
section
/-! DEFINITION. CLASS 0x0, the scalar words (R162 to R164): 64-bit results modulo 2^64, once for the issuing path. -/

namespace Sys2Proof.Machine

/-- The residue units of the scalar adder and multiplier (R369). -/
def uAdd : Nat := 0x01
def uMul : Nat := 0x02

/-- A scalar word of two operands. -/
def scaBin (c : Ctl) (s : State) (unit : Nat) (d : Dst) (a b : Src) (f : W64 → W64 → W64) : Out :=
  scaWord c s unit d (fun x => f (x.sca s.clk c.lit a) (x.sca s.clk c.lit b))

/-- A scalar word of one operand. -/
def scaUn (c : Ctl) (s : State) (d : Dst) (a : Src) (f : W64 → W64) : Out :=
  scaWord c s 0 d (fun x => f (x.sca s.clk c.lit a))

/-- The shift amount SB[7:0] (R163). -/
def shAmt (b : W64) : Nat := (b.extractLsb' 0 8).toNat

/-- A logical shift left; 64 or more gives 0. -/
def shl64 (a b : W64) : W64 := if 64 ≤ shAmt b then 0#64 else a <<< shAmt b
/-- A logical shift right; 64 or more gives 0. -/
def shr64 (a b : W64) : W64 := if 64 ≤ shAmt b then 0#64 else a >>> shAmt b
/-- An arithmetic shift right; 64 or more gives 64 copies of the sign. -/
def sar64 (a b : W64) : W64 := a.sshiftRight (if 64 ≤ shAmt b then 63 else shAmt b)

/-- The lesser of two words, signed or unsigned. -/
def min64 (u : Bool) (a b : W64) : W64 := if (if u then a.ule b else a.sle b) then a else b
/-- The greater of two words. -/
def max64 (u : Bool) (a b : W64) : W64 := if (if u then b.ule a else b.sle a) then a else b

/-- The integer of a 64-bit word. -/
def int64 (u : Bool) (a : W64) : Int := if u then (a.toNat : Int) else a.toInt

/-- SADD (R163). -/
def execSadd (c : Ctl) (d : Dst) (a b : Src) (s : State) : Out := scaBin c s uAdd d a b (fun x y => x + y)
/-- SSUB (R163). -/
def execSsub (c : Ctl) (d : Dst) (a b : Src) (s : State) : Out := scaBin c s uAdd d a b (fun x y => x - y)
/-- SMUL (R163). -/
def execSmul (c : Ctl) (d : Dst) (a b : Src) (s : State) : Out := scaBin c s uMul d a b (fun x y => x * y)
/-- SMIN (R163). -/
def execSmin (c : Ctl) (u : Bool) (d : Dst) (a b : Src) (s : State) : Out := scaBin c s 0 d a b (min64 u)
/-- SMAX (R163). -/
def execSmax (c : Ctl) (u : Bool) (d : Dst) (a b : Src) (s : State) : Out := scaBin c s 0 d a b (max64 u)
/-- SAND (R163). -/
def execSand (c : Ctl) (d : Dst) (a b : Src) (s : State) : Out := scaBin c s 0 d a b (fun x y => x &&& y)
/-- SOR (R163). -/
def execSor (c : Ctl) (d : Dst) (a b : Src) (s : State) : Out := scaBin c s 0 d a b (fun x y => x ||| y)
/-- SXOR (R163). -/
def execSxor (c : Ctl) (d : Dst) (a b : Src) (s : State) : Out := scaBin c s 0 d a b (fun x y => x ^^^ y)
/-- SANDN: SA AND NOT SB (R163). -/
def execSandn (c : Ctl) (d : Dst) (a b : Src) (s : State) : Out := scaBin c s 0 d a b (fun x y => x &&& ~~~y)
/-- SNOT (R163). -/
def execSnot (c : Ctl) (d : Dst) (a : Src) (s : State) : Out := scaUn c s d a (fun x => ~~~x)
/-- SSHL (R163). -/
def execSshl (c : Ctl) (d : Dst) (a b : Src) (s : State) : Out := scaBin c s 0 d a b shl64
/-- SSHR (R163). -/
def execSshr (c : Ctl) (d : Dst) (a b : Src) (s : State) : Out := scaBin c s 0 d a b shr64
/-- SSAR (R163). -/
def execSsar (c : Ctl) (d : Dst) (a b : Src) (s : State) : Out := scaBin c s 0 d a b sar64
/-- SMOV (R163): also to and from the ring registers, which are not checked when written (R150). -/
def execSmov (c : Ctl) (d : Dst) (a : Src) (s : State) : Out := scaUn c s d a (fun x => x)
/-- SSEL (R163). -/
def execSsel (c : Ctl) (d : Dst) (p a b : Src) (s : State) : Out :=
  scaWord c s 0 d (fun x => if x.sca s.clk c.lit p ≠ 0#64 then x.sca s.clk c.lit a else x.sca s.clk c.lit b)
/-- SPOPC (R163). -/
def execSpopc (c : Ctl) (d : Dst) (a : Src) (s : State) : Out := scaUn c s d a (fun x => BitVec.ofNat 64 (popcount x))
/-- SFFS: the lowest set bit, 64 for 0 (R163). -/
def execSffs (c : Ctl) (d : Dst) (a : Src) (s : State) : Out := scaUn c s d a (fun x => BitVec.ofNat 64 (lowBit x))
/-- SFLS: the highest set bit, 64 for 0 (R163). -/
def execSfls (c : Ctl) (d : Dst) (a : Src) (s : State) : Out := scaUn c s d a (fun x => BitVec.ofNat 64 (highBit x))

/-- SRDLANE (R164): one lane's element, whatever EXEC and its tag, 0 where it holds no thread; poison faults with FLANE = EXEC. -/
def execSrdlane (c : Ctl) (w : Bool) (d : Dst) (a l : Src) (s : State) : Out :=
  word c s (fun x =>
    let q := (x.sca s.clk c.lit l).toNat % 32
    let e := x.el s.clk c.lit w q a
    match parityCheck x s [a] [q] with
    | .error r => r
    | .ok s1 =>
      let v := if (x.coh.thread q).isNone then 0#64 else e.val
      if e.psn then .trap (Fz.of kPoison 0 x.exec) else .done (s1.putS x.ref d v) (.sca v false))

/-- SCMP: 1 when the condition holds (R163). -/
def execScmp (c : Ctl) (cc : Cond) (u : Bool) (d : Dst) (a b : Src) (s : State) : Out :=
  scaBin c s 0 d a b (fun x y => if condHolds cc (int64 u x) (int64 u y) then 1#64 else 0#64)

end Sys2Proof.Machine
end

