-- ==== Sys2Proof/Machine/IntVec.lean ====
section
/-! DEFINITION. CLASS 0x1, the integer vector words (R165 to R169): element arithmetic, bitwise and bit-field words, compares,
selects and moves. -/

namespace Sys2Proof.Machine

/-! ## Element types (R165) -/

/-- The element width of a TYPE. -/
def ityW : IType → Nat
  | .i32 | .n32 => 32
  | .i8 | .n8 => 8
  | .i4 => 4
/-- Whether a TYPE is signed. -/
def itySigned : IType → Bool
  | .n32 | .n8 => false
  | _ => true
/-- The result tag. -/
def ityTag : IType → Tag
  | .i32 => .i32
  | .n32 => .n32
  | .i8 | .n8 => .i8
  | .i4 => .i4
/-- The accepted source tags. -/
def ityAccepts (ty : IType) (t : Tag) : Bool :=
  match ty with
  | .i32 | .n32 => t == .raw || t == .i32 || t == .n32
  | .i8 | .n8 => t == .raw || t == .i8
  | .i4 => t == .raw || t == .i4

/-- An operand's tag is accepted: untagged sources are read in the operation's format (R48, R74). -/
def El.accepted (e : El) (ok : Tag → Bool) : Bool :=
  match e.tag with
  | some t => ok t
  | none => true

/-- A word of 32 bits applied to each element of width `w`. -/
def eachEl (w : Nat) (f : Nat → Nat → Nat → Nat) (a b e : W64) : W64 :=
  BitVec.ofNat 64 ((List.range (32 / w)).foldl (fun n i =>
    n + (f (bitsAt a.toNat (i * w) w) (bitsAt b.toNat (i * w) w) (bitsAt e.toNat (i * w) w) % 2 ^ w) * 2 ^ (i * w)) 0)

/-- A lane of an integer word of up to three operands (R165, R166): tags checked, elements computed, tangents 0 (R188). -/
def intLane (c : Ctl) (s : State) (x : Ctx) (l : Nat) (srcs : List Src) (ok : Tag → Bool) (tag : Tag)
    (f : W64 → W64 → W64 → W64) : Option LRes :=
  let es := srcs.map (fun a => x.el s.clk c.lit false l a)
  if es.all (fun e => e.accepted ok) then
    let v (n : Nat) : W64 := ((es[n]?).map (·.val)).getD 0#64
    some (.plain (narrow false (f (v 0) (v 1) (v 2))) tag (es.any (·.psn)))
  else none

/-- An integer vector word. -/
def intWord (c : Ctl) (s : State) (unit : Nat) (d : Dst) (srcs : List Src) (ok : Tag → Bool) (tag : Tag)
    (f : W64 → W64 → W64 → W64) : Out :=
  vecWord c s unit d srcs (fun x l => intLane c s x l srcs ok tag f)

/-- An element word of a TYPE. -/
def elWord (c : Ctl) (s : State) (unit : Nat) (ty : IType) (d : Dst) (srcs : List Src) (f : Int → Int → Int → Nat) : Out :=
  let w := ityW ty
  let g := itySigned ty
  intWord c s unit d srcs (ityAccepts ty) (ityTag ty) (eachEl w (fun a b e => f (elInt w g a) (elInt w g b) (elInt w g e)))

/-- Wrapped, or clamped with .sat (R166). -/
def fitEl (sat : Bool) (ty : IType) (v : Int) : Nat := if sat then satInt (ityW ty) (itySigned ty) v else wrapInt (ityW ty) v

/-- IADD (R166). -/
def execIadd (c : Ctl) (sat : Bool) (ty : IType) (d : Dst) (a b : Src) (s : State) : Out :=
  elWord c s uAdd ty d [a, b] (fun x y _ => fitEl sat ty (x + y))
/-- ISUB (R166). -/
def execIsub (c : Ctl) (sat : Bool) (ty : IType) (d : Dst) (a b : Src) (s : State) : Out :=
  elWord c s uAdd ty d [a, b] (fun x y _ => fitEl sat ty (x - y))
/-- IMUL (R166). -/
def execImul (c : Ctl) (sat : Bool) (ty : IType) (d : Dst) (a b : Src) (s : State) : Out :=
  elWord c s uMul ty d [a, b] (fun x y _ => fitEl sat ty (x * y))
/-- IMULH: bits [63:32] of the product (R166). -/
def execImulh (c : Ctl) (ty : IType) (d : Dst) (a b : Src) (s : State) : Out :=
  elWord c s uMul ty d [a, b] (fun x y _ => wrapInt 32 ((x * y) / 4294967296))
/-- IMAD: bits [31:0] of a × b + c (R166). -/
def execImad (c : Ctl) (u : Bool) (d : Dst) (a b e : Src) (s : State) : Out :=
  elWord c s uMul (if u then .n32 else .i32) d [a, b, e] (fun x y z => wrapInt 32 (x * y + z))

/-- The quotient of IDIV (R167). -/
def idivRes (ty : IType) (a b : Int) : Nat :=
  if b = 0 then
    (match ty with
    | .n32 => 0xFFFFFFFF
    | _ => if 0 ≤ a then 0x7FFFFFFF else 0x80000000)
  else wrapInt 32 (a.tdiv b)
/-- The remainder of IREM (R167). -/
def iremRes (a b : Int) : Nat := if b = 0 then wrapInt 32 a else wrapInt 32 (a.tmod b)

/-- IDIV (R167). -/
def execIdiv (c : Ctl) (ty : IType) (d : Dst) (a b : Src) (s : State) : Out :=
  elWord c s 0 ty d [a, b] (fun x y _ => idivRes ty x y)
/-- IREM (R167). -/
def execIrem (c : Ctl) (ty : IType) (d : Dst) (a b : Src) (s : State) : Out :=
  elWord c s 0 ty d [a, b] (fun x y _ => iremRes x y)
/-- IMIN (R166). -/
def execImin (c : Ctl) (ty : IType) (d : Dst) (a b : Src) (s : State) : Out :=
  elWord c s 0 ty d [a, b] (fun x y _ => wrapInt (ityW ty) (if x ≤ y then x else y))
/-- IMAX (R166). -/
def execImax (c : Ctl) (ty : IType) (d : Dst) (a b : Src) (s : State) : Out :=
  elWord c s 0 ty d [a, b] (fun x y _ => wrapInt (ityW ty) (if y ≤ x then x else y))
/-- IABS (R166). -/
def execIabs (c : Ctl) (sat : Bool) (ty : IType) (d : Dst) (a : Src) (s : State) : Out :=
  elWord c s uAdd ty d [a] (fun x _ _ => fitEl sat ty (x.natAbs : Int))

/-! ## Bitwise, shift and bit-field words (R168) -/

/-- A bitwise word: any tag is accepted, the result is RAW. -/
def bitWord (c : Ctl) (s : State) (d : Dst) (srcs : List Src) (f : W64 → W64 → W64 → W64) : Out :=
  intWord c s 0 d srcs (fun _ => true) .raw f

/-- AND (R168). -/
def execVand (c : Ctl) (d : Dst) (a b : Src) (s : State) : Out := bitWord c s d [a, b] (fun x y _ => x &&& y)
/-- OR (R168). -/
def execVor (c : Ctl) (d : Dst) (a b : Src) (s : State) : Out := bitWord c s d [a, b] (fun x y _ => x ||| y)
/-- XOR (R168). -/
def execVxor (c : Ctl) (d : Dst) (a b : Src) (s : State) : Out := bitWord c s d [a, b] (fun x y _ => x ^^^ y)
/-- ANDN (R168): a AND NOT b. -/
def execVandn (c : Ctl) (d : Dst) (a b : Src) (s : State) : Out := bitWord c s d [a, b] (fun x y _ => x &&& ~~~y)
/-- NOT (R168). -/
def execVnot (c : Ctl) (d : Dst) (a : Src) (s : State) : Out := bitWord c s d [a] (fun x _ _ => ~~~x)
/-- SHL (R168). -/
def execShl (c : Ctl) (d : Dst) (a b : Src) (s : State) : Out :=
  bitWord c s d [a, b] (fun x y _ => if 32 ≤ shAmt y then 0#64 else x <<< shAmt y)
/-- SHR (R168). -/
def execShr (c : Ctl) (d : Dst) (a b : Src) (s : State) : Out :=
  bitWord c s d [a, b] (fun x y _ => if 32 ≤ shAmt y then 0#64 else x >>> shAmt y)
/-- SAR (R168). -/
def execSar (c : Ctl) (d : Dst) (a b : Src) (s : State) : Out :=
  bitWord c s d [a, b] (fun x y _ => (x.setWidth 32 |>.sshiftRight (if 32 ≤ shAmt y then 31 else shAmt y)).setWidth 64)
/-- ROT: rotate left by b[4:0] (R168). -/
def execRot (c : Ctl) (d : Dst) (a b : Src) (s : State) : Out :=
  bitWord c s d [a, b] (fun x y _ => ((x.setWidth 32).rotateLeft (y.toNat % 32)).setWidth 64)

/-- The field of BFE: bits [o + n − 1 : o], bits above 31 read as 0 (R168). -/
def bfeRes (sx : Bool) (a ctl : W64) : W64 :=
  let o := ctl.toNat % 256
  let n := (ctl.toNat / 256) % 256
  if n = 0 ∨ 32 ≤ o then 0#64
  else
    let v := bitsAt (a.toNat % 2 ^ 32) o n
    BitVec.ofNat 64 (wrapInt 32 (elInt n sx v))

/-- The word of BFI: bits [min(o + n, 32) − 1 : o] of the base replaced (R168). -/
def bfiRes (ins base ctl : W64) : W64 :=
  let o := ctl.toNat % 256
  let n := (ctl.toNat / 256) % 256
  if n = 0 ∨ 32 ≤ o then base
  else BitVec.ofNat 64 (putBits (base.toNat % 2 ^ 32) o ((if o + n < 32 then o + n else 32) - o) ins.toNat)

/-- BFE (R168). -/
def execBfe (c : Ctl) (sx : Bool) (d : Dst) (a b : Src) (s : State) : Out := bitWord c s d [a, b] (fun x y _ => bfeRes sx x y)
/-- BFI (R168). -/
def execBfi (c : Ctl) (d : Dst) (a b e : Src) (s : State) : Out := bitWord c s d [a, b, e] (fun x y z => bfiRes x y z)
/-- POPC (R168). -/
def execPopc (c : Ctl) (d : Dst) (a : Src) (s : State) : Out :=
  bitWord c s d [a] (fun x _ _ => BitVec.ofNat 64 (popcount (x.setWidth 32)))
/-- CLZ (R168): 32 for zero. -/
def execClz (c : Ctl) (d : Dst) (a : Src) (s : State) : Out :=
  bitWord c s d [a] (fun x _ _ => BitVec.ofNat 64 (32 - bitLen (x.toNat % 2 ^ 32)))
/-- BREV (R168). -/
def execBrev (c : Ctl) (d : Dst) (a : Src) (s : State) : Out :=
  bitWord c s d [a] (fun x _ _ => (bitRev (x.setWidth 32)).setWidth 64)

/-! ## Compares, selects and moves (R169) -/

/-- ICMP (R169). -/
def execIcmp (c : Ctl) (cc : Cond) (u : Bool) (d : Dst) (a b : Src) (s : State) : Out :=
  maskWord c s uAdd d [a, b] (fun x l => intLane c s x l [a, b] (ityAccepts .i32) .i32 (fun p q _ =>
    if condHolds cc (elInt 32 (!u) p.toNat) (elInt 32 (!u) q.toNat) then 1#64 else 0#64)) laneMask

/-- A lane that takes a value as it stands: its tag (R74) and its tangents (R188). -/
def moveLane (x : Ctx) (s : State) (c : Ctl) (w : Bool) (l : Nat) (a : Src) (as : Option Tag) : LRes :=
  let e := x.el s.clk c.lit w l a
  ⟨e.val, w, as.getD (e.moved a), e.tan, e.poisoned x.want, 0#3, false⟩

/-- SEL (R169). -/
def execSel (c : Ctl) (w : Bool) (d : Dst) (p a b : Src) (s : State) : Out :=
  vecWord c s 0 d [a, b] (fun x l => some (moveLane x s c w l (if (x.sca s.clk c.lit p).getLsbD l then a else b) none))

/-- MOV (R169). -/
def execMov (c : Ctl) (w : Bool) (as : Option Tag) (d : Dst) (a : Src) (s : State) : Out :=
  vecWord c s 0 d [a] (fun x l => some (moveLane x s c w l a as))

/-- The lane of a MOVS whose mask bit is clear: it keeps its destination, and its latch lane holds that register's old value
(DEDUCED, log entry 16); with NWB, which names no register, a free value (log entry 3). -/
def keepLane (x : Ctx) (s : State) (w : Bool) (l : Nat) (d : Dst) : LRes :=
  match d with
  | .v n =>
    let e := x.el s.clk none w l (.v n)
    ⟨e.val, w, e.tag.getD .raw, x.tans.map (fun k => (k, e.t k)), false, 0#3, true⟩
  | _ => ⟨narrow w (Config.freeWord (s.free + l)), w, Tag.dec ((Config.freeWord (s.free + 32 + l)).setWidth 4), [], false, 0#3, true⟩

/-- MOVS (R169): the lanes whose mask bit is set take a, the others keep their destination. -/
def execMovs (c : Ctl) (w : Bool) (d : Dst) (p a : Src) (s : State) : Out :=
  word c s (fun x => vecBody s 0 d [a] x.lanes (fun t => if d = .nwb then { t with free := t.free + 64 } else t) (fun x l =>
    some (if (x.sca s.clk c.lit p).getLsbD l then moveLane x s c w l a none else keepLane x s w l d)) x)

end Sys2Proof.Machine
end

