-- ==== Sys2Proof/Machine/Objects.lean ====
section
/-! DEFINITION. Barrier objects (R105, R106): their fields, the step after each update, and the updates. A granule holds a live
object once the barrier-object unit has updated it (log entry 18). -/

namespace Sys2Proof.Machine

/-- The fields of a barrier object. -/
structure Obj where
  pend  : Nat
  exp   : Nat
  arr   : Nat
  phase : Bool
  abort : Bool
  osc   : Nat
deriving DecidableEq, Repr

def objOf (n : Nat) : Obj where
  pend := n % 2 ^ 32
  exp := bitsAt n 32 16
  arr := bitsAt n 48 16
  phase := n.testBit 64
  abort := n.testBit 65
  osc := bitsAt n 66 3

/-- The 16 bytes of an object; reserved bits are written 0. -/
def Obj.bits (o : Obj) : Nat :=
  o.pend % 2 ^ 32 + (o.exp % 2 ^ 16) * 2 ^ 32 + (o.arr % 2 ^ 16) * 2 ^ 48 + (if o.phase then 2 ^ 64 else 0)
  + (if o.abort then 2 ^ 65 else 0) + (o.osc % 8) * 2 ^ 66

/-- The step after each update (R106). -/
def Obj.step (o : Obj) : Obj :=
  if o.exp ≠ 0 ∧ o.arr = o.exp ∧ o.pend = 0 then { o with phase := !o.phase, arr := 0 } else o

/-- The granules of a store that hold live objects. -/
def State.objs (s : State) : Store → List Nat
  | .core c => (s.core c).objs
  | .hblk b => ((s.block b).map (·.mobj)).getD []
  | _ => []

def State.setObjs (s : State) (st : Store) (l : List Nat) : State :=
  match st with
  | .core c => s.setCore c { s.core c with objs := l }
  | .hblk b => match s.block b with
    | some x => s.setBlock b { x with mobj := l }
    | none => s
  | _ => s

/-- An object read. -/
def State.objAt (s : State) (st : Store) (a : Nat) : Obj := objOf (s.readNat st a 16)

/-- One atomic update of an object (R106): its granule then holds a live object. -/
def State.objUpd (s : State) (p : Store × Nat) (f : Obj → Obj) : State :=
  let s1 := s.writeBytes p.1 p.2 (leBytes 16 (f (s.objAt p.1 p.2)).step.bits)
  s1.setObjs p.1 (setIns (s1.objs p.1) (p.2 / 16))

/-- A plain store has written bytes: the step of R106 applies to each live object among them. -/
def State.objStored (s : State) (st : Store) (a n : Nat) : State :=
  ((granules 16 a n).filter (fun g => (s.objs st).contains g)).foldl (fun s g => s.objUpd (st, 16 * g) id) s

/-- PEND grows, falls and is abandoned (R106, R123). -/
def Obj.add (n : Nat) (o : Obj) : Obj := { o with pend := o.pend + n }
def Obj.sub (n : Nat) (o : Obj) : Obj := { o with pend := o.pend - n }
def Obj.abandon (n : Nat) (o : Obj) : Obj := { o with pend := o.pend - n, abort := true }

end Sys2Proof.Machine
end

