-- ==== Sys2Proof/Machine/Async.lean ====
section
/-! DEFINITION. Operations in flight (R56 to R60): an asynchronous word leaves one `Pend`; events perform its lanes one by one,
in the order the spec fixes, and its counter decrements with the last one. With them the block log of a recorded grid (R346). -/

namespace Sys2Proof.Machine

/-! ## The block log (R346, R347) -/

/-- `n` bytes of a store take free values (log entry 3): bytes whose layout the spec does not give. -/
def State.putFree (s : State) (st : Store) (a n : Nat) : State :=
  let bs : List Byte := (List.range n).map (fun i => (Config.freeWord (s.free + i)).setWidth 8)
  { (s.writeBytes st a bs).writePsn st a n false with free := s.free + n }

/-- One 16-byte log entry of a block while its grid records: SEQ is NCLS[31:0]; a full region stops the recording. -/
def State.logRec (s : State) (r : CohRef) (kind lane : Nat) (data : W64) : State :=
  match s.block r.blk with
  | none => s
  | some b =>
    match s.grid b.grid, b.logr with
    | some g, some i =>
      if !g.recd then s
      else
        let base := s.physLoc (s.dbg.logbase.toNat + i * s.dbg.logstride.toNat)
        let off := s.readNat .phys (base + 16) 8
        if s.dbg.logstride.toNat < off + 16 then
          { s.setGrid b.grid { g with recd := false } with
            dbg := { s.dbg with recctl := (s.dbg.recctl ||| 2#64) &&& ~~~1#64 } }
        else
          let seq := ((b.coh r.coh).map (·.ncls)).getD 0
          let lo := (r.coh % 256) * 2 ^ 8 + (lane % 256) * 2 ^ 16 + (kind % 256) * 2 ^ 24 + (seq % 2 ^ 32) * 2 ^ 32
          (s.writeBytes .phys (base + off) (leBytes 8 lo ++ leBytes 8 data.toNat)).writeBytes .phys (base + 16) (leBytes 8 (off + 16))
    | _, _ => s

/-- The bytes of a block's allocation. -/
def State.allocBytes (s : State) (b : Block) : Memory :=
  (s.core b.coreId).scr.filter (fun c => decide (b.base ≤ c.1) && decide (c.1 < b.base + b.size))

/-- The granules of a list that lie in a range of a scratchpad. -/
def inRange (base size : Nat) (gs : List Nat) : List Nat := gs.filter (fun g => decide (base ≤ 16 * g) && decide (16 * g < base + size))
def outRange (base size : Nat) (gs : List Nat) : List Nat := gs.filter (fun g => !(decide (base ≤ 16 * g) && decide (16 * g < base + size)))

/-- The bytes of an allocation as the image holds them, from offset 0. -/
def shiftMem (m : Memory) (base : Nat) : Memory := m.map (fun c => (c.1 - base, c.2))
def unshiftMem (m : Memory) (base : Nat) : Memory := m.map (fun c => (c.1 + base, c.2))

/-- A block with the bytes, bits, poison and objects of its allocation: the image that is saved (R321). -/
def State.imageOf (s : State) (b : Block) : Block :=
  let k := s.core b.coreId
  { b with
    mem := shiftMem (s.allocBytes b) b.base
    mfe := (inRange b.base b.size k.fe).map (· - b.base / 16)
    mpsn := (inRange b.base b.size k.psn).map (· - b.base / 16)
    mobj := (inRange b.base b.size k.objs).map (· - b.base / 16) }

/-- A state of a recorded block kept for reverse stepping (R349). -/
def State.snap (s : State) (blk : Nat) (ck : Bool) : State :=
  match s.block blk with
  | none => s
  | some b =>
    match s.grid b.grid, b.logr with
    | some g, some i =>
      if !g.recd then s
      else
        let n := (s.readNat .phys (s.physLoc (s.dbg.logbase.toNat + i * s.dbg.logstride.toNat) + 16) 8 - 64) / 16
        { s with dbg := { s.dbg with snaps := s.dbg.snaps ++ [⟨blk, s.clk, ck, n, s.imageOf b⟩] } }
    | _, _ => s

/-- Some cohort of a block has retired a clause. -/
def Block.ticked (old new : Block) : Bool :=
  new.cohs.any (fun c => ((old.cohs.find c.1).map (·.ncls)) != some c.2.ncls)

/-- The number DST[8:0] of a destination in logs and dumps (R343, R346). -/
def dstNum (d : Option Dst) : Nat := ((d.map (·.enc.toNat)).getD 0)

/-! ## Finding and changing operations -/

def State.pendOf (s : State) (id : Nat) : Option Pend := s.pend.find? (fun p => p.id == id)
def State.setPend (s : State) (p : Pend) : State := { s with pend := s.pend.map (fun q => if q.id = p.id then p else q) }
def State.delPend (s : State) (id : Nat) : State := { s with pend := s.pend.filter (fun q => q.id != id) }
/-- The cohort an operation belongs to. -/
def Pend.ref (p : Pend) : CohRef := ⟨p.blk, p.coh⟩

/-- The operations of the same cohort issued before this one, oldest first. -/
def State.earlier (s : State) (p : Pend) : List Pend :=
  (s.pend.takeWhile (fun q => q.id != p.id)).filter (fun q => q.blk == p.blk && q.coh == p.coh)

/-- The partition of a cohort is stopped (R342). -/
def State.partStopped (s : State) (r : CohRef) : Bool :=
  match s.block r.blk, s.coh r with
  | some b, some c => ((s.core b.coreId).part c.part).stopped
  | _, _ => false

/-- The block is saved (R320). -/
def State.isSaved (s : State) (b : Nat) : Bool := ((s.block b).map (·.saved)).getD false

/-- Two accesses touch a common byte. -/
def Acc.overlaps (a b : Acc) : Bool := a.store == b.store && decide (a.addr < b.addr + b.z) && decide (b.addr < a.addr + a.z)

/-- Some access of one list touches a byte of some access of the other. -/
def accsOverlap (as bs : List Acc) : Bool := as.any (fun a => bs.any (fun b => a.overlaps b))

/-- The kinds that access memory or a scratchpad. -/
def PKind.isMem : PKind → Bool
  | .load _ _ | .store _ _ | .gath | .gaths _ _ | .scat | .scata _ | .ldspl | .hacc _ _ _ | .atom _ _ _ | .cas _ | .ldx | .stx _ => true
  | _ => false

/-- The kinds that write a register of the cohort (R342, R328). -/
def PKind.writesReg : PKind → Bool
  | .store _ _ | .scat | .scata _ | .pref _ | .gaths _ _ => false
  | .atom _ _ ret => ret
  | _ => true

/-- A lane that still waits on a full-empty bit (R156). -/
def Pend.feWait (p : Pend) : Bool :=
  match p.kind with
  | .load .fe _ | .load .feClr _ | .store .fe _ => true
  | _ => false

/-- Tiles of MLD and MST move in matrix words that also access memory; their accesses stand in `lanes`. -/
def Pend.touchesMem (p : Pend) : Bool := (p.kind.isMem && !p.lanes.isEmpty) || (match p.kind with
  | .matrix .. => p.lanes.any (fun l => !l.2.isEmpty)
  | _ => false)

/-- The order of R134, R155, R256 against the cohort's earlier operations: an earlier acquire holds the access; a release waits for
every earlier access; accesses to a common byte are performed in issue order. -/
def State.ordPrev (s : State) (p : Pend) (accs : List Acc) : Bool :=
  (s.earlier p).all (fun q =>
    !q.acq && !(p.rel && q.touchesMem) && !q.lanes.any (fun l => accsOverlap l.2 accs))

/-- The lanes of an operation that must be read together with a lane: those that touch a common byte, primal or tangent, and those that
share one with them (R126, R155). -/
def Pend.grow (p : Pend) : Nat → List Nat → List Nat
  | 0, g => g
  | n + 1, g =>
    let as := p.lanes.flatMap (fun l => if g.contains l.1 then l.2 else [])
    let g' := AMap.keys (p.lanes.filter (fun l => g.contains l.1 || accsOverlap (l.2.filter (fun a => a.z != 0)) as))
    if g'.length = g.length then g' else Pend.grow p n g'
def Pend.sameElement (p : Pend) (lane : Nat) : List Nat := p.grow p.lanes.length [lane]

/-- The accesses of a group of lanes may be performed together: each is in order against the cohort's earlier operations, and against
the lanes of the word outside the group. -/
def State.groupOk (s : State) (p : Pend) (ls : List Nat) : Bool :=
  ls.all (fun l =>
    let as := p.lanes.get l []
    s.ordPrev p as && p.lanes.all (fun q => ls.contains q.1 || !decide (q.1 < l) || !accsOverlap q.2 as))

/-- The order of a lane's accesses: `ordPrev`, and within one word in ascending LANE (R134, R155). -/
def State.ordOk (s : State) (p : Pend) (lane : Nat) (accs : List Acc) : Bool :=
  s.ordPrev p accs && p.lanes.all (fun l => !decide (l.1 < lane) || !accsOverlap l.2 accs)

/-! ## Issuing an operation -/

/-- The granules an operation touches: 64-byte sectors of memory, 16-byte granules of scratchpads (R345). -/
def sectors (lanes : AMap (List Acc)) : Nat :=
  (lanes.foldl (fun gs l => l.2.foldl (fun gs a =>
    (granules (if a.store = .phys then 64 else 16) a.addr a.z).foldl (fun gs g =>
      if gs.contains (a.store, g) then gs else (a.store, g) :: gs) gs) gs) ([] : List (Store × Nat))).length

/-- A new operation of the issuing word. -/
def Ctx.pend (x : Ctx) (s : State) (kind : PKind) (dst : Option Dst) (tag : Tag) (slot : Option (BitVec 3))
    (lanes : AMap (List Acc)) : Pend where
  id := s.nid
  grid := x.blk.grid
  blk := x.ref.blk
  coh := x.ref.coh
  isB := x.isB
  kind := kind
  dst := dst
  tag := tag
  slot := slot
  exec := x.exec
  lanes := lanes
  done := 0#32
  more := false
  lost := 0#32
  acq := false
  rel := false
  scope := .coh
  clk0 := s.clk
  pc := x.path.pc
  widx := (x.path.cl.map (·.wi)).getD 0
  cls := x.cls
  op := x.op
  smp := x.smp
  sect := sectors lanes

/-- An operation put in flight, the last of its cohort. -/
def State.addPend (s : State) (p : Pend) : State := { s with pend := s.pend ++ [{ p with id := s.nid }], nid := s.nid + 1 }

/-! ## Landing -/

/-- The write of a landed lane (R58): the register with its tag and the tangents given. -/
def State.landReg (s : State) (p : Pend) (lane : Nat) (wide : Bool) (primal : Option (W64 × Tag × Bool)) (tans : AMap (W64 × Bool)) :
    State :=
  match p.dst with
  | some d => (s.updCoh p.ref (fun c => c.updThread lane (fun t => t.putD d wide primal tans))).logRec p.ref 2 0
      (BitVec.ofNat 64 (dstNum p.dst + 2 ^ 32 * 2 ^ lane))
  | none => s

/-- A value on its way to a register: index 0 the primal, k a tangent. -/
def Acc.reg (k : Nat) (v : W64) (psn : Bool) : Acc := ⟨k, .phys, 0, 0, v, 0#64, psn⟩

/-- The primal among the values of a lane. -/
def accPrimal (as : List Acc) (tag : Tag) : Option (W64 × Tag × Bool) :=
  (as.find? (fun a => a.k == 0)).map (fun a => (a.val, tag, a.psn))
/-- The tangents among the values of a lane. -/
def accTans (as : List Acc) : AMap (W64 × Bool) := (as.filter (fun a => a.k != 0)).map (fun a => (a.k, a.val, a.psn))

/-- The values a computed result brings to its destination later (R223): under TONLY no primal. -/
def Ctx.resAccs (x : Ctx) (r : LRes) : List Acc :=
  (if x.dxMode = .tonly then [] else [Acc.reg 0 r.val false]) ++ (x.newTans r).map (fun p => Acc.reg p.1 p.2 false)

/-- A cohort has ended: no thread, no counter (R248). -/
def Cohort.gone (c : Cohort) : Bool := c.lanes.isEmpty && c.quiet

/-- A cohort that has ended and holds no resources any more (R147, R248). -/
def Cohort.retired (c : Cohort) : Bool := c.gone && !c.idle

/-- A block has ended: every cohort of it has (R298). -/
def Block.ended (b : Block) : Bool := b.cohs.all (fun c => c.2.gone)

/-! ## What a core's blocks hold (R147, R294) -/

/-- The blocks that placement counts on a core: resident, no handlers. -/
def State.placed (s : State) (core : Nat) : List (Nat × Block) :=
  s.blocks.filter (fun b => b.2.coreId == core && !b.2.saved && !b.2.isHandler)

/-- The cohorts of a block that hold their segments: those that have not retired (R147, R248). -/
def Block.holding (b : Block) : AMap Cohort := b.cohs.filter (fun c => !c.2.retired)

/-- The segments of one cohort, and of a block (R147). -/
def BCfg.segs (c : BCfg) : Nat := c.vr / 8 * (1 + c.t)
def Block.segs (b : Block) : Nat := b.cfg.segs * b.holding.length

/-- The segments of a core that are held. -/
def State.heldSegs (s : State) (core : Nat) : Nat := (s.placed core).foldl (fun n b => n + b.2.segs) 0

/-- An access in flight of another block, that waits for no full-empty bit, lies in the allocation of a block: it has arrived and is
performed before the allocation is given up (R141, R142; log entry 70). -/
def State.inbound (s : State) (blk : Nat) (b : Block) : Bool :=
  s.pend.any (fun p => p.blk != blk && !p.feWait && p.lanes.any (fun l => l.2.any (fun a =>
    a.z != 0 && a.store == .core b.coreId && decide (a.addr < b.base + b.size) && decide (b.base < a.addr + a.z))))

/-- A block that has ended leaves its core (R298) once nothing it has issued is in flight, and no access of another block to its
allocation: its resources are free and its grid counts it. -/
def State.reap (s : State) (blk : Nat) : State :=
  match s.block blk with
  | none => s
  | some b =>
    if !b.ended || s.pend.any (fun p => p.blk == blk) || s.copies.any (fun c => c.blk == blk) || s.inbound blk b then s
    else
      let s1 : State := { s with
        blocks := s.blocks.filter (fun x => x.1 != blk)
        cores := s.cores.map (fun k => (k.1, k.2.forget [blk]))
        cur := s.cur.filter (fun r => r.blk != blk) }
      match b.kind, s1.grid b.grid with
      | .grid, some g => s1.setGrid b.grid { g with done := g.done + 1, rot := g.rot.filter (fun x => x != blk) }
      | .task, some g => s1.setGrid b.grid { g with rot := g.rot.filter (fun x => x != blk) }
      | _, _ => s1

/-- The operation is complete (R55): its counter decrements, a sampled word leaves its record (R345). -/
def State.finishPend (s : State) (p : Pend) (lastl : Option Nat) : State :=
  let s0 := s.delPend p.id
  let s1 := if p.kind.demotes then s0.updCoh p.ref (fun c => c.mapPaths (fun q => { q with ops := q.ops.filter (fun i => i != p.id) })) else s0
  let s2 := (match p.slot with
    | some n => s1.updCoh p.ref (fun c => c.decCtr n)
    | none => s1).reap p.blk
  match p.smp, s1.block p.blk, s1.coh p.ref with
  | some t, some b, some c =>
    s2.putSample b.die (sampleRec s2 p.pc p.clk0 p.exec p.widx p.cls p.op
      (sampleIdent p.coh c.part b.core b.die p.isB t.2 false) t.1 p.sect ((lastl.map (· + 128)).getD 0))
  | _, _, _ => s2

/-- What an operation does once its last lane is performed: the mask of STX is written (R261); a CAS or STX that has failed in every lane
demotes its path (R240). -/
def State.writeResult (s : State) (p : Pend) : State :=
  let lose (s : State) : State := s.updCoh p.ref (fun c => c.demand p.id)
  match p.kind, p.dst with
  | .cas hit, _ => if hit then s else lose s
  | .stx mask, some d =>
    let s1 := (s.putS p.ref d (mask.setWidth 64)).logRec p.ref 2 0 (BitVec.ofNat 64 (dstNum p.dst))
    if mask = 0#32 then lose s1 else s1
  | _, _ => s

/-- One lane of an operation is done; with the last one the operation is complete, unless lanes are still to be issued (R60). -/
def State.laneOff (s : State) (id lane : Nat) : State :=
  match s.pendOf id with
  | none => s
  | some p =>
    let p' := { p with lanes := p.lanes.del lane, done := p.done ||| (1#32 <<< lane) }
    if p'.lanes.isEmpty && !p'.more then s.finishPend p' (if p.kind.writesReg then some lane else none) else s.setPend p'

/-- What an event does when it is not enabled: nothing. -/
def idle (s : State) : Out := .next s

/-- The bytes of an access lie where the operation may reach them: in its own block's allocation, or in the program scratch of a
resident block of its grid (R141, R142). -/
def State.accReach (s : State) (p : Pend) (a : Acc) : Bool :=
  match a.store with
  | .core c => a.z == 0 || s.blocks.any (fun b => b.2.coreId == c && !b.2.isHandler && decide (b.2.base ≤ a.addr)
      && ((b.1 == p.blk && decide (a.addr + a.z ≤ b.2.base + b.2.size))
        || (b.2.resident && b.2.grid == p.grid && decide (a.addr + a.z ≤ b.2.base + b.2.cfg.sb))))
  | _ => true

/-- No access touches a 4-byte element of which a running copy has landed a part: a load of it returns the element old or new (R287). -/
def State.whole (s : State) (as : List Acc) : Bool :=
  s.copies.all (fun c => c.susp.isSome || c.torn.all (fun t =>
    as.all (fun a => a.store != t.1 || a.z == 0 || decide (t.2 < a.addr / 4) || decide ((a.addr + a.z - 1) / 4 < t.2))))

/-- An access of a lane is served far away. -/
def accsFar (as : List Acc) : Bool := as.any (fun a => a.store == .phys && a.z != 0 && farAddr a.addr)

/-- No lane of an operation waits for a far reply any more. -/
def State.replied (s : State) (id : Nat) : Bool :=
  match s.pendOf id with
  | some p => !p.lanes.any (fun l => accsFar l.2)
  | none => true

/-- A lane of an operation in flight may land: its block is resident or, for `saved`, saved (R60, R321) and not
stepped back (R349), no request of it is on the package network (R394); a register write waits while the partition is stopped (R342). -/
def State.landable (s : State) (p : Pend) (lane : Nat) (saved : Bool) : Option (List Acc) :=
  if !((p.lanes.get lane []).all (s.accReach p)) || !s.whole (p.lanes.get lane []) then none
  else if s.isSaved p.blk != saved || (s.dbg.live.find p.blk).isSome || s.fab.reqs.any (fun q => q.id == p.id) then none
  else if p.kind.writesReg && s.partStopped p.ref then none
  else p.lanes.find lane

end Sys2Proof.Machine
end

