-- ==== Sys2Proof/Machine/Space.lean ====
section
/-! DEFINITION. Scratchpad addresses (R141 to R143, R153, R154, R159): which bytes of which store an address of a space names,
where its tangents lie, the protection codes of the checks, and the watchpoints that an access meets (R341). -/

namespace Sys2Proof.Machine

/-- The protection codes of scratchpad checks (R141, R154). -/
def cReach : Nat := 0x21
def cWindow : Nat := 0x22
def cAlign : Nat := 0x27
def cRing : Nat := 0x29

/-- The bytes a frame access may reach: the frame, or its part when the thread reserves tangents (R141, R159). -/
def Block.framePart (b : Block) : Nat := if b.cfg.t = 0 then b.cfg.pfb else b.cfg.pfb / (b.cfg.t + 1)

/-- The store of a block's own allocation and the address of its offset 0: handlers have storage of their own (R314). -/
def Ctx.own (x : Ctx) : Store × Nat := if x.blk.isHandler then (.hblk x.ref.blk, 0) else (.core x.blk.coreId, x.blk.base)

/-- The core a window address names, by 256 × die + core (R141). -/
def Ctx.winCore (x : Ctx) (a : Nat) : Nat := 256 * x.blk.die + 64 * (x.blk.core / 64) + bitsAt a 18 6

/-- Where the bytes end that the program scratch of the grid's resident blocks on a core covers without a gap from an offset on. -/
def State.reachEnd (s : State) (grid core : Nat) : Nat → Nat → Nat
  | 0, off => off
  | k + 1, off =>
    match s.blocks.find? (fun b => b.2.grid == grid && b.2.coreId == core && b.2.resident && !b.2.isHandler
      && decide (b.2.base ≤ off) && decide (off < b.2.base + b.2.cfg.sb)) with
    | some b => s.reachEnd grid core k (b.2.base + b.2.cfg.sb)
    | none => off

/-- Each byte of a range of a core's scratchpad lies in the program scratch of a resident block of the grid there (R141, R142). -/
def State.winReach (s : State) (grid core off n : Nat) : Bool :=
  decide (off + n ≤ s.reachEnd grid core (s.blocks.length + 1) off)

/-- The place of `n` bytes at address `a` of a space, as lane `l` reaches it; none is code 0x21. -/
def State.place (s : State) (x : Ctx) (l : Nat) (sp : Space) (a n : Nat) : Option (Store × Nat) :=
  match sp with
  | .core => if a + n ≤ x.blk.cfg.sb then some (x.own.1, x.own.2 + a) else none
  | .window =>
    let off := a % 2 ^ 18
    if s.winReach x.blk.grid (x.winCore a) off n then some (.core (x.winCore a), off) else none
  | .die => if x.grid.lrec.dwbase ≤ a ∧ a + n ≤ x.grid.lrec.dwbase + x.grid.lrec.dwsize then some (.die x.blk.die, a) else none
  | .frame =>
    if a + n ≤ x.blk.framePart then
      some (x.own.1, x.own.2 + x.blk.cfg.sb + ((x.coh.thread l).map (·.t)).getD 0 * x.blk.cfg.pfb + a)
    else none

/-- The address of tangent `k` in a space with a stride (R159). -/
def tanAddr (x : Ctx) (sp : Space) (a k : Nat) : Nat :=
  match sp with
  | .core | .window => (a + k * x.grid.lrec.sdstr.toNat) % 2 ^ 32
  | .die => (a + k * x.grid.lrec.ddstr.toNat) % 2 ^ 32
  | .frame => a

/-- The place of tangent `k` of an address (R159); 0 is the primal. -/
def State.placeTan (s : State) (x : Ctx) (l : Nat) (sp : Space) (a n k : Nat) : Option (Store × Nat) :=
  match sp with
  | .frame => (s.place x l sp a n).map (fun p => (p.1, p.2 + k * x.blk.framePart))
  | _ => s.place x l sp (tanAddr x sp a k) n

/-- The first kind of address check that some lane fails, with all the lanes that fail it (R154): window bits, alignment,
reach. -/
def addrFault (addrs : AMap Nat) (win aligned reach : Nat → Nat → Bool) : Option (Nat × W32) :=
  let fails (ok : Nat → Nat → Bool) : W32 := maskOf (AMap.keys (addrs.filter (fun p => !ok p.1 p.2)))
  if fails win ≠ 0#32 then some (cWindow, fails win)
  else if fails aligned ≠ 0#32 then some (cAlign, fails aligned)
  else if fails reach ≠ 0#32 then some (cReach, fails reach)
  else none

/-- The fault of an address check: code and address of each failing lane (R90, R154). -/
def addrFz (f : Nat × W32) (addrs : AMap Nat) : Fz :=
  let va (l : Nat) : W64 := BitVec.ofNat 64 (addrs.get l 0)
  { Fz.of kProtection f.1 f.2 with
    va := va (lowBit f.2)
    per := (lanesOf f.2).map (fun l => (l, f.1, 0xF, va l)) }

/-- Bits [31:24] of a window address, and of its tangents, are zero (R141, R159). -/
def winOk (x : Ctx) (sp : Space) (ks : List Nat) (a : Nat) : Bool :=
  sp != .window || (0 :: ks).all (fun k => bitsAt (tanAddr x sp a k) 24 8 == 0)

/-! ## Errors met on a read (R96, R154, R365; log entry 9) -/

/-- The die and unit that log an error of a store (R369, R370); the I/O die logs into die 0's banks. -/
def State.storeUnit (s : State) (st : Store) (a : Nat) : Nat × Nat :=
  match st with
  | .phys => (if a < 0xA000000000 then a / 0x2800000000 else 0, 0x0A)
  | .core c => (c / 256, 0x08)
  | .die d => (d, 0x09)
  | .hblk b => (((s.block b).map (·.die)).getD 0, 0x08)

/-- A range read: a single error in it is corrected and logged; an unreadable granule is marked poisoned and logged. -/
def State.readCheck (s : State) (st : Store) (a n : Nat) : State :=
  let mine (e : ErrIn) : Bool := match e with
    | .ecc1 t b => t == st && decide (a / 8 ≤ b / 8) && decide (b / 8 ≤ (a + n - 1) / 8) && n != 0
    | .ecc t g => t == st && (granules st.pg a n).contains g
    | _ => false
  if s.errIn.any mine then
    (s.errIn.filter mine).foldl (fun s e => match e with
      | .ecc1 _ b =>
        let u := s.storeUnit st b
        s.logMc u.1 u.2 0 false 0x0004 (some (BitVec.ofNat 64 b)) none
      | .ecc _ g =>
        let u := s.storeUnit st (g * st.pg)
        (s.setPsns st (setIns (s.psns st) g)).logMc u.1 u.2 1 true 0x0005 (some (BitVec.ofNat 64 (g * st.pg))) none
      | _ => s) { s with errIn := s.errIn.filter (fun e => !mine e) }
  else s

/-! ## Watchpoints (R341) -/

/-- A watchpoint register matches a read or a write of bytes [off, off + n). -/
def wpHit (w : W64) (rd wr : Bool) (off n : Nat) : Bool :=
  w.getLsbD 63 && ((rd && w.getLsbD 60) || (wr && w.getLsbD 61))
  && decide (off ≤ (w.extractLsb' 32 18).toNat) && decide ((w.extractLsb' 0 18).toNat < off + n)

/-- The lanes whose accesses a watchpoint matches: those to the issuing core's own scratchpad. -/
def wpLanes (x : Ctx) (w : W64) (rd wr : Bool) (lanes : AMap (List Acc)) : W32 :=
  maskOf (AMap.keys (lanes.filter (fun l => l.2.any (fun a => a.store == .core x.blk.coreId && wpHit w rd wr a.addr a.z))))

/-- The lowest watchpoint that matches: its number, whether it stops the partition, the lanes. -/
def State.watch (s : State) (x : Ctx) (rd wr : Bool) (lanes : AMap (List Acc)) : Option (Nat × Bool × W32) :=
  if x.blk.isHandler then none
  else (List.range 4).findSome? (fun n =>
    let w := (s.core x.blk.coreId).wpb.get n 0#64
    let m := wpLanes x w rd wr lanes
    if m = 0#32 then none else some (n, w.getLsbD 62, m))

/-- The issuer's partition stopped (R342). -/
def State.stopPart (s : State) (x : Ctx) : State :=
  let k := s.core x.blk.coreId
  s.setCore x.blk.coreId (k.setPart x.coh.part { k.part x.coh.part with stopped := true })

/-- An asynchronous word behind a watchpoint check: it goes on, freezes behind itself, or stops its partition (R341). -/
def watched (s : State) (x : Ctx) (rd wr : Bool) (lanes : AMap (List Acc)) (s' : State) : WRes :=
  match s.watch x rd wr lanes with
  | none => .async s'
  | some (n, stop, m) => if stop then .async (s'.stopPart x) else .doneFrz s' .none true (Fz.of kWatch n m)

end Sys2Proof.Machine
end

