-- ==== Sys2Proof/Machine/Scratch.lean ====
section
/-! DEFINITION. CLASS 0x7, the scratchpad loads and stores (R151 to R159): addresses and their checks, ring buffers, full-empty
qualifiers, polls and tangents, and the events that perform their lanes. -/

namespace Sys2Proof.Machine

/-! ## Helpers shared with other classes -/

/-- A 32-bit address operand: RAW, I32, N32 or untagged (R74, R153); none is a format fault. -/
def El.addr32 (e : El) : Option Nat := if e.accepted (ityAccepts .n32) then some (e.val.toNat % 2 ^ 32) else none

/-- The value a lane stores: its size is 8 for an F64 pair, else 4 (R152); none is a format fault. -/
def storeVal (x : Ctx) (s : State) (lit : Option W64) (l : Nat) (v : Src) : Option (Nat × El) :=
  let e := x.el s.clk lit false l v
  if e.tag = some .f64 then (x.elFmt s.clk lit .f64 l v).map (fun w => (8, w)) else some (4, e)

/-- The block whose allocation holds a byte of a core's scratchpad. -/
def State.allocOf (s : State) (st : Store) (a : Nat) : Option (Nat × Nat) :=
  match st with
  | .core c => (s.blocks.find? (fun b => b.2.coreId == c && b.2.resident && !b.2.isHandler
      && decide (b.2.base ≤ a) && decide (a < b.2.base + b.2.size))).map (fun b => (b.1, a - b.2.base))
  | .hblk b => some (b, a)
  | _ => none

/-- An access stays inside the issuer's own allocation. -/
def State.ownAcc (s : State) (blk : Nat) (a : Acc) : Bool := ((s.allocOf a.store a.addr).map (·.1)) == some blk

/-- The log entry of a read outside the allocation (R346). -/
def State.logRead (s : State) (r : CohRef) (lane : Nat) (a : Acc) (v : W64) : State :=
  if s.ownAcc r.blk a then s else s.logRec r 3 lane v

/-- The log entries of bytes that an engine or a window write landed in an allocation (R346), eight at a time. -/
def State.logLanded (s : State) (st : Store) (a : Nat) (bs : List Byte) (src : Option Nat) : State :=
  match s.allocOf st a with
  | none => s
  | some (b, off) =>
    if src = some b then s
    else (List.range ((bs.length + 7) / 8)).foldl (fun s i =>
      (s.logRec ⟨b, 0⟩ 4 0 (BitVec.ofNat 64 (leNat ((bs.drop (8 * i)).take 8)))).logRec ⟨b, 0⟩ 4 0 (BitVec.ofNat 64 (off + 8 * i))) s

/-- The log entry of a full-empty change (R346): DATA is the granule's offset with bit 63 set for full. -/
def State.logFe (s : State) (st : Store) (a : Nat) (full : Bool) : State :=
  match s.allocOf st a with
  | none => s
  | some (b, off) => s.logRec ⟨b, 0⟩ 5 0 (BitVec.ofNat 64 (off / 16 * 16) ||| (if full then 1#64 <<< 63 else 0#64))

/-- A full-empty bit changed, with its log entry. -/
def State.putFe (s : State) (st : Store) (a : Nat) (full : Bool) : State :=
  (if full then s.setFull st a else s.setEmpty st a).logFe st a full

/-! ## Addresses (R152, R153) -/

/-- A ring register is permitted for a space (R150). -/
def ringOk (k : W64) (sp : Space) : Bool :=
  let code := match sp with
    | .core => 0
    | .window => 1
    | .die => 2
    | .frame => 3
  let size := bitsAt k.toNat 32 27
  bitsAt k.toNat 62 2 == code && code != 3 && bitsAt k.toNat 59 3 == 0 && decide (1 ≤ size) && decide (size ≤ 0x4000000)

/-- SA and SB of a lane; none is a format fault. -/
def addrOps (x : Ctx) (s : State) (lit : Option W64) (mode : AMode) (l : Nat) (a b : Src) : Option (Nat × Nat) :=
  match (match mode with
    | .ring => some 0
    | _ => (x.el s.clk lit false l a).addr32), (x.el s.clk lit false l b).addr32 with
  | some p, some q => some (p, q)
  | _, _ => none

/-- The address of a lane and, in ring mode, its next index (R153). -/
def laneAddr (ring : W64) (mode : AMode) (z : Nat) (disp : Int) (p : Nat × Nat) : Nat × Nat :=
  let m32 (v : Int) : Nat := (v % (2 ^ 32 : Nat)).toNat
  match mode with
  | .base => (m32 ((p.1 : Int) + p.2 + disp * z), 0)
  | .scaled => (m32 ((p.1 : Int) + p.2 * z + disp * z), 0)
  | .ring =>
    let size := bitsAt ring.toNat 32 27
    let o := p.2 % size
    ((ring.toNat % 2 ^ 32 + o) % 2 ^ 32, (((o : Int) + disp * z) % size).toNat)

/-- A lane of a load or store as it is checked: its element size, its address operands, poison among the operands that fault. -/
structure SLane where
  z   : Nat
  ops : Nat × Nat
  psn : Bool
deriving DecidableEq, Repr

/-- The accesses of a lane: the primal, then each tangent; none is code 0x21. -/
def State.laneAccs (s : State) (x : Ctx) (sp : Space) (l a z : Nat) (ks : List Nat) (val : Nat → W64 × Bool) :
    Option (List Acc) :=
  (0 :: ks).foldr (fun k r =>
    match r, s.placeTan x l sp a z k with
    | some as, some p => some (⟨k, p.1, p.2, z, (val k).1, 0#64, (val k).2⟩ :: as)
    | _, _ => none) (some [])

/-- The ring indices written at issue (R153). -/
def putRing (x : Ctx) (s : State) (mode : AMode) (b : Src) (idx : AMap Nat) : State :=
  match mode, b with
  | .ring, .v n => s.updCoh x.ref (fun c => idx.foldl (fun c p => c.updThread p.1 (fun t =>
      t.setV n.toNat { t.vreg n.toNat with val := BitVec.ofNat 32 p.2, tag := .n32, psn := false })) c)
  | _, _ => s

/-- A load or store at issue (R153, R154): its checks, the ring update, and what follows when every lane passes. -/
def spIssue (s : State) (x : Ctx) (sp : Space) (mode : AMode) (disp : Int) (a b : Src) (ks : List Nat)
    (rs : AMap (Option SLane)) (val : Nat → Nat → W64 × Bool) (go : State → AMap (List Acc) → WRes) : WRes :=
  let ring := match a with
    | .k n => x.coh.kreg n.toNat
    | _ => 0#64
  let bad := maskOf (AMap.keys (rs.filter (fun p => p.2.isNone)))
  let ok : AMap SLane := rs.filterMap (fun p => p.2.map (fun r => (p.1, r)))
  let psn := maskOf (AMap.keys (ok.filter (fun p => p.2.psn)))
  if bad ≠ 0#32 then .trap (Fz.of kFormat 0 bad)
  else if psn ≠ 0#32 then .trap (Fz.of kPoison 0 psn)
  else if mode = .ring ∧ !ringOk ring sp ∧ !rs.isEmpty then
    .trap (Fz.of kProtection cRing (maskOf (AMap.keys rs)))
  else
    let ads := ok.map (fun p => (p.1, laneAddr ring mode p.2.z disp p.2.ops))
    let s1 := putRing x s mode b (ads.map (fun p => (p.1, p.2.2)))
    let addrs : AMap Nat := ads.map (fun p => (p.1, p.2.1))
    let z (l : Nat) : Nat := ((ok.find l).map (·.z)).getD 4
    let accs (l a : Nat) : Option (List Acc) := s.laneAccs x sp l a (z l) ks (val l)
    match addrFault addrs (fun _ a => winOk x sp ks a)
        (fun l a => (0 :: ks).all (fun k => tanAddr x sp a k % z l == 0))
        (fun l a => (accs l a).isSome) with
    | some f =>
      let fz : Fz := addrFz f addrs
      if mode = .ring then .part s1 fz false else .trap fz
    | none => go s1 (addrs.map (fun p => (p.1, (accs p.1 p.2).getD [])))

/-- The granules of scratchpads that the lanes of a store cover whole with unpoisoned data (R154). -/
def wholeGranules (lanes : AMap (List Acc)) : List (Store × Nat) :=
  let as := lanes.flatMap (fun l => l.2)
  let gs : List (Store × Nat) := as.foldl (fun gs a => if gs.contains (a.store, a.addr / 16) then gs else gs ++ [(a.store, a.addr / 16)]) []
  gs.filter (fun g =>
    let mine := as.filter (fun a => a.store == g.1 && a.addr / 16 == g.2)
    mine.all (fun a => !a.psn) && (List.range 16).all (fun i => mine.any (fun a => decide (a.addr ≤ 16 * g.2 + i) && decide (16 * g.2 + i < a.addr + a.z))))

/-- The watchpoints of a load or store: frames and die-wide accesses are not among those of R341. -/
def watchedSp (sp : Space) (s : State) (x : Ctx) (rd wr : Bool) (lanes : AMap (List Acc)) (s' : State) : WRes :=
  match sp with
  | .core | .window => watched s x rd wr lanes s'
  | .die | .frame => .async s'

/-- The element size of a load. -/
def loadZ (f : Tag) : Nat := if f = .f64 then 8 else 4

/-- A scratchpad load (R151 to R159). -/
def loadWord (sp : Space) (c : Ctl) (q : LdCtl) (d : Dst) (a b : Src) (s : State) : Out :=
  word c s (fun x =>
    let srcs := [a, b]
    match parityCheck x s srcs x.todo with
    | .error e => e
    | .ok s0 =>
      let z := loadZ q.fmt
      let ks := match x.dxMode with
        | .stop => []
        | _ => x.tans
      let rs : AMap (Option SLane) := x.todo.map (fun l => (l, (addrOps x s0 c.lit q.mode l a b).map (fun p =>
        ⟨z, p, (match q.mode with | .ring => false | _ => (x.el s0.clk c.lit false l a).psn) || (x.el s0.clk c.lit false l b).psn⟩)))
      spIssue s0 x sp q.mode q.disp.toInt a b ks rs (fun _ _ => (0#64, false)) (fun s1 las =>
        let stops : List Acc := if x.dxMode = .stop then x.tans.map (fun k => Acc.reg k 0#64 false) else []
        let las1 := las.map (fun p => (p.1, p.2 ++ stops))
        let old : AMap W64 := if q.q = .poll then las.map (fun p => (p.1, match d with
          | .v n => ((x.coh.thread p.1).map (fun t => (t.el (z == 8) n.toNat).val)).getD 0#64
          | .seed => ((x.coh.thread p.1).map (fun t => t.seed.setWidth 64)).getD 0#64
          | _ => 0#64)) else []
        watchedSp sp s1 x true (q.q == .feClr) las1 (s1.addPend (x.pend s1 (.load q.q old) (some d) q.fmt c.set las1))))

/-- A scratchpad store (R151 to R159). -/
def storeWord (sp : Space) (c : Ctl) (q : StCtl) (a b v : Src) (s : State) : Out :=
  word c s (fun x =>
    match parityCheck x s [a, b, v] x.todo with
    | .error e => e
    | .ok s0 =>
      let vals : AMap (Option (Nat × El)) := x.todo.map (fun l => (l, storeVal x s0 c.lit l v))
      let rs : AMap (Option SLane) := vals.map (fun p => (p.1,
        match addrOps x s0 c.lit q.mode p.1 a b, p.2 with
        | some ops, some w => some ⟨w.1, ops, (match q.mode with | .ring => false | _ => (x.el s0.clk c.lit false p.1 a).psn)
            || (x.el s0.clk c.lit false p.1 b).psn⟩
        | _, _ => none))
      let val (l k : Nat) : W64 × Bool := match vals.find l with
        | some (some w) => if k = 0 then (w.2.val, w.2.psn) else (w.2.t k, w.2.tpsn.contains k)
        | _ => (0#64, false)
      spIssue s0 x sp q.mode q.disp.toInt a b x.tans rs val (fun s1 las =>
        watchedSp sp s1 x false true las (s1.addPend (x.pend s1 (.store q.q (wholeGranules las)) none .raw c.set las))))

/-- LDS. -/
def execLds (c : Ctl) (l : LdCtl) (d : Dst) (a b : Src) (s : State) : Out := loadWord .core c l d a b s
/-- LDC. -/
def execLdc (c : Ctl) (l : LdCtl) (d : Dst) (a b : Src) (s : State) : Out := loadWord .window c l d a b s
/-- LDD. -/
def execLdd (c : Ctl) (l : LdCtl) (d : Dst) (a b : Src) (s : State) : Out := loadWord .die c l d a b s
/-- LDP. -/
def execLdp (c : Ctl) (l : LdCtl) (d : Dst) (a b : Src) (s : State) : Out := loadWord .frame c l d a b s
/-- STS. -/
def execSts (c : Ctl) (l : StCtl) (a b v : Src) (s : State) : Out := storeWord .core c l a b v s
/-- STC. -/
def execStc (c : Ctl) (l : StCtl) (a b v : Src) (s : State) : Out := storeWord .window c l a b v s
/-- STD. -/
def execStd (c : Ctl) (l : StCtl) (a b v : Src) (s : State) : Out := storeWord .die c l a b v s
/-- STP. -/
def execStp (c : Ctl) (l : StCtl) (a b v : Src) (s : State) : Out := storeWord .frame c l a b v s

/-! ## Performing the lanes -/

/-- What a lane's load reads: each value with its poison mark, the errors met logged. -/
def State.readLane (s : State) (r : CohRef) (lane : Nat) (as : List Acc) : State × List Acc :=
  as.foldl (fun p a =>
    if a.z = 0 then (p.1, p.2 ++ [a])
    else
      let s1 := p.1.readCheck a.store a.addr a.z
      let v := BitVec.ofNat 64 (s1.readNat a.store a.addr a.z)
      (s1.logRead r lane a v, p.2 ++ [{ a with val := v, psn := s1.poisoned a.store a.addr a.z }])) (s, [])

/-- The granule of a lane's primal element. -/
def granOf (as : List Acc) : Option (Store × Nat) := (as.find? (fun a => a.k == 0)).map (fun a => (a.store, a.addr))

/-- The demotion of a poll that found nothing changed (R158, R240), and the count of unchanged polls (R302). -/
def Cohort.polled (c : Cohort) (id : Nat) (match' : Bool) : Cohort :=
  if match' then { c.demand id with polls := c.polls + 1 } else { c with polls := 0 }

/-- A lane of a load lands: it reads and its registers are written; the last lane of a poll compares (R154, R158). -/
def State.loadLane (s : State) (id lane : Nat) : State :=
  match s.pendOf id with
  | none => s
  | some p =>
    match p.lanes.find lane with
    | none => s
    | some as =>
      let r := s.readLane p.ref lane as
      let s1 := r.1.landReg p lane (p.tag == .f64) (accPrimal r.2 p.tag) (accTans r.2)
      match p.kind with
      | .load q old =>
        let v := ((accPrimal r.2 p.tag).map (·.1)).getD 0#64
        let old' := if old.find lane = some v then old.del lane else old
        let s2 := s1.setPend { p with kind := .load q old' }
        (if q = .poll ∧ p.lanes.length = 1 then s2.updCoh p.ref (fun c => c.polled id old'.isEmpty) else s2).laneOff id lane
      | _ => s1.laneOff id lane

/-- SCRATCHPAD_LOAD_LANDS: a lane of a plain or polling load, with the lanes that name the same elements (R155). -/
def execScratchpadLoadLands (id lane : Nat) (s : State) : Out :=
  match s.pendOf id with
  | none => idle s
  | some p =>
    match p.kind, s.landable p lane false with
    | .load .none _, some _ | .load .poll _, some _ =>
      let ls := p.sameElement lane
      if s.groupOk p ls then .next (ls.foldl (fun s l => s.loadLane id l) s) else idle s
    | _, _ => idle s

/-- One element of a plain store performed: its bytes and poison, the log of a write from elsewhere, the step of a live object. -/
def State.storeAcc (s : State) (blk : Nat) (a : Acc) : State :=
  ((s.writeEl a.store a.addr a.z a.val a.psn).logLanded a.store a.addr (leBytes a.z a.val.toNat) (some blk)).objStored
    a.store a.addr a.z

/-- The granules whose last lane of the store this one is, among those the store covers whole: their poison is cleared (R154). -/
def State.clearWhole (s : State) (p : Pend) (lane : Nat) (as : List Acc) : State :=
  match p.kind with
  | .store _ cov =>
    (cov.filter (fun g => as.any (fun a => a.store == g.1 && a.addr / 16 == g.2)
      && p.lanes.all (fun l => l.1 == lane || l.2.all (fun a => !(a.store == g.1 && a.addr / 16 == g.2))))).foldl
      (fun s g => if (s.psns g.1).contains g.2 then s.setPsns g.1 (setDel (s.psns g.1) g.2) else s) s
  | _ => s

/-- A lane of a store is performed: its bytes and poison, then its full-empty bit (R154, R156). -/
def State.storeLane (s : State) (id lane : Nat) (set : Bool) : State :=
  match s.pendOf id with
  | none => s
  | some p =>
    match p.lanes.find lane with
    | none => s
    | some as =>
      let s1 := (as.foldl (fun s a => s.storeAcc p.blk a) s).clearWhole p lane as
      let s2 := match set, granOf as with
        | true, some g => s1.putFe g.1 g.2 true
        | _, _ => s1
      s2.laneOff id lane

/-- SCRATCHPAD_STORE_PERFORMED: a lane of a plain or .fill store. -/
def execScratchpadStorePerformed (id lane : Nat) (s : State) : Out :=
  match s.pendOf id with
  | none => idle s
  | some p =>
    match p.kind, s.landable p lane false with
    | .store .none _, some as => if s.ordOk p lane as then .next (s.storeLane id lane false) else idle s
    | .store .fill _, some as => if s.ordOk p lane as then .next (s.storeLane id lane true) else idle s
    | _, _ => idle s

/-- The lanes of an operation whose primal lies in one granule, ascending. -/
def Pend.sameGranule (p : Pend) (g : Store × Nat) : List Nat :=
  AMap.keys (p.lanes.filter (fun l => match granOf l.2 with
    | some h => h.1 == g.1 && h.2 / 16 == g.2 / 16
    | none => false))

/-- FE_WAIT_SATISFIED: a lane that waits on a full-empty bit finds it as it waits for (R156): a .fe load reads, a .fe.clr load
reads and clears, a .fe store writes and sets; the lanes of one word that name the granule are served together. -/
def execFeWaitSatisfied (id lane : Nat) (s : State) : Out :=
  match s.pendOf id with
  | none => idle s
  | some p =>
    match s.landable p lane false with
    | none => idle s
    | some as =>
      match granOf as with
      | none => idle s
      | some g =>
        let ls := p.sameGranule g
        if !s.groupOk p ls then idle s
        else
          match p.kind with
          | .load .fe _ => if s.full g.1 g.2 then .next (ls.foldl (fun s l => s.loadLane id l) s) else idle s
          | .load .feClr _ =>
            if s.full g.1 g.2 then .next ((ls.foldl (fun s l => s.loadLane id l) s).putFe g.1 g.2 false) else idle s
          | .store .fe _ =>
            if s.full g.1 g.2 then idle s else .next ((ls.foldl (fun s l => s.storeLane id l false) s).putFe g.1 g.2 true)
          | _ => idle s

end Sys2Proof.Machine
end

