-- ==== Sys2Proof/Machine/Paths.lean ====
section
/-! DEFINITION. Paths, join records and the life of threads (R235 to R241, R243, R248, R263): arrival, completion and rejoining,
the block barrier's count, threads that leave, cohorts and blocks that end. -/

namespace Sys2Proof.Machine

/-- The threads of EXEC. -/
def Ctx.threads (x : Ctx) : List Nat := x.coh.threadsOf x.exec

/-! ## Slots and the spill stack (R239) -/

/-- The newest spill entry popped into a free slot; the fairness timer restarts (R239, R241). -/
def Cohort.pop (c : Cohort) : Cohort :=
  match c.spill with
  | [] => c
  | e :: es =>
    if c.pa.isNone then { c with pa := some e.path, spill := es, fair := 0 }
    else if c.pb.isNone then { c with pb := some e.path, spill := es, fair := 0 }
    else c

/-- Free slots filled from the spill stack, a path that waits at a barrier behind those that do not (R265); a lone path moves to slot A
(R22, R239). -/
def Cohort.settle (c : Cohort) : Cohort :=
  let c0 := c.pop.pop
  let c1 := Cohort.yieldBar c0.spill.length c0
  match c1.pa, c1.pb with
  | none, some p => { c1 with pa := some p, pb := none, selB := false }
  | _, _ => c1

/-- A path placed in a free slot, or pushed with a KIND (R239). R145 bounds the stack for the word that diverges alone: a rejoined path is
pushed whatever the stack holds (log entry 73). -/
def Cohort.place (c : Cohort) (p : Path) (kind : BitVec 2) : Cohort :=
  if c.pa.isNone then { c with pa := some p }
  else if c.pb.isNone then { c with pb := some p }
  else { c with spill := ⟨p, kind⟩ :: c.spill }

/-! ## Records (R235, R236, R238) -/

/-- The record a path's threads belong to at a reconvergence point: the most recent that contains them (R238). -/
def Block.recAt (b : Block) (rp : W64) (ts : List Nat) : Option Nat :=
  let hits := b.recs.zipIdx.filter (fun r => r.1.rp == rp && ts.all (fun t => r.1.m.contains t))
  (hits.getLast?).map (·.2)

/-- The record at an index replaced. -/
def Block.setRec (b : Block) (i : Nat) (f : Rec → Rec) : Block :=
  { b with recs := b.recs.zipIdx.map (fun r => if r.2 = i then f r.1 else r.1) }

/-- The record at an index freed. -/
def Block.dropRec (b : Block) (i : Nat) : Block :=
  { b with recs := (b.recs.zipIdx.filter (fun r => r.2 != i)).map (·.1) }

/-- The path in a slot arrives at its record, if there is one; without one its RPC becomes none (R238). The address is not looked at: a
reconvergence point that is no clause header faults when the rejoined path fetches it (R11; log entry 74). -/
def Block.arriveSlot (b : Block) (coh : Nat) (isB : Bool) : Block :=
  match b.coh coh with
  | none => b
  | some c =>
    match c.path isB with
    | none => b
    | some p =>
      match p.rpc with
      | none => b
      | some rp =>
        if p.pc ≠ rp ∨ p.cl.isSome ∨ c.frz.isSome then b
        else
          let ts := c.threadsOf p.mask
          match b.recAt rp ts with
          | none => b.setCoh coh (c.setPath isB (some { p with rpc := none }))
          | some i => (b.setCoh coh (c.setPath isB none)).setRec i (fun r => { r with arr := ts.foldl setIns r.arr })

/-- The rejoined paths of a completed record in each cohort that holds threads of it (R238, R239). -/
def Block.rejoin (b : Block) (r : Rec) : Block :=
  { b with cohs := b.cohs.map (fun c =>
      let m := maskOf (AMap.keys (c.2.lanes.filter (fun l => r.arr.contains l.2.t)))
      if m = 0#32 then c else (c.1, c.2.place (mkPath r.rp m r.orpc) (if r.blk then 1#2 else 0#2))) }

/-- The index of a record that completes now: all of it has arrived, and it is not a block-wide record whose threads return to
their origins first (R246). -/
def Block.doneRec (b : Block) : Option Nat :=
  (b.recs.zipIdx.find? (fun r => !r.1.m.isEmpty && r.1.m == r.1.arr && !(r.1.blk && !r.1.keep))).map (·.2)

/-- Pushed paths that stand at their reconvergence point arrive: the entry is freed; without a record RPC becomes none (R238). -/
def Block.arriveSpill (b : Block) (coh : Nat) : Block :=
  match b.coh coh with
  | none => b
  | some c =>
    if c.frz.isSome then b
    else
      c.spill.foldl (fun b e => match b.coh coh with
        | none => b
        | some c' =>
          let ts := c'.threadsOf e.path.mask
          if e.path.rpc = some e.path.pc ∧ e.path.cl.isNone ∧ e.path.wait.isNone then
            match b.recAt e.path.pc ts with
            | none => b.setCoh coh { c' with spill := c'.spill.map (fun q => if q == e then { q with path := { q.path with rpc := none } } else q) }
            | some i => (b.setCoh coh { c' with spill := c'.spill.filter (fun q => q != e) }).setRec i
                (fun r => { r with arr := ts.foldl setIns r.arr })
          else b) b

/-- Every path that stands at a boundary makes its arrival check. -/
def Block.arriveAll (b : Block) : Block :=
  (AMap.keys b.cohs).foldl (fun b c => ((b.arriveSlot c false).arriveSlot c true).arriveSpill c) b

/-- Records complete one after the other (R238): a rejoined path may arrive at once. -/
def Block.complete : Nat → Block → Block
  | 0, b => b
  | n + 1, b =>
    match b.doneRec with
    | none => b
    | some i =>
      match b.recs[i]? with
      | none => b
      | some r => Block.complete n ((b.dropRec i).rejoin r).arriveAll

/-- Every cohort's slots settled. -/
def Block.settle (b : Block) : Block := { b with cohs := b.cohs.map (fun c => (c.1, c.2.settle)) }

/-- The boundary work of a block: completions, then the slots. -/
def Block.boundary (b : Block) : Block := (Block.complete (b.recs.length + 1) b).settle

/-- One path's boundary (R238 to R240): the arrival check, the completions, a waiting demotion. -/
def Block.pathBoundary (b : Block) (coh : Nat) (isB : Bool) : Block :=
  let dem := (((b.coh coh).bind (fun c => c.path isB)).map (·.dem)).getD false
  let live := (((b.arriveSlot coh isB).coh coh).bind (fun c => c.path isB)).isSome
  let b1 := (b.arriveSlot coh isB).boundary
  if dem && live then
    match b1.coh coh with
    | some c => b1.setCoh coh ((c.demote isB).settle)
    | none => b1
  else b1

/-! ## The block barrier (R263) -/

/-- The threads of the block that have not exited: Live. -/
def Block.live (b : Block) : List Nat := b.cohs.foldl (fun ts c => c.2.lanes.foldl (fun ts l => setIns ts l.2.t) ts) []

/-- A waiting path when phase `ph` (counted after it) completes: released, or its late threads arrive in the next phase. -/
def Path.phaseDone (ph : Nat) (p : Path) : Path :=
  match p.wait with
  | none => p
  | some w =>
    match w.kind with
    | .bar => if w.late.isEmpty then { p with wait := some { w with released := true } }
        else { p with wait := some { w with num := ph, late := [] } }
    | .bara => { p with wait := some { w with released := true, num := ph, late := [] } }
    | .barw => if w.num < ph then { p with wait := some { w with released := true } } else p
    | _ => p

/-- The threads that arrive late of a path. -/
def Path.late (p : Path) : List Nat := (p.wait.map (·.late)).getD []

/-- The paths of a cohort. -/
def Cohort.paths (c : Cohort) : List Path := c.pa.toList ++ c.pb.toList ++ c.spill.map (·.path)

/-- The phase completes (R263): PH grows, Arr empties, waits end, late threads arrive. -/
def Block.phase (b : Block) : Block :=
  let late := b.cohs.foldl (fun ts c => c.2.paths.foldl (fun ts p => p.late.foldl setIns ts) ts) []
  { b with
    ph := b.ph + 1
    arr := late
    cohs := b.cohs.map (fun c => (c.1, c.2.mapPaths (Path.phaseDone (b.ph + 1)))) }

/-- The barrier's check after an arrival or a departure: a BAR phase completes, an SBAR phase makes the block's arrival (R263,
R266). -/
def Block.barCheck (b : Block) : Block :=
  if b.arr.isEmpty ∨ b.arr ≠ b.live then b
  else
    match b.sbo with
    | some o => { b with sbo := some { o with made := true } }
    | none =>
      let b1 := b.phase
      if !b1.arr.isEmpty && b1.arr == b1.live then b1.phase else b1

/-- The block's arrival sent to its instance's barrier (R266). -/
def scopeInst (sc : Scope) (die core : Nat) : Nat :=
  match sc with
  | .core => 256 * die + core
  | .quad => 64 * die + core / 4
  | .clus => 4 * die + core / 64
  | .die => die
  | _ => 0

/-- The instance arrivals of a grid with a block's arrival added (R266): the first of a phase fixes the expected count. -/
def Grid.arriveAt (g : Grid) (o : SOpen) (blk die core : Nat) : Grid :=
  if o.isGrid then { g with garr := setIns g.garr blk }
  else
    let inst := scopeInst o.scope die core
    if g.sbars.any (fun i => i.scope == o.scope && i.inst == inst) then
      { g with sbars := g.sbars.map (fun i => if i.scope = o.scope ∧ i.inst = inst then { i with arr := setIns i.arr blk } else i) }
    else { g with sbars := g.sbars ++ [⟨o.scope, inst, o.n, [blk]⟩] }

/-- A block put back after barrier work: a new block arrival reaches its instance; a completed phase is logged (R346); the state
behind a retired clause is kept (R349). -/
def State.putBlock (s : State) (id : Nat) (old new : Block) : State :=
  let s1 := s.setBlock id new
  let s2 := match new.sbo, (old.sbo.map (·.made)).getD false with
    | some o, false => if o.made then (match s1.grid new.grid with
        | some g => s1.setGrid new.grid (g.arriveAt o id new.die new.core)
        | none => s1) else s1
    | _, _ => s1
  let s3 := if old.ph < new.ph then s2.logRec ⟨id, 0⟩ 6 0 (BitVec.ofNat 64 new.ph) else s2
  if Block.ticked old new then s3.snap id false else s3

/-! ## Threads that leave (R238, R248, R330) -/

/-- The counter of a SPAWN that a path waits in, for records that it has not appended (R299). -/
def Path.spawnSlot (p : Path) : Option (BitVec 3) :=
  match p.cl with
  | some cl =>
    let w := cl.words.getD (cl.wi - 1) 0#64
    if (p.wait.map (·.kind)) = some .spawn ∧ w.getLsbD 55 then some (w.extractLsb' 52 3) else none
  | none => none

/-- The lanes of a cohort leave: the threads, their place in paths and entries; paths left empty end, a SPAWN that one of them waits in with
them. -/
def Cohort.dropLanes (c : Cohort) (m : W32) : Cohort :=
  let cut (p : Path) : Path := { p with mask := p.mask &&& ~~~m }
  let ends := ((c.pa.toList ++ c.pb.toList ++ c.spill.map (·.path)).filter (fun p => (cut p).mask == 0#32)).filterMap Path.spawnSlot
  { ends.foldl (fun c n => c.decCtr n) c with
    lanes := c.lanes.filter (fun l => !m.getLsbD l.1)
    pa := (c.pa.map cut).filter (fun p => p.mask != 0#32)
    pb := (c.pb.map cut).filter (fun p => p.mask != 0#32)
    spill := (c.spill.map (fun e => { e with path := cut e.path })).filter (fun e => e.path.mask != 0#32) }

/-- Threads leave every record; records left empty are freed (R238). -/
def Block.dropThreads (b : Block) (ts : List Nat) : Block :=
  let cut (l : List Nat) : List Nat := l.filter (fun t => !ts.contains t)
  { b with
    recs := (b.recs.map (fun r => { r with m := cut r.m, arr := cut r.arr })).filter (fun r => !r.m.isEmpty)
    arr := cut b.arr }

/-- The lanes of a cohort exit (R248, R263): they leave paths, records and the barrier; a cohort that has lost its last thread
retires. -/
def Block.exitLanes (b : Block) (coh : Nat) (m : W32) : Block :=
  match b.coh coh with
  | none => b
  | some c =>
    let ts := c.threadsOf m
    (((b.setCoh coh (c.dropLanes m)).dropThreads ts).boundary).barCheck

/-- The replies of killed lanes are dropped; the word's counter decrements when the lanes that remain are done (R330). Memory
effects already sent still happen. -/
def State.dropReplies (s : State) (r : CohRef) (m : W32) : State :=
  let cut (p : Pend) : Pend :=
    if p.blk = r.blk ∧ p.coh = r.coh then
      (if p.kind.regOnly then { p with lanes := p.lanes.filter (fun l => !m.getLsbD l.1) } else p)
    else p
  let s1 := { s with pend := s.pend.map cut }
  let none' (p : Pend) : Bool := p.lanes.isEmpty && !p.more && (match p.kind with
    | .matrix _ => false
    | _ => true)
  (s1.pend.filter (fun p => p.blk == r.blk && p.coh == r.coh && none' p)).foldl (fun s p => s.finishPend p none) s1

/-- A record names something that is still frozen or suspended. -/
def State.recLive (s : State) : FRec → Bool
  | .coh b c => ((s.coh ⟨b, c⟩).map (·.frz.isSome)).getD false
  | .copy id => ((s.copyT id).map (·.susp.isSome)).getD false

/-- A capability put back (R331): its record returns to the tail of the die fault queue, or of the nest slots' list. A cohort that
is being stepped has no record until it freezes. -/
def State.freeCap (s : State) (die : Nat) (c : Cap) : State :=
  let s1 := s.endCap die c.num
  let d := s1.die die
  let nest : Bool := match c.what with
    | .coh b _ => ((s.block b).map (·.isHandler)).getD false
    | .copy _ => false
  if !s.recLive c.what then s1
  else s1.setDie die (if nest then { d with nestq := d.nestq ++ [c.what] } else d.enqueue c.what)

/-- A handler that has lost its threads gives its live capability back, as FREL (R316). -/
def State.handlerExit (s : State) (blk : Nat) : State :=
  match s.block blk with
  | none => s
  | some b =>
    match b.kind with
    | .handler _ _ cap =>
      if b.live.isEmpty then
        match (s.die b.die).caps.find? (fun c => c.num == cap) with
        | some c => s.freeCap b.die c
        | none => s
      else s
    | _ => s

/-- Lanes of a cohort killed or exited, with everything that follows (R248, R330). -/
def State.exitLanes (s : State) (r : CohRef) (m : W32) : State :=
  match s.block r.blk with
  | none => s
  | some b =>
    let s1 := s.putBlock r.blk b (b.exitLanes r.coh m)
    ((s1.dropReplies r m).handlerExit r.blk).reap r.blk

end Sys2Proof.Machine
end

