-- ==== Sys2Proof/Machine/Control.lean ====
section
/-! DEFINITION. CLASS 0xB but SPAWN (R247 to R251), the meetings of REGROUP and BRC.blk (R243 to R246), and the return of a
block-wide record's threads to their origins. -/

namespace Sys2Proof.Machine

/-! ## Plain control words (R248 to R250) -/

/-- A control word completes: its path leaves the clause for the header `pc`, `f` changes the cohort further, then the boundary of
the path is taken (R238). -/
def State.ctlGo (s : State) (x : Ctx) (pc : W64) (f : Cohort → Cohort) (g : Block → Block) : State :=
  match s.block x.ref.blk with
  | none => s
  | some b =>
    match b.coh x.ref.coh with
    | none => s
    | some c =>
      let b1 := b.setCoh x.ref.coh (f ((c.wordDone x.isB).closeClause x.isB pc))
      s.putBlock x.ref.blk b (g b1)

/-- A branch of the whole path to a header. -/
def State.goTo (s : State) (x : Ctx) (pc : W64) : State := s.ctlGo x pc id (fun b => b.pathBoundary x.ref.coh x.isB)

/-- header + 8 × offset (R247). -/
def Ctx.target (x : Ctx) (off : BitVec 19) : W64 := x.path.pc + (off.signExtend 64 <<< 3)

/-- NOP. -/
def execNop (c : Ctl) (s : State) : Out := word c s (fun x => .ctl (s.goTo x x.nextHdr))

/-- BRA. -/
def execBra (c : Ctl) (off : BitVec 19) (s : State) : Out := word c s (fun x => .ctl (s.goTo x (x.target off)))

/-- BRX. -/
def execBrx (c : Ctl) (a : Src) (s : State) : Out := word c s (fun x => .ctl (s.goTo x (x.sca s.clk c.lit a)))

/-- JOIN. -/
def execJoin (c : Ctl) (s : State) : Out := word c s (fun x => .ctl (s.goTo x (x.path.rpc.getD x.nextHdr)))

/-- The reconvergence point of a BRC: header + 8 × SC. -/
def Ctx.reconv (x : Ctx) (rec : BitVec 10) : W64 := x.path.pc + (rec.setWidth 64 <<< 3)

/-- The two sides of a divergence placed (R237): the fall side keeps its slot, the taken side takes the other slot or is
pushed; the next clause goes to slot A (R239). -/
def Cohort.diverge (c : Cohort) (isB : Bool) (ft tk : W32) (n t rn : W64) : Cohort :=
  let p (q : Path) : Path := { q with pc := n, mask := ft, rpc := some rn }
  let q := mkPath t tk (some rn)
  let c1 := c.setPath isB ((c.path isB).map p)
  let c2 := if (c1.path (!isB)).isNone then c1.setPath (!isB) (some q) else { c1 with spill := ⟨q, 0#2⟩ :: c1.spill }
  { c2 with selB := true }

/-- The boundary after a divergence: arrivals of both sides, completions, a waiting demotion of the side that kept its slot. -/
def Block.divBoundary (b : Block) (coh : Nat) (isB : Bool) : Block :=
  let dem := (((b.coh coh).bind (fun c => c.path isB)).map (·.dem)).getD false
  let b0 := b.arriveAll
  let live := ((b0.coh coh).bind (fun c => c.path isB)).isSome
  let b1 := b0.boundary
  if dem && live then
    match b1.coh coh with
    | some c => b1.setCoh coh ((c.demote isB).settle)
    | none => b1
  else b1

/-- BRC (R237, R249, R251). -/
def execBrc (c : Ctl) (off : BitVec 19) (rec : BitVec 10) (p : Src) (s : State) : Out :=
  word c s (fun x =>
    let mask : W32 := (x.sca s.clk c.lit p).setWidth 32
    let tk := x.exec &&& mask
    let ft := x.exec &&& ~~~mask
    let rn := x.reconv rec
    let new : Bool := x.path.rpc != some rn
    if ft = 0#32 then .ctl (s.goTo x (x.target off))
    else if tk = 0#32 then .ctl (s.goTo x x.nextHdr)
    else if new ∧ 32 ≤ x.blk.recs.length then .trap (Fz.of kProtection 0x2C x.exec)
    else if (x.coh.path (!x.isB)).isSome ∧ x.blk.cfg.spd ≤ x.coh.spill.length then .trap (Fz.of kProtection 0x2A x.exec)
    else
      .ctl (s.ctlGo x x.nextHdr (fun k => k.diverge x.isB ft tk x.nextHdr (x.target off) rn) (fun b =>
        let b1 : Block := if new then { b with recs := b.recs ++ [⟨rn, x.path.rpc, x.threads, [], false, false, []⟩] } else b
        b1.divBoundary x.ref.coh x.isB)))

/-- EXIT. -/
def execExit (c : Ctl) (s : State) : Out :=
  word c s (fun x => .ctl ((s.ctlGo x x.nextHdr id id).exitLanes x.ref x.exec))

/-- CALL: the link pair of each lane, then the branch (R250). The zero tangents are written in launch-wide mode alone; outside it they stay
as they are (R16, R217, R218; log entry 79). -/
def execCall (c : Ctl) (off : BitVec 19) (link : VNum) (s : State) : Out :=
  word c s (fun x =>
    let s1 := s.updCoh x.ref (fun k => x.lanes.foldl (fun k l => k.updThread l (fun t =>
      t.putV link.toNat true (some (x.nextHdr, .raw, false)) (if x.blk.cfg.dualn = 0 then [] else tanIdx.map (fun i => (i, 0#64, false))))) k)
    .ctl (s1.goTo x (x.target off)))

/-- RET: to the link of the lowest lane, which every lane must share (R250). -/
def execRet (c : Ctl) (link : Src) (s : State) : Out :=
  word c s (fun x =>
    match parityCheck x s [link] x.lanes with
    | .error e => e
    | .ok s1 =>
      let es := x.lanes.map (fun l => (l, x.el s1.clk c.lit true l link))
      let psn := maskOf (AMap.keys (es.filter (fun e => e.2.psn)))
      let dest := match es with
        | e :: _ => e.2.val
        | [] => 0#64
      let bad := maskOf (AMap.keys (es.filter (fun e => e.2.val != dest)))
      if psn ≠ 0#32 then .trap (Fz.of kPoison 0 psn)
      else if bad ≠ 0#32 then .trap (Fz.of kIllState 0 bad)
      else .ctl (s1.goTo x dest))

/-! ## Meetings (R243 to R246) -/

/-- A path stops at a meeting word; with a spill entry waiting it is an illegal-state fault (R243). -/
def meetWord (c : Ctl) (s : State) : Out :=
  word c s (fun x =>
    if !x.coh.spill.isEmpty then .trap (Fz.of kIllState 0 x.exec) else .wait s ⟨.meeting, false, s.clk, 0, []⟩)

/-- REGROUP. -/
def execRegroup (c : Ctl) (s : State) : Out := meetWord c s
/-- BRC.blk. -/
def execBrcBlk (c : Ctl) (_off : BitVec 19) (_rec : BitVec 10) (_p : Src) (s : State) : Out := meetWord c s
/-- BRC.blk.keep. -/
def execBrcBlkKeep (c : Ctl) (_off : BitVec 19) (_rec : BitVec 10) (_p : Src) (s : State) : Out := meetWord c s

/-- A path that stands at a meeting word. -/
structure Stop where
  coh  : Nat
  isB  : Bool
  path : Path
  i    : Option Instr
deriving DecidableEq, Repr

/-- A path waits in a wait of a kind. -/
def Path.waits (p : Path) (k : WaitKind) : Bool := (p.wait.map (·.kind)) == some k

/-- The instruction word a path stands at. -/
def Path.word (lim : Lim) (p : Path) : Option Instr :=
  match p.cl with
  | some cl =>
    match decodeWord lim (cl.words.getD (cl.wi - 1) 0#64) (cl.words.getD cl.wi 0#64) with
    | .ok i => some i
    | .error _ => none
  | none => none

/-- The instruction word a waiting path stands at: the one behind a prefix (R61). -/
def Path.waitWord (lim : Lim) (p : Path) : Option Instr :=
  match p.word lim with
  | some (.dx _ _) => ({ p with cl := p.cl.map (fun cl => { cl with wi := cl.wi + 1 }) } : Path).word lim
  | i => i

/-- The paths of a block that stand at meeting words, by cohort, slot A first. -/
def Block.stops (b : Block) : List Stop :=
  b.cohs.flatMap (fun c => [false, true].filterMap (fun isB => match c.2.path isB with
    | some p => if p.waits .meeting then some ⟨c.1, isB, p, p.word b.lim⟩ else none
    | none => none))

/-- The counters of a block's cohorts are zero and nothing of theirs is in flight (R243, R280). -/
def State.blockQuiet (s : State) (blk : Nat) (b : Block) : Bool :=
  b.cohs.all (fun c => c.2.quiet && c.2.frz.isNone)
  && !s.copies.any (fun c => c.blk == blk) && !s.pend.any (fun p => p.blk == blk)

/-- Every thread of the block stands at a meeting word or waits in a record (R243). -/
def Block.allMet (b : Block) : Bool :=
  b.cohs.all (fun c => c.2.lanes.all (fun l =>
    [c.2.pa, c.2.pb].any (fun p => match p with
      | some q => q.waits .meeting && q.mask.getLsbD l.1
      | none => false)
    || b.recs.any (fun r => r.arr.contains l.2.t)))

/-- A refused meeting (R243): every cohort with a stopped path freezes, at slot A's path first; its other stopped path issues its
word again. -/
def State.refuseMeeting (s : State) (blk : Nat) (b : Block) (kind code : Nat) : State :=
  b.cohs.foldl (fun s c =>
    let at' (isB : Bool) : Option Path := (c.2.path isB).filter (fun p => p.waits .meeting)
    let pick : Option (Bool × Path) := match at' false, at' true with
      | some p, _ => some (false, p)
      | none, some p => some (true, p)
      | none, none => none
    match pick with
    | none => s
    | some (isB, p) =>
      let f : Freeze := ⟨kind, code, if kind = kProtection then 0xF else 0, (p.cl.map (·.wi)).getD 0, isB, p.pc, 0#64, false, false, []⟩
      let s1 := s.updCoh ⟨blk, c.1⟩ (fun k =>
        { k.mapPaths (fun q => if q.waits .meeting then { q with wait := none } else q) with selB := isB })
      s1.freezeCoh ⟨blk, c.1⟩ f p.mask 0#32 0#32) s

/-- A group of threads of a meeting (R244): active with its next header and reconvergence point, or waiting in a record. -/
structure MGroup where
  active : Option (W64 × Option W64)
  ts     : List Nat
deriving DecidableEq, Repr

/-- Groups in ascending order of their lowest thread. -/
def insGroup (g : MGroup) : List MGroup → List MGroup
  | [] => [g]
  | h :: r => if g.ts.headD 0 < h.ts.headD 0 then g :: h :: r else h :: insGroup g r
def sortGroups (gs : List MGroup) : List MGroup := (gs.filter (fun g => !g.ts.isEmpty)).foldl (fun l g => insGroup g l) []

/-- The next header of a stopped path. -/
def Path.next (p : Path) : W64 := p.pc + BitVec.ofNat 64 (8 * (((p.cl.map (·.words.length)).getD 0) + 1))

/-- The waiting groups: the arrived threads of each record. -/
def Block.waiting (b : Block) : List MGroup := b.recs.map (fun r => ⟨none, r.arr⟩)

/-- The threads of a stopped path. -/
def Block.stopThreads (b : Block) (p : Stop) : List Nat := ((b.coh p.coh).map (fun c => c.threadsOf p.path.mask)).getD []

/-- REGROUP's groups (R245): one for each pair of next header and record among the stopped paths. -/
def Block.regroups (b : Block) (stops : List Stop) : List MGroup :=
  stops.foldl (fun gs p =>
    let ts := b.stopThreads p
    let rpc := match p.path.rpc with
      | some rp => if (b.recAt rp ts).isSome then some rp else none
      | none => none
    let idx (l : List Nat) : Option Nat := rpc.bind (fun rp => b.recAt rp l)
    let same (g : MGroup) : Bool := g.active == some (p.path.next, rpc) && idx g.ts == idx ts
    if gs.any same then gs.map (fun g => if same g then { g with ts := ts.foldl setIns g.ts } else g)
    else gs ++ [⟨some (p.path.next, rpc), ts⟩]) []

/-- The thread of a linear index with the cohort that holds it. -/
def Block.threadOf (b : Block) (t : Nat) : Option (Nat × Thread) :=
  b.cohs.findSome? (fun c => (c.2.lanes.find? (fun l => l.2.t == t)).map (fun l => (c.1, l.2)))

/-- The threads of the groups given lanes densely: cohort, lane, old cohort, thread, group. -/
def Block.packed (b : Block) (gs : List MGroup) : List (Nat × Nat × Nat × Thread × MGroup) :=
  (gs.flatMap (fun g => g.ts.filterMap (fun t => (b.threadOf t).map (fun p => (p, g))))).zipIdx.map (fun q =>
    (q.2 / 32, q.2 % 32, q.1.1.1, { q.1.1.2 with resv := none }, q.1.2))

/-- A new cohort of a meeting (R244): its lanes, its first two active groups in slots A and B, the others pushed; s and k from the
lowest old cohort that supplies a thread. -/
def Block.newCohort (b : Block) (ps : List (Nat × Nat × Nat × Thread × MGroup)) (gs : List MGroup) (j : Nat) : Option Cohort :=
  match b.coh j with
  | none => none
  | some old =>
    let mine := ps.filter (fun q => q.1 == j)
    let lanes : AMap Thread := mine.map (fun q => (q.2.1, q.2.2.2.1))
    let from' := mine.foldl (fun m q => Nat.min m q.2.2.1) 1000
    let src := (b.coh from').getD old
    let paths := gs.filterMap (fun g => match g.active with
      | some a =>
        let m := maskOf ((mine.filter (fun q => q.2.2.2.2 == g)).map (·.2.1))
        if m = 0#32 then none else some (mkPath a.1 m a.2)
      | none => none)
    let met := [old.pa, old.pb].any (fun p => match p with
      | some q => q.waits .meeting
      | none => false)
    some { mkCohort lanes 0#64 old.part old.cslot with
      pa := paths[0]?
      pb := paths[1]?
      selB := true
      spill := (paths.drop 2).map (fun p => ⟨p, 0#2⟩)
      s := src.s
      k := src.k
      ncls := if met then old.ncls + 1 else old.ncls
      psamp := old.psamp }

/-- A cohort without threads after a meeting: retired, or idle with its resources (R245, R246); one that had retired before holds none. -/
def Cohort.emptied (c : Cohort) (retire : Bool) : Cohort :=
  { mkCohort [] 0#64 c.part c.cslot with pa := none, ncls := c.ncls, idle := !retire && !c.retired }

/-- The block after a meeting with the groups given, none when a cohort would need more spill entries than SPD (R244). -/
def Block.pack (b : Block) (gs : List MGroup) (retire : Bool) : Option Block :=
  let ps := b.packed gs
  let n := (ps.length + 31) / 32
  let cohs : AMap Cohort := b.cohs.map (fun c => (c.1,
    if c.1 < n then (b.newCohort ps gs c.1).getD c.2 else c.2.emptied retire))
  if cohs.any (fun c => b.cfg.spd < c.2.spill.length) then none
  else some { b with cohs := cohs, ncoh := n }

/-- A block-wide branch among the stopped words: its condition, target, reconvergence point, KEEP (R246). -/
structure BlkBr where
  c    : Ctl
  off  : BitVec 19
  rcv  : BitVec 10
  p    : Src
  keep : Bool
deriving DecidableEq, Repr

def blkBr : Instr → Option BlkBr
  | .brcBlk c off rec p => some ⟨c, off, rec, p, false⟩
  | .brcBlkKeep c off rec p => some ⟨c, off, rec, p, true⟩
  | _ => none

/-- The context of a stopped path, for its scalar operands. -/
def State.stopCtx (s : State) (blk : Nat) (b : Block) (p : Stop) : Option Ctx :=
  match s.grid b.grid, b.coh p.coh with
  | some g, some c => some ⟨⟨blk, p.coh⟩, g, b, c, p.path, p.isB, none⟩
  | _, _ => none

/-- The taken and the fall-through threads of BRC.blk (R246). -/
def State.blkSides (s : State) (blk : Nat) (b : Block) (stops : List Stop) : List Nat × List Nat :=
  stops.foldl (fun r p =>
    match p.i.bind blkBr, s.stopCtx blk b p with
    | some br, some x =>
      let m : W32 := (x.sca s.clk br.c.lit br.p).setWidth 32
      ((x.coh.threadsOf (x.exec &&& m)).foldl setIns r.1, (x.coh.threadsOf (x.exec &&& ~~~m)).foldl setIns r.2)
    | _, _ => r) ([], [])

/-- The origins of every thread of a block. -/
def Block.origins (b : Block) : AMap (Nat × Nat) :=
  b.cohs.foldl (fun m c => c.2.lanes.foldl (fun m l => AMap.set m l.2.t (c.1, l.1)) m) []

/-- A block after its meeting: arrivals, completions, waits of the barrier. -/
def State.meetDone (s : State) (blk : Nat) (old new : Block) : State :=
  (s.putBlock blk old (new.arriveAll).boundary).logRec ⟨blk, 0⟩ 6 0 0#64

/-- The meeting of BRC.blk words (R246). -/
def State.meetBlk (s : State) (blk : Nat) (b : Block) (stops : List Stop) (p0 : Stop) (br : BlkBr) : State :=
  let sides := s.blkSides blk b stops
  let rpc := p0.path.rpc
  let tgt := p0.path.pc + (br.off.signExtend 64 <<< 3)
  let rn := p0.path.pc + (br.rcv.setWidth 64 <<< 3)
  let both := !sides.1.isEmpty && !sides.2.isEmpty
  let gr : Option W64 := if both then some rn else rpc
  if stops.any (fun q => q.path.rpc != rpc) then s.refuseMeeting blk b kIllState 0
  else if both ∧ 32 ≤ b.recs.length then s.refuseMeeting blk b kProtection 0x2C
  else
    let gs := (([⟨some (p0.path.next, gr), sides.2⟩, ⟨some (tgt, gr), sides.1⟩] : List MGroup).filter (fun g => !g.ts.isEmpty))
      ++ sortGroups b.waiting
    match b.pack gs br.keep with
    | none => s.refuseMeeting blk b kProtection 0x2A
    | some nb =>
      let rc : Rec := ⟨rn, rpc, sides.1.foldl setIns sides.2, [], true, br.keep, if br.keep then [] else b.origins⟩
      s.meetDone blk b (if both then { nb with recs := nb.recs ++ [rc] } else nb)

/-- MEETING_COMPLETE (R243 to R246). -/
def execMeetingComplete (blk : Nat) (s : State) : Out :=
  match s.block blk with
  | none => idle s
  | some b =>
    match b.stops with
    | [] => idle s
    | p0 :: ps =>
      if b.saved || !b.allMet || !s.blockQuiet blk b || b.cohs.any (fun c => s.partStopped ⟨blk, c.1⟩) then idle s
      else
        let stops := p0 :: ps
        let regs := stops.all (fun p => (p.i.bind blkBr).isNone)
        let blks := stops.all (fun p => (p.i.bind blkBr).isSome && p.path.pc == p0.path.pc)
        if regs then
          match b.pack (sortGroups (b.regroups stops ++ b.waiting)) true with
          | none => .next (s.refuseMeeting blk b kProtection 0x2A)
          | some nb => .next (s.meetDone blk b nb)
        else if blks then
          match p0.i.bind blkBr with
          | some br => .next (s.meetBlk blk b stops p0 br)
          | none => idle s
        else .next (s.refuseMeeting blk b kIllState 0)

/-- A path of a compacted cohort as far as its threads return to one origin cohort: their lanes there. -/
def originPath (mine : List (Nat × Nat × Nat × Thread)) (coh : Nat) (p : Path) : Option Path :=
  let m := maskOf ((mine.filter (fun q => q.2.1 == coh && p.mask.getLsbD q.2.2.1)).map (·.1))
  if m = 0#32 then none else some { p with mask := m }

/-- A cohort restored to its origins (R246): its threads by their lanes; the paths that they are in, those of slots first, and then the
rejoined path of the record (R239); s and k from the lowest compacted cohort that held one of its threads. A cohort that a REGROUP inside
the branch has retired runs again when a thread returns to it; one to which none returns stays idle for the branches around this one alone,
and retires otherwise (log entry 80). -/
def Block.origCohort (b : Block) (r : Rec) (j : Nat) (old : Cohort) : Cohort :=
  let mine := b.cohs.flatMap (fun c => c.2.lanes.filterMap (fun l => match r.origins.find l.2.t with
    | some o => if o.1 = j then some (o.2, c.1, l.1, l.2) else none
    | none => none))
  if mine.isEmpty then
    { old.emptied true with
      s := old.s
      k := old.k
      idle := !old.retired && b.recs.any (fun q => q.blk && !q.keep && q != r && q.origins.any (fun o => o.2.1 == j)) }
  else
    let lanes : AMap Thread := mine.foldl (fun m q => AMap.set m q.1 q.2.2.2) []
    let src := (b.coh (mine.foldl (fun m q => Nat.min m q.2.1) 1000)).getD old
    let m := maskOf ((mine.filter (fun q => r.arr.contains q.2.2.2.t)).map (·.1))
    let slots := b.cohs.flatMap (fun c => (c.2.pa.toList ++ c.2.pb.toList).filterMap (originPath mine c.1))
    let pushed := b.cohs.flatMap (fun c => c.2.spill.filterMap (fun e => (originPath mine c.1 e.path).map (fun p => (⟨p, e.kind⟩ : Spill))))
    let c0 : Cohort := { mkCohort lanes 0#64 old.part old.cslot with
      pa := slots[0]?
      pb := slots[1]?
      selB := true
      spill := (slots.drop 2).map (fun p => ⟨p, 0#2⟩) ++ pushed
      s := src.s
      k := src.k
      ncls := old.ncls
      psamp := old.psamp }
    if m = 0#32 then c0 else c0.place (mkPath r.rp m r.orpc) 1#2

/-- BLK_RECORD_RESTORE: the threads of a completed block-wide record without KEEP return to their origins (R246), once the core has the
segments of the cohorts that run again (log entry 80). -/
def execBlkRecordRestore (blk : Nat) (s : State) : Out :=
  match s.block blk with
  | none => idle s
  | some b =>
    match b.recs.zipIdx.find? (fun r => r.1.blk && !r.1.keep && !r.1.m.isEmpty && r.1.m == r.1.arr) with
    | none => idle s
    | some (r, i) =>
      if b.saved || !s.blockQuiet blk b || b.cohs.any (fun c => c.2.mid) then idle s
      else
        let cohs : AMap Cohort := b.cohs.map (fun c => (c.1, b.origCohort r c.1 c.2))
        let n := cohs.foldl (fun m c => if c.2.retired then m else c.1 + 1) 0
        let nb : Block := { b with cohs := cohs, ncoh := n }
        if !b.isHandler && decide (256 < s.heldSegs b.coreId - b.segs + nb.segs) then idle s
        else .next (s.meetDone blk b (nb.dropRec i))

end Sys2Proof.Machine
end

