-- ==== Sys2Proof/Machine/FpVec.lean ====
section
/-! DEFINITION. CLASS 0x2, the floating-point vector words (R170 to R175), with their tangent rules (R188). -/

namespace Sys2Proof.Machine

/-- The residue unit of the floating-point multipliers of the lanes (R369). -/
def uFp : Nat := 0x03

/-- One element of the operands with one tangent of each: a, b, c and ta, tb, tc. -/
structure Op3 where
  a  : Nat
  b  : Nat
  e  : Nat
  ta : Nat
  tb : Nat
  te : Nat
deriving DecidableEq, Repr

/-- Element `i` of operand `n` in format `f`. -/
def elAt (f : Tag) (es : List El) (n i : Nat) : Nat := (f.elems ((es[n]?).map (·.val.toNat) |>.getD 0)).getD i 0
/-- Element `i` of tangent `k` of operand `n`. -/
def tanAt (f : Tag) (es : List El) (k n i : Nat) : Nat := (f.elems ((es[n]?).map (·.tn k) |>.getD 0)).getD i 0

/-- The operands of element `i` with tangent `k`. -/
def op3 (f : Tag) (es : List El) (k i : Nat) : Op3 :=
  ⟨elAt f es 0 i, elAt f es 1 i, elAt f es 2 i, tanAt f es k 0 i, tanAt f es k 1 i, tanAt f es k 2 i⟩

/-- A list of options, all there or none. -/
def allSome {α : Type} : List (Option α) → Option (List α)
  | [] => some []
  | none :: _ => none
  | some a :: r => (allSome r).map (a :: ·)

/-- A lane in format `f`: the operands checked, each element computed with its conditions and the tangents wanted; the result
has the tag `tag`. -/
def fmtLane (c : Ctl) (s : State) (x : Ctx) (l : Nat) (f tag : Tag) (srcs : List Src) (prim : Op3 → BRes)
    (tanf : Nat → Op3 → Nat) : Option LRes :=
  match allSome (srcs.map (fun a => x.elFmt s.clk c.lit f l a)) with
  | none => none
  | some es =>
    let n := f.count
    let rs := (List.range n).map (fun i => prim (op3 f es 0 i))
    let val := f.joinEls (rs.map (·.bits))
    let cnd := rs.foldl (fun m r => m ||| r.c) 0#3
    let tans := x.want.map (fun k => (k, BitVec.ofNat 64 (f.joinEls ((List.range n).map (fun i =>
      tanf ((rs[i]?).map (·.bits) |>.getD 0) (op3 f es k i))))))
    some ⟨BitVec.ofNat 64 val, f == .f64, tag, tans, es.any (fun e => e.poisoned x.want), cnd, false⟩

/-- A lane of an FP word: its format must be one of R170's. -/
def fpLane (c : Ctl) (s : State) (x : Ctx) (l : Nat) (srcs : List Src) (prim : Tag → Op3 → BRes) (tanf : Tag → Nat → Op3 → Nat) :
    Option LRes :=
  let f := x.fmt s.clk l .f32 srcs
  if f.isFp then fmtLane c s x l f f srcs (prim f) (tanf f) else none

/-- An FP word whose result has the format of its operands. -/
def fpWord (c : Ctl) (s : State) (unit : Nat) (d : Dst) (srcs : List Src) (prim : Tag → Op3 → BRes)
    (tanf : Tag → Nat → Op3 → Nat) : Out :=
  vecWord c s unit d srcs (fun x l => fpLane c s x l srcs prim tanf)

/-- −a ... the bits of an operation without its conditions. -/
def bitsOf (r : BRes) : Nat := r.bits

/-! ## The tangent rules of R188 -/

def tanAdd (f : Tag) (_ : Nat) (o : Op3) : Nat := (opAdd f .rne o.ta o.tb).bits
def tanSub (f : Tag) (_ : Nat) (o : Op3) : Nat := (opSub f .rne o.ta o.tb).bits
def tanMul (f : Tag) (_ : Nat) (o : Op3) : Nat := (opFma f .rne o.a o.tb (opMul f .rne o.ta o.b).bits).bits
def tanFma (f : Tag) (_ : Nat) (o : Op3) : Nat :=
  (opAdd f .rne (opFma f .rne o.a o.tb (opMul f .rne o.ta o.b).bits).bits o.te).bits
def tanDiv (f : Tag) (q : Nat) (o : Op3) : Nat := (opDiv f .rne (opFnma f .rne q o.tb o.ta).bits o.b).bits
def tanSqrt (f : Tag) (r : Nat) (o : Op3) : Nat := (opDiv f .rne o.ta (opScale f .rne r 1).bits).bits

/-- FADD (R171). -/
def execFadd (c : Ctl) (r : Rnd) (d : Dst) (a b : Src) (s : State) : Out :=
  fpWord c s 0 d [a, b] (fun f o => opAdd f r o.a o.b) tanAdd
/-- FSUB (R171). -/
def execFsub (c : Ctl) (r : Rnd) (d : Dst) (a b : Src) (s : State) : Out :=
  fpWord c s 0 d [a, b] (fun f o => opSub f r o.a o.b) tanSub
/-- FMUL (R171). -/
def execFmul (c : Ctl) (r : Rnd) (d : Dst) (a b : Src) (s : State) : Out :=
  fpWord c s uFp d [a, b] (fun f o => opMul f r o.a o.b) tanMul
/-- FFMA (R171). -/
def execFfma (c : Ctl) (r : Rnd) (d : Dst) (a b e : Src) (s : State) : Out :=
  fpWord c s uFp d [a, b, e] (fun f o => opFma f r o.a o.b o.e) tanFma

/-- The operand FMIN or FMAX returns; the canonical NaN when both are NaN (R172). -/
def minMax (isMax : Bool) (f : Tag) (a b : Nat) : Nat :=
  let va := f.value false a
  let vb := f.value false b
  if va.isNan && vb.isNan then f.nanCode else if fSelA isMax va vb then a else b
/-- The tangent of the operand that is returned; zero when both are NaN (R188). -/
def tanMinMax (isMax : Bool) (f : Tag) (_ : Nat) (o : Op3) : Nat :=
  let va := f.value false o.a
  let vb := f.value false o.b
  if va.isNan && vb.isNan then 0 else if fSelA isMax va vb then o.ta else o.tb

/-- FMIN (R172). -/
def execFmin (c : Ctl) (d : Dst) (a b : Src) (s : State) : Out :=
  fpWord c s 0 d [a, b] (fun f o => ⟨minMax false f o.a o.b, 0#3⟩) (tanMinMax false)
/-- FMAX (R172). -/
def execFmax (c : Ctl) (d : Dst) (a b : Src) (s : State) : Out :=
  fpWord c s 0 d [a, b] (fun f o => ⟨minMax true f o.a o.b, 0#3⟩) (tanMinMax true)
/-- FDIV (R171, R81). -/
def execFdiv (c : Ctl) (r : Rnd) (d : Dst) (a b : Src) (s : State) : Out :=
  fpWord c s 0 d [a, b] (fun f o => opDiv f r o.a o.b) tanDiv
/-- FSQRT (R171, R81). -/
def execFsqrt (c : Ctl) (r : Rnd) (d : Dst) (a : Src) (s : State) : Out :=
  fpWord c s 0 d [a] (fun f o => opSqrt f r o.a) tanSqrt

/-- FCMP: a lane's bit is set when the condition holds in every element (R173). -/
def execFcmp (c : Ctl) (fc : FCond) (d : Dst) (a b : Src) (s : State) : Out :=
  maskWord c s 0 d [a, b] (fun x l =>
    let f := x.fmt s.clk l .f32 [a, b]
    if f.isFp then
      match x.elFmt s.clk c.lit f l a, x.elFmt s.clk c.lit f l b with
      | some ea, some eb =>
        let ok := (List.range f.count).all (fun i =>
          fcondHolds fc (f.value false (elAt f [ea] 0 i)) (f.value false (elAt f [eb] 0 i)))
        some (.plain (if ok then 1#64 else 0#64) .raw (ea.psn || eb.psn))
      | _, _ => none
    else none) laneMask

/-- FRND (R174): no trap, tangents 0; the operand's tangents are not read (R188, R222). -/
def execFrnd (c : Ctl) (r : Rnd) (d : Dst) (a : Src) (s : State) : Out :=
  vecWord c s 0 d [a] (fun x l =>
    let f := x.fmt s.clk l .f32 [a]
    if f.isFp then (x.elFmt s.clk c.lit f l a).map (fun e =>
      ⟨BitVec.ofNat 64 (f.joinEls ((List.range f.count).map (fun i => opRnd f r (elAt f [e] 0 i)))), f == .f64, f, [], e.psn,
        0#3, false⟩)
    else none)

/-- FCLASS (R174): a RAW mask, the high half's at bits [24:16]. -/
def execFclass (c : Ctl) (d : Dst) (a : Src) (s : State) : Out :=
  vecWord c s 0 d [a] (fun x l =>
    let f := x.fmt s.clk l .f32 [a]
    if f.isFp then (x.elFmt s.clk c.lit f l a).map (fun e =>
      let lo := opClass f (elAt f [e] 0 0)
      let hi := if f.count = 2 then opClass f (elAt f [e] 0 1) else 0
      .plain (BitVec.ofNat 64 (lo + hi * 2 ^ 16)) .raw e.psn)
    else none)

/-- FSCL: a × 2^n (R174); n is RAW, I32 or untagged and never a format source. -/
def execFscl (c : Ctl) (r : Rnd) (d : Dst) (a b : Src) (s : State) : Out :=
  vecWord c s 0 d [a, b] (fun x l =>
    let f := x.fmt s.clk l .f32 [a]
    let n := x.el s.clk c.lit false l b
    let i := elInt 32 true n.val.toNat
    if f.isFp && n.accepted (fun t => t == .raw || t == .i32) then
      (fmtLane c s x l f f [a] (fun o => opScale f r o.a i) (fun _ o => (opScale f .rne o.ta i).bits)).map
        (fun q => { q with psn := q.psn || n.psn })
    else none)

/-- The element format of FDOT2 and FDOT4 in a lane: the tag of a, else of b, else the default (R175). -/
def dotFmt (x : Ctx) (s : State) (l : Nat) (dflt : Tag) (a b : Src) : Tag := x.fmt s.clk l dflt [a, b]

/-- The values of a register's elements. -/
def dotVals (f : Tag) (v : Nat) : List FVal := (f.elems v).map (f.value false)

/-- A lane of FDOT2 or FDOT4 (R175): the exact sum rounded once to F32, then c added with a second rounding; its tangents
(R188). -/
def dotLane (c : Ctl) (s : State) (x : Ctx) (l : Nat) (ok : Tag → Bool) (dflt : Tag) (r : Rnd) (a b e : Src) : Option LRes :=
  let f := dotFmt x s l dflt a b
  if ok f then
    match x.elFmt s.clk c.lit f l a, x.elFmt s.clk c.lit f l b, x.elFmt s.clk c.lit .f32 l e with
    | some ea, some eb, some ec =>
      let va := dotVals f ea.val.toNat
      let vb := dotVals f eb.val.toNat
      let p := (fDot r (va.zip vb)).pack .f32 r
      let q := opAdd .f32 r p.bits ec.val.toNat
      let tans := x.want.map (fun k =>
        let ta := dotVals f (ea.tn k)
        let tb := dotVals f (eb.tn k)
        let u := (fDot .rne (ta.zip vb ++ va.zip tb)).pack .f32 .rne
        (k, BitVec.ofNat 64 (opAdd .f32 .rne u.bits (ec.tn k)).bits))
      some ⟨BitVec.ofNat 64 q.bits, false, .f32, tans,
        ea.poisoned x.want || eb.poisoned x.want || ec.poisoned x.want, p.c ||| q.c, false⟩
    | _, _, _ => none
  else none

/-- FDOT2 (R175). -/
def execFdot2 (c : Ctl) (r : Rnd) (d : Dst) (a b e : Src) (s : State) : Out :=
  vecWord c s uFp d [a, b, e] (fun x l => dotLane c s x l (fun t => t == .h16 || t == .b16) .h16 r a b e)
/-- FDOT4 (R175). -/
def execFdot4 (c : Ctl) (r : Rnd) (d : Dst) (a b e : Src) (s : State) : Out :=
  vecWord c s uFp d [a, b, e] (fun x l => dotLane c s x l (fun t => t == .e4m3 || t == .e5m2 || t == .pt8) .e4m3 r a b e)

end Sys2Proof.Machine
end

