-- ==== Sys2Proof/Machine/MatNum.lean ====
section
/-! DEFINITION. Matrices of one thread as numbers (R70 to R72, R189 to R191, R203 to R214): exact values of blocked elements,
forming blocks, products, factorisations, the exponential, and the tangent rules of each. -/

namespace Sys2Proof.Machine

/-- A matrix of element bits, by rows. -/
abbrev Mx := List (List Nat)

def mxBuild (r c : Nat) (f : Nat → Nat → Nat) : Mx := (List.range r).map (fun i => (List.range c).map (fun j => f i j))
def mxGet (m : Mx) (i j : Nat) : Nat := (m.getD i []).getD j 0
def mxRow (m : Mx) (i : Nat) : List Nat := m.getD i []
/-- Rows in row-major order. -/
def mxFlat (m : Mx) : List W64 := (m.flatMap id).map (BitVec.ofNat 64)
/-- Two rows exchanged. -/
def mxSwap (m : Mx) (i j : Nat) : Mx :=
  m.zipIdx.map (fun r => if r.2 = i then mxRow m j else if r.2 = j then mxRow m i else r.1)
/-- One row replaced. -/
def mxSet (m : Mx) (i : Nat) (r : List Nat) : Mx := m.zipIdx.map (fun q => if q.2 = i then r else q.1)

/-- The elements of a list of `c` columns as rows. -/
def mxOf (r c : Nat) (el : List W64) : Mx := mxBuild r c (fun i j => (el.getD (i * c + j) 0#64).toNat)
/-- A register's elements (R189). -/
def mxReg (m : MReg) : Mx := mxOf m.rows m.cols m.el
/-- Tangent k of a register; an absent one reads zero (R189). -/
def mxTan (m : MReg) (k : Nat) : Mx :=
  if k ≤ m.tp then mxOf m.rows m.cols (m.tan.get k []) else mxBuild m.rows m.cols (fun _ _ => 0)

/-! ## Exact values and blocks (R70 to R72, R190) -/

/-- The K-line of element (i, j) and its position in it. -/
def kLine (kax : Bool) (i j : Nat) : Nat × Nat := if kax then (j, i) else (i, j)

/-- A value times 2^n. -/
def scaleVal (v : FVal) (n : Int) : FVal :=
  match v with
  | .fin s m e => .fin s m (e + n)
  | v => v

/-- The exact value of a block's element under its scale and micro byte (R71). -/
def blockVal (t : Tag) (code : Nat) (sc : Byte × Byte) (pos : Nat) : FVal :=
  if sc.1 = 0xFF#8 then .nan
  else scaleVal (t.value false code) ((sc.1.toNat : Int) - 127 - (if sc.2.getLsbD (pos / 2) then 1 else 0))

/-- The exact value of element (i, j) of a register. -/
def mxVal (m : MReg) (i j : Nat) : FVal :=
  let code := (m.el.getD (i * m.cols + j) 0#64).toNat
  if m.tag.blocked then
    let q := kLine m.kax i j
    blockVal m.tag code (m.sc.getD q.1 (0x7F#8, 0xFF#8)) q.2
  else m.tag.value false code

/-- emax of R72. -/
def blkEmax : Tag → Int
  | .e4m3 => 8
  | .e5m2 => 15
  | .f4 => 2
  | .pt8 => 1
  | _ => 2
/-- vmax of R72. -/
def blkVmax : Tag → Nat
  | .e4m3 => 448
  | .e5m2 => 57344
  | .f4 => 6
  | .pt8 => 2
  | _ => 7

/-- floor(log2 |x|) of a finite non-zero value. -/
def flog2 : FVal → Int
  | .fin _ m e => (bitLen m : Int) - 1 + e
  | _ => 0

/-- |a| ≤ |b|. -/
def absLe (a b : FVal) : Bool := decide (fCmp a.abs b.abs ≤ 0)

/-- The larger magnitude of a list. -/
def maxAbs (xs : List FVal) : FVal := xs.foldl (fun a x => if absLe x a then a else x.abs) (.fin false 0 0)

/-- One element of a formed block: rounded RNE and saturated to ±vmax (R72, step 5), with the overflow condition of R78. -/
def blkEl (t : Tag) (v : FVal) : BRes :=
  match t with
  | .i4 =>
    let r := toIntEl 32 true .rne v
    let i := elInt 32 true r.bits
    if 7 < i then ⟨7, cOv⟩ else if i < -7 then ⟨9, cOv⟩ else ⟨wrapInt 4 i, r.c⟩
  | t => t.pack .rne true false v

/-- The code of zero in a narrow format. -/
def zeroCode (t : Tag) : Nat := if t = .pt8 then 0x08 else 0

/-- A block formed from exact values (R72): the codes, the scale byte, the micro byte and the conditions. -/
def formBlock (t : Tag) (xs : List FVal) : List Nat × (Byte × Byte) × Cnd :=
  if xs.any (fun x => x.isNan || x.isInf) then
    (xs.map (fun _ => zeroCode t), (0xFF#8, 0x00#8), if xs.any (fun x => x.isInf) then cInv else 0#3)
  else
    let a := maxAbs xs
    if a.isZero then (xs.map (fun _ => zeroCode t), (0x7F#8, 0xFF#8), 0#3)
    else
      let e0 := flog2 a - blkEmax t + 127
      let e : Nat := if e0 < 0 then 0 else if 254 < e0 then 254 else e0.toNat
      let micro (j : Nat) : Bool :=
        let p := maxAbs [xs.getD (2 * j) (.fin false 0 0), xs.getD (2 * j + 1) (.fin false 0 0)]
        absLe (scaleVal p (1 - ((e : Int) - 127))) (.fin false (blkVmax t) 0)
      let els := xs.zipIdx.map (fun x => blkEl t (scaleVal x.1 ((if micro (x.2 / 2) then 1 else 0) - ((e : Int) - 127))))
      let mb := (List.range 8).foldl (fun n j => if micro j then n + 2 ^ j else n) 0
      (els.map (·.bits), (BitVec.ofNat 8 e, BitVec.ofNat 8 mb), els.foldl (fun c x => c ||| x.c) 0#3)

/-- The K-lines a shape has along an axis, and their length. -/
def kLines (kax : Bool) (r c : Nat) : Nat × Nat := if kax then (c, r) else (r, c)

/-- A register of a blocked tag formed from exact values along an axis (R72). -/
def formReg (t : Tag) (kax : Bool) (r c : Nat) (v : Nat → Nat → FVal) : MReg × Cnd :=
  let n := kLines kax r c
  let bs := (List.range n.1).map (fun q => formBlock t ((List.range n.2).map (fun p => if kax then v p q else v q p)))
  let el := mxBuild r c (fun i j =>
    let q := kLine kax i j
    ((bs[q.1]?).map (fun b => b.1.getD q.2 0)).getD 0)
  ({ rows := r
     cols := c
     tag := t
     kax := kax
     psn := false
     tp := 0
     el := mxFlat el
     sc := bs.map (fun b => b.2.1)
     tan := [] }, bs.foldl (fun m b => m ||| b.2.2) 0#3)

/-- A register of an unblocked tag. -/
def mkReg (r c : Nat) (t : Tag) (m : Mx) : MReg := ⟨r, c, t, false, false, 0, mxFlat m, [], []⟩

/-- A register of zeros: blocked lines take scale 0x7F and micro byte 0xFF (R198). -/
def zeroReg (r c : Nat) (t : Tag) (kax : Bool) : MReg :=
  if t.blocked then
    ⟨r, c, t, kax, false, 0, mxFlat (mxBuild r c (fun _ _ => zeroCode t)), (List.range (kLines kax r c).1).map (fun _ => (0x7F#8, 0xFF#8)), []⟩
  else mkReg r c t (mxBuild r c (fun _ _ => 0))

/-- The tiles of a register with its tangents (R191). -/
def mtiles (m : MReg) : Nat := ((m.rows * m.cols * m.tag.width + 511) / 512) * (1 + m.tp)

/-! ## Arithmetic of elements, RNE in the format, with conditions gathered -/

/-- A computation with the conditions met on the way. -/
abbrev CM (α : Type) := α × Cnd

def fneg (f : Tag) (a : Nat) : Nat := negBits f a
/-- The bits of |a|. -/
def fabsBits (f : Tag) (a : Nat) : Nat := a % 2 ^ (f.width - 1)
def isNanEl (f : Tag) (a : Nat) : Bool := (f.value false a).isNan
/-- −0 of a format. -/
def negZero (f : Tag) : Nat := 2 ^ (f.width - 1)

/-- One step acc := Fma(a, b, acc). -/
def fmaStep (f : Tag) (acc : Nat × Cnd) (t : Nat × Nat) : Nat × Cnd :=
  let r := opFma f .rne t.1 t.2 acc.1
  (r.bits, acc.2 ||| r.c)

/-- An FMA chain in the order given (R82). -/
def fmaChain (f : Tag) (start : Nat) (ts : List (Nat × Nat)) : Nat × Cnd := ts.foldl (fmaStep f) (start, 0#3)

/-- A matrix of computations. -/
def mxBuildC (r c : Nat) (g : Nat → Nat → Nat × Cnd) : Mx × Cnd :=
  let rows := (List.range r).map (fun i => (List.range c).map (fun j => g i j))
  (rows.map (fun row => row.map (·.1)), rows.foldl (fun m row => row.foldl (fun m x => m ||| x.2) m) 0#3)

/-- X·Y as FMA chains, ascending, from −0. -/
def mxMul (f : Tag) (x y : Mx) (m k n : Nat) : Mx × Cnd :=
  mxBuildC m n (fun i j => fmaChain f (negZero f) ((List.range k).map (fun q => (mxGet x i q, mxGet y q j))))

/-- −X with canonical NaNs (R66). -/
def mxNeg (f : Tag) (x : Mx) : Mx := x.map (fun r => r.map (fun v => if isNanEl f v then f.nanCode else fneg f v))

/-! ## Factorisations (R206 to R210) -/

/-- The lowest row i ≥ j with |W(i, j)| maximal; NaN counts as maximal (R207, R208). -/
def pivotRow (f : Tag) (w : Mx) (n j : Nat) : Nat :=
  (List.range n).foldl (fun best i =>
    if i ≤ j then best
    else if isNanEl f (mxGet w best j) then best
    else if isNanEl f (mxGet w i j) then i
    else if fCmp (f.value false (fabsBits f (mxGet w best j))) (f.value false (fabsBits f (mxGet w i j))) < 0 then i
    else best) j

/-- A pivot that makes its lane singular (R206): NaN, or |p| ≤ t. -/
def singularPiv (f : Tag) (t p : Nat) : Bool := isNanEl f p || fcondHolds .le (f.value false (fabsBits f p)) (f.value false t)

/-- The state of an elimination: the array, singular so far, the conditions. -/
structure Elim where
  w    : Mx
  sing : Bool
  c    : Cnd
deriving DecidableEq, Repr

/-- A row divided by d in every column but j, which becomes `one` (R207). -/
def divRow (f : Tag) (r : List Nat) (j d one : Nat) : List Nat × Cnd :=
  let xs := r.zipIdx.map (fun q => if q.2 = j then (⟨one, 0#3⟩ : BRes) else opDiv f .rne q.1 d)
  (xs.map (·.bits), xs.foldl (fun m x => m ||| x.c) 0#3)

/-- A row reduced by g times the pivot row in every column but j, which becomes `zero j` (R207). -/
def redRow (f : Tag) (r p : List Nat) (j g : Nat) : List Nat × Cnd :=
  let xs := r.zipIdx.map (fun q => if q.2 = j then (⟨0, 0#3⟩ : BRes) else opFma f .rne (fneg f g) (p.getD q.2 0) q.1)
  (xs.map (·.bits), xs.foldl (fun m x => m ||| x.c) 0#3)

/-- Step j of Gauss-Jordan elimination (R207). -/
def gjStep (f : Tag) (n t : Nat) (e : Elim) (j : Nat) : Elim :=
  let w1 := mxSwap e.w j (pivotRow f e.w n j)
  let d := mxGet w1 j j
  let pr := divRow f (mxRow w1 j) j d f.one
  let rows := w1.zipIdx.map (fun q => if q.2 = j then (pr.1, (0#3 : Cnd)) else redRow f q.1 pr.1 j (q.1.getD j 0))
  ⟨rows.map (·.1), e.sing || singularPiv f t d, rows.foldl (fun m r => m ||| r.2) (e.c ||| pr.2)⟩

/-- MINV (R207): the inverse and whether the lane is singular. -/
def minvRun (f : Tag) (a : Mx) (n t : Nat) : Elim :=
  let w0 := mxBuild n (2 * n) (fun i c => if c < n then mxGet a i c else if c = n + i then f.one else 0)
  let e := (List.range n).foldl (gjStep f n t) ⟨w0, false, 0#3⟩
  { e with w := mxBuild n n (fun i j => mxGet e.w i (n + j)) }

/-- Step j of LU factorisation (R208), with the pivots so far. -/
def luStep (f : Tag) (n t : Nat) (e : Elim × List Nat) (j : Nat) : Elim × List Nat :=
  let p := pivotRow f e.1.w n j
  let w1 := mxSwap e.1.w j p
  let d := mxGet w1 j j
  let pr := mxRow w1 j
  let rows := w1.zipIdx.map (fun q =>
    if q.2 ≤ j then (q.1, (0#3 : Cnd))
    else
      let l := opDiv f .rne (q.1.getD j 0) d
      let xs := q.1.zipIdx.map (fun u =>
        if u.2 < j then (⟨u.1, 0#3⟩ : BRes) else if u.2 = j then ⟨l.bits, l.c⟩ else opFma f .rne (fneg f l.bits) (pr.getD u.2 0) u.1)
      (xs.map (·.bits), xs.foldl (fun m x => m ||| x.c) 0#3))
  (⟨rows.map (·.1), e.1.sing || singularPiv f t d, rows.foldl (fun m r => m ||| r.2) e.1.c⟩, e.2 ++ [p])

/-- MLU (R208): packed L\U, and the pivots. -/
def mluRun (f : Tag) (a : Mx) (n t : Nat) : Elim × List Nat := (List.range n).foldl (luStep f n t) (⟨a, false, 0#3⟩, [])

/-- The pivot register (R208). -/
def pivWord (ps : List Nat) : W32 := BitVec.ofNat 32 (ps.zipIdx.foldl (fun n p => n + p.1 * 16 ^ p.2) 0)
/-- piv(j) of a pivot register. -/
def pivAt (w : W32) (j : Nat) : Nat := bitsAt w.toNat (4 * j) 4

/-- Rows exchanged in the order of the pivots (R209). -/
def permute (x : Mx) (n : Nat) (w : W32) : Mx := (List.range n).foldl (fun x j => mxSwap x j (pivAt w j)) x

/-- Forward solve L·Z = Y row by row: chains from Y, divided by `dg i` when it is there. -/
def solveFwd (f : Tag) (l : Nat → Nat → Nat) (dg : Nat → Option Nat) (y : Mx) (n r : Nat) : Mx × Cnd :=
  (List.range n).foldl (fun acc i =>
    let row := (List.range r).map (fun c =>
      let s := fmaChain f (mxGet y i c) ((List.range i).map (fun q => (fneg f (l i q), mxGet acc.1 q c)))
      match dg i with
      | none => s
      | some d => let v := opDiv f .rne s.1 d; (v.bits, s.2 ||| v.c))
    (acc.1 ++ [row.map (·.1)], row.foldl (fun m x => m ||| x.2) acc.2)) ([], 0#3)

/-- Backward solve U·X = Z (R209): rows from the last, chains ascending, divided by the diagonal. -/
def solveBwd (f : Tag) (u : Nat → Nat → Nat) (z : Mx) (n r : Nat) : Mx × Cnd :=
  (List.range n).foldl (fun acc k =>
    let i := n - 1 - k
    let row := (List.range r).map (fun c =>
      let s := fmaChain f (mxGet z i c) ((List.range (n - 1 - i)).map (fun q => (fneg f (u i (i + 1 + q)), mxGet acc.1 q c)))
      let v := opDiv f .rne s.1 (u i i)
      (v.bits, s.2 ||| v.c))
    (row.map (·.1) :: acc.1, row.foldl (fun m x => m ||| x.2) acc.2)) ([], 0#3)

/-- The solve of R209 after the rows are exchanged: L with its unit diagonal, then U. -/
def luSolve (f : Tag) (lu x : Mx) (n r : Nat) : Mx × Cnd :=
  let z := solveFwd f (mxGet lu) (fun _ => none) x n r
  let y := solveBwd f (mxGet lu) z.1 n r
  (y.1, z.2 ||| y.2)

/-- MLUS (R209). -/
def mlusRun (f : Tag) (lu b : Mx) (n r : Nat) (piv : W32) : Mx × Cnd := luSolve f lu (permute b n piv) n r

/-- Column j of the Cholesky factorisation (R210). -/
def cholStep (f : Tag) (a : Mx) (n t : Nat) (e : Elim) (j : Nat) : Elim :=
  let l := e.w
  let d := fmaChain f (mxGet a j j) ((List.range j).map (fun q => (fneg f (mxGet l j q), mxGet l j q)))
  let r := opSqrt f .rne d.1
  let col := (List.range n).map (fun i =>
    if i < j then (0, (0#3 : Cnd))
    else if i = j then (r.bits, r.c)
    else
      let s := fmaChain f (mxGet a i j) ((List.range j).map (fun q => (fneg f (mxGet l i q), mxGet l j q)))
      let v := opDiv f .rne s.1 r.bits
      (v.bits, s.2 ||| v.c))
  ⟨mxBuild n n (fun i c => if c = j then ((col[i]?).map (·.1)).getD 0 else mxGet l i c), e.sing || singularPiv f t d.1,
    col.foldl (fun m x => m ||| x.2) (e.c ||| d.2)⟩

/-- MCHOL (R210). -/
def mcholRun (f : Tag) (a : Mx) (n t : Nat) : Elim :=
  (List.range n).foldl (cholStep f a n t) ⟨mxBuild n n (fun _ _ => 0), false, 0#3⟩

/-! ## Norm and exponential (R211, R212) -/

/-- The left fold of |A(i, j)| of a column. -/
def colNorm (f : Tag) (a : Mx) (r j : Nat) : Nat × Cnd :=
  (List.range r).foldl (fun acc i =>
    let v := fabsBits f (mxGet a i j)
    if i = 0 then (v, 0#3) else let x := opAdd f .rne acc.1 v; (x.bits, acc.2 ||| x.c)) (0, 0#3)

/-- MNRM1 (R211). -/
def nrm1Run (f : Tag) (a : Mx) (r c : Nat) : Nat × Cnd :=
  let cols := (List.range c).map (colNorm f a r)
  let cnd := cols.foldl (fun m x => m ||| x.2) 0#3
  if cols.any (fun x => isNanEl f x.1) then (f.nanCode, cnd)
  else (cols.foldl (fun b x => if fCmp (f.value false b) (f.value false x.1) < 0 then x.1 else b) 0, cnd)

/-- The scaling count s of R212: the least with ν × 2^−s ≤ 0.5. -/
def expScale (v : FVal) : Nat :=
  match v with
  | .fin _ m e =>
    if m = 0 then 0
    else
      let top := (bitLen m : Int) + e
      let s := if m = 2 ^ (bitLen m - 1) then top else top + 1
      s.toNat
  | _ => 0

/-- c(q) = 1/q rounded to the format (R212). -/
def expCoef (f : Tag) (q : Nat) : Nat := (opDiv f .rne f.one (f.pack .rne false false (.fin false q 0)).bits).bits

/-- The series and the squarings of R212 for an n × n matrix scaled s times. -/
def expSeries (f : Tag) (a : Mx) (n s : Nat) : Mx × Cnd :=
  let bm := mxBuildC n n (fun i j => let r := opScale f .rne (mxGet a i j) (-(s : Int)); (r.bits, r.c))
  let one := mxBuild n n (fun i j => if i = j then f.one else 0)
  let p := (List.range 12).foldl (fun acc k =>
    let q := mxMul f bm.1 acc.1 n n n
    let r := mxBuildC n n (fun i j =>
      let x := opFma f .rne (mxGet q.1 i j) (expCoef f (12 - k)) (if i = j then f.one else 0)
      (x.bits, x.c))
    (r.1, acc.2 ||| q.2 ||| r.2)) (one, bm.2)
  (List.range s).foldl (fun acc _ => let q := mxMul f acc.1 acc.1 n n n; (q.1, acc.2 ||| q.2)) p

/-- MEXP (R212). The NaN of an infinite norm arises from elements that are not NaN, and is invalid (R78). -/
def mexpRun (f : Tag) (a : Mx) (n : Nat) : Mx × Cnd :=
  let nu := nrm1Run f a n n
  let v := f.value false nu.1
  if v.isNan || v.isInf then (mxBuild n n (fun _ _ => f.nanCode), nu.2 ||| (if v.isInf then cInv else 0#3))
  else
    let r := expSeries f a n (expScale v)
    (r.1, nu.2 ||| r.2)

/-! ## Tangents (R214) -/

/-- dX of MINV: T := dA·X; U := X·T; dX := −U. -/
def minvTan (f : Tag) (x da : Mx) (n : Nat) : Mx := mxNeg f (mxMul f x (mxMul f da x n n n).1 n n n).1

/-- The unit lower factor of packed L\U. -/
def luL (f : Tag) (lu : Mx) (i j : Nat) : Nat := if j < i then mxGet lu i j else if i = j then f.one else 0
/-- The upper factor of packed L\U. -/
def luU (lu : Mx) (i j : Nat) : Nat := if i ≤ j then mxGet lu i j else 0

/-- Φ·U = Z solved by columns ascending: chains from Z, divided by the diagonal. -/
def solveRight (f : Tag) (u : Nat → Nat → Nat) (z : Mx) (n : Nat) : Mx :=
  (List.range n).map (fun i => (List.range n).foldl (fun row c =>
    let s := fmaChain f (mxGet z i c) ((List.range c).map (fun q => (fneg f (row.getD q 0), u q c)))
    row ++ [(opDiv f .rne s.1 (u c c)).bits]) [])

/-- dD of MLU, packed like D. -/
def mluTan (f : Tag) (lu da : Mx) (n : Nat) (piv : W32) : Mx :=
  let y := permute da n piv
  let z := (solveFwd f (luL f lu) (fun _ => none) y n n).1
  let phi := solveRight f (luU lu) z n
  let du := (mxMul f (mxBuild n n (fun i j => if i ≤ j then mxGet phi i j else 0)) (mxBuild n n (luU lu)) n n n).1
  let dl := (mxMul f (mxBuild n n (luL f lu)) (mxBuild n n (fun i j => if j < i then mxGet phi i j else 0)) n n n).1
  mxBuild n n (fun i j => if i ≤ j then mxGet du i j else mxGet dl i j)

/-- dX of MLUS. -/
def mlusTan (f : Tag) (lu dlu x db : Mx) (n r : Nat) (piv : W32) : Mx :=
  let ux := (mxMul f (mxBuild n n (luU lu)) x n n r).1
  let dux := (mxMul f (mxBuild n n (luU dlu)) x n n r).1
  let dl (i q : Nat) : Nat := if q < i then mxGet dlu i q else 0
  let g := mxBuild n r (fun i c => (fmaChain f (negZero f)
    ((List.range n).map (fun q => (dl i q, mxGet ux q c)) ++ (List.range n).map (fun q => (luL f lu i q, mxGet dux q c)))).1)
  let pb := permute db n piv
  let h := mxBuild n r (fun i c => (opSub f .rne (mxGet pb i c) (mxGet g i c)).bits)
  (luSolve f lu h n r).1

/-- dL of MCHOL. -/
def mcholTan (f : Tag) (l da : Mx) (n : Nat) : Mx :=
  let z := (solveFwd f (mxGet l) (fun i => some (mxGet l i i)) da n n).1
  let wm := solveRight f (fun q c => mxGet l c q) z n
  let phi := mxBuild n n (fun i j =>
    if j < i then mxGet wm i j else if i = j then (opScale f .rne (mxGet wm i j) (-1)).bits else 0)
  (mxMul f l phi n n n).1

/-- dD of MEXP: the upper-right block of R212 applied to [[A, dA], [0, A]] with the primal's s. -/
def mexpTan (f : Tag) (a da : Mx) (n : Nat) : Mx :=
  let v := f.value false (nrm1Run f a n n).1
  if v.isNan || v.isInf then mxBuild n n (fun _ _ => f.nanCode)
  else
    let big := mxBuild (2 * n) (2 * n) (fun i j =>
      if i < n then (if j < n then mxGet a i j else mxGet da i (j - n)) else if j < n then 0 else mxGet a (i - n) (j - n))
    let r := (expSeries f big (2 * n) (expScale v)).1
    mxBuild n n (fun i j => mxGet r i (n + j))

end Sys2Proof.Machine
end

