-- ==== Sys2Proof/Machine/Matrix.lean ====
section
/-! DEFINITION. CLASS 0x5 and the sequencer (R189 to R205, R214 to R216): what a matrix word computes in one lane, its checks at
issue, starting, shape groups and finishing. MRING's ports stand in Sync.lean; the algorithms of CLASS 0x6 in MatNum.lean. -/

namespace Sys2Proof.Machine

/-! ## The registers a matrix word names (R193) -/

/-- The matrix registers a word reads. -/
def matReads : Instr → List MNum
  | .mzero _ d | .mid _ d => [d]
  | .mst _ _ _ _ _ m => [m]
  | .mget _ _ a _ _ => [a]
  | .mld _ _ _ d _ _ | .mput _ d _ _ _ => [d]
  | .mmul _ acc _ d a b | .mmult _ acc _ d a b | .mtmul _ acc _ d a b => if acc then [d, a, b] else [a, b]
  | .madd _ _ a b | .msub _ _ a b | .mhad _ _ a b => [a, b]
  | .mscal _ _ a _ | .mtr _ _ a | .mcvt _ _ _ _ a | .mring _ _ _ a => [a]
  | .minv _ _ a _ | .mlu _ _ a _ _ | .mchol _ _ a _ | .minvT _ _ a _ | .mluT _ _ a _ _ | .mcholT _ _ a _ => [a]
  | .mlus _ _ a b _ => [a, b]
  | .mexp _ _ a | .mtrq _ _ a | .mnrm1 _ _ a => [a]
  | .tget _ _ d (.m a) => match d with
    | .m n => [n, a]
    | _ => [a]
  | .tset _ _ (.m d) (.m a) => [d, a]
  | .tzero _ _ (.m d) | .tseed _ _ (.m d) => [d]
  | _ => []

/-- The matrix registers whose elements a word reads: those of MZERO, MID, MLD, MPUT and TZERO are only written (R367). -/
def matElems (i : Instr) : List MNum :=
  match i with
  | .mzero .. | .mid .. | .mld .. | .mput .. | .tzero .. | .tseed .. => []
  | i => matReads i

/-- The matrix register a word writes. -/
def matWrite : Instr → Option MNum
  | .mshape _ _ d _ _ _ | .mzero _ d | .mid _ d | .mld _ _ _ d _ _ | .mput _ d _ _ _ => some d
  | .mmul _ _ _ d _ _ | .mmult _ _ _ d _ _ | .mtmul _ _ _ d _ _ | .madd _ d _ _ | .msub _ d _ _ | .mhad _ d _ _ => some d
  | .mscal _ d _ _ | .mtr _ d _ | .mcvt _ _ _ d _ | .mring _ _ d _ => some d
  | .minv _ d _ _ | .mlu _ d _ _ _ | .mchol _ d _ _ | .minvT _ d _ _ | .mluT _ d _ _ _ | .mcholT _ d _ _ => some d
  | .mlus _ d _ _ _ | .mexp _ d _ | .mtrq _ d _ => some d
  | .tget _ _ (.m d) _ | .tset _ _ (.m d) _ | .tzero _ _ (.m d) | .tseed _ _ (.m d) => some d
  | _ => none

/-- The vector and scalar registers a word writes: results, pivots, status. -/
def matVS : Instr → List Src
  | .mget _ (.v n) _ _ _ | .mnrm1 _ (.v n) _ => [.v n, .v (n + 1#8)]
  | .minv _ _ _ t | .mchol _ _ _ t => [.s t]
  | .mlu _ _ _ t p => [.s t, .v p]
  | .mluT _ _ _ _ p => [.v p]
  | _ => []

/-- The vector and scalar sources of a word. -/
def matSrcs : Instr → List Src
  | .mshape _ _ _ a b e => [a, b, e]
  | .mld _ _ _ _ a b | .mst _ _ _ a b _ => [a, b]
  | .mget _ _ _ r e => [r, e]
  | .mput _ _ a r e => [a, r, e]
  | .mscal _ _ _ f => [f]
  | .mlus _ _ _ _ p => [p]
  | _ => []

/-- The threshold register of a word. -/
def matThr : Instr → Option SNum
  | .minv _ _ _ t | .mlu _ _ _ t _ | .mchol _ _ _ t | .minvT _ _ _ t | .mluT _ _ _ t _ | .mcholT _ _ _ t => some t
  | _ => none

/-- A trapping form (R206). -/
def matTrap : Instr → Bool
  | .minvT .. | .mluT .. | .mcholT .. => true
  | _ => false

/-- MLD or MST. -/
def matMove : Instr → Bool
  | .mld .. | .mst .. => true
  | _ => false

/-- Two words of the sequencer share a register that one of them writes (R193). -/
def matConflict (p w : Instr) : Bool :=
  let ws := (matWrite w).toList
  let ps := (matWrite p).toList
  let wvs := matVS w ++ matSrcs w ++ ((matThr w).map Src.s).toList
  ps.any (fun r => (matReads w).contains r || ws.contains r) || (matReads p).any (fun r => ws.contains r)
  || (matVS p).any (fun r => wvs.contains r)

/-- The unfinished matrix words of a cohort. -/
def State.matOps (s : State) (r : CohRef) : List (Pend × MatOp) :=
  s.pend.filterMap (fun p => if p.blk = r.blk ∧ p.coh = r.coh then (match p.kind with
    | .matrix op => some (p, op)
    | _ => none) else none)

/-- A matrix word may not issue yet: it stands behind a trapping form that has not finished, or behind a word that it conflicts with by a
register: the scene of R193 has the reader of a pending register wait at issue, with every word behind it (log entry 12). -/
def State.matStall (s : State) (r : CohRef) (i : Instr) : Bool :=
  (s.matOps r).any (fun q => matTrap q.2.i || matConflict q.2.i i)

/-- The registers of a source or destination field: a pair where the field, or the tag of a lane, is 64 bits wide; a group of s. -/
def fieldRegs (x : Ctx) (wide : Bool) (grp : Nat) (a : Src) : List Src :=
  match a with
  | .v n =>
    if wide || x.coh.lanes.any (fun l => (l.2.vreg n.toNat).tag == .f64) then [.v n, .v (n + 1#8)] else [.v n]
  | .s n => (List.range (Nat.max grp 1)).map (fun j => .s (n + BitVec.ofNat 6 j))
  | a => [a]

/-- The registers of a source field of a kind. -/
def srcRegs (x : Ctx) (k : SK) (a : Src) : List Src :=
  match k with
  | .vec _ _ w | .reg w | .frzV w _ => fieldRegs x w 1 a
  | .pair | .pairSca => fieldRegs x true 1 a
  | .group n => fieldRegs x false n a
  | _ => fieldRegs x false 1 a

/-- The registers of a destination. -/
def dstRegs (x : Ctx) (wide : Bool) : Dst → List Src
  | .v n => fieldRegs x wide 1 (.v n)
  | .s n => [.s n]
  | .m n => [.m n]
  | _ => []

/-- The registers that a word names beside its source and destination fields. -/
def moreRegs (x : Ctx) : Instr → List Src
  | .call _ _ link => fieldRegs x true 1 (.v link)
  | .spawn _ _ v _ => (List.range 4).map (fun j => .v (v + BitVec.ofNat 8 j))
  | .bcp _ _ _ d _ _ _ | .bcpm _ _ d _ _ _ | .bfill _ _ d _ _ _ | .bfillEmpty _ d _ _ | .gaths _ _ _ d _ _ _ | .hacc _ d _ _ _ => [.s d]
  | .ldspl _ _ d _ _ => [.m d]
  | .fwrm _ _ _ _ a => [.m a]
  | _ => []

/-- A word of another class reads or writes a register that an unfinished matrix word still has to write (R193). -/
def matTouches (x : Ctx) (w i : Instr) : Bool :=
  let ws : List Src := (matWrite w).toList.map Src.m ++ matVS w
  let wide := i.srcs.any (fun q => (srcRegs x q.1 q.2).length == 2) || (match i.dst with
    | some (.vec k _, _) => k
    | _ => false)
  let rs := i.srcs.flatMap (fun q => srcRegs x q.1 q.2) ++ (match i.dst with
    | some (_, d) => dstRegs x wide d
    | none => []) ++ moreRegs x i
  ws.any (fun r => rs.contains r)

/-- The word is a matrix word: it names a matrix register that the sequencer handles. -/
def isMat (i : Instr) : Bool := match i with
  | .ldspl .. | .frdm .. | .fwrm .. => false
  | i => (matWrite i).isSome || !(matReads i).isEmpty

/-- The unfinished matrix words of the cohort hold a word (R193): a matrix word as `matStall`; another word behind a trapping form, when
it touches a register that is still to be written, when it is of CLASS 0x7, 0x8 or 0x9 and an MLD or MST has not performed its
accesses; EXIT while a matrix word of its threads is unfinished (log entry 12). -/
def State.matHold (s : State) (x : Ctx) (i : Instr) : Bool :=
  if isMat i then s.matStall x.ref i
  else (s.matOps x.ref).any (fun q =>
    matTrap q.2.i || matTouches x q.2.i i
    || (matMove q.2.i && !q.2.started && (x.cls == 7#4 || x.cls == 8#4 || x.cls == 9#4))
    || (match i with
      | .exit _ => (q.1.exec &&& x.exec) != 0#32
      | _ => false))

/-! ## Sources -/

/-- A vector or scalar source read at issue. -/
def matSrc (x : Ctx) (s : State) (lit : Option W64) (l : Nat) (a : Src) : MSrc :=
  let e := x.el s.clk lit true l a
  match a with
  | .v n =>
    let bad := e.tag = some .f64 ∧ (n.toNat % 2 = 1 ∨ (x.el s.clk lit false l (.v (n + 1#8))).tag ≠ some .f64)
    ⟨e.val, e.tag, e.tan, if bad then 4 else 0⟩
  | .int n => ⟨inlineInt n, none, [], 1⟩
  | .fp n => ⟨n.setWidth 64, none, [], 2⟩
  | .b _ => ⟨e.val, none, [], 3⟩
  | _ => ⟨e.val, e.tag, e.tan, 0⟩

/-- A source of a lane. -/
def srcAt (ss : List MSrc) (n : Nat) : MSrc := ss.getD n ⟨0#64, none, [], 0⟩

/-- An index or count read as N32 (R198, R200): RAW, I32, N32 or untagged; none is a format fault. -/
def MSrc.n32 (m : MSrc) : Option Nat :=
  match m.tag with
  | some .raw | some .i32 | some .n32 | none => some (m.val.toNat % 2 ^ 32)
  | _ => none

/-- A value in the format of a register (R200, R205): its bits and tangents; `conv` converts inline integers to float formats.
None is a format fault. -/
def MSrc.inFmt (m : MSrc) (conv : Bool) (f : Tag) : Option (Nat × AMap W64) :=
  let msk (v : W64) : Nat := v.toNat % 2 ^ f.width
  match m.tag with
  | some t => if t = f ∧ m.kind ≠ 4 then some (msk m.val, m.tan.map (fun p => (p.1, BitVec.ofNat 64 (msk p.2)))) else none
  | none => match m.kind with
    | 1 => if conv && f.isFp then some ((f.pack .rne false false (FVal.ofInt m.val.toInt 0)).bits, []) else some (msk m.val, [])
    | 2 => if f.isInt then none else (inlineFpAs (m.val.setWidth 4) f).map (fun v => (msk v, []))
    | 3 => if f = .f64 then none else some (msk m.val, [])
    | _ => some (msk m.val, [])

/-! ## What a word computes in one lane -/

/-- The computation of a lane: the result, the key of its shape group (R194), poison among the sources, the conditions. -/
structure MLane where
  res : MRes
  key : List Nat
  psn : Bool
  c   : Cnd
deriving DecidableEq, Repr

/-- The tangents of a matrix as elements. -/
abbrev MTans := AMap (List W64)

/-- The write of a matrix in its DX mode (R214, R223, R224): `rt` the rule's tangents, none where the table gives none. Outside launch-wide
mode and without a prefix, a write that keeps shape and tag leaves the tangents and TP as they are (R16, R217, R218; log entry 79). TONLY
leaves the primal and its PSN. -/
def matFinal (mode : DxMode) (ks : List Nat) (T : Nat) (old new : MReg) (rt : Option MTans) : MReg :=
  let base := if mode = .tonly then old else new
  let size := base.rows * base.cols
  let zeros : List W64 := List.replicate size 0#64
  let same := old.rows == new.rows && old.cols == new.cols && old.tag == new.tag
  let flt := base.tag == .f32 || base.tag == .f64
  let psn := decide (mode = .tonly) && old.psn
  let kept : MTans :=
    if same && rt.isSome && !ks.isEmpty then old.tan.filter (fun p => decide (p.1 ≤ old.tp) && !ks.contains p.1) else []
  let topKept := if same && rt.isSome && !ks.isEmpty then old.tp else 0
  let whole := (tanIdx.filter (fun k => decide (k ≤ T))).all (fun k => ks.contains k)
  if ks.isEmpty && same && flt && rt.isSome then { base with psn := psn, tp := old.tp, tan := old.tan }
  else if !flt || ks.isEmpty || (mode == .stop && whole) then { base with psn := psn, tp := 0, tan := [] }
  else
    match mode with
    | .seed =>
      let tp := (old.tp :: ks).foldl Nat.max 0
      { base with
        psn := psn
        tp := tp
        tan := (if same then old.tan.filter (fun p => !ks.contains p.1) else []) ++ ks.map (fun k => (k, List.replicate size (tagOnes base.tag))) }
    | .stop =>
      let keep := if same then old.tan.filter (fun p => !ks.contains p.1) else []
      { base with psn := psn, tp := if same then old.tp else 0, tan := keep }
    | _ =>
      match rt with
      | none => { base with psn := psn, tp := 0, tan := [] }
      | some m => { base with
          psn := psn
          tp := (topKept :: ks).foldl Nat.max 0
          tan := kept ++ ks.map (fun k => (k, m.get k zeros)) }

/-- A matrix result: none under TONLY when shape or tag differ (R224). -/
def matRes (mode : DxMode) (ks : List Nat) (T : Nat) (old new : MReg) (rt : Option MTans) : Option MRes :=
  if mode = .tonly ∧ !(old.rows == new.rows && old.cols == new.cols && old.tag == new.tag) then none
  else some ⟨some (matFinal mode ks T old new rt), none, none, false⟩

/-- A matrix result with its key and conditions. -/
def matOut (mode : DxMode) (ks : List Nat) (T : Nat) (old new : MReg) (rt : Option MTans) (key : List Nat) (psn : Bool) (c : Cnd) :
    Option MLane :=
  (matRes mode ks T old new rt).map (fun r => ⟨r, key, psn, c⟩)

/-- The key of a shape. -/
def shapeKey (m : MReg) : List Nat := [m.rows, m.cols, m.tag.code.toNat]

/-- The tangents of a rule. -/
def tansOf (ks : List Nat) (f : Nat → Mx) : MTans := ks.map (fun k => (k, mxFlat (f k)))

/-- The indices of a product (R203): 0 MMUL, 1 MMULT, 2 MTMUL. -/
structure Prod where
  m : Nat
  k : Nat
  n : Nat
  ok : Bool
deriving DecidableEq, Repr

def prodShape (form : Nat) (a b : MReg) : Prod :=
  match form with
  | 0 => ⟨a.rows, a.cols, b.cols, a.cols == b.rows && (!a.tag.blocked || (!a.kax && b.kax))⟩
  | 1 => ⟨a.rows, a.cols, b.rows, a.cols == b.cols && (!a.tag.blocked || (!a.kax && !b.kax))⟩
  | _ => ⟨a.cols, a.rows, b.cols, a.rows == b.rows && (!a.tag.blocked || (a.kax && b.kax))⟩

/-- The places of a(i, q) and b(q, j). -/
def prodA (form i q : Nat) : Nat × Nat := if form = 2 then (q, i) else (i, q)
def prodB (form q j : Nat) : Nat × Nat := if form = 1 then (j, q) else (q, j)

/-- The result tag of a product (R203). -/
def prodTag : Tag → Tag
  | .f64 => .f64
  | .i8 => .i32
  | _ => .f32

/-- One element of a product (R82, R203). -/
def prodEl (form : Nat) (acc neg : Bool) (a b d : MReg) (k i j : Nat) : Nat × Cnd :=
  let f := a.tag
  let qs := List.range k
  let d0 := mxGet (mxReg d) i j
  let ga (q : Nat) : Nat := let p := prodA form i q; (a.el.getD (p.1 * a.cols + p.2) 0#64).toNat
  let gb (q : Nat) : Nat := let p := prodB form q j; (b.el.getD (p.1 * b.cols + p.2) 0#64).toNat
  match f with
  | .f32 | .f64 =>
    fmaChain f (if acc then d0 else negZero f) (qs.map (fun q => (if neg then fneg f (ga q) else ga q, gb q)))
  | .i8 =>
    let sum : Int := qs.foldl (fun (n : Int) q => n + elInt 8 true (ga q) * elInt 8 true (gb q)) 0
    (wrapInt 32 ((if acc then elInt 32 true d0 else 0) + (if neg then -sum else sum)), 0#3)
  | _ =>
    let va (q : Nat) : FVal := let p := prodA form i q; let v := mxVal a p.1 p.2; if neg then v.neg else v
    let vb (q : Nat) : FVal := let p := prodB form q j; mxVal b p.1 p.2
    let e := (fDot .rne (qs.map (fun q => (va q, vb q)))).pack .f32 .rne
    if acc then let r := opAdd .f32 .rne d0 e.bits; (r.bits, e.c ||| r.c) else (e.bits, e.c)

/-- One element of tangent `t` of a product (R214): the chain of the da terms, then of the db terms; narrow products contribute
nothing. -/
def prodTanEl (form : Nat) (acc neg : Bool) (a b d : MReg) (k t i j : Nat) : Nat :=
  let f := prodTag a.tag
  let start := if acc then mxGet (mxTan d t) i j else negZero f
  if a.tag = .f32 ∨ a.tag = .f64 then
    let sg (v : Nat) : Nat := if neg then fneg f v else v
    let qs := List.range k
    let da := mxTan a t
    let db := mxTan b t
    let ma := mxReg a
    let mb := mxReg b
    let ts1 := qs.map (fun q => let p := prodA form i q; let r := prodB form q j; (sg (mxGet da p.1 p.2), mxGet mb r.1 r.2))
    let ts2 := qs.map (fun q => let p := prodA form i q; let r := prodB form q j; (sg (mxGet ma p.1 p.2), mxGet db r.1 r.2))
    (fmaChain f start (ts1 ++ ts2)).1
  else start

/-- A lane of MMUL, MMULT or MTMUL (R203, R204). -/
def prodLane (mode : DxMode) (ks want : List Nat) (T form : Nat) (acc neg : Bool) (a b d : MReg) : Option MLane :=
  if a.rows = 0 ∨ b.rows = 0 ∨ a.tag ≠ b.tag ∨ a.tag = .raw then none
  else
    let p := prodShape form a b
    let rt := prodTag a.tag
    if !p.ok ∨ (acc ∧ !(d.rows == p.m && d.cols == p.n && d.tag == rt)) then none
    else
      let v := mxBuildC p.m p.n (prodEl form acc neg a b d p.k)
      let tans := tansOf want (fun t => mxBuild p.m p.n (prodTanEl form acc neg a b d p.k t))
      matOut mode ks T d (mkReg p.m p.n rt v.1) (some tans) [p.m, p.k, p.n, a.tag.code.toNat]
        (a.psn || b.psn || (acc && d.psn)) v.2

/-- The tags element-wise words accept (R205). -/
def elTagOk : Tag → Bool
  | .f32 | .f64 | .h16 | .b16 | .i32 => true
  | _ => false

/-- An element-wise operation (R205): 0 add, 1 sub, 2 multiply; I32 wraps. -/
def elOp (op : Nat) (f : Tag) (a b : Nat) : Nat × Cnd :=
  if f = .i32 then
    (wrapInt 32 (match op with
      | 0 => (a : Int) + b
      | 1 => (a : Int) - b
      | _ => (a : Int) * b), 0#3)
  else
    let r := match op with
      | 0 => opAdd f .rne a b
      | 1 => opSub f .rne a b
      | _ => opMul f .rne a b
    (r.bits, r.c)

/-- The tangent of an element-wise operation (R214). -/
def elTan (op : Nat) (f : Tag) (a b da db : Nat) : Nat :=
  match op with
  | 0 => (opAdd f .rne da db).bits
  | 1 => (opSub f .rne da db).bits
  | _ => (opFma f .rne a db (opMul f .rne da b).bits).bits

/-- A lane of MADD, MSUB, MHAD (and MRING's addition): one shape and tag. -/
def elLane (mode : DxMode) (ks want : List Nat) (T op : Nat) (a b d : MReg) : Option MLane :=
  if a.rows = 0 ∨ !elTagOk a.tag ∨ !(a.rows == b.rows && a.cols == b.cols && a.tag == b.tag) then none
  else
    let ma := mxReg a
    let mb := mxReg b
    let v := mxBuildC a.rows a.cols (fun i j => elOp op a.tag (mxGet ma i j) (mxGet mb i j))
    let tans := tansOf want (fun k => mxBuild a.rows a.cols (fun i j =>
      elTan op a.tag (mxGet ma i j) (mxGet mb i j) (mxGet (mxTan a k) i j) (mxGet (mxTan b k) i j)))
    matOut mode ks T d (mkReg a.rows a.cols a.tag v.1) (some tans) (shapeKey a) (a.psn || b.psn) v.2

/-- A lane of MSCAL. -/
def scalLane (mode : DxMode) (ks want : List Nat) (T : Nat) (a d : MReg) (m : MSrc) : Option MLane :=
  if a.rows = 0 ∨ !elTagOk a.tag then none
  else
    match m.inFmt true a.tag with
    | none => none
    | some f =>
      let ma := mxReg a
      let v := mxBuildC a.rows a.cols (fun i j => elOp 2 a.tag (mxGet ma i j) f.1)
      let tans := tansOf want (fun k => mxBuild a.rows a.cols (fun i j =>
        elTan 2 a.tag (mxGet ma i j) f.1 (mxGet (mxTan a k) i j) (f.2.get k 0#64).toNat))
      matOut mode ks T d (mkReg a.rows a.cols a.tag v.1) (some tans) (shapeKey a) a.psn v.2

/-- A lane of MTR (R201): blocked lines keep their scales, KAX is inverted. -/
def trLane (mode : DxMode) (ks want : List Nat) (T : Nat) (a d : MReg) : Option MLane :=
  if a.rows = 0 then none
  else
    let tr (m : Mx) : Mx := mxBuild a.cols a.rows (fun i j => mxGet m j i)
    let new : MReg := { mkReg a.cols a.rows a.tag (tr (mxReg a)) with kax := a.tag.blocked && !a.kax, sc := a.sc }
    matOut mode ks T d new (some (tansOf want (fun k => tr (mxTan a k)))) (shapeKey a) a.psn 0#3

/-- A lane of MCVT (R201). -/
def cvtMatLane (mode : DxMode) (ks want : List Nat) (T : Nat) (kax : Bool) (tgt : Tag) (a d : MReg) : Option MLane :=
  if a.rows = 0 then none
  else if tgt.blocked then
    let r := formReg tgt kax a.rows a.cols (mxVal a)
    matOut mode ks T d r.1 none (shapeKey a) a.psn r.2
  else
    let v := mxBuildC a.rows a.cols (fun i j => let r := tgt.pack .rne false false (mxVal a i j); (r.bits, r.c))
    let float := !a.tag.isInt && !tgt.isInt
    let tans := tansOf want (fun k => mxBuild a.rows a.cols (fun i j =>
      if a.tag = .f32 ∨ a.tag = .f64 then (tgt.pack .rne false false (a.tag.value false (mxGet (mxTan a k) i j))).bits else 0))
    matOut mode ks T d (mkReg a.rows a.cols tgt v.1) (if float then some tans else none) (shapeKey a) a.psn v.2

/-- A lane of MTRQ (R202). -/
def trqLane (mode : DxMode) (ks : List Nat) (T : Nat) (a d : MReg) : Option MLane :=
  if a.rows = 0 ∨ !a.tag.blocked then none
  else
    let r := formReg a.tag a.kax a.cols a.rows (fun i j => mxVal a j i)
    matOut mode ks T d r.1 none (shapeKey a) a.psn r.2

/-- A lane of MSHAPE (R198). -/
def shapeLane (mode : DxMode) (ks : List Nat) (T : Nat) (kax : Bool) (d : MReg) (ss : List MSrc) : Option MLane :=
  match (srcAt ss 0).n32, (srcAt ss 1).n32, (srcAt ss 2).n32 with
  | some r, some c, some t =>
    match Tag.ofCode (BitVec.ofNat 4 t) with
    | some tag =>
      if 1 ≤ r ∧ r ≤ 8 ∧ 1 ≤ c ∧ c ≤ 8 ∧ tag.matOk then
        matOut mode ks T d (zeroReg r c tag (tag.blocked && kax)) none [r, c, tag.code.toNat] false 0#3
      else none
    | none => none
  | _, _, _ => none

/-- The code of 1 in a format. -/
def oneCode (t : Tag) : Nat := if t.isInt then 1 else t.one

/-- A lane of MZERO or MID (R198). -/
def zeroLane (mode : DxMode) (ks : List Nat) (T : Nat) (ident : Bool) (d : MReg) : Option MLane :=
  if d.rows = 0 then none
  else if !ident then matOut mode ks T d (zeroReg d.rows d.cols d.tag d.kax) none (shapeKey d) false 0#3
  else if d.tag.blocked then
    let r := formReg d.tag d.kax d.rows d.cols (fun i j => .fin false (if i = j then 1 else 0) 0)
    matOut mode ks T d r.1 none (shapeKey d) false r.2
  else
    matOut mode ks T d (mkReg d.rows d.cols d.tag (mxBuild d.rows d.cols (fun i j => if i = j then oneCode d.tag else 0))) none
      (shapeKey d) false 0#3

/-- A vector result: none when the destination does not fit (R44, R224). -/
def vecRes (mode : DxMode) (th : Thread) (d : Dst) (val : Nat) (t : Tag) (tan : AMap W64) (key : List Nat) (psn : Bool) (c : Cnd) :
    Option MLane :=
  let wide := t == .f64
  let ok : Bool := match d with
    | .v n =>
      (!wide || n.toNat % 2 == 0)
      && (mode != .tonly || ((th.vreg n.toNat).tag == t && (!wide || (th.vreg (n.toNat + 1)).tag == t)))
    | _ => !wide
  if ok then some ⟨⟨none, some (BitVec.ofNat 64 val, wide, t, tan), none, false⟩, key, psn, c⟩ else none

/-- The element index of an MGET or MPUT (R200). -/
def elIndex (m : MReg) (r c : MSrc) : Option Nat :=
  match r.n32, c.n32 with
  | some i, some j => if i < m.rows ∧ j < m.cols then some (i * m.cols + j) else none
  | _, _ => none

/-- A lane of MGET. -/
def getLane (mode : DxMode) (want : List Nat) (th : Thread) (d : Dst) (a : MReg) (ss : List MSrc) : Option MLane :=
  match elIndex a (srcAt ss 0) (srcAt ss 1) with
  | none => none
  | some i => vecRes mode th d (a.el.getD i 0#64).toNat a.tag
      (want.map (fun k => (k, (mxFlat (mxTan a k)).getD i 0#64))) (shapeKey a) a.psn 0#3

/-- An element of a list replaced. -/
def listSet (xs : List W64) (i : Nat) (v : W64) : List W64 := xs.zipIdx.map (fun q => if q.2 = i then v else q.1)

/-- A lane of MPUT: it reads its destination; scales and PSN stay. -/
def putLane (mode : DxMode) (ks want : List Nat) (T : Nat) (d : MReg) (ss : List MSrc) : Option MLane :=
  match elIndex d (srcAt ss 1) (srcAt ss 2), (srcAt ss 0).inFmt false d.tag with
  | some i, some v =>
    let new := { d with el := listSet d.el i (BitVec.ofNat 64 v.1), tp := 0, tan := [] }
    let tans : MTans := want.map (fun k => (k, listSet (mxFlat (mxTan d k)) i (v.2.get k 0#64)))
    matOut mode ks T d new (some tans) (shapeKey d) d.psn 0#3
  | _, _ => none

/-- A NaN matrix with NaN tangents: the result of a singular lane (R206, R214). -/
def nanLane (mode : DxMode) (ks want : List Nat) (T : Nat) (a d : MReg) (piv : Option W32) (c : Cnd) : Option MLane :=
  let nan := mxBuild a.rows a.cols (fun _ _ => a.tag.nanCode)
  (matOut mode ks T d (mkReg a.rows a.cols a.tag nan) (some (tansOf want (fun _ => nan))) (shapeKey a) a.psn c).map
    (fun m => { m with res := { m.res with piv := piv, sing := true } })

/-- The threshold as a lane's format reads it (R206). -/
def thrIn (f : Tag) (thr : W64) : Nat := if f = .f64 then thr.toNat else thr.toNat % 2 ^ 32

/-- A square F32 or F64 register. -/
def squareOk (a : MReg) : Bool := a.rows != 0 && a.rows == a.cols && (a.tag == .f32 || a.tag == .f64)

/-- A lane of a factorisation: 0 MINV, 1 MLU, 2 MCHOL (R206 to R210). A singular lane meets the conditions of its steps, and in a base
form invalid as well when its NaN arises from elements that are not NaN (R78; log entry 78). -/
def factLane (mode : DxMode) (ks want : List Nat) (T which : Nat) (trap : Bool) (thr : W64) (a d : MReg) : Option MLane :=
  if !squareOk a then none
  else
    let n := a.rows
    let f := a.tag
    let t := thrIn f thr
    let m := mxReg a
    let r : Elim × Option W32 := match which with
      | 0 => (minvRun f m n t, none)
      | 1 => let q := mluRun f m n t; (q.1, some (pivWord q.2))
      | _ => (mcholRun f m n t, none)
    if r.1.sing then
      nanLane mode ks want T a d (if which = 1 then some 0x76543210#32 else none)
        (r.1.c ||| (if trap || m.any (fun row => row.any (isNanEl f)) then 0#3 else cInv))
    else
      let tans := tansOf want (fun k => match which with
        | 0 => minvTan f r.1.w (mxTan a k) n
        | 1 => mluTan f r.1.w (mxTan a k) n (r.2.getD 0#32)
        | _ => mcholTan f r.1.w (mxTan a k) n)
      (matOut mode ks T d (mkReg n n f r.1.w) (some tans) [n, n, f.code.toNat] a.psn r.1.c).map
        (fun q => { q with res := { q.res with piv := r.2 } })

/-- A lane of MLUS (R209). -/
def lusLane (mode : DxMode) (ks want : List Nat) (T : Nat) (lu b d : MReg) (m : MSrc) : Option MLane :=
  let n := lu.rows
  match m.n32 with
  | none => none
  | some pv =>
    let piv := BitVec.ofNat 32 pv
    if !squareOk lu ∨ b.rows ≠ n ∨ b.tag ≠ lu.tag ∨ !(List.range n).all (fun j => decide (pivAt piv j < n)) then none
    else
      let f := lu.tag
      let x := mlusRun f (mxReg lu) (mxReg b) n b.cols piv
      let tans := tansOf want (fun k => mlusTan f (mxReg lu) (mxTan lu k) x.1 (mxTan b k) n b.cols piv)
      matOut mode ks T d (mkReg n b.cols f x.1) (some tans) [n, b.cols, f.code.toNat] (lu.psn || b.psn) x.2

/-- A lane of MEXP (R212): its group shares the scaling count. -/
def expLane (mode : DxMode) (ks want : List Nat) (T : Nat) (a d : MReg) : Option MLane :=
  if !squareOk a then none
  else
    let n := a.rows
    let f := a.tag
    let r := mexpRun f (mxReg a) n
    let sc := expScale (f.value false (nrm1Run f (mxReg a) n n).1)
    matOut mode ks T d (mkReg n n f r.1) (some (tansOf want (fun k => mexpTan f (mxReg a) (mxTan a k) n)))
      [n, n, f.code.toNat, sc] a.psn r.2

/-- A lane of MNRM1 (R211): no tangents. -/
def nrmLane (mode : DxMode) (th : Thread) (d : Dst) (a : MReg) : Option MLane :=
  if a.rows = 0 ∨ !(a.tag == .f32 || a.tag == .f64) then none
  else
    let r := nrm1Run a.tag (mxReg a) a.rows a.cols
    vecRes mode th d r.1 a.tag [] (shapeKey a) a.psn r.2

/-- A lane of MLD or MST before its accesses: the image needs a register that is not empty and no pitch for blocked tags
(R199). MLD keeps the shape and sets TP. -/
def moveMatLane (mode : DxMode) (ks : List Nat) (T : Nat) (ld : Bool) (pitch : BitVec 7) (m : MReg) (ss : List MSrc) : Option MLane :=
  match (srcAt ss 0).n32, (srcAt ss 1).n32 with
  | some _, some _ =>
    if m.rows = 0 ∨ (m.tag.blocked ∧ pitch ≠ 0#7) then none
    else if ld then
      matOut mode ks T m m (some (ks.map (fun k => (k, List.replicate (m.rows * m.cols) 0#64)))) (shapeKey m) false 0#3
    else some ⟨⟨none, none, none, false⟩, shapeKey m, m.psn, 0#3⟩
  | _, _ => none

/-- A lane of a tangent word on a matrix register (R231): 0 TGET, 1 TSET, 2 TZERO, 3 TSEED. A TGET or TSET of a register with PSN = 1 is a
poison fault (R192); a tangent above TP reads as zero elements of the register's format. -/
def tanMatLane (which k : Nat) (mask : BitVec 4) (a d : MReg) : Option MLane :=
  let out (m : MReg) : Option MLane :=
    some ⟨⟨some m, none, none, false⟩, shapeKey m, (decide (which = 0) || decide (which = 1)) && a.psn, 0#3⟩
  let flt := d.tag == .f32 || d.tag == .f64
  let put (v : List W64) : Option MLane :=
    out { d with tp := Nat.max d.tp k, tan := AMap.set (d.tan.filter (fun p => decide (p.1 ≤ d.tp))) k v }
  match which with
  | 0 =>
    if a.rows = 0 then none
    else if k ≤ a.tp then out { a with el := mxFlat (mxTan a k), tp := 0, tan := [], psn := false }
    else out (zeroReg a.rows a.cols a.tag a.kax)
  | 1 =>
    if a.rows = 0 ∨ d.rows = 0 ∨ !(a.rows == d.rows && a.cols == d.cols && a.tag == d.tag) ∨ !flt then none else put a.el
  | 2 =>
    if d.rows = 0 then none
    else
      let ks := maskTans mask
      let live := tanIdx.filter (fun q => decide (q ≤ d.tp) && !ks.contains q)
      out { d with tp := live.foldl Nat.max 0, tan := d.tan.filter (fun p => live.contains p.1) }
  | _ => if d.rows = 0 ∨ !flt then none else put (List.replicate (d.rows * d.cols) (tagOnes d.tag))

/-- What a matrix word computes in a lane: none is a format fault (R192, check 1). `ring` is MRING's received matrix. -/
def matLane (i : Instr) (mode : DxMode) (ks : List Nat) (T : Nat) (thr : W64) (ss : List MSrc) (th : Thread) (ring : Option MReg) :
    Option MLane :=
  let want := match mode with
    | .prop | .tonly => ks
    | _ => []
  let r (n : MNum) : MReg := th.mreg n.toNat
  match i with
  | .mshape _ kax d _ _ _ => shapeLane mode ks T kax (r d) ss
  | .mzero _ d => zeroLane mode ks T false (r d)
  | .mid _ d => zeroLane mode ks T true (r d)
  | .mld _ _ p d _ _ => moveMatLane mode ks T true p (r d) ss
  | .mst _ _ p _ _ m => moveMatLane mode ks T false p (r m) ss
  | .mget _ d a _ _ => getLane mode want th d (r a) ss
  | .mput _ d _ _ _ => putLane mode ks want T (r d) ss
  | .mmul _ acc neg d a b => prodLane mode ks want T 0 acc neg (r a) (r b) (r d)
  | .mmult _ acc neg d a b => prodLane mode ks want T 1 acc neg (r a) (r b) (r d)
  | .mtmul _ acc neg d a b => prodLane mode ks want T 2 acc neg (r a) (r b) (r d)
  | .madd _ d a b => elLane mode ks want T 0 (r a) (r b) (r d)
  | .msub _ d a b => elLane mode ks want T 1 (r a) (r b) (r d)
  | .mhad _ d a b => elLane mode ks want T 2 (r a) (r b) (r d)
  | .mscal _ d a _ => scalLane mode ks want T (r a) (r d) (srcAt ss 0)
  | .mtr _ d a => trLane mode ks want T (r a) (r d)
  | .mcvt _ kax tgt d a => cvtMatLane mode ks want T kax tgt (r a) (r d)
  | .mring _ _ d a => match ring with
    | some b => elLane mode ks want T 0 (r a) b (r d)
    | none =>
      if (r a).rows = 0 ∨ !elTagOk (r a).tag then none
      else matOut mode ks T (r d) { r a with tp := 0, tan := [] } (some (tansOf want (mxTan (r a)))) (shapeKey (r a)) (r a).psn 0#3
  | .minv _ d a _ => factLane mode ks want T 0 false thr (r a) (r d)
  | .minvT _ d a _ => factLane mode ks want T 0 true thr (r a) (r d)
  | .mlu _ d a _ _ => factLane mode ks want T 1 false thr (r a) (r d)
  | .mluT _ d a _ _ => factLane mode ks want T 1 true thr (r a) (r d)
  | .mchol _ d a _ => factLane mode ks want T 2 false thr (r a) (r d)
  | .mcholT _ d a _ => factLane mode ks want T 2 true thr (r a) (r d)
  | .mlus _ d a b _ => lusLane mode ks want T (r a) (r b) (r d) (srcAt ss 0)
  | .mexp _ d a => expLane mode ks want T (r a) (r d)
  | .mtrq _ d a => trqLane mode ks T (r a) (r d)
  | .mnrm1 _ d a => nrmLane mode th d (r a)
  | .tget _ k (.m d) (.m a) => tanMatLane 0 (k.toNat + 1) 0#4 (r a) (r d)
  | .tset _ k (.m d) (.m a) => tanMatLane 1 (k.toNat + 1) 0#4 (r a) (r d)
  | .tzero _ mask (.m d) => tanMatLane 2 0 mask (r d) (r d)
  | .tseed _ k (.m d) => tanMatLane 3 (k.toNat + 1) 0#4 (r d) (r d)
  | _ => none

end Sys2Proof.Machine
end

