-- ==== Sys2Proof/Machine/MatWord.lean ====
section
/-! DEFINITION. The words of CLASS 0x5 and 0x6 (R192 to R214) but MRING, and the sequencer's events: MATRIX_WORD_START,
SHAPE_GROUP_FINISH, MATRIX_WORD_FINISH (R193 to R196, R206). -/

namespace Sys2Proof.Machine

/-! ## Images of MLD and MST (R199) -/

/-- The bytes of one stored block (R70). -/
def blockBytes (t : Tag) : Nat := if t.width = 4 then 10 else 18

/-- The runs of bytes of a register's image: offset and length. -/
def matImage (m : MReg) (p : BitVec 7) : List (Nat × Nat) :=
  if m.tag.blocked then [(0, (kLines m.kax m.rows m.cols).1 * blockBytes m.tag)]
  else if p = 0#7 then [(0, m.rows * m.cols * m.tag.width / 8)]
  else (List.range m.rows).map (fun i => (4 * p.toNat * i, m.cols * m.tag.width / 8))

/-- The tangents of a register that an image moves: only F32 and F64 have them. -/
def imageTans (m : MReg) (ks : List Nat) : List Nat := if m.tag = .f32 ∨ m.tag = .f64 then ks else []

/-- The accesses of a lane's image at `a`, the primal's and then each tangent's; none is code 0x21. -/
def State.matAccs (s : State) (x : Ctx) (l : Nat) (sp : Space) (a : Nat) (m : MReg) (p : BitVec 7) (ks : List Nat) :
    Option (List Acc) :=
  (0 :: imageTans m ks).foldr (fun k r => (matImage m p).foldr (fun q r =>
    match r, s.placeTan x l sp ((a + q.1) % 2 ^ 32) q.2 k with
    | some as, some pl => some (⟨k, pl.1, pl.2, q.2, 0#64, 0#64, false⟩ :: as)
    | _, _ => none) r) (some [])

/-- The alignment of an image (R199). -/
def imageAlign (t : Tag) : Nat :=
  match t with
  | .f64 => 8
  | .f32 | .i32 => 4
  | .h16 | .b16 => 2
  | _ => 1

/-- The micro bits of the pairs beyond a line's length. -/
def unusedMicro (len : Nat) : Byte :=
  (List.range 8).foldl (fun b j => if len ≤ 2 * j then b ||| (1#8 <<< j) else b) 0#8

/-- The bytes of a K-line (R70): zero codes at unused positions, their micro bits set. -/
def lineBytes (m : MReg) (n : Nat) : List Byte :=
  let len := (kLines m.kax m.rows m.cols).2
  let code (q : Nat) : Nat :=
    if q < len then
      let ij := if m.kax then (q, n) else (n, q)
      (m.el.getD (ij.1 * m.cols + ij.2) 0#64).toNat
    else zeroCode m.tag
  let w := m.tag.width
  let codes := (List.range 16).foldl (fun v q => v + code q * 2 ^ (w * q)) 0
  let sc := m.sc.getD n (0x7F#8, 0xFF#8)
  leBytes (2 * w) codes ++ [sc.1, sc.2 ||| unusedMicro len]

/-- The bytes of elements one after the other. -/
def elBytes (t : Tag) (el : List W64) : List Byte := el.flatMap (fun v => leBytes (t.width / 8) v.toNat)

/-- The image of a register; of a tangent. -/
def imageBytes (m : MReg) : List Byte :=
  if m.tag.blocked then (List.range (kLines m.kax m.rows m.cols).1).flatMap (lineBytes m) else elBytes m.tag m.el

/-- The elements in a run of bytes. -/
def bytesEl (t : Tag) (n : Nat) (bs : List Byte) : List W64 :=
  (List.range n).map (fun i => BitVec.ofNat 64 (leNat ((bs.drop (i * (t.width / 8))).take (t.width / 8))))

/-- The register read from its image, its shape kept. -/
def imageReg (m : MReg) (bs : List Byte) : MReg :=
  if m.tag.blocked then
    let ln := kLines m.kax m.rows m.cols
    let bb := blockBytes m.tag
    let at' (n q : Nat) : W64 := BitVec.ofNat 64 (bitsAt (leNat ((bs.drop (n * bb)).take bb)) (m.tag.width * q) m.tag.width)
    { m with
      el := (List.range m.rows).flatMap (fun i => (List.range m.cols).map (fun j => if m.kax then at' j i else at' i j))
      sc := (List.range ln.1).map (fun n =>
        (bs.getD (n * bb + bb - 2) 0#8, bs.getD (n * bb + bb - 1) 0#8 ||| unusedMicro ln.2)) }
  else { m with el := bytesEl m.tag (m.rows * m.cols) bs }

/-- The bytes of tangent `k` among a lane's accesses. -/
def State.accBytes (s : State) (k : Nat) (as : List Acc) : List Byte :=
  (as.filter (fun a => a.k == k)).flatMap (fun a => (s.mem a.store).readN a.addr a.z)

/-- A list of bytes stored over a list of runs: data, poison cleared, the log of a write from elsewhere, live objects. -/
def State.writeRuns (s : State) (blk : Nat) : List Acc → List Byte → State
  | [], _ => s
  | a :: as, bs =>
    let s1 := ((s.writeBytes a.store a.addr (bs.take a.z)).writePsn a.store a.addr a.z false).logLanded a.store a.addr (bs.take a.z) (some blk)
    (s1.objStored a.store a.addr a.z).writeRuns blk as (bs.drop a.z)

/-- MLD's accesses of a lane performed: the elements, the tangents moved, PSN from poisoned granules. -/
def State.mldRead (s : State) (m : MReg) (as : List Acc) : MReg :=
  let r := imageReg m (s.accBytes 0 as)
  { r with
    psn := as.any (fun a => s.poisoned a.store a.addr a.z)
    tan := r.tan.map (fun p => if as.any (fun a => a.k == p.1) then (p.1, bytesEl m.tag (m.rows * m.cols) (s.accBytes p.1 as)) else p) }

/-- MST's accesses of a lane performed. -/
def State.mstWrite (s : State) (blk : Nat) (m : MReg) (as : List Acc) : State :=
  let ks := (0 :: tanIdx).filter (fun k => as.any (fun a => a.k == k))
  ks.foldl (fun s k =>
    s.writeRuns blk (as.filter (fun a => a.k == k)) (if k = 0 then imageBytes m else elBytes m.tag (mxFlat (mxTan m k)))) s

/-! ## Issue (R192) -/

/-- The register that LDSPL leaves of an old one: its shape and the tangents present (R136, R214). -/
def splReg (T : Nat) (ks : List Nat) (old : MReg) : MReg := matFinal .prop ks T old (zeroReg 8 8 .f32 false) (some [])

/-- The tiles that LDSPL words in flight have reserved in a lane for register `r`, which holds `old` before them (R136). -/
def State.splTiles (s : State) (ref : CohRef) (l r : Nat) (old : MReg) : Option Nat :=
  s.pend.findSome? (fun p => match p.kind, p.dst with
    | .ldspl, some (.m n) => if p.ref = ref ∧ n.toNat = r then
        (p.lanes.find l).map (fun as => mtiles (splReg (((s.block ref.blk).map (fun b => b.cfg.t)).getD 0)
          ((as.map (·.k)).filter (fun k => k != 0)) old)) else none
    | _, _ => none)

/-- The tiles a thread holds once the word and those before it have written (R191). -/
def State.laneTiles (s : State) (ref : CohRef) (l : Nat) (th : Thread) (d : MNum) (new : MReg) : Nat :=
  (List.range 16).foldl (fun n r =>
    let old := ((s.matOps ref).filterMap (fun q =>
      if (matWrite q.2.i).map (·.toNat) = some r then (q.2.res.find l).bind (·.mat) else none)).getLast?
    n + (if d.toNat = r then mtiles new else (s.splTiles ref l r (old.getD (th.mreg r))).getD (mtiles (old.getD (th.mreg r))))) 0

/-- A source of a lane is poisoned; MPUT and MSCAL read the tangents of their value. -/
def matSrcPsn (x : Ctx) (s : State) (lit : Option W64) (i : Instr) (l : Nat) (a : Src) : Bool :=
  let ks := match i with
    | .mput .. | .mscal .. => x.want
    | _ => []
  let e := x.el s.clk lit false l a
  if e.tag = some .f64 then (x.el s.clk lit true l a).poisoned ks else e.poisoned ks

/-- The lanes of a list whose value satisfies a test. -/
def lanesWhere {α : Type} (rs : AMap α) (p : Nat → α → Bool) : W32 := maskOf (AMap.keys (rs.filter (fun q => p q.1 q.2)))

/-- The space and pitch of MLD and MST. -/
def matSpace : Instr → Space × BitVec 7
  | .mld _ sp p _ _ _ | .mst _ sp p _ _ _ => (sp, p)
  | _ => (.core, 0#7)

/-- The register MLD or MST moves. -/
def matMoved : Instr → MNum
  | .mld _ _ _ d _ _ => d
  | .mst _ _ _ _ _ m => m
  | _ => 0#4

/-- The address of a lane of MLD or MST. -/
def matAddr (ss : List MSrc) : Nat := (((srcAt ss 0).n32.getD 0) + ((srcAt ss 1).n32.getD 0)) % 2 ^ 32

/-- A matrix word checked and put in the sequencer's queue: what it needs beside its lanes' results. -/
def matIssue (i : Instr) (c : Ctl) (s : State) (x : Ctx) (ring : AMap MReg) (lanes : List Nat) (srcs : AMap (List MSrc)) (rs : AMap (Option MLane)) :
    WRes :=
  let bad := lanesWhere rs (fun _ r => r.isNone)
  let ok : AMap MLane := rs.filterMap (fun p => p.2.map (fun r => (p.1, r)))
  let psn := lanesWhere ok (fun l r => r.psn || (matSrcs i).any (matSrcPsn x s c.lit i l))
  let cap := lanesWhere ok (fun l r => match r.res.mat, matWrite i, x.coh.thread l with
    | some m, some d, some th => decide (x.blk.cfg.mtb < s.laneTiles x.ref l th d m)
    | _, _, _ => false)
  let sp := matSpace i
  let reg (l : Nat) : MReg := ((x.coh.thread l).map (fun t => t.mreg (matMoved i).toNat)).getD MReg.empty
  let addrs : AMap Nat := if matMove i then srcs.map (fun p => (p.1, matAddr p.2)) else []
  let accs (l a : Nat) : Option (List Acc) := s.matAccs x l sp.1 a (reg l) sp.2 x.tans
  if bad ≠ 0#32 then .trap (Fz.of kFormat 0 bad)
  else if psn ≠ 0#32 then .trap (Fz.of kPoison 0 psn)
  else if cap ≠ 0#32 then .trap (Fz.of kMatCap 0 cap)
  else
    match addrFault addrs (fun l a => winOk x sp.1 (imageTans (reg l) x.tans) a) (fun l a => a % imageAlign (reg l).tag == 0)
        (fun l a => (accs l a).isSome) with
    | some f => .trap (addrFz f addrs)
    | none =>
      match residueCheck x s 0x04 with
      | .error e => e
      | .ok s1 =>
        match trapOf x.grid.lrec.trapen (ok.map (fun p => (p.1, p.2.c))) with
        | some z => .trap z
        | none =>
          let las : AMap (List Acc) := addrs.map (fun p => (p.1, (accs p.1 p.2).getD []))
          let op : MatOp := ⟨i, x.dxMode, x.tans, srcs, ((matThr i).map (fun t => x.coh.sreg t.toNat)).getD 0#64, ring,
            ok.map (fun p => (p.1, p.2.res)), false, [], 0⟩
          let p := { x.pend s1 (.matrix op) none .raw c.set las with exec := maskOf lanes }
          let s2 := s1.addPend p
          if matTrap i then .ctl ((s2.sampleCount x).updCoh x.ref (fun k => { k.count c.set with rinc := true }))
          else if matMove i then
            watched s x (match i with | .mld .. => true | _ => false) (match i with | .mst .. => true | _ => false) las s2
          else .async s2

/-- A matrix word at issue: it stalls behind the words it conflicts with (R193; log entry 12), then every lane is checked (R192). -/
def matBody (i : Instr) (c : Ctl) (s : State) (x : Ctx) : WRes :=
  if s.matStall x.ref i then .ctl s
  else
    let lanes := x.todo
    match parityCheck x s (matSrcs i ++ (matElems i).map Src.m) lanes with
    | .error e => e
    | .ok s0 =>
      let thr := ((matThr i).map (fun t => x.coh.sreg t.toNat)).getD 0#64
      let srcs : AMap (List MSrc) := lanes.map (fun l => (l, (matSrcs i).map (matSrc x s0 c.lit l)))
      let rs : AMap (Option MLane) := lanes.map (fun l => (l, match x.coh.thread l with
        | some th => matLane i x.dxMode x.tans x.blk.cfg.t thr (srcs.get l []) th none
        | none => none))
      matIssue i c s0 x [] lanes srcs rs

/-- A matrix word. -/
def matWord (i : Instr) (c : Ctl) (s : State) : Out := word c s (matBody i c s)

/-- MSHAPE (R198). -/
def execMshape (c : Ctl) (kax : Bool) (d : MNum) (a b e : Src) (s : State) : Out := matWord (.mshape c kax d a b e) c s
/-- MZERO (R198). -/
def execMzero (c : Ctl) (d : MNum) (s : State) : Out := matWord (.mzero c d) c s
/-- MID (R198). -/
def execMid (c : Ctl) (d : MNum) (s : State) : Out := matWord (.mid c d) c s
/-- MLD (R199). -/
def execMld (c : Ctl) (sp : Space) (pitch : BitVec 7) (d : MNum) (a b : Src) (s : State) : Out := matWord (.mld c sp pitch d a b) c s
/-- MST (R199). -/
def execMst (c : Ctl) (sp : Space) (pitch : BitVec 7) (a b : Src) (m : MNum) (s : State) : Out := matWord (.mst c sp pitch a b m) c s
/-- MGET (R200). -/
def execMget (c : Ctl) (d : Dst) (a : MNum) (r e : Src) (s : State) : Out := matWord (.mget c d a r e) c s
/-- MPUT (R200). -/
def execMput (c : Ctl) (d : MNum) (a r e : Src) (s : State) : Out := matWord (.mput c d a r e) c s
/-- MMUL (R203, R204). -/
def execMmul (c : Ctl) (acc neg : Bool) (d a b : MNum) (s : State) : Out := matWord (.mmul c acc neg d a b) c s
/-- MMULT (R203, R204). -/
def execMmult (c : Ctl) (acc neg : Bool) (d a b : MNum) (s : State) : Out := matWord (.mmult c acc neg d a b) c s
/-- MTMUL (R203, R204). -/
def execMtmul (c : Ctl) (acc neg : Bool) (d a b : MNum) (s : State) : Out := matWord (.mtmul c acc neg d a b) c s
/-- MADD (R205). -/
def execMadd (c : Ctl) (d a b : MNum) (s : State) : Out := matWord (.madd c d a b) c s
/-- MSUB (R205). -/
def execMsub (c : Ctl) (d a b : MNum) (s : State) : Out := matWord (.msub c d a b) c s
/-- MSCAL (R205). -/
def execMscal (c : Ctl) (d a : MNum) (f : Src) (s : State) : Out := matWord (.mscal c d a f) c s
/-- MHAD (R205). -/
def execMhad (c : Ctl) (d a b : MNum) (s : State) : Out := matWord (.mhad c d a b) c s
/-- MTR (R201). -/
def execMtr (c : Ctl) (d a : MNum) (s : State) : Out := matWord (.mtr c d a) c s
/-- MCVT (R201). -/
def execMcvt (c : Ctl) (kax : Bool) (tgt : Tag) (d a : MNum) (s : State) : Out := matWord (.mcvt c kax tgt d a) c s
/-- MINV (R206, R207). -/
def execMinv (c : Ctl) (d a : MNum) (t : SNum) (s : State) : Out := matWord (.minv c d a t) c s
/-- MLU (R206, R208). -/
def execMlu (c : Ctl) (d a : MNum) (t : SNum) (p : VNum) (s : State) : Out := matWord (.mlu c d a t p) c s
/-- MLUS (R209). -/
def execMlus (c : Ctl) (d a b : MNum) (p : Src) (s : State) : Out := matWord (.mlus c d a b p) c s
/-- MCHOL (R206, R210). -/
def execMchol (c : Ctl) (d a : MNum) (t : SNum) (s : State) : Out := matWord (.mchol c d a t) c s
/-- MEXP (R212). -/
def execMexp (c : Ctl) (d a : MNum) (s : State) : Out := matWord (.mexp c d a) c s
/-- MTRQ (R202). -/
def execMtrq (c : Ctl) (d a : MNum) (s : State) : Out := matWord (.mtrq c d a) c s
/-- MNRM1 (R211). -/
def execMnrm1 (c : Ctl) (d : Dst) (a : MNum) (s : State) : Out := matWord (.mnrm1 c d a) c s
/-- MINV.t (R206, R207). -/
def execMinvT (c : Ctl) (d a : MNum) (t : SNum) (s : State) : Out := matWord (.minvT c d a t) c s
/-- MLU.t (R206, R208). -/
def execMluT (c : Ctl) (d a : MNum) (t : SNum) (p : VNum) (s : State) : Out := matWord (.mluT c d a t p) c s
/-- MCHOL.t (R206, R210). -/
def execMcholT (c : Ctl) (d a : MNum) (t : SNum) (s : State) : Out := matWord (.mcholT c d a t) c s

/-! ## The sequencer's events -/

/-- The cohort is not frozen. -/
def State.thawed (s : State) (r : CohRef) : Bool := ((s.coh r).map (fun c => c.frz.isNone)).getD false

/-- The cohort of an operation stands where its queued work may go on: resident, its partition not stopped. -/
def State.seqFree (s : State) (r : CohRef) : Bool := !s.isSaved r.blk && !s.partStopped r

/-- The matrix operation of a number. -/
def State.matOp (s : State) (id : Nat) : Option (Pend × MatOp) :=
  (s.pendOf id).bind (fun p => match p.kind with
    | .matrix op => some (p, op)
    | _ => none)

/-- The earlier matrix words of the same cohort. -/
def State.matBefore (s : State) (p : Pend) : List (Pend × MatOp) :=
  (s.earlier p).filterMap (fun q => match q.kind with
    | .matrix op => some (q, op)
    | _ => none)

/-- The queued word may start (R193): no conflict with an unfinished earlier word; MLD and MST in program order, and in the order
of R155 with other accesses and with no part of an element of theirs still to land (R287); a frozen cohort's queue stands (R196), but its MLD and MST start, since the handler waits for their
accesses (R289; log entry 12). -/
def State.matReady (s : State) (p : Pend) (op : MatOp) : Bool :=
  !op.started && s.seqFree p.ref && (s.thawed p.ref || matMove op.i)
  && (s.matBefore p).all (fun q => !matConflict q.2.i op.i && !(matMove op.i && matMove q.2.i && !q.2.started))
  && p.lanes.all (fun l => s.ordPrev p l.2 && s.whole l.2)

/-- The lanes' results as the word starts: the matrix sources are read now (R193). -/
def State.matNow (s : State) (p : Pend) (op : MatOp) : AMap MLane :=
  match s.coh p.ref, s.block p.blk with
  | some c, some b => op.res.map (fun q =>
      let dflt : MLane := ⟨q.2, [], false, 0#3⟩
      (q.1, match c.thread q.1 with
        | some th => (matLane op.i op.mode op.ks b.cfg.t op.thr (op.src.get q.1 []) th (op.ring.find q.1)).getD dflt
        | none => dflt))
  | _, _ => []

/-- The shape groups (R194): the lanes of equal keys, in the order of their lowest lane. -/
def shapeGroups (rs : AMap MLane) : List W32 :=
  let keys := rs.foldl (fun ks r => if ks.contains r.2.key then ks else ks ++ [r.2.key]) ([] : List (List Nat))
  keys.map (fun k => lanesWhere rs (fun _ r => r.key == k))

/-- MLD reads and MST writes as the word starts (R193, R199). -/
def State.matMoves (s : State) (p : Pend) (i : Instr) (rs : AMap MLane) : State × AMap MLane :=
  let reg (l : Nat) : MReg :=
    (((s.coh p.ref).bind (fun c => c.thread l)).map (fun t => t.mreg (matMoved i).toNat)).getD MReg.empty
  match i with
  | .mld .. =>
    let s1 := p.lanes.foldl (fun s l => l.2.foldl (fun s a =>
      let s2 := s.readCheck a.store a.addr a.z
      s2.logRead p.ref l.1 a (BitVec.ofNat 64 (s2.readNat a.store a.addr (Nat.min a.z 8)))) s) s
    (s1, rs.map (fun r =>
      let as := (p.lanes.find r.1).getD []
      (r.1, { r.2 with res := { r.2.res with mat := r.2.res.mat.map (fun m => s1.mldRead m as) } })))
  | .mst .. => (p.lanes.foldl (fun s l => s.mstWrite p.blk (reg l.1) l.2) s, rs)
  | _ => (s, rs)

/-- MATRIX_WORD_START: the sequencer starts a queued word (R193, R194). -/
def execMatrixWordStart (id : Nat) (s : State) : Out :=
  match s.matOp id with
  | none => idle s
  | some (p, op) =>
    if !s.matReady p op then idle s
    else
      let r := s.matMoves p op.i (s.matNow p op)
      let gs := shapeGroups r.2
      .next (r.1.setPend { p with
        lanes := []
        kind := .matrix { op with res := r.2.map (fun q => (q.1, q.2.res)), started := true, groups := gs, ngrp := 0 } })

/-- A lane's results written: the matrix, the vector result with its tangents, the pivots; a singular lane of a trapping form
writes nothing (R206). -/
def matPut (op : MatOp) (t : Thread) (r : MRes) : Thread :=
  if matTrap op.i && r.sing then t
  else
    let t1 := match r.mat, matWrite op.i with
      | some m, some d => t.setM d.toNat m
      | _, _ => t
    let vd : Dst := match op.i with
      | .mget _ d _ _ _ | .mnrm1 _ d _ => d
      | _ => .nwb
    let t2 := match r.vec with
      | some (v, wide, tag, tan) =>
        t1.putD vd wide (if op.mode = .tonly then none else some (v, tag, false))
          ((modeTans op.mode op.ks tag tan).map (fun q => (q.1, q.2, false)))
      | none => t1
    let pd : Dst := match op.i with
      | .mlu _ _ _ _ p | .mluT _ _ _ _ p => .v p
      | _ => .nwb
    match r.piv with
    | some v => t2.putD pd false (if op.mode = .tonly then none else some (v.setWidth 64, .raw, false))
        ((modeTans op.mode op.ks .raw []).map (fun q => (q.1, q.2, false)))
    | none => t2

/-- SHAPE_GROUP_FINISH: the first group left writes its lanes (R194); the word of a frozen cohort stands at its progress point (R196). -/
def execShapeGroupFinish (id : Nat) (s : State) : Out :=
  match s.matOp id with
  | none => idle s
  | some (p, op) =>
    match op.groups with
    | [] => idle s
    | g :: gs =>
      if !s.seqFree p.ref || !s.thawed p.ref then idle s
      else
        let rs := op.res.filter (fun r => g.getLsbD r.1)
        let s1 := s.updCoh p.ref (fun c => rs.foldl (fun c r => c.updThread r.1 (fun t => matPut op t r.2)) c)
        .next (s1.setPend { p with
          done := p.done ||| g
          kind := .matrix { op with groups := gs, ngrp := op.ngrp + 1 } })

/-- The status register of a base form (R206). -/
def matStatus : Instr → Option SNum
  | .minv _ _ _ t | .mchol _ _ _ t | .mlu _ _ _ t _ => some t
  | _ => none

/-- A trapping form has finished (R206): the cohort goes on, or freezes with the singular lanes. -/
def State.finishTrapForm (s : State) (p : Pend) (sing : W32) : State :=
  let r := p.ref
  if sing = 0#32 then
    (s.finishPend p none).updCoh r (fun k => k.advance p.isB 1 .none)
  else
    let com := (p.exec &&& ~~~sing) ||| ((s.coh r).map (·.rpm)).getD 0#32
    let f : Freeze := ⟨kSingular, 0, 0, p.widx, p.isB, p.pc, 0#64, false, false, []⟩
    (s.delPend p.id).freezeCoh r f sing com (BitVec.ofNat 32 (popcount com))

/-- MATRIX_WORD_FINISH: every group has finished; the base forms write their status, the counter decrements (R55, R206). -/
def execMatrixWordFinish (id : Nat) (s : State) : Out :=
  match s.matOp id with
  | none => idle s
  | some (p, op) =>
    if !op.started || !op.groups.isEmpty || !s.seqFree p.ref || (matTrap op.i && !s.thawed p.ref) then idle s
    else
      let sing := lanesWhere op.res (fun _ r => r.sing)
      if matTrap op.i then .next (s.finishTrapForm p sing)
      else
        let s1 := match matStatus op.i with
          | some t => s.updCoh p.ref (fun c => c.setS t.toNat (sing.setWidth 64))
          | none => s
        .next (s1.finishPend p none)

end Sys2Proof.Machine
end

