-- ==== Sys2Proof/Machine/Xlat.lean ====
section
/-! DEFINITION. The page walk with its faults (R86 to R92), the cached translations (R93 to R95),
and fetching a clause through the instruction cache (R40, R64). -/

namespace Sys2Proof.Machine

/-! ## The walk (R86 to R92) -/

/-- A translation or protection fault: kind, code, level. -/
structure XFault where
  kind  : Nat
  code  : Nat
  level : Nat
deriving DecidableEq, Repr

/-- A permission is needed (R91): R, W, X, AT. -/
def accNeeds : Access → Bool × Bool × Bool × Bool
  | .read | .copyIn | .pref => (true, false, false, false)
  | .write | .copyOut => (false, true, false, false)
  | .atomic | .exclRead => (true, true, false, true)
  | .fetch => (false, false, true, false)

/-- The first permission missing of a leaf, in the order R, W, X, AT (R90). -/
def permCode (e : W64) (ac : Access) : Option Nat :=
  let n := accNeeds ac
  if n.1 && !e.getLsbD 2 then some 0x11
  else if n.2.1 && !e.getLsbD 3 then some 0x12
  else if n.2.2.1 && !e.getLsbD 4 then some 0x13
  else if n.2.2.2 && !e.getLsbD 7 then some 0x14
  else none

/-- A bad entry at a level (R88). -/
def badEntry (e : W64) (lv : Nat) : Bool :=
  e.extractLsb' 52 12 != 0#12
  || (e.getLsbD 1 && lv == 2) || (!e.getLsbD 1 && lv == 0)
  || (e.getLsbD 1 && lv == 1 && e.extractLsb' 16 13 != 0#13)
  || (!e.getLsbD 1 && e.extractLsb' 2 6 != 0#6)

/-- FRAME × 65,536. -/
def frameOf (e : W64) : Nat := bitsAt e.toNat 16 36 * 2 ^ 16

/-- The index of a virtual address into the table of a level. -/
def vaIndex (va : W64) (lv : Nat) : Nat := bitsAt va.toNat (16 + 13 * lv) 13

/-- The low bits of the region that an entry of a level translates. -/
def lvBits (lv : Nat) : Nat := 16 + 13 * lv

/-- The start of the region of `2 ^ lg` bytes that holds an address. -/
def pageOf (va : W64) (lg : Nat) : W64 := BitVec.ofNat 64 (va.toNat / 2 ^ lg * 2 ^ lg)

/-- A cached entry of a unit that translates an address at a level. -/
def State.tlbFind (s : State) (unit : Nat) (pasid : BitVec 20) (va : W64) (lv : Nat) : Option W64 :=
  (s.tlb.find? (fun t => t.unit == unit && t.pasid == pasid && t.lg == lvBits lv && t.page == pageOf va (lvBits lv))).map (·.ent)

/-- The entries of a unit's leaf cache or table-entry cache, and how many it holds (R93). -/
def TlbEnt.of (t : TlbEnt) (unit : Nat) (leaf : Bool) : Bool := t.unit == unit && t.ent.getLsbD 1 == leaf
def tlbMax (leaf : Bool) : Nat := if leaf then 16384 else 512

/-- The list without the `n`-th element that satisfies a test. -/
def dropNth {α : Type} (f : α → Bool) : Nat → List α → List α
  | _, [] => []
  | n, a :: r => if f a then (match n with
      | 0 => r
      | m + 1 => a :: dropNth f m r) else a :: dropNth f n r

/-- A full cache of a unit gives up one of its entries: which one is a free value (R93, R95; log entry 3). -/
def State.tlbRoom (s : State) (unit : Nat) (leaf : Bool) : State :=
  let n := (s.tlb.filter (fun t => t.of unit leaf)).length
  if n < tlbMax leaf then s
  else { s with
    tlb := dropNth (fun t => t.of unit leaf) ((Config.freeWord s.free).toNat % n) s.tlb
    free := s.free + 1 }

/-- A cached entry put in place of an older one of the same page, or in the room of one that the full cache gives up. -/
def State.tlbPut (s : State) (unit : Nat) (pasid : BitVec 20) (va : W64) (lv : Nat) (e : W64) : State :=
  let k := pageOf va (lvBits lv)
  let s1 : State := { s with tlb := s.tlb.filter (fun t => !(t.unit == unit && t.pasid == pasid && t.lg == lvBits lv && t.page == k)) }
  let s2 := s1.tlbRoom unit (e.getLsbD 1)
  { s2 with tlb := s2.tlb ++ [⟨unit, pasid, k, lvBits lv, e⟩] }

/-- The PASID's first-level entry as the I/O die holds it (R376): read from memory once, kept while it is valid, its A bit set on
first use. -/
def State.pasidEntry (s : State) (pasid : BitVec 20) : State × W64 × W64 :=
  match s.host.pasids.find pasid.toNat with
  | some e => (s, e.1, e.2)
  | none =>
    let a := s.physLoc (s.host.qtbase.toNat + 16 * pasid.toNat)
    let s1 := s.readCheck .phys a 16
    let lo := BitVec.ofNat 64 (s1.readNat .phys a 8)
    let hi := BitVec.ofNat 64 (s1.readNat .phys (a + 8) 8)
    if lo.getLsbD 0 then
      let s2 := s1.writeBytes .phys a (leBytes 8 (lo ||| 4#64).toNat)
      ({ s2 with host := { s2.host with pasids := s2.host.pasids.set pasid.toNat (lo, hi) } }, lo, hi)
    else (s1, lo, hi)

/-- A table entry read: none when the table lies in a hole (code 0x04) or is unreadable (code 0x05). -/
def State.tableEntry (s : State) (base idx : Nat) : Except Nat (Nat × W64) :=
  match s.physAddr base with
  | none => .error 0x04
  | some b =>
    let a := b + 8 * idx
    if s.poisoned .phys a 8 then .error 0x05 else .ok (a, BitVec.ofNat 64 (s.readNat .phys a 8))

/-- The levels still to walk, from `lv` down, through the table at `base`: the leaf with its address and level, and the pointers
read on the way. -/
def walkLevels (s : State) (unit : Nat) (pasid : BitVec 20) (va : W64) (base : Nat) : Nat → List (Nat × W64) →
    Except XFault (Nat × W64 × Nat × List (Nat × W64))
  | lv, ptrs =>
    let got : Except Nat (Nat × W64) := match (if lv = 0 then none else s.tlbFind unit pasid va lv) with
      | some e => if e.getLsbD 1 then s.tableEntry base (vaIndex va lv) else .ok (0, e)
      | none => s.tableEntry base (vaIndex va lv)
    match got with
    | .error c => .error ⟨kTranslation, c, lv⟩
    | .ok (a, e) =>
      if !e.getLsbD 0 then .error ⟨kTranslation, 0x02, lv⟩
      else if badEntry e lv then .error ⟨kTranslation, 0x03, lv⟩
      else if e.getLsbD 1 then .ok (a, e, lv, ptrs)
      else
        match lv with
        | 0 => .error ⟨kTranslation, 0x03, 0⟩
        | n + 1 => walkLevels s unit pasid va (frameOf e) n (ptrs ++ [(lv, e)])

/-- A table entry's unreadable granule is found when it is read (R97): the entries that a walk reads, checked before it. A level whose
pointer is cached is not read. -/
def State.walkCheck (s : State) (unit : Nat) (pasid : BitVec 20) (va : W64) (root : Nat) : State :=
  if s.errIn.isEmpty then s
  else [2, 1, 0].foldl (fun (p : State × Option Nat) lv => match p.2 with
    | none => p
    | some base =>
      match (if lv = 0 then none else (p.1.tlbFind unit pasid va lv).filter (fun e => !e.getLsbD 1)) with
      | some e => (p.1, p.1.physAddr (frameOf e))
      | none =>
        let a := base + 8 * vaIndex va lv
        let s1 := p.1.readCheck .phys a 8
        let e := BitVec.ofNat 64 (s1.readNat .phys a 8)
        (s1, if e.getLsbD 0 && !e.getLsbD 1 then s1.physAddr (frameOf e) else none)) (s, some root) |>.1

/-- The physical address through a leaf. -/
def leafAddr (e : W64) (va : W64) (lv : Nat) : Nat := frameOf e + va.toNat % 2 ^ lvBits lv

/-- The last step of R90: the physical range, and an abort of the host link (code 0x06). -/
def State.physCheck (s : State) (e : W64) (va : W64) (lv : Nat) : Except XFault Nat :=
  match s.physAddr (leafAddr e va lv) with
  | none => .error ⟨kTranslation, 0x04, lv⟩
  | some a =>
    if isHostAddr a && s.errIn.contains (.abort (a / 64)) then .error ⟨kTranslation, 0x06, lv⟩ else .ok a

/-- The A and D bits that an access needs (R89). Every atomic access to main memory counts as a permitted write, a CAS or STX that then
stores nothing as well; LDX, which only reads, sets A alone (log entry 71). -/
def adBits (ac : Access) : W64 :=
  match ac with
  | .write | .copyOut | .atomic => 0x60#64
  | _ => 0x20#64

/-- A cached leaf that serves the access without a walk: it has the A and D bits the access needs (R89, R95). -/
def State.leafHit (s : State) (unit : Nat) (pasid : BitVec 20) (va : W64) (ac : Access) : Option (W64 × Nat) :=
  let hit (lv : Nat) : Option (W64 × Nat) := match s.tlbFind unit pasid va lv with
    | some e => if e.getLsbD 1 && ((permCode e ac).isSome || (e &&& adBits ac) == adBits ac) then some (e, lv) else none
    | none => none
  match hit 0 with
  | some r => some r
  | none => hit 1

/-- A virtual address translated in a unit for a kind of access (R86 to R95): the physical address, or the fault. -/
def State.translate (s : State) (unit : Nat) (pasid : BitVec 20) (va : W64) (ac : Access) : State × Except XFault Nat :=
  if va.extractLsb' 55 9 ≠ 0#9 then (s, .error ⟨kTranslation, 0x01, 0xF⟩)
  else
    match s.leafHit unit pasid va ac with
    | some (e, lv) =>
      match permCode e ac with
      | some c => (s, .error ⟨kProtection, c, lv⟩)
      | none => (s, s.physCheck e va lv)
    | none =>
      let q := s.pasidEntry pasid
      let s1 := q.1
      let root := q.2.2
      if !q.2.1.getLsbD 0 then (s1, .error ⟨kTranslation, 0x02, 3⟩)
      else if root.extractLsb' 0 16 ≠ 0#16 ∨ root.extractLsb' 52 12 ≠ 0#12 then (s1, .error ⟨kTranslation, 0x03, 3⟩)
      else
        match s1.physAddr root.toNat with
        | none => (s1, .error ⟨kTranslation, 0x04, 3⟩)
        | some base =>
          let s2 := s1.walkCheck unit pasid va base
          match walkLevels s2 unit pasid va base 2 [] with
          | .error f => (s2, .error f)
          | .ok (a, e, lv, ptrs) =>
            let keep (e' : W64) (s3 : State) : State :=
              (ptrs.foldl (fun s p => s.tlbPut unit pasid va p.1 p.2) s3).tlbPut unit pasid va lv e'
            match permCode e ac with
            | some c => (keep e s2, .error ⟨kProtection, c, lv⟩)
            | none =>
              match s2.physCheck e va lv with
              | .error f => (s2, .error f)
              | .ok pa =>
                let now := BitVec.ofNat 64 (s2.readNat .phys a 8)
                let s3 := if now &&& adBits ac = adBits ac then s2
                  else s2.writeBytes .phys a (leBytes 8 (now ||| adBits ac).toNat)
                (keep (e ||| adBits ac) s3, .ok pa)

/-- A request that misses in a unit whose miss queue is full is held back (R94). -/
def State.xlatHeld (s : State) (unit : Nat) (pasid : BitVec 20) (va : W64) (ac : Access) : Bool :=
  (s.missq.find unit).isSome && (s.leafHit unit pasid va ac).isNone

/-- The translation unit of a core: its cluster (R93). -/
def xunit (core : Nat) : Nat := core / 64
/-- The translation unit of the I/O die. -/
def ioUnit : Nat := 16

/-! ## Fetching a clause (R40, R64) -/

/-- Why a clause cannot be issued: kind, code, level, word index, and the address for FINF. -/
structure FetchErr where
  kind  : Nat
  code  : Nat
  level : Nat
  widx  : Nat
  va    : W64
deriving DecidableEq, Repr

/-- One word of code (R64): translated first; then from the instruction cache, which does not observe writes to code, or from memory,
which the cache then keeps. -/
def State.fetchWord (s : State) (core : Nat) (pasid : BitVec 20) (va : W64) : State × Except FetchErr W64 :=
  match s.translate (xunit core) pasid va .fetch with
  | (s1, .error f) => (s1, .error ⟨f.kind, f.code, f.level, 0, va⟩)
  | (s1, .ok pa) =>
    match (s1.core core).ic.find? (fun e => e.1 == pasid && e.2.1 == va) with
    | some e => (s1, .ok e.2.2)
    | none =>
      let s2 := s1.readCheck .phys pa 8
      if s2.poisoned .phys pa 8 then (s2, .error ⟨kPoison, 0, 0, 0, va⟩)
      else
        let w := BitVec.ofNat 64 (s2.readNat .phys pa 8)
        let k := s2.core core
        (s2.setCore core { k with ic := k.ic ++ [(pasid, va, w)] }, .ok w)

/-- The next `n` words of code from an address. -/
def State.fetchWords (core : Nat) (pasid : BitVec 20) : Nat → W64 → State → State × Except FetchErr (List W64)
  | 0, _, s => (s, .ok [])
  | n + 1, va, s =>
    match s.fetchWord core pasid va with
    | (s1, .error e) => (s1, .error e)
    | (s1, .ok w) =>
      match State.fetchWords core pasid n (va + 8#64) s1 with
      | (s2, .error e) => (s2, .error e)
      | (s2, .ok ws) => (s2, .ok (w :: ws))

/-- The kind of a decode fault (R312). -/
def decKind : DecErr → Nat
  | .illegalInstruction => kIllInstr
  | .illegalEncoding => kIllEnc
  | .illegalClause => kIllClause

/-- The header at an address, as the core fetches it. -/
def State.fetchHeader (s : State) (core : Nat) (pasid : BitVec 20) (pc : W64) : State × Except FetchErr W64 :=
  if pc.extractLsb' 0 3 ≠ 0#3 then (s, .error ⟨kIllClause, 0, 0, 0, pc⟩) else s.fetchWord core pasid pc

/-- The whole clause fetched and checked (R40): its copy stands before word 1. -/
def State.fetchClause (s : State) (core : Nat) (pasid : BitVec 20) (lim : Lim) (pc : W64) : State × Except FetchErr Clause :=
  match s.fetchHeader core pasid pc with
  | (s1, .error e) => (s1, .error e)
  | (s1, .ok h) =>
    match State.fetchWords core pasid (hdrN h) (pc + 8#64) s1 with
    | (s2, .error e) => (s2, .error e)
    | (s2, .ok ws) =>
      match checkClause lim h ws with
      | some e => (s2, .error ⟨decKind e.err, 0, 0, e.widx, pc⟩)
      | none => (s2, .ok ⟨h, ws, 1, none⟩)

end Sys2Proof.Machine
end

