-- ==== Sys2Proof/Machine/Ready.lean ====
section
/-! DEFINITION. Which paths and cohorts are ready to issue (R34, R35, R102, R239, R289, R308), naming paths, ending blocked waits,
and the accesses of a cohort that a release waits for (R256, R262). -/

namespace Sys2Proof.Machine

/-! ## Paths by name and their waits -/

/-- The cohort of a path. -/
def pathCoh (p : PathRef) : CohRef := ⟨p.blk, p.coh⟩

/-- The wait a path in a slot stands in, when it has not ended. -/
def State.waiting (s : State) (p : PathRef) : Option PWait :=
  if s.isSaved p.blk then none
  else (((s.coh (pathCoh p)).bind (fun c => c.path p.isB)).bind (·.wait)).filter (fun w => !w.released)

/-- The wait of a path ended: its word issues again and passes (R102). -/
def State.release (s : State) (p : PathRef) : State :=
  s.updCoh (pathCoh p) (fun c => c.setPath p.isB ((c.path p.isB).map (fun q =>
    { q with wait := q.wait.map (fun w => { w with released := true }) })))

/-- The issuing path's wait of a kind that has ended. -/
def Ctx.passed (x : Ctx) (k : WaitKind) : Bool :=
  match x.path.wait with
  | some w => w.kind == k && w.released
  | none => false

/-- A blocked wait of the issuing path: since when it stands in it (R102). -/
def Ctx.wait (x : Ctx) (s : State) (k : WaitKind) (num : Nat) : PWait :=
  match x.path.wait with
  | some w => if w.kind = k ∧ !w.released then w else ⟨k, false, s.clk, num, []⟩
  | none => ⟨k, false, s.clk, num, []⟩

/-! ## Earlier accesses (R256, R262) -/

/-- A read among the accesses in flight. -/
def PKind.isRead : PKind → Bool
  | .load _ _ | .gath | .gaths _ _ | .scata _ | .ldspl | .hacc _ _ _ | .atom _ _ _ | .cas _ | .ldx | .stx _ => true
  | .matrix op => (match op.i with
    | .mld .. => true
    | _ => false)
  | _ => false

/-- An order at a scope binds the block's cohorts to other agents (R28, R277): .coh names the cohort alone, and .blk orders nothing in a
block of one cohort; at the larger scopes another agent may always come to share the instance (log entry 10). -/
def Block.binds (b : Block) (sc : Scope) : Bool :=
  match sc with
  | .coh => false
  | .blk => decide (1 < b.cohs.length)
  | _ => true

/-- No acquire of the cohort is still to be performed (R256). -/
def State.acquired (s : State) (r : CohRef) : Bool := !s.pend.any (fun p => p.blk == r.blk && p.coh == r.coh && p.acq)

/-- Every access that the cohort has issued is performed; with `reads`, every read. -/
def State.accessesDone (s : State) (r : CohRef) (reads : Bool) : Bool :=
  !s.pend.any (fun p => p.blk == r.blk && p.coh == r.coh && p.touchesMem && (!reads || p.kind.isRead))

/-! ## Readiness -/

/-- The path may issue: it stands in no wait, or in one that has ended. -/
def Path.free (p : Path) : Bool :=
  match p.wait with
  | some w => w.released
  | none => true

/-- A path in a slot is ready for its next clause, or for the word it waited at (R35, R102). -/
def State.pathReady (s : State) (b : Block) (c : Cohort) (isB : Bool) : Bool :=
  match c.path isB with
  | none => false
  | some p =>
    p.free &&
    (match p.cl with
     | some _ => true
     | none =>
       match s.grid b.grid with
       | none => false
       | some g =>
         !s.xlatHeld (xunit b.coreId) g.pasid p.pc .fetch &&
         match (s.fetchHeader b.coreId g.pasid p.pc).2 with
         | .ok h => c.waitOk (hdrCwait h)
         | .error _ => true)

/-- The path of a cohort that issues its next clause (R239): inside a clause the selected one; else alternately, a demoted path behind its
sibling (R240). -/
def State.nextPath (s : State) (b : Block) (c : Cohort) : Option Bool :=
  if c.mid then (if ((c.path c.selB).map (·.free)).getD false then some c.selB else none)
  else
    let first := if (c.path (!c.selB)).any (fun p => p.dem && p.atBoundary) then c.selB else !c.selB
    if s.pathReady b c first then some first else if s.pathReady b c (!first) then some (!first) else none

/-- The handler's first word waits for the accesses of the frozen cohort (R289). -/
def State.handlerHeld (s : State) (b : Block) (c : Cohort) : Bool :=
  match b.kind with
  | .handler _ _ cap =>
    if c.ncls ≠ 0 ∨ c.mid then false
    else match (s.die b.die).caps.find? (fun k => k.num == cap) with
      | some k => match k.what with
        | .coh b' c' => !s.accessesDone ⟨b', c'⟩ false
        | .copy _ => false
      | none => false
  | _ => false

/-- A clause whose words have all issued is closed before the next is chosen: the cohort as it then stands. -/
def Block.closed (b : Block) (coh : Nat) : Block :=
  match b.coh coh with
  | none => b
  | some c =>
    match (c.path c.selB).bind (·.cl) with
    | none => b
    | some cl =>
      if c.mid ∧ cl.words.length < cl.wi ∧ c.step < 2 ∧ c.frz.isNone then
        let p := (c.path c.selB).getD (mkPath 0#64 0#32 none)
        (b.setCoh coh (c.closeClause c.selB (p.pc + BitVec.ofNat 64 (8 * (cl.words.length + 1))))).pathBoundary coh c.selB
      else b

/-- A checkpoint of the block is about to be taken (R348). -/
def State.ckHold (s : State) (b : Block) : Bool := b.ckw && b.logr.isSome && ((s.grid b.grid).map (·.recd)).getD false

/-- A cohort may issue on its partition, its pause under YIELD beginning at the boundary that follows: resident, not frozen, stopped, paused or held by heat (R270, R313, R342, R401). -/
def State.cohFree (s : State) (b : Block) (c : Cohort) : Bool :=
  !b.saved && c.frz.isNone && !c.gone && (c.ypause.isNone || c.mid) && decide (c.step < 2)
  && !((s.core b.coreId).part c.part).stopped && !(s.die b.die).hot && !s.pow.fatal && s.pow.on
  && !s.handlerHeld b c && !(s.ckHold b && !c.mid)

/-- A cohort's next clause is ready (R308). -/
def State.cohReady (s : State) (blk coh : Nat) : Bool :=
  match s.block blk with
  | none => false
  | some b0 =>
    let b := b0.closed coh
    match b.coh coh with
    | none => false
    | some c => s.cohFree b c && (s.nextPath b c).isSome

/-- The cohorts resident on a partition: block and index. -/
def State.cohortsOn (s : State) (core part : Nat) : List (Nat × Nat) :=
  s.blocks.flatMap (fun b => if b.2.coreId = core ∧ !b.2.saved then
    (b.2.cohs.filter (fun c => c.2.part == part && !c.2.gone)).map (fun c => (b.1, c.1)) else [])

end Sys2Proof.Machine
end

