-- ==== Sys2Proof/Machine/Sync.lean ====
section
/-! DEFINITION. Fences, barriers, neighbour links, YIELD and SLEEP of CLASS 0xA (R256, R262 to R270), MRING (R213), and the
events that end their waits. -/

namespace Sys2Proof.Machine

/-! ## Fences (R262) -/

/-- An order that makes a word wait for earlier accesses: of all, or of reads only for an acquire. -/
def ordWaits (o : MOrd) : Option Bool :=
  match o with
  | .rlx => none
  | .acq => some true
  | _ => some false

/-- FENCE: a blocked wait until the earlier accesses are performed, at a scope at which it binds the cohort to other agents (R28, R277). -/
def execFence (c : Ctl) (sc : Scope) (ord : MOrd) (s : State) : Out :=
  word c s (fun x =>
    match (if x.blk.binds sc then ordWaits ord else none) with
    | none => .done s .none
    | some rd => if s.accessesDone x.ref rd then .done s .none else .wait s (x.wait s .fence (if rd then 1 else 0)))

/-- The frozen cohort has no register write pending that can still land (R328): lanes that have not been sent, and matrix words whose
shape groups wait for the resume (R196), do not count; the replies of a stopped partition are held (R342). -/
def State.regsSettled (s : State) (r : CohRef) : Bool :=
  !s.pend.any (fun p => p.ref == r && p.kind.writesReg && (match p.kind with
    | .matrix op => op.started && op.groups.isEmpty
    | .sysread _ | .regread _ _ | .mbxr _ _ | .bquery _ _ => true
    | _ => !p.lanes.isEmpty))
  && !s.partStopped r

/-- What a capability word waits for holds: 2 × the capability's number, plus 1 when registers must have settled. A cohort that has been
stepped freezes again, which is a release that the next use acquires from (R289, R329). -/
def State.capWaitOver (s : State) (p : PathRef) (num : Nat) : Bool :=
  match (s.block p.blk).bind (fun b => (s.die b.die).caps.find? (fun c => c.num == num / 2)) with
  | none => true
  | some k => match k.what with
    | .copy _ => true
    | .coh b c => match s.coh ⟨b, c⟩ with
      | none => true
      | some ch => ch.lanes.isEmpty || (ch.frz.isSome && s.accessesDone ⟨b, c⟩ false && (num % 2 == 0 || s.regsSettled ⟨b, c⟩))

/-- FENCE_WAIT_END: the accesses that a fence, a release or an invalidation waits for are performed; the acquire is that holds back an
access; the replies that the second stage of a word waits for have come (R128). -/
def execFenceWaitEnd (p : PathRef) (s : State) : Out :=
  match s.waiting p with
  | none => idle s
  | some w =>
    match w.kind with
    | .fence => if s.accessesDone (pathCoh p) (w.num == 1) then .next (s.release p) else idle s
    | .order =>
      if (if w.num = 2 then s.acquired (pathCoh p) else s.accessesDone (pathCoh p) false) then .next (s.release p) else idle s
    | .tlb => if s.accessesDone (pathCoh p) false then .next (s.release p) else idle s
    | .reply => if s.replied w.num then .next (s.release p) else idle s
    | .regs => if s.capWaitOver p w.num then .next (s.release p) else idle s
    | _ => idle s

/-! ## The block barrier (R263 to R265) -/

/-- The block has no barrier slot: code 0x2E. -/
def Ctx.noSlot (x : Ctx) : Bool := !x.blk.cfg.bslot

/-- What an arrival does at once: the block afterwards, and the wait it leaves, none when the phase is complete. -/
structure Arrived where
  blk  : Block
  num  : Nat
  late : List Nat
  done : Bool
deriving DecidableEq, Repr

/-- The threads of a path arrive at the block barrier (R263): those that have already arrived do so in the next phase. -/
def Block.arrive (b : Block) (ts : List Nat) : Arrived :=
  let late := ts.filter (fun t => b.arr.contains t)
  let b1 := { b with arr := ts.foldl setIns b.arr }
  let b2 := b1.barCheck
  if b2.ph = b1.ph then ⟨b2, b.ph, late, false⟩
  else if late.isEmpty then ⟨b2, b.ph, [], true⟩
  else
    let b3 := { b2 with arr := late.foldl setIns b2.arr }
    let b4 := b3.barCheck
    ⟨b4, b2.ph, [], b3.ph < b4.ph⟩

/-- A cohort that arrives at a barrier: its unchanged polls start again (R302). -/
def State.unpoll (s : State) (r : CohRef) : State := s.updCoh r (fun c => { c with polls := 0 })

/-- BAR. -/
def execBar (c : Ctl) (s : State) : Out :=
  word c s (fun x =>
    if x.noSlot then .trap (Fz.of kProtection 0x2E x.exec)
    else if x.passed .bar then .done s .none
    else if x.blk.sbo.isSome then .trap (Fz.of kIllState 0 x.exec)
    else if !s.accessesDone x.ref false then .wait s (x.wait s .order 0)
    else
      let r := x.blk.arrive x.threads
      let s1 := (s.putBlock x.ref.blk x.blk r.blk).unpoll x.ref
      if r.done then .done s1 .none else .wait s1 ⟨.bar, false, s.clk, r.num, r.late⟩)

/-- BARA: it arrives without waiting; its result is PH at arrival. -/
def execBara (c : Ctl) (d : Dst) (s : State) : Out :=
  word c s (fun x =>
    if x.noSlot then .trap (Fz.of kProtection 0x2E x.exec)
    else if x.passed .bara then .done (s.putS x.ref d (BitVec.ofNat 64 ((x.path.wait.map (·.num)).getD 0))) .none
    else if x.blk.sbo.isSome then .trap (Fz.of kIllState 0 x.exec)
    else if !s.accessesDone x.ref false then .wait s (x.wait s .order 0)
    else
      let late := x.threads.filter (fun t => x.blk.arr.contains t)
      let r := x.blk.arrive x.threads
      let s1 := (s.putBlock x.ref.blk x.blk r.blk).unpoll x.ref
      if late.isEmpty ∨ r.num ≠ x.blk.ph ∨ r.done then .done (s1.putS x.ref d (BitVec.ofNat 64 r.num)) .none
      else .wait s1 ⟨.bara, false, s.clk, r.num, r.late⟩)

/-- BARW: it waits until PH has passed the token. -/
def execBarw (c : Ctl) (t : Src) (s : State) : Out :=
  word c s (fun x =>
    if x.noSlot then .trap (Fz.of kProtection 0x2E x.exec)
    else
      let tok := (x.sca s.clk c.lit t).toNat
      if tok < x.blk.ph then .done s .none else .wait s (x.wait s .barw tok))

/-! ## Scoped and grid barriers (R266) -/

/-- The count of an open instance phase differs from this arrival's. -/
def State.sbarClash (s : State) (x : Ctx) (o : SOpen) : Bool :=
  (match x.blk.sbo with
    | some p => p.isGrid != o.isGrid || (!o.isGrid && (p.scope != o.scope || p.n != o.n))
    | none => false)
  || (!o.isGrid && x.grid.sbars.any (fun i =>
    i.scope == o.scope && i.inst == scopeInst o.scope x.blk.die x.blk.core && i.n != o.n && (s.grid x.blk.grid).isSome))

/-- A path at SBAR (R266). -/
def sbarWord (c : Ctl) (s : State) (k : WaitKind) (cnt : Ctx → Option SOpen) : Out :=
  word c s (fun x =>
    if x.noSlot then .trap (Fz.of kProtection 0x2E x.exec)
    else if x.passed k then .done s .none
    else
      match cnt x with
      | none => .trap (Fz.of kIllState 0 x.exec)
      | some o =>
        if (x.blk.sbo.isNone ∧ !x.blk.arr.isEmpty) ∨ s.sbarClash x o then .trap (Fz.of kIllState 0 x.exec)
        else if !s.accessesDone x.ref false then .wait s (x.wait s .order 0)
        else
          let b1 : Block := { x.blk with sbo := some (x.blk.sbo.getD o), arr := x.threads.foldl setIns x.blk.arr }
          let s1 := (s.putBlock x.ref.blk x.blk b1.barCheck).unpoll x.ref
          .wait s1 ⟨k, false, s.clk, x.blk.ph, []⟩)

/-- SBAR at a scope: the expected count is SA[15:0]. -/
def execSbar (c : Ctl) (sc : Scope) (n : Src) (s : State) : Out :=
  sbarWord c s .sbar (fun x =>
    let v := (x.sca s.clk c.lit n).toNat % 2 ^ 16
    if v = 0 then none else some ⟨false, sc, v, false⟩)

/-- SBAR.grid. -/
def execSbarGrid (c : Ctl) (s : State) : Out := sbarWord c s .sbarGrid (fun _ => some ⟨true, .pkg, 0, false⟩)

/-- The blocks of a grid that have not ended: those of its index space, and its resident or saved task cohorts. -/
def State.blocksLeft (s : State) (g : Grid) (gid : Nat) : Nat :=
  g.lrec.gx * g.lrec.gy * g.lrec.gz - g.done + (s.blocks.filter (fun b => b.2.grid == gid && b.2.kind == .task)).length

/-- A block released from SBAR (R266, R305): its phase completes; saved blocks are released in the image. -/
def Block.sbarFree (b : Block) : Block :=
  { b with
    sbo := none
    arr := []
    ph := b.ph + 1
    cohs := b.cohs.map (fun c => (c.1, c.2.mapPaths (fun p =>
      if p.waits .sbar || p.waits .sbarGrid then { p with wait := p.wait.map (fun w => { w with released := true }) } else p))) }

/-- The blocks of a list released. -/
def State.sbarFree (s : State) (bs : List Nat) : State :=
  bs.foldl (fun s i => match s.block i with
    | some b => s.putBlock i b b.sbarFree
    | none => s) s

/-- SCOPED_BARRIER_RELEASE: key 0 names the grid barrier, key n + 1 the n-th open instance phase of the grid. -/
def execScopedBarrierRelease (grid key : Nat) (s : State) : Out :=
  match s.grid grid with
  | none => idle s
  | some g =>
    match key with
    | 0 =>
      if g.garr.isEmpty ∨ g.garr.length < s.blocksLeft g grid then idle s
      else .next ((s.setGrid grid { g with garr := [], gph := g.gph + 1 }).sbarFree g.garr)
    | n + 1 =>
      match g.sbars[n]? with
      | none => idle s
      | some i =>
        if i.arr.length < i.n then idle s
        else .next ((s.setGrid grid { g with sbars := g.sbars.filter (fun j => j != i) }).sbarFree i.arr)

/-! ## Neighbour links (R267 to R269) -/

/-- The code of a direction. -/
def dirCode : Dir → Nat
  | .n => 0
  | .e => 1
  | .s => 2
  | .w => 3
/-- The opposite side. -/
def dirOpp (d : Nat) : Nat := (d + 2) % 4

/-- The neighbour of a core on a side (R267). -/
def neighbour (die core side : Nat) : Option Nat :=
  let row := core / 16
  let col := core % 16
  match side with
  | 0 => if row = 0 then none else some (256 * die + core - 16)
  | 1 => if col = 15 then none else some (256 * die + core + 1)
  | 2 => if row = 15 then none else some (256 * die + core + 16)
  | _ => if col = 0 then none else some (256 * die + core - 1)

/-- An input FIFO of a core. -/
def Core.fifoAt (c : Core) (side : Nat) : List FEntry := c.fifo.get side []
/-- The entries of an input FIFO. -/
def fifoMax : Nat := 16
/-- The words that a message takes in its FIFO now. -/
def FEntry.held (e : FEntry) : Nat := e.sent - e.took
/-- The free entries of an input FIFO (R267): a message takes one for each of its words that has entered and not left. -/
def Core.fifoFree (c : Core) (side : Nat) : Nat := fifoMax - (c.fifoAt side).foldl (fun n e => n + e.held) 0

/-- A message put into the neighbour's FIFO on the sender's side. -/
def State.pushFifo (s : State) (core side : Nat) (e : FEntry) : State :=
  let k := s.core core
  s.setCore core { k with fifo := k.fifo.set (dirOpp side) (k.fifoAt (dirOpp side) ++ [e]) }

/-- The head of a core's FIFO taken. -/
def State.popFifo (s : State) (core side : Nat) : State :=
  let k := s.core core
  s.setCore core { k with fifo := k.fifo.set side ((k.fifoAt side).drop 1) }

/-- The block becomes neighbour-bound (R269). -/
def State.bindNb (s : State) (r : CohRef) : State :=
  match s.block r.blk with
  | some b => (s.setBlock r.blk { b with nb := true }).unpoll r
  | none => s

/-- The neighbour of the issuer on a side, and room in its FIFO. -/
def Ctx.nb (x : Ctx) (side : Nat) : Option Nat := neighbour x.blk.die x.blk.core side
def State.fifoRoom (s : State) (core side : Nat) : Bool := decide (0 < (s.core core).fifoFree (dirOpp side))

/-- The last message of a cohort in a list changed. -/
def lastMsg (f : FEntry → Bool) (g : FEntry → FEntry) : List FEntry → List FEntry
  | [] => []
  | e :: r => if f e && !r.any f then g e :: r else e :: lastMsg f g r

/-- More words of the cohort's last message enter the neighbour's FIFO, as many as have room (R213). -/
def State.feedFifo (s : State) (core side grid coh : Nat) : State :=
  let k := s.core core
  let sd := dirOpp side
  let n := k.fifoFree sd
  s.setCore core { k with fifo := k.fifo.set sd (lastMsg (fun e => e.grid == grid && e.coh == coh && e.vec.isNone)
    (fun e => { e with sent := Nat.min e.size (e.sent + n) }) (k.fifoAt sd)) }

/-- The cohort's last message has entered the FIFO whole. -/
def State.fedFifo (s : State) (core side grid coh : Nat) : Bool :=
  (((s.core core).fifoAt (dirOpp side)).filter (fun e => e.grid == grid && e.coh == coh && e.vec.isNone)).getLast?.all (fun e => e.sent == e.size)

/-- The words of the head message that have entered leave the FIFO (R213). -/
def State.drainFifo (s : State) (core side : Nat) : State :=
  let k := s.core core
  match k.fifoAt side with
  | [] => s
  | e :: r => s.setCore core { k with fifo := k.fifo.set side ({ e with took := e.sent } :: r) }

/-- NSEND. -/
def execNsend (c : Ctl) (dir : Dir) (a : Src) (s : State) : Out :=
  word c s (fun x =>
    match parityCheck x s [a] x.lanes with
    | .error e => e
    | .ok s0 =>
      let es := x.lanes.map (fun l => (l, x.el s0.clk c.lit false l a))
      let psn := maskOf (AMap.keys (es.filter (fun e => e.2.psn)))
      if psn ≠ 0#32 then .trap (Fz.of kPoison 0 psn)
      else
        let s1 := s0.bindNb x.ref
        match x.nb (dirCode dir) with
        | none => .done s1 .none
        | some n =>
          if !s.fifoRoom n (dirCode dir) then .wait s1 (x.wait s .nsend 0)
          else
            let e : FEntry := ⟨x.blk.grid, x.ref.coh, some (es.map (fun p => (p.1, p.2.val.setWidth 32, p.2.moved a, false))), [], 1, 1, 0⟩
            .done (s1.pushFifo n (dirCode dir) e) .none)

/-- The head of a FIFO is for this cohort and of the kind wanted. -/
def Ctx.forMe (x : Ctx) (e : FEntry) (mat : Bool) : Bool := e.grid == x.blk.grid && e.coh == x.ref.coh && (e.vec.isNone == mat)

/-- NRECV. The zero tangents are written in launch-wide mode alone; outside it they stay as they are (R16, R217, R218, R268; log entry 79). -/
def execNrecv (c : Ctl) (dir : Dir) (d : Dst) (s : State) : Out :=
  word c s (fun x =>
    let s1 := s.bindNb x.ref
    let side := dirCode dir
    match x.nb side with
    | none => .done s1 .none
    | some _ =>
      match (s.core x.blk.coreId).fifoAt side with
      | [] => .wait s1 (x.wait s .nrecv 0)
      | e :: _ =>
        if !x.forMe e false then .trap (Fz.of kProtection 0x2B x.exec)
        else
          let got := e.vec.getD []
          let s2 := (s1.popFifo x.blk.coreId side).updCoh x.ref (fun k => x.lanes.foldl (fun k l =>
            match got.find l with
            | some g => k.updThread l (fun t => t.putD d false (some (g.1.setWidth 64, g.2.1, g.2.2))
                (if x.blk.cfg.dualn = 0 then [] else tanIdx.map (fun i => (i, 0#64, false))))
            | none => k) k)
          .done s2 .none)

/-- NSEND_ROOM: the FIFO that a send waits for has room. -/
def execNsendRoom (p : PathRef) (s : State) : Out :=
  match s.waiting p, s.block p.blk, (s.coh (pathCoh p)).bind (fun c => c.path p.isB) with
  | some w, some b, some q =>
    let side : Option Nat := match q.waitWord b.lim with
      | some (.nsend _ d _) => if w.kind = .nsend then some (dirCode d) else none
      | some (.mring _ d _ _) => if w.kind = .mringSend then some (dirCode d) else none
      | _ => none
    match side with
    | none => idle s
    | some sd =>
      match neighbour b.die b.core sd with
      | some n => if s.fifoRoom n sd then .next (s.release p) else idle s
      | none => .next (s.release p)
  | _, _, _ => idle s

/-- NEIGHBOUR_ENTRY_ARRIVAL: an entry stands at the head of the FIFO that a receive waits for. -/
def execNeighbourEntryArrival (p : PathRef) (s : State) : Out :=
  match s.waiting p, s.block p.blk, (s.coh (pathCoh p)).bind (fun c => c.path p.isB) with
  | some w, some b, some q =>
    let side : Option Nat := match q.waitWord b.lim with
      | some (.nrecv _ d _) => if w.kind = .nrecv then some (dirCode d) else none
      | some (.mring _ d _ _) => if w.kind = .mringRecv then some (dirOpp (dirCode d)) else none
      | _ => none
    match side with
    | none => idle s
    | some sd => match (s.core b.coreId).fifoAt sd with
      | [] => idle s
      | e :: _ => if e.held = 0 then idle s else .next (s.release p)
  | _, _, _ => idle s

/-! ## MRING (R213) -/

/-- The lanes of an MRING computed with what has been received. -/
def ringLanes (i : Instr) (x : Ctx) (got : AMap MReg) : AMap (Option MLane) :=
  x.lanes.map (fun l => (l, match x.coh.thread l with
    | some th => matLane i x.dxMode x.tans x.blk.cfg.t 0#64 [] th (got.find l)
    | none => none))

/-- The first kind of check of R192 that the lanes fail. -/
def ringFault (x : Ctx) (s : State) (d : MNum) (rs : AMap (Option MLane)) : Option Fz :=
  let ok : AMap MLane := rs.filterMap (fun p => p.2.map (fun r => (p.1, r)))
  let bad := lanesWhere rs (fun _ r => r.isNone)
  let psn := lanesWhere ok (fun _ r => r.psn)
  let cap := lanesWhere ok (fun l r => match r.res.mat, x.coh.thread l with
    | some m, some th => decide (x.blk.cfg.mtb < s.laneTiles x.ref l th d m)
    | _, _ => false)
  if bad ≠ 0#32 then some (Fz.of kFormat 0 bad)
  else if psn ≠ 0#32 then some (Fz.of kPoison 0 psn)
  else if cap ≠ 0#32 then some (Fz.of kMatCap 0 cap)
  else none

/-- The 32-lane words of a matrix message (R213; log entry 42): a descriptor word, then the elements, scales and tangents of the largest
lane, four bytes of each lane to a word. -/
def ringWords (ms : AMap MReg) : Nat :=
  1 + (ms.foldl (fun n m => Nat.max n ((imageBytes m.2).length
    + m.2.tan.foldl (fun k t => k + (elBytes m.2.tag t.2).length) 0)) 0 + 3) / 4

/-- MRING: the send, once, word by word as the FIFO has room; then the receive from the opposite side and the addition. -/
def execMring (c : Ctl) (dir : Dir) (d a : MNum) (s : State) : Out :=
  let i : Instr := .mring c dir d a
  word c s (fun x =>
    if s.matStall x.ref i then .ctl s
    else match parityCheck x s [.m a] x.lanes with
    | .error e => e
    | .ok s0 =>
      let s1 := s0.bindNb x.ref
      let side := dirCode dir
      let sent : Bool := (x.path.wait.map (·.kind)) == some .mringRecv
      let got : PWait := ⟨.mringRecv, true, s.clk, 0, []⟩
      let begun : Bool := (x.path.wait.map (fun w => w.kind == .mringSend && w.num == 1)).getD false
      let fed (n : Nat) (t : State) : WRes :=
        if t.fedFifo n side x.blk.grid x.ref.coh then .wait t got else .wait t ⟨.mringSend, false, s.clk, 1, []⟩
      if begun then
        match x.nb side with
        | none => .wait s1 got
        | some n => fed n (s1.feedFifo n side x.blk.grid x.ref.coh)
      else if !sent then
        match ringFault x s d (ringLanes i x []) with
        | some z => .trap z
        | none =>
          match x.nb side with
          | none => .wait s1 got
          | some n =>
            if !s.fifoRoom n side then .wait s1 (x.wait s .mringSend 0)
            else
              let ms : AMap MReg := x.lanes.filterMap (fun l => (x.coh.thread l).map (fun th => (l, th.mreg a.toNat)))
              fed n ((s1.pushFifo n side ⟨x.blk.grid, x.ref.coh, none, ms, ringWords ms, 0, 0⟩).feedFifo n side x.blk.grid x.ref.coh)
      else
        match x.nb (dirOpp side) with
        | none => matIssue i c s1 x [] x.lanes [] (ringLanes i x [])
        | some _ =>
          match (s.core x.blk.coreId).fifoAt (dirOpp side) with
          | [] => .wait s1 ⟨.mringRecv, false, s.clk, 0, []⟩
          | e :: _ =>
            if !x.forMe e true then .trap (Fz.of kProtection 0x2B x.exec)
            else
              let rs := ringLanes i x e.mat
              match ringFault x s d rs with
              | some z => .trap z
              | none =>
                if e.sent < e.size then .wait (s1.drainFifo x.blk.coreId (dirOpp side)) ⟨.mringRecv, false, s.clk, 0, []⟩
                else
                  match matIssue i c s1 x e.mat x.lanes [] rs with
                  | .async s2 => .async (s2.popFifo x.blk.coreId (dirOpp side))
                  | r => r)

/-! ## YIELD and SLEEP (R270) -/

/-- YIELD: the path is demoted at its next boundary, where the cohort pauses for the cohorts that are ready now (log entry 40). -/
def execYield (c : Ctl) (s : State) : Out :=
  word c s (fun x =>
    let set := (s.cohortsOn x.blk.coreId x.coh.part).filter (fun q => q != (x.ref.blk, x.ref.coh) && s.cohReady q.1 q.2)
    let s1 := s.updCoh x.ref (fun k =>
      { k.setPath x.isB ((k.path x.isB).map (fun p => { p with dem := true })) with
        ypause := some (set, s.clk + 64)
        polls := k.polls + 1 })
    .done s1 .none)

/-- YIELD_PAUSE_END: every cohort of the set has issued or left, or 64 cycles have passed. -/
def execYieldPauseEnd (blk coh : Nat) (s : State) : Out :=
  match s.block blk, s.coh ⟨blk, coh⟩ with
  | some b, some c =>
    match c.ypause with
    | none => idle s
    | some (set, at') =>
      let left := set.filter (fun q => (s.cohortsOn b.coreId c.part).contains q)
      if left.isEmpty ∨ at' ≤ s.clk then .next (s.setCoh ⟨blk, coh⟩ { c with ypause := none }) else idle s
  | _, _ => idle s

/-- SLEEP for SA[15:0] cycles; 0 acts as NOP. -/
def execSleep (c : Ctl) (n : Src) (s : State) : Out :=
  word c s (fun x =>
    let v := (x.sca s.clk c.lit n).toNat % 2 ^ 16
    if x.passed .sleep ∨ v = 0 then .done s .none
    else
      let s1 := s.updCoh x.ref (fun k => { k with polls := k.polls + 1 })
      .wait s1 ⟨.sleep, false, s.clk, s.clk + v, []⟩)

/-- SLEEP_END: the cycles have passed. -/
def execSleepEnd (p : PathRef) (s : State) : Out :=
  match s.waiting p with
  | some w => if w.kind = .sleep ∧ w.num ≤ s.clk then .next (s.release p) else idle s
  | none => idle s

end Sys2Proof.Machine
end

