-- ==== Sys2Proof/Machine/Bulk.lean ====
section
/-! DEFINITION. CLASS 0x8, the bulk copies (R98 to R124): locators, slots, barrier objects, full-empty bits, batches, tangent
boxes, suspended copies, and the events that land bytes and end waits. -/

namespace Sys2Proof.Machine

/-! ## Locators (R98) -/

/-- A scratchpad locator taken apart: its space, offset, whether it breaks R98 (code 0x22), its traffic class, its scope. -/
structure Loc where
  sp    : Nat
  off   : Nat
  bad   : Bool
  tc    : Option Nat
  scope : Nat
deriving DecidableEq, Repr

def locOf (v : W64) : Loc :=
  let n := v.toNat
  let sp := bitsAt n 62 2
  let off := n % 2 ^ 32
  { sp := sp
    off := off
    bad := sp == 3 || bitsAt n 60 2 != 0 || bitsAt n 32 21 != 0 || (sp == 1 && decide (0xFFFFFF < off))
    tc := if bitsAt n 59 1 = 1 then some (bitsAt n 56 3) else none
    scope := bitsAt n 53 3 }

/-- An object operand: the specifier ZERO means no object (R111). -/
def Ctx.obj (x : Ctx) (clk : Nat) (lit : Option W64) (o : Src) : Option W64 :=
  match o with
  | .special n => if n = 0x0D#5 then none else some (x.sca clk lit o)
  | _ => some (x.sca clk lit o)

/-- A traffic class named by a locator is not permitted (R103). -/
def tcBad (l : Loc) (hnd : Bool) : Bool :=
  match l.tc with
  | some t => t == 7 || (t == 6 && !hnd)
  | none => false

/-- The scratchpad end a locator names. -/
def Ctx.spEnd (x : Ctx) (l : Loc) : SpEnd :=
  match l.sp with
  | 0 => ⟨none, x.own.1, x.own.2, BitVec.ofNat 64 l.off⟩
  | 1 => ⟨some (x.winCore 0), .core 0, 0, BitVec.ofNat 64 l.off⟩
  | _ => ⟨none, .die x.blk.die, 0, BitVec.ofNat 64 l.off⟩

/-- The store and address behind an address of a scratchpad end. -/
def SpEnd.place (e : SpEnd) (a : W64) : Store × Nat :=
  match e.win with
  | some c => (.core (c + a.toNat / 2 ^ 18 % 64), a.toNat % 2 ^ 18)
  | none => (e.store, e.base + a.toNat)

/-- `n` bytes from a window address lie in what the grid may reach, on every core they touch (R141). -/
def State.winRow (s : State) (x : Ctx) (a n : Nat) : Bool :=
  decide (a + n ≤ 2 ^ 24) && (granules (2 ^ 18) a n).all (fun c =>
    let lo := Nat.max a (c * 2 ^ 18)
    let hi := Nat.min (a + n) ((c + 1) * 2 ^ 18)
    s.winReach x.blk.grid (x.winCore (c * 2 ^ 18)) (lo % 2 ^ 18) (hi - lo))

/-- `n` bytes at an address of a space lie in what the grid may reach (R112). -/
def State.spReach (s : State) (x : Ctx) (sp : Nat) (a : W64) (n : Nat) : Bool :=
  match sp with
  | 0 => decide (a.toNat + n ≤ x.blk.cfg.sb)
  | 1 => s.winRow x a.toNat n
  | _ => decide (x.grid.lrec.dwbase ≤ a.toNat) && decide (a.toNat + n ≤ x.grid.lrec.dwbase + x.grid.lrec.dwsize)

/-- Where an object locator's object lies; none outside what the grid may reach. -/
def State.objPlace (s : State) (x : Ctx) (v : W64) : Option (Store × Nat) :=
  let l := locOf v
  match l.sp with
  | 0 => if l.off + 16 ≤ x.blk.cfg.sb then some (x.own.1, x.own.2 + l.off) else none
  | 1 => if s.winReach x.blk.grid (x.winCore l.off) (l.off % 2 ^ 18) 16 then some (.core (x.winCore l.off), l.off % 2 ^ 18) else none
  | _ => none

/-- The checks of R112 on an object operand alone: codes 0x22, 0x23, then 0x21. -/
def objBad22 (o : Option W64) : Bool := (o.map (fun v => (locOf v).bad)).getD false
def objBad23 (o : Option W64) : Bool := (o.map (fun v => (locOf v).sp == 2 || (locOf v).off % 16 != 0)).getD false
def State.objBad21 (s : State) (x : Ctx) (o : Option W64) : Bool := (o.map (fun v => (s.objPlace x v).isNone)).getD false

/-! ## Slots (R101) -/

/-- Turret gathers into scratchpads and prefetches that hold a slot of a core. -/
def State.slotPends (s : State) (core : Nat) : List Pend :=
  s.pend.filter (fun p => (match p.kind with
    | .gaths _ _ | .pref _ => true
    | _ => false) && ((s.block p.blk).map (·.coreId)) == some core)

/-- The slots of a core held; those held by cohorts that are no handlers. -/
def State.slotsHeld (s : State) (core : Nat) : Nat :=
  (s.copies.filter (fun c => c.core == core)).length + (s.slotPends core).length
def State.slotsOthers (s : State) (core : Nat) : Nat :=
  (s.copies.filter (fun c => c.core == core && !c.hnd)).length
  + ((s.slotPends core).filter (fun p => !((s.block p.blk).map (·.isHandler)).getD false)).length

/-- The free slots of a core that a cohort may take. -/
def State.slotsFree (s : State) (core : Nat) (hnd : Bool) : Nat :=
  if hnd then 96 - s.slotsHeld core else Nat.min (92 - s.slotsOthers core) (96 - s.slotsHeld core)

/-- The paths in slots of a cohort that wait for a bulk slot, each with the number it drew as its wait began: the waits, and so their
order, travel with the cohort (R101, R124). -/
def Cohort.slotWaits (c : Cohort) (blk coh : Nat) : List (Nat × PathRef) :=
  if c.frz.isSome then []
  else [false, true].filterMap (fun isB => match (c.path isB).bind (·.wait) with
    | some w => if w.kind = .slot then some (w.num, ⟨blk, coh, isB⟩) else none
    | none => none)

/-- The waiters of a core. -/
def State.slotLine (s : State) (core : Nat) : List (Nat × PathRef) :=
  s.blocks.flatMap (fun b => if b.2.coreId = core ∧ !b.2.saved then b.2.cohs.flatMap (fun c => c.2.slotWaits b.1 c.1) else [])

/-- The cores on which a path waits for a slot. -/
def State.slotCores (s : State) : List Nat :=
  s.blocks.foldl (fun l b => if (s.slotLine b.2.coreId).isEmpty then l else setIns l b.2.coreId) []

/-- A waiter may take a slot now. -/
def State.slotTakes (s : State) (core : Nat) (p : PathRef) : Bool :=
  decide (0 < s.slotsFree core (((s.block p.blk).map (·.isHandler)).getD false))

/-- The oldest waiter of a line. -/
def oldest : List (Nat × PathRef) → Option (Nat × PathRef)
  | [] => none
  | a :: r => match oldest r with
    | some b => if a.1 ≤ b.1 then some a else some b
    | none => some a

/-- The issuing path's number in the line: the one it has drawn, or a new one. -/
def Ctx.ticket (x : Ctx) (s : State) : Nat :=
  match x.path.wait with
  | some w => if w.kind = .slot then w.num else s.nid
  | none => s.nid

/-- A word that takes a slot (R101): it waits while it finds none, or while an older waiter may take one. -/
def slotGate (x : Ctx) (s : State) (go : State → WRes) : WRes :=
  let core := x.blk.coreId
  let t := x.ticket s
  if s.slotsFree core x.blk.isHandler = 0 ∨ (s.slotLine core).any (fun p => decide (p.1 < t) && s.slotTakes core p.2) then
    .wait { s with nid := Nat.max s.nid (t + 1) } (x.wait s .slot t)
  else go s

/-- BULK_SLOT_GRANT: the oldest waiter of a core that may take a slot issues again. -/
def execBulkSlotGrant (core : Nat) (s : State) : Out :=
  match oldest ((s.slotLine core).filter (fun p => s.slotTakes core p.2)) with
  | some p => if (s.waiting p.2).isSome then .next (s.release p.2) else idle s
  | none => idle s

/-! ## Batches (R110) -/

/-- An operation of a batch has completed or been abandoned. -/
def State.opDone (s : State) (id : Nat) : Bool := !s.copies.any (fun c => c.id == id) && !s.pend.any (fun p => p.id == id)

/-- The committed batches that have not retired. -/
def State.incomplete (s : State) (c : Cohort) : List (List Nat) := c.batches.dropWhile (fun b => b.all (fun i => s.opDone i))

/-- A copy joins the open group. -/
def State.joinGroup (s : State) (r : CohRef) (id : Nat) : State := s.updCoh r (fun c => { c with openg := c.openg ++ [id] })

/-! ## The copy words (R113 to R115) -/

/-- A copy as its word asks for it: its scratchpad locator with its space, the mask of BCPM, the main-memory address, the
direction, the pattern of a fill, `.empty`, the box, the object. -/
structure BulkReq where
  spl   : Option W64
  cores : Option W64
  va    : W64
  out   : Bool
  fill  : Option W32
  empty : Bool
  box   : Box
  obj   : Option W64
deriving DecidableEq, Repr

/-- The 1-D box of a size. -/
def box1 (n : W64) : Box := ⟨n.toNat, 1, 1, 0#64, 0#64, 0#64, 0#64⟩

/-- The box that a group of five registers holds (R99). -/
def Ctx.boxAt (x : Ctx) (k : Nat) : Box :=
  let a := (x.coh.sreg k).toNat
  ⟨bitsAt a 0 32, bitsAt a 32 16, bitsAt a 48 16, x.coh.sreg (k + 1), x.coh.sreg (k + 2), x.coh.sreg (k + 3), x.coh.sreg (k + 4)⟩

/-- The bytes of a box. -/
def Box.bytes (b : Box) : Nat := b.x * b.y * b.z

/-- The offset of row `y` of plane `z` at the source or at the destination. -/
def Box.row (b : Box) (dst : Bool) (y z : Nat) : W64 :=
  let r := if dst then b.dr else b.sr
  let p := if dst then b.dp else b.sp
  r * BitVec.ofNat 64 y + p * BitVec.ofNat 64 z

/-- Every row of the box, at the source or the destination, satisfies a check on its offset. -/
def Box.allRows (b : Box) (dst : Bool) (f : W64 → Bool) : Bool :=
  (List.range b.z).all (fun z => (List.range b.y).all (fun y => f (b.row dst y z)))

/-- The stride of tangents at a scratchpad end (R122). -/
def Ctx.spStride (x : Ctx) (sp : Nat) : Nat := if sp = 2 then x.grid.lrec.ddstr.toNat else x.grid.lrec.sdstr.toNat

/-- The cores a BCPM names (R114), by 256 × die + core. -/
def Ctx.maskCores (x : Ctx) (m : W64) : List Nat :=
  (List.range 64).filterMap (fun i => if m.getLsbD i then some (x.winCore 0 + i) else none)

/-- Where the objects of a request lie: of its locator, or in each named core; none for one outside what the grid may reach. -/
def State.objPlaces (s : State) (x : Ctx) (r : BulkReq) : List (Option (Store × Nat)) :=
  match r.obj with
  | none => []
  | some o =>
    match r.cores with
    | none => [s.objPlace x o]
    | some m =>
      let off := (locOf o).off % 2 ^ 18
      (x.maskCores m).map (fun c => if s.winReach x.blk.grid c off 16 then some (.core c, off) else none)

/-- The objects of a request that the grid may reach. -/
def State.reqObjs (s : State) (x : Ctx) (r : BulkReq) : List (Store × Nat) := (s.objPlaces x r).filterMap id

/-- The scratchpad ends of a request. -/
def Ctx.reqEnds (x : Ctx) (r : BulkReq) : List SpEnd :=
  match r.spl, r.cores with
  | none, _ => []
  | some v, none => [x.spEnd (locOf v)]
  | some v, some m => (x.maskCores m).map (fun c => ⟨none, .core c, 0, BitVec.ofNat 64 ((locOf v).off % 2 ^ 18)⟩)

/-- Every scratchpad byte of the boxes lies in what the grid may reach. -/
def State.reqReach (s : State) (x : Ctx) (r : BulkReq) (tans : List Nat) : Bool :=
  match r.spl with
  | none => true
  | some v =>
    let l := locOf v
    let str := x.spStride l.sp
    (0 :: tans).all (fun k => r.box.allRows (!r.out) (fun d =>
      match r.cores with
      | none => s.spReach x l.sp (BitVec.ofNat 64 (l.off + k * str) + d) r.box.x
      | some m => (x.maskCores m).all (fun c =>
          let a := (BitVec.ofNat 64 (l.off % 2 ^ 18 + k * str) + d).toNat
          decide (a + r.box.x ≤ 2 ^ 18) && s.winReach x.blk.grid c a r.box.x)))

/-- The locators of BCPM name the window with the core bits zero. -/
def bcpmBad (v : W64) : Bool := (locOf v).sp != 1 || bitsAt (locOf v).off 18 6 != 0

/-- The checks of R112 in their order. The traffic class that an object's locator names is not looked at: the copy travels in the class of
its scratchpad locator (R103; log entry 72). -/
def State.reqCode (s : State) (x : Ctx) (r : BulkReq) (tans : List Nat) : Option Nat :=
  let l := r.spl.map locOf
  let n := r.box.bytes
  let multi := r.cores.isSome
  let add := n * (tans.length + 1)
  if (l.map (·.bad)).getD false || objBad22 r.obj
      || (multi && ((r.spl.map bcpmBad).getD false || (r.obj.map bcpmBad).getD false)) then some 0x22
  else if objBad23 r.obj then some 0x23
  else if (l.map (fun k => tcBad k x.blk.isHandler)).getD false then some 0x24
  else if 0xFFFFFFFF < n ∨ (s.reqObjs x r).any (fun p => decide (0xFFFFFFFF < (s.objAt p.1 p.2).pend + add)) then some 0x25
  else if (n ≠ 0 ∧ !s.reqReach x r tans) ∨ (s.objPlaces x r).any Option.isNone then some 0x21
  else none

/-- The traffic class of a request (R103): TC of its locator with TCO, else 6 in a handler and the launch's in other cohorts; without a
locator the launch's. -/
def Ctx.reqTc (x : Ctx) (r : BulkReq) : Nat :=
  match r.spl with
  | none => x.grid.lrec.tc
  | some v => ((locOf v).tc).getD (if x.blk.isHandler then 6 else x.grid.lrec.tc)

/-- The new copy of a request. -/
def Ctx.newCopy (x : Ctx) (s : State) (r : BulkReq) (objs : List (Store × Nat)) (slot : Option (BitVec 3)) : CopyT where
  id := s.nid
  blk := x.ref.blk
  coh := x.ref.coh
  grid := x.blk.grid
  die := x.blk.die
  core := x.blk.coreId
  fill := r.fill
  empty := r.empty
  out := r.out
  sps := x.reqEnds r
  va := r.va
  spstr := x.spStride ((r.spl.map (fun v => (locOf v).sp)).getD 0)
  memst := x.grid.lrec.dstride
  tans := x.tans
  box := r.box
  total := r.box.bytes * (x.tans.length + 1)
  done := 0
  objs := objs
  slot := slot
  scope := (r.spl.map (fun v => (locOf v).scope)).getD 6
  tc := x.reqTc r
  susp := none
  hnd := x.blk.isHandler
  hdr := x.path.pc
  widx := (x.path.cl.map (·.wi)).getD 0
  pasid := x.grid.pasid
  bid := x.blk.bid
  part := x.coh.part
  isB := x.isB
  torn := []
  dirty := false

/-- Where the byte at an offset of the copy order stands: its tangent, its place in its row, the offsets of source and
destination. -/
structure CPos where
  k  : Nat
  x  : Nat
  sd : W64
  dd : W64
deriving DecidableEq, Repr

def CopyT.pos (c : CopyT) (i : Nat) : CPos :=
  let j := i % c.box.bytes
  let x := j % c.box.x
  let y := j / c.box.x % c.box.y
  let z := j / (c.box.x * c.box.y)
  { k := (0 :: c.tans).getD (i / c.box.bytes) 0
    x := x
    sd := BitVec.ofNat 64 x + c.box.row false y z
    dd := BitVec.ofNat 64 x + c.box.row true y z }

/-- The main-memory address of a position. -/
def CopyT.memAddr (c : CopyT) (p : CPos) : W64 := c.va + (if c.out then p.dd else p.sd) + c.memst * BitVec.ofNat 64 p.k
/-- A copy of a unit whose next main-memory page is not cached there (R94). -/
def State.missing (s : State) (unit : Nat) (c : CopyT) : Bool :=
  xunit c.core == unit && c.susp.isNone && (c.out || c.fill.isNone)
  && (s.leafHit unit c.pasid (c.memAddr (c.pos c.done)) (if c.out then .copyOut else .copyIn)).isNone

/-- The page that a walk for an address finds: its 512 MiB region where the walk ends at level 1, else its 64 KiB page (R94). -/
def State.walkPage (s : State) (unit : Nat) (pasid : BitVec 20) (va : W64) : BitVec 20 × Nat × Nat :=
  match walkLevels s unit pasid va (s.pasidEntry pasid).2.2.toNat 2 [] with
  | .ok (_, _, 1, _) => (pasid, 1, va.toNat / 2 ^ 29)
  | _ => (pasid, 0, va.toNat / 2 ^ 16)

/-- The page that a copy misses. -/
def State.missPage (s : State) (c : CopyT) : BitVec 20 × Nat × Nat := s.walkPage (xunit c.core) c.pasid (c.memAddr (c.pos c.done))

/-- The pages that the copies before number `t` miss in a unit, the oldest request first. -/
def State.missPages (s : State) (unit t : Nat) : List (BitVec 20 × Nat × Nat) :=
  (s.copies.filter (fun c => decide (c.id < t) && s.missing unit c)).map s.missPage

/-- The pages that the 64 walkers of a unit walk for them: a request of a page that is being walked joins that walk (R94). -/
def State.walking (s : State) (unit t : Nat) : List (BitVec 20 × Nat × Nat) :=
  (s.missPages unit t).foldl (fun w p => if w.contains p || decide (64 ≤ w.length) then w else w ++ [p]) []

/-- The walkers and the entries of the miss queue that one unit has (R93): 64 and 4,096. -/
def missMax : Nat := 4160

/-- The walkers and the entries of the miss queue that the copies before number `t` take. -/
def State.misses (s : State) (unit t : Nat) : Nat :=
  (s.walking unit t).length + ((s.missPages unit t).filter (fun p => !(s.walking unit t).contains p)).length

/-- The unit holds back the copies from a number on (R94). -/
def State.heldBack (s : State) (c : CopyT) : Bool :=
  match s.missq.find (xunit c.core) with
  | some t => decide (t ≤ c.id)
  | none => false

/-- A copy that misses a page, joins no walk and finds the miss queue of its unit full is held back, with those after it. -/
def State.noteMiss (s : State) (c : CopyT) : State :=
  let u := xunit c.core
  if s.missing u c && !s.heldBack c && decide (missMax ≤ s.misses u c.id) && !(s.walking u c.id).contains (s.missPage c) then
    { s with missq := s.missq.set u c.id }
  else s

/-- A copy or fill: the slot, the checks, then the copy in flight with its objects counted; an empty one is complete. -/
def bulkWord (c : Ctl) (s : State) (mk : Ctx → BulkReq) : Out :=
  word c s (fun x => slotGate x s (fun s1 =>
    let r := mk x
    match s1.reqCode x r x.tans with
    | some code => .trap (Fz.of kProtection code x.exec)
    | none =>
      if r.box.bytes = 0 ∨ r.cores = some 0#64 then .done s1 .none
      else
        let objs := s1.reqObjs x r
        let q := x.newCopy s1 r objs c.set
        let s2 : State := { s1 with copies := s1.copies ++ [q], nid := s1.nid + 1 }
        .async (((objs.foldl (fun s p => s.objUpd p (Obj.add q.total)) s2).joinGroup x.ref q.id).noteMiss q)))

/-- The box operand: a size, or the first register of a group. -/
def Ctx.boxOp (x : Ctx) (clk : Nat) (lit : Option W64) (box : Bool) (n : Src) : Box :=
  match box, n with
  | true, .s k => x.boxAt k.toNat
  | _, _ => box1 (x.sca clk lit n)

/-- BCP. -/
def execBcp (c : Ctl) (out box : Bool) (d : SNum) (a n o : Src) (s : State) : Out :=
  bulkWord c s (fun x =>
    let dv := x.coh.sreg d.toNat
    let av := x.sca s.clk c.lit a
    { spl := some (if out then av else dv)
      cores := none
      va := if out then dv else av
      out := out
      fill := none
      empty := false
      box := x.boxOp s.clk c.lit box n
      obj := x.obj s.clk c.lit o })

/-- BCPM. -/
def execBcpm (c : Ctl) (box : Bool) (d : SNum) (a : Src) (n : SNum) (o : Src) (s : State) : Out :=
  bulkWord c s (fun x =>
    { spl := some (x.coh.sreg d.toNat)
      cores := some (x.coh.sreg (n.toNat + if box then 5 else 1))
      va := x.sca s.clk c.lit a
      out := false
      fill := none
      empty := false
      box := if box then x.boxAt n.toNat else box1 (x.coh.sreg n.toNat)
      obj := x.obj s.clk c.lit o })

/-- BFILL. -/
def execBfill (c : Ctl) (out : Bool) (d : SNum) (a n o : Src) (s : State) : Out :=
  bulkWord c s (fun x =>
    let dv := x.coh.sreg d.toNat
    { spl := if out then none else some dv
      cores := none
      va := dv
      out := out
      fill := some ((x.sca s.clk c.lit a).setWidth 32)
      empty := false
      box := box1 (x.sca s.clk c.lit n)
      obj := x.obj s.clk c.lit o })

/-- BFILL.empty. -/
def execBfillEmpty (c : Ctl) (d : SNum) (n o : Src) (s : State) : Out :=
  bulkWord c s (fun x =>
    { spl := some (x.coh.sreg d.toNat)
      cores := none
      va := 0#64
      out := false
      fill := some 0#32
      empty := true
      box := box1 (x.sca s.clk c.lit n)
      obj := x.obj s.clk c.lit o })

/-! ## Landing (R99, R100, R108, R113; log entry 17) -/

/-- The address of a position at a scratchpad end. -/
def CopyT.spAddr (c : CopyT) (e : SpEnd) (p : CPos) : W64 :=
  e.off + (if c.out then p.sd else p.dd) + BitVec.ofNat 64 (p.k * c.spstr)

/-- The most bytes that land together from an offset on: within one row, one destination granule, one page and one core's scratchpad. -/
def CopyT.roomLen (c : CopyT) (p : CPos) : Nat :=
  let row := c.box.x - p.x
  let va := (c.memAddr p).toNat
  let mem := if c.out then 64 - va % 64 else if c.fill.isNone then 65536 - va % 65536 else row
  let sp := match c.sps with
    | e :: _ => if c.out then 2 ^ 18 - (c.spAddr e p).toNat % 2 ^ 18 else 16 - (c.spAddr e p).toNat % 16
    | [] => row
  Nat.min row (Nat.min mem sp)

/-- The bytes that land together of `m` that an event lands: in a scratchpad to the end of a 4-byte element, in main memory byte for byte
(R287, R337). -/
def CopyT.pieceLen (c : CopyT) (p : CPos) (m : Nat) : Nat :=
  let up := match c.sps with
    | e :: _ => if c.out then m else m + (4 - ((c.spAddr e p).toNat + m) % 4) % 4
    | [] => m
  Nat.min (c.roomLen p) (Nat.max 1 up)

/-- A byte of the copy from offset `i` on falls in a granule of a scratchpad end. -/
def CopyT.laterIn (c : CopyT) (e : SpEnd) (i g : Nat) : Bool :=
  let r0 := i / c.box.x
  (List.range (c.total / c.box.x - r0)).any (fun r =>
    let j := Nat.max i ((r0 + r) * c.box.x)
    let p := c.pos j
    let a := (c.spAddr e p).toNat
    decide (j < c.total) && decide (a / 16 ≤ g) && decide (g ≤ (a + (c.box.x - p.x) - 1) / 16))

/-- The grid records (R346). -/
def State.recording (s : State) (g : Nat) : Bool := ((s.grid g).map (·.recd)).getD false

/-- Bytes of an engine log put at the end of the ring of a die (R347): their layout is not the spec's (log entry 3). -/
def State.ringPut (s : State) (base size at' n : Nat) : State :=
  if size = 0 then s else (List.range n).foldl (fun s i => s.putFree .phys (s.physLoc (base + (at' + i) % size)) 1) s

/-- The bytes that an operation takes in the ring: a command of 64 bytes, the operand tiles of 64 bytes, the output. -/
def EngLog.len (e : EngLog) : Nat := 64 + (e.tiles.length + 63) / 64 * 64 + e.out.length

/-- The engine's own log of an operation while the grid records (R350): with the end of the operation the ring takes it. -/
def State.engLog (s : State) (die grid id : Nat) (src out : List Byte) (whole : Bool) : State :=
  if !s.recording grid then s
  else
    let d := s.die die
    let e := (d.englog.find? (fun e => e.id == id)).getD ⟨id, [], [], false, 0⟩
    let e1 : EngLog := { e with tiles := e.tiles ++ src, out := e.out ++ out, whole := e.whole || whole }
    let e2 : EngLog := if whole then { e1 with at' := d.engptr } else e1
    let l := if d.englog.any (fun e => e.id == id) then d.englog.map (fun e => if e.id = id then e2 else e) else d.englog ++ [e2]
    let s1 := s.setDie die { d with englog := l, engptr := if whole then d.engptr + e2.len else d.engptr }
    if whole then s1.ringPut d.engbase.toNat d.engsize.toNat d.engptr e2.len else s1

/-- The bytes of a store that a copy writes still lie where its grid may reach: a block whose program scratch it wrote may have ended
(R141; log entry 70). -/
def State.copyReach (s : State) (c : CopyT) (st : Store) (a n : Nat) : Bool :=
  match st with
  | .core k => s.blocks.any (fun b => b.1 == c.blk && b.2.coreId == k && decide (b.2.base ≤ a) && decide (a + n ≤ b.2.base + b.2.size))
      || s.winReach c.grid k a n
  | _ => true

/-- The objects of a copy that are still there. -/
def State.copyObjs (s : State) (c : CopyT) : List (Store × Nat) := c.objs.filter (fun p => s.copyReach c p.1 p.2 16)

/-- A copy leaves the engine (R101, R110, R113): its slot is free, its counter decrements. -/
def State.finishCopy (s : State) (c : CopyT) : State :=
  let s1 : State := { s with copies := s.copies.filter (fun q => q.id != c.id) }
  (match c.slot with
    | some n => s1.updCoh ⟨c.blk, c.coh⟩ (fun k => k.decCtr n)
    | none => s1).reap c.blk

/-- A copy abandoned (R123). -/
def State.abandonCopy (s : State) (c : CopyT) : State :=
  ((s.copyObjs c).foldl (fun s p => s.objUpd p (Obj.abandon (c.total - c.done))) s).finishCopy c

/-- A fault at the main-memory end suspends the copy and starts a handler (R123, R314). -/
def State.suspendCopy (s : State) (c : CopyT) (f : XFault) (va : W64) : State :=
  let fr : Freeze := ⟨f.kind, f.code, f.level, 0, c.isB, c.hdr, va, false, false, []⟩
  let s1 := s.updCopy c.id (fun q => { q with susp := some fr })
  if c.hnd then
    (if ((s.block c.blk).map (·.isNest)).getD false then
      (s1.logMc c.die 0x0D 1 false 8 (some c.hdr) (some (mcMisc c.pasid (c.core % 256) c.part true 0))).killGrid c.grid stKilled
    else s1.spawnNest c.grid c.die c.bid (.copy c.id))
  else s1.spawnHandler c.grid c.die (c.core % 256) c.bid (.copy c.id)

/-- The byte of a fill: its pattern in the primal range, zero in tangent ranges (R115, R122). -/
def fillByte (w : W32) (k i : Nat) : Byte := if k = 0 then w.extractLsb' (8 * (i % 4)) 8 else 0#8

/-- Poison behind landed bytes (R96, R97): poisoned bytes mark their granule; the last byte of a granule that the row covers whole, all of
it unpoisoned, clears the mark. -/
def State.landPsn (s : State) (c : CopyT) (p : CPos) (st : Store) (a n : Nat) (psn : Bool) : State :=
  let b := a % st.pg
  if psn then s.writePsn st a n true
  else if (a + n) % st.pg = 0 ∧ b ≤ p.x ∧ !c.dirty then s.writePsn st (a - b) (b + n) false
  else s

/-- Bytes landed at a scratchpad end: data, poison, the log, the full-empty bit. A granule that held a barrier object holds plain data
from then on (log entry 18). Bytes for a block that has ended are dropped (log entry 70). -/
def State.landAt (s : State) (c : CopyT) (e : SpEnd) (p : CPos) (bs : List Byte) (psn : Bool) : State :=
  let a := c.spAddr e p
  let q := e.place a
  if !s.copyReach c q.1 q.2 bs.length then s
  else if c.empty then s.putFe q.1 q.2 false
  else
    let s1 := ((s.writeBytes q.1 q.2 bs).landPsn c p q.1 q.2 bs.length psn).logLanded q.1 q.2 bs none
    let s2 := if (s1.objs q.1).isEmpty then s1 else s1.setObjs q.1 (setDel (s1.objs q.1) (q.2 / 16))
    if c.laterIn e (c.done + bs.length) (a.toNat / 16) then s2 else s2.putFe q.1 q.2 true

/-- The bytes a piece carries, with their poison: of the pattern, of a scratchpad, of main memory. -/
def State.pieceData (s : State) (c : CopyT) (p : CPos) (n pa : Nat) : State × List Byte × Bool :=
  match c.fill, c.sps with
  | some w, _ => (s, (List.range n).map (fun j => fillByte w p.k (p.x + j)), false)
  | none, e :: _ =>
    let q : Store × Nat := if c.out then e.place (c.spAddr e p) else (.phys, pa)
    let s1 := s.readCheck q.1 q.2 n
    (s1, (s1.mem q.1).readN q.2 n, s1.poisoned q.1 q.2 n)
  | none, [] => (s, [], false)

/-- A copy behind a landed piece: the bytes done, the elements landed in part, the poison of the present granule. -/
def CopyT.landed (c : CopyT) (p : CPos) (n pa : Nat) (psn : Bool) : CopyT :=
  let ends : List (Store × Nat) := if c.out then [(.phys, pa + n)] else
    c.sps.map (fun e => ((e.place (c.spAddr e p)).1, (e.place (c.spAddr e p)).2 + n))
  let row : Bool := decide (c.box.x ≤ p.x + n)
  { c with
    done := c.done + n
    torn := if row then [] else (ends.filter (fun q => q.2 % 4 != 0)).map (fun q => (q.1, q.2 / 4))
    dirty := (c.dirty || psn) && !row && !(ends.any (fun q => q.2 % q.1.pg == 0)) }

/-- The next piece of a copy lands, of up to `m` bytes. -/
def State.landPiece (s : State) (c : CopyT) (m : Nat) : State :=
  let p := c.pos c.done
  let n := c.pieceLen p m
  let va := c.memAddr p
  let tr : State × Except XFault Nat :=
    if c.out || c.fill.isNone then s.translate (xunit c.core) c.pasid va (if c.out then .copyOut else .copyIn) else (s, .ok 0)
  match tr with
  | (s1, .error f) => s1.suspendCopy c f va
  | (s1, .ok pa) =>
    let d := s1.pieceData c p n pa
    let s2 := if c.out then (d.1.writeBytes .phys pa d.2.1).landPsn c p .phys pa n d.2.2
      else c.sps.foldl (fun s e => s.landAt c e p d.2.1 d.2.2) d.1
    let s3 := (s2.copyObjs c).foldl (fun s o => s.objUpd o (Obj.sub n)) s2
    let c' := c.landed p n pa d.2.2
    let s4 := (s3.updCopy c.id (fun _ => c')).engLog c.die c.grid c.id (if c.fill.isNone then d.2.1 else []) d.2.1 (decide (c.total ≤ c'.done))
    if c.total ≤ c'.done then s4.finishCopy c' else s4.noteMiss c'

/-- A copy may go on: not suspended or held back, and the accesses that precede it in its cohort are performed, acquires among them (R104,
R310). -/
def State.copyGoes (s : State) (c : CopyT) : Bool :=
  c.susp.isNone && !s.heldBack c
  && !s.pend.any (fun p => p.blk == c.blk && p.coh == c.coh && decide (p.id < c.id) && (p.touchesMem || p.acq))

/-- Up to `m` bytes, in at most `n` pieces. -/
def State.landPieces (id : Nat) : Nat → Nat → State → State
  | 0, _, s => s
  | n + 1, m, s =>
    match s.copyT id with
    | some c =>
      if m = 0 ∨ !s.copyGoes c then s
      else State.landPieces id n (m - c.pieceLen (c.pos c.done) m) (s.landPiece c m)
    | none => s

/-- COPY_BYTE_LANDS: the next `n` bytes of a copy or fill. -/
def execCopyByteLands (id n : Nat) (s : State) : Out :=
  match s.copyT id with
  | some c => if s.copyGoes c then .next (s.landPieces id n n) else idle s
  | none => idle s

/-! ## BPREF (R116) -/

/-- BPREF: its page and the number of pages still to walk stand in the operation. -/
def execBpref (c : Ctl) (a n : Src) (s : State) : Out :=
  word c s (fun x => slotGate x s (fun s1 =>
    let va := (x.sca s.clk c.lit a).toNat
    let cnt := (x.sca s.clk c.lit n).toNat
    if cnt = 0 then .done s1 .none
    else
      let first := va / 65536
      let pages := (va + cnt - 1) / 65536 - first + 1
      .async (s1.addPend (x.pend s1 (.pref [BitVec.ofNat 64 (first * 65536), BitVec.ofNat 64 pages]) none .raw c.set []))))

/-- BPREF_WALK_END: the next page of a prefetch is walked; a page that would fault is skipped and nothing is cached for it. -/
def execBprefWalkEnd (id : Nat) (s : State) : Out :=
  match s.pendOf id with
  | none => idle s
  | some p =>
    match p.kind, s.block p.blk with
    | .pref [va, n], some b =>
      let pasid := ((s.grid b.grid).map (·.pasid)).getD 0#20
      if s.xlatHeld (xunit b.coreId) pasid va .pref then idle s
      else
      let s1 := match s.translate (xunit b.coreId) pasid va .pref with
        | (t, .ok _) => t
        | (t, .error _) => { t with tlb := s.tlb }
      if n.toNat ≤ 1 then .next (s1.finishPend p none)
      else .next (s1.setPend { p with kind := .pref [va + 65536#64, n - 1#64] })
    | _, _ => idle s

/-! ## Object words (R117 to R119) -/

/-- A word on an object alone: the checks, then its body with the object's place. -/
def objWord (c : Ctl) (s : State) (o : Src) (cnt : Ctx → Bool) (go : Ctx → W64 → Store × Nat → WRes) : Out :=
  word c s (fun x =>
    let v := x.sca s.clk c.lit o
    if (locOf v).bad then .trap (Fz.of kProtection 0x22 x.exec)
    else if objBad23 (some v) then .trap (Fz.of kProtection 0x23 x.exec)
    else if !cnt x then .trap (Fz.of kProtection 0x26 x.exec)
    else
      match s.objPlace x v with
      | none => .trap (Fz.of kProtection 0x21 x.exec)
      | some p => go x v p)

/-- BOBJ. -/
def execBobj (c : Ctl) (o n : Src) (s : State) : Out :=
  objWord c s o (fun x => decide (1 ≤ (x.sca s.clk c.lit n).toNat) && decide ((x.sca s.clk c.lit n).toNat ≤ 65535)) (fun x v p =>
    if (s.objAt p.1 p.2).pend ≠ 0 then .wait s (x.wait s .bobj 0)
    else .done (s.objUpd p (fun _ => ⟨0, (x.sca s.clk c.lit n).toNat, 0, false, false, (locOf v).scope⟩)) .none)

/-- BARV may arrive: the object expects arrivals and has not all of them. -/
def Obj.open' (o : Obj) : Bool := o.exp != 0 && o.arr != o.exp

/-- BARV: a release, then one arrival. -/
def execBarv (c : Ctl) (o : Src) (s : State) : Out :=
  objWord c s o (fun _ => true) (fun x _ p =>
    if !s.accessesDone x.ref false then .wait s (x.wait s .order 0)
    else if !(s.objAt p.1 p.2).open' then .wait s (x.wait s .barv 0)
    else .done ((s.objUpd p (fun q => { q with arr := q.arr + 1 })).unpoll x.ref) .none)

/-- BWAIT. -/
def execBwait (c : Ctl) (o p : Src) (s : State) : Out :=
  objWord c s o (fun _ => true) (fun x _ q =>
    let ph := (x.sca s.clk c.lit p).getLsbD 0
    if x.passed .bwait ∨ (s.objAt q.1 q.2).phase ≠ ph then .done s .none else .wait s (x.wait s .bwait 0))

/-- The context of a path by its name. -/
def State.pathCtx (s : State) (p : PathRef) : Option Ctx :=
  match s.block p.blk with
  | none => none
  | some b =>
    match s.grid b.grid, b.coh p.coh with
    | some g, some c => match c.path p.isB with
      | some q => some ⟨pathCoh p, g, b, c, q, p.isB, none⟩
      | none => none
    | _, _ => none

/-- What an object wait waits for holds. -/
def State.objReady (s : State) (x : Ctx) : Bool :=
  match x.path.word x.blk.lim with
  | some (.bobj c o _) => match s.objPlace x (x.sca s.clk c.lit o) with
    | some q => (s.objAt q.1 q.2).pend == 0
    | none => true
  | some (.barv c o) => match s.objPlace x (x.sca s.clk c.lit o) with
    | some q => (s.objAt q.1 q.2).open'
    | none => true
  | some (.bwait c o p) => match s.objPlace x (x.sca s.clk c.lit o) with
    | some q => (s.objAt q.1 q.2).phase != (x.sca s.clk c.lit p).getLsbD 0
    | none => true
  | _ => false

/-- BWAIT_RETURN: the wait of a BWAIT, BARV or BOBJ ends. -/
def execBwaitReturn (p : PathRef) (s : State) : Out :=
  match s.waiting p, s.pathCtx p with
  | some w, some x =>
    match w.kind with
    | .bobj | .barv | .bwait => if s.objReady x then .next (s.release p) else idle s
    | _ => idle s
  | _, _ => idle s

/-! ## Batch words (R120, R121) -/

/-- BCOMMIT. -/
def execBcommit (c : Ctl) (s : State) : Out :=
  word c s (fun x =>
    let inc := s.incomplete x.coh
    if 32 ≤ inc.length then .wait s (x.wait s .bcommit 0)
    else .done (s.updCoh x.ref (fun k => { k with batches := inc ++ [k.openg], openg := [] })) .none)

/-- BCOMMIT_ROOM: the oldest batch has retired. -/
def execBcommitRoom (p : PathRef) (s : State) : Out :=
  match s.waiting p, s.coh (pathCoh p) with
  | some w, some c => if w.kind = .bcommit ∧ (s.incomplete c).length < 32 then .next (s.release p) else idle s
  | _, _ => idle s

/-- BWAITN. -/
def execBwaitn (c : Ctl) (n : Src) (s : State) : Out :=
  word c s (fun x =>
    let v := (x.sca s.clk c.lit n).toNat
    if x.passed .bwaitn ∨ (s.incomplete x.coh).length ≤ v then .done s .none else .wait s (x.wait s .bwaitn v))

/-- BWAITN_RETURN: the incomplete count is small enough. -/
def execBwaitnReturn (p : PathRef) (s : State) : Out :=
  match s.waiting p, s.coh (pathCoh p) with
  | some w, some c => if w.kind = .bwaitn ∧ (s.incomplete c).length ≤ w.num then .next (s.release p) else idle s
  | _, _ => idle s

/-- What BQUERY reads (R121). -/
def State.bquery (s : State) (x : Ctx) (sel : Nat) (v : W64) : W64 :=
  match sel with
  | 0 => match s.objPlace x v with
    | some q =>
      let o := s.objAt q.1 q.2
      BitVec.ofNat 64 (o.pend + o.arr * 2 ^ 32 + (if o.phase then 2 ^ 48 else 0) + (if o.abort then 2 ^ 49 else 0))
    | none => 0#64
  | 1 => BitVec.ofNat 64 ((s.incomplete x.coh).length + Nat.min x.coh.openg.length 0xFFFF * 2 ^ 16)
  | _ =>
    let mine := (s.copies.filter (fun c => c.blk == x.ref.blk && c.coh == x.ref.coh)).length
      + ((s.slotPends x.blk.coreId).filter (fun p => p.blk == x.ref.blk && p.coh == x.ref.coh)).length
    BitVec.ofNat 64 (s.slotsFree x.blk.coreId x.blk.isHandler + mine * 2 ^ 8)

/-- BQUERY: it samples when its destination is written (HANDLER_OR_SYSTEM_READ_LANDS). -/
def execBquery (c : Ctl) (d : Dst) (sel : BqSel) (s : State) : Out :=
  match sel with
  | .obj o => objWord c s o (fun _ => true) (fun x v _ =>
      .async (s.addPend (x.pend s (.bquery 0 v) (some d) .raw c.set [])))
  | .batches => word c s (fun x => .async (s.addPend (x.pend s (.bquery 1 0#64) (some d) .raw c.set [])))
  | .slots => word c s (fun x => .async (s.addPend (x.pend s (.bquery 2 0#64) (some d) .raw c.set [])))

end Sys2Proof.Machine
end

