-- ==== Sys2Proof/Machine/Turret.lean ====
section
/-! DEFINITION. CLASS 0x9, the Turret words (R125 to R140): the two stages of issue, gathers, scatters, sparse lines, HACC, and
TURRET_LANE_REPLY. -/

namespace Sys2Proof.Machine

/-! ## Stage 1 (R127, R128) -/

/-- A lane of a Turret word that passes the tag check: its address, its element size, whether an operand is poisoned, its value
with tag and tangents, the compare value of CAS or the key of HACC. -/
structure TLane where
  a   : W64
  z   : Nat
  psn : Bool
  val : W64
  tag : Tag
  tan : AMap W64
  cmp : W64
deriving DecidableEq, Repr

/-- An index tag that R127 permits. -/
def idxOk (e : El) : Bool := e.accepted (ityAccepts .n32)

/-- A(L): the address of a lane with its operands' poison; none is a format fault. -/
def turretAddr (x : Ctx) (s : State) (lit : Option W64) (mode : IdxMode) (z : Nat) (a b : Src) (l : Nat) : Option (W64 × Bool) :=
  let base := x.sca s.clk lit a
  match mode with
  | .a64 =>
    let e := x.el s.clk lit true l b
    let hiOk := match b with
      | .v n => idxOk (x.el s.clk lit false l (.v (n + 1#8)))
      | _ => true
    if idxOk e && hiOk then some (base + e.val, e.psn) else none
  | m =>
    let e := x.el s.clk lit false l b
    let v : W64 := if m = .sx then (e.val.setWidth 32).signExtend 64 else (e.val.setWidth 32).setWidth 64
    if idxOk e then some (base + v * BitVec.ofNat 64 z, e.psn) else none

/-- A lane that only reads. -/
def readTLane (x : Ctx) (s : State) (lit : Option W64) (mode : IdxMode) (z : Nat) (a b : Src) (l : Nat) : Option TLane :=
  (turretAddr x s lit mode z a b l).map (fun r => ⟨r.1, z, r.2, 0#64, .raw, [], 0#64⟩)

/-- A lane that writes a value with the tangents that its tag moves: only those are read (R139, R222). -/
def writeTLane (x : Ctx) (s : State) (lit : Option W64) (mode : IdxMode) (ks : Tag → List Nat) (a b v : Src) (l : Nat) : Option TLane :=
  match storeVal x s lit l v with
  | none => none
  | some (z, e) =>
    (turretAddr x s lit mode z a b l).map (fun r => ⟨r.1, z, r.2 || e.poisoned (ks (e.moved v)), e.val, e.moved v, e.tan, 0#64⟩)

/-- The lanes that pass the tag check. -/
def okLanes (rs : AMap (Option TLane)) : AMap TLane := rs.filterMap (fun p => p.2.map (fun r => (p.1, r)))

/-- Stage 1: the first kind of check that a lane fails; `cap` and `sp` are the lanes' checks of rows 3 and 5. -/
def stage1 (rs : AMap (Option TLane)) (cap : W32) (sp : Option Fz) : Option Fz :=
  let bad := lanesWhere rs (fun _ r => r.isNone)
  let ok := okLanes rs
  let psn := lanesWhere ok (fun _ r => r.psn)
  let al := lanesWhere ok (fun _ r => r.a.toNat % r.z != 0)
  if bad ≠ 0#32 then some (Fz.of kFormat 0 bad)
  else if psn ≠ 0#32 then some (Fz.of kPoison 0 psn)
  else if cap ≠ 0#32 then some (Fz.of kMatCap 0 cap)
  else if al ≠ 0#32 then some (addrFz (cAlign, al) (ok.map (fun p => (p.1, p.2.a.toNat))))
  else sp

/-! ## Stage 2 (R128) -/

/-- The lanes sent with their accesses, and those that fail with their fault and address. -/
structure Sent where
  s     : State
  lanes : AMap (List Acc)
  fails : AMap (XFault × W64)
deriving DecidableEq, Repr

/-- One lane translated: the primal and its tangents; with `pc` a poisoned granule fails the lane (R257), with `lost` the far access
whose request was lost on a link (R285). -/
def sendLane (x : Ctx) (pc lost : Bool) (ac : Access) (ks : List Nat) (t : TLane) (s : State) : State × Except (XFault × W64) (List Acc) :=
  (0 :: ks).foldl (fun (p : State × Except (XFault × W64) (List Acc)) k =>
    match p.2 with
    | .error _ => p
    | .ok as =>
      let va := t.a + x.grid.lrec.dstride * BitVec.ofNat 64 k
      match p.1.translate (xunit x.blk.coreId) x.grid.pasid va ac with
      | (s1, .error f) => (s1, .error (f, va))
      | (s1, .ok pa) =>
        if lost && decide (0x8000000000000 ≤ pa) then
          (s1, .error (⟨kTranslation, 0x04, ((s1.leafHit (xunit x.blk.coreId) x.grid.pasid va ac).map (·.2)).getD 0⟩, va))
        else
        let s2 := if pc then s1.readCheck .phys pa t.z else s1
        if pc && s2.poisoned .phys pa t.z then (s2, .error (⟨kPoison, 0, 0⟩, va))
        else (s2, .ok (as ++ [⟨k, .phys, pa, t.z, if k = 0 then t.val else t.tan.get k 0#64, t.cmp, false⟩])))
    (s, .ok [])

/-- Every lane translated, in ascending LANE. -/
def sendLanes (x : Ctx) (pc : Bool) (lost : W32) (ac : Access) (ks : TLane → List Nat) (ok : AMap TLane) (s : State) : Sent :=
  ok.foldl (fun r p => match sendLane x pc (lost.getLsbD p.1) ac (ks p.2) p.2 r.s with
    | (s1, .ok as) => { r with s := s1, lanes := r.lanes ++ [(p.1, as)] }
    | (s1, .error f) => { r with s := s1, fails := r.fails ++ [(p.1, f)] }) ⟨s, [], []⟩

/-- The operation of a path whose word has sent lanes and issues again for the others (R60, R128). -/
def State.pathOp (s : State) (p : Option Path) : Option Pend :=
  match p.bind (·.wait) with
  | some w => if w.kind = .reply then s.pendOf w.num else none
  | none => none
def State.wordOp (s : State) (x : Ctx) : Option Pend := s.pathOp (some x.path)

/-- The lanes of EXEC that no earlier issue of the word has sent. -/
def Ctx.unsent (x : Ctx) (s : State) : List Nat :=
  match s.wordOp x with
  | some p => x.lanes.filter (fun l => !p.done.getLsbD l && (p.lanes.find l).isNone)
  | none => x.lanes

/-- The lanes sent join the word's operation; a new one counts (R55, R60). -/
def State.joinPend (s : State) (x : Ctx) (p : Pend) (lanes : AMap (List Acc)) (more : Bool) : State :=
  match s.wordOp x with
  | some q =>
    let q' := { q with lanes := lanes.foldl (fun m l => AMap.set m l.1 l.2) q.lanes, more := more, lost := 0#32 }
    if q'.lanes.isEmpty && !more then (s.writeResult q').finishPend q' none else s.setPend q'
  | none =>
    let s0 := s.addPend { p with lanes := lanes, more := more, sect := sectors lanes, smp := if more then none else p.smp }
    let s1 := if p.kind.demotes then s0.noteOps x.ref x.isB s.nid else s0
    match p.slot with
    | some n => s1.updCoh x.ref (fun k => k.incCtr n)
    | none => s1

/-- The freeze of a word some of whose lanes fail in stage 2 (R128), with the fault of each (R90). -/
def Ctx.stage2Fz (x : Ctx) (fails : AMap (XFault × W64)) : Fz :=
  let fl := maskOf (AMap.keys fails)
  let pm := x.exec &&& ~~~fl
  let f := (fails.map (·.2)).headD (⟨kTranslation, 0, 0⟩, 0#64)
  ⟨f.1.kind, f.1.code, f.1.level, f.2, fl, pm, BitVec.ofNat 32 (popcount pm), fails.map (fun l => (l.1, l.2.1.code, l.2.1.level, l.2.2))⟩

/-- The lanes' accesses with the tangents of the destination that become 0 (R227). -/
def withZeros (ks : List Nat) (lanes : AMap (List Acc)) : AMap (List Acc) :=
  lanes.map (fun l => (l.1, l.2 ++ ks.map (fun k => Acc.reg k 0#64 false)))

/-- A Turret word on main memory: both stages, then the operation in flight. While a lane's reply from host memory or another package is
awaited, the word stands in a blocked wait, and issues again for what it has not sent (R128). -/
def turretBody (x : Ctx) (pc : Bool) (zs : List Nat) (s : State) (rs : AMap (Option TLane)) (cap : W32) (sp : Option Fz) (ac : Access)
    (ks : TLane → List Nat) (pre : State → State) (p : State → Pend) : WRes :=
  match stage1 rs cap sp with
  | some z => .trap z
  | none =>
    let old := s.wordOp x
    let r := sendLanes x pc ((old.map (·.lost)).getD 0#32) ac ks (okLanes rs) (if old.isSome then s else pre s)
    let far := r.lanes.any (fun l => accsFar l.2)
    let w : PWait := ⟨.reply, !far, s.clk, (old.map (·.id)).getD r.s.nid, []⟩
    let s1 := r.s.joinPend x (p r.s) (withZeros zs r.lanes) (far || !r.fails.isEmpty)
    if far then .wait s1 w
    else if r.fails.isEmpty then .done s1 .none
    else .part (s1.updCoh x.ref (fun c => c.setPath x.isB ((c.path x.isB).map (fun q => { q with wait := some w })))) (x.stage2Fz r.fails) false

/-! ## The words -/

/-- GATH (R130). -/
def execGath (c : Ctl) (mode : IdxMode) (fmt : Tag) (d : Dst) (a b : Src) (s : State) : Out :=
  word c s (fun x =>
    match parityCheck x s [b] (x.unsent s) with
    | .error e => e
    | .ok s0 =>
      let rs := (x.unsent s0).map (fun l => (l, readTLane x s0 c.lit mode (if fmt = .f64 then 8 else 4) a b l))
      turretBody x false [] s0 rs 0#32 none .read (fun _ => x.tans) id (fun t => x.pend t .gath (some d) fmt c.set []))

/-- Where a lane of GATHS lands (R131, R139): the primal's place, then each tangent's; none is code 0x21. -/
def State.gathsDst (s : State) (x : Ctx) (l : Loc) (z lane : Nat) : Option (List Acc) :=
  (0 :: x.tans).foldr (fun k r =>
    let a := BitVec.ofNat 64 (l.off + z * lane + k * x.grid.lrec.sdstr.toNat)
    match r with
    | some as => if s.spReach x l.sp a z then
        let q := (x.spEnd l).place a
        some (⟨k, q.1, q.2, z, 0#64, 0#64, false⟩ :: as) else none
    | none => none) (some [])

/-- The scratchpad checks of GATHS (R112, R128, R131). -/
def State.gathsChk (s : State) (x : Ctx) (v : W64) (o : Option W64) (z add : Nat) : Option Fz :=
  let l := locOf v
  let far := maskOf (x.lanes.filter (fun k => (s.gathsDst x l z k).isNone))
  let past := match o.bind (fun q => s.objPlace x q) with
    | some q => decide (0xFFFFFFFF < (s.objAt q.1 q.2).pend + add)
    | none => false
  if l.bad || l.sp == 2 || objBad22 o then some (Fz.of kProtection 0x22 x.exec)
  else if objBad23 o then some (Fz.of kProtection 0x23 x.exec)
  else if past then some (Fz.of kProtection 0x25 x.exec)
  else if s.objBad21 x o then some (Fz.of kProtection 0x21 x.exec)
  else if far ≠ 0#32 then some (Fz.of kProtection 0x21 far)
  else none

/-- GATHS (R131): it takes a slot, counts on its object and joins the open group. -/
def execGaths (c : Ctl) (w sx : Bool) (d : SNum) (a b o : Src) (s : State) : Out :=
  word c s (fun x =>
    let body (s1 : State) : WRes :=
      match parityCheck x s1 [b] (x.unsent s1) with
      | .error e => e
      | .ok s0 =>
        let z := if w then 8 else 4
        let v := x.coh.sreg d.toNat
        let ob := x.obj s0.clk c.lit o
        let add := z * popcount x.exec * (1 + x.tans.length)
        let rs := (x.unsent s0).map (fun l => (l, readTLane x s0 c.lit (if sx then .sx else .uns) z a b l))
        let sp := if (s0.wordOp x).isSome then none else s0.gathsChk x v ob z add
        let pl := ob.bind (fun q => s0.objPlace x q)
        let dst : AMap (List Acc) := x.lanes.map (fun l => (l, (s0.gathsDst x (locOf v) z l).getD []))
        turretBody x false [] s0 rs 0#32 sp .read (fun _ => x.tans)
          (fun t => (match pl with
            | some q => t.objUpd q (Obj.add add)
            | none => t).joinGroup x.ref t.nid)
          (fun t => x.pend t (.gaths dst pl) none .raw c.set [])
    if (s.wordOp x).isSome then body s else slotGate x s body)

/-- SCAT (R132). -/
def execScat (c : Ctl) (mode : IdxMode) (a b v : Src) (s : State) : Out :=
  word c s (fun x =>
    match parityCheck x s [b, v] (x.unsent s) with
    | .error e => e
    | .ok s0 =>
      let rs := (x.unsent s0).map (fun l => (l, writeTLane x s0 c.lit mode (fun _ => x.tans) a b v l))
      turretBody x false [] s0 rs 0#32 none .write (fun _ => x.tans) id (fun t => x.pend t .scat none .raw c.set []))

/-- The tags SCATA and HACC add in. -/
def addTag (t : Tag) : Bool := t == .i32 || t == .n32 || t == .raw || t == .f32

/-- The tags of the lanes' values. -/
def laneTags (rs : AMap (Option TLane)) : AMap Tag := (okLanes rs).map (fun p => (p.1, p.2.tag))

/-- SCATA (R133). -/
def execScata (c : Ctl) (mode : IdxMode) (a b v : Src) (s : State) : Out :=
  word c s (fun x =>
    match parityCheck x s [b, v] (x.unsent s) with
    | .error e => e
    | .ok s0 =>
      let rs := (x.unsent s0).map (fun l => (l, (writeTLane x s0 c.lit mode (fun t => if t.isFp then x.tans else []) a b v l).filter (fun t => addTag t.tag || t.tag == .f64)))
      let old : AMap Tag := match s0.wordOp x with
        | some q => (match q.kind with
          | .scata tags => tags
          | _ => [])
        | none => []
      let tags : AMap Tag := (laneTags rs).foldl (fun m p => AMap.set m p.1 p.2) old
      let s1 : State := match s0.wordOp x with
        | some q => s0.setPend { q with kind := .scata tags }
        | none => s0
      turretBody x false [] s1 rs 0#32 none .atomic (fun t => if t.tag.isFp then x.tans else []) id
        (fun t => x.pend t (.scata tags) none .raw c.set []))

/-- LDSPL (R136). -/
def execLdspl (c : Ctl) (mode : IdxMode) (d : MNum) (a b : Src) (s : State) : Out :=
  word c s (fun x =>
    match parityCheck x s [b] (x.unsent s) with
    | .error e => e
    | .ok s0 =>
      let rs := (x.unsent s0).map (fun l => (l, readTLane x s0 c.lit mode 128 a b l))
      let cap := maskOf ((x.unsent s0).filter (fun l => match x.coh.thread l with
        | some th => decide (x.blk.cfg.mtb < s0.laneTiles x.ref l th d (splReg x.blk.cfg.t x.tans (th.mreg d.toNat)))
        | none => false))
      turretBody x false [] s0 rs cap none .read (fun _ => x.tans) id (fun t => x.pend t .ldspl (some (.m d)) .f32 c.set []))

/-! ## HACC (R137, R138) -/

/-- The table a ring register gives, with its own check. -/
def Ctx.htable (x : Ctx) (k : W64) : Option HTable :=
  let n := k.toNat
  let size := bitsAt n 32 27
  let base := n % 2 ^ 32
  if bitsAt n 59 5 = 0 ∧ base % 8 = 0 ∧ (List.range 16).any (fun j => size == 8 * 2 ^ j) then
    some ⟨x.own.1, x.own.2 + base, size / 8, x.grid.lrec.sdstr.toNat⟩ else none

/-- The tangent accesses that a lane of HACC carries: F32 values only. -/
def haccTans (tag : Tag) (ks : List Nat) : List Nat := if tag = .f32 then ks else []

/-- The table and its tangent words lie in the block's scratchpad. -/
def Ctx.htReach (x : Ctx) (k : W64) (ks : List Nat) : Bool :=
  let size := bitsAt k.toNat 32 27
  let base := k.toNat % 2 ^ 32
  (0 :: ks).all (fun t => decide (base + t * x.grid.lrec.sdstr.toNat + size ≤ x.blk.cfg.sb))

/-- The first slot of a key (R137). -/
def haccHash (k n : Nat) : Nat :=
  let j := Nat.log2 n
  if j = 0 then 0 else (k * 0x9E3779B9) % 2 ^ 32 / 2 ^ (32 - j)

/-- The slot that a lane finds or claims: its address and whether it was empty. -/
def haccSlot (s : State) (t : HTable) (k : Nat) : Option (Nat × Bool) :=
  if k = 0xFFFFFFFF then none
  else (List.range (Nat.min 8 t.n)).findSome? (fun i =>
    let a := t.base + 8 * ((haccHash k t.n + i) % t.n)
    let key := s.readNat t.store a 4
    if key = k then some (a, false) else if key = 0xFFFFFFFF then some (a, true) else none)

/-- The bytes a lane touches in the table as it now stands, for watchpoints. -/
def haccTouch (s : State) (t : HTable) (k : Nat) : List Acc :=
  if k = 0xFFFFFFFF then []
  else
    let hit := haccSlot s t k
    let as := (List.range (Nat.min 8 t.n)).map (fun i => t.base + 8 * ((haccHash k t.n + i) % t.n))
    let n := match hit with
      | some h => (as.takeWhile (fun a => a != h.1)).length + 1
      | none => as.length
    (as.take n).map (fun a => ⟨0, t.store, a, 8, 0#64, 0#64, false⟩)

/-- The sum in a tag's format. -/
def tagAdd (t : Tag) (a b : Nat) : Nat := if t.isFp then (opAdd t .rne a b).bits else (a + b) % 2 ^ 32

/-- A four-byte element of the table written. -/
def State.haccPut (s : State) (blk : Nat) (t : HTable) (a : Nat) (v : Nat) : State :=
  s.storeAcc blk ⟨0, t.store, a, 4, BitVec.ofNat 64 v, 0#64, false⟩

/-- One lane's step: the state, and whether it placed its value. The first access carries the key in `cmp`. -/
def State.haccLane (s : State) (blk : Nat) (t : HTable) (tag : Tag) (as : List Acc) : State × Bool :=
  let key := ((as.map (·.cmp)).headD 0#64).toNat % 2 ^ 32
  match haccSlot s t key with
  | none => (s, false)
  | some (a, new) =>
    let s1 := if new then s.haccPut blk t a key else s
    (as.foldl (fun s c =>
      let p := a + 4 + c.k * t.str
      s.haccPut blk t p (if new then c.val.toNat % 2 ^ 32 else tagAdd tag (s.readNat t.store p 4) (c.val.toNat % 2 ^ 32))) s1, true)

/-- HACC. -/
def execHacc (c : Ctl) (d : SNum) (k : KNum) (key v : Src) (s : State) : Out :=
  word c s (fun x =>
    match parityCheck x s [key, v] x.lanes with
    | .error e => e
    | .ok s0 =>
      let rs : AMap (Option TLane) := x.lanes.map (fun l =>
        let ke := x.el s0.clk c.lit false l key
        let ve := x.el s0.clk c.lit false l v
        let tag := ve.moved v
        (l, if idxOk ke && addTag tag then
          some ⟨0#64, 1, ke.psn || ve.poisoned (haccTans tag x.tans), ve.val, tag, ve.tan, ke.val⟩ else none))
      let ring := x.coh.kreg k.toNat
      let sp : Option Fz := match x.htable ring with
        | none => some (Fz.of kProtection 0x28 x.exec)
        | some _ =>
          let far := lanesWhere (okLanes rs) (fun _ r => !x.htReach ring (haccTans r.tag x.tans))
          if far = 0#32 then none else some (Fz.of kProtection cReach far)
      match stage1 rs 0#32 sp, x.htable ring with
      | some z, _ => .trap z
      | none, none => .trap (Fz.of kProtection 0x28 x.exec)
      | none, some t =>
        let las : AMap (List Acc) := (okLanes rs).map (fun p => (p.1,
          (0 :: haccTans p.2.tag x.tans).map (fun i =>
            ⟨i, t.store, t.base + i * t.str, 8 * t.n, if i = 0 then p.2.val else p.2.tan.get i 0#64, p.2.cmp, false⟩)))
        let hits : AMap (List Acc) := (okLanes rs).map (fun p => (p.1, haccTouch s0 t (p.2.cmp.toNat % 2 ^ 32)))
        watched s0 x true true hits (s0.addPend { x.pend s0 (.hacc t (laneTags rs) 0#32) (some (.s d)) .raw c.set las with sect := sectors hits }))

/-! ## Replies -/

/-- A lane of GATH lands. -/
def State.gathLane (s : State) (id lane : Nat) : State :=
  match s.pendOf id with
  | none => s
  | some p =>
    match p.lanes.find lane with
    | none => s
    | some as =>
      let r := s.readLane p.ref lane as
      (r.1.landReg p lane (p.tag == .f64) (accPrimal r.2 p.tag) (accTans r.2)).laneOff id lane

/-- A lane of GATHS lands: its bytes, the full-empty bit of each granule in which the word writes nothing more (R108), its object. What a
block that has ended would take is dropped (log entry 70). -/
def State.gathsLane (s : State) (id lane : Nat) : State :=
  match s.pendOf id with
  | none => s
  | some p =>
    match p.kind, p.lanes.find lane with
    | .gaths dst obj, some as =>
      let r := s.readLane p.ref lane as
      let rest := dst.filter (fun l => l.1 != lane && !p.done.getLsbD l.1)
      let s1 := (dst.get lane []).foldl (fun s q =>
        let e := (r.2.find? (fun a => a.k == q.k)).getD q
        let bs := leBytes q.z e.val.toNat
        if !s.accReach p q then s else
        let s2 := ((s.writeBytes q.store q.addr bs).writePsn q.store q.addr q.z e.psn).logLanded q.store q.addr bs none
        let gs := granules 16 q.addr q.z
        let s3 := if (s2.objs q.store).isEmpty then s2 else s2.setObjs q.store (gs.foldl setDel (s2.objs q.store))
        let mine := (dst.get lane []).filter (fun b => decide (q.k < b.k))
        let later (g : Nat) : Bool := (mine ++ rest.flatMap (·.2)).any (fun b => b.store == q.store && (granules 16 b.addr b.z).contains g)
        let s4 := gs.foldl (fun s g => if later g then s else s.putFe q.store (16 * g) true) s3
        match obj with
        | some o => s4.objUpd o (Obj.sub q.z)
        | none => s4) r.1
      s1.laneOff id lane
    | _, _ => s

/-- A lane of SCAT is performed. -/
def State.scatLane (s : State) (id lane : Nat) : State :=
  match s.pendOf id with
  | none => s
  | some p => ((p.lanes.get lane []).foldl (fun s a => s.storeAcc p.blk a) s).laneOff id lane

/-- A lane of SCATA is performed: one atomic add for the primal, one for each tangent. -/
def State.scataLane (s : State) (id lane : Nat) : State :=
  match s.pendOf id with
  | none => s
  | some p =>
    match p.kind with
    | .scata tags =>
      let t := tags.get lane .raw
      ((p.lanes.get lane []).foldl (fun s a =>
        let s1 := s.readCheck a.store a.addr a.z
        let v := tagAdd t (s1.readNat a.store a.addr a.z) (a.val.toNat % 2 ^ (8 * a.z))
        s1.storeAcc p.blk { a with val := BitVec.ofNat 64 v, psn := s1.poisoned a.store a.addr a.z }) s).laneOff id lane
    | _ => s

/-- The format of a sparse line (R135). -/
def splTag (n : Nat) : Option Tag :=
  match n with
  | 3 => some .f32
  | 5 => some .h16
  | 6 => some .b16
  | 7 => some .e4m3
  | 8 => some .e5m2
  | 9 => some .f4
  | 10 => some .pt8
  | _ => none

/-- The metadata of a line: its format, scale and positions; none when it is malformed. -/
def splMeta (line : Nat) : Option (Tag × Nat × List Nat) :=
  let pres := (List.range 64).filter (fun p => line.testBit p)
  match splTag (bitsAt line 96 4) with
  | none => none
  | some t =>
    if bitsAt line 104 8 = pres.length ∧ pres.length * t.width ≤ 896 ∧ bitsAt line 120 8 = 0 ∧ bitsAt line 100 4 = 0 then
      some (t, bitsAt line 112 8, pres) else none

/-- The 64 F32 elements of a line's values, placed by the metadata of the primal line (R136, R139). -/
def splExpand (pm : Option (Tag × Nat × List Nat)) (line : Nat) : List W64 :=
  match pm with
  | none => List.replicate 64 0x7FC00000#64
  | some (t, sc, pres) => (List.range 64).map (fun p =>
      match pres.zipIdx.find? (fun q => q.1 == p) with
      | none => 0#64
      | some q =>
        let code := bitsAt line (128 + t.width * q.2) t.width
        let v := if sc = 0xFF then FVal.nan else scaleVal (t.value false code) ((sc : Int) - 127)
        BitVec.ofNat 64 (Tag.pack .f32 .rne false false v).bits)

/-- A lane of LDSPL lands. -/
def State.ldsplLane (s : State) (id lane : Nat) : State :=
  match s.pendOf id with
  | none => s
  | some p =>
    match p.lanes.find lane, p.dst with
    | some as, some (.m d) =>
      let s1 := as.foldl (fun s a => (s.readCheck a.store a.addr a.z).logRead p.ref lane a
        (BitVec.ofNat 64 (s.readNat a.store a.addr 8))) s
      let line (k : Nat) : Nat := ((as.find? (fun a => a.k == k)).map (fun a => s1.readNat a.store a.addr a.z)).getD 0
      let pm := splMeta (line 0)
      let ks := (as.map (·.k)).filter (fun k => k != 0)
      let psn := as.any (fun a => s1.poisoned a.store a.addr a.z)
      let new : MReg := { zeroReg 8 8 .f32 false with el := splExpand pm (line 0) }
      let T := ((s1.block p.blk).map (fun b => b.cfg.t)).getD 0
      (s1.updCoh p.ref (fun c => c.updThread lane (fun t =>
        t.setM d.toNat { matFinal .prop ks T (t.mreg d.toNat) new (some (ks.map (fun k => (k, splExpand pm (line k))))) with
          psn := psn }))).laneOff id lane
    | _, _ => s

/-- A lane of HACC takes its step; the last one writes the mask (R138). -/
def State.haccStep (s : State) (id lane : Nat) : State :=
  match s.pendOf id with
  | none => s
  | some p =>
    match p.kind with
    | .hacc t tags mask =>
      let r := s.haccLane p.blk t (tags.get lane .raw) (p.lanes.get lane [])
      let mask' := if r.2 then mask else mask ||| (1#32 <<< lane)
      let s1 := r.1.setPend { p with kind := .hacc t tags mask' }
      let s2 := if p.lanes.length = 1 then
          (match p.dst with
            | some d => (s1.putS p.ref d (mask'.setWidth 64)).logRec p.ref 2 0 (BitVec.ofNat 64 (dstNum p.dst))
            | none => s1)
        else s1
      s2.laneOff id lane
    | _ => s

/-- The bytes of main memory that accesses name, as they stand. -/
def State.physBytes (s : State) (as : List Acc) : List Byte :=
  (as.filter (fun a => a.store == .phys && a.z != 0)).flatMap (fun a => s.phys.readN a.addr a.z)

/-- The dies whose Turret units serve accesses: those of the HBM4E stacks that own the addresses (R84, R125). The gather unit of the I/O die
has no engine log (R347). -/
def servingDies (as : List Acc) : List Nat :=
  as.foldl (fun ds a => if a.store = .phys ∧ a.z ≠ 0 then (match hbmPlace a.addr with
    | some h => setIns ds h.1
    | none => ds) else ds) []

/-- The accesses that the Turret units of a die serve. -/
def servedBy (d : Nat) (as : List Acc) : List Acc := as.filter (fun a => a.store == .phys && a.z != 0 && (hbmPlace a.addr).map (·.1) == some d)

/-- The serving Turret units' own log of a lane (R350): the bytes read before, the bytes of main memory after; whole with the die's last
lane. -/
def State.turretLog (s s' : State) (p : Pend) (as : List Acc) (reads : Bool) : State :=
  (servingDies as).foldl (fun t d =>
    let mine := servedBy d as
    let whole := match s'.pendOf p.id with
      | none => true
      | some q => !q.more && q.lanes.all (fun l => (servedBy d l.2).isEmpty)
    t.engLog d p.grid p.id (s.physBytes mine) (if reads then s.physBytes mine else s'.physBytes mine) whole) s'

/-- A lane of a Turret word in flight is performed, with the lanes that name the same element when it is a read. -/
def State.turretLane (s : State) (p : Pend) (lane : Nat) (as : List Acc) : Option State :=
  let id := p.id
  let ls := p.sameElement lane
  let rd := s.groupOk p ls
  let wr := s.ordOk p lane as
  match p.kind with
  | .gath => if rd then some (s.turretLog (ls.foldl (fun s l => s.gathLane id l) s) p as true) else none
  | .gaths _ _ => if rd then some (s.turretLog (ls.foldl (fun s l => s.gathsLane id l) s) p as true) else none
  | .ldspl => if rd then some (s.turretLog (ls.foldl (fun s l => s.ldsplLane id l) s) p as true) else none
  | .scat => if wr then some (s.turretLog (s.scatLane id lane) p as false) else none
  | .scata _ => if wr then some (s.turretLog (s.scataLane id lane) p as false) else none
  | .hacc _ _ _ => if wr then some (s.turretLog (s.haccStep id lane) p as false) else none
  | _ => none

/-- TURRET_LANE_REPLY. -/
def execTurretLaneReply (id lane : Nat) (s : State) : Out :=
  match s.pendOf id with
  | none => idle s
  | some p =>
    match s.landable p lane false with
    | none => idle s
    | some as => match s.turretLane p lane as with
      | some t => .next t
      | none => idle s

end Sys2Proof.Machine
end

