-- ==== Sys2Proof/Machine/Atomic.lean ====
section
/-! DEFINITION. The atomics of CLASS 0xA (R255 to R261, R226, R227): ATOM, CAS, LDX, STX and ATOMIC_STEP_PERFORMED. -/

namespace Sys2Proof.Machine

/-! ## Issue (R257) -/

/-- Both registers of a pair carry index tags. -/
def pairIdx (x : Ctx) (s : State) (lit : Option W64) (l : Nat) (a : Src) : Bool :=
  idxOk (x.el s.clk lit true l a) && (match a with
    | .v n => idxOk (x.el s.clk lit false l (.v (n + 1#8)))
    | _ => true)

/-- The address of a lane with its poison: 64 bits in main memory, bits [31:0] in a scratchpad; none is a format fault. -/
def atAddr (x : Ctx) (s : State) (lit : Option W64) (sp : ASpace) (a : Src) (l : Nat) : Option (W64 × Bool) :=
  match sp with
  | .mem =>
    let e := x.el s.clk lit true l a
    if pairIdx x s lit l a then some (e.val, e.psn) else none
  | _ =>
    let e := x.el s.clk lit false l a
    e.addr32.map (fun v => (BitVec.ofNat 64 v, e.psn))

/-- How an atomic reads its value: integers of the index tags, one floating-point format, or bits of any tag. -/
inductive AVal where
  | int | fp | bits
deriving DecidableEq, Repr

/-- The value of a lane; none is a format fault. -/
def atVal (x : Ctx) (s : State) (lit : Option W64) (k : AVal) (w : Bool) (b : Src) (l : Nat) : Option El :=
  match k with
  | .int => if w then (if pairIdx x s lit l b then some (x.el s.clk lit true l b) else none)
      else (let e := x.el s.clk lit false l b; if idxOk e then some e else none)
  | .fp => x.elFmt s.clk lit (if w then .f64 else .f32) l b
  | .bits => some (x.el s.clk lit w l b)

/-- An atomic word as its form asks for it. -/
structure AtReq where
  al   : AtCtl
  a    : Src
  val  : Option (AVal × Src)
  w    : Bool
  cmp  : Option Dst
  tans : List Nat
  zero : List Nat
  kind : PKind
  dst  : Option Dst
  tag  : Tag
  ac   : Access
deriving DecidableEq, Repr

/-- A lane of an atomic: its address, value and compare value. -/
def atLane (x : Ctx) (s : State) (lit : Option W64) (r : AtReq) (l : Nat) : Option TLane :=
  let v : Option El := match r.val with
    | some q => atVal x s lit q.1 r.w q.2 l
    | none => some (.plain 0#64)
  let c : El := match r.cmp with
    | some (.v n) => x.el s.clk lit r.w l (.v n)
    | _ => .plain 0#64
  match atAddr x s lit r.al.space r.a l, v with
  | some ad, some e => some ⟨ad.1, if r.w then 8 else 4, ad.2 || e.poisoned r.tans || c.psn, e.val, .raw, e.tan, c.val⟩
  | _, _ => none

/-- The scratchpad space of an atomic. -/
def atSpace (a : ASpace) : Space :=
  match a with
  | .die => .die
  | _ => .core

/-- The accesses of a lane in a scratchpad; none is code 0x21. -/
def State.atAccs (s : State) (x : Ctx) (sp : Space) (ks : List Nat) (l : Nat) (t : TLane) : Option (List Acc) :=
  (s.laneAccs x sp l t.a.toNat t.z ks (fun k => (if k = 0 then t.val else t.tan.get k 0#64, false))).map
    (fun as => as.map (fun a => { a with cmp := t.cmp }))

/-- The operation of an atomic word, with its order at a scope at which it binds the cohort to other agents (R28, R256, R277). -/
def AtReq.pend (r : AtReq) (x : Ctx) (s : State) (slot : Option (BitVec 3)) (lanes : AMap (List Acc)) : Pend :=
  let o := r.al.ord
  let on := x.blk.binds r.al.scope
  { x.pend s r.kind r.dst r.tag slot lanes with
    acq := on && (o == .acq || o == .ar || o == .sc)
    rel := on && (o == .rel || o == .ar || o == .sc)
    scope := r.al.scope }

/-- An atomic in a scratchpad: every check at issue, nothing performed when one fails. -/
def atScratch (x : Ctx) (s : State) (r : AtReq) (slot : Option (BitVec 3)) (rs : AMap (Option TLane)) : WRes :=
  let sp := atSpace r.al.space
  let ok := okLanes rs
  let accs (l : Nat) (t : TLane) : Option (List Acc) := s.atAccs x sp r.tans l t
  let addrs : AMap Nat := ok.map (fun p => (p.1, p.2.a.toNat))
  let at' (l : Nat) : TLane := (ok.find l).getD ⟨0#64, 4, false, 0#64, .raw, [], 0#64⟩
  match stage1 (rs.map (fun p => (p.1, p.2.map (fun t => { t with a := 0#64 })))) 0#32 none with
  | some z => .trap z
  | none =>
    match addrFault addrs (fun _ _ => true)
        (fun l a => (0 :: r.tans).all (fun k => tanAddr x sp a k % (at' l).z == 0)) (fun l _ => (accs l (at' l)).isSome) with
    | some f => .trap (addrFz f addrs)
    | none =>
      let las : AMap (List Acc) := ok.map (fun p => (p.1, (accs p.1 p.2).getD []))
      let s1 := las.foldl (fun s l => l.2.foldl (fun s a => s.readCheck a.store a.addr a.z) s) s
      let psn := maskOf (AMap.keys (las.filter (fun l => l.2.any (fun a => s1.poisoned a.store a.addr a.z))))
      if psn ≠ 0#32 then .part s1 (Fz.of kPoison 0 psn) false
      else watched s1 x true true las (s1.addPend (r.pend x s1 slot (withZeros r.zero las)))

/-- An atomic word. -/
def atWord (c : Ctl) (s : State) (mk : Ctx → AtReq) : Out :=
  word c s (fun x =>
    let r := mk x
    let srcs := r.a :: (match r.val with
      | some q => [q.2]
      | none => []) ++ (match r.cmp with
      | some (.v n) => [.v n]
      | _ => [])
    match parityCheck x s srcs (x.unsent s) with
    | .error e => e
    | .ok s0 =>
      let rs := (x.unsent s0).map (fun l => (l, atLane x s0 c.lit r l))
      match r.al.space with
      | .mem => turretBody x true r.zero s0 rs 0#32 none r.ac (fun _ => r.tans) id (fun t => r.pend x t c.set [])
      | _ => atScratch x s0 r c.set rs)

/-- The result tag of ATOM (R258). -/
def atTag (op : AtomOp) (w u : Bool) : Tag :=
  match op with
  | .fadd | .fmin | .fmax => if w then .f64 else .f32
  | .add => if w then .raw else .i32
  | .min | .max => if w then .raw else if u then .n32 else .i32
  | _ => .raw

/-- How an operation reads its value. -/
def atKind (op : AtomOp) : AVal :=
  match op with
  | .fadd | .fmin | .fmax => .fp
  | .exch => .bits
  | _ => .int

/-- ATOM (R258). -/
def execAtom (c : Ctl) (op : AtomOp) (w u : Bool) (al : AtCtl) (d : Option Dst) (a b : Src) (s : State) : Out :=
  atWord c s (fun x =>
    { al := al
      a := a
      val := some (atKind op, b)
      w := w
      cmp := none
      tans := if op = .fadd then x.tans else []
      zero := if op = .fadd ∨ d.isNone then [] else x.tans
      kind := .atom op u d.isSome
      dst := d
      tag := atTag op w u
      ac := .atomic })

/-- CAS (R259). -/
def execCas (c : Ctl) (w : Bool) (al : AtCtl) (d : Dst) (a b : Src) (s : State) : Out :=
  atWord c s (fun x =>
    { al := al
      a := a
      val := some (.bits, b)
      w := w
      cmp := some d
      tans := []
      zero := x.tans
      kind := .cas false
      dst := some d
      tag := .raw
      ac := .atomic })

/-- LDX (R260). -/
def execLdx (c : Ctl) (w : Bool) (al : AtCtl) (d : Dst) (a : Src) (s : State) : Out :=
  atWord c s (fun x =>
    { al := al
      a := a
      val := none
      w := w
      cmp := none
      tans := []
      zero := x.tans
      kind := .ldx
      dst := some d
      tag := .raw
      ac := .exclRead })

/-- STX (R261). -/
def execStx (c : Ctl) (w : Bool) (al : AtCtl) (d : Dst) (a b : Src) (s : State) : Out :=
  atWord c s (fun _ =>
    { al := al
      a := a
      val := some (.bits, b)
      w := w
      cmp := none
      tans := []
      zero := []
      kind := .stx 0#32
      dst := some d
      tag := .raw
      ac := .atomic })

/-! ## The steps -/

/-- Op(old, b) of R258 on elements of `z` bytes. -/
def atomOp (op : AtomOp) (u : Bool) (z a b : Nat) : Nat :=
  let w := 8 * z
  let f : Tag := if z = 8 then .f64 else .f32
  match op with
  | .add => (a + b) % 2 ^ w
  | .min => if elInt w (!u) b < elInt w (!u) a then b else a
  | .max => if elInt w (!u) a < elInt w (!u) b then b else a
  | .and => a &&& b
  | .or => a ||| b
  | .xor => a ^^^ b
  | .exch => b
  | .fadd => (opAdd f .rne a b).bits
  | .fmin => minMax false f a b
  | .fmax => minMax true f a b

/-- A lane of ATOM: each access is one atomic step; the old values return. -/
def State.atomLane (s : State) (p : Pend) (op : AtomOp) (u ret : Bool) (lane : Nat) (as : List Acc) : State :=
  let r := as.foldl (fun (q : State × List Acc) a =>
    if a.z = 0 then (q.1, q.2 ++ [a])
    else
      let old := q.1.readNat a.store a.addr a.z
      let new := atomOp op u a.z old (a.val.toNat % 2 ^ (8 * a.z))
      let s1 := if ret then q.1.logRec p.ref 3 lane (BitVec.ofNat 64 old) else q.1
      (s1.storeAcc p.blk { a with val := BitVec.ofNat 64 new, psn := s1.poisoned a.store a.addr a.z },
        q.2 ++ [{ a with val := BitVec.ofNat 64 old, psn := false }])) (s, [])
  let s1 := if ret then r.1.landReg p lane (as.any (fun a => a.z == 8)) (accPrimal r.2 p.tag) (accTans r.2) else r.1
  s1.laneOff p.id lane

/-- A lane of CAS: the compare, the write, the old value; when the last lane is done and none has hit, the path is demoted. -/
def State.casLane (s : State) (p : Pend) (hit : Bool) (lane : Nat) (as : List Acc) : State :=
  match as with
  | [] => s.laneOff p.id lane
  | a :: _ =>
    let old := s.readNat a.store a.addr a.z
    let eq := old == a.cmp.toNat % 2 ^ (8 * a.z)
    let s0 := s.logRec p.ref 3 lane (BitVec.ofNat 64 old)
    let s1 := if eq then s0.storeAcc p.blk { a with psn := s.poisoned a.store a.addr a.z } else s0
    let s2 := s1.landReg p lane (a.z == 8) (some (BitVec.ofNat 64 old, .raw, false)) (accTans as)
    let p' : Pend := { p with kind := .cas (hit || eq) }
    let s3 := if p.lanes.length = 1 && !p.more then s2.writeResult p' else s2
    (s3.setPend p').laneOff p.id lane

/-- A lane of LDX: the value and the reservation, which a saved block does not keep (R260). -/
def State.ldxLane (s : State) (p : Pend) (lane : Nat) (as : List Acc) : State :=
  match as with
  | [] => s.laneOff p.id lane
  | a :: _ =>
    let v := s.readNat a.store a.addr a.z
    let s1 := (s.logRec p.ref 3 lane (BitVec.ofNat 64 v)).landReg p lane (a.z == 8) (some (BitVec.ofNat 64 v, .raw, false)) (accTans as)
    let s2 := if s.isSaved p.blk then s1
      else s1.updCoh p.ref (fun c => c.updThread lane (fun t => { t with resv := some ⟨a.store, a.addr / 16⟩ }))
    s2.laneOff p.id lane

/-- A lane of STX: it writes when it holds a reservation on the granule, and its reservation clears. -/
def State.stxLane (s : State) (p : Pend) (mask : W32) (lane : Nat) (as : List Acc) : State :=
  match as with
  | [] => s.laneOff p.id lane
  | a :: _ =>
    let held := ((s.coh p.ref).bind (fun c => c.thread lane)).bind (·.resv)
    let ok := held == some ⟨a.store, a.addr / 16⟩
    let s1 := if ok then s.storeAcc p.blk { a with psn := s.poisoned a.store a.addr a.z } else s
    let s2 := s1.updCoh p.ref (fun c => c.updThread lane (fun t => { t with resv := none }))
    let mask' := if ok then mask ||| (1#32 <<< lane) else mask
    let p' : Pend := { p with kind := .stx mask' }
    let s3 := if p.lanes.length = 1 && !p.more then s2.writeResult p' else s2
    (s3.setPend p').laneOff p.id lane

/-- One lane of an atomic performed. -/
def State.atomicLane (s : State) (p : Pend) (lane : Nat) (as : List Acc) : State :=
  match p.kind with
  | .atom op u ret => s.atomLane p op u ret lane as
  | .cas hit => s.casLane p hit lane as
  | .ldx => s.ldxLane p lane as
  | .stx mask => s.stxLane p mask lane as
  | _ => s

/-- The lanes of STX take their turns in ascending order. -/
def stxTurn (p : Pend) (lane : Nat) : Bool :=
  match p.kind with
  | .stx _ => (AMap.keys p.lanes).headD lane == lane
  | .atom .. | .cas _ | .ldx => true
  | _ => false

/-- ATOMIC_STEP_PERFORMED: a lane of ATOM, CAS, LDX or STX. -/
def execAtomicStepPerformed (id lane : Nat) (s : State) : Out :=
  match s.pendOf id with
  | none => idle s
  | some p =>
    match s.landable p lane false with
    | some as => if stxTurn p lane && s.ordOk p lane as then .next (s.atomicLane p lane as) else idle s
    | none => idle s

end Sys2Proof.Machine
end

