-- ==== Sys2Proof/Machine/Convert.lean ====
section
/-! DEFINITION. CLASS 0x3, conversions and the SFU functions (R176 to R180), with their tangent rules (R188), and the event
that writes an SFU result. -/

namespace Sys2Proof.Machine

/-! ## CVT and CVTS -/

/-- The source format of a lane (R176): the lane's tag, RAW being a fault; or the forced format, for RAW and that tag. -/
def cvtFmt (x : Ctx) (s : State) (cv : CvtCtl) (l : Nat) (a : Src) : Option Tag :=
  let t := ((x.el s.clk none false l a).tag).getD .raw
  match cv.src with
  | none => if t = .raw then none else some t
  | some f => if t = .raw ∨ t = f then some f else none

/-- The source of a lane in format `f`: an F64 source is an even pair, tagged F64 on both registers unless RAW is forced. -/
def cvtSrc (x : Ctx) (s : State) (cv : CvtCtl) (f : Tag) (l : Nat) (a : Src) : Option El :=
  let wide := f == .f64
  let e := x.el s.clk none wide l a
  match a with
  | .v n =>
    if wide then
      let hi := (x.el s.clk none false l (.v (n + 1#8))).tag
      if n.toNat % 2 = 1 then none
      else if hi = some .f64 ∨ (cv.src.isSome ∧ hi = some .raw) then some e
      else none
    else some e
  | _ => some e

/-- A lane converted: the source elements in order, each written by `conv` into the target's element of the same position, the
higher positions 0 (R177); `conv` threads the SEED of CVTS. -/
def cvtLane (x : Ctx) (s : State) (cv : CvtCtl) (l : Nat) (a : Src) (conv : W32 → FVal → W32 × BRes) : Option (LRes × W32) :=
  match cvtFmt x s cv l a with
  | none => none
  | some f =>
    if cv.tgt.count < f.count then none
    else
      match cvtSrc x s cv f l a with
      | none => none
      | some e =>
        let seed := ((x.coh.thread l).map (·.seed)).getD 0#32
        let run := (f.elems e.val.toNat).foldl (fun (acc : W32 × List Nat × Cnd) v =>
          let r := conv acc.1 (f.value cv.srcU v)
          (r.1, acc.2.1 ++ [r.2.bits], acc.2.2 ||| r.2.c)) (seed, [], 0#3)
        let float := !f.isInt && !cv.tgt.isInt
        let tans := x.want.map (fun k => (k, if float then
          BitVec.ofNat 64 (cv.tgt.joinEls ((f.elems (e.tn k)).map (fun v => (cv.tgt.pack .rne cv.sat false (f.value false v)).bits)))
          else 0#64))
        let ks := if float then x.want else []
        some (⟨BitVec.ofNat 64 (cv.tgt.joinEls run.2.1), cv.tgt == .f64, cv.tgt, tans, e.poisoned ks, run.2.2, false⟩, run.1)

/-- CVT (R176, R177). -/
def execCvt (c : Ctl) (r : Rnd) (cv : CvtCtl) (d : Dst) (a : Src) (s : State) : Out :=
  vecWord c s 0 d [a] (fun x l => (cvtLane x s cv l a (fun q v => (q, cv.tgt.pack r cv.sat cv.dstU v))).map (·.1))

/-- One element of CVTS: SEED steps once, then the element is rounded (R80). -/
def stochConv (cv : CvtCtl) (q : W32) (v : FVal) : W32 × BRes :=
  let q' := seedStep q
  (q', cv.tgt.packStoch cv.sat q' v)

/-- CVTS (R177, R80): SEED of each lane of EXEC steps once for each element. -/
def execCvts (c : Ctl) (cv : CvtCtl) (d : Dst) (a : Src) (s : State) : Out :=
  word c s (fun x =>
    let rs := x.lanes.map (fun l => (l, cvtLane x s cv l a (stochConv cv)))
    let step (k : Cohort) : Cohort := rs.foldl (fun k p => match p.2 with
      | some r => k.updThread p.1 (fun t => { t with seed := r.2 })
      | none => k) k
    vecBody s 0 d [a] x.lanes (fun t => t.updCoh x.ref step) (fun _ l => ((AMap.find rs l).getD none).map (·.1)) x)

/-! ## PACK and UNPK (R178) -/

/-- The format of a PACK in a lane: the tag of a tagged element source, RAW being a fault; else the tag of the base, RAW or
none being a fault. -/
def packFmt (eb ee : El) : Option Tag :=
  match ee.tag with
  | some t => if t = .raw then none else if eb.accepted (fun u => u == t || u == .raw) then some t else none
  | none => match eb.tag with
    | some t => if t = .raw then none else some t
    | none => none

/-- A pair operand is an even pair with the tag on both registers (R44, R74); a RAW base is read as it stands. -/
def packPairOk (x : Ctx) (s : State) (f : Tag) (l : Nat) (a : Src) : Bool :=
  match a with
  | .v n =>
    f != .f64 || (n.toNat % 2 == 0
      && ((x.el s.clk none false l a).tag == some .raw || (x.el s.clk none false l (.v (n + 1#8))).tag == some .f64))
  | _ => true

/-- A packed operand of format `f`: inline FP constants adapt, and fault in formats without one (R46). -/
def packEl (x : Ctx) (s : State) (c : Ctl) (f : Tag) (l : Nat) (a : Src) : Option El :=
  match a with
  | .fp n => if f.isInt then none else (inlineFpAs n f).map El.plain
  | .b _ => if f = .f64 then none else some (x.el s.clk c.lit false l a)
  | _ => if packPairOk x s f l a then some (x.el s.clk c.lit (f == .f64) l a) else none

/-- The element replaced at a position. -/
def setAt (xs : List Nat) (p v : Nat) : List Nat := xs.zipIdx.map (fun q => if q.2 = p then v else q.1)

/-- PACK (R178): element p mod e of the base replaced by element 0 of the element source. -/
def execPack (c : Ctl) (d : Dst) (a b e : Src) (s : State) : Out :=
  vecWord c s 0 d [a, b, e] (fun x l =>
    match packFmt (x.el s.clk c.lit false l a) (x.el s.clk c.lit false l b) with
    | none => none
    | some f =>
      match packEl x s c f l a, packEl x s c f l b with
      | some ea, some eb =>
        let pos := x.el s.clk c.lit false l e
        let p := pos.val.toNat % f.count
        let put (u v : Nat) : W64 := BitVec.ofNat 64 (f.joinEls (setAt (f.elems u) p ((f.elems v).getD 0 0)))
        some ⟨put ea.val.toNat eb.val.toNat, f == .f64, f, x.want.map (fun k => (k, put (ea.tn k) (eb.tn k))),
          ea.poisoned x.want || eb.poisoned x.want || pos.psn, 0#3, false⟩
      | _, _ => none)

/-- UNPK (R178): element p mod e of the source in position 0. -/
def execUnpk (c : Ctl) (d : Dst) (a b : Src) (s : State) : Out :=
  vecWord c s 0 d [a, b] (fun x l =>
    match (x.el s.clk c.lit false l a).tag with
    | none => none
    | some f =>
      if f = .raw then none
      else
        match packEl x s c f l a with
        | none => none
        | some ea =>
          let pos := x.el s.clk c.lit false l b
          let p := pos.val.toNat % f.count
          let take (u : Nat) : W64 := BitVec.ofNat 64 ((f.elems u).getD p 0)
          some ⟨take ea.val.toNat, f == .f64, f, x.want.map (fun k => (k, take (ea.tn k))),
            ea.poisoned x.want || pos.psn, 0#3, false⟩)

/-! ## The SFU (R179, R180) -/

/-- −a of FP32; a NaN is the canonical NaN (R66). -/
def neg32 (a : Nat) : Nat := (opSub .f32 .rne 0x80000000 a).bits

/-- a × b of FP32, rounded RNE. -/
def mul32 (a b : Nat) : Nat := (opMul .f32 .rne a b).bits

/-- The tangent rules of the SFU functions (R188): argument, result, tangent. -/
def sfuTan (f : SfuFn) (a r ta : Nat) : Nat :=
  match f with
  | .rcp => neg32 (mul32 (mul32 r r) ta)
  | .rsq => mul32 (mul32 0xBF000000 (mul32 (mul32 r r) r)) ta
  | .exp2 => mul32 (mul32 r 0x3F317218) ta
  | .log2 => (opDiv .f32 .rne (mul32 ta 0x3FB8AA3B) a).bits
  | .sin => mul32 (SfuFn.cos.run a).bits ta
  | .cos => neg32 (mul32 (SfuFn.sin.run a).bits ta)
  | .tanh => mul32 (opFnma .f32 .rne r r 0x3F800000).bits ta

/-- A lane of an SFU word: F32 only. -/
def sfuLane (c : Ctl) (s : State) (x : Ctx) (f : SfuFn) (a : Src) (l : Nat) : Option LRes :=
  match x.elFmt s.clk c.lit .f32 l a with
  | none => none
  | some e =>
    let v := e.val.toNat
    let r := f.run v
    some ⟨BitVec.ofNat 64 r.bits, false, .f32, x.want.map (fun k => (k, BitVec.ofNat 64 (sfuTan f v r.bits (e.tn k)))),
      e.poisoned x.want, r.c, false⟩

/-- An SFU word: checked at issue, its results in flight until SFU_RESULT_WRITE writes them lane by lane. -/
def sfuWord (c : Ctl) (f : SfuFn) (d : Dst) (a : Src) (s : State) : Out :=
  word c s (fun x =>
    let rs := x.lanes.map (fun l => (l, sfuLane c s x f a l))
    match vecChecks x s 0 d [a] x.lanes rs with
    | .error e => e
    | .ok s1 =>
      .async (s1.addPend (x.pend s1 .sfu (some d) .f32 c.set ((okRes rs).map (fun p => (p.1, x.resAccs p.2))))))

/-- FRCP (R180). -/
def execFrcp (c : Ctl) (d : Dst) (a : Src) (s : State) : Out := sfuWord c .rcp d a s
/-- FRSQ (R180). -/
def execFrsq (c : Ctl) (d : Dst) (a : Src) (s : State) : Out := sfuWord c .rsq d a s
/-- FEXP2 (R180). -/
def execFexp2 (c : Ctl) (d : Dst) (a : Src) (s : State) : Out := sfuWord c .exp2 d a s
/-- FLOG2 (R180). -/
def execFlog2 (c : Ctl) (d : Dst) (a : Src) (s : State) : Out := sfuWord c .log2 d a s
/-- FSIN (R180). -/
def execFsin (c : Ctl) (d : Dst) (a : Src) (s : State) : Out := sfuWord c .sin d a s
/-- FCOS (R180). -/
def execFcos (c : Ctl) (d : Dst) (a : Src) (s : State) : Out := sfuWord c .cos d a s
/-- FTANH (R180). -/
def execFtanh (c : Ctl) (d : Dst) (a : Src) (s : State) : Out := sfuWord c .tanh d a s

/-- A lane of an SFU operation lands. -/
def sfuLand (s : State) (id lane : Nat) (saved : Bool) : Option State :=
  match s.pendOf id with
  | none => none
  | some p =>
    match p.kind, s.landable p lane saved with
    | .sfu, some as => some ((s.landReg p lane false (accPrimal as p.tag) (accTans as)).laneOff id lane)
    | _, _ => none

/-- SFU_RESULT_WRITE (R179): a lane's result is written; the counter decrements with the last lane. -/
def execSfuResultWrite (id lane : Nat) (s : State) : Out := .next ((sfuLand s id lane false).getD s)

end Sys2Proof.Machine
end

