-- ==== Sys2Proof/Machine/Dual.lean ====
section
/-! DEFINITION. CLASS 0xC (R229 to R231): the DX prefix and the tangent words TGET, TSET, TZERO and TSEED. -/

namespace Sys2Proof.Machine

/-- DX: it stands before the next word, which issues with it as one unit (R61, R229). -/
def execDx (mode : DxMode) (mask : BitVec 4) (s : State) : Out :=
  match s.ctx with
  | none => .fault .noIssuer
  | some x => .next (s.updCoh x.ref (fun k => k.setPath x.isB ((k.path x.isB).map (fun p =>
      { p with cl := p.cl.map (fun cl => { cl with wi := cl.wi + 1, dx := some (mode, mask) }) }))))

/-- A destination register whose lane is tagged F64 must be even (R44, R231). -/
def pairFits (tag : Tag) (n : VNum) : Bool := tag != .f64 || n.toNat % 2 == 0

/-- A tangent word on vector registers that writes tangents only (R231): none is a format fault; else poison and the thread. -/
def tanWord (c : Ctl) (s : State) (srcs : List Src) (f : Ctx → Nat → Thread → Option (Bool × Thread)) : Out :=
  word c s (fun x =>
    match parityCheck x s srcs x.lanes with
    | .error e => e
    | .ok s1 =>
      let rs : AMap (Option (Bool × Thread)) := x.lanes.map (fun l => (l, (x.coh.thread l).bind (f x l)))
      let bad := lanesWhere rs (fun _ r => r.isNone)
      let ok : AMap (Bool × Thread) := rs.filterMap (fun p => p.2.map (fun r => (p.1, r)))
      let psn := lanesWhere ok (fun _ r => r.1)
      if bad ≠ 0#32 then .trap (Fz.of kFormat 0 bad)
      else if psn ≠ 0#32 then .trap (Fz.of kPoison 0 psn)
      else .done (s1.updCoh x.ref (fun k => ok.foldl (fun k p => k.setThread p.1 p.2.2) k)) .none)

/-- A lane of TGET on a vector register: the tangent becomes the primal, with the tag of SA. -/
def tgetLane (c : Ctl) (s : State) (k : Nat) (a : Src) (x : Ctx) (l : Nat) : Option LRes :=
  let e0 := x.el s.clk c.lit false l a
  let tag := e0.tag.getD .raw
  let e : Option El := if tag = .f64 then x.elFmt s.clk c.lit .f64 l a else some e0
  e.map (fun e => ⟨e.t k, tag == .f64, tag, [], e.tpsn.contains k, 0#3, false⟩)

/-- TGET on vector registers cleared of the tangents above DUALN too: in launch-wide mode every tangent of the destination
becomes 0 (R231). -/
def clearTans (x : Ctx) (d : Dst) (rs : AMap LRes) (k : Cohort) : Cohort :=
  match d with
  | .v n =>
    if x.blk.cfg.dualn = 0 then k
    else rs.foldl (fun k p => k.updThread p.1 (fun t =>
      t.putV n.toNat p.2.wide none (tanIdx.map (fun j => (j, 0#64, false))))) k
  | _ => k

/-- TGET (R231). -/
def execTget (c : Ctl) (k : BitVec 2) (d : Dst) (a : Src) (s : State) : Out :=
  match d with
  | .m _ => matWord (.tget c k d a) c s
  | _ => word c s (fun x =>
    let rs := x.lanes.map (fun l => (l, tgetLane c s (k.toNat + 1) a x l))
    match vecChecks x s 0 d [a] x.lanes rs with
    | .error e => e
    | .ok s1 =>
      let ok := okRes rs
      .done (s1.updCoh x.ref (fun k => clearTans x d ok (x.putLanes d ok k))) (x.latchVec d ok))

/-- TSET (R231). -/
def execTset (c : Ctl) (k : BitVec 2) (d : Dst) (a : Src) (s : State) : Out :=
  match d with
  | .v n => tanWord c s [a] (fun x l t =>
      let tag := (t.vreg n.toNat).tag
      if !pairFits tag n then none
      else (x.elFmt s.clk c.lit tag l a).map (fun e =>
        (e.psn, t.putV n.toNat (tag == .f64) none [(k.toNat + 1, e.val, false)])))
  | _ => matWord (.tset c k d a) c s

/-- TZERO (R231). -/
def execTzero (c : Ctl) (mask : BitVec 4) (d : Dst) (s : State) : Out :=
  match d with
  | .v n => tanWord c s [] (fun _ _ t =>
      let tag := (t.vreg n.toNat).tag
      if !pairFits tag n then none
      else some (false, t.putV n.toNat (tag == .f64) none ((maskTans mask).map (fun k => (k, 0#64, false)))))
  | _ => matWord (.tzero c mask d) c s

/-- TSEED (R231). -/
def execTseed (c : Ctl) (k : BitVec 2) (d : Dst) (s : State) : Out :=
  match d with
  | .v n => tanWord c s [] (fun _ _ t =>
      let tag := (t.vreg n.toNat).tag
      if !pairFits tag n || !tag.isFp then none
      else some (false, t.putV n.toNat (tag == .f64) none [(k.toNat + 1, tagOnes tag, false)]))
  | _ => matWord (.tseed c k d) c s

end Sys2Proof.Machine
end

