-- ==== Sys2Proof/Machine/Handler.lean ====
section
/-! DEFINITION. CLASS 0xD, the handler words (R322 to R331, R123): the fault record, the registers of a frozen cohort, resuming,
killing and giving back; with them the single step, the queue of fault records and the slots that take them (R314 to R318). -/

namespace Sys2Proof.Machine

/-! ## Capabilities (R316, R322) -/

/-- What a capability names: a frozen cohort, or a suspended copy with its fault. -/
inductive Target where
  | coh (r : CohRef) (b : Block) (c : Cohort) (f : Freeze)
  | copy (c : CopyT) (f : Freeze)
deriving DecidableEq, Repr

/-- A capability fault of the handler. -/
def capFault (x : Ctx) (code : Nat) : WRes := .trap (Fz.of kCap code x.exec)

/-- A word of CLASS 0xD: privileged (code 0x2D); a capability that is ended or unknown (code 0x01); a cohort that is being stepped
is waited for until it freezes and its accesses are performed, which this use acquires (R289, R329), and with `settle` one with register writes pending until they have landed (R328). -/
def capWord (c : Ctl) (s : State) (cap : Src) (settle : Bool) (go : Ctx → Cap → Target → WRes) : Out :=
  word c s (fun x =>
    if !x.blk.isHandler then .trap (Fz.of kProtection 0x2D x.exec)
    else
      match s.capOf x.blk.die (x.sca s.clk c.lit cap) with
      | none => capFault x 0x01
      | some k =>
        match k.what with
        | .copy id =>
          match s.copyT id with
          | some q => match q.susp with
            | some f => go x k (.copy q f)
            | none => capFault x 0x01
          | none => capFault x 0x01
        | .coh b i =>
          match s.block b, s.coh ⟨b, i⟩ with
          | some bk, some ch =>
            match ch.frz with
            | none => if ch.lanes.isEmpty then capFault x 0x01 else .wait s (x.wait s .regs (2 * k.num))
            | some f =>
              if !s.accessesDone ⟨b, i⟩ false then .wait s (x.wait s .regs (2 * k.num))
              else if settle && !s.regsSettled ⟨b, i⟩ then .wait s (x.wait s .regs (2 * k.num + 1)) else go x k (.coh ⟨b, i⟩ bk ch f)
          | _, _ => capFault x 0x01)

/-- A register word: a copy capability does not allow it (code 0x02). -/
def regCapWord (c : Ctl) (s : State) (cap : Src) (go : Ctx → CohRef → Block → Cohort → Freeze → WRes) : Out :=
  capWord c s cap true (fun x _ t => match t with
    | .copy _ _ => capFault x 0x02
    | .coh r b ch f => go x r b ch f)

/-- FINF (R324). -/
def execFinf (c : Ctl) (d : Dst) (cap : Src) (sel : BitVec 4) (s : State) : Out :=
  capWord c s cap false (fun x k _ => .async (s.addPend (x.pend s (.sysread (s.finf k.what sel.toNat)) (some d) .raw c.set [])))

/-! ## Vector registers (R325) -/

/-- A frozen vector register, or its tangent as a primal. -/
def frzV (t : Option Thread) (n k : Nat) : VReg :=
  match t with
  | none => VReg.zero
  | some t =>
    let r := t.vreg n
    if k = 0 then { r with tan := [], tpsn := [] } else ⟨r.tan.get k 0#32, r.tag, r.tpsn.contains k, [], []⟩

/-- A register of the frozen thread lies outside its allocation (R328). -/
def frzOut (b : Block) (wide : Bool) (n k : Nat) : Bool :=
  decide (b.cfg.vr ≤ n + (if wide then 1 else 0)) || decide (b.cfg.t < k)

/-- The frozen path, or an empty one when it has left its slot. -/
def frzPath (ch : Cohort) (f : Freeze) : Path := (ch.path f.isB).getD (mkPath f.hdr 0#32 none)

/-- The frozen cohort as the reader of its own operands. -/
def State.frzCtx (s : State) (r : CohRef) (b : Block) (ch : Cohort) (f : Freeze) : Option Ctx :=
  (s.grid b.grid).map (fun g => ⟨r, g, b, ch, frzPath ch f, f.isB, none⟩)

/-- What FRDV brings to the lanes of the handler: lane l, and 32 + l for the high register of a pair. -/
def frdvLanes (x : Ctx) (y : Ctx) (clk : Nat) (wide : Bool) (k : Nat) (r : Src) : AMap VReg :=
  let get (off l : Nat) : VReg := match r with
    | .v n => frzV (y.coh.thread l) (n.toNat + off) k
    | .special n => if (y.coh.thread l).isNone ∨ off = 1 then VReg.zero
        else { VReg.zero with val := (y.threadSpecial clk n l).setWidth 32 }
    | _ => VReg.zero
  x.lanes.map (fun l => (l, get 0 l)) ++ (if wide then x.lanes.map (fun l => (32 + l, get 1 l)) else [])

/-- FRDV. -/
def execFrdv (c : Ctl) (w : Bool) (k : BitVec 3) (d : Dst) (cap r : Src) (s : State) : Out :=
  regCapWord c s cap (fun x ref b ch f =>
    let out := match r with
      | .v n => frzOut b w n.toNat k.toNat
      | _ => false
    if out then .trap (Fz.of kProtection 0x2F x.exec)
    else
      match s.frzCtx ref b ch f with
      | none => capFault x 0x01
      | some y => .async (s.addPend (x.pend s (.regread (frdvLanes x y s.clk w k.toNat r) []) (some d) .raw c.set [])))

/-- A lane of FWRV: the frozen thread's register, its tangent or SEED. -/
def fwrvLane (w : Bool) (k : Nat) (r : Dst) (v : Src) (e : El) (hiTag : Tag) (t : Thread) : Thread :=
  match r with
  | .seed => { t with seed := e.val.setWidth 32 }
  | .v n =>
    if k = 0 then
      let t1 := t.setV n.toNat ((t.vreg n.toNat).put (some (e.val.setWidth 32, e.moved v, false)) [])
      if w then t1.setV (n.toNat + 1) ((t1.vreg (n.toNat + 1)).put (some (e.val.extractLsb' 32 32, hiTag, false)) []) else t1
    else t.putV n.toNat w none [(k, e.val, false)]
  | _ => t

/-- The tag that the high half of a lane's source carries: the odd register's own, else the low half's. -/
def Ctx.hiTag (x : Ctx) (l : Nat) (v : Src) (e : El) : Tag :=
  match v, x.coh.thread l with
  | .v n, some t => (t.vreg (n.toNat + 1)).tag
  | _, _ => e.moved v

/-- FWRV. -/
def execFwrv (c : Ctl) (w : Bool) (k : BitVec 3) (r : Dst) (cap v : Src) (s : State) : Out :=
  regCapWord c s cap (fun x ref b ch _ =>
    let out := match r with
      | .v n => frzOut b w n.toNat k.toNat
      | _ => false
    let ls := x.lanes.filter (fun l => (ch.thread l).isSome)
    if out then .trap (Fz.of kProtection 0x2F x.exec)
    else
      match parityCheck x s [v] ls with
      | .error e => e
      | .ok s1 =>
        let es := ls.map (fun l => (l, x.el s1.clk c.lit w l v))
        let psn := maskOf (AMap.keys (es.filter (fun p => p.2.psn)))
        if psn ≠ 0#32 then .trap (Fz.of kPoison 0 psn)
        else .done (s1.updCoh ref (fun q => es.foldl (fun q p =>
          q.updThread p.1 (fwrvLane w k.toNat r v p.2 (x.hiTag p.1 v p.2))) q)) .none)

/-! ## Scalar registers (R326) -/

/-- FRDS: as the frozen cohort would read it. -/
def execFrds (c : Ctl) (d : Dst) (cap r : Src) (s : State) : Out :=
  regCapWord c s cap (fun x ref b ch f =>
    match s.frzCtx ref b ch f with
    | none => capFault x 0x01
    | some y => .async (s.addPend (x.pend s (.sysread (y.sca s.clk none r)) (some d) .raw c.set [])))

/-- FWRS: a b write is logged (R346). -/
def execFwrs (c : Ctl) (r : Dst) (cap v : Src) (s : State) : Out :=
  regCapWord c s cap (fun x ref _ _ _ =>
    let val := x.sca s.clk c.lit v
    let s1 := s.putS ref r val
    .done (match r with
      | .b _ => s1.logRec ref 7 0 ((val.setWidth 32).setWidth 64)
      | _ => s1) .none)

/-! ## Matrix registers (R327) -/

/-- The descriptor of R189 as a word. -/
def descWord (m : MReg) : W32 :=
  BitVec.ofNat 32 (m.rows % 16 + (m.cols % 16) * 2 ^ 4 + m.tag.code.toNat * 2 ^ 8 + (if m.psn then 2 ^ 15 else 0)
    + (if m.kax then 2 ^ 16 else 0) + (m.tp % 8) * 2 ^ 17)

/-- A register is empty. -/
def MReg.isEmpty (m : MReg) : Bool := m.rows == 0 || m.cols == 0

/-- A frozen matrix register, or its tangent, as FRDM copies it. -/
def frzM (m : MReg) (k : Nat) : MReg :=
  if k = 0 then { m with tp := 0, tan := [] }
  else
    let z := zeroReg m.rows m.cols m.tag m.kax
    match m.tan.find k with
    | some el => { z with el := el }
    | none => z

/-- FRDM. -/
def execFrdm (c : Ctl) (k : BitVec 3) (d : Dst) (cap : Src) (r : MNum) (s : State) : Out :=
  regCapWord c s cap (fun x _ b ch _ =>
    if b.cfg.t < k.toNat then .trap (Fz.of kProtection 0x2F x.exec)
    else
      match d with
      | .m dm =>
        let ls := x.lanes.filter (fun l => (ch.thread l).isSome)
        let ms : AMap MReg := ls.filterMap (fun l => (ch.thread l).map (fun t => (l, t.mreg r.toNat)))
        let bad := maskOf (AMap.keys (ms.filter (fun p => p.2.isEmpty)))
        let new : AMap MReg := ms.map (fun p => (p.1, frzM p.2 k.toNat))
        let cap' := maskOf (AMap.keys (new.filter (fun p => match x.coh.thread p.1 with
          | some th => decide (x.blk.cfg.mtb < s.laneTiles x.ref p.1 th dm p.2)
          | none => false)))
        if bad ≠ 0#32 then .trap (Fz.of kFormat 0 bad)
        else if cap' ≠ 0#32 then .trap (Fz.of kMatCap 0 cap')
        else .async (s.addPend (x.pend s (.regread [] new) (some d) .raw c.set []))
      | _ =>
        let vs : AMap VReg := x.lanes.map (fun l => (l, match ch.thread l with
          | some t => { VReg.zero with val := descWord (t.mreg r.toNat) }
          | none => VReg.zero))
        .async (s.addPend (x.pend s (.regread vs []) (some d) .raw c.set [])))

/-- What FWRM writes: the primal, or a tangent of the frozen primal; none is a format fault. -/
def fwrmReg (k : Nat) (src old : MReg) : Option MReg :=
  if src.isEmpty then none
  else if k = 0 then some { src with psn := false, tp := 0, tan := [] }
  else if src.rows = old.rows ∧ src.cols = old.cols ∧ src.tag = old.tag ∧ (old.tag = .f32 ∨ old.tag = .f64) then
    some { old with tp := Nat.max old.tp k, tan := old.tan.set k src.el }
  else none

/-- FWRM. -/
def execFwrm (c : Ctl) (k : BitVec 3) (r : MNum) (cap : Src) (a : MNum) (s : State) : Out :=
  regCapWord c s cap (fun x ref b ch _ =>
    if b.cfg.t < k.toNat then .trap (Fz.of kProtection 0x2F x.exec)
    else
      match parityCheck x s [.m a] (x.lanes.filter (fun l => (ch.thread l).isSome)) with
      | .error e => e
      | .ok s1 =>
      let ls := x.lanes.filterMap (fun l => match x.coh.thread l, ch.thread l with
        | some h, some t => some (l, h.mreg a.toNat, t)
        | _, _ => none)
      let rs : AMap (Option MReg) := ls.map (fun p => (p.1, fwrmReg k.toNat p.2.1 (p.2.2.mreg r.toNat)))
      let bad := lanesWhere rs (fun _ m => m.isNone)
      let psn := maskOf ((ls.filter (fun p => p.2.1.psn)).map (·.1))
      let ok : AMap MReg := rs.filterMap (fun p => p.2.map (fun m => (p.1, m)))
      let big := lanesWhere ok (fun l m => match ch.thread l with
        | some t => decide (b.cfg.mtb < s1.laneTiles ref l t r m)
        | none => false)
      if bad ≠ 0#32 then .trap (Fz.of kFormat 0 bad)
      else if psn ≠ 0#32 then .trap (Fz.of kPoison 0 psn)
      else if big ≠ 0#32 then .trap (Fz.of kMatCap 0 big)
      else .done (s1.updCoh ref (fun q => ok.foldl (fun q p => q.updThread p.1 (fun t => t.setM r.toNat p.2)) q)) .none)

/-! ## Words given up (R60, R123, R129, R330) -/

/-- The bytes of GATHS lanes that are not sent leave their object, whose ABORT is set; the lanes no longer land. -/
def State.dropUnsent (s : State) (p : Pend) (m : W32) : State × Pend :=
  match p.kind with
  | .gaths dst obj =>
    let gone := dst.filter (fun l => m.getLsbD l.1 && !p.done.getLsbD l.1 && (p.lanes.find l.1).isNone)
    let n := gone.foldl (fun n l => l.2.foldl (fun n a => n + a.z) n) 0
    let p' : Pend := { p with kind := .gaths (dst.filter (fun l => !(AMap.keys gone).contains l.1)) obj }
    match obj with
    | some o => if n = 0 then (s, p') else (s.objUpd o (Obj.abandon n), p')
    | none => (s, p')
  | _ => (s, p)

/-- The operation of the word that a cohort is frozen at, when it has sent lanes. -/
def State.frzOp (s : State) (r : CohRef) : Option Pend :=
  match s.coh r with
  | some c => s.pathOp (c.frz.bind (fun f => if f.header || f.between then none else c.path f.isB))
  | none => none

/-- Nothing more of the frozen word is issued: its operation completes with what is in flight, and a count that no operation holds
is released (R60). -/
def State.abandonWord (s : State) (r : CohRef) : State :=
  let s1 := match s.frzOp r with
    | some p =>
      let q := s.dropUnsent p 0xFFFFFFFF#32
      let p' : Pend := { q.2 with more := false }
      if p'.lanes.isEmpty then (q.1.writeResult p').finishPend p' none else q.1.setPend p'
    | none =>
      match s.block r.blk, s.coh r with
      | some b, some c =>
        if c.rinc then
          (match (c.frz.bind (fun f => (c.path f.isB).bind (Path.word b.lim))).bind (fun i => i.ctl.bind (·.set)) with
            | some n => s.updCoh r (fun c => c.decCtr n)
            | none => s)
        else s
      | _, _ => s
  s1.updCoh r (fun c => { c with rpm := 0#32, rinc := false })

/-! ## FRSM (R329) -/

/-- The word of a clause at an index, with the prefix before it; none where no instruction word stands there. -/
def seekWord (lim : Lim) (target : Nat) : List W64 → Nat → Option (DxMode × BitVec 4) → Bool → Option (Option (DxMode × BitVec 4))
  | [], _, _, _ => none
  | w :: rest, n, dx, skip =>
    if skip then seekWord lim target rest (n + 1) none false
    else
      match decodeWord lim w (rest.headD 0#64) with
      | .error _ => none
      | .ok i =>
        match i with
        | .dx m k => if n = target then none else seekWord lim target rest (n + 1) (some (m, k)) false
        | _ => if n = target then some dx else seekWord lim target rest (n + 1) none i.usesLit

/-- The cohort runs again: not frozen. -/
def Cohort.thaw (c : Cohort) (step : Nat) : Cohort := { c with frz := none, step := step }

/-- The frozen path stands at a clause boundary: it has no clause, and it is the next of its cohort. -/
def Cohort.atHeader (c : Cohort) (f : Freeze) : Cohort :=
  { c.setPath f.isB ((c.path f.isB).map (fun p => { p with cl := none, wait := none })) with
    latch := []
    mid := false
    selB := !f.isB }

/-- The frozen path makes its arrival check (R238) and goes on. -/
def State.resumeHdr (s : State) (r : CohRef) (f : Freeze) (step : Nat) (g : Cohort → Cohort) (check : Bool) : State :=
  match s.block r.blk with
  | none => s
  | some b =>
    match b.coh r.coh with
    | none => s
    | some c =>
      let b1 := b.setCoh r.coh (g ((c.thaw step).atHeader f))
      s.putBlock r.blk b (if check then b1.pathBoundary r.coh f.isB else b1)

/-- The wait that a re-issued word keeps: the receive of an MRING that has sent, the operation of a word that has sent lanes. -/
def Path.keepRecv (p : Path) : Path := { p with wait := p.wait.filter (fun w => w.kind == .mringRecv || w.kind == .reply) }

/-- The frozen path stands before the word of a clause at which it goes on. -/
def Cohort.atWord (c : Cohort) (f : Freeze) (cl : Clause) : Cohort :=
  { c.setPath f.isB ((c.path f.isB).map (fun p => { p.keepRecv with cl := some cl })) with
    mid := true
    selB := f.isB
    rpm := c.rpm ||| c.pmask }

/-- The header freeze of a clause that cannot be issued. -/
def State.refreeze (s : State) (r : CohRef) (f : Freeze) (m : W32) (e : FetchErr) : State :=
  (((s.abandonWord r).updCoh r (fun c => (c.thaw 0).atHeader f))).freezeCoh r
    ⟨e.kind, e.code, e.level, e.widx, f.isB, f.hdr, e.va, true, false, []⟩ m 0#32 0#32

/-- A cohort frozen at a word fetches its clause again and issues the word at WIDX. -/
def State.retryWord (s : State) (r : CohRef) (b : Block) (f : Freeze) (step : Nat) : State :=
  match s.grid b.grid, (s.coh r).bind (fun c => c.path f.isB) with
  | some g, some p =>
    match s.fetchClause b.coreId g.pasid b.lim f.hdr with
    | (s1, .error e) => s1.refreeze r f p.mask e
    | (s1, .ok cl) =>
      match seekWord b.lim f.widx cl.words 1 none false with
      | none => s1.refreeze r f p.mask ⟨kIllClause, 0, 0, f.widx, f.hdr⟩
      | some dx => s1.updCoh r (fun c => (c.thaw step).atWord f { cl with wi := f.widx, dx := dx })
  | _, _ => s.updCoh r (fun c => c.thaw step)

/-- The cohort continues behind the word it is frozen at, between words. -/
def State.goOn (s : State) (r : CohRef) (f : Freeze) (step : Nat) : State :=
  match (s.coh r).bind (fun c => (c.path f.isB).bind (·.cl)) with
  | some cl => s.updCoh r (fun c => { (c.thaw step).atWord f cl with rpm := c.rpm })
  | none => s.resumeHdr r f step id true

/-- .retry and .step. -/
def State.frsmRetry (s : State) (r : CohRef) (b : Block) (f : Freeze) (step : Nat) : State :=
  if f.header then s.resumeHdr r f step id false
  else if f.between then s.goOn r f step
  else s.retryWord r b f step

/-- The latch entry that a skipped word pushes (R54). -/
def skipEntry (i : Instr) : LEnt :=
  match i.push with
  | .vec => .vec []
  | .sca => .sca 0#64 false
  | .none => .none

/-- .skip of a word: its entry, and the words behind it. -/
def State.skipWord (s : State) (r : CohRef) (b : Block) (f : Freeze) : State :=
  let s1 := s.abandonWord r
  s1.updCoh r (fun c =>
    match (c.path f.isB).bind (Path.word b.lim) with
    | some i =>
      let c1 := { c.thaw 0 with latch := pushLatch c.latch (skipEntry i), mid := true, selB := f.isB }
      c1.setPath f.isB ((c1.path f.isB).map (fun p => p.advance (if i.usesLit then 2 else 1)))
    | none => c.thaw 0)

/-- A position that cannot be skipped: of a kind that freezes at the header, and the header of a kind that freezes at a word. -/
def Freeze.noSkip (f : Freeze) : Bool := f.header || (!f.between && f.widx == 0)

/-- FRSM: a release of the handler's accesses, then the resume. -/
def frsmWord (c : Ctl) (s : State) (cap : Src) (go : Ctx → Cap → Target → WRes) : Out :=
  capWord c s cap false (fun x k t =>
    if !s.accessesDone x.ref false then .wait s (x.wait s .order 0) else go x k t)

/-- A suspended copy goes on at its restart offset (R123). -/
def State.restartCopy (s : State) (q : CopyT) : State := s.updCopy q.id (fun c => { c with susp := none })

/-- A cohort that runs again makes the arrival checks that its paths could not make while it was frozen (R238). -/
def State.arriveThawed (s : State) (r : CohRef) : State :=
  match s.block r.blk with
  | none => s
  | some b => s.putBlock r.blk b (((b.arriveSlot r.coh false).arriveSlot r.coh true).arriveSpill r.coh).boundary

/-- FRSM.retry. -/
def execFrsmRetry (c : Ctl) (cap : Src) (s : State) : Out :=
  frsmWord c s cap (fun x k t =>
    let s1 := s.endCap x.blk.die k.num
    match t with
    | .copy q _ => .done (s1.restartCopy q) .none
    | .coh r b _ f => .done ((s1.frsmRetry r b f 0).arriveThawed r) .none)

/-- FRSM.skip. -/
def execFrsmSkip (c : Ctl) (cap : Src) (s : State) : Out :=
  frsmWord c s cap (fun x k t =>
    match t with
    | .copy q _ => .done ((s.endCap x.blk.die k.num).abandonCopy q) .none
    | .coh r b _ f =>
      if f.noSkip then capFault x 0x03
      else
        let s1 := s.endCap x.blk.die k.num
        .done ((if f.between then s1.goOn r f 0 else s1.skipWord r b f).arriveThawed r) .none)

/-- FRSM.pc. -/
def execFrsmPc (c : Ctl) (cap pc : Src) (s : State) : Out :=
  frsmWord c s cap (fun x k t =>
    match t with
    | .copy _ _ => capFault x 0x02
    | .coh r _ _ f =>
      let dest := x.sca s.clk c.lit pc
      let s1 := (s.endCap x.blk.die k.num).abandonWord r
      .done ((s1.resumeHdr r f 0 (fun q => q.setPath f.isB ((q.path f.isB).map (fun p => { p with pc := dest }))) true).arriveThawed r) .none)

/-- FRSM.step: the capability stays. -/
def execFrsmStep (c : Ctl) (cap : Src) (s : State) : Out :=
  frsmWord c s cap (fun x _ t =>
    match t with
    | .copy _ _ => capFault x 0x02
    | .coh r b _ f => .done ((s.frsmRetry r b f 1).arriveThawed r) .none)

/-- The path that R239 would issue next, or one that is there. -/
def State.nextSlot (s : State) (b : Block) (c : Cohort) : Bool :=
  (s.nextPath b c).getD (if (c.path (!c.selB)).isSome then !c.selB else c.selB)

/-- The slot of the stepped path, when it is still in one. -/
def Cohort.stepped (c : Cohort) : Option Bool :=
  [false, true].find? (fun isB => (c.path isB).any (·.stp))

/-- Where a stepped cohort freezes: inside the clause at its next word, or at the boundary behind it, where the path makes its arrival
check; a path that has ended leaves the freeze to the one that R239 would issue next (R329). -/
def State.stepPoint (s : State) (b : Block) (coh : Nat) (c : Cohort) : Option (Block × Freeze) :=
  let fz (isB : Bool) (w : Nat) (pc : W64) : Freeze := ⟨kStep, 0, 0, w, isB, pc, 0#64, false, true, []⟩
  let at0 (b : Block) : Option (Block × Freeze) :=
    match b.coh coh with
    | none => none
    | some c =>
      let isB := (c.stepped).getD (s.nextSlot b { c with step := 0 })
      (c.path isB).map (fun p => (b, fz isB 0 p.pc))
  match c.stepped with
  | some isB => match c.path isB with
    | some p => match p.cl with
      | some cl =>
        if cl.wi ≤ cl.words.length then some (b, fz isB cl.wi p.pc)
        else at0 ((b.setCoh coh (c.closeClause isB (p.pc + BitVec.ofNat 64 (8 * (cl.words.length + 1))))).pathBoundary coh isB)
      | none => at0 b
    | none => at0 b
  | none => at0 b

/-- SINGLE_STEP_FREEZE: the cohort resumed by FRSM.step has issued its word. -/
def execSingleStepFreeze (blk coh : Nat) (s : State) : Out :=
  match s.block blk, s.coh ⟨blk, coh⟩ with
  | some b, some c =>
    if c.step < 2 ∨ c.frz.isSome ∨ b.saved then idle s
    else
      match s.stepPoint b coh c with
      | none => idle s
      | some (b1, f) =>
        .next (((s.putBlock blk b b1).updCoh ⟨blk, coh⟩ (fun c => c.mapPaths (fun p => { p with stp := false }))).freezeCoh ⟨blk, coh⟩ f
          0#32 0#32 0#32)
  | _, _ => idle s

/-! ## FKIL and FREL (R330, R331) -/

/-- The freeze of a cohort after some of its lanes are killed: the slot its path stands in, or, when the path is gone, the path that
R239 would issue next. -/
def Cohort.refrz (c : Cohort) (f : Freeze) (left : W32) : Cohort :=
  let at' (isB : Bool) : Bool := (c.path isB).map (·.mask) == some left
  if left ≠ 0#32 ∧ at' f.isB then c
  else if left ≠ 0#32 ∧ at' (!f.isB) then { c with frz := some { f with isB := !f.isB } }
  else
    let isB := if (c.path (!c.selB)).isSome then !c.selB else c.selB
    { c with
      frz := some { f with isB := isB, between := true, header := false, widx := 0, hdr := ((c.path isB).map (·.pc)).getD f.hdr }
      mid := false
      latch := [] }

/-- FKIL.lanes on a frozen cohort: FLANE loses the lanes killed. -/
def State.killLanes (s : State) (x : Ctx) (k : Cap) (r : CohRef) (ch : Cohort) (f : Freeze) (mask : W32) : State :=
  let m := ch.populated &&& mask
  let left := (frzPath ch f).mask &&& ~~~m
  let s1 := match s.frzOp r with
    | some p => let q := s.dropUnsent p m; q.1.setPend q.2
    | none => s
  if ch.populated &&& ~~~m = 0#32 then
    (((s1.endCap x.blk.die k.num).abandonWord r).updCoh r (fun c => c.thaw 0)).exitLanes r m
  else if m = 0#32 then s
  else
    let s2 := if left = 0#32 then s1.abandonWord r else s1
    (s2.exitLanes r m).updCoh r (fun c => { c.refrz f left with flane := c.flane &&& ~~~m })

/-- FKIL.lanes. -/
def execFkilLanes (c : Ctl) (cap p : Src) (s : State) : Out :=
  capWord c s cap false (fun x k t =>
    match t with
    | .copy q _ => .done ((s.endCap x.blk.die k.num).abandonCopy q) .none
    | .coh r _ ch f => .done (s.killLanes x k r ch f ((x.sca s.clk c.lit p).setWidth 32)) .none)

/-- FKIL.coh. -/
def execFkilCoh (c : Ctl) (cap : Src) (s : State) : Out :=
  capWord c s cap false (fun x k t =>
    match t with
    | .copy q _ => .done ((s.endCap x.blk.die k.num).abandonCopy q) .none
    | .coh r _ ch f => .done (s.killLanes x k r ch f 0xFFFFFFFF#32) .none)

/-- FKIL.grid: the handler goes with the grid. -/
def execFkilGrid (c : Ctl) (cap : Src) (s : State) : Out :=
  capWord c s cap false (fun _ _ t =>
    match t with
    | .copy q _ => .ctl (s.killGrid q.grid stKilled)
    | .coh _ b _ _ => .ctl (s.killGrid b.grid stKilled))

/-- FREL. -/
def execFrel (c : Ctl) (cap : Src) (s : State) : Out :=
  capWord c s cap false (fun x k _ => .done (s.freeCap x.blk.die k) .none)

/-! ## The fault queue and the slots (R317, R318) -/

/-- The handler placed for a record, in a handler slot or a nest slot. -/
def State.placeFor (s : State) (nest : Bool) (slot die core : Nat) (w : FRec) : State :=
  match w with
  | .coh b _ => match s.block b with
    | some bk => s.placeHandler nest slot die core bk.grid bk.bid w
    | none => s
  | .copy id => match s.copyT id with
    | some q => s.placeHandler nest slot die core q.grid q.bid w
    | none => s

/-- HELD_FAULT_ENQUEUE: the fault queue has room for the oldest held fault. -/
def execHeldFaultEnqueue (die : Nat) (s : State) : Out :=
  let d := s.die die
  match d.heldq with
  | [] => idle s
  | w :: r => if d.fq.length < fqMax then .next (s.setDie die { d with fq := d.fq ++ [w], heldq := r }) else idle s

/-- HANDLER_SLOT_TAKES_RECORD: a free handler slot of the die takes the oldest record. -/
def execHandlerSlotTakesRecord (die : Nat) (s : State) : Out :=
  let d := s.die die
  match d.fq, s.freeHslots die with
  | w :: r, (c, j) :: _ =>
    let s1 := s.setDie die { d with fq := r }
    .next (if s.recLive w then s1.placeFor false j die c w else s1)
  | _, _ => idle s

/-- NEST_SLOT_TAKES_FAULT: a free nest slot of the die takes the oldest fault that waits for one. -/
def execNestSlotTakesFault (die : Nat) (s : State) : Out :=
  let d := s.die die
  match d.nestq, s.pickNslot die with
  | w :: r, some j =>
    let s1 := s.setDie die { d with nestq := r }
    .next (if s.recLive w then s1.placeFor true j die 0 w else s1)
  | _, _ => idle s

/-! ## Landing (R322, R121, R333, R352) -/

/-- A scalar destination written by a landing, logged (R346). -/
def State.landS (s : State) (p : Pend) (v : W64) : State :=
  match p.dst with
  | some d => (s.putS p.ref d v).logRec p.ref 2 0 (BitVec.ofNat 64 (dstNum p.dst + 2 ^ 32 * p.exec.toNat))
  | none => s

/-- Registers of the handler written with the values read: lanes from 32 on are the high registers of pairs. -/
def regreadPut (d : Dst) (lanes : AMap VReg) (mats : AMap MReg) (c : Cohort) : Cohort :=
  match d with
  | .v n => lanes.foldl (fun c p => c.updThread (p.1 % 32) (fun t =>
      let i := n.toNat + p.1 / 32
      t.setV i ((t.vreg i).put (some (p.2.val, p.2.tag, p.2.psn)) (tanIdx.map (fun k => (k, 0#32, false)))))) c
  | .m n => mats.foldl (fun c p => c.updThread p.1 (fun t => t.setM n.toNat p.2)) c
  | _ => c

/-- What a mailbox word holds. -/
def Die.mailbox (d : Die) (j : BitVec 4) (w : BitVec 3) : W64 := d.mbx.get (8 * j.toNat + w.toNat) 0#64

/-- A cohort as its own reader, no path of it issuing. -/
def State.cohCtx (s : State) (r : CohRef) : Option Ctx :=
  match s.block r.blk, s.coh r with
  | some b, some c => (s.grid b.grid).map (fun g => ⟨r, g, b, c, mkPath 0#64 0#32 none, false, none⟩)
  | _, _ => none

/-- A read of the handler or system words lands. -/
def State.readLands (s : State) (p : Pend) : Option State :=
  match p.kind with
  | .sysread v => some ((s.landS p v).finishPend p none)
  | .regread ls ms => match p.dst with
    | some d => some ((s.updCoh p.ref (regreadPut d ls ms)).finishPend p none)
    | none => some (s.finishPend p none)
  | .mbxr j w => match s.block p.blk with
    | some b => some ((s.landS p ((s.die b.die).mailbox j w)).finishPend p none)
    | none => none
  | .bquery sel v => match s.cohCtx p.ref with
    | some x => some ((s.landS p (s.bquery x sel v)).finishPend p none)
    | none => some (s.finishPend p none)
  | _ => none

/-- HANDLER_OR_SYSTEM_READ_LANDS. -/
def execHandlerOrSystemReadLands (id : Nat) (s : State) : Out :=
  match s.pendOf id with
  | none => idle s
  | some p =>
    if s.isSaved p.blk ∨ s.partStopped p.ref then idle s
    else match s.readLands p with
      | some t => .next t
      | none => idle s

end Sys2Proof.Machine
end

