-- ==== Sys2Proof/Machine/System.lean ====
section
/-! DEFINITION. CLASS 0xE (R332 to R336, R351, R352): special registers by number, BRK and TRAP, the invalidations, the debug mailbox,
PSAMP and CKPT; checkpoints of a recorded block (R348). -/

namespace Sys2Proof.Machine

/-! ## Special registers (R333, R339, R370) -/

/-- Rounded up to a multiple. -/
def roundUp (n m : Nat) : Nat := (n + m - 1) / m * m

/-- The tangents T that a launch reserves (R147). -/
def LaunchRec.tans (l : LaunchRec) : Nat := Nat.max l.tdecl l.dualn
/-- The threads of a block of a launch record. -/
def LaunchRec.nt (l : LaunchRec) : Nat := l.bx * l.by' * l.bz
/-- The cohorts of `nt` threads (R25). -/
def cohorts (nt : Nat) : Nat := (nt + 31) / 32
/-- The scratchpad bytes of a block of `nt` threads (R294). -/
def LaunchRec.alloc (l : LaunchRec) (nt : Nat) : Nat := l.sb + nt * l.pfb + cohorts nt * 32 * l.spd
/-- IMG of R306. -/
def LaunchRec.img (l : LaunchRec) : Nat :=
  roundUp (4096 + l.alloc l.nt + cohorts l.nt * (8 * l.vr8 * 128 * (1 + l.tans) + 2048) + l.nt * l.mtb * 80) 4096

/-- RECCTL as the issuer reads it (R339): bit 0 is on for the recorded grid. -/
def State.recctlOf (s : State) (g : Grid) : W64 := (s.dbg.recctl &&& ~~~1#64) ||| (if g.recd then 1#64 else 0#64)

/-- A register of a machine-check bank (R370). -/
def Bank.reg (b : Bank) (r : Nat) : W64 :=
  match r with
  | 0 => b.status
  | 1 => b.addr
  | 2 => b.misc
  | 3 => b.ctl
  | 4 => b.count
  | _ => 0#64

/-- The partitions of a core that are stopped (R339). -/
def Core.stops (c : Core) : W64 := (List.range 4).foldl (fun m p => if (c.part p).stopped then m ||| (1#64 <<< p) else m) 0#64

/-- What SRD reads. -/
def State.srd (s : State) (x : Ctx) (n : Nat) : W64 :=
  let k := s.core x.blk.coreId
  let d := s.die x.blk.die
  if 0x200 ≤ n then (d.banks.get ((n - 0x200) / 8) Bank.zero).reg ((n - 0x200) % 8)
  else if 0x100 ≤ n ∧ n < 0x120 then k.bpc.get (n - 0x100) 0#64
  else if 0x120 ≤ n ∧ n < 0x124 then k.wpb.get (n - 0x120) 0#64
  else
    match n with
    | 0x000 => if x.blk.isHandler then 0xFFFFFFFF#64 else BitVec.ofNat 64 x.blk.base
    | 0x001 => x.grid.lrec.result
    | 0x002 => BitVec.ofNat 64 x.grid.lrec.img
    | 0x004 => x.grid.pasid.setWidth 64
    | 0x005 => x.grid.qn.setWidth 64
    | 0x008 => d.lifeh.setWidth 64
    | 0x010 => BitVec.ofNat 64 d.fq.length
    | 0x011 => BitVec.ofNat 64 (s.freeHslots x.blk.die).length
    | 0x012 => if x.blk.isNest then 1#64 else 0#64
    | 0x128 => (k.part x.coh.part).bphit.setWidth 64
    | 0x130 => k.stops
    | 0x140 => d.smpper.setWidth 64
    | 0x141 => d.smpdrop.setWidth 64
    | 0x150 => s.recctlOf x.grid
    | 0x160 => d.mbxst.setWidth 64
    | _ => 0#64

/-- SRD. -/
def execSrd (c : Ctl) (d : Dst) (n : BitVec 10) (s : State) : Out :=
  word c s (fun x => .async (s.addPend (x.pend s (.sysread (s.srd x n.toNat)) (some d) .raw c.set [])))

/-- A breakpoint or watchpoint register of a core written, its reserved bits zero (R339). -/
def State.putBelfry (s : State) (core n : Nat) (v : W64) : State :=
  let k := s.core core
  if 0x100 ≤ n ∧ n < 0x120 then s.setCore core { k with bpc := k.bpc.set (n - 0x100) (v &&& ~~~2#64) }
  else if 0x120 ≤ n ∧ n < 0x124 then s.setCore core { k with wpb := k.wpb.set (n - 0x120) (v &&& 0xF003FFFF0003FFFF#64) }
  else s

/-- A word that only a handler may issue (R322). -/
def privWord (c : Ctl) (s : State) (go : Ctx → WRes) : Out :=
  word c s (fun x => if !x.blk.isHandler then .trap (Fz.of kProtection 0x2D x.exec) else go x)

/-- SWR. -/
def execSwr (c : Ctl) (n : BitVec 10) (a : Src) (s : State) : Out :=
  privWord c s (fun x => .done (s.putBelfry x.blk.coreId n.toNat (x.sca s.clk c.lit a)) .none)

/-! ## BRK and TRAP (R334) -/

/-- BRK. -/
def execBrk (c : Ctl) (s : State) : Out := word c s (fun x => .trap (Fz.of kBrk 0 x.exec))
/-- TRAP. -/
def execTrap (c : Ctl) (n : BitVec 8) (s : State) : Out := word c s (fun x => .trap (Fz.of kTrap n.toNat x.exec))

/-! ## Invalidations (R335, R336) -/

/-- An invalidation: it waits for the cohort's earlier accesses, then acts. -/
def invWord (c : Ctl) (s : State) (go : Ctx → State) : Out :=
  privWord c s (fun x => if !s.accessesDone x.ref false then .wait s (x.wait s .tlb 0) else .done (go x) .none)

/-- TLBINV.page: every entry of the PASID that translates the page. -/
def execTlbinvPage (c : Ctl) (a : Src) (s : State) : Out :=
  invWord c s (fun x =>
    let va := x.sca s.clk c.lit a
    { s with tlb := s.tlb.filter (fun t => !(t.pasid == x.grid.pasid && t.page == pageOf va t.lg)) })

/-- TLBINV.pasid. -/
def execTlbinvPasid (c : Ctl) (s : State) : Out :=
  invWord c s (fun x => { s with tlb := s.tlb.filter (fun t => t.pasid != x.grid.pasid) })

/-- Two ranges of bytes meet. -/
def meets (a n b m : Nat) : Bool := decide (a < b + m) && decide (b < a + n)

/-- The cached words of a PASID without those of every clause that may overlap a range: a cached word is taken for the header of the
clause that begins at it. -/
def icDrop (ic : List (BitVec 20 × W64 × W64)) (pasid : BitVec 20) (va n : Nat) : List (BitVec 20 × W64 × W64) :=
  let hdrs := ic.filter (fun e => e.1 == pasid && meets e.2.1.toNat (8 * (hdrN e.2.2 + 1)) va n)
  ic.filter (fun e => !(e.1 == pasid && hdrs.any (fun h => meets e.2.1.toNat 8 h.2.1.toNat (8 * (hdrN h.2.2 + 1)))))

/-- ICINV.range. -/
def execIcinvRange (c : Ctl) (a n : Src) (s : State) : Out :=
  invWord c s (fun x =>
    let va := (x.sca s.clk c.lit a).toNat
    let cnt := (x.sca s.clk c.lit n).toNat
    if cnt = 0 then s
    else { s with cores := s.cores.map (fun k => (k.1, { k.2 with ic := icDrop k.2.ic x.grid.pasid va cnt })) })

/-- ICINV.all. -/
def execIcinvAll (c : Ctl) (s : State) : Out :=
  invWord c s (fun x => { s with cores := s.cores.map (fun k => (k.1,
    { k.2 with ic := k.2.ic.filter (fun e => e.1 != x.grid.pasid) })) })

/-! ## The mailbox and PSAMP (R344, R352) -/

/-- MBXR. -/
def execMbxr (c : Ctl) (acq : Bool) (d : Dst) (j : BitVec 4) (w : BitVec 3) (s : State) : Out :=
  word c s (fun x => .async (s.addPend { x.pend s (.mbxr j w) (some d) .raw c.set [] with acq := acq }))

/-- A mailbox word of a die written. -/
def State.putMbx (s : State) (die : Nat) (j : BitVec 4) (w : BitVec 3) (v : W64) : State :=
  s.setDie die { s.die die with mbx := (s.die die).mbx.set (8 * j.toNat + w.toNat) v }

/-- MBXW. -/
def execMbxw (c : Ctl) (post : Bool) (j : BitVec 4) (w : BitVec 3) (a : Src) (s : State) : Out :=
  word c s (fun x =>
    if post && !s.accessesDone x.ref false then .wait s (x.wait s .order 0)
    else
      let s1 := s.putMbx x.blk.die j w (x.sca s.clk c.lit a)
      let d := s1.die x.blk.die
      .done (if post then s1.setDie x.blk.die { d with mbxst := d.mbxst ||| (1#16 <<< j.toNat) } else s1) .none)

/-- PSAMP: without a sample buffer it has no effect. -/
def execPsamp (c : Ctl) (a : Option Src) (s : State) : Out :=
  word c s (fun x =>
    let t : BitVec 16 := match a with
      | some a => (x.sca s.clk c.lit a).setWidth 16
      | none => 0#16
    .done (if (s.die x.blk.die).smpsize = 0 then s else s.updCoh x.ref (fun k => { k with psamp := some t })) .none)

/-! ## Checkpoints (R347, R348) -/

/-- The clauses a block has retired. -/
def Block.retiredClauses (b : Block) : Nat := b.cohs.foldl (fun n c => n + c.2.ncls) 0

/-- CKPTN of RECCTL. -/
def State.ckptn (s : State) : Nat := bitsAt s.dbg.recctl.toNat 32 32

/-- A checkpoint of the block is due: CKPT has asked for one, or its retired clauses have crossed a multiple of CKPTN. -/
def State.ckptDue (s : State) (b : Block) : Bool :=
  b.logr.isSome && s.recording b.grid
  && (b.ckw || (s.ckptn != 0 && decide (b.ckat / s.ckptn < b.retiredClauses / s.ckptn)))

/-- Every cohort of the block stands at a clause boundary, in a wait or frozen. -/
def Block.held (b : Block) : Bool :=
  b.cohs.all (fun c => !c.2.mid || c.2.frz.isSome || c.2.lanes.isEmpty
    || (((c.2.path c.2.selB).bind (·.wait)).map (fun w => !w.released)).getD false)

/-- The kept states of a block from its oldest kept checkpoint on, when CKDEPTH checkpoints are kept. -/
def trimSnaps (depth blk : Nat) (l : List Snap) : List Snap :=
  let n := (l.filter (fun q => q.blk == blk && q.ck)).length
  let drop := n - depth
  let cut := ((l.filter (fun q => q.blk == blk && q.ck)).drop drop).head?
  match cut with
  | some q => if drop = 0 then l else l.filter (fun z => z.blk != blk || decide (q.nlog ≤ z.nlog))
  | none => l.filter (fun z => z.blk != blk)

/-- A checkpoint of a block: the image in the ring of its region, the log entry, the header's count of entries before the oldest
checkpoint that remains; the cohorts go on. -/
def State.checkpoint (s : State) (blk : Nat) : State :=
  match s.block blk with
  | none => s
  | some b =>
    match s.grid b.grid, b.logr with
    | some g, some i =>
      let depth := s.dbg.ckdepth.toNat
      let size := g.lrec.img + 64
      let at' := s.dbg.ckbase.toNat + (i * depth + b.ckn % Nat.max depth 1) * size
      let s0 := s.setBlock blk { b with ckw := false, ckat := b.retiredClauses, ckn := b.ckn + 1 }
      let s1 := ((s0.snap blk true).putFree .phys (s.physLoc at') size).logRec ⟨blk, 0⟩ 8 0 0#64
      let kept := trimSnaps depth blk s1.dbg.snaps
      let first := ((kept.find? (fun q => q.blk == blk && q.ck)).map (·.nlog)).getD 0
      let s2 : State := { s1 with dbg := { s1.dbg with snaps := kept } }
      if s2.recording b.grid then
        s2.writeBytes .phys (s2.physLoc (s.dbg.logbase.toNat + i * s.dbg.logstride.toNat + 24)) (leBytes 8 first)
      else s2
    | _, _ => s

/-- CKPT: the block's cohorts are held at their next boundaries for the checkpoint; no effect without recording. -/
def execCkpt (c : Ctl) (s : State) : Out :=
  word c s (fun x =>
    .done (if x.blk.logr.isSome && x.grid.recd then s.setBlock x.ref.blk { x.blk with ckw := true } else s) .none)

/-- AUTO_CHECKPOINT: a checkpoint that is due is taken once the block's cohorts are held. -/
def execAutoCheckpoint (blk : Nat) (s : State) : Out :=
  match s.block blk with
  | none => idle s
  | some b =>
    if !s.ckptDue b || b.saved then idle s
    else if b.held then .next (s.checkpoint blk)
    else if b.ckw then idle s
    else .next (s.setBlock blk { b with ckw := true })

end Sys2Proof.Machine
end

