-- ==== Sys2Proof/Machine/Queue.lean ====
section
/-! DEFINITION. The host work queues (R376 to R383): queue control blocks and their cache, the state a queue shows, completion words,
and how a command ends. -/

namespace Sys2Proof.Machine

def State.queue (s : State) (q : Nat) : Queue := s.host.queues.get q Queue.zero
def State.setQueue (s : State) (q : Nat) (x : Queue) : State := { s with host := { s.host with queues := s.host.queues.set q x } }

/-- The PASID a queue is bound to (R378). -/
def Queue.pasid (q : Queue) : BitVec 20 := q.binding.extractLsb' 0 20

/-! ## Queue control blocks (R376, R377) -/

/-- The fields of a queue control block that the device reads. -/
structure Qcb where
  valid : Bool
  pres  : Bool
  pcap  : Nat
  log2n : Nat
  ring  : W64
deriving DecidableEq, Repr

/-- A block from its eight words. -/
def qcbOf (ws : List W64) : Qcb where
  valid := (ws.getD 1 0#64).getLsbD 0
  pres := (ws.getD 1 0#64).getLsbD 1
  pcap := bitsAt (ws.getD 1 0#64).toNat 16 8
  log2n := bitsAt (ws.getD 1 0#64).toNat 24 8
  ring := ws.getD 2 0#64

/-- Where the block of a queue lies, by its first-level entry (R376): none while the entry is not valid or not present. -/
def State.qcbAddr (s : State) (q : Nat) : State × Option Nat :=
  let e := s.pasidEntry (s.queue q).pasid
  let lo := e.2.1
  if lo.getLsbD 0 && lo.getLsbD 1 then (e.1, e.1.physAddr ((lo >>> 20 <<< 20).toNat + 64 * q)) else (e.1, none)

/-- The words of a block in memory. -/
def State.qcbWords (s : State) (a : Nat) : List W64 := (List.range 8).map (fun i => BitVec.ofNat 64 (s.readNat .phys (a + 8 * i) 8))

/-- The block of a queue: as the I/O die caches it, else read from memory and, when it is valid, marked and cached. -/
def State.qcb (s : State) (q : Nat) : State × Option Qcb :=
  match (s.queue q).entry with
  | some ws => (s, some (qcbOf ws))
  | none =>
    match s.qcbAddr q with
    | (s1, none) => (s1, none)
    | (s0, some a) =>
      let s1 := s0.readCheck .phys a 64
      let ws := s1.qcbWords a
      if (ws.getD 1 0#64).getLsbD 0 then
        let s2 := s1.writeBytes .phys (a + 8) [((ws.getD 1 0#64) ||| 4#64).setWidth 8]
        (s2.setQueue q { s2.queue q with entry := some ws }, some (qcbOf ws))
      else (s1, some (qcbOf ws))

/-- STATE of a block (R377). -/
def Queue.showState (q : Queue) : Nat := if q.state = 2 then 2 else if q.bound ∧ (q.head ≠ q.tail ∨ !q.cmds.isEmpty) then 1 else 0

/-- HEAD, ERR and STATE as the device keeps them, written into the block (R377). -/
def State.syncQcb (s : State) (q : Nat) : State :=
  match s.qcbAddr q with
  | (s1, some a) =>
    let x := s1.queue q
    let s2 := s1.writeBytes .phys (a + 9) [BitVec.ofNat 8 x.showState]
    let s3 := s2.writeBytes .phys (a + 12) (leBytes 4 x.err)
    s3.writeBytes .phys (a + 24) (leBytes 8 x.head)
  | (s1, none) => s1

/-- A queue changed, with its block. -/
def State.updQueue (s : State) (q : Nat) (f : Queue → Queue) : State := (s.setQueue q (f (s.queue q))).syncQcb q

/-- The queue stops with a status (R383): commands that have not started do not. -/
def State.queueError (s : State) (q st : Nat) : State :=
  s.updQueue q (fun x => { x with state := 2, err := st, cmds := x.cmds.filter (·.began) })

/-! ## Commands -/

/-- The addresses a command names are the host's accesses: translated in the I/O die's unit (R93). -/
def State.hostAddr (s : State) (q : Nat) (va : W64) (ac : Access) : State × Except XFault Nat :=
  s.translate ioUnit (s.queue q).pasid va ac

/-- One byte of host-plane data read, written. -/
def State.hostByte (s : State) (q : Nat) (va : W64) (ac : Access) : State × Except XFault Byte :=
  match s.hostAddr q va ac with
  | (s1, .error f) => (s1, .error f)
  | (s1, .ok a) =>
    let s2 := s1.readCheck .phys a 1
    (s2, .ok (s2.byte .phys a))

/-- `n` bytes one by one: a range that crosses a page. -/
def State.hostBytes (q : Nat) (ac : Access) : Nat → W64 → State → State × Except XFault (List Byte)
  | 0, _, s => (s, .ok [])
  | n + 1, va, s =>
    match s.hostByte q va ac with
    | (s1, .error f) => (s1, .error f)
    | (s1, .ok b) => match State.hostBytes q ac n (va + 1#64) s1 with
      | (s2, .error f) => (s2, .error f)
      | (s2, .ok bs) => (s2, .ok (b :: bs))

/-- An 8-byte word read for a command (R382): one access when it is aligned. -/
def State.hostWord (s : State) (q : Nat) (va : W64) (ac : Access) : State × Except XFault W64 :=
  if va.toNat % 8 = 0 then
    match s.hostAddr q va ac with
    | (s1, .error f) => (s1, .error f)
    | (s1, .ok a) =>
      let s2 := s1.readCheck .phys a 8
      (s2, .ok (BitVec.ofNat 64 (s2.readNat .phys a 8)))
  else
    match State.hostBytes q ac 8 va s with
    | (s1, .error f) => (s1, .error f)
    | (s1, .ok bs) => (s1, .ok (BitVec.ofNat 64 (leNat bs)))

/-- `n` words from an address on. -/
def State.hostRead (q : Nat) : Nat → W64 → State → State × Except XFault (List W64)
  | 0, _, s => (s, .ok [])
  | n + 1, va, s =>
    match s.hostWord q va .read with
    | (s1, .error f) => (s1, .error f)
    | (s1, .ok w) => match State.hostRead q n (va + 8#64) s1 with
      | (s2, .error f) => (s2, .error f)
      | (s2, .ok ws) => (s2, .ok (w :: ws))

/-- A word written for a command: reservations on it are lost, poison is cleared as any write clears it; false on a fault. -/
def State.hostPut (s : State) (q : Nat) (va v : W64) (ac : Access) : State × Bool :=
  if va.toNat % 8 = 0 then
    match s.hostAddr q va ac with
    | (s1, .error _) => (s1, false)
    | (s1, .ok a) => (s1.writeEl .phys a 8 v false, true)
  else
    (List.range 8).foldl (fun (r : State × Bool) i =>
      if !r.2 then r
      else match r.1.hostAddr q (va + BitVec.ofNat 64 i) ac with
        | (s1, .error _) => (s1, false)
        | (s1, .ok a) => (s1.writeEl .phys a 1 ((v >>> (8 * i)) &&& 0xFF#64) false, true)) (s, true)

/-- An 8-byte store of the command plane. -/
def State.hostWrite (s : State) (q : Nat) (va v : W64) : State × Bool := s.hostPut q va v .write

def State.cmdOf (s : State) (q id : Nat) : Option Cmd := (s.queue q).cmds.find? (fun c => c.id == id)

/-- Byte `i` of a command slot, and a field of bytes (R381). -/
def Cmd.byte (c : Cmd) (i : Nat) : Nat := bitsAt (c.words.getD (i / 8) 0#64).toNat (8 * (i % 8)) 8
def Cmd.w32 (c : Cmd) (i : Nat) : Nat := bitsAt (c.words.getD (i / 8) 0#64).toNat (8 * (i % 8)) 32
def Cmd.w64 (c : Cmd) (i : Nat) : W64 := c.words.getD (i / 8) 0#64

/-- The status stops its queue (R383). -/
def stStops (st : Nat) : Bool := st == 0x12 || st == 0x13 || st == 0x15

/-- A command ends with a status (R382, R383): its completion word, when it asks for one, and the queue afterwards. -/
def State.cmdEnd (s : State) (q id st : Nat) : State :=
  match s.cmdOf q id with
  | none => s
  | some c =>
    let w : W64 := BitVec.ofNat 64 (st % 2 ^ 16 + 2 ^ 16 + c.w32 4 * 2 ^ 32)
    let r : State × Bool := if c.flags.getLsbD 1 ∧ (c.w64 8).toNat % 8 = 0 then s.hostWrite q (c.w64 8) w else (s, true)
    let st' := if r.2 then st else 0x12
    let s1 := r.1.updQueue q (fun x => { x with cmds := x.cmds.filter (fun k => k.id != id) })
    if stStops st' then s1.queueError q st' else s1

/-- A command starts: HEAD moves to the next slot. -/
def State.cmdBegin (s : State) (q id : Nat) : State :=
  s.updQueue q (fun x =>
    { x with
      head := (x.head + 1) % 2 ^ 32
      cmds := x.cmds.map (fun c => if c.id = id then { c with began := true, since := s.clk } else c) })

/-- Whether a command waits for every earlier one (R382). -/
def Cmd.fb (c : Cmd) : Bool := c.flags.getLsbD 0 || c.op == 5 || c.op == 6 || c.op == 7

/-- A command of the queue that may start now: fetched, not started, the queue enabled and running, and with FB the first one left. -/
def State.cmdReady (s : State) (q id op : Nat) : Option Cmd :=
  match s.cmdOf q id with
  | some c =>
    if !c.began && c.op == op && (s.queue q).state != 2 && (s.queue q).bound && !s.pow.fatal && s.pow.on
        && (!c.fb || ((s.queue q).cmds.head?).map (·.id) == some id) then some c else none
  | none => none

/-- A fatal error ends every outstanding LAUNCH, COPY and SELFTEST (R372, R383). -/
def State.fatalCmds (s : State) : State :=
  (AMap.keys s.host.queues).foldl (fun s q =>
    ((s.queue q).cmds.filter (fun c => c.began && (c.op == 1 || c.op == 2 || c.op == 6))).foldl (fun s c => s.cmdEnd q c.id 0x11) s) s

end Sys2Proof.Machine
end

