-- ==== Sys2Proof/Machine/Launch.lean ====
section
/-! DEFINITION. Placement and residency (R292 to R307): what a core has free, the order in which blocks, task cohorts and rotated
blocks are placed, SPAWN and the packing units (R299 to R301), compaction, rotation, the save and restore of a block (R320, R321),
pre-emption (R385), and the end of a grid (R298). -/

namespace Sys2Proof.Machine

/-! ## What a core has (R294) -/

/-- The tiles and barrier slots of a core that are held. -/
def State.heldTiles (s : State) (core : Nat) : Nat := (s.placed core).foldl (fun n b => n + b.2.live.length * b.2.cfg.mtb) 0
def State.heldBar (s : State) (core : Nat) : Nat := (s.placed core).foldl (fun n b => n + if b.2.cfg.bslot then 1 else 0) 0

/-- The allocations of a core: base and size, ascending. -/
def State.allocs (s : State) (core : Nat) : AMap Nat := (s.placed core).foldl (fun m b => if b.2.size = 0 then m else AMap.set m b.2.base b.2.size) []

/-- The lowest free run of `n` bytes from an offset on, before the allocations given. -/
def firstRun (n : Nat) : Nat → AMap Nat → Option Nat
  | o, [] => if o + n ≤ 262144 then some o else none
  | o, a :: r => if o + n ≤ a.1 then some o else firstRun n (Nat.max o (a.1 + a.2)) r

/-- The cohort places of a core that are taken: partition and slot. A block keeps the places it took until it ends or is saved, those of
retired cohorts too (R252). -/
def State.places (s : State) (core : Nat) : List (Nat × Nat) :=
  (s.placed core).flatMap (fun b => b.2.cohs.map (fun c => (c.2.part, c.2.cslot)))

/-- The partition the next cohort goes to: the fewest cohorts, the lowest PART. -/
def pickPart (pl : List (Nat × Nat)) : Nat :=
  let n (p : Nat) : Nat := (pl.filter (fun q => q.1 == p)).length
  [1, 2, 3].foldl (fun m p => if n p < n m then p else m) 0

/-- The lowest free cohort slot of a partition. -/
def pickSlot (pl : List (Nat × Nat)) (p : Nat) : Option Nat := (List.range 8).find? (fun k => !pl.contains (p, k))

/-- Places for `n` more cohorts, in their order. -/
def pickPlaces : Nat → List (Nat × Nat) → Option (List (Nat × Nat))
  | 0, _ => some []
  | n + 1, pl =>
    let p := pickPart pl
    match pickSlot pl p with
    | none => none
    | some k => (pickPlaces n ((p, k) :: pl)).map ((p, k) :: ·)

/-- What a block needs: its threads, the cohorts that hold segments, its cohort places, its scratchpad bytes. -/
structure Need where
  cfg  : BCfg
  nt   : Nat
  ncoh : Nat
  np   : Nat
  size : Nat
deriving DecidableEq, Repr

/-- The sizes of a block of a launch record. -/
def LaunchRec.cfg (l : LaunchRec) : BCfg := ⟨8 * l.vr8, l.tans, l.mtb, l.sb, l.pfb, l.spd, l.bslot == 1, l.dualn⟩

/-- What a block of `nt` threads of a launch record needs. -/
def LaunchRec.need (l : LaunchRec) (nt : Nat) : Need := ⟨l.cfg, nt, cohorts nt, cohorts nt, l.alloc nt⟩

/-- Everything but the scratchpad run is free on a core. -/
def State.roomBut (s : State) (core : Nat) (n : Need) : Bool :=
  decide (s.heldSegs core + n.cfg.segs * n.ncoh ≤ 256) && decide (s.heldTiles core + n.nt * n.cfg.mtb ≤ 4096)
  && decide (s.heldBar core + (if n.cfg.bslot then 1 else 0) ≤ 16) && decide ((s.placed core).length < 16)
  && (pickPlaces n.np (s.places core)).isSome

/-- The core takes work: not fenced, not under self-test (R373); with `any`, self-test is left out of account. -/
def State.coreOpen (s : State) (core : Nat) (any : Bool) : Bool := !(s.core core).fenced && (any || !(s.core core).testing)

/-- A block fits a core now: where its allocation would begin. -/
def State.fits (s : State) (core : Nat) (n : Need) (any : Bool) : Option Nat :=
  if s.coreOpen core any && s.roomBut core n then firstRun n.size 0 (s.allocs core) else none

/-- A block of the need fits an empty core (R293). -/
def Need.fitsEmpty (n : Need) : Bool :=
  decide (n.cfg.segs * n.ncoh ≤ 256) && decide (n.nt * n.cfg.mtb ≤ 4096) && decide (n.size ≤ 262144)

/-- The fitting core with the lowest load of a list, ties to the lower (R295). -/
def State.bestCore (s : State) (cs : List Nat) (n : Need) (any : Bool) : Option Nat :=
  cs.foldl (fun m c => if (s.fits c n any).isNone then m else match m with
    | none => some c
    | some d => if s.heldSegs c < s.heldSegs d then some c else some d) none

/-- The cores of a die, of a cluster of a die. -/
def dieCores (d : Nat) : List Nat := (List.range 256).map (fun c => 256 * d + c)
def clusCores (d c : Nat) : List Nat := (List.range 64).map (fun i => 256 * d + 64 * c + i)

/-- The core on a die: of the preferred cluster first (R295, R296). -/
def State.coreOn (s : State) (d : Nat) (clus : Option Nat) (n : Need) (any : Bool) : Option Nat :=
  match clus.bind (fun c => s.bestCore (clusCores d c) n any) with
  | some c => some c
  | none => s.bestCore (dieCores d) n any

/-- The load of a die. -/
def State.dieLoad (s : State) (d : Nat) : Nat := (dieCores d).foldl (fun n c => n + s.heldSegs c) 0

/-- The dies, by load and index. -/
def State.diesByLoad (s : State) : List Nat :=
  let ins (l : List Nat) (d : Nat) : List Nat :=
    l.takeWhile (fun e => decide (s.dieLoad e ≤ s.dieLoad d)) ++ d :: l.dropWhile (fun e => decide (s.dieLoad e ≤ s.dieLoad d))
  [0, 1, 2, 3].foldl ins []

/-! ## Affinity (R296, R301) -/

/-- The machine once the tables that an affinity address is translated through have been read (R96, R97): errors in them are found. -/
def State.peekCheck (s : State) (unit : Nat) (pasid : BitVec 20) (va : W64) : State :=
  let e := (s.pasidEntry pasid).2
  match s.physAddr e.2.toNat with
  | some base => if e.1.getLsbD 0 then s.walkCheck unit pasid va base else s
  | none => s

/-- Where a virtual address lies, with no permission asked and no A bit set; a table that cannot be read gives no place. -/
def State.peek (s0 : State) (unit : Nat) (pasid : BitVec 20) (va : W64) : Option Nat :=
  if va.extractLsb' 55 9 ≠ 0#9 then none
  else
    let s := s0.peekCheck unit pasid va
    let q := s.pasidEntry pasid
    let root := q.2.2
    if !q.2.1.getLsbD 0 || root.extractLsb' 0 16 != 0#16 || root.extractLsb' 52 12 != 0#12 then none
    else
      match s.physAddr root.toNat with
      | none => none
      | some base => match walkLevels s unit pasid va base 2 [] with
        | .error _ => none
        | .ok (_, e, lv, _) => s.physAddr (leafAddr e va lv)

/-- The die and cluster an affinity address prefers: those of its HBM4E stack and channel. -/
def State.affHome (s : State) (pasid : BitVec 20) (va : W64) : Option (Nat × Nat) :=
  ((s.peek ioUnit pasid va).bind hbmPlace).map (fun p => (p.1, (p.2.1 % 2 * 32 + p.2.2) / 16))

/-! ## The blocks of a grid's index space (R24, R295, R296) -/

/-- The affinity address of a block (R296). -/
def Grid.affAddr (g : Grid) (bl : Nat) : W64 := g.lrec.affbase + BitVec.ofNat 64 bl * g.lrec.affstr

/-- The blocks of a grid. -/
def LaunchRec.total (l : LaunchRec) : Nat := l.gx * l.gy * l.gz

/-- The home of block `bl`: none for dense placement. -/
def State.homeOf (s : State) (g : Grid) (bl : Nat) : Option (Nat × Nat) :=
  if g.lrec.aff then s.affHome g.pasid (g.affAddr bl) else none

/-- The first block not yet placed, from `bl` on, of a sequence: of a die, or the dense one. -/
def State.nextOf (s : State) (g : Grid) (seq : Option Nat) : Nat → Nat → Option Nat
  | 0, _ => none
  | n + 1, bl =>
    if !g.ahead.contains bl && ((s.homeOf g bl).map (·.1)) == seq then some bl else s.nextOf g seq n (bl + 1)

/-- The next block of a sequence. -/
def State.nextBlock (s : State) (g : Grid) (seq : Option Nat) : Option Nat :=
  if g.lrec.aff then s.nextOf g seq (g.lrec.total - g.next) g.next
  else if seq = none ∧ g.next < g.lrec.total then some g.next else none

/-- A block counted as placed: `next` is the first that is not, `ahead` those placed above it. -/
def Grid.markPlaced (g : Grid) (bl : Nat) : Grid :=
  let rec skip : Nat → List Nat → Nat × List Nat
    | n, [] => (n, [])
    | n, a :: r => if a = n then skip (n + 1) r else (n, a :: r)
  let r := skip g.next (setIns g.ahead bl)
  { g with next := r.1, ahead := r.2 }

/-- The block indices of a linear index (R295). -/
def LaunchRec.bid (l : LaunchRec) (bl : Nat) : W32 × W32 × W32 :=
  (BitVec.ofNat 32 (bl % l.gx), BitVec.ofNat 32 (bl / l.gx % l.gy), BitVec.ofNat 32 (bl / (l.gx * l.gy)))

/-! ## Items to place (R295, R301, R304) -/

/-- What a grid offers a die next: a task cohort, a block of its index space, a rotated block. -/
inductive Item where
  | task (seq : Nat) (clus : Option Nat)
  | block (bl : Nat) (clus : Option Nat)
  | rotated (blk : Nat)
deriving DecidableEq, Repr

/-- The lowest number among the launched task cohorts of a grid that wait on a die. -/
def State.nextTask (s : State) (gid d : Nat) : Option Item :=
  ((s.die d).tq.filter (fun t => t.grid == gid)).foldl (fun (m : Option Item) t => match t.seq, m with
    | none, m => m
    | some n, some (.task k c) => if n < k then some (.task n t.clus) else some (.task k c)
    | some n, _ => some (.task n t.clus)) none

/-- Every saved access of a block has been performed, and every reply it awaits has been written (R60, R291). -/
def State.imageSettled (s : State) (blk : Nat) : Bool :=
  !s.pend.any (fun p => p.blk == blk && (match p.kind with
    | .matrix _ => false
    | .load .fe _ | .load .feClr _ | .store .fe _ => false
    | .sysread _ | .regread _ _ | .mbxr _ _ | .bquery _ _ | .pref _ => true
    | _ => !p.lanes.isEmpty))

/-- What a grid offers a die (R301, R304): task cohorts first, then its blocks, the lower of the die's own sequence and of the dense one
(R295), then, when every block has run once, the block that
was rotated first. -/
def State.offer (s : State) (gid : Nat) (g : Grid) (d : Nat) : Option Item :=
  match s.nextTask gid d with
  | some i => some i
  | none =>
    match s.nextBlock g (some d), s.nextBlock g none with
    | some bl, some bd => if bl < bd then some (.block bl ((s.homeOf g bl).map (·.2))) else some (.block bd none)
    | some bl, none => some (.block bl ((s.homeOf g bl).map (·.2)))
    | none, some bl => some (.block bl none)
    | none, none =>
      if g.next < g.lrec.total ∨ s.dies.any (fun e => e.2.tq.any (fun t => t.grid == gid && t.seq.isSome)) then none
      else match g.rot with
        | b :: _ => if s.imageSettled b then some (.rotated b) else none
        | [] => none

/-- The records of a launched task cohort. -/
def State.taskGroup (s : State) (gid d seq : Nat) : List Task :=
  (s.die d).tq.filter (fun t => t.grid == gid && t.seq == some seq)

/-- A neighbour-bound block's own cohort places are free on its core (R269). -/
def State.placesFree (s : State) (b : Block) : Bool :=
  b.cohs.all (fun c => !(s.places b.coreId).contains (c.2.part, c.2.cslot))

/-- What a saved block needs: the threads and cohorts that are left, and as many cohort places as it had (R252). -/
def Block.need (b : Block) : Need := ⟨b.cfg, b.live.length, b.holding.length, b.cohs.length, b.size⟩

/-- The core of a die that an item fits. -/
def State.itemCore (s : State) (gid : Nat) (g : Grid) (d : Nat) (any : Bool) : Item → Option Nat
  | .task seq clus => s.coreOn d clus (g.lrec.need (s.taskGroup gid d seq).length) any
  | .block _ clus => s.coreOn d clus (g.lrec.need g.lrec.nt) any
  | .rotated blk => match s.block blk with
    | none => none
    | some b =>
      if b.nb then
        (if b.die = d ∧ s.placesFree b ∧ (s.fits b.coreId b.need any).isSome then some b.coreId else none)
      else s.coreOn d none b.need any

/-- The grid has an item that waits, launched task cohorts and rotated blocks among them. -/
def State.hasItem (s : State) (gid : Nat) (g : Grid) : Bool :=
  g.stat == .running && (decide (g.next < g.lrec.total) || !g.rot.isEmpty
    || s.dies.any (fun e => e.2.tq.any (fun t => t.grid == gid && t.seq.isSome)))

/-- The grid's next item fits a core of the die: the item and the core. -/
def State.offerFit (s : State) (gid : Nat) (g : Grid) (d : Nat) (any : Bool) : Option (Item × Nat) :=
  match s.offer gid g d with
  | none => none
  | some i => (s.itemCore gid g d any i).map (fun c => (i, c))

/-- The grid goes before another in R295's order: higher PRIO, then the earlier command. -/
def Grid.goesBefore (a b : Grid) (ia ib : Nat) : Bool :=
  decide (b.lrec.prio < a.lrec.prio) || (a.lrec.prio == b.lrec.prio && decide (ia < ib))

/-- No grid that goes before this one has an item that fits the die. -/
def State.firstOf (s : State) (gid : Nat) (g : Grid) (d : Nat) : Bool :=
  s.grids.all (fun h => h.1 == gid || !h.2.goesBefore g h.1 gid || h.2.stat != .running || (s.offerFit h.1 h.2 d false).isNone)

/-- What the grid places next, and where: the die with the lowest load that takes it (R295). -/
def State.placement (s : State) (gid : Nat) : Option (Nat × Item × Nat) :=
  match s.grid gid with
  | none => none
  | some g =>
    if g.stat ≠ .running ∨ !s.hasItem gid g ∨ s.pow.fatal ∨ !s.pow.on then none
    else s.diesByLoad.findSome? (fun d => match s.offerFit gid g d false with
      | some p => if s.firstOf gid g d then some (d, p.1, p.2) else none
      | none => none)

/-! ## Placing (R25, R108, R146, R301) -/

/-- The thread indices of a block (R23). -/
def LaunchRec.tid (l : LaunchRec) (t : Nat) : W32 × W32 × W32 :=
  (BitVec.ofNat 32 (t % l.bx), BitVec.ofNat 32 (t / l.bx % l.by'), BitVec.ofNat 32 (t / (l.bx * l.by')))

/-- The cohorts of a new block. -/
def mkCohs (nt : Nat) (pc : W64) (pl : List (Nat × Nat)) (th : Nat → Thread) : AMap Cohort :=
  pl.zipIdx.map (fun p =>
    let ls := lanes32.filter (fun l => decide (32 * p.2 + l < nt))
    (p.2, mkCohort (ls.map (fun l => (l, th (32 * p.2 + l)))) pc p.1.1 p.1.2))

/-- A new block on a core. -/
def mkBlock (s : State) (gid : Nat) (kind : BKind) (core base : Nat) (bid : W32 × W32 × W32) (ntid : Nat × Nat × Nat) (n : Need)
    (cohs : AMap Cohort) : Block where
  grid := gid
  kind := kind
  die := core / 256
  core := core % 256
  bid := bid
  ntid := ntid
  nt := n.nt
  ncoh := n.ncoh
  cfg := n.cfg
  base := base
  size := n.size
  order := s.nid
  cohs := cohs
  b := []
  recs := []
  arr := []
  ph := 0
  sbo := none
  nb := false
  mem := []
  mfe := []
  mpsn := []
  mobj := []
  saved := false
  logr := none
  ckw := false
  ckat := 0
  ckn := 0

/-- Every granule of an allocation becomes empty, and holds no object (R108). -/
def State.clearAlloc (s : State) (core base size : Nat) : State :=
  let k := s.core core
  s.setCore core { k with fe := outRange base size k.fe, objs := outRange base size k.objs }

/-- A recorded grid's block takes the next log region, or the recording stops (R347). -/
def State.takeRegion (s : State) (blk : Nat) : State :=
  match s.block blk with
  | none => s
  | some b =>
    match s.grid b.grid with
    | none => s
    | some g =>
      if !g.recd then s
      else if s.dbg.logcount.toNat ≤ g.regn then
        { s.setGrid b.grid { g with recd := false } with dbg := { s.dbg with recctl := (s.dbg.recctl ||| 2#64) &&& ~~~1#64 } }
      else
        let a := s.physLoc (s.dbg.logbase.toNat + g.regn * s.dbg.logstride.toNat)
        let hdr := leBytes 4 b.bid.1.toNat ++ leBytes 4 b.bid.2.1.toNat ++ leBytes 4 b.bid.2.2.toNat
          ++ leBytes 4 (if b.kind = .task then 1 else 0) ++ leBytes 8 64 ++ leBytes 40 0
        let s1 := s.writeBytes .phys a hdr
        (s1.setGrid b.grid { g with regn := g.regn + 1 }).setBlock blk { b with logr := some g.regn }

/-- A new block put on its core. -/
def State.putNew (s : State) (b : Block) : State :=
  let s1 := { s.setBlock s.nid b with nid := s.nid + 1 }
  (s1.clearAlloc b.coreId b.base b.size).takeRegion s.nid

/-- The clock from which the grid's next item waits (R385), and the timing of R306, start again. -/
def State.placedOne (s : State) (gid : Nat) : State :=
  match s.grid gid with
  | some g => s.setGrid gid { g with waits := some s.clk, since := none }
  | none => s

/-- The block `bl` of a grid placed, the tables behind its affinity address having been read. -/
def State.placeBlock (s0 : State) (gid : Nat) (g : Grid) (bl core base : Nat) : State :=
  let l := g.lrec
  let s := if l.aff then s0.peekCheck ioUnit g.pasid (g.affAddr bl) else s0
  let n := l.need l.nt
  let bid := l.bid bl
  let pl := (pickPlaces n.ncoh (s.places core)).getD []
  let cohs := mkCohs l.nt l.prog pl (fun t => mkThread t l.nt (l.tid t) bid l)
  (s.setGrid gid (g.markPlaced bl)).putNew (mkBlock s gid .grid core base bid (l.bx, l.by', l.bz) n cohs)

/-- The thread of a task (R25, R301). -/
def taskThread (g : Grid) (nt : Nat) (bid : W32 × W32 × W32) (p : Task × Nat) : Thread :=
  let t := mkThread p.2 nt (BitVec.ofNat 32 p.2, 0#32, 0#32) bid g.lrec
  (p.1.args.zipIdx).foldl (fun t a => t.setV a.2 { VReg.zero with val := a.1 }) t

/-- A launched task cohort placed: its records leave the queue. -/
def State.placeTask (s : State) (gid : Nat) (g : Grid) (d seq core base : Nat) : State :=
  let ts := s.taskGroup gid d seq
  let nt := ts.length
  let bid : W32 × W32 × W32 := (BitVec.ofNat 32 seq, BitVec.ofNat 32 d, 0#32)
  let n := g.lrec.need nt
  let pl := (pickPlaces 1 (s.places core)).getD []
  let pc := (ts.head?.map (·.entry)).getD 0#64
  let ths := ts.zipIdx.map (taskThread g nt bid)
  let cohs := mkCohs nt pc pl (fun t => ths.getD t (mkThread t nt (0#32, 0#32, 0#32) bid g.lrec))
  let e := s.die d
  (s.setDie d { e with tq := e.tq.filter (fun t => !(t.grid == gid && t.seq == some seq)) }).putNew
    (mkBlock s gid .task core base bid (nt, 1, 1) n cohs)

/-! ## Saving and restoring a block (R303, R320, R321) -/

/-- An access touches an allocation. -/
def Acc.inAlloc (a : Acc) (core base size : Nat) : Bool :=
  a.store == .core core && decide (a.addr < base + size) && decide (base < a.addr + a.z)

/-- A copy touches an allocation: an end or an object of it lies there. -/
def CopyT.touches (c : CopyT) (b : Block) : Bool :=
  let hit (st : Store) (a n : Nat) : Bool := st == .core b.coreId && decide (a < b.base + b.size) && decide (b.base < a + n)
  c.objs.any (fun o => hit o.1 o.2 16)
  || c.sps.any (fun e => (List.range (c.total / Nat.max c.box.x 1)).any (fun r =>
    let q := e.place (c.spAddr e (c.pos (r * c.box.x)))
    hit q.1 q.2 c.box.x))

/-- The allocation of a block is at rest but for its own waits on full-empty bits: no copy, gather or access on its way into it. -/
def State.allocQuiet (s : State) (blk : Nat) (b : Block) : Bool :=
  !s.copies.any (fun c => c.touches b)
  && !s.pend.any (fun p => !(p.blk == blk && p.feWait) && !(match p.kind with
      | .matrix op => p.blk == blk && !op.started
      | _ => false)
    && (p.lanes.any (fun l => l.2.any (fun a => a.inAlloc b.coreId b.base b.size)) || (match p.kind with
      | .gaths dst o => dst.any (fun l => !p.done.getLsbD l.1 && (l.2.any (fun a => a.inAlloc b.coreId b.base b.size)))
          || (match o with
            | some q => (Acc.mk 0 q.1 q.2 16 0#64 0#64 false).inAlloc b.coreId b.base b.size
            | none => false)
      | .hacc t _ _ => !p.lanes.isEmpty && t.store == .core b.coreId && decide (b.base ≤ t.base) && decide (t.base < b.base + b.size)
      | _ => false)))

/-- A copy of the block is suspended (R124). -/
def State.hasSuspended (s : State) (blk : Nat) : Bool := s.copies.any (fun c => c.blk == blk && c.susp.isSome)

/-- A handler runs with a capability for a cohort of the block (R320). -/
def State.capHeld (s : State) (blk : Nat) : Bool :=
  s.dies.any (fun d => d.2.caps.any (fun c => match c.what with
    | .coh b _ => b == blk
    | .copy _ => false))

/-- A partition with a cohort of the block is stopped (R342). -/
def State.blockStopped (s : State) (blk : Nat) (b : Block) : Bool := b.cohs.any (fun c => s.partStopped ⟨blk, c.1⟩)

/-- A block may be saved now: its allocation is at rest, what has arrived there from elsewhere is performed (R142; log entry 70). -/
def State.canSave (s : State) (blk : Nat) (b : Block) : Bool :=
  !b.saved && !b.isHandler && !s.capHeld blk && !s.blockStopped blk b && s.allocQuiet blk b

/-- The lowest free image slot of a grid's save area (R306). -/
def Grid.freeSlot (g : Grid) : Option Nat :=
  (List.range (g.lrec.rsize / g.lrec.img)).find? (fun i => !g.slots.any (fun p => p.2 == i))

/-- What a save withdraws or ends in a path (R157, R213, R268, R270): a receive and a send at a link, a wait for a slot, which are
issued again; the rest of a SLEEP. -/
def Path.saveWait (p : Path) : Path :=
  match p.wait with
  | none => p
  | some w => match w.kind with
    | .sleep => { p with wait := some { w with released := true } }
    | .nsend | .nrecv | .mringSend | .slot => { p with wait := none }
    | .mringRecv => { p with wait := some { w with released := true } }
    | _ => p

/-- PMASK and PIDX of a cohort at its save: of a frozen cohort as they stand; else the progress of its running matrix word (R196), or the
lanes that a Turret word has sent (R129). -/
def State.savedAt (s : State) (r : CohRef) (c : Cohort) : W32 × W32 :=
  if c.frz.isSome then (c.pmask, c.pidx)
  else match s.matProgress r with
    | some q => q
    | none => match [c.pa, c.pb].findSome? s.pathOp with
      | some q =>
        let m := q.done ||| maskOf (AMap.keys q.lanes)
        (m, BitVec.ofNat 32 (popcount m))
      | none => (c.pmask, c.pidx)

/-- The cohort of a saved image: what R321 lists and nothing else. -/
def Cohort.toImage (c : Cohort) (at' : W32 × W32) : Cohort :=
  { c.mapPaths Path.saveWait with
    lanes := c.lanes.map (fun l => (l.1, { l.2 with resv := none }))
    pmask := at'.1
    pidx := at'.2
    polls := 0
    psamp := none
    bpskip := none
    ypause := none
    ready := none
    urgent := none }

/-- The image's bytes in the save area: their layout is not the spec's, so they take free values (log entry 19); a page that does
not translate stays unwritten. -/
def State.saveArea (s : State) (g : Grid) (slot : Nat) : State :=
  (List.range (g.lrec.img / 4096)).foldl (fun s i =>
    match s.translate ioUnit g.pasid (g.lrec.rsave + BitVec.ofNat 64 (slot * g.lrec.img + 4096 * i)) .write with
    | (s1, .ok a) => s1.putFree .phys a 4096
    | (s1, .error _) => s1) s

/-- A block withdrawn from the instance barriers at which it has arrived (R266). -/
def Grid.withdraw (g : Grid) (blk : Nat) : Grid :=
  { g with sbars := (g.sbars.map (fun i => { i with arr := i.arr.filter (· != blk) })).filter (fun i => !i.arr.isEmpty) }

/-- A block saved into an image slot: its resources are free, its fault records leave the queue, it is withdrawn from scoped barriers, it
is the last to be placed again. -/
def State.saveBlock (s : State) (blk : Nat) (b : Block) (gid : Nat) (g : Grid) (slot : Nat) : State :=
  let img : Block := { s.imageOf b with
    cohs := b.cohs.map (fun c => (c.1, c.2.toImage (s.savedAt ⟨blk, c.1⟩ c.2)))
    saved := true }
  let hit (r : FRec) : Bool := match r with
    | .coh c _ => c == blk
    | .copy _ => false
  let s1 := s.setBlock blk img
  let s2 : State := { s1 with
    cores := s1.cores.map (fun c => (c.1, c.2.forget [blk]))
    dies := s1.dies.map (fun d => (d.1, { d.2 with fq := d.2.fq.filter (fun r => !hit r), heldq := d.2.heldq.filter (fun r => !hit r) }))
    cur := s1.cur.filter (fun r => r.blk != blk) }
  (s2.setGrid gid { g.withdraw blk with rot := g.rot ++ [blk], slots := g.slots.set blk slot }).saveArea g slot

/-- The accesses of a restored block moved with its allocation. -/
def Acc.rebase (a : Acc) (core base size core' base' : Nat) : Acc :=
  if a.inAlloc core base size then { a with store := .core core', addr := a.addr - base + base' } else a

/-- The operations of a block moved with its allocation. -/
def State.rebase (s : State) (blk : Nat) (b : Block) (core' base' : Nat) : State :=
  { s with pend := s.pend.map (fun p => if p.blk = blk then
      { p with lanes := p.lanes.map (fun l => (l.1, l.2.map (fun a => a.rebase b.coreId b.base b.size core' base'))) } else p) }

/-- New cohort places for every cohort, retired ones too (R252); a neighbour-bound block keeps its own. -/
def Block.replace (b : Block) (pl : List (Nat × Nat)) : Block :=
  if b.nb then b
  else
    let ks := AMap.keys b.cohs
    { b with cohs := b.cohs.map (fun c => match (ks.zip pl).find? (fun q => q.1 == c.1) with
        | some q => (c.1, { c.2 with part := q.2.1, cslot := q.2.2 })
        | none => c) }

/-- An allocation's bytes, bits, poison and objects put at a place of a core. -/
def State.putAlloc (s : State) (core base size : Nat) (mem : Memory) (fe psn objs : List Nat) : State :=
  let k := s.core core
  let mv (l : List Nat) : List Nat := l.map (· + base / 16)
  s.setCore core { k with
    scr := k.scr.filter (fun c => decide (c.1 < base)) ++ unshiftMem (mem.filter (fun c => decide (c.1 < size))) base
      ++ k.scr.filter (fun c => decide (base + size ≤ c.1))
    fe := (mv fe).foldl setIns (outRange base size k.fe)
    psn := (mv psn).foldl setIns (outRange base size k.psn)
    objs := (mv objs).foldl setIns (outRange base size k.objs) }

/-- The frozen cohorts of a block whose record waited: their faults enter the queue again (R320). -/
def State.requeue (s : State) (blk : Nat) (b : Block) : State :=
  b.cohs.foldl (fun s c =>
    if c.2.frz.isSome ∧ !s.heldCap b.die ⟨blk, c.1⟩ then s.spawnHandler b.grid b.die b.core b.bid (.coh blk c.1) else s) s

/-- The block's arrival at a scoped barrier made again in the instance where it is placed (R266); where that instance has an open phase of
another count, its paths issue their words again and take the fault there. -/
def State.rearrive (s : State) (gid blk : Nat) (b : Block) : State :=
  match b.sbo, s.grid gid with
  | some o, some g =>
    if !o.made || o.isGrid then s
    else if g.sbars.any (fun i => i.scope == o.scope && i.inst == scopeInst o.scope b.die b.core && i.n != o.n) then
      s.setBlock blk { b with sbo := none, arr := [], cohs := b.cohs.map (fun c => (c.1, c.2.mapPaths (fun p =>
        if p.waits .sbar && !(p.wait.any (·.released)) then { p with wait := none } else p))) }
    else s.setGrid gid (g.arriveAt o blk b.die b.core)
  | _, _ => s

/-- A lane of LDC or STC that waits on a full-empty bit. -/
def Pend.feWindow (p : Pend) : Bool := p.feWait && p.cls == 0x7#4 && (p.op == 0x11#6 || (decide (0x14#6 ≤ p.op) && decide (p.op ≤ 0x20#6)))

/-- A window access formed again for the core that its block is placed on: the same core of the cluster and offset (R141, R157). -/
def Acc.rewindow (a : Acc) (core : Nat) : Acc :=
  match a.store with
  | .core c => if a.z = 0 then a else { a with store := .core (core / 64 * 64 + c % 64) }
  | _ => a

/-- The full-empty waits of a restored block issued again (R157): window targets are formed for its new core and checked for reach; lanes
that fail take the protection fault 0x21 of their word, their cohort frozen behind it (log entry 81). -/
def State.reissueFe (s : State) (blk : Nat) (b : Block) : State :=
  (s.pend.filter (fun p => p.blk == blk && p.feWindow)).foldl (fun s p =>
    let lanes := p.lanes.map (fun l => (l.1, l.2.map (fun a => a.rewindow b.coreId)))
    let bad := lanes.filter (fun l => !l.2.all (s.accReach p))
    let q := { p with lanes := lanes.filter (fun l => l.2.all (s.accReach p)) }
    let s1 := if q.lanes.isEmpty && !q.more then s.finishPend q none else s.setPend q
    match bad.head?, s1.coh p.ref with
    | some l, some c =>
      let va (a : Acc) : W64 := match a.store with
        | .core n => BitVec.ofNat 64 (n % 64 * 2 ^ 18 + a.addr)
        | _ => 0#64
      let isB := if (c.path p.isB).isSome then p.isB else !p.isB
      if c.frz.isSome then s1
      else s1.freezeCoh p.ref ⟨kProtection, 0x21, 0xF, p.widx, isB, p.pc, ((l.2.head?).map va).getD 0#64, false, true, []⟩
        (maskOf (AMap.keys bad)) 0#32 0#32
    | _, _ => s1) s

/-- A saved block placed again on a core. -/
def State.restoreBlock (s : State) (gid : Nat) (g : Grid) (blk : Nat) (b : Block) (core base : Nat) : State :=
  let pl := (pickPlaces b.cohs.length (s.places core)).getD []
  let nb : Block := { (b.replace pl) with
    die := core / 256
    core := core % 256
    base := base
    order := s.nid
    mem := []
    mfe := []
    mpsn := []
    mobj := []
    saved := false }
  let s1 := ((s.rebase blk b core base).putAlloc core base b.size b.mem b.mfe b.mpsn b.mobj).setBlock blk nb
  let s2 : State := { s1.setGrid gid { g with rot := g.rot.filter (· != blk), slots := g.slots.del blk } with nid := s1.nid + 1 }
  ((s2.rearrive gid blk nb).reissueFe blk nb).requeue blk nb

/-! ## The events of placement -/

/-- BLOCK_PLACEMENT: the grid's next task cohort or block. -/
def execBlockPlacement (gid : Nat) (s : State) : Out :=
  match s.grid gid, s.placement gid with
  | some g, some (d, i, core) =>
    match i with
    | .task seq _ => match s.fits core (g.lrec.need (s.taskGroup gid d seq).length) false with
      | some base => .next ((s.placeTask gid g d seq core base).placedOne gid)
      | none => idle s
    | .block bl _ => match s.fits core (g.lrec.need g.lrec.nt) false with
      | some base => .next ((s.placeBlock gid g bl core base).placedOne gid)
      | none => idle s
    | .rotated _ => idle s
  | _, _ => idle s

/-- ROTATED_BLOCK_RESTORE: the grid's block that was saved first. -/
def execRotatedBlockRestore (gid : Nat) (s : State) : Out :=
  match s.grid gid, s.placement gid with
  | some g, some (_, .rotated blk, core) =>
    match s.block blk with
    | some b => match s.fits core b.need false with
      | some base => .next ((s.restoreBlock gid g blk b core base).placedOne gid)
      | none => idle s
    | none => idle s
  | _, _ => idle s

/-! ## Compaction (R297) -/

/-- A block whose allocation may be moved now: no window flag, its cohorts at clause boundaries, nothing on its way into it. -/
def State.movable (s : State) (blk : Nat) (b : Block) : Bool :=
  !(((s.grid b.grid).map (·.lrec.win)).getD true) && b.cohs.all (fun c => !c.2.mid && c.2.paths.all Path.atBoundary)
  && s.allocQuiet blk b && !s.pend.any (fun p => p.blk == blk && p.feWait) && !s.pend.any (fun p => p.blk == blk && (match p.kind with
    | .matrix _ => p.lanes.any (fun l => !l.2.isEmpty)
    | _ => false))

/-- The free bytes of a core's scratchpad. -/
def State.freeBytes (s : State) (core : Nat) : Nat := 262144 - (s.allocs core).foldl (fun n a => n + a.2) 0

/-- The reservations on granules of an allocation that moves: they move with it (R260). -/
def Thread.moveResv (t : Thread) (core base size base' : Nat) : Thread :=
  match t.resv with
  | some r => if r.store = .core core ∧ base ≤ 16 * r.gran ∧ 16 * r.gran < base + size then
      { t with resv := some { r with gran := r.gran - base / 16 + base' / 16 } } else t
  | none => t
def State.moveResv (s : State) (core base size base' : Nat) : State :=
  { s with blocks := s.blocks.map (fun b => (b.1, { b.2 with cohs := b.2.cohs.map (fun c => (c.1,
      { c.2 with lanes := c.2.lanes.map (fun l => (l.1, l.2.moveResv core base size base')) })) })) }

/-- A block's allocation moved on its core. -/
def State.moveAlloc (s : State) (blk : Nat) (b : Block) (base' : Nat) : State :=
  let k := s.core b.coreId
  let lo (l : List Nat) : List Nat := (inRange b.base b.size l).map (· - b.base / 16)
  let mem := shiftMem (s.allocBytes b) b.base
  let s1 := s.setCore b.coreId { k with
    fe := outRange b.base b.size k.fe
    psn := outRange b.base b.size k.psn
    objs := outRange b.base b.size k.objs }
  ((s1.putAlloc b.coreId base' b.size mem (lo k.fe) (lo k.psn) (lo k.objs)).setBlock blk { b with base := base' }).moveResv b.coreId b.base
    b.size base'

/-- The next allocation that can move towards offset 0 on a core, in address order, with its new place: the lowest run above the movable
allocations before it, around those that may not move (R297). -/
def State.nextMove (s : State) (core : Nat) : Option (Nat × Block × Nat) :=
  let bs := ((s.placed core).filter (fun b => b.2.size != 0))
  let sorted := bs.foldl (fun m b => AMap.set m b.2.base b) ([] : AMap (Nat × Block))
  sorted.findSome? (fun e =>
    if !s.movable e.2.1 e.2.2 then none
    else
      let low := (sorted.filter (fun a => decide (a.1 < e.1) && s.movable a.2.1 a.2.2)).foldl (fun n a => Nat.max n (a.1 + a.2.2.size)) 0
      match firstRun e.2.2.size low ((s.allocs core).filter (fun a => a.1 != e.1)) with
      | some o => if o < e.1 then some (e.2.1, e.2.2, o) else none
      | none => none)

/-- Some grid's next item would fit the core but for a run of its size (R297). -/
def State.wantsRun (s : State) (core : Nat) : Bool :=
  s.grids.any (fun g => g.2.stat == .running && (match s.offer g.1 g.2 (core / 256) with
    | none => false
    | some i =>
      let n : Need := match i with
        | .task seq _ => g.2.lrec.need (s.taskGroup g.1 (core / 256) seq).length
        | .block _ _ => g.2.lrec.need g.2.lrec.nt
        | .rotated b => ((s.block b).map Block.need).getD (g.2.lrec.need g.2.lrec.nt)
      s.coreOpen core false && s.roomBut core n && (firstRun n.size 0 (s.allocs core)).isNone && decide (n.size ≤ s.freeBytes core)))

/-- SCRATCHPAD_COMPACTION: the next allocation of a core is moved towards offset 0, while a waiting block needs the run. -/
def execScratchpadCompaction (core : Nat) (s : State) : Out :=
  if !s.wantsRun core then idle s
  else match s.nextMove core with
    | some (blk, b, base') => .next (s.moveAlloc blk b base')
    | none => idle s

/-! ## Residency rotation (R302 to R307) -/

/-- The counter a path waits for holds a full-empty wait of the cohort (R156, R302). -/
def State.feStuck (s : State) (r : CohRef) (b : Block) (c : Cohort) (isB : Bool) : Bool :=
  match c.path isB with
  | none => false
  | some p =>
    let waits : BitVec 8 := match p.cl with
      | some cl => if cl.words.length < cl.wi then 0#8 else (cl.words.getD (cl.wi - 1) 0#64).extractLsb' 56 8
      | none => match s.grid b.grid with
        | some g => match (s.fetchHeader b.coreId g.pasid p.pc).2 with
          | .ok h => hdrCwait h
          | .error _ => 0#8
        | none => 0#8
    s.pend.any (fun q => q.ref == r && q.feWait && !q.lanes.isEmpty && (match q.slot with
      | some n => waits.getLsbD n.toNat
      | none => false))

/-- The waits of R302's list that a path stands in. -/
def Path.stuck (p : Path) : Bool :=
  match p.wait with
  | some w => !w.released && (match w.kind with
    | .bar | .barw | .sbar | .sbarGrid | .barv | .meeting | .bwait | .bwaitn => true
    | _ => false)
  | none => false

/-- A cohort that holds threads stands in a wait of R302. -/
def State.cohBlocked (s : State) (r : CohRef) (b : Block) (c : Cohort) : Bool :=
  c.lanes.isEmpty || (c.frz.isNone && (decide (64 ≤ c.polls) ||
    [false, true].all (fun isB => match c.path isB with
      | some p => p.stuck || s.feStuck r b c isB
      | none => true)))

/-- A resident block is blocked (R302). -/
def State.blockBlocked (s : State) (blk : Nat) (b : Block) : Bool :=
  b.cohs.all (fun c => s.cohBlocked ⟨blk, c.1⟩ b c.2) && b.cohs.all (fun c => c.2.frz.isNone)

/-- The resident blocks of a grid, no handlers. -/
def State.residents (s : State) (gid : Nat) : List (Nat × Block) :=
  s.blocks.filter (fun b => b.2.grid == gid && !b.2.saved && !b.2.isHandler)

/-- An item of the grid waits and fits nowhere, self-test left out of account (R303, R373). -/
def State.itemStuck (s : State) (gid : Nat) (g : Grid) : Bool :=
  s.hasItem gid g && [0, 1, 2, 3].any (fun d => (s.offer gid g d).isSome) && [0, 1, 2, 3].all (fun d => (s.offerFit gid g d true).isNone)

/-- The condition of R303. -/
def State.rotNeeded (s : State) (gid : Nat) (g : Grid) : Bool :=
  g.stat == .running && s.itemStuck gid g && (s.residents gid).all (fun b => s.blockBlocked b.1 b.2)

/-- The block a rotation would take: the blocked one placed last, without a suspended copy or a stopped cohort. -/
def State.rotVictim (s : State) (gid : Nat) : Option (Nat × Block) :=
  ((s.residents gid).filter (fun b => !s.hasSuspended b.1 && !s.blockStopped b.1 b.2)).foldl (fun (m : Option (Nat × Block)) b => match m with
    | some a => if a.2.order < b.2.order then some b else some a
    | none => some b) none

/-- BLOCK_ROTATION. -/
def execBlockRotation (gid : Nat) (s : State) : Out :=
  match s.grid gid with
  | none => idle s
  | some g =>
    if !s.rotNeeded gid g then idle s
    else match s.rotVictim gid, g.freeSlot with
      | some (blk, b), some slot => if s.canSave blk b then .next (s.saveBlock blk b gid g slot) else idle s
      | _, _ => idle s

/-- No rotation is possible (R306). -/
def State.noRotation (s : State) (gid : Nat) (g : Grid) : Bool := g.freeSlot.isNone || (s.rotVictim gid).isNone

/-- 10 ms in cycles. -/
def deadlockCycles : Nat := 15000000

/-- RESIDENCY_DEADLOCK_KILL: the condition has held for 10 ms and no rotation is possible. -/
def execResidencyDeadlockKill (gid : Nat) (s : State) : Out :=
  match s.grid gid with
  | none => idle s
  | some g =>
    match g.since with
    | some c =>
      if s.rotNeeded gid g ∧ s.noRotation gid g ∧ c + deadlockCycles ≤ s.clk then
        .next ((s.logMc 0 0x0D 1 false 9 none (some (g.pasid.setWidth 64 <<< 36))).killGrid gid stKilled)
      else idle s
    | none => idle s

/-- Since when the condition of R303 has held in each grid, kept from step to step. -/
def State.tickGrids (s : State) : State :=
  s.grids.foldl (fun s p =>
    if !s.hasItem p.1 p.2 then (if p.2.since.isNone then s else s.setGrid p.1 { p.2 with since := none })
    else if s.rotNeeded p.1 p.2 then (if p.2.since.isSome then s else s.setGrid p.1 { p.2 with since := some s.clk })
    else if p.2.since.isNone then s else s.setGrid p.1 { p.2 with since := none }) s

/-! ## Pre-emption (R385) -/

/-- 1 ms in cycles. -/
def preemptCycles : Nat := 1500000

/-- The block that pre-emption saves for a grid: of a grid of lower PRIO with a free image slot, of the lowest PRIO first, the one
placed last (log entry 20); a block on a core under self-test is not pre-empted (R373). -/
def State.preemptVictim (s : State) (g : Grid) : Option (Nat × Block) :=
  let ok := s.blocks.filter (fun b => match s.grid b.2.grid with
    | some h => h.stat == .running && decide (h.lrec.prio < g.lrec.prio) && h.freeSlot.isSome && s.canSave b.1 b.2
      && !(s.core b.2.coreId).testing
    | none => false)
  let key (b : Nat × Block) : Nat := ((s.grid b.2.grid).map (·.lrec.prio)).getD 0
  ok.foldl (fun (m : Option (Nat × Block)) b => match m with
    | some a => if key b < key a ∨ (key b = key a ∧ a.2.order < b.2.order) then some b else some a
    | none => some b) none

/-- PREEMPTION: for the LAUNCH of grid `gid`, which has waited 1 ms for placement. -/
def execPreemption (gid : Nat) (s : State) : Out :=
  match s.grid gid with
  | none => idle s
  | some g =>
    match g.waits with
    | some c =>
      if s.itemStuck gid g ∧ g.stat = .running ∧ c + preemptCycles ≤ s.clk then
        match s.preemptVictim g with
        | some (blk, b) => match s.grid b.grid with
          | some h => match h.freeSlot with
            | some slot => .next (s.saveBlock blk b b.grid h slot)
            | none => idle s
          | none => idle s
        | none => idle s
      else idle s
    | none => idle s

/-! ## Replies to a saved image (R60, R321) -/

/-- A lane of an operation of a saved block performed. -/
def State.savedLane (s : State) (p : Pend) (lane : Nat) : Option State :=
  match p.kind with
  | .sysread _ | .regread _ _ | .mbxr _ _ | .bquery _ _ => s.readLands p
  | _ =>
    match s.landable p lane true with
    | none => none
    | some as =>
      match p.kind with
      | .sfu => sfuLand s p.id lane true
      | .load .none _ | .load .poll _ =>
        let ls := p.sameElement lane
        if s.groupOk p ls then some (ls.foldl (fun s l => s.loadLane p.id l) s) else none
      | .store .none _ => if s.ordOk p lane as then some (s.storeLane p.id lane false) else none
      | .store .fill _ => if s.ordOk p lane as then some (s.storeLane p.id lane true) else none
      | .atom .. | .cas _ | .ldx | .stx _ => if stxTurn p lane && s.ordOk p lane as then some (s.atomicLane p lane as) else none
      | _ => s.turretLane p lane as

/-- REPLY_TO_SAVED_IMAGE. -/
def execReplyToSavedImage (id lane : Nat) (s : State) : Out :=
  match s.pendOf id with
  | none => idle s
  | some p =>
    if !s.isSaved p.blk then idle s
    else match s.savedLane p lane with
      | some t => .next t
      | none => idle s

/-! ## Tasks (R299 to R301) -/

/-- The task queue's size. -/
def tqMax : Nat := 16384

/-- The packing unit's group of a record: grid, entry and cluster. -/
def Task.sameGroup (a b : Task) : Bool := a.grid == b.grid && a.entry == b.entry && a.clus == b.clus

/-- The records of a group that have not launched, in their order of arrival. -/
def Die.open' (d : Die) (t : Task) : List Task := d.tq.filter (fun u => u.seq.isNone && u.sameGroup t)

/-- The group of a record launches as the die's next task cohort. -/
def Die.launchGroup (d : Die) (t : Task) : Die :=
  { d with
    tq := d.tq.map (fun u => if u.seq.isNone && u.sameGroup t then { u with seq := some d.tseq } else u)
    tseq := d.tseq + 1 }

/-- A record appended to a die's queue; the group that then holds 32 records launches. -/
def State.addTask (s : State) (d : Nat) (t : Task) : State :=
  let e := s.die d
  let e1 : Die := { e with tq := e.tq ++ [t] }
  s.setDie d (if 32 ≤ (e1.open' t).length then e1.launchGroup t else e1)

/-- The record of a lane of SPAWN, with its target die (R301). -/
def spawnRec (x : Ctx) (s : State) (lit : Option W64) (entry : Src) (v : VNum) (aff : Src) (l : Nat) : Nat × Task :=
  let none' : Bool := match aff with
    | .special n => n == 0x0D#5
    | _ => false
  let a := if none' then 0#64 else (x.el s.clk lit true l aff).val
  let home := if a = 0#64 then none else s.affHome x.grid.pasid a
  let arg (i : Nat) : W32 := ((x.coh.thread l).map (fun t => (t.vreg (v.toNat + i)).val)).getD 0#32
  ((home.map (·.1)).getD x.blk.die,
   { grid := x.blk.grid
     entry := x.sca s.clk lit entry
     args := [arg 0, arg 1, arg 2, arg 3]
     aff := a
     clus := home.map (·.2)
     at' := s.clk
     seq := none })

/-- The records of the lanes appended in ascending order, until one finds its queue full: the state, the lanes done. -/
def spawnGo (x : Ctx) (lit : Option W64) (entry : Src) (v : VNum) (aff : Src) : List Nat → State → W32 → State × W32
  | [], s, m => (s, m)
  | l :: ls, s, m =>
    let r := spawnRec x s lit entry v aff l
    let s1 := if r.2.aff = 0#64 then s else s.peekCheck ioUnit x.grid.pasid r.2.aff
    if tqMax ≤ (s.die r.1).tq.length then (s, m) else spawnGo x lit entry v aff ls (s1.addTask r.1 r.2) (m ||| (1#32 <<< l))

/-- SPAWN (R299): its checks at its first issue; the counter stands from then until the last record is appended (R55). -/
def execSpawn (c : Ctl) (entry : Src) (v : VNum) (aff : Src) (s : State) : Out :=
  word c s (fun x =>
    let old : Option PWait := x.path.wait.filter (fun w => w.kind == .spawn)
    let did : W32 := BitVec.ofNat 32 ((old.map (·.num)).getD 0)
    let first := old.isNone
    let wait (s : State) (m : W32) : WRes :=
      .wait (if first then s.updCoh x.ref (fun k => k.count c.set) else s) ⟨.spawn, false, (old.map (·.since)).getD s.clk, m.toNat, []⟩
    let vs : List Src := [.v v, .v (v + 1#8), .v (v + 2#8), .v (v + 3#8)]
    let todo := x.lanes.filter (fun l => !did.getLsbD l)
    match (if first then parityCheck x s (vs ++ [aff]) x.lanes else .ok s) with
    | .error e => e
    | .ok s0 =>
      let bad := maskOf (x.lanes.filter (fun l => !pairIdx x s0 c.lit l aff))
      let psn := maskOf (x.lanes.filter (fun l => (vs.any (fun r => (x.el s0.clk c.lit false l r).psn)) || (x.el s0.clk c.lit true l aff).psn))
      if first && bad != 0#32 then .trap (Fz.of kFormat 0 bad)
      else if first && psn != 0#32 then .trap (Fz.of kPoison 0 psn)
      else if !s0.accessesDone x.ref false then wait s0 did
      else
        let r := spawnGo x c.lit entry v aff todo s0 did
        let s1 := r.1.unpoll x.ref
        if x.exec &&& ~~~r.2 = 0#32 then
          .ctl ((if first then s1 else s1.updCoh x.ref (fun k => match c.set with
            | some n => k.decCtr n
            | none => k)).goTo x x.nextHdr)
        else wait s1 r.2)

/-- SPAWN_QUEUE_ROOM: the accesses before a waiting SPAWN are performed, and the queue that its next record goes to has room. -/
def execSpawnQueueRoom (p : PathRef) (s : State) : Out :=
  match s.waiting p, s.pathCtx p with
  | some w, some x =>
    if w.kind ≠ .spawn ∨ !s.accessesDone x.ref false then idle s
    else match x.path.word x.blk.lim with
      | some (.spawn c e v a) =>
        match x.lanes.find? (fun l => !(BitVec.ofNat 32 w.num : W32).getLsbD l) with
        | some l => if (s.die (spawnRec x s c.lit e v a l).1).tq.length < tqMax then .next (s.release p) else idle s
        | none => .next (s.release p)
      | _ => idle s
  | _, _ => idle s

/-- A task group launches this many cycles after its first record. -/
def groupCycles : Nat := 2048

/-- TASK_GROUP_TIMEOUT: the oldest group of a die whose time has come launches. -/
def execTaskGroupTimeout (die : Nat) (s : State) : Out :=
  let d := s.die die
  match d.tq.find? (fun t => t.seq.isNone && decide (t.at' + groupCycles ≤ s.clk)) with
  | some t => .next (s.setDie die (d.launchGroup t))
  | none => idle s

/-! ## The end of a grid (R298, R319) -/

/-- Everything of a grid has ended: its blocks and tasks when it runs to its end, and in every case its copies and accesses. -/
def State.gridDone (s : State) (gid : Nat) (g : Grid) : Bool :=
  !s.blocks.any (fun b => b.2.grid == gid) && !s.copies.any (fun c => c.grid == gid) && !s.pend.any (fun p => p.grid == gid)
  && !s.dies.any (fun d => d.2.tq.any (fun t => t.grid == gid))
  && (g.stat == .killed || decide (g.lrec.total ≤ g.next))

/-- GRID_END: the LAUNCH completes; its messages on the neighbour links are discarded (R267), and a recording that its grid held ends with it. -/
def execGridEnd (gid : Nat) (s : State) : Out :=
  match s.grid gid with
  | none => idle s
  | some g =>
    if g.stat = .ended ∨ !s.gridDone gid g then idle s
    else
      let st := if g.stat = .killed then g.status else 0
      let s0 : State := { s with cores := s.cores.map (fun k => (k.1, k.2.dropMessages gid)) }
      let s1 := s0.setGrid gid { g with stat := .ended, status := st }
      let s2 : State := if g.recd then { s1 with dbg := { s1.dbg with recctl := s1.dbg.recctl &&& ~~~1#64 } } else s1
      .next (s2.cmdEnd g.qn.toNat g.cmd st)

end Sys2Proof.Machine
end

