-- ==== Sys2Proof/Machine/Debug.lean ====
section
/-! DEFINITION. Belfry from the host's side (R339 to R350): stops, dumps, reverse stepping and engine replay, the host's mailbox
writes, and the registers of the management plane that follow their access type (R5). -/

namespace Sys2Proof.Machine

/-- A request to the package returns it to PS0 (R400). -/
def State.wake (s : State) : State := { s with pow := { s.pow with ps2 := false, idle := none } }

/-! ## Stops (R342) -/

/-- A partition of a core changed. -/
def State.updPart (s : State) (core part : Nat) (f : Part → Part) : State :=
  let k := s.core core
  s.setCore core (k.setPart part (f (k.part part)))

def State.stoppedAt (s : State) (core part : Nat) : Bool := ((s.core core).part part).stopped

/-- HOST_STOP_REQUEST. -/
def execHostStopRequest (core part : Nat) (s : State) : Out := .next (s.wake.updPart core part (fun p => { p with stopped := true }))

/-- The image of a block put in the place the block has now: its core, its allocation, its cohort places (R349). -/
def State.putImage (s : State) (blk : Nat) (img : Block) : State :=
  match s.block blk with
  | none => s
  | some b =>
    let cohs := img.cohs.map (fun c => match b.coh c.1 with
      | some k => (c.1, { c.2 with part := k.part, cslot := k.cslot })
      | none => c)
    let b' : Block := { img with
      die := b.die
      core := b.core
      base := b.base
      order := b.order
      logr := b.logr
      cohs := cohs
      mem := []
      mfe := []
      mpsn := []
      mobj := [] }
    (s.putAlloc b.coreId b.base b.size img.mem img.mfe img.mpsn img.mobj).setBlock blk b'

/-- A block that has been stepped back is live again. -/
def State.toLive (s : State) (blk : Nat) : State :=
  match s.dbg.live.find blk with
  | none => s
  | some img =>
    let s1 := s.putImage blk img
    { s1 with dbg := { s1.dbg with live := s1.dbg.live.del blk } }

/-- RETURN_TO_LIVE (R349). -/
def execReturnToLive (blk : Nat) (s : State) : Out := .next (s.toLive blk)

/-- The blocks with a cohort on a partition. -/
def State.blocksOn (s : State) (core part : Nat) : List Nat :=
  AMap.keys (s.blocks.filter (fun b => b.2.coreId == core && !b.2.saved && b.2.cohs.any (fun c => c.2.part == part)))

/-- A stopped partition resumed: blocks stepped back are live again first. The held replies are written by the events of their words, all
of which come before the next issue. -/
def State.resume (s : State) (core part : Nat) : State :=
  { (s.blocksOn core part).foldl State.toLive s with cur := none }.updPart core part (fun p => { p with stopped := false })

/-- PARTITION_RESUME. -/
def execPartitionResume (core part : Nat) (s : State) : Out :=
  if !s.stoppedAt core part then idle s else .next (s.resume core part)

/-! ## Dumps (R343) -/

/-- The unit of an operation in a dump. -/
def PKind.unit : PKind → Nat
  | .load _ _ | .store _ _ | .pref _ => 0
  | .sfu => 1
  | .gath | .gaths _ _ | .scat | .scata _ | .ldspl | .hacc _ _ _ => 2
  | .atom _ _ _ | .cas _ | .ldx | .stx _ => 3
  | .matrix _ => 5
  | .bquery _ _ => 6
  | .sysread _ | .regread _ _ => 7
  | .mbxr _ _ => 8

/-- The destinations of a matrix word: its register, its vector result, its pivots, its status. -/
def matDests (i : Instr) : List Nat :=
  let m : List Nat := match matWrite i with
    | some d => [dstNum (some (.m d))]
    | none => []
  let v : List Nat := match i with
    | .mget _ d _ _ _ | .mnrm1 _ d _ => [dstNum (some d)]
    | .mlu _ _ _ _ p | .mluT _ _ _ _ p => [dstNum (some (.v p))]
    | _ => []
  let t : List Nat := match matStatus i with
    | some n => [dstNum (some (.s n))]
    | none => []
  m ++ v ++ t

/-- The lanes whose write is pending. -/
def Pend.waitMask (p : Pend) : W32 :=
  match p.kind with
  | .matrix op => if op.started then op.groups.foldl (fun m g => m ||| g) 0#32 else maskOf (AMap.keys op.res)
  | .sysread _ | .regread _ _ | .mbxr _ _ | .bquery _ _ => p.exec
  | _ => if p.more then p.exec &&& ~~~p.done else maskOf (AMap.keys p.lanes)

/-- The indices of primal and tangents that the operation writes, ascending. -/
def Pend.ks (p : Pend) : List Nat :=
  match p.kind with
  | .matrix op => (if op.mode = .tonly then [] else [0]) ++ op.ks
  | _ =>
    let ks := p.lanes.foldl (fun ks l => l.2.foldl (fun ks a => setIns ks a.k) ks) ([] : List Nat)
    if ks.isEmpty then [0] else ks

/-- One entry of a dump. -/
def dumpWord (p : Pend) (cslot k dst : Nat) : W64 :=
  let scb := p.kind.unit == 5
  let slot := if scb then 0 else ((p.slot.map (·.toNat)).getD 0)
  BitVec.ofNat 64 (Nat.min cslot 8 + dst % 512 * 2 ^ 12 + k % 8 * 2 ^ 21 + slot * 2 ^ 24 + (if scb then 2 ^ 27 else 0)
    + p.kind.unit * 2 ^ 28 + p.waitMask.toNat * 2 ^ 32)

/-- The entries of an operation. -/
def Pend.dump (p : Pend) (cslot : Nat) : List W64 :=
  if !p.kind.writesReg || p.waitMask == 0#32 then []
  else
    let ds : List Nat := match p.kind with
      | .matrix op => matDests op.i
      | _ => (p.dst.map (fun d => dstNum (some d))).toList
    ds.flatMap (fun d => p.ks.map (fun k => dumpWord p cslot k d))

/-- The pending writes of a cohort, in issue order. -/
def State.pendingWrites (s : State) (r : CohRef) (cslot : Nat) : List W64 :=
  (s.pend.filter (fun p => p.blk == r.blk && p.coh == r.coh)).flatMap (fun p => p.dump cslot)

/-- A join record in the layout of R235. -/
def Rec.layout (r : Rec) (nt : Nat) : RecDump where
  orpc := r.orpc.getD 0#64
  rp := r.rp
  low := 1#64 ||| (if r.blk then 4#64 else 0#64) ||| (if r.keep then 8#64 else 0#64)
  m := (List.range nt).map (fun t => r.m.contains t)
  arr := (List.range nt).map (fun t => r.arr.contains t)
  org := if r.blk && !r.keep then (List.range nt).map (fun t => match r.origins.find t with
    | some o => BitVec.ofNat 16 (o.1 * 2 ^ 10 + o.2)
    | none => 0#16) else []

/-- What a dump holds of a cohort of a block. -/
def State.dumpOf (s : State) (blk coh : Nat) (b : Block) (c : Cohort) : Dump where
  blk := blk
  coh := coh
  cslot := c.cslot
  img := c.toImage (s.savedAt ⟨blk, coh⟩ c)
  b := b.b
  recs := b.recs.map (fun r => r.layout b.nt)
  live := b.live
  arr := b.arr
  ph := b.ph
  ncoh := b.ncoh
  mem := (s.imageOf b).mem
  mfe := (s.imageOf b).mfe
  pend := s.pendingWrites ⟨blk, coh⟩ c.cslot

/-- The dump of a partition (R343): its resident cohorts in ascending slot. -/
def State.dump (s : State) (core part : Nat) : List Dump :=
  let cs := s.cohortsOn core part
  (List.range 11).flatMap (fun n => cs.filterMap (fun q => match s.block q.1, s.coh ⟨q.1, q.2⟩ with
    | some b, some c => if c.cslot = n then some (s.dumpOf q.1 q.2 b c) else none
    | _, _ => none))

/-- PARTITION_DUMP. -/
def execPartitionDump (core part : Nat) (s : State) : Out :=
  if s.stoppedAt core part then .next { s with dbg := { s.dbg with dump := s.dump core part } } else idle s

/-! ## Reverse stepping (R349) -/

/-- The status "out of reach" (its number is a DESIGN CHOICE, log entry 21). -/
def outOfReach : Nat := 0x100

/-- Every partition that holds a cohort of a grid is stopped. -/
def State.gridStopped (s : State) (g : Nat) : Bool :=
  s.blocks.all (fun b => b.2.grid != g || b.2.saved
    || b.2.cohs.all (fun c => c.2.gone || s.stoppedAt b.2.coreId c.2.part))

/-- NCLS of a cohort in a kept state. -/
def Snap.ncls (q : Snap) (coh : Nat) : Nat := ((q.img.coh coh).map (·.ncls)).getD 0

/-- The kept state in which a cohort first stands at clause count `n`, with a checkpoint kept before it. -/
def State.snapAt (s : State) (blk coh n : Nat) : Option Snap :=
  let l := s.dbg.snaps.filter (fun q => q.blk == blk)
  if l.any (fun q => q.ck && decide (q.ncls coh ≤ n)) then l.find? (fun q => q.ncls coh == n) else none

/-- REVERSE_STEP: the live image is saved once, the recorded state at `n` takes its place; the block's accesses that are under way
are waited for. -/
def execReverseStep (blk coh n : Nat) (s : State) : Out :=
  match s.block blk with
  | none => idle s
  | some b =>
    if !s.gridStopped b.grid ∨ b.saved ∨ ((s.dbg.live.find blk).isNone ∧ !s.allocQuiet blk b) then idle s
    else
      match s.snapAt blk coh n with
      | none => .next { s with dbg := { s.dbg with status := outOfReach } }
      | some q =>
        let live := if (s.dbg.live.find blk).isSome then s.dbg.live else s.dbg.live.set blk (s.imageOf b)
        let s1 := s.putImage blk q.img
        .next { s1 with dbg := { s1.dbg with live := live, status := 0 } }

/-! ## Engine replay (R350) -/

/-- The bytes of a ring from a position on lie at these addresses. -/
def ringHas (base size at' n a : Nat) : Bool := (List.range n).any (fun i => size != 0 && base + (at' + i) % size == a)

/-- The log of an operation is whole in the ring. -/
def Die.logWhole (d : Die) (e : EngLog) : Bool := e.whole && decide (d.engptr ≤ e.at' + d.engsize.toNat)

/-- The commands of a range of the log of a die, by their index; none when one of them is not there. -/
def Die.logRange (d : Die) (lo hi : Nat) : Option (List EngLog) :=
  let l := (d.englog.drop lo).take (hi + 1 - lo)
  if l.length = hi + 1 - lo ∧ lo ≤ hi ∧ l.all d.logWhole then some l else none

/-- A physical error about to strike lies in the log of one of the commands. -/
def Die.strikes (d : Die) (l : List EngLog) (e : ErrIn) : Bool :=
  match e with
  | .ecc1 .phys a => l.any (fun c => ringHas d.engbase.toNat d.engsize.toNat c.at' c.len a)
  | .ecc .phys g => l.any (fun c => (List.range 64).any (fun i => ringHas d.engbase.toNat d.engsize.toNat c.at' c.len (64 * g + i)))
  | _ => false

/-- An error met while the log is read, with a free replay tag (R350, R370). -/
def State.replayError (s : State) (e : ErrIn) : State :=
  let tag : W64 := Config.freeWord s.free <<< 56
  let s1 : State := { s with free := s.free + 1, errIn := s.errIn.filter (· != e) }
  match e with
  | .ecc1 _ a => s1.logMc (s.storeUnit .phys a).1 0x0A 0 false 0x0004 (some (BitVec.ofNat 64 a)) (some tag)
  | .ecc _ g =>
    let s2 := s1.setPsns .phys (setIns s1.physPsn g)
    s2.logMc (s.storeUnit .phys (64 * g)).1 0x0A 1 true 0x0005 (some (BitVec.ofNat 64 (64 * g))) (some tag)
  | _ => s1

/-- ENGINE_REPLAY: the status of R350. The replayed output is the recorded one: the replay computes it from the saved operands. -/
def execEngineReplay (die lo hi : Nat) (s : State) : Out :=
  let put (t : State) (n : Nat) : Out := .next { t with dbg := { t.dbg with status := n } }
  let d := s.die die
  if !((dieCores die).all (fun c => [0, 1, 2, 3].all (fun p => s.stoppedAt c p))) then put s 0x05
  else match d.logRange lo hi with
    | none => put s 0x04
    | some l =>
      let es := s.errIn.filter (d.strikes l)
      let s1 := es.foldl State.replayError s
      let bad := es.any (fun e => match e with
        | .ecc _ _ => true
        | _ => false)
      put s1 (if bad then 0x03 else 0x01)

/-! ## The management plane (R5, R339, R344, R347, R370) -/

/-- HOST_MAILBOX_WRITE. -/
def execHostMailboxWrite (die : Nat) (j : BitVec 4) (w : BitVec 3) (v : W64) (s : State) : Out := .next (s.wake.putMbx die j w v)

/-- A bank of a die changed. -/
def State.updBank (s : State) (die n : Nat) (f : Bank → Bank) : State :=
  let d := s.die die
  s.setDie die { d with banks := d.banks.set n (f (d.banks.get n Bank.zero)) }

/-- A word of a wide register written. -/
def putWord (r : BitVec 256) (n : Nat) (v : W64) : BitVec 256 :=
  (r &&& ~~~((0xFFFFFFFFFFFFFFFF#256) <<< (64 * n))) ||| (v.setWidth 256 <<< (64 * n))

/-- STOPST written by the host (R339): a set bit stops its partition, a clear one resumes it (log entry 83). -/
def State.putStopst (s : State) (core : Nat) (v : W64) : State :=
  [0, 1, 2, 3].foldl (fun s p =>
    if v.getLsbD p then s.updPart core p (fun q => { q with stopped := true })
    else if s.stoppedAt core p then s.resume core p else s) s

/-- The features that FEATOFF shows: none before the firmware runs (R396). -/
def State.featOffered (s : State) : W64 := if s.pow.bootst = 3 then s.host.featoff else 0#64

/-- FEATACC committed (R386): refused where it names a feature that is not offered. -/
def State.commitFeat (s : State) : State :=
  let acc := s.host.featacc
  { s with host := if acc &&& ~~~(s.featOffered.setWidth 256) ≠ 0#256 then { s.host with featst := s.host.featst ||| 1#64 }
    else { s.host with featst := 2#64, featcom := acc.setWidth 64 } }

/-- A register of the management plane written, by its access type: RW fields take the value, W1C bits are cleared by ones, RO
and reserved bits do not change; the Belfry registers that programs only read are the host's to write (R339). Registers with a row of
their own are written by it. -/
def State.putHReg (s : State) (die core : Nat) (r : HReg) (v : W64) : State :=
  let d := s.die die
  match r with
  | .bpc n => if n < 32 then s.putBelfry core (0x100 + n) v else s
  | .wpb n => if n < 4 then s.putBelfry core (0x120 + n) v else s
  | .smpper => s.setDie die { d with smpper := v.setWidth 32 }
  | .smpbase => s.setDie die { d with smpbase := v, smpptr := 0 }
  | .smpsize => s.setDie die { d with smpsize := v.toNat }
  | .mbxst => s.setDie die { d with mbxst := d.mbxst &&& ~~~(v.setWidth 16) }
  | .recctl => { s with dbg := { s.dbg with
      recctl := (v &&& 0xFFFFFFFF00000000#64) ||| (s.dbg.recctl &&& 1#64) ||| (s.dbg.recctl &&& 2#64 &&& ~~~v) } }
  | .recarm => { s with dbg := { s.dbg with recarm := v &&& 0x8000000FFFFFFFFF#64 } }
  | .logbase => { s with dbg := { s.dbg with logbase := v } }
  | .logstride => { s with dbg := { s.dbg with logstride := v.setWidth 32 } }
  | .logcount => { s with dbg := { s.dbg with logcount := v.setWidth 16 } }
  | .ckbase => { s with dbg := { s.dbg with ckbase := v } }
  | .ckdepth => { s with dbg := { s.dbg with ckdepth := v.setWidth 8 } }
  | .engbase => s.setDie die { d with engbase := v }
  | .engsize => s.setDie die { d with engsize := v }
  | .mcstatus n => if n < 32 then s.updBank die n (fun b => { b with status := b.status &&& ~~~(v &&& 0xC000000000000000#64) }) else s
  | .mcctl n => if n < 32 then s.updBank die n (fun b => { b with ctl := v &&& 0xFFFFFFFF00000003#64 }) else s
  | .mccount n => if n < 32 then s.updBank die n (fun b => { b with
      count := (b.count &&& 0x8000000000000000#64 &&& ~~~v) ||| (v &&& 0xFFFFFFFF#64) }) else s
  | .lifethr => s.setDie die { d with lifethr := v.setWidth 32 }
  | .featacc n => if n < 4 then { s with host := { s.host with featacc := putWord s.host.featacc n v } } else s
  | .route n => if n < 512 then { s with fab := { s.fab with route := s.fab.route.set n (v.setWidth 32 &&& 0x3FFFF#32) } } else s
  | .bphit p => if p < 4 then s.updPart core p (fun q => { q with bphit := v.setWidth 16 &&& 0x107#16 }) else s
  | .stopst => s.putStopst core v
  | .smpdrop => s.setDie die { d with smpdrop := v.setWidth 32 }
  | .featgo => if v = 1#64 then s.commitFeat else s
  | .ro _ | .mcaddr _ | .mcmisc _ | .lifeh | .featoff _ | .featst | .qtbase | .qtinv | .qtinvst | .dbdrop | .plim | .bootst
  | .fenced _ | .down | .inletTemp | .inputPower => s

/-- A word of a wide register read. -/
def wordOf (r : BitVec 256) (n : Nat) : W64 := r.extractLsb' (64 * n) 64

/-- What the host reads of a register (R5): the value it holds; WO registers (QTINV, FEATGO) and reserved ones read 0. The sensors of the
module show free values of each CLK (R402; log entry 84). -/
def State.getHReg (s : State) (die core : Nat) (r : HReg) : W64 :=
  let d := s.die die
  let k := s.core core
  let bank (n : Nat) : Bank := d.banks.get n Bank.zero
  match r with
  | .bpc n => k.bpc.get n 0#64
  | .wpb n => k.wpb.get n 0#64
  | .bphit p => (k.part p).bphit.setWidth 64
  | .stopst => BitVec.ofNat 64 ([0, 1, 2, 3].foldl (fun m p => if (k.part p).stopped then m + 2 ^ p else m) 0)
  | .smpper => d.smpper.setWidth 64
  | .smpdrop => d.smpdrop.setWidth 64
  | .smpbase => d.smpbase
  | .smpsize => BitVec.ofNat 64 d.smpsize
  | .mbxst => d.mbxst.setWidth 64
  | .recctl => s.dbg.recctl
  | .recarm => s.dbg.recarm
  | .logbase => s.dbg.logbase
  | .logstride => s.dbg.logstride.setWidth 64
  | .logcount => s.dbg.logcount.setWidth 64
  | .ckbase => s.dbg.ckbase
  | .ckdepth => s.dbg.ckdepth.setWidth 64
  | .engbase => d.engbase
  | .engsize => d.engsize
  | .mcstatus n => (bank n).status
  | .mcaddr n => (bank n).addr
  | .mcmisc n => (bank n).misc
  | .mcctl n => (bank n).ctl
  | .mccount n => (bank n).count
  | .lifethr => d.lifethr.setWidth 64
  | .lifeh => d.lifeh.setWidth 64
  | .featacc n => wordOf s.host.featacc n
  | .featoff n => if n = 0 then s.featOffered else 0#64
  | .featst => s.host.featst
  | .qtbase => s.host.qtbase
  | .qtinvst => if s.host.qtinv.isEmpty then 0#64 else 1#64
  | .dbdrop => s.host.dbdrop
  | .plim => s.pow.plim.setWidth 64
  | .bootst => BitVec.ofNat 64 s.pow.bootst
  | .route n => (s.fab.route.get n 0#32).setWidth 64
  | .fenced c => if (s.core c).fenced then 1#64 else 0#64
  | .down => BitVec.ofNat 64 (s.fab.down.foldl (fun m l => m + 2 ^ l) 0)
  | .inletTemp => (Config.inletTemp s.clk).setWidth 64
  | .inputPower => (Config.inputPower s.clk).setWidth 64
  | .featgo | .qtinv | .ro _ => 0#64

/-- REGISTER_WRITE. -/
def execRegisterWrite (die core : Nat) (r : HReg) (v : W64) (s : State) : Out := .next (s.wake.putHReg die core r v)

end Sys2Proof.Machine
end

