-- ==== Sys2Proof/Machine/Errors.lean ====
section
/-! DEFINITION. Errors that stop or wear the package: CRC failures (R365, R368), the fatal stop (R372), the end of a self-test group
(R373), wear (R374). -/

namespace Sys2Proof.Machine

/-! ## CRC (R365, R368, R394, R395) -/

/-- The links whose flits carry a CRC: Spire links 0 to 17, the crossbar of die d at 18 + d, the network router of die d at 22 + d (the
router of the I/O die last): unit and die of the bank that logs them. -/
def linkUnit (link : Nat) : Nat × Nat :=
  if link < 18 then (0x0C, 0) else if link < 22 then (0x0B, link - 18) else if link < 26 then (0x0B, link - 22) else (0x0B, 0)

/-- CRC_RETRANSMIT: a flit on a link fails its CRC, for the first time or `again` after a retransmission. Up to the 8th
retransmission it is corrected; then the link is exhausted: contained on a Spire link, which goes down, fatal elsewhere. -/
def execCrcRetransmit (link : Nat) (again : Bool) (s : State) : Out :=
  let u := linkUnit link
  let n := if again then s.fab.crcs.get link 0 + 1 else 1
  let s1 : State := { s with fab := { s.fab with crcs := s.fab.crcs.set link n } }
  if s.pow.fatal ∨ s.fab.down.contains link then idle s
  else if n ≤ 8 then .next (s1.logMc u.2 u.1 0 false 0x0006 none none)
  else if link < 18 then .next (s1.logMc u.2 u.1 1 false 0x0007 none none)
  else
    let s2 := s1.logMc u.2 u.1 2 false 0x0007 none none
    .next { s2 with pow := { s2.pow with raised := some (u.2, u.1 - 1) } }

/-! ## The fatal stop (R372) -/

/-- The locations of main memory and of scratchpads that an access in flight may have written hold unspecified values: free values
(log entry 3). -/
def State.spoil (s : State) (p : Pend) : State :=
  if p.kind.isRead && !(match p.kind with
    | .gaths _ _ | .atom _ _ _ | .cas _ | .scata _ | .stx _ => true
    | .hacc _ _ _ => true
    | _ => false) then s
  else
    let dst : AMap (List Acc) := match p.kind with
      | .gaths d _ => d.filter (fun l => !p.done.getLsbD l.1)
      | _ => p.lanes
    dst.foldl (fun s l => l.2.foldl (fun s a => if a.z = 0 then s else s.putFree a.store a.addr a.z) s) s

/-- The same for the bytes of a copy that have not landed. -/
def State.spoilCopy (s : State) (c : CopyT) : State :=
  let step (s : State) (i : Nat) : State :=
    let p := c.pos i
    if c.out then
      (match s.translate (xunit c.core) c.pasid (c.memAddr p) .copyOut with
        | (_, .ok pa) => s.putFree .phys pa 1
        | (_, .error _) => s)
    else if c.empty then s
    else c.sps.foldl (fun s e => let q := e.place (c.spAddr e p); s.putFree q.1 q.2 1) s
  (List.range (c.total - c.done)).foldl (fun s i => step s (c.done + i)) s

/-- The same for the destination of a COPY command that is under way. -/
def State.spoilCmd (q : Nat) (s : State) (c : Cmd) : State :=
  if !c.began || c.op != 2 then s
  else (List.range (c.w32 32)).foldl (fun s i => match s.hostAddr q (c.w64 24 + BitVec.ofNat 64 i) .copyOut with
    | (_, .ok a) => s.putFree .phys a 1
    | (_, .error _) => s) s

/-- A die without work: no capability, fault record or task. -/
def Die.noWork (d : Die) : Die := { d with caps := [], fq := [], heldq := [], nestq := [], tq := [] }

/-- A core without work: nothing in its partitions, its FIFOs or its queue for slots, and no test. -/
def Core.noWork (k : Core) : Core :=
  { k with
    fifo := []
    testing := false
    parts := k.parts.map (fun p => (p.1, { p.2 with cur := none, last := none })) }

/-- Every grid, task record, copy, Turret request and fault record discarded. -/
def State.discardWork (s : State) : State :=
  let s0 := s.copies.foldl State.spoilCopy (s.pend.foldl State.spoil s)
  let s1 := (AMap.keys s.host.queues).foldl (fun t q => (s.queue q).cmds.foldl (State.spoilCmd q) t) s0
  { s1 with
    cur := none
    grids := []
    blocks := []
    pend := []
    copies := []
    missq := []
    cores := s1.cores.map (fun k => (k.1, k.2.noWork))
    dies := s1.dies.map (fun d => (d.1, d.2.noWork))
    fab := { s1.fab with reqs := [] }
    dbg := { s1.dbg with live := [], recctl := s1.dbg.recctl &&& ~~~1#64 } }

/-- FATAL_STOP: the fatal error logged in a bank stops issue, discards all work and ends the outstanding commands. -/
def execFatalStop (die bank : Nat) (s : State) : Out :=
  if s.pow.raised = some (die, bank) then
    let s1 := s.discardWork
    .next ({ s1 with pow := { s1.pow with raised := none, fatal := true } }.fatalCmds)
  else idle s

/-! ## Self-test (R373) -/

/-- The cores under test of a cluster, the first 16. -/
def State.testGroup (s : State) (die clus : Nat) : List Nat :=
  ((clusCores die clus).filter (fun c => (s.core c).testing)).take 16

/-- Nothing is resident on a core. -/
def State.coreIdle (s : State) (core : Nat) : Bool := !s.blocks.any (fun b => b.2.coreId == core && !b.2.saved)

/-- 1.5 ms in cycles: the time a group takes. -/
def testCycles : Nat := 2250000

/-- The cores a SELFTEST command names. -/
def Cmd.testCores (c : Cmd) : List Nat :=
  let m : Nat := ((List.range 4).foldl (fun n i => n + (c.w64 (32 + 8 * i)).toNat * 2 ^ (64 * i)) 0)
  (List.range 256).filterMap (fun i => if m.testBit i then some (256 * (c.byte 16) + i) else none)

/-- The groups of a cluster that a command's cores make, and how many of them are still under test. -/
def State.testsLeft (s : State) (c : Cmd) (clus : Nat) : Nat × Nat :=
  let cs := c.testCores.filter (fun k => k % 256 / 64 == clus)
  ((cs.length + 15) / 16, ((cs.filter (fun k => (s.core k).testing)).length + 15) / 16)

/-- The SELFTEST commands under way, with their queues. -/
def State.selftests (s : State) : List (Nat × Cmd) :=
  s.host.queues.flatMap (fun q => (q.2.cmds.filter (fun c => c.began && c.op == 6)).map (fun c => (q.1, c)))

/-- The time of the group of a cluster is over: for every command that names a core of it, its groups before and this one. -/
def State.groupTime (s : State) (die clus : Nat) : Bool :=
  s.selftests.all (fun q => q.2.byte 16 != die || (
    let n := s.testsLeft q.2 clus
    n.2 == 0 || decide (q.2.since + testCycles * (n.1 - n.2 + 1) ≤ s.clk)))

/-- A core at the end of its test: it returns to dispatch, or it stays fenced and is logged. -/
def State.coreTested (s : State) (core : Nat) : State :=
  let fails := s.errIn.contains (.core core)
  let s1 : State := { s.setCore core { s.core core with testing := false, fenced := fails } with
    errIn := s.errIn.filter (· != .core core) }
  if fails then s1.logMc (core / 256) 0x0E 0 false 0x000A none (some (BitVec.ofNat 64 (core % 256 * 256))) else s1

/-- The mask of the cores that failed, as four words. -/
def State.failMask (s : State) (c : Cmd) : List W64 :=
  (List.range 4).map (fun i => (c.testCores.filter (fun k => k % 256 / 64 == i && (s.core k).fenced)).foldl
    (fun (m : W64) k => m ||| (1#64 <<< (k % 64))) 0#64)

/-- A SELFTEST whose cores are all tested completes: the mask at its result VA, then the completion word. -/
def State.selftestEnd (s : State) (q : Nat × Cmd) : State :=
  if q.2.testCores.any (fun k => (s.core k).testing) then s
  else
    let r := (s.failMask q.2).zipIdx.foldl (fun (r : State × Bool) w =>
      let t := r.1.hostWrite q.1 (q.2.w64 24 + BitVec.ofNat 64 (8 * w.2)) w.1
      (t.1, r.2 && t.2)) (s, true)
    r.1.cmdEnd q.1 q.2.id (if r.2 then 0 else 0x12)

/-- SELFTEST_GROUP_COMPLETE: the group under test in cluster `group` of a die. -/
def execSelftestGroupComplete (die group : Nat) (s : State) : Out :=
  let g := s.testGroup die group
  if g.isEmpty ∨ !g.all s.coreIdle ∨ !s.groupTime die group ∨ s.pow.fatal then idle s
  else
    let s1 := g.foldl State.coreTested s
    .next (s.selftests.foldl State.selftestEnd s1)

/-! ## Wear (R374) -/

/-- LIFEH_UPDATE: the least remaining life that a monitor predicts; a value below the threshold is logged when it falls below. -/
def execLifehUpdate (die : Nat) (v : W32) (s : State) : Out :=
  let d := s.die die
  let s1 := s.setDie die { d with lifeh := v }
  .next (if v.toNat < d.lifethr.toNat ∧ d.lifethr.toNat ≤ d.lifeh.toNat then s1.logMc die 0x0F 0 false 0x000B none none else s1)

end Sys2Proof.Machine
end

