-- ==== Sys2Proof/Machine/HostCmd.lean ====
section
/-! DEFINITION. The commands of the host (R292, R293, R376 to R387): doorbells, the fetch of a command, LAUNCH, COPY, WAITVAL, SIGNAL,
BRANCH, SELFTEST and FENCE, queue bindings, invalidation of the queue table, and the negotiation of features. -/

namespace Sys2Proof.Machine

/-! ## Doorbells (R379) -/

/-- The firmware runs: commands, bindings and features exist only then (R396). -/
def State.running (s : State) : Bool := s.pow.on && s.pow.bootst == 3 && !s.pow.fatal

/-- A dropped doorbell write is counted, saturating. -/
def State.dropBell (s : State) : State :=
  { s with host := { s.host with dbdrop := if s.host.dbdrop.toNat < 0xFFFFFFFF then s.host.dbdrop + 1#64 else s.host.dbdrop } }

/-- The entries of both levels are valid and present. -/
def Qcb.live (c : Option Qcb) : Bool := (c.map (fun c => c.valid && c.pres)).getD false

/-- DOORBELL: the write of a tail count; the register holds bits 31 to 0. -/
def execDoorbell (q tail : Nat) (s : State) : Out :=
  if !s.pow.on ∨ 16384 ≤ q then idle s
  else
    let s0 := s.wake
    if s0.pow.bootst ≠ 3 then .next s0.dropBell
    else if (s0.queue q).state = 2 then .next s0
    else
      let t := tail % 2 ^ 32
      match s0.qcb q with
      | (s1, none) => .next s1.dropBell
      | (s1, some c) =>
        if !c.valid || !c.pres then .next s1.dropBell
        else
          let s2 := s1.updQueue q (fun x => { x with tail := t })
          let x := s2.queue q
          let past := decide (2 ^ c.log2n < (t + 2 ^ 32 - x.head) % 2 ^ 32)
          .next (if x.bound && past then s2.queueError q 0x13 else s2)

/-! ## Fetching a command (R380 to R382) -/

/-- Bytes from `i` up to `j` of a slot are zero. -/
def Cmd.zeros (c : Cmd) (i j : Nat) : Bool := (List.range (j - i)).all (fun k => c.byte (i + k) == 0)

/-- A slot is a well-formed command (R381). -/
def Cmd.wellFormed (c : Cmd) (log2n : Nat) : Bool :=
  c.byte 1 / 4 == 0 && c.zeros 2 4 && (!c.flags.getLsbD 1 || (c.w64 8).toNat % 8 == 0)
  && (match c.op with
    | 1 => c.zeros 24 64
    | 2 => decide (c.byte 36 ≤ 5) && c.zeros 37 64
    | 3 => decide (c.byte 32 ≤ 3) && c.zeros 33 36 && c.zeros 40 64
    | 4 => decide (c.byte 32 ≤ 1) && c.zeros 33 64
    | 5 => decide (c.byte 32 ≤ 3) && c.zeros 33 36 && decide (c.w32 36 < 2 ^ log2n) && c.zeros 40 64
    | 6 => decide (c.byte 16 ≤ 3) && c.zeros 17 24
    | 7 => c.zeros 16 64
    | _ => false)

/-- The queue may read its next slot: enabled, running, slots left, every earlier command started, and no WAITVAL or BRANCH
unfinished. -/
def State.canFetch (s : State) (q : Nat) : Bool :=
  let x := s.queue q
  s.running && !s.pow.ps2 && x.bound && x.state != 2 && x.head != x.tail
  && x.cmds.all (fun c => c.began && c.op != 3 && c.op != 5)

/-- QUEUE_COMMAND_FETCH: the slot at HEAD is read; a malformed one ends with status 0x13. -/
def execQueueCommandFetch (q : Nat) (s : State) : Out :=
  if !s.canFetch q then idle s
  else
    match s.qcb q with
    | (_, none) => idle s
    | (s1, some c) =>
      if !c.valid || !c.pres then idle s
      else
        let slot := (s1.queue q).head % 2 ^ c.log2n
        match State.hostRead q 8 (c.ring + BitVec.ofNat 64 (64 * slot)) s1 with
        | (s2, .error _) => .next (s2.queueError q 0x12)
        | (s2, .ok ws) =>
          let w0 := ws.getD 0 0#64
          let k : Cmd :=
            { id := s2.nid
              slot := slot
              op := bitsAt w0.toNat 0 8
              flags := BitVec.ofNat 64 (bitsAt w0.toNat 8 8)
              words := ws
              began := false
              done := false
              stat := 0
              since := s2.clk }
          let s3 := { s2.updQueue q (fun x => { x with cmds := x.cmds ++ [k] }) with nid := s2.nid + 1 }
          .next (if k.wellFormed c.log2n then s3 else s3.cmdEnd q k.id 0x13)

/-! ## LAUNCH (R292, R293) -/

/-- Bits of a word of the record. -/
def recBits (ws : List W64) (i o n : Nat) : Nat := bitsAt (ws.getD i 0#64).toNat o n

/-- The launch record of 32 words. -/
def lrecOf (ws : List W64) : LaunchRec where
  prog := ws.getD 0 0#64
  hentry := ws.getD 1 0#64
  gx := recBits ws 2 0 32
  gy := recBits ws 2 32 16
  gz := recBits ws 2 48 16
  bx := recBits ws 3 0 16
  by' := recBits ws 3 16 16
  bz := recBits ws 3 32 16
  vr8 := recBits ws 3 48 8
  mtb := recBits ws 3 56 8
  dualn := recBits ws 4 0 8
  prio := recBits ws 4 8 8
  tc := recBits ws 4 16 8
  bslot := recBits ws 4 24 8
  sb := recBits ws 4 32 32
  pfb := recBits ws 5 0 16
  spd := recBits ws 5 16 8
  trapen := BitVec.ofNat 3 (recBits ws 5 24 3)
  aff := recBits ws 5 32 1 == 1
  win := recBits ws 5 33 1 == 1
  dstride := ws.getD 6 0#64
  sdstr := BitVec.ofNat 32 (recBits ws 7 0 32)
  ddstr := BitVec.ofNat 32 (recBits ws 7 32 32)
  dwbase := recBits ws 8 0 32
  dwsize := recBits ws 8 32 32
  seedb := BitVec.ofNat 32 (recBits ws 9 0 32)
  tdecl := recBits ws 9 32 8
  affbase := ws.getD 10 0#64
  affstr := ws.getD 11 0#64
  rsave := ws.getD 12 0#64
  rsize := (ws.getD 13 0#64).toNat
  result := ws.getD 14 0#64

/-- A reserved byte or bit of the record is not zero. -/
def recReserved (ws : List W64) : Bool :=
  recBits ws 5 27 5 != 0 || recBits ws 5 34 30 != 0 || recBits ws 9 40 24 != 0 || (ws.drop 15).any (fun w => w != 0#64)

/-- The checks of R293 in their order: the status of the first that fails. -/
def recCheck (ws : List W64) : Option Nat :=
  let l := lrecOf ws
  let need := l.need l.nt
  let dim (n : Nat) : Bool := decide (1 ≤ n) && decide (n ≤ 1024)
  if recReserved ws then some 0x01
  else if l.gx = 0 ∨ l.gy = 0 ∨ l.gz = 0 ∨ !dim l.bx ∨ !dim l.by' ∨ !dim l.bz ∨ 1024 < l.nt then some 0x02
  else if l.vr8 = 0 ∨ 32 < l.vr8 ∨ 64 < l.mtb ∨ 4 < l.dualn ∨ 4 < l.tdecl ∨ 3 < l.prio ∨ 5 < l.tc ∨ 1 < l.bslot then some 0x03
  else if l.sb % 16 ≠ 0 ∨ l.pfb % 16 ≠ 0 ∨ 4096 < l.pfb ∨ !need.fitsEmpty then some 0x04
  else if l.tans ≠ 0 ∧ (l.dstride = 0#64 ∨ l.dstride.toNat % 128 ≠ 0 ∨ l.sdstr.toNat % 16 ≠ 0 ∨ l.ddstr.toNat % 16 ≠ 0
      ∨ l.pfb % (16 * (l.tans + 1)) ≠ 0) then some 0x05
  else if l.dwbase % 16 ≠ 0 ∨ l.dwsize % 16 ≠ 0 ∨ 67108864 < l.dwbase + l.dwsize then some 0x06
  else if l.prog = 0#64 ∨ l.hentry = 0#64 ∨ l.prog.toNat % 8 ≠ 0 ∨ l.hentry.toNat % 8 ≠ 0 then some 0x07
  else if l.rsize ≠ 0 ∧ l.rsave.toNat % 4096 ≠ 0 then some 0x08
  else none

/-- The launch is recorded: armed for its queue and PASID, and no recorded grid runs (R347). -/
def State.records (s : State) (q : Nat) : Bool :=
  let a := s.dbg.recarm
  s.feature 3 && a.getLsbD 63 && a.extractLsb' 0 20 == (s.queue q).pasid && bitsAt a.toNat 20 16 == q
  && !s.grids.any (fun g => g.2.recd && g.2.stat == .running)

/-- A new grid. -/
def mkGrid (s : State) (q id : Nat) (l : LaunchRec) (rec : Bool) : Grid where
  lrec := l
  pasid := (s.queue q).pasid
  qn := BitVec.ofNat 16 q
  cmd := id
  stat := .running
  status := 0
  next := 0
  ahead := []
  done := 0
  gph := 0
  garr := []
  sbars := []
  since := none
  rot := []
  slots := []
  waits := some s.clk
  recd := rec
  regn := 0

/-- The grid of an accepted record. -/
def State.startGrid (s : State) (q id : Nat) (l : LaunchRec) : State :=
  let r := s.records q
  let s1 := { s.setGrid s.nid (mkGrid s q id l r) with nid := s.nid + 1 }
  if r then { s1 with dbg := { s1.dbg with recctl := s1.dbg.recctl ||| 1#64 } } else s1

/-- A command that starts and ends at once. -/
def State.cmdOver (s : State) (q id st : Nat) : State := (s.cmdBegin q id).cmdEnd q id st

/-- LAUNCH. -/
def execLaunch (q id : Nat) (s : State) : Out :=
  match s.cmdReady q id 1 with
  | none => idle s
  | some c =>
    match State.hostRead q 32 (c.w64 16) s with
    | (s1, .error _) => .next (s1.cmdOver q id 0x12)
    | (s1, .ok ws) =>
      let l := lrecOf ws
      match recCheck ws with
      | some st => .next (s1.cmdOver q id st)
      | none =>
        if l.dualn ≠ 0 ∧ !s1.feature 2 then .next (s1.cmdOver q id 0x15)
        else
          match s1.qcb q with
          | (s2, some b) =>
            if b.pcap < l.prio then .next (s2.cmdOver q id 0x16) else .next ((s2.cmdBegin q id).startGrid q id l)
          | (_, none) => idle s

/-! ## COPY (R382) -/

/-- Bytes copied piece by piece, no piece across 64 bytes at either end; poison goes with its granule. False on a fault, with the pieces
before it landed. -/
def State.copyBytes (q : Nat) : Nat → W64 → W64 → Nat → State → State × Bool
  | 0, _, _, _, s => (s, true)
  | fuel + 1, src, dst, left, s =>
    if left = 0 then (s, true)
    else
      let n := Nat.min left (Nat.min (64 - src.toNat % 64) (64 - dst.toNat % 64))
      match s.hostAddr q src .copyIn with
      | (s1, .error _) => (s1, false)
      | (s1, .ok a) => match s1.hostAddr q dst .copyOut with
        | (s2, .error _) => (s2, false)
        | (s2, .ok b) =>
          let s3 := s2.readCheck .phys a n
          let s4 := (s3.writeBytes .phys b (s3.phys.readN a n)).writePsn .phys b n (s3.poisoned .phys a n)
          State.copyBytes q fuel (src + BitVec.ofNat 64 n) (dst + BitVec.ofNat 64 n) (left - n) s4

/-- COPY: the first time it is issued to an engine, then its bytes land and it completes. -/
def execCopy (q id : Nat) (s : State) : Out :=
  match s.cmdReady q id 2 with
  | some _ => .next (s.cmdBegin q id)
  | none =>
    match s.cmdOf q id with
    | some c =>
      if c.op = 2 ∧ c.began ∧ !s.pow.fatal ∧ s.pow.on then
        let r := State.copyBytes q (c.w32 32) (c.w64 16) (c.w64 24) (c.w32 32) s
        .next (r.1.cmdEnd q id (if r.2 then 0 else 0x12))
      else idle s
    | none => idle s

/-! ## WAITVAL (R382, R383) -/

/-- The compare byte of a command against its value. -/
def Cmd.holds (c : Cmd) (v : W64) : Bool :=
  match c.byte 32 with
  | 0 => v == c.w64 24
  | 1 => v != c.w64 24
  | 2 => decide ((c.w64 24).toNat ≤ v.toNat)
  | _ => decide (v.toNat < (c.w64 24).toNat)

/-- WAITVAL starts: its timeout counts from here. -/
def execWaitval (q id : Nat) (s : State) : Out :=
  match s.cmdReady q id 3 with
  | some _ => .next (s.cmdBegin q id)
  | none => idle s

/-- A WAITVAL under way. -/
def State.waitvalOf (s : State) (q id : Nat) : Option Cmd :=
  (s.cmdOf q id).filter (fun c => c.began && c.op == 3 && !s.pow.fatal && s.pow.on)

/-- WAITVAL_COMPARE_HOLDS: the word is read; a word that cannot be read ends the command. -/
def execWaitvalCompareHolds (q id : Nat) (s : State) : Out :=
  match s.waitvalOf q id with
  | none => idle s
  | some c =>
    match s.hostWord q (c.w64 16) .read with
    | (s1, .error _) => .next (s1.cmdEnd q id 0x12)
    | (s1, .ok v) => if c.holds v then .next (s1.cmdEnd q id 0) else idle s

/-- WAITVAL_TIMEOUT: its microseconds are over. -/
def execWaitvalTimeout (q id : Nat) (s : State) : Out :=
  match s.waitvalOf q id with
  | none => idle s
  | some c =>
    if c.w32 36 ≠ 0 ∧ c.since + 1500 * c.w32 36 ≤ s.clk then .next (s.cmdEnd q id 0x14) else idle s

/-! ## SIGNAL, BRANCH, SELFTEST, FENCE -/

/-- SIGNAL. -/
def execSignal (q id : Nat) (s : State) : Out :=
  match s.cmdReady q id 4 with
  | none => idle s
  | some c =>
    let s0 := s.cmdBegin q id
    match s0.hostWord q (c.w64 16) .atomic with
    | (s1, .error _) => .next (s1.cmdEnd q id 0x12)
    | (s1, .ok v) =>
      let r := s1.hostPut q (c.w64 16) (if c.byte 32 = 1 then v + c.w64 24 else c.w64 24) .atomic
      .next (r.1.cmdEnd q id (if r.2 then 0 else 0x12))

/-- The count of a target slot: in the lap of the current slot, or the next one when it does not lie behind it. -/
def branchTo (log2n head target : Nat) : Nat :=
  let n := 2 ^ log2n
  let lap := head / n * n
  (if target ≤ head % n then lap + n + target else lap + target) % 2 ^ 32

/-- BRANCH. -/
def execBranch (q id : Nat) (s : State) : Out :=
  match s.cmdReady q id 5 with
  | none => idle s
  | some c =>
    match s.hostWord q (c.w64 16) .read with
    | (s1, .error _) => .next (s1.cmdOver q id 0x12)
    | (s1, .ok v) =>
      let h := (s1.queue q).head
      let s2 := s1.cmdBegin q id
      match s2.qcb q with
      | (s3, some b) =>
        .next ((if c.holds v then s3.updQueue q (fun x => { x with head := branchTo b.log2n h (c.w32 36) }) else s3).cmdEnd q id 0)
      | (s3, none) => .next (s3.cmdEnd q id 0)

/-- SELFTEST: its cores take no more work. -/
def execSelftest (q id : Nat) (s : State) : Out :=
  match s.cmdReady q id 6 with
  | none => idle s
  | some c =>
    if !s.feature 4 then .next (s.cmdOver q id 0x15)
    else
      let s1 := c.testCores.foldl (fun s k => s.setCore k { s.core k with testing := true }) (s.cmdBegin q id)
      .next (if c.testCores.isEmpty then s1.selftestEnd (q, c) else s1)

/-- FENCE. -/
def execFenceCommand (q id : Nat) (s : State) : Out :=
  match s.cmdReady q id 7 with
  | none => idle s
  | some _ => .next (s.cmdOver q id 0)

/-! ## Bindings and the queue table (R378, R387) -/

/-- A feature commit has succeeded. -/
def HostSt.committed (h : HostSt) : Bool := h.featst.getLsbD 1

/-- QBIND_WRITE: EN rising binds the queue at its doorbell count; EN falling lets started commands end. A write that sets EN before a
commit is ignored. -/
def execQbindWrite (n : Nat) (v : W64) (s : State) : Out :=
  let x := s.queue n
  let en := v.getLsbD 31
  let val := v &&& 0x800FFFFF#64
  if 16384 ≤ n ∨ !s.pow.on ∨ (en ∧ (!s.host.committed ∨ s.pow.bootst ≠ 3)) then idle s
  else
    let moved := val.extractLsb' 0 20 != x.pasid
    let y : Queue := { x with
      binding := val
      bound := en
      entry := if moved then none else x.entry
      cmds := if en then x.cmds else x.cmds.filter (·.began) }
    .next (if en ∧ !x.bound then (s.setQueue n { y with head := x.tail, state := 0, err := 0 }).syncQcb n
      else s.setQueue n y)

/-- QTINV: the invalidation runs after those before it. -/
def execQtinv (v : W64) (s : State) : Out :=
  .next { s with host := { s.host with qtinv := s.host.qtinv ++ [v] } }

/-- What an invalidation drops: with ALL every cached entry, with PAS those of its PASID, else the block of its queue. -/
def State.qtDrop (s : State) (v : W64) : State :=
  let h := s.host
  let pasid := v.extractLsb' 0 20
  let hit (q : Nat × Queue) : Bool :=
    if v.getLsbD 63 then true else if v.getLsbD 62 then q.2.pasid == pasid else q.1 == bitsAt v.toNat 20 16
  { s with host := { h with
    queues := h.queues.map (fun q => if hit q then (q.1, { q.2 with entry := none }) else q)
    pasids := if v.getLsbD 63 then [] else if v.getLsbD 62 then h.pasids.del pasid.toNat else h.pasids } }

/-- QTINV_COMPLETE. -/
def execQtinvComplete (s : State) : Out :=
  match s.host.qtinv with
  | [] => idle s
  | v :: r =>
    let s1 := s.qtDrop v
    .next { s1 with host := { s1.host with qtinv := r } }

/-- QTBASE_WRITE: ignored while a queue is enabled. -/
def execQtbaseWrite (v : W64) (s : State) : Out :=
  if s.host.queues.any (fun q => q.2.bound) then idle s
  else .next { s with host := { s.host with qtbase := v &&& ~~~0xFFFF#64 } }

/-! ## Features (R386) -/

/-- FEATGO: the host writes 1, which commits FEATACC (R386); another value written is a REGISTER_WRITE that changes nothing. -/
def execFeatgo (s : State) : Out := .next s.commitFeat

end Sys2Proof.Machine
end

