-- ==== Sys2Proof/Machine/Fabric.lean ====
section
/-! DEFINITION. The package network and the Spire links (R389 to R395): the weights, the flits of requests between dies, reassembly
in sequence order, and a link that goes down. A request that no flit event names is delivered without steps of its own (log entry 22). -/

namespace Sys2Proof.Machine

/-! ## Weights (R392) -/

/-- WEIGHT of a class: 0 to 7 of the crossbar, 8 to 15 of the network router of a die; 4 at reset, and 0 acts as 1. -/
def Die.weight (d : Die) (n : Nat) : Nat := Nat.max 1 (d.qw.get n 4#32).toNat

/-- QW_WEIGHT_WRITE: the weight of a class of the crossbar, or of the network router, of a die. -/
def execQwWeightWrite (die n : Nat) (router : Bool) (v : W32) (s : State) : Out :=
  if 8 ≤ n then idle s
  else
    let d := s.die die
    .next (s.wake.setDie die { d with qw := d.qw.set (n + if router then 8 else 0) (v &&& 0xFF#32) })

/-! ## The arbiter of an output (R390, R391) -/

/-- The classes of the group that competes: the high group, TC6 and TC7, when one of its classes holds a flit; else TC0 to TC5. -/
def groupOf (has : Nat → Bool) : List Nat := if has 6 || has 7 then [6, 7] else [0, 1, 2, 3, 4, 5]

/-- The class that a group's round visits. -/
def Arb.pos (a : Arb) (hi : Bool) : Option Nat := if hi then a.hi else a.lo
def Arb.setPos (a : Arb) (hi : Bool) (c : Nat) : Arb := if hi then { a with hi := some c } else { a with lo := some c }

/-- A class is visited: its weight is added to its counter. -/
def Arb.visit (a : Arb) (hi : Bool) (c : Nat) : Arb :=
  { a.setPos hi c with dc := a.dc.set c (a.dc.get c 0 + 64 * Nat.max 1 (a.w.get c 4)) }

/-- The class that sends the next flit (R390, R391): the one visited while its counter lasts, else the next in ascending TC that holds a
flit; past the last of them a new round begins, with the weights as they then stand (R392). -/
def Arb.choose (a : Arb) (wt : Nat → Nat) (has : Nat → Bool) : Option (Nat × Arb) :=
  let hi := has 6 || has 7
  let cls := (groupOf has).filter has
  match (a.pos hi).filter (fun c => has c && decide (64 ≤ a.dc.get c 0)) with
  | some c => some (c, a)
  | none => match cls.find? (fun c => (a.pos hi).any (fun p => decide (p < c))) with
    | some c => some (c, a.visit hi c)
    | none => match cls.head? with
      | some c => some (c, Arb.visit { a with w := (groupOf has).foldl (fun m k => m.set k (wt k)) a.w } hi c)
      | none => none

/-- The input that wins among those that hold a flit of the class (R390): the least recently granted; of inputs never granted the lowest
(log entry 22). -/
def Arb.input (a : Arb) (ins : List Nat) : Option Nat :=
  match ins.find? (fun i => ins.all (fun j => !(a.lru.get i []).contains j)) with
  | some i => some i
  | none => ins.head?

/-- A flit of a class granted to an input (R390, R391): 64 bytes leave the counter, which is 0 when the class holds no further flit; every
bit of the winner is set, and its bit at every other input cleared. -/
def Arb.granted (a : Arb) (c i : Nat) (more : Bool) : Arb :=
  { a with
    dc := a.dc.set c (if more then a.dc.get c 0 - 64 else 0)
    lru := AMap.set (a.lru.map (fun p => (p.1, p.2.filter (· != i)))) i ((List.range 64).filter (· != i)) }

/-! ## The deflection network (R393, R394) -/

/-- The I/O die among the five dies of the network. -/
def ioDie : Nat := 4

/-- The die that serves an access. -/
def Acc.home (a : Acc) : Nat :=
  match a.store with
  | .phys => ((hbmPlace a.addr).map (·.1)).getD ioDie
  | .core c => c / 256
  | .die d => d
  | .hblk _ => ioDie

/-- The first access of an operation that leaves its die: its home, the bytes it carries there. -/
def Pend.away (p : Pend) (die : Nat) : Option (Nat × Nat) :=
  let as := (p.lanes.flatMap (fun l => l.2)).filter (fun a => a.z != 0 && a.home != die && (match a.store with
    | .hblk _ => false
    | _ => true))
  as.head?.map (fun a => (a.home, (as.filter (fun b => b.home == a.home)).foldl (fun n b => n + b.z) 0))

/-- The traffic class of a block's requests: the launch's, TC6 for a handler (R125). -/
def State.trafficClass (s : State) (b : Block) : Nat := if b.isHandler then 6 else ((s.grid b.grid).map (·.lrec.tc)).getD 0

/-- A request of a block on its way to another die: its flits of 64 bytes stand in the injection queue of its die's router. -/
def State.inject (s : State) (id : Nat) (b : Block) (dst bytes : Nat) : State :=
  let key := 8 * b.die + dst
  let n := s.fab.seqOut.get key 0
  let src := b.die
  let r : NetReq := ⟨id, s.trafficClass b, b.core / 16, src, dst, s.clk, n, List.replicate (Nat.max 1 ((bytes + 63) / 64)) (src, false)⟩
  { s with fab := { s.fab with reqs := s.fab.reqs ++ [r], seqOut := s.fab.seqOut.set key (n + 1) } }

/-- A flit at a router: its age, its source, its number, the request with its class and port, whether it arrived over a link. -/
structure Flit where
  inj  : Nat
  src  : Nat
  num  : Nat
  id   : Nat
  dst  : Nat
  tc   : Nat
  port : Nat
  arr  : Bool
deriving DecidableEq, Repr

/-- The flits that stand at a router and go on. -/
def FabSt.flitsAt (f : FabSt) (die : Nat) : List Flit :=
  f.reqs.flatMap (fun r => r.flits.zipIdx.filterMap (fun p =>
    if p.1.1 = die ∧ die ≠ r.dst then some ⟨r.inj, r.src, p.2, r.id, r.dst, r.tc, r.port, p.1.2⟩ else none))

/-- The rank of R393: the older, the lower source, the lower number first. -/
def Flit.before (a b : Flit) : Bool :=
  if a.inj ≠ b.inj then decide (a.inj < b.inj)
  else if a.src ≠ b.src then decide (a.src < b.src)
  else if a.id ≠ b.id then decide (a.id < b.id)
  else decide (a.num < b.num)

/-- Flits in their rank. -/
def rankFlits (l : List Flit) : List Flit :=
  l.foldl (fun r a => r.takeWhile (fun b => b.before a) ++ a :: r.dropWhile (fun b => b.before a)) []

/-- The links that flits take in their order: the direct one if it is free, else the lowest free one. -/
def takeLinks : List Flit → List Nat → List (Flit × Nat)
  | [], _ => []
  | f :: r, free =>
    if free.contains f.dst then (f, f.dst) :: takeLinks r (free.filter (· != f.dst))
    else match free with
      | n :: ns => (f, n) :: takeLinks r ns
      | [] => takeLinks r []

/-- The flit that the injection queue of a die sends next, with the arbiter behind its grant (R390, R391, R393). -/
def State.nextNew (s : State) (die : Nat) : Option (Flit × Arb) :=
  let new := rankFlits ((s.fab.flitsAt die).filter (fun f => !f.arr))
  let d := s.die die
  match d.net.choose (fun c => d.weight (c + 8)) (fun c => new.any (fun f => f.tc == c)) with
  | none => none
  | some (c, a) =>
    let mine := new.filter (fun f => f.tc == c)
    match (a.input (mine.map (·.port))).bind (fun i => mine.find? (fun f => f.port == i)) with
    | some f => some (f, a.granted c f.port (decide (1 < mine.length)))
    | none => none

/-- A flit of a request at a router leaves it: those that have arrived take their links first, in rank order, then the one that the
injection queue sends takes a free link (R393). -/
def State.moveFlit (s : State) (die id : Nat) : State :=
  let free := [0, 1, 2, 3, 4].filter (· != die)
  let new := s.nextNew die
  let order := rankFlits ((s.fab.flitsAt die).filter (·.arr)) ++ (new.map (·.1)).toList
  match (takeLinks order free).find? (fun p => p.1.id == id) with
  | none => s
  | some (f, dst) =>
    let s1 := match new with
      | some (_, a) => if f.arr then s else s.setDie die { s.die die with net := a }
      | none => s
    { s1 with fab := { s.fab with reqs := s.fab.reqs.map (fun r =>
        if r.id = id then { r with flits := r.flits.zipIdx.map (fun p => if p.2 = f.num then (dst, true) else p.1) } else r) } }

/-- PACKAGE_FLIT_ARRIVAL: a flit of a request at a router leaves it; the first one injects the request of an operation whose home is
another die. -/
def execPackageFlitArrival (die id : Nat) (s : State) : Out :=
  if s.fab.reqs.any (fun r => r.id == id) then .next (s.moveFlit die id)
  else
    match s.pendOf id with
    | none => idle s
    | some p =>
      match s.block p.blk with
      | none => idle s
      | some b =>
        if b.die ≠ die then idle s
        else match p.away die with
          | some (home, n) => .next ((s.inject id b home n).moveFlit die id)
          | none => idle s

/-- An earlier-numbered request of the same source and home is missing whose accesses meet those of this one in a 4-byte element. -/
def State.heldInOrder (s : State) (r : NetReq) : Bool :=
  let wide (as : AMap (List Acc)) : List Acc := as.flatMap (fun l => l.2.map (fun a =>
    { a with addr := a.addr / 4 * 4, z := (a.addr + a.z + 3) / 4 * 4 - a.addr / 4 * 4 }))
  s.fab.reqs.any (fun q => q.src == r.src && q.dst == r.dst && decide (q.seq < r.seq) && (match s.pendOf q.id, s.pendOf r.id with
    | some a, some b => accsOverlap (wide a.lanes) (wide b.lanes)
    | _, _ => false))

/-- REQUEST_REASSEMBLED: every flit of a request has reached its home; it is applied in sequence order, and its operation goes on. -/
def execRequestReassembled (id : Nat) (s : State) : Out :=
  match s.fab.reqs.find? (fun r => r.id == id) with
  | none => idle s
  | some r =>
    if !r.flits.all (fun f => f.1 == r.dst) || s.heldInOrder r then idle s
    else .next { s with fab := { s.fab with reqs := s.fab.reqs.filter (fun q => q.id != id) } }

/-! ## Spire links (R285, R395) -/

/-- The link a request to an address of another package takes: the lowest of its routing entry that is up (credits are not modelled, log
entry 22). -/
def State.linkAt (s : State) (a : Nat) : Option Nat :=
  if 0x8000000000000 ≤ a then
    (List.range 18).find? (fun l => (s.fab.route.get (bitsAt a 42 9) 0#32).getLsbD l && !s.fab.down.contains l)
  else none
/-- The link an access takes. -/
def State.linkOf (s : State) (a : Acc) : Option Nat := if a.store = .phys ∧ a.z ≠ 0 then s.linkAt a.addr else none

/-- The undelivered lanes of an operation over a link have no effect. While their word waits for its replies (R128) it issues again for them
when that wait ends, in a saved or frozen cohort once it goes on, and they take the translation fault 0x04 there, at the word (R90, R285);
of a word that has been given up they are dropped (log entry 82). -/
def State.linkFaults (s0 : State) (link : Nat) (s : State) (p : Pend) : State :=
  let hit := p.lanes.filter (fun l => l.2.any (fun a => s0.linkOf a == some link))
  match s.pendOf p.id with
  | some q =>
    if hit.isEmpty then s
    else
      let m := maskOf (AMap.keys hit)
      let q1 : Pend := { q with lanes := q.lanes.filter (fun l => !(AMap.keys hit).contains l.1) }
      let r := if q.more then (s, { q1 with lost := q.lost ||| m }) else s.dropUnsent q1 m
      if r.2.lanes.isEmpty && !r.2.more then (r.1.writeResult r.2).finishPend r.2 none else r.1.setPend r.2
  | none => s

/-- A copy whose bytes are on their way over a link is suspended with the translation fault 0x04 (R123, R285). -/
def State.linkCopy (s0 : State) (link : Nat) (s : State) (c : CopyT) : State :=
  let va := c.memAddr (c.pos c.done)
  let ac : Access := if c.out then .copyOut else .copyIn
  if c.susp.isSome || (!c.out && c.fill.isSome) || (s.copyT c.id).isNone then s
  else match s0.translate (xunit c.core) c.pasid va ac with
    | (t, .ok pa) =>
      if s0.linkAt pa = some link then
        s.suspendCopy c ⟨kTranslation, 0x04, ((t.leafHit (xunit c.core) c.pasid va ac).map (·.2)).getD 0⟩ va
      else s
    | (_, .error _) => s

/-- SPIRE_LINK_DOWN: the link whose retransmissions are exhausted. -/
def execSpireLinkDown (link : Nat) (s : State) : Out :=
  if 18 ≤ link ∨ s.fab.down.contains link ∨ s.fab.crcs.get link 0 ≤ 8 then idle s
  else
    let s1 : State := { s with fab := { s.fab with down := setIns s.fab.down link } }
    .next (s.copies.foldl (State.linkCopy s link) (s.pend.foldl (State.linkFaults s link) s1))

end Sys2Proof.Machine
end

