-- ==== Sys2Proof/Machine/Issue.lean ====
section
/-! DEFINITION. Issue on a partition: ISSUE_SELECT (R34, R35, R40, R239, R241, R308, R340), urgency (R308, R309), the fairness
rotation (R241) and the release of a word's counter wait (R59). -/

namespace Sys2Proof.Machine

/-! ## Boundaries -/

/-- Every cohort of a partition whose clause has issued its last word stands at its boundary. -/
def State.closeOn (s : State) (core part : Nat) : State :=
  (s.cohortsOn core part).foldl (fun s q => match s.block q.1 with
    | some b => if b.saved then s else s.putBlock q.1 b (b.closed q.2)
    | none => s) s

/-- The cohort inside a clause on a partition, its last word not yet issued. -/
def State.inClause (s : State) (core part : Nat) : Option (Nat × Nat) :=
  match ((s.core core).part part).cur with
  | none => none
  | some q =>
    match (s.coh ⟨q.1, q.2⟩).bind (fun c => if c.mid then (c.path c.selB).bind (·.cl) else none) with
    | some cl => if cl.wi ≤ cl.words.length then some q else none
    | none => none

/-! ## The order of R308 -/

/-- A cohort that may be chosen, with what decides between them: its urgency, whether it continues under YLD = 0, its priority,
since when it is ready, its cohort slot. -/
structure Cand where
  blk   : Nat
  coh   : Nat
  urg   : Option Nat
  cont  : Bool
  prio  : Nat
  age   : Nat
  cslot : Nat
deriving DecidableEq, Repr

/-- The candidates of a partition, its finished clauses closed. -/
def State.cands (s : State) (core part : Nat) : List Cand :=
  let p := (s.core core).part part
  ((s.cohortsOn core part).filter (fun q => s.cohReady q.1 q.2)).filterMap (fun q =>
    match s.block q.1, s.coh ⟨q.1, q.2⟩ with
    | some b, some c => some
      { blk := q.1
        coh := q.2
        urg := c.urgent
        cont := p.last == some q
        prio := if b.isHandler then 4 else ((s.grid b.grid).map (·.lrec.prio)).getD 0
        age := (c.ready.map (·.2)).getD s.clk
        cslot := c.cslot }
    | _, _ => none)

/-- The first candidate goes before the second. -/
def Cand.before (a b : Cand) : Bool :=
  match a.urg, b.urg with
  | some m, some n => decide (m < n) || (m == n && decide (a.cslot ≤ b.cslot))
  | some _, none => true
  | none, some _ => false
  | none, none =>
    if a.cont != b.cont then a.cont
    else if a.prio ≠ b.prio then decide (b.prio < a.prio)
    else if a.age ≠ b.age then decide (a.age < b.age)
    else decide (a.cslot ≤ b.cslot)

/-- The candidate that the partition chooses. -/
def bestCand : List Cand → Option Cand
  | [] => none
  | a :: r => match bestCand r with
    | none => some a
    | some b => if a.before b then some a else some b

/-! ## Urgency (R308, R309) -/

/-- The counted cycles that a cohort's ready clause has waited. -/
def State.waited (s : State) (core part : Nat) (c : Cohort) : Nat :=
  match c.ready with
  | some r => ((s.core core).part part).cnt - r.1
  | none => 0

/-- COHORT_BECOMES_URGENT. -/
def execCohortBecomesUrgent (blk coh : Nat) (s : State) : Out :=
  match s.block blk, s.coh ⟨blk, coh⟩ with
  | some b, some c =>
    if c.urgent.isNone ∧ 48 ≤ s.waited b.coreId c.part c ∧ s.cohReady blk coh ∧ !s.partStopped ⟨blk, coh⟩ then
      .next (s.setCoh ⟨blk, coh⟩ { c with urgent := some ((s.core b.coreId).part c.part).cnt })
    else idle s
  | _, _ => idle s

/-- At a choice: the candidates have the counted cycles and the CLK at which they became ready, every other cohort of the partition has
none. -/
def State.markReady (s : State) (core part : Nat) (cs : List Cand) : State :=
  let n := ((s.core core).part part).cnt
  (s.cohortsOn core part).foldl (fun s q => s.updCoh ⟨q.1, q.2⟩ (fun c =>
    if cs.any (fun a => a.blk == q.1 && a.coh == q.2) then { c with ready := some (c.ready.getD (n, s.clk)) }
    else { c with ready := none, urgent := none })) s

/-- Every cohort whose next clause has become ready notes it: with each step (R308). -/
def State.noteReady (s : State) : State :=
  (s.blocks.flatMap (fun b => b.2.cohs.map (fun c => (b.1, c.1)))).foldl (fun t q =>
    match s.block q.1, s.coh ⟨q.1, q.2⟩ with
    | some b, some c =>
      if c.ready.isNone && !c.gone && s.inClause b.coreId c.part != some q && s.cohReady q.1 q.2 then t.setCoh ⟨q.1, q.2⟩ { c with ready := some (((s.core b.coreId).part c.part).cnt, s.clk) } else t
    | _, _ => t) s

/-! ## The fairness rotation (R241) -/

/-- The path that would issue next is due for rotation. -/
def State.rotDue (s : State) (b : Block) (c : Cohort) : Option Bool :=
  if 256 ≤ c.fair ∧ !c.spill.isEmpty ∧ !c.mid then s.nextPath b c else none

/-- The path rotated as a demotion would rotate it. -/
def State.rotate (s : State) (r : CohRef) : State :=
  match s.block r.blk, s.coh r with
  | some b, some c => match s.rotDue b c with
    | some isB => s.setCoh r (c.demote isB)
    | none => s
  | _, _ => s

/-- A partition chooses no clause now: it is inside one, stopped, or the package does not run. -/
def State.noChoice (s : State) (core part : Nat) : Bool :=
  (s.inClause core part).isSome || ((s.core core).part part).stopped || s.pow.fatal || !s.pow.on

/-- FAIRNESS_ROTATION: the partition is about to choose a clause of the cohort, and the path that would issue it is rotated first. -/
def execFairnessRotation (blk coh : Nat) (s : State) : Out :=
  match s.block blk, s.coh ⟨blk, coh⟩ with
  | some b, some c =>
    if s.noChoice b.coreId c.part then idle s
    else
      let s1 := s.closeOn b.coreId c.part
      match bestCand (s1.cands b.coreId c.part) with
      | some a => if a.blk = blk ∧ a.coh = coh then .next (s1.rotate ⟨blk, coh⟩) else idle s
      | none => idle s
  | _, _ => idle s

/-- The path that issues the chosen cohort's next clause, after a rotation that is due. -/
def State.pickPath (s : State) (r : CohRef) : State × Option Bool :=
  match s.block r.blk, s.coh r with
  | some b, some c =>
    match s.rotDue b c with
    | none => (s, s.nextPath b c)
    | some isB =>
      let s1 := s.rotate r
      match s1.block r.blk, s1.coh r with
      | some b1, some c1 => if s1.pathReady b1 c1 isB then (s1, some isB) else (s1, s1.nextPath b1 c1)
      | _, _ => (s1, none)
  | _, _ => (s, none)

/-! ## Breakpoints (R340) -/

/-- The lowest breakpoint of a partition that matches a header: its number, whether it stops the partition. -/
def State.bpMatch (s : State) (core part : Nat) (pc : W64) : Option (Nat × Bool) :=
  (List.range 8).findSome? (fun n =>
    let w := (s.core core).bpc.get (8 * part + n) 0#64
    if w.getLsbD 0 && (w >>> 3) == (pc >>> 3) then some (n, w.getLsbD 2) else none)

/-- What the breakpoints of a partition do to a path about to issue a clause: the state, and whether the clause issues. -/
def State.bpCheck (s : State) (r : CohRef) (b : Block) (c : Cohort) (isB : Bool) (p : Path) : State × Bool :=
  if b.isHandler then (s, true)
  else
    if c.bpskip = some p.pc then (s.setCoh r { c with bpskip := none }, true)
    else match s.bpMatch b.coreId c.part p.pc with
      | none => (s, true)
      | some (n, stop) =>
        let k := s.core b.coreId
        let q := k.part c.part
        let s1 := s.setCore b.coreId (k.setPart c.part { q with bphit := BitVec.ofNat 16 (n + 256), stopped := q.stopped || stop })
        let s2 := s1.setCoh r { c with bpskip := some p.pc, selB := if stop then c.selB else isB }
        if stop then (s2, false)
        else (s2.freezeCoh r ⟨kBrk, 0, 0, 0, isB, p.pc, 0#64, true, false, []⟩ p.mask 0#32 0#32, false)

/-! ## ISSUE_SELECT -/

/-- The cohort issues: it leaves the waiting lists, and every YIELD pause that waits for it counts it (R270). -/
def State.chosen (s : State) (core part : Nat) (r : CohRef) (isB yld : Bool) : State :=
  let s1 := (s.cohortsOn core part).foldl (fun s q => s.updCoh ⟨q.1, q.2⟩ (fun c =>
    { c with ypause := c.ypause.map (fun y => (y.1.filter (fun z => z != (r.blk, r.coh)), y.2)) })) s
  let s2 := s1.updCoh r (fun c =>
    let undem (p : Path) : Path := if p.dem && p.atBoundary then { p with dem := false } else p
    { c with selB := isB, mid := true, ready := none, urgent := none, pa := c.pa.map undem, pb := c.pb.map undem })
  let k := s2.core core
  let p := k.part part
  let n := if p.last = some (r.blk, r.coh) then p.chain + 1 else 1
  let q : Part := { p with
    cur := some (r.blk, r.coh)
    last := if !yld && decide (n < 8) then some (r.blk, r.coh) else none
    chain := n
    cnt := p.cnt + 1 }
  { s2.setCore core (k.setPart part q) with cur := some r, turn := 4 * core + part }

/-- A clause chosen that does not issue is a counted cycle too, unless the partition has stopped (R309, R342). -/
def State.spent (s : State) (core part : Nat) : State :=
  let k := s.core core
  let p := k.part part
  if p.stopped then s else s.setCore core (k.setPart part { p with cnt := p.cnt + 1 })

/-- A path of the chosen cohort starts its next clause (R40, R64), or issues again the word it waited at (R102). -/
def State.startClause (s : State) (core part : Nat) (r : CohRef) (isB : Bool) : State :=
  match s.block r.blk, s.coh r with
  | some b, some c =>
    match c.path isB, s.grid b.grid with
    | some p, some g =>
      match p.cl with
      | some cl => s.chosen core part r isB (hdrYld cl.hdr)
      | none =>
        match s.bpCheck r b c isB p with
        | (s1, false) => s1.spent core part
        | (s1, true) =>
          match s1.fetchClause b.coreId g.pasid b.lim p.pc with
          | (s2, .error e) =>
            ((s2.spent core part).updCoh r (fun c => { c with selB := isB })).freezeCoh r
              ⟨e.kind, e.code, e.level, e.widx, isB, p.pc, e.va, true, false, []⟩ p.mask 0#32 0#32
          | (s2, .ok cl) =>
            let s3 := s2.updCoh r (fun c => c.setPath isB ((c.path isB).map (fun q => { q with cl := some cl })))
            (s3.chosen core part r isB (hdrYld cl.hdr)).logRec r 1 0 p.pc
    | _, _ => s
  | _, _ => s

/-- The continuing cohort's next clause is not ready at the choice: the partition goes on as if YLD were 1 (R34). -/
def State.endChain (s : State) (core part : Nat) (cs : List Cand) : State :=
  let k := s.core core
  let p := k.part part
  if p.last.isSome && !cs.any (·.cont) then s.setCore core (k.setPart part { p with last := none, chain := 0 }) else s

/-- ISSUE_SELECT: a partition that is in no clause closes those that have ended and chooses the next. -/
def execIssueSelect (core part : Nat) (s : State) : Out :=
  if s.noChoice core part then idle s
  else
    let s0 := s.closeOn core part
    let cs := s0.cands core part
    let s1 := s0.endChain core part cs
    match bestCand cs with
    | none => .next (s1.markReady core part cs)
    | some a =>
      let s2 := s1.markReady core part (cs.filter (fun c => c != a))
      match s2.pickPath ⟨a.blk, a.coh⟩ with
      | (s3, none) => .next s3
      | (s3, some isB) => .next (s3.startClause core part ⟨a.blk, a.coh⟩ isB)

/-! ## Counter waits (R59) -/

/-- The word a cohort stands at inside its clause: its WAIT and its own counter. -/
def Cohort.nextCtl (c : Cohort) : Option (BitVec 8 × Option (BitVec 3)) :=
  match (c.path c.selB).bind (·.cl) with
  | none => none
  | some cl =>
    if cl.words.length < cl.wi then none
    else
      let w := cl.words.getD (cl.wi - 1) 0#64
      some (w.extractLsb' 56 8, if w.getLsbD 55 then some (w.extractLsb' 52 3) else none)

/-- The word a cohort stands at waits for no counter, and its own is not full, unless it has counted already. -/
def Cohort.ctrFree (c : Cohort) : Bool :=
  match c.nextCtl with
  | none => false
  | some (wt, set) => c.rinc || (c.path c.selB).any Path.counts || (c.waitOk wt && (match set with
    | some n => c.ctr n.toNat != 63#6
    | none => true))

/-- COUNTER_WAIT_RELEASE: the counters of a stalled cohort's word are zero, and it is the next to issue. -/
def execCounterWaitRelease (blk coh : Nat) (s : State) : Out :=
  match s.block blk, s.coh ⟨blk, coh⟩ with
  | some b, some c =>
    if s.inClause b.coreId c.part = some (blk, coh) ∧ c.frz.isNone ∧ !b.saved ∧ !s.partStopped ⟨blk, coh⟩ ∧ c.ctrFree then
      .next { s with cur := some ⟨blk, coh⟩ }
    else idle s
  | _, _ => idle s

end Sys2Proof.Machine
end

