-- ==== Sys2Proof/Machine/Lane.lean ====
section
/-! DEFINITION. CLASS 0x4, the lane operations (R181 to R187): shuffles, votes, prefix counts, broadcasts and reductions over the
lanes of a cohort. -/

namespace Sys2Proof.Machine

/-- The element of lane `q` as another lane takes it (R182, R185): with its tag and tangents; 0, RAW where no thread is. -/
def takeLane (x : Ctx) (s : State) (c : Ctl) (w : Bool) (q : Nat) (a : Src) (psn : Bool) : LRes :=
  match x.coh.thread q with
  | none => ⟨0#64, w, .raw, [], psn, 0#3, false⟩
  | some _ =>
    let r := moveLane x s c w q a none
    { r with psn := r.psn || psn }

/-- The source lane of SHFL (R182); none outside 0 to 31. -/
def shflLane (mode : ShflMode) (l n : Nat) : Option Nat :=
  match mode with
  | .idx => some (n % 32)
  | .up => if n % 64 ≤ l then some (l - n % 64) else none
  | .down => if l + n % 64 < 32 then some (l + n % 64) else none
  | .xor => some (l ^^^ (n % 32))

/-- SHFL (R182, R187). DESIGN CHOICE (log entry 69): R182 lists no tags for the vector operand n, so any tag is taken and n is its
low bits. -/
def execShfl (c : Ctl) (mode : ShflMode) (w : Bool) (d : Dst) (a b : Src) (s : State) : Out :=
  word c s (fun x => vecBody s 0 d [a, b] lanes32 id (fun x l =>
    let n := x.el s.clk c.lit false l b
    match shflLane mode l n.val.toNat with
    | none => let r := moveLane x s c w l a none; some { r with psn := r.psn || n.psn }
    | some q => some (takeLane x s c w q a n.psn)) x)

/-- The result of VOTE over the lanes of EXEC (R183). -/
def voteRes (vk : VoteKind) (rs : AMap LRes) : W64 :=
  match vk with
  | .ballot => laneMask rs
  | .any => if rs.any (fun p => p.2.val != 0#64) then 1#64 else 0#64
  | .all => if rs.all (fun p => p.2.val != 0#64) then 1#64 else 0#64
  | .eq => match rs with
    | [] => 1#64
    | p :: r => if r.all (fun q => q.2.val == p.2.val) then 1#64 else 0#64

/-- VOTE (R183). DESIGN CHOICE (log entry 69): R183 lists no tags for a, so any tag is taken and the 32 bits are compared. -/
def execVote (c : Ctl) (vk : VoteKind) (d : Dst) (a : Src) (s : State) : Out :=
  maskWord c s 0 d [a] (fun x l =>
    let e := x.el s.clk c.lit false l a
    some (.plain e.val .raw e.psn)) (voteRes vk)

/-- MPREF (R184): popcount of the mask below the lane, tagged N32; EXEC is not applied to the mask. -/
def execMpref (c : Ctl) (incl : Bool) (d : Dst) (a : Src) (s : State) : Out :=
  vecWord c s 0 d [a] (fun x l =>
    let m : W32 := (x.sca s.clk c.lit a).setWidth 32
    let n := popcount (m &&& BitVec.ofNat 32 (lowMask l)) + (if incl && m.getLsbD l then 1 else 0)
    some (.plain (BitVec.ofNat 64 n) .n32 false))

/-- LBCAST (R185): the element of lane SB[4:0], whatever EXEC. -/
def execLbcast (c : Ctl) (w : Bool) (d : Dst) (a b : Src) (s : State) : Out :=
  word c s (fun x => vecBody s 0 d [a] lanes32 id (fun x _ =>
    some (takeLane x s c w ((x.sca s.clk c.lit b).toNat % 32) a false)) x)

/-! ## LREDUCE (R186) -/

/-- The format of a reduction from the tag of the lowest lane: none where the tag gives none. -/
def redFmt (op : RedOp) (t : Tag) : Option Tag :=
  match op with
  | .or => some .raw
  | _ => match t with
    | .raw | .i32 => some .i32
    | .n32 => some .n32
    | .f32 => some .f32
    | .f64 => some .f64
    | _ => none

/-- A lane's element in the format of the reduction; none where its tag fails the check. -/
def redEl (x : Ctx) (s : State) (c : Ctl) (op : RedOp) (f : Tag) (l : Nat) (a : Src) : Option El :=
  let e := x.el s.clk c.lit false l a
  match op with
  | .or => some e
  | _ =>
    if f.isInt then (if e.accepted (fun t => t == .raw || t == .i32 || t == .n32) then some e else none)
    else x.elFmt s.clk c.lit f l a

/-- The tangents of an element. -/
def El.tans (e : El) (ks : List Nat) : AMap W64 := ks.map (fun k => (k, e.t k))

/-- One step of the fold: the value so far with its tangents, and the next lane's element (R82, R172, R188). DESIGN CHOICE (log
entry 75): R188 gives .or no row, so its destination's tangents are 0, and the tangents of an integer .add are summed as its
values are. -/
def redStep (op : RedOp) (f : Tag) (ks : List Nat) (acc : Nat × AMap W64) (e : El) : (Nat × AMap W64) × Cnd :=
  let v := e.val.toNat
  match op with
  | .or => ((acc.1 ||| v, []), 0#3)
  | .add =>
    if f.isInt then (((acc.1 + v) % 2 ^ 32,
      ks.map (fun k => (k, BitVec.ofNat 64 (((acc.2.get k 0#64).toNat + e.tn k) % 2 ^ 32)))), 0#3)
    else
      let r := opAdd f .rne acc.1 v
      ((r.bits, ks.map (fun k => (k, BitVec.ofNat 64 (opAdd f .rne (acc.2.get k 0#64).toNat (e.tn k)).bits))), r.c)
  | .min | .max =>
    let isMax := op == .max
    if f.isInt then
      let g := f == .i32
      let p := elInt 32 g acc.1
      let q := elInt 32 g v
      (if (if isMax then decide (q ≤ p) else decide (p ≤ q)) then acc else (v % 2 ^ 32, e.tans ks), 0#3)
    else
      let va := f.value false acc.1
      let vb := f.value false v
      if va.isNan && vb.isNan then ((f.nanCode, []), 0#3)
      else if fSelA isMax va vb then (acc, 0#3)
      else ((v, e.tans ks), 0#3)

/-- The fold over the lanes, ascending, with the conditions charged to each lane. -/
def redFold (op : RedOp) (f : Tag) (ks : List Nat) : AMap El → Option ((Nat × AMap W64) × AMap Cnd)
  | [] => none
  | p :: r =>
    let first := ((p.2.val.toNat, p.2.tans ks), [(p.1, (0#3 : Cnd))])
    some (r.foldl (fun acc q =>
      let st := redStep op f ks acc.1 q.2
      (st.1, acc.2 ++ [(q.1, st.2)])) first)

/-- A scalar destination of LREDUCE, which has no tangents (R188). -/
def scaDst : Dst → Bool
  | .s _ | .b _ => true
  | _ => false

/-- The results of a reduction in every lane of EXEC: faults in the lanes that fail, or in all when there is no format. -/
def redAll (x : Ctx) (s : State) (c : Ctl) (op : RedOp) (a : Src) (d : Dst) : AMap (Option LRes) :=
  let ls := x.lanes
  let bDst := match d with
    | .b _ => true
    | _ => false
  let ks := if op == .or || scaDst d then [] else x.want
  let none' := ls.map (fun l => (l, (none : Option LRes)))
  match ls with
  | [] => []
  | l0 :: _ =>
    let e0 := x.el s.clk c.lit false l0 a
    match redFmt op (e0.moved a) with
    | none => none'
    | some f =>
      if bDst && f == .f64 then none'
      else
        let es := ls.map (fun l => (l, redEl x s c op f l a))
        if es.any (fun p => p.2.isNone) then
          es.map (fun p => (p.1, p.2.map (fun e => LRes.plain e.val f false)))
        else
          let ok := es.filterMap (fun p => p.2.map (fun e => (p.1, e)))
          match redFold op f ks ok with
          | none => none'
          | some r =>
            let v := if f.isFp && (f.value false r.1.1).isNan then f.nanCode else r.1.1
            let psn := ok.filter (fun p => p.2.poisoned ks)
            ls.map (fun l => (l, some ⟨BitVec.ofNat 64 v, f == .f64, f, r.1.2, !psn.isEmpty && psn.any (fun p => p.1 == l),
              r.2.get l 0#3, false⟩))

/-- The value every lane holds. -/
def firstVal (rs : AMap LRes) : W64 := (rs.head?.map (·.2.val)).getD 0#64

/-- LREDUCE (R186). -/
def execLreduce (c : Ctl) (op : RedOp) (d : Dst) (a : Src) (s : State) : Out :=
  word c s (fun x =>
    let rs := redAll x s c op a d
    match vecChecks x s 0 (if scaDst d then .nwb else d) [a] x.lanes rs with
    | .error e => e
    | .ok s1 =>
      let ok := okRes rs
      if scaDst d then .done (s1.putS x.ref d (firstVal ok)) (.sca (firstVal ok) false)
      else .done (s1.updCoh x.ref (x.putLanes d ok)) (x.latchVec d ok))

end Sys2Proof.Machine
end

