-- ==== Sys2Proof/Machine/Power.lean ====
section
/-! DEFINITION. Boot, attestation, power and heat (R396 to R401). -/

namespace Sys2Proof.Machine

/-! ## Boot (R396, R397) -/

/-- The banks of every die survive a package reset: they keep their contents until the host clears them (R372). -/
def State.keptBanks (s : State) : AMap Die := s.dies.map (fun d => (d.1, { Die.zero with banks := d.2.banks }))

/-- POWER_ON: power is applied or the package is reset; the boot ROM waits for an image. -/
def execPowerOn (s : State) : Out :=
  .next { State.reset with
    agenda := s.agenda
    errIn := s.errIn
    free := s.free
    nid := s.nid
    dies := if s.pow.on then s.keptBanks else [] }

/-- POWER_OFF: all state is lost. -/
def execPowerOff (s : State) : Out :=
  .next { State.reset with
    agenda := s.agenda
    errIn := s.errIn
    free := s.free
    nid := s.nid
    pow := { State.reset.pow with on := false, bootst := 0 } }

/-- MAGIC and LEN of an image are in order: LEN a multiple of 64 that leaves room for the signature (R396). -/
def imageOk (img : List Byte) : Bool :=
  let len := leNat ((img.drop 8).take 8)
  leNat (img.take 8) == 0x4B484C3732303046 && len % 64 == 0 && decide (64 ≤ len)
    && decide (len + 512 ≤ img.length)

/-- FIRMWARE_IMAGE: an image written through the CXL mailbox. -/
def execFirmwareImage (img : List Byte) (s : State) : Out :=
  let st (n : Nat) : State := { s with pow := { s.pow with bootst := n } }
  if !s.pow.on then idle s
  else if s.pow.bootst = 3 then idle s
  else if s.pow.img.isSome then .next (st 0x12)
  else if imageOk img then .next { s with pow := { s.pow with bootst := 2, img := some img } }
  else .next (st 0x10)

/-- FIRMWARE_VERIFY_COMPLETE: the firmware cores start, or the image is discarded. -/
def execFirmwareVerifyComplete (s : State) : Out :=
  match s.pow.img with
  | none => idle s
  | some img =>
    if !s.pow.on then idle s
    else if Config.signatureOk img then
      let len := leNat ((img.drop 8).take 8)
      .next { s with pow := { s.pow with
        bootst := 3
        img := none
        ver := BitVec.ofNat 64 (leNat ((img.drop 0x10).take 4))
        imghash := Config.hash (img.take len) } }
    else .next { s with pow := { s.pow with bootst := 0x11, img := none } }

/-! ## Attestation (R398) -/

/-- The report over a nonce. -/
def State.reportOf (s : State) (nonce : List Byte) : List Byte :=
  let body := nonce ++ s.pow.imghash ++ leBytes 4 s.pow.ver.toNat ++ leBytes 32 s.host.featoff.toNat ++ leBytes 32 s.host.featacc.toNat
    ++ Config.serial
  body ++ Config.sign body

/-- ATTESTATION_REQUEST: only while the firmware runs. -/
def execAttestationRequest (nonce : List Byte) (s : State) : Out :=
  if s.pow.on ∧ s.pow.bootst = 3 ∧ nonce.length = 32 then .next { s.wake with pow := { s.wake.pow with report := s.reportOf nonce } }
  else idle s

/-! ## Power (R399, R400) -/

/-- PLIM_WRITE: 1,200 W to 2,800 W. -/
def execPlimWrite (v : W32) (s : State) : Out :=
  if s.pow.on ∧ 1200 ≤ v.toNat ∧ v.toNat ≤ 2800 then .next { s.wake with pow := { s.wake.pow with plim := v } } else idle s

/-- Every queue is idle and no grid is resident. -/
def State.quiet (s : State) : Bool :=
  s.host.queues.all (fun q => q.2.cmds.isEmpty && (!q.2.bound || q.2.state == 2 || q.2.head == q.2.tail))
  && s.grids.all (fun g => g.2.stat == .ended) && s.blocks.isEmpty && s.copies.isEmpty && s.pend.isEmpty

/-- Since when the queues have been idle, kept from step to step. -/
def State.tickIdle (s : State) : State :=
  if s.quiet then (if s.pow.idle.isSome then s else { s with pow := { s.pow with idle := some s.clk } })
  else if s.pow.idle.isNone then s else { s with pow := { s.pow with idle := none } }

/-- 10 ms in cycles. -/
def idleCycles : Nat := 15000000

/-- PS2_ENTRY. -/
def execPs2Entry (s : State) : Out :=
  match s.pow.idle with
  | some c =>
    if s.quiet ∧ c + idleCycles ≤ s.clk ∧ s.running ∧ !s.pow.ps2 then .next { s with pow := { s.pow with ps2 := true } } else idle s
  | none => idle s

/-! ## Heat (R401) -/

/-- THERMAL_THROTTLE: a die reaches 105 °C; nothing issues on it. -/
def execThermalThrottle (die : Nat) (s : State) : Out := .next (s.setDie die { s.die die with hot := true })

/-- THERMAL_THROTTLE_END: it has fallen to 100 °C. -/
def execThermalThrottleEnd (die : Nat) (s : State) : Out := .next (s.setDie die { s.die die with hot := false })

/-- THERMAL_TRIP: 115 °C is a fatal error; its CODE is not given (log entry 3). -/
def execThermalTrip (die : Nat) (s : State) : Out :=
  if s.pow.fatal then idle s
  else
    let s1 := ({ s with free := s.free + 1 } : State).logMc die 0x0F 2 false ((Config.freeWord s.free).toNat % 65536) none none
    .next { s1 with pow := { s1.pow with raised := some (die, 0x0E) } }

end Sys2Proof.Machine
end

