-- ==== Sys2Proof/Machine/Walk.lean ====
section
/-! DEFINITION. The events of the translation units (R89, R94): a walk for a request that is waiting for one, and the engines that a
full miss queue held back. -/

namespace Sys2Proof.Machine

/-- Two addresses lie in one 64 KiB page. -/
def samePage (a b : W64) : Bool := a.toNat / 65536 == b.toNat / 65536

/-- The access of a copy at its main-memory end. -/
def CopyT.access (c : CopyT) : Access := if c.out then .copyOut else .copyIn

/-- A request of the unit wants the page of an address for this kind of access: a copy's next byte, the next page of a prefetch, the
clause a path is about to fetch. -/
def State.wants (s : State) (unit : Nat) (pasid : BitVec 20) (va : W64) (ac : Access) : Bool :=
  s.copies.any (fun c => xunit c.core == unit && c.pasid == pasid && c.susp.isNone && (c.out || c.fill.isNone)
    && samePage (c.memAddr (c.pos c.done)) va && c.access == ac)
  || s.pend.any (fun p => match p.kind, s.block p.blk with
    | .pref [q, _], some b => xunit b.coreId == unit && ac == .pref && samePage q va
        && ((s.grid b.grid).map (·.pasid)) == some pasid
    | _, _ => false)
  || s.blocks.any (fun b => xunit b.2.coreId == unit && !b.2.saved && ac == .fetch && ((s.grid b.2.grid).map (·.pasid)) == some pasid
    && b.2.cohs.any (fun c => [c.2.pa, c.2.pb].any (fun p => match p with
      | some q => q.cl.isNone && q.wait.isNone && samePage q.pc va
      | none => false)))

/-- TRANSLATION_WALK: a unit walks for a waiting request; a walk that faults leaves nothing cached, and the copies that have joined it
take its fault (R94, R95, R123). -/
def execTranslationWalk (unit pasid : Nat) (va : W64) (ac : Access) (s : State) : Out :=
  let p : BitVec 20 := BitVec.ofNat 20 pasid
  if !s.wants unit p va ac then idle s
  else match s.translate unit p va ac with
    | (t, .ok _) => .next t
    | (t, .error f) =>
      let joined := s.copies.filter (fun c => xunit c.core == unit && c.pasid == p && c.susp.isNone && (c.out || c.fill.isNone)
        && samePage (c.memAddr (c.pos c.done)) va && c.access == ac && s.copyGoes c)
      .next (joined.foldl (fun u c => u.suspendCopy c f (c.memAddr (c.pos c.done))) { t with tlb := s.tlb })

/-- MISS_QUEUE_RESUME: the queue of a unit has an entry free, and the oldest engine held back goes on. -/
def execMissQueueResume (unit : Nat) (s : State) : Out :=
  match s.missq.find unit with
  | none => idle s
  | some t =>
    if missMax ≤ s.misses unit t then idle s
    else
      let held := s.copies.filter (fun c => xunit c.core == unit && decide (t ≤ c.id))
      match (held.drop 1).head? with
      | some c => .next { s with missq := s.missq.set unit c.id }
      | none => .next { s with missq := s.missq.del unit }

end Sys2Proof.Machine
end

