-- ==== Sys2Proof/Machine/Dispatch.lean ====
section
/-! DEFINITION. The one dispatch: every row of spec/opcode_table.json to its meaning. -/

namespace Sys2Proof.Machine

/-- What an instruction or event does to the machine. -/
def exec (i : Instr) (s : State) : Host.Outcome State Fault Refusal :=
  match i with
  | .sadd x1 x2 x3 x4 => Sys2Proof.Machine.execSadd x1 x2 x3 x4 s
  | .ssub x1 x2 x3 x4 => Sys2Proof.Machine.execSsub x1 x2 x3 x4 s
  | .smul x1 x2 x3 x4 => Sys2Proof.Machine.execSmul x1 x2 x3 x4 s
  | .smin x1 x2 x3 x4 x5 => Sys2Proof.Machine.execSmin x1 x2 x3 x4 x5 s
  | .smax x1 x2 x3 x4 x5 => Sys2Proof.Machine.execSmax x1 x2 x3 x4 x5 s
  | .sand x1 x2 x3 x4 => Sys2Proof.Machine.execSand x1 x2 x3 x4 s
  | .sor x1 x2 x3 x4 => Sys2Proof.Machine.execSor x1 x2 x3 x4 s
  | .sxor x1 x2 x3 x4 => Sys2Proof.Machine.execSxor x1 x2 x3 x4 s
  | .sandn x1 x2 x3 x4 => Sys2Proof.Machine.execSandn x1 x2 x3 x4 s
  | .snot x1 x2 x3 => Sys2Proof.Machine.execSnot x1 x2 x3 s
  | .sshl x1 x2 x3 x4 => Sys2Proof.Machine.execSshl x1 x2 x3 x4 s
  | .sshr x1 x2 x3 x4 => Sys2Proof.Machine.execSshr x1 x2 x3 x4 s
  | .ssar x1 x2 x3 x4 => Sys2Proof.Machine.execSsar x1 x2 x3 x4 s
  | .smov x1 x2 x3 => Sys2Proof.Machine.execSmov x1 x2 x3 s
  | .ssel x1 x2 x3 x4 x5 => Sys2Proof.Machine.execSsel x1 x2 x3 x4 x5 s
  | .spopc x1 x2 x3 => Sys2Proof.Machine.execSpopc x1 x2 x3 s
  | .sffs x1 x2 x3 => Sys2Proof.Machine.execSffs x1 x2 x3 s
  | .sfls x1 x2 x3 => Sys2Proof.Machine.execSfls x1 x2 x3 s
  | .srdlane x1 x2 x3 x4 x5 => Sys2Proof.Machine.execSrdlane x1 x2 x3 x4 x5 s
  | .scmp x1 x2 x3 x4 x5 x6 => Sys2Proof.Machine.execScmp x1 x2 x3 x4 x5 x6 s
  | .iadd x1 x2 x3 x4 x5 x6 => Sys2Proof.Machine.execIadd x1 x2 x3 x4 x5 x6 s
  | .isub x1 x2 x3 x4 x5 x6 => Sys2Proof.Machine.execIsub x1 x2 x3 x4 x5 x6 s
  | .imul x1 x2 x3 x4 x5 x6 => Sys2Proof.Machine.execImul x1 x2 x3 x4 x5 x6 s
  | .imulh x1 x2 x3 x4 x5 => Sys2Proof.Machine.execImulh x1 x2 x3 x4 x5 s
  | .imad x1 x2 x3 x4 x5 x6 => Sys2Proof.Machine.execImad x1 x2 x3 x4 x5 x6 s
  | .idiv x1 x2 x3 x4 x5 => Sys2Proof.Machine.execIdiv x1 x2 x3 x4 x5 s
  | .irem x1 x2 x3 x4 x5 => Sys2Proof.Machine.execIrem x1 x2 x3 x4 x5 s
  | .imin x1 x2 x3 x4 x5 => Sys2Proof.Machine.execImin x1 x2 x3 x4 x5 s
  | .imax x1 x2 x3 x4 x5 => Sys2Proof.Machine.execImax x1 x2 x3 x4 x5 s
  | .iabs x1 x2 x3 x4 x5 => Sys2Proof.Machine.execIabs x1 x2 x3 x4 x5 s
  | .vand x1 x2 x3 x4 => Sys2Proof.Machine.execVand x1 x2 x3 x4 s
  | .vor x1 x2 x3 x4 => Sys2Proof.Machine.execVor x1 x2 x3 x4 s
  | .vxor x1 x2 x3 x4 => Sys2Proof.Machine.execVxor x1 x2 x3 x4 s
  | .vandn x1 x2 x3 x4 => Sys2Proof.Machine.execVandn x1 x2 x3 x4 s
  | .vnot x1 x2 x3 => Sys2Proof.Machine.execVnot x1 x2 x3 s
  | .shl x1 x2 x3 x4 => Sys2Proof.Machine.execShl x1 x2 x3 x4 s
  | .shr x1 x2 x3 x4 => Sys2Proof.Machine.execShr x1 x2 x3 x4 s
  | .sar x1 x2 x3 x4 => Sys2Proof.Machine.execSar x1 x2 x3 x4 s
  | .rot x1 x2 x3 x4 => Sys2Proof.Machine.execRot x1 x2 x3 x4 s
  | .bfe x1 x2 x3 x4 x5 => Sys2Proof.Machine.execBfe x1 x2 x3 x4 x5 s
  | .bfi x1 x2 x3 x4 x5 => Sys2Proof.Machine.execBfi x1 x2 x3 x4 x5 s
  | .popc x1 x2 x3 => Sys2Proof.Machine.execPopc x1 x2 x3 s
  | .clz x1 x2 x3 => Sys2Proof.Machine.execClz x1 x2 x3 s
  | .brev x1 x2 x3 => Sys2Proof.Machine.execBrev x1 x2 x3 s
  | .icmp x1 x2 x3 x4 x5 x6 => Sys2Proof.Machine.execIcmp x1 x2 x3 x4 x5 x6 s
  | .sel x1 x2 x3 x4 x5 x6 => Sys2Proof.Machine.execSel x1 x2 x3 x4 x5 x6 s
  | .mov x1 x2 x3 x4 x5 => Sys2Proof.Machine.execMov x1 x2 x3 x4 x5 s
  | .movs x1 x2 x3 x4 x5 => Sys2Proof.Machine.execMovs x1 x2 x3 x4 x5 s
  | .fadd x1 x2 x3 x4 x5 => Sys2Proof.Machine.execFadd x1 x2 x3 x4 x5 s
  | .fsub x1 x2 x3 x4 x5 => Sys2Proof.Machine.execFsub x1 x2 x3 x4 x5 s
  | .fmul x1 x2 x3 x4 x5 => Sys2Proof.Machine.execFmul x1 x2 x3 x4 x5 s
  | .ffma x1 x2 x3 x4 x5 x6 => Sys2Proof.Machine.execFfma x1 x2 x3 x4 x5 x6 s
  | .fmin x1 x2 x3 x4 => Sys2Proof.Machine.execFmin x1 x2 x3 x4 s
  | .fmax x1 x2 x3 x4 => Sys2Proof.Machine.execFmax x1 x2 x3 x4 s
  | .fdiv x1 x2 x3 x4 x5 => Sys2Proof.Machine.execFdiv x1 x2 x3 x4 x5 s
  | .fsqrt x1 x2 x3 x4 => Sys2Proof.Machine.execFsqrt x1 x2 x3 x4 s
  | .fcmp x1 x2 x3 x4 x5 => Sys2Proof.Machine.execFcmp x1 x2 x3 x4 x5 s
  | .frnd x1 x2 x3 x4 => Sys2Proof.Machine.execFrnd x1 x2 x3 x4 s
  | .fclass x1 x2 x3 => Sys2Proof.Machine.execFclass x1 x2 x3 s
  | .fscl x1 x2 x3 x4 x5 => Sys2Proof.Machine.execFscl x1 x2 x3 x4 x5 s
  | .fdot2 x1 x2 x3 x4 x5 x6 => Sys2Proof.Machine.execFdot2 x1 x2 x3 x4 x5 x6 s
  | .fdot4 x1 x2 x3 x4 x5 x6 => Sys2Proof.Machine.execFdot4 x1 x2 x3 x4 x5 x6 s
  | .cvt x1 x2 x3 x4 x5 => Sys2Proof.Machine.execCvt x1 x2 x3 x4 x5 s
  | .cvts x1 x2 x3 x4 => Sys2Proof.Machine.execCvts x1 x2 x3 x4 s
  | .pack x1 x2 x3 x4 x5 => Sys2Proof.Machine.execPack x1 x2 x3 x4 x5 s
  | .unpk x1 x2 x3 x4 => Sys2Proof.Machine.execUnpk x1 x2 x3 x4 s
  | .frcp x1 x2 x3 => Sys2Proof.Machine.execFrcp x1 x2 x3 s
  | .frsq x1 x2 x3 => Sys2Proof.Machine.execFrsq x1 x2 x3 s
  | .fexp2 x1 x2 x3 => Sys2Proof.Machine.execFexp2 x1 x2 x3 s
  | .flog2 x1 x2 x3 => Sys2Proof.Machine.execFlog2 x1 x2 x3 s
  | .fsin x1 x2 x3 => Sys2Proof.Machine.execFsin x1 x2 x3 s
  | .fcos x1 x2 x3 => Sys2Proof.Machine.execFcos x1 x2 x3 s
  | .ftanh x1 x2 x3 => Sys2Proof.Machine.execFtanh x1 x2 x3 s
  | .shfl x1 x2 x3 x4 x5 x6 => Sys2Proof.Machine.execShfl x1 x2 x3 x4 x5 x6 s
  | .vote x1 x2 x3 x4 => Sys2Proof.Machine.execVote x1 x2 x3 x4 s
  | .mpref x1 x2 x3 x4 => Sys2Proof.Machine.execMpref x1 x2 x3 x4 s
  | .lbcast x1 x2 x3 x4 x5 => Sys2Proof.Machine.execLbcast x1 x2 x3 x4 x5 s
  | .lreduce x1 x2 x3 x4 => Sys2Proof.Machine.execLreduce x1 x2 x3 x4 s
  | .mshape x1 x2 x3 x4 x5 x6 => Sys2Proof.Machine.execMshape x1 x2 x3 x4 x5 x6 s
  | .mzero x1 x2 => Sys2Proof.Machine.execMzero x1 x2 s
  | .mid x1 x2 => Sys2Proof.Machine.execMid x1 x2 s
  | .mld x1 x2 x3 x4 x5 x6 => Sys2Proof.Machine.execMld x1 x2 x3 x4 x5 x6 s
  | .mst x1 x2 x3 x4 x5 x6 => Sys2Proof.Machine.execMst x1 x2 x3 x4 x5 x6 s
  | .mget x1 x2 x3 x4 x5 => Sys2Proof.Machine.execMget x1 x2 x3 x4 x5 s
  | .mput x1 x2 x3 x4 x5 => Sys2Proof.Machine.execMput x1 x2 x3 x4 x5 s
  | .mmul x1 x2 x3 x4 x5 x6 => Sys2Proof.Machine.execMmul x1 x2 x3 x4 x5 x6 s
  | .mmult x1 x2 x3 x4 x5 x6 => Sys2Proof.Machine.execMmult x1 x2 x3 x4 x5 x6 s
  | .mtmul x1 x2 x3 x4 x5 x6 => Sys2Proof.Machine.execMtmul x1 x2 x3 x4 x5 x6 s
  | .madd x1 x2 x3 x4 => Sys2Proof.Machine.execMadd x1 x2 x3 x4 s
  | .msub x1 x2 x3 x4 => Sys2Proof.Machine.execMsub x1 x2 x3 x4 s
  | .mscal x1 x2 x3 x4 => Sys2Proof.Machine.execMscal x1 x2 x3 x4 s
  | .mhad x1 x2 x3 x4 => Sys2Proof.Machine.execMhad x1 x2 x3 x4 s
  | .mtr x1 x2 x3 => Sys2Proof.Machine.execMtr x1 x2 x3 s
  | .mcvt x1 x2 x3 x4 x5 => Sys2Proof.Machine.execMcvt x1 x2 x3 x4 x5 s
  | .mring x1 x2 x3 x4 => Sys2Proof.Machine.execMring x1 x2 x3 x4 s
  | .minv x1 x2 x3 x4 => Sys2Proof.Machine.execMinv x1 x2 x3 x4 s
  | .mlu x1 x2 x3 x4 x5 => Sys2Proof.Machine.execMlu x1 x2 x3 x4 x5 s
  | .mlus x1 x2 x3 x4 x5 => Sys2Proof.Machine.execMlus x1 x2 x3 x4 x5 s
  | .mchol x1 x2 x3 x4 => Sys2Proof.Machine.execMchol x1 x2 x3 x4 s
  | .mexp x1 x2 x3 => Sys2Proof.Machine.execMexp x1 x2 x3 s
  | .mtrq x1 x2 x3 => Sys2Proof.Machine.execMtrq x1 x2 x3 s
  | .mnrm1 x1 x2 x3 => Sys2Proof.Machine.execMnrm1 x1 x2 x3 s
  | .minvT x1 x2 x3 x4 => Sys2Proof.Machine.execMinvT x1 x2 x3 x4 s
  | .mluT x1 x2 x3 x4 x5 => Sys2Proof.Machine.execMluT x1 x2 x3 x4 x5 s
  | .mcholT x1 x2 x3 x4 => Sys2Proof.Machine.execMcholT x1 x2 x3 x4 s
  | .lds x1 x2 x3 x4 x5 => Sys2Proof.Machine.execLds x1 x2 x3 x4 x5 s
  | .ldc x1 x2 x3 x4 x5 => Sys2Proof.Machine.execLdc x1 x2 x3 x4 x5 s
  | .ldd x1 x2 x3 x4 x5 => Sys2Proof.Machine.execLdd x1 x2 x3 x4 x5 s
  | .ldp x1 x2 x3 x4 x5 => Sys2Proof.Machine.execLdp x1 x2 x3 x4 x5 s
  | .sts x1 x2 x3 x4 x5 => Sys2Proof.Machine.execSts x1 x2 x3 x4 x5 s
  | .stc x1 x2 x3 x4 x5 => Sys2Proof.Machine.execStc x1 x2 x3 x4 x5 s
  | .std x1 x2 x3 x4 x5 => Sys2Proof.Machine.execStd x1 x2 x3 x4 x5 s
  | .stp x1 x2 x3 x4 x5 => Sys2Proof.Machine.execStp x1 x2 x3 x4 x5 s
  | .bcp x1 x2 x3 x4 x5 x6 x7 => Sys2Proof.Machine.execBcp x1 x2 x3 x4 x5 x6 x7 s
  | .bcpm x1 x2 x3 x4 x5 x6 => Sys2Proof.Machine.execBcpm x1 x2 x3 x4 x5 x6 s
  | .bfill x1 x2 x3 x4 x5 x6 => Sys2Proof.Machine.execBfill x1 x2 x3 x4 x5 x6 s
  | .bfillEmpty x1 x2 x3 x4 => Sys2Proof.Machine.execBfillEmpty x1 x2 x3 x4 s
  | .bpref x1 x2 x3 => Sys2Proof.Machine.execBpref x1 x2 x3 s
  | .bobj x1 x2 x3 => Sys2Proof.Machine.execBobj x1 x2 x3 s
  | .barv x1 x2 => Sys2Proof.Machine.execBarv x1 x2 s
  | .bwait x1 x2 x3 => Sys2Proof.Machine.execBwait x1 x2 x3 s
  | .bcommit x1 => Sys2Proof.Machine.execBcommit x1 s
  | .bwaitn x1 x2 => Sys2Proof.Machine.execBwaitn x1 x2 s
  | .bquery x1 x2 x3 => Sys2Proof.Machine.execBquery x1 x2 x3 s
  | .gath x1 x2 x3 x4 x5 x6 => Sys2Proof.Machine.execGath x1 x2 x3 x4 x5 x6 s
  | .gaths x1 x2 x3 x4 x5 x6 x7 => Sys2Proof.Machine.execGaths x1 x2 x3 x4 x5 x6 x7 s
  | .scat x1 x2 x3 x4 x5 => Sys2Proof.Machine.execScat x1 x2 x3 x4 x5 s
  | .scata x1 x2 x3 x4 x5 => Sys2Proof.Machine.execScata x1 x2 x3 x4 x5 s
  | .ldspl x1 x2 x3 x4 x5 => Sys2Proof.Machine.execLdspl x1 x2 x3 x4 x5 s
  | .hacc x1 x2 x3 x4 x5 => Sys2Proof.Machine.execHacc x1 x2 x3 x4 x5 s
  | .atom x1 x2 x3 x4 x5 x6 x7 x8 => Sys2Proof.Machine.execAtom x1 x2 x3 x4 x5 x6 x7 x8 s
  | .cas x1 x2 x3 x4 x5 x6 => Sys2Proof.Machine.execCas x1 x2 x3 x4 x5 x6 s
  | .ldx x1 x2 x3 x4 x5 => Sys2Proof.Machine.execLdx x1 x2 x3 x4 x5 s
  | .stx x1 x2 x3 x4 x5 x6 => Sys2Proof.Machine.execStx x1 x2 x3 x4 x5 x6 s
  | .fence x1 x2 x3 => Sys2Proof.Machine.execFence x1 x2 x3 s
  | .bar x1 => Sys2Proof.Machine.execBar x1 s
  | .bara x1 x2 => Sys2Proof.Machine.execBara x1 x2 s
  | .barw x1 x2 => Sys2Proof.Machine.execBarw x1 x2 s
  | .sbar x1 x2 x3 => Sys2Proof.Machine.execSbar x1 x2 x3 s
  | .sbarGrid x1 => Sys2Proof.Machine.execSbarGrid x1 s
  | .nsend x1 x2 x3 => Sys2Proof.Machine.execNsend x1 x2 x3 s
  | .nrecv x1 x2 x3 => Sys2Proof.Machine.execNrecv x1 x2 x3 s
  | .yield x1 => Sys2Proof.Machine.execYield x1 s
  | .sleep x1 x2 => Sys2Proof.Machine.execSleep x1 x2 s
  | .nop x1 => Sys2Proof.Machine.execNop x1 s
  | .bra x1 x2 => Sys2Proof.Machine.execBra x1 x2 s
  | .brc x1 x2 x3 x4 => Sys2Proof.Machine.execBrc x1 x2 x3 x4 s
  | .brcBlk x1 x2 x3 x4 => Sys2Proof.Machine.execBrcBlk x1 x2 x3 x4 s
  | .brcBlkKeep x1 x2 x3 x4 => Sys2Proof.Machine.execBrcBlkKeep x1 x2 x3 x4 s
  | .brx x1 x2 => Sys2Proof.Machine.execBrx x1 x2 s
  | .call x1 x2 x3 => Sys2Proof.Machine.execCall x1 x2 x3 s
  | .ret x1 x2 => Sys2Proof.Machine.execRet x1 x2 s
  | .join x1 => Sys2Proof.Machine.execJoin x1 s
  | .regroup x1 => Sys2Proof.Machine.execRegroup x1 s
  | .exit x1 => Sys2Proof.Machine.execExit x1 s
  | .spawn x1 x2 x3 x4 => Sys2Proof.Machine.execSpawn x1 x2 x3 x4 s
  | .dx x1 x2 => Sys2Proof.Machine.execDx x1 x2 s
  | .tget x1 x2 x3 x4 => Sys2Proof.Machine.execTget x1 x2 x3 x4 s
  | .tset x1 x2 x3 x4 => Sys2Proof.Machine.execTset x1 x2 x3 x4 s
  | .tzero x1 x2 x3 => Sys2Proof.Machine.execTzero x1 x2 x3 s
  | .tseed x1 x2 x3 => Sys2Proof.Machine.execTseed x1 x2 x3 s
  | .finf x1 x2 x3 x4 => Sys2Proof.Machine.execFinf x1 x2 x3 x4 s
  | .frdv x1 x2 x3 x4 x5 x6 => Sys2Proof.Machine.execFrdv x1 x2 x3 x4 x5 x6 s
  | .fwrv x1 x2 x3 x4 x5 x6 => Sys2Proof.Machine.execFwrv x1 x2 x3 x4 x5 x6 s
  | .frds x1 x2 x3 x4 => Sys2Proof.Machine.execFrds x1 x2 x3 x4 s
  | .fwrs x1 x2 x3 x4 => Sys2Proof.Machine.execFwrs x1 x2 x3 x4 s
  | .frdm x1 x2 x3 x4 x5 => Sys2Proof.Machine.execFrdm x1 x2 x3 x4 x5 s
  | .fwrm x1 x2 x3 x4 x5 => Sys2Proof.Machine.execFwrm x1 x2 x3 x4 x5 s
  | .frsmRetry x1 x2 => Sys2Proof.Machine.execFrsmRetry x1 x2 s
  | .frsmSkip x1 x2 => Sys2Proof.Machine.execFrsmSkip x1 x2 s
  | .frsmPc x1 x2 x3 => Sys2Proof.Machine.execFrsmPc x1 x2 x3 s
  | .frsmStep x1 x2 => Sys2Proof.Machine.execFrsmStep x1 x2 s
  | .fkilLanes x1 x2 x3 => Sys2Proof.Machine.execFkilLanes x1 x2 x3 s
  | .fkilCoh x1 x2 => Sys2Proof.Machine.execFkilCoh x1 x2 s
  | .fkilGrid x1 x2 => Sys2Proof.Machine.execFkilGrid x1 x2 s
  | .frel x1 x2 => Sys2Proof.Machine.execFrel x1 x2 s
  | .srd x1 x2 x3 => Sys2Proof.Machine.execSrd x1 x2 x3 s
  | .swr x1 x2 x3 => Sys2Proof.Machine.execSwr x1 x2 x3 s
  | .brk x1 => Sys2Proof.Machine.execBrk x1 s
  | .trap x1 x2 => Sys2Proof.Machine.execTrap x1 x2 s
  | .tlbinvPage x1 x2 => Sys2Proof.Machine.execTlbinvPage x1 x2 s
  | .tlbinvPasid x1 => Sys2Proof.Machine.execTlbinvPasid x1 s
  | .icinvRange x1 x2 x3 => Sys2Proof.Machine.execIcinvRange x1 x2 x3 s
  | .icinvAll x1 => Sys2Proof.Machine.execIcinvAll x1 s
  | .mbxr x1 x2 x3 x4 x5 => Sys2Proof.Machine.execMbxr x1 x2 x3 x4 x5 s
  | .mbxw x1 x2 x3 x4 x5 => Sys2Proof.Machine.execMbxw x1 x2 x3 x4 x5 s
  | .psamp x1 x2 => Sys2Proof.Machine.execPsamp x1 x2 s
  | .ckpt x1 => Sys2Proof.Machine.execCkpt x1 s
  | .sfuResultWrite x1 x2 => Sys2Proof.Machine.execSfuResultWrite x1 x2 s
  | .matrixWordStart x1 => Sys2Proof.Machine.execMatrixWordStart x1 s
  | .matrixWordFinish x1 => Sys2Proof.Machine.execMatrixWordFinish x1 s
  | .shapeGroupFinish x1 => Sys2Proof.Machine.execShapeGroupFinish x1 s
  | .scratchpadLoadLands x1 x2 => Sys2Proof.Machine.execScratchpadLoadLands x1 x2 s
  | .scratchpadStorePerformed x1 x2 => Sys2Proof.Machine.execScratchpadStorePerformed x1 x2 s
  | .feWaitSatisfied x1 x2 => Sys2Proof.Machine.execFeWaitSatisfied x1 x2 s
  | .bulkSlotGrant x1 => Sys2Proof.Machine.execBulkSlotGrant x1 s
  | .copyByteLands x1 x2 => Sys2Proof.Machine.execCopyByteLands x1 x2 s
  | .bprefWalkEnd x1 => Sys2Proof.Machine.execBprefWalkEnd x1 s
  | .bwaitReturn x1 => Sys2Proof.Machine.execBwaitReturn x1 s
  | .bwaitnReturn x1 => Sys2Proof.Machine.execBwaitnReturn x1 s
  | .bcommitRoom x1 => Sys2Proof.Machine.execBcommitRoom x1 s
  | .turretLaneReply x1 x2 => Sys2Proof.Machine.execTurretLaneReply x1 x2 s
  | .atomicStepPerformed x1 x2 => Sys2Proof.Machine.execAtomicStepPerformed x1 x2 s
  | .fenceWaitEnd x1 => Sys2Proof.Machine.execFenceWaitEnd x1 s
  | .scopedBarrierRelease x1 x2 => Sys2Proof.Machine.execScopedBarrierRelease x1 x2 s
  | .nsendRoom x1 => Sys2Proof.Machine.execNsendRoom x1 s
  | .neighbourEntryArrival x1 => Sys2Proof.Machine.execNeighbourEntryArrival x1 s
  | .yieldPauseEnd x1 x2 => Sys2Proof.Machine.execYieldPauseEnd x1 x2 s
  | .sleepEnd x1 => Sys2Proof.Machine.execSleepEnd x1 s
  | .spawnQueueRoom x1 => Sys2Proof.Machine.execSpawnQueueRoom x1 s
  | .meetingComplete x1 => Sys2Proof.Machine.execMeetingComplete x1 s
  | .blkRecordRestore x1 => Sys2Proof.Machine.execBlkRecordRestore x1 s
  | .singleStepFreeze x1 x2 => Sys2Proof.Machine.execSingleStepFreeze x1 x2 s
  | .issueSelect x1 x2 => Sys2Proof.Machine.execIssueSelect x1 x2 s
  | .cohortBecomesUrgent x1 x2 => Sys2Proof.Machine.execCohortBecomesUrgent x1 x2 s
  | .fairnessRotation x1 x2 => Sys2Proof.Machine.execFairnessRotation x1 x2 s
  | .counterWaitRelease x1 x2 => Sys2Proof.Machine.execCounterWaitRelease x1 x2 s
  | .heldFaultEnqueue x1 => Sys2Proof.Machine.execHeldFaultEnqueue x1 s
  | .handlerSlotTakesRecord x1 => Sys2Proof.Machine.execHandlerSlotTakesRecord x1 s
  | .nestSlotTakesFault x1 => Sys2Proof.Machine.execNestSlotTakesFault x1 s
  | .replyToSavedImage x1 x2 => Sys2Proof.Machine.execReplyToSavedImage x1 x2 s
  | .translationWalk x1 x2 x3 x4 => Sys2Proof.Machine.execTranslationWalk x1 x2 x3 x4 s
  | .missQueueResume x1 => Sys2Proof.Machine.execMissQueueResume x1 s
  | .blockPlacement x1 => Sys2Proof.Machine.execBlockPlacement x1 s
  | .scratchpadCompaction x1 => Sys2Proof.Machine.execScratchpadCompaction x1 s
  | .blockRotation x1 => Sys2Proof.Machine.execBlockRotation x1 s
  | .rotatedBlockRestore x1 => Sys2Proof.Machine.execRotatedBlockRestore x1 s
  | .residencyDeadlockKill x1 => Sys2Proof.Machine.execResidencyDeadlockKill x1 s
  | .taskGroupTimeout x1 => Sys2Proof.Machine.execTaskGroupTimeout x1 s
  | .gridEnd x1 => Sys2Proof.Machine.execGridEnd x1 s
  | .preemption x1 => Sys2Proof.Machine.execPreemption x1 s
  | .hostStopRequest x1 x2 => Sys2Proof.Machine.execHostStopRequest x1 x2 s
  | .partitionResume x1 x2 => Sys2Proof.Machine.execPartitionResume x1 x2 s
  | .partitionDump x1 x2 => Sys2Proof.Machine.execPartitionDump x1 x2 s
  | .autoCheckpoint x1 => Sys2Proof.Machine.execAutoCheckpoint x1 s
  | .reverseStep x1 x2 x3 => Sys2Proof.Machine.execReverseStep x1 x2 x3 s
  | .engineReplay x1 x2 x3 => Sys2Proof.Machine.execEngineReplay x1 x2 x3 s
  | .hostMailboxWrite x1 x2 x3 x4 => Sys2Proof.Machine.execHostMailboxWrite x1 x2 x3 x4 s
  | .crcRetransmit x1 x2 => Sys2Proof.Machine.execCrcRetransmit x1 x2 s
  | .fatalStop x1 x2 => Sys2Proof.Machine.execFatalStop x1 x2 s
  | .selftestGroupComplete x1 x2 => Sys2Proof.Machine.execSelftestGroupComplete x1 x2 s
  | .lifehUpdate x1 x2 => Sys2Proof.Machine.execLifehUpdate x1 x2 s
  | .doorbell x1 x2 => Sys2Proof.Machine.execDoorbell x1 x2 s
  | .queueCommandFetch x1 => Sys2Proof.Machine.execQueueCommandFetch x1 s
  | .launch x1 x2 => Sys2Proof.Machine.execLaunch x1 x2 s
  | .copy x1 x2 => Sys2Proof.Machine.execCopy x1 x2 s
  | .waitval x1 x2 => Sys2Proof.Machine.execWaitval x1 x2 s
  | .waitvalTimeout x1 x2 => Sys2Proof.Machine.execWaitvalTimeout x1 x2 s
  | .signal x1 x2 => Sys2Proof.Machine.execSignal x1 x2 s
  | .branch x1 x2 => Sys2Proof.Machine.execBranch x1 x2 s
  | .selftest x1 x2 => Sys2Proof.Machine.execSelftest x1 x2 s
  | .fenceCommand x1 x2 => Sys2Proof.Machine.execFenceCommand x1 x2 s
  | .qbindWrite x1 x2 => Sys2Proof.Machine.execQbindWrite x1 x2 s
  | .qtinv x1 => Sys2Proof.Machine.execQtinv x1 s
  | .qtinvComplete => Sys2Proof.Machine.execQtinvComplete s
  | .qtbaseWrite x1 => Sys2Proof.Machine.execQtbaseWrite x1 s
  | .featgo => Sys2Proof.Machine.execFeatgo s
  | .qwWeightWrite x1 x2 x3 x4 => Sys2Proof.Machine.execQwWeightWrite x1 x2 x3 x4 s
  | .packageFlitArrival x1 x2 => Sys2Proof.Machine.execPackageFlitArrival x1 x2 s
  | .requestReassembled x1 => Sys2Proof.Machine.execRequestReassembled x1 s
  | .spireLinkDown x1 => Sys2Proof.Machine.execSpireLinkDown x1 s
  | .powerOn => Sys2Proof.Machine.execPowerOn s
  | .firmwareImage x1 => Sys2Proof.Machine.execFirmwareImage x1 s
  | .attestationRequest x1 => Sys2Proof.Machine.execAttestationRequest x1 s
  | .plimWrite x1 => Sys2Proof.Machine.execPlimWrite x1 s
  | .ps2Entry => Sys2Proof.Machine.execPs2Entry s
  | .thermalThrottle x1 => Sys2Proof.Machine.execThermalThrottle x1 s
  | .thermalTrip x1 => Sys2Proof.Machine.execThermalTrip x1 s
  | .powerOff => Sys2Proof.Machine.execPowerOff s
  | .registerWrite x1 x2 x3 x4 => Sys2Proof.Machine.execRegisterWrite x1 x2 x3 x4 s
  | .thermalThrottleEnd x1 => Sys2Proof.Machine.execThermalThrottleEnd x1 s
  | .firmwareVerifyComplete => Sys2Proof.Machine.execFirmwareVerifyComplete s
  | .waitvalCompareHolds x1 x2 => Sys2Proof.Machine.execWaitvalCompareHolds x1 x2 s
  | .returnToLive x1 => Sys2Proof.Machine.execReturnToLive x1 s
  | .handlerOrSystemReadLands x1 => Sys2Proof.Machine.execHandlerOrSystemReadLands x1 s

end Sys2Proof.Machine
end

