-- ==== Sys2Proof/Machine/Auto.lean ====
section
/-! DEFINITION. What happens next (log entries 2 and 4): the word that the cohort in `State.cur` issues, the outside events of the agenda,
the events of the machine itself in a fixed order, the choice of the next clause, and the clock. -/

namespace Sys2Proof.Machine

/-! ## The word that issues next -/

/-- The word stands behind a DX prefix (R61). -/
def Ctx.behindDx (x : Ctx) : Bool := ((x.path.cl.map (·.dx)).getD none).isSome

/-- The partition of the issuer issues: not stopped, stepped out or held by heat (R329, R342, R401). -/
def State.mayIssue (s : State) (x : Ctx) : Bool :=
  x.path.free && x.coh.mid && !x.coh.gone && decide (x.coh.step < 2)
  && !((s.core x.blk.coreId).part x.coh.part).stopped && !(s.die x.blk.die).hot && !s.pow.fatal && s.pow.on

/-- The context behind a DX prefix: the word that it modifies. -/
def Ctx.skipDx (x : Ctx) : Ctx :=
  let p : Path := { x.path with cl := x.path.cl.map (fun cl => { cl with wi := cl.wi + 1 }) }
  { x with path := p, coh := x.coh.setPath x.isB (some p) }

/-- The word stalls: a counter it waits for is not zero or its own is full (R36, R55), or matrix words of the cohort hold it (R193). A
prefix issues with the word behind it, and stalls as that word does (R61). -/
def State.wordStalls (s : State) (x : Ctx) (i : Instr) : Bool :=
  match i with
  | .dx _ _ =>
    let y := x.skipDx
    !y.coh.ctrFree || (match y.path.word x.blk.lim with
      | some j => s.matHold y j
      | none => false)
  | i => !x.coh.ctrFree || s.matHold x i

/-- The words whose accesses an acquire holds back (R256, R279): loads, stores, MLD, MST, Turret words, atomics, and the words that read or
write a block-shared register. -/
def accessWord (i : Instr) : Bool :=
  (match i with
    | .lds .. | .ldc .. | .ldd .. | .ldp .. | .sts .. | .stc .. | .std .. | .stp .. | .mld .. | .mst .. | .gath .. | .gaths .. | .scat ..
    | .scata .. | .ldspl .. | .hacc .. | .atom .. | .cas .. | .ldx .. | .stx .. => true
    | _ => false)
  || i.srcs.any (fun q => match q.2 with
    | .b _ => true
    | _ => false)
  || (match i.dst with
    | some (_, .b _) => true
    | _ => false)

/-- The order and scope of an atomic. -/
def atCtlOf : Instr → Option AtCtl
  | .atom _ _ _ _ al _ _ _ | .cas _ _ al _ _ _ | .ldx _ _ al _ _ | .stx _ _ al _ _ _ => some al
  | _ => none

/-- The word must wait for the order of accesses (R256): 0 for a release whose earlier accesses are not all performed, 2 for an access
behind an acquire that is not. -/
def State.ordHeld (s : State) (x : Ctx) (i : Instr) : Option Nat :=
  let rel := match atCtlOf i with
    | some al => (al.ord == .rel || al.ord == .ar || al.ord == .sc) && x.blk.binds al.scope
    | none => false
  if rel && !s.accessesDone x.ref false then some 0
  else if accessWord i && !s.acquired x.ref then some 2
  else none

/-- The word that the cohort in `cur` stands at and that stalls on nothing. -/
def State.nextWord (s : State) : Option Instr :=
  match s.ctx with
  | none => none
  | some x =>
    if !s.mayIssue x || (x.path.cl.map (fun cl => decide (cl.words.length < cl.wi))).getD true then none
    else match x.path.word x.blk.lim with
      | some i => if s.wordStalls x i then none else some i
      | none => none

/-- The word that the cohort in `cur` issues now: a prefix looks at the word behind it. -/
def State.issueNow (s : State) : Option Instr :=
  match s.nextWord, s.ctx with
  | some (.dx m k), some x =>
    let y := x.skipDx
    (match (y.path.word x.blk.lim).bind (s.ordHeld y) with
      | some _ => none
      | none => some (.dx m k))
  | some i, some x => if (s.ordHeld x i).isSome then none else some i
  | _, _ => none

/-- The blocked wait of a word that the order of accesses holds (R102, R256). -/
def State.ordWait (s : State) : Option State :=
  match s.nextWord, s.ctx with
  | some i, some x =>
    let j := match i with
      | .dx _ _ => x.skipDx.path.word x.blk.lim
      | i => some i
    (j.bind (s.ordHeld x)).map (fun n => s.stand x ⟨.order, false, s.clk, n, []⟩)
  | _, _ => none

/-- A prefix has issued and its word has not: nothing comes between them (R61). -/
def State.dxPending (s : State) : Bool := (s.ctx.map Ctx.behindDx).getD false

/-! ## The events of the machine itself -/

/-- An event with its numbers: the meaning of its row. -/
abbrev Event := State → Out

/-- The events of an operation in flight. -/
def State.pendEvents (s : State) (p : Pend) : List Event :=
  let ls := AMap.keys p.lanes
  if s.isSaved p.blk then (if ls.isEmpty then [execReplyToSavedImage p.id 0] else ls.map (fun l => execReplyToSavedImage p.id l))
  else
    match p.kind with
    | .load .none _ | .load .poll _ => ls.map (fun l => execScratchpadLoadLands p.id l)
    | .load .fe _ | .load .feClr _ | .store .fe _ => ls.map (fun l => execFeWaitSatisfied p.id l)
    | .store .none _ | .store .fill _ => ls.map (fun l => execScratchpadStorePerformed p.id l)
    | .sfu => ls.map (fun l => execSfuResultWrite p.id l)
    | .gath | .gaths _ _ | .scat | .scata _ | .ldspl | .hacc _ _ _ => ls.map (fun l => execTurretLaneReply p.id l)
    | .atom _ _ _ | .cas _ | .ldx | .stx _ => ls.map (fun l => execAtomicStepPerformed p.id l)
    | .matrix _ => [execMatrixWordStart p.id, execShapeGroupFinish p.id, execMatrixWordFinish p.id]
    | .sysread _ | .regread _ _ | .mbxr _ _ | .bquery _ _ => [execHandlerOrSystemReadLands p.id]
    | .pref _ => [execBprefWalkEnd p.id]

/-- The event that ends a wait. -/
def WaitKind.event (k : WaitKind) (p : PathRef) : List Event :=
  match k with
  | .bobj | .barv | .bwait => [execBwaitReturn p]
  | .bcommit => [execBcommitRoom p]
  | .bwaitn => [execBwaitnReturn p]
  | .order | .fence | .regs | .tlb | .reply => [execFenceWaitEnd p]
  | .nsend | .mringSend => [execNsendRoom p]
  | .nrecv | .mringRecv => [execNeighbourEntryArrival p]
  | .sleep => [execSleepEnd p]
  | .spawn => [execSpawnQueueRoom p]
  | .slot | .bar | .bara | .barw | .sbar | .sbarGrid | .meeting => []

/-- The events of a cohort. -/
def cohEvents (blk coh : Nat) (c : Cohort) : List Event :=
  [false, true].flatMap (fun isB => match (c.path isB).bind (·.wait) with
    | some w => if w.released then [] else w.kind.event ⟨blk, coh, isB⟩
    | none => [])
  ++ (if 2 ≤ c.step then [execSingleStepFreeze blk coh] else [])
  ++ (if c.ypause.isSome then [execYieldPauseEnd blk coh] else [])
  ++ (if 256 ≤ c.fair then [execFairnessRotation blk coh] else [])
  ++ (if c.mid then [execCounterWaitRelease blk coh] else [])
  ++ (if c.ready.isSome then [execCohortBecomesUrgent blk coh] else [])

/-- The events of a block. -/
def blockEvents (blk : Nat) (b : Block) : List Event :=
  if b.saved then []
  else b.cohs.flatMap (fun c => cohEvents blk c.1 c.2)
    ++ (if b.recs.isEmpty then [] else [execBlkRecordRestore blk])
    ++ (if b.stops.isEmpty then [] else [execMeetingComplete blk])
    ++ (if b.logr.isSome then [execAutoCheckpoint blk] else [])

/-- The events of a grid. -/
def gridEvents (gid : Nat) (g : Grid) : List Event :=
  if g.stat = .ended then []
  else
    (if g.garr.isEmpty then [] else [execScopedBarrierRelease gid 0])
    ++ (List.range g.sbars.length).map (fun k => execScopedBarrierRelease gid (k + 1))
    ++ [execBlockPlacement gid, execRotatedBlockRestore gid, execBlockRotation gid, execPreemption gid, execResidencyDeadlockKill gid, execGridEnd gid]

/-- The start of a command that has been fetched. -/
def Cmd.event (c : Cmd) (q : Nat) : List Event :=
  match c.op with
  | 1 => if c.began then [] else [execLaunch q c.id]
  | 2 => [execCopy q c.id]
  | 3 => if c.began then [execWaitvalCompareHolds q c.id, execWaitvalTimeout q c.id] else [execWaitval q c.id]
  | 4 => [execSignal q c.id]
  | 5 => [execBranch q c.id]
  | 6 => if c.began then [] else [execSelftest q c.id]
  | 7 => [execFenceCommand q c.id]
  | _ => []

/-- The events of the host's side. -/
def State.hostEvents (s : State) : List Event :=
  s.host.queues.flatMap (fun q => (execQueueCommandFetch q.1 : Event) :: q.2.cmds.flatMap (fun c => c.event q.1))
  ++ (if s.selftests.isEmpty then [] else [0, 1, 2, 3].flatMap (fun d => [0, 1, 2, 3].map (fun c => execSelftestGroupComplete d c)))
  ++ (if s.host.qtinv.isEmpty then [] else [execQtinvComplete])
  ++ (if s.pow.img.isSome then [execFirmwareVerifyComplete] else [])
  ++ s.fab.reqs.flatMap (fun r => r.flits.map (fun f => (execPackageFlitArrival f.1 r.id : Event)) ++ [execRequestReassembled r.id])
  ++ s.fab.crcs.filterMap (fun c => if 8 < c.2 then some (execSpireLinkDown c.1) else none)
  ++ (if s.pow.idle.isSome then [execPs2Entry] else [])

/-- The events of the dies. -/
def State.dieEvents (s : State) : List Event :=
  s.dies.flatMap (fun d =>
    (if d.2.heldq.isEmpty then [] else [execHeldFaultEnqueue d.1])
    ++ (if d.2.fq.isEmpty then [] else [execHandlerSlotTakesRecord d.1])
    ++ (if d.2.nestq.isEmpty then [] else [execNestSlotTakesFault d.1])
    ++ (if d.2.tq.isEmpty then [] else [execTaskGroupTimeout d.1]))

/-- The cores that hold blocks. -/
def State.busyCores (s : State) : List Nat :=
  s.blocks.foldl (fun l b => if b.2.saved then l else setIns l b.2.coreId) []

/-- The selections of the partitions: those after the partition that chose last come first (log entry 2). -/
def State.selects (s : State) : List Event :=
  let l := s.busyCores.flatMap (fun c => [0, 1, 2, 3].map (fun p => 4 * c + p))
  (l.filter (fun n => decide (s.turn < n)) ++ l.filter (fun n => decide (n ≤ s.turn))).map (fun n => execIssueSelect (n / 4) (n % 4))

/-- Every event that may be due, in the model's order; the selections come last. -/
def State.events (s : State) : List Event :=
  s.pend.flatMap s.pendEvents
  ++ s.copies.map (fun c => (execCopyByteLands c.id 64 : Event))
  ++ (AMap.keys s.missq).map (fun u => (execMissQueueResume u : Event))
  ++ s.slotCores.map (fun k => (execBulkSlotGrant k : Event))
  ++ s.blocks.flatMap (fun b => blockEvents b.1 b.2)
  ++ s.dieEvents
  ++ s.grids.flatMap (fun g => gridEvents g.1 g.2)
  ++ (if s.grids.isEmpty then [] else s.busyCores.map (fun c => execScratchpadCompaction c))
  ++ s.hostEvents
  ++ s.selects

/-- What an event does, when it is enabled: an event that is not leaves the state as it is. -/
def State.fires (s : State) (e : Event) : Option State :=
  match e s with
  | .next t => if t = s then none else some t
  | _ => none

/-! ## The clock -/

/-- The times at which something falls due. -/
def State.deadlines (s : State) : List Nat :=
  s.blocks.flatMap (fun b => b.2.cohs.flatMap (fun c =>
    [false, true].filterMap (fun isB => ((c.2.path isB).bind (·.wait)).bind (fun w => if w.kind = .sleep then some w.num else none))
    ++ (c.2.ypause.map (·.2)).toList))
  ++ s.dies.flatMap (fun d => (d.2.tq.filter (fun t => t.seq.isNone)).map (fun t => t.at' + groupCycles))
  ++ s.grids.flatMap (fun g => (g.2.since.map (· + deadlockCycles)).toList ++ (g.2.waits.map (· + preemptCycles)).toList)
  ++ s.host.queues.flatMap (fun q => q.2.cmds.flatMap (fun c =>
    if c.op = 3 ∧ c.w32 36 ≠ 0 then [c.since + 1500 * c.w32 36]
    else if c.op = 6 then (List.range 4).map (fun n => c.since + testCycles * (n + 1)) else []))
  ++ (s.pow.idle.map (· + idleCycles)).toList

/-- The clock when nothing is enabled: the next time at which something falls due, else one cycle on. -/
def State.nextTime (s : State) : Nat :=
  ((s.deadlines.filter (fun t => decide (s.clk < t))).foldl (fun (m : Option Nat) t => some (match m with
    | some n => Nat.min n t
    | none => t)) none).getD (s.clk + 1)

/-- What every step leaves behind: the timing of R306 and R400, and when clauses became ready (R308). -/
def State.tick (s : State) : State := s.tickGrids.tickIdle.noteReady

/-! ## The choice -/

/-- What the next step is: a word or an outside event that runs in a state, the fatal stop of a bank, or the state that an event of
the machine or the passing of time leaves. -/
inductive Choice where
  | word (i : Instr) (s : State)
  | event (i : Instr) (s : State)
  | fatal (d n : Nat)
  | done (t : State)
deriving DecidableEq, Repr

/-- The outside event that is due: the head of the agenda when its count of steps is over. -/
def State.due (s : State) : Option (Instr × State) :=
  match s.agenda with
  | (0, e) :: r => some (e, { s with agenda := r })
  | _ => none

/-- One step of the agenda's count. -/
def State.counted (s : State) : State :=
  match s.agenda with
  | (n + 1, e) :: r => { s with agenda := (n, e) :: r }
  | _ => s

/-- The first event that is enabled. -/
def State.firstEvent (s : State) : Option State := s.events.findSome? s.fires

/-- The next step: a fatal error stops the package; a word behind its prefix; the outside event that is due (an instruction word is no
event and is dropped); the word of the cohort in `cur`; the first enabled event; the passing of time. -/
def State.choose (s : State) : Choice :=
  match s.pow.raised with
  | some (d, n) => .fatal d n
  | none =>
    match (if s.dxPending then s.issueNow else none), s.due with
    | some i, _ => .word i s
    | none, some (e, t) => if e.ctl.isSome then .done t else .event e t
    | none, none =>
      let t := s.counted
      match s.issueNow with
      | some i => .word i t
      | none => match (match t.ordWait with
          | some u => some u
          | none => t.firstEvent) with
        | some u => .done u
        | none => .done { t with clk := t.nextTime }

end Sys2Proof.Machine
end

