-- ==== Sys2Proof/Machine/Step.lean ====
section
/-! DEFINITION. One step of the machine, and a clause of one instruction placed where the next step issues it. -/

namespace Sys2Proof.Machine

/-- The state that an outcome leaves, changed. -/
def onNext (f : State → State) (o : Out) : Out :=
  match o with
  | .next t => .next (f t)
  | .fault r => .fault r
  | .refused r => .refused r

/-- One step: what `choose` says, with one cycle for a word, then the timing of R306 and R400. -/
def step (s : State) : Host.Outcome State Fault Refusal :=
  match s.choose with
  | .word i t => onNext (fun u => { u with clk := u.clk + 1 }.tick) (exec i t)
  | .event i t => onNext State.tick (exec i t)
  | .fatal d n => onNext State.tick (execFatalStop d n s)
  | .done t => .next t.tick

/-! ## A clause of one instruction (log entry 8) -/

/-- The launch record of the grid that issues it: one block of one thread. -/
def fetchLrec : LaunchRec := lrecOf [0x1000#64, 0x2000#64, 0x0001000100000001#64, 0x0020000100010001#64]

/-- The clause of an instruction: its word, and the literal word when the row has one. -/
def fetchClauseOf (nbits w : Nat) : Clause :=
  let w' := w % 2 ^ nbits
  let ws : List W64 := if nbits ≤ 64 then
      (if ((decodeTableWord nbits w).map Instr.usesLit).getD false then [BitVec.ofNat 64 w', 0#64] else [BitVec.ofNat 64 w'])
    else [BitVec.ofNat 64 w', BitVec.ofNat 64 (w' / 2 ^ 64)]
  ⟨if ws.length = 2 then 0xD100000000000000#64 else 0xD000000000000000#64, ws, 1, none⟩

/-- A cohort of one thread that stands at the first word of a clause. -/
def fetchCohort (cl : Clause) : Cohort :=
  let c := mkCohort [(0, mkThread 0 1 (0#32, 0#32, 0#32) (0#32, 0#32, 0#32) fetchLrec)] 0x1000#64 0 0
  { c with
    pa := some { mkPath 0x1000#64 1#32 none with cl := some cl }
    mid := true }

/-- The grid of the clause. -/
def fetchGrid : Grid where
  lrec := fetchLrec
  pasid := 0#20
  qn := 0#16
  cmd := 0
  stat := .running
  status := 0
  next := 1
  ahead := []
  done := 0
  gph := 0
  garr := []
  sbars := []
  since := none
  rot := []
  slots := []
  waits := none
  recd := false
  regn := 0

/-- The block of the clause on core 0. -/
def fetchBlock (s : State) (gid : Nat) (cl : Clause) : Block :=
  mkBlock s gid .grid 0 0 (0#32, 0#32, 0#32) (1, 1, 1) ⟨⟨256, 4, 64, 0, 0, 0, true, 0⟩, 1, 1, 1, 0⟩ [(0, fetchCohort cl)]

/-- The machine with a clause of one instruction fetched by the cohort that issues next: the package runs, no outside event is due, the
partition issues, and a block of one thread on core 0 stands at the word (log entry 8). -/
def State.withFetchWord (s : State) (nbits w : Nat) : State :=
  let b := fetchBlock s (s.nid + 1) (fetchClauseOf nbits w)
  let s1 := ((s.setBlock s.nid b).setGrid (s.nid + 1) fetchGrid).updPart 0 0 (fun p => { p with
    cur := some (s.nid, 0)
    stopped := false })
  let s2 := s1.setDie 0 { s1.die 0 with hot := false }
  { s2 with
    agenda := []
    cur := some ⟨s.nid, 0⟩
    nid := s.nid + 2
    pow := { s2.pow with on := true, raised := none, fatal := false } }

end Sys2Proof.Machine
end

