-- ==== Sys2Proof/Safety.lean ====
section
/-! DEFINITION. What counts as safe, in the terms that statements use: a step that neither faults nor is refused, the canonical
form of every memory of the machine, what a state holds at each place, and which places a step leaves as they were. -/

namespace Sys2Proof.Machine

/-- A state from which the machine goes on. -/
def State.goesOn (s : State) : Prop := ∃ t, step s = .next t

/-- Every store of bytes stands in its canonical form (log entry 5): main memory, the scratchpads of cores and dies, of handler blocks
and saved images, and the images that Belfry keeps of recorded blocks and in dumps. -/
def State.memWf (s : State) : Prop :=
  s.phys.wf ∧ (∀ p ∈ s.cores, p.2.scr.wf) ∧ (∀ p ∈ s.dies, p.2.dw.wf) ∧ (∀ p ∈ s.blocks, p.2.mem.wf)
  ∧ (∀ k ∈ s.dbg.snaps, k.img.mem.wf) ∧ (∀ p ∈ s.dbg.live, p.2.mem.wf) ∧ ∀ d ∈ s.dbg.dump, d.mem.wf

/-! ## What a state holds -/

/-- Scalar register s(n) of a cohort. -/
def State.sAt (s : State) (r : CohRef) (n : Nat) : W64 := ((s.coh r).map (·.sreg n)).getD 0#64
/-- Ring register k(n) of a cohort. -/
def State.kAt (s : State) (r : CohRef) (n : Nat) : W64 := ((s.coh r).map (·.kreg n)).getD 0#64
/-- Counter n of a cohort. -/
def State.ctrAt (s : State) (r : CohRef) (n : Nat) : BitVec 6 := ((s.coh r).map (·.ctr n)).getD 0#6
/-- Block register b(n). -/
def State.bAt (s : State) (blk n : Nat) : W32 := ((s.block blk).map (·.breg n)).getD 0#32
/-- The thread of a lane. -/
def State.thr (s : State) (r : CohRef) (l : Nat) : Option Thread := (s.coh r).bind (fun c => c.thread l)
/-- Vector register v(n) of a lane. -/
def State.vAt (s : State) (r : CohRef) (l n : Nat) : VReg := ((s.thr r l).map (·.vreg n)).getD VReg.zero
/-- Matrix register m(n) of a lane. -/
def State.mAt (s : State) (r : CohRef) (l n : Nat) : MReg := ((s.thr r l).map (·.mreg n)).getD MReg.empty
/-- SEED of a lane. -/
def State.seedAt (s : State) (r : CohRef) (l : Nat) : Option W32 := (s.thr r l).map (·.seed)
/-- The path in a slot. -/
def State.slot (s : State) (r : CohRef) (isB : Bool) : Option Path := (s.coh r).bind (fun c => c.path isB)
/-- The latch window, the newest entry first. -/
def State.latches (s : State) (r : CohRef) : List LEnt := ((s.coh r).map (·.latch)).getD []
/-- The freeze of a cohort. -/
def State.frozen (s : State) (r : CohRef) : Option Freeze := (s.coh r).bind (·.frz)

/-! ## Places -/

/-- A place of the machine: what one statement can say is left as it was. -/
inductive Place where
  /-- the registers and counters of a cohort -/
  | s (r : CohRef) (n : Nat)
  | k (r : CohRef) (n : Nat)
  | ctr (r : CohRef) (n : Nat)
  /-- a block register -/
  | b (blk n : Nat)
  /-- the registers, SEED and the reservation of a lane's thread, and its identity -/
  | v (r : CohRef) (l n : Nat)
  | m (r : CohRef) (l n : Nat)
  | seed (r : CohRef) (l : Nat)
  | resv (r : CohRef) (l : Nat)
  | ident (r : CohRef) (l : Nat)
  /-- FLANE, PMASK and PIDX; the freeze -/
  | exc (r : CohRef)
  | frz (r : CohRef)
  /-- the paths: a slot, the spill stack, which slot issues, whether it is inside a clause -/
  | slot (r : CohRef) (isB : Bool)
  | spill (r : CohRef)
  | sel (r : CohRef)
  /-- the latch window; NCLS; the counts of issue (R241, R302, R329, R352 and the marks of a re-issued word) -/
  | latch (r : CohRef)
  | ncls (r : CohRef)
  | cnt (r : CohRef)
  /-- all else of a cohort; all else of a block -/
  | coh (r : CohRef)
  | blk (b : Nat)
  /-- a byte, a full-empty bit, a poison mark, the live objects of a store -/
  | byte (st : Store) (a : Nat)
  | full (st : Store) (a : Nat)
  | psn (st : Store) (g : Nat)
  | objs (core : Nat)
  /-- all else of a core; a partition; its count of sampled words -/
  | core (n : Nat)
  | part (n p : Nat)
  | smp (n p : Nat)
  /-- all else of a die -/
  | die (d : Nat)
  | grid (g : Nat)
  | pend | copies | clk | agenda | cur | names | errs | xlat | fab | host | dbg | pow
deriving DecidableEq, Repr

/-- A cohort without what has a place of its own. -/
def Cohort.bare (c : Cohort) : Cohort :=
  { c with
    lanes := []
    pa := none
    pb := none
    selB := false
    mid := false
    spill := []
    s := []
    k := []
    d := []
    latch := []
    flane := 0#32
    pmask := 0#32
    pidx := 0#32
    frz := none
    rpm := 0#32
    rinc := false
    ncls := 0
    fair := 0
    polls := 0
    step := 0
    psamp := none }

/-- A block without what has a place of its own. -/
def Block.bare (b : Block) : Block :=
  { b with
    cohs := []
    b := []
    mem := []
    mfe := []
    mpsn := []
    mobj := [] }

/-- A core without what has a place of its own. -/
def Core.bare (c : Core) : Core :=
  { c with
    scr := []
    fe := []
    psn := []
    objs := []
    parts := [] }

/-- A die without what has a place of its own. -/
def Die.bare (d : Die) : Die :=
  { d with
    dw := []
    dwpsn := [] }

/-- The counts of issue of a cohort. -/
def Cohort.counts (c : Cohort) : Nat × W32 × Bool × Nat × Nat × Option (BitVec 16) :=
  (c.fair, c.rpm, c.rinc, c.polls, c.step, c.psamp)

/-- Two states hold the same at a place. -/
def State.same (s t : State) : Place → Prop
  | .s r n => t.sAt r n = s.sAt r n
  | .k r n => t.kAt r n = s.kAt r n
  | .ctr r n => t.ctrAt r n = s.ctrAt r n
  | .b blk n => t.bAt blk n = s.bAt blk n
  | .v r l n => t.vAt r l n = s.vAt r l n
  | .m r l n => t.mAt r l n = s.mAt r l n
  | .seed r l => t.seedAt r l = s.seedAt r l
  | .resv r l => (t.thr r l).map (·.resv) = (s.thr r l).map (·.resv)
  | .ident r l => (t.thr r l).map (fun h => (h.t, h.tid, h.bid)) = (s.thr r l).map (fun h => (h.t, h.tid, h.bid))
  | .exc r => (t.coh r).map (fun c => (c.flane, c.pmask, c.pidx)) = (s.coh r).map (fun c => (c.flane, c.pmask, c.pidx))
  | .frz r => t.frozen r = s.frozen r
  | .slot r isB => t.slot r isB = s.slot r isB
  | .spill r => (t.coh r).map (·.spill) = (s.coh r).map (·.spill)
  | .sel r => (t.coh r).map (fun c => (c.selB, c.mid)) = (s.coh r).map (fun c => (c.selB, c.mid))
  | .latch r => t.latches r = s.latches r
  | .ncls r => (t.coh r).map (·.ncls) = (s.coh r).map (·.ncls)
  | .cnt r => (t.coh r).map Cohort.counts = (s.coh r).map Cohort.counts
  | .coh r => (t.coh r).map Cohort.bare = (s.coh r).map Cohort.bare
  | .blk b => (t.block b).map Block.bare = (s.block b).map Block.bare
  | .byte st a => t.byte st a = s.byte st a
  | .full st a => t.full st a = s.full st a
  | .psn st g => (t.psns st).contains g = (s.psns st).contains g
  | .objs n => (t.core n).objs = (s.core n).objs
  | .core n => (t.core n).bare = (s.core n).bare
  | .part n p => { (t.core n).part p with smp := 0 } = { (s.core n).part p with smp := 0 }
  | .smp n p => ((t.core n).part p).smp = ((s.core n).part p).smp
  | .die d => (t.die d).bare = (s.die d).bare
  | .grid g => t.grid g = s.grid g
  | .pend => t.pend = s.pend
  | .copies => t.copies = s.copies
  | .clk => t.clk = s.clk
  | .agenda => t.agenda = s.agenda
  | .cur => t.cur = s.cur ∧ t.turn = s.turn
  | .names => t.nid = s.nid ∧ t.free = s.free
  | .errs => t.errIn = s.errIn
  | .xlat => t.tlb = s.tlb ∧ t.missq = s.missq
  | .fab => t.fab = s.fab
  | .host => t.host = s.host
  | .dbg => t.dbg = s.dbg
  | .pow => t.pow = s.pow

/-- Every place outside `w` is left as it was. -/
def State.keeps (s t : State) (w : Place → Prop) : Prop := ∀ p, ¬ w p → s.same t p

/-! ## Issuing a word -/

/-- The cohort `x` issues a word of control `c` now: no counter holds it and its own is not full (R36, R55), unless it has counted
already (R60); and no scalar latch entry that it reads is poisoned or struck by an error (R97, R367). -/
def State.issues (s : State) (x : Ctx) (c : Ctl) : Prop :=
  s.ctx = some x ∧ (x.counted = true ∨ x.coh.waitOk c.wait = true)
  ∧ (∀ n, c.set = some n → x.coh.ctr n.toNat ≠ 63#6 ∨ x.counted = true) ∧ (scaCheck x s).isNone = true

/-- The places that every word moves that issues and completes: the path's slot, the latch window, the counts of issue and of
samples. -/
def Ctx.moved (x : Ctx) : Place → Prop
  | .slot r isB => r = x.ref ∧ isB = x.isB
  | .latch r => r = x.ref
  | .cnt r => r = x.ref
  | .smp n p => n = x.blk.coreId ∧ p = x.coh.part
  | _ => False

/-- The mark of a single step on the issuing path, behind a word that completes (R329). -/
def Ctx.stepped (x : Ctx) : Bool := x.path.stp || x.coh.step == 1

/-- The issuing path stands at the next word, in no wait and behind no prefix, marked when this was the word of a single step (R329), with
the operations that may demote it as `ops` says, and the window has taken the entry (R51, R55). -/
def State.passedWith (t : State) (x : Ctx) (c : Ctl) (e : LEnt) (ops : List Nat → Prop) : Prop :=
  (∃ o, t.slot x.ref x.isB = some { x.path.advance (ctlLen c) with stp := x.stepped, ops := o } ∧ ops o)
  ∧ t.latches x.ref = (e :: x.coh.latch).take 8

/-- The same for a word that leaves no such operation. -/
def State.passed (t : State) (x : Ctx) (c : Ctl) (e : LEnt) : Prop := t.passedWith x c e (fun o => o = x.path.ops)

/-- The places that a destination names: in the given lanes for a vector destination, with the odd register of the pair where the
lane's result is wide (R44); none for NWB (R53). -/
def dstCovers (d : Dst) (x : Ctx) (ls : List Nat) (wide : Nat → Bool) : Place → Prop
  | .s r n => r = x.ref ∧ ∃ m, d = .s m ∧ n = m.toNat
  | .k r n => r = x.ref ∧ ∃ m, d = .k m ∧ n = m.toNat
  | .b blk n => blk = x.ref.blk ∧ ∃ m, d = .b m ∧ n = m.toNat
  | .v r l n => r = x.ref ∧ l ∈ ls ∧ ∃ m, d = .v m ∧ (n = m.toNat ∨ (wide l = true ∧ n = m.toNat + 1))
  | .seed r l => r = x.ref ∧ l ∈ ls ∧ d = .seed
  | _ => False

/-- A scalar destination holds a value (R149, R150, R162). -/
def State.holdsSca (t : State) (x : Ctx) (d : Dst) (v : W64) : Prop :=
  match d with
  | .s n => t.sAt x.ref n.toNat = v
  | .k n => t.kAt x.ref n.toNat = v
  | .b n => t.bAt x.ref.blk n.toNat = v.setWidth 32
  | _ => True

/-- A word completes with a scalar result `v`: its destination holds it, the window has it as its newest entry, and nothing else
moves. -/
def State.scaDone (s : State) (x : Ctx) (c : Ctl) (d : Dst) (o : Out) (v : W64) : Prop :=
  ∃ t, o = .next t ∧ t.holdsSca x d v ∧ t.passed x c (.sca v false) ∧ s.keeps t (fun p => x.moved p ∨ dstCovers d x [] (fun _ => false) p)

/-- The state in which a word's trap leaves the machine: the issue is sampled (R345) and the cohort freezes at the word (R312, R313);
what the freeze does is `State.freezeCoh`. -/
def State.trapped (s : State) (x : Ctx) (z : Fz) : State :=
  let y : Ctx := { x with smp := s.sampleOf x }
  ((s.sampleCount y).sampleFroze y).freezeCoh x.ref (x.frz z) z.flane z.pmask z.pidx

/-- The tangent k that a result gives its destination in the mode of the word's prefix (R223). -/
def Ctx.givenTan (x : Ctx) (tag : Tag) (tan : AMap W64) (k : Nat) : W64 :=
  match x.dxMode with
  | .stop => 0#64
  | .seed => tagOnes tag
  | _ => tan.get k 0#64

/-- A register after the write of a lane: under TONLY its value and tag stay (R224); the tangents of the word are given, the others
stay (R223). -/
def VReg.given (q q0 : VReg) (x : Ctx) (v : W32) (tag : Tag) (tan : Nat → W32) : Prop :=
  (if x.dxMode = .tonly then q.val = q0.val ∧ q.tag = q0.tag ∧ q.psn = q0.psn else q.val = v ∧ q.tag = tag ∧ q.psn = false)
  ∧ (∀ k, q.tan.get k 0#32 = if k ∈ x.tans then tan k else q0.tan.get k 0#32)
  ∧ ∀ k, q.tpsn.contains k = (!x.tans.contains k && q0.tpsn.contains k)

/-- A lane's destination holds a result. -/
def State.holdsLane (s t : State) (x : Ctx) (d : Dst) (l : Nat) (r : LRes) : Prop :=
  match d with
  | .v n =>
    (t.vAt x.ref l n.toNat).given (s.vAt x.ref l n.toNat) x (r.val.setWidth 32) r.tag (fun k => (x.givenTan r.tag r.tan k).setWidth 32)
    ∧ (r.wide = true → (t.vAt x.ref l (n.toNat + 1)).given (s.vAt x.ref l (n.toNat + 1)) x (r.val.extractLsb' 32 32) r.tag
        (fun k => (x.givenTan r.tag r.tan k).extractLsb' 32 32))
  | .seed => t.seedAt x.ref l = if x.dxMode = .tonly then s.seedAt x.ref l else some (r.val.setWidth 32)
  | _ => True

/-- What a vector word needs of the results of its lanes to complete (R161): no poisoned operand, a destination that fits (R44, R224),
no condition whose trap is enabled (R78). -/
def Ctx.lanesRun (x : Ctx) (d : Dst) (r : Nat → LRes) : Prop :=
  ∀ l ∈ x.lanes, (r l).psn = false ∧ x.dstFits d l (r l) = true ∧ (r l).c &&& x.grid.lrec.trapen = 0#3

/-- A destination takes a result of a tag in a lane: a pair stands at an even register (R44), and under TONLY the register already has
the tag (R224). -/
def Ctx.takes (x : Ctx) (d : Dst) (l : Nat) (tag : Tag) (wide : Bool) : Prop :=
  x.dstFits d l ⟨0#64, wide, tag, [], false, 0#3, false⟩ = true

/-- A pair is written at an even register, and not to SEED (R43, R44). -/
def evenPair (d : Dst) (wide : Bool) : Prop :=
  match d with
  | .v n => wide = true → n.toNat % 2 = 0
  | .seed => wide = false
  | _ => True

/-- A vector word completes: every lane of EXEC holds its result, the window has it (R51; its values, but under TONLY), and nothing
else moves but the places of `ex`. -/
def State.vecDoneBut (s : State) (x : Ctx) (c : Ctl) (d : Dst) (o : Out) (r : Nat → LRes) (ex : Place → Prop) : Prop :=
  ∃ t ls, o = .next t ∧ t.passed x c (.vec ls)
  ∧ (∀ l ∈ x.lanes, (s.thr x.ref l).isSome → (r l).keep = false → s.holdsLane t x d l (r l))
  ∧ (∀ l ∈ x.lanes, (s.thr x.ref l).isSome → (r l).keep = false → x.dxMode ≠ .tonly →
      (latchLane ls l).val = (r l).val ∧ (latchLane ls l).tag = (r l).tag)
  ∧ (∀ l, l ∉ x.lanes → latchLane ls l = ⟨0#64, .raw, [], false⟩)
  ∧ s.keeps t (fun p => x.moved p ∨ dstCovers d x (x.lanes.filter (fun l => !(r l).keep)) (fun l => (r l).wide) p ∨ ex p)

/-- A vector word completes and moves nothing else. -/
def State.vecDone (s : State) (x : Ctx) (c : Ctl) (d : Dst) (o : Out) (r : Nat → LRes) : Prop := s.vecDoneBut x c d o r (fun _ => False)

/-- The places that an asynchronous word moves beside: its operation in flight, its name, its counter (R55, R56). -/
def Ctx.flight (x : Ctx) (c : Ctl) : Place → Prop
  | .pend => True
  | .names => True
  | .ctr r n => r = x.ref ∧ ∃ k, c.set = some k ∧ n = k.toNat
  | _ => False

/-- The counter of a word behind its issue (R55): one more, once, also when the word is issued again (R60). -/
def State.counted1 (t : State) (x : Ctx) (c : Ctl) : Prop :=
  ∀ n, c.set = some n → t.ctrAt x.ref n.toNat = if x.coh.rinc then x.coh.ctr n.toNat else x.coh.ctr n.toNat + 1#6

/-- An asynchronous word issues (R56): one operation `q` of the issuer is in flight behind all others, its counter is counted, the
window takes an empty entry, the path notes an operation whose result may demote it (R158, R240), and nothing else moves but the places of
`ex`. -/
def State.asyncDone (s : State) (x : Ctx) (c : Ctl) (o : Out) (q : Pend) (ex : Place → Prop) : Prop :=
  q.id = s.nid ∧ q.ref = x.ref ∧ q.isB = x.isB ∧ q.grid = x.blk.grid ∧ q.slot = c.set
  ∧ ∃ t, o = .next t ∧ t.pend = s.pend ++ [q] ∧ t.nid = s.nid + 1 ∧ t.counted1 x c
  ∧ t.passedWith x c .none (fun o => x.path.ops ⊆ o ∧ (q.kind.demotes = true → q.id ∈ o))
  ∧ s.keeps t (fun p => x.moved p ∨ x.flight c p ∨ ex p)

/-! ## Blocked waits (R102) -/

/-- The issuing path in a wait (R102): a word behind a prefix stands at the prefix (R61). -/
def Ctx.standing (x : Ctx) (w : PWait) : Path :=
  { x.path with
    wait := some w
    cl := x.path.cl.map (fun cl => if cl.dx.isSome then { cl with wi := cl.wi - 1, dx := none } else cl) }

/-- A path that begins to wait at its boundary gives its slot to the newest spill entry: when a demotion waits for it (R240), or when it waits
at a barrier and an entry does not (R265). -/
def Ctx.yields (x : Ctx) (q : Path) : Bool :=
  q.waitsFirst && !x.coh.spill.isEmpty && (x.path.dem || (q.barWait && !x.coh.spill.all (fun e => e.path.barWait)))

/-- The places that a word moves as it begins to wait. -/
def Ctx.waitPlaces (x : Ctx) (p : Place) : Prop :=
  (∃ i, p = .slot x.ref i) ∨ p = .spill x.ref ∨ p = .sel x.ref ∨ p = .cnt x.ref ∨ p = .cur ∨ p = .part x.blk.coreId x.coh.part

/-- A word waits, blocked (R102): its path stands in the wait, in its slot or, where it yields, as the oldest spill entry; nothing else of the
machine changes but who issues next. -/
def waitsWith (s : State) (x : Ctx) (o : Out) (w : PWait) (ops : List Nat → Prop) (ex : Place → Prop) : Prop :=
  ∃ t ids, o = .next t ∧ ops ids ∧
    let q := { x.standing w with ops := ids }
    (x.yields q = false → t.slot x.ref x.isB = some { q with dem := x.path.dem && !q.waitsFirst })
    ∧ (x.yields q = true → (∀ e ∈ x.coh.spill, e.path.barWait = false) → ((x.coh.path (!x.isB)).map Path.barWait).getD false = false →
        (t.coh x.ref).map (·.spill) = some (x.coh.spill.tail ++ [⟨{ q with dem := false }, 0#2⟩])
        ∧ t.slot x.ref x.isB = x.coh.spill.head?.map (·.path))
    ∧ s.keeps t (fun p => x.waitPlaces p ∨ ex p)

/-- The same for a word that leaves no operation in flight. -/
def waitsAs (s : State) (x : Ctx) (o : Out) (w : PWait) (ex : Place → Prop) : Prop := waitsWith s x o w (fun i => i = x.path.ops) ex

/-- The same for a wait of a kind that begins now, or goes on. -/
def waitsNow (s : State) (x : Ctx) (o : Out) (k : WaitKind) (num : Nat) (ex : Place → Prop) : Prop := waitsAs s x o (x.wait s k num) ex

/-- A path that joins a cohort (R239): it takes a free slot, or that of a path that waits at a barrier (R265), or is pushed. -/
def Cohort.joined (k : Cohort) (q : Path) (kind : BitVec 2) : Cohort :=
  match k.pa, k.pb with
  | none, _ => { k with pa := some q }
  | _, none => { k with pb := some q }
  | some a, some b =>
    if a.barWait then { k with pa := some q, spill := k.spill ++ [⟨{ a with dem := false }, 0#2⟩], fair := 0 }
    else if b.barWait then { k with pb := some q, spill := k.spill ++ [⟨{ b with dem := false }, 0#2⟩], fair := 0 }
    else { k with spill := ⟨q, kind⟩ :: k.spill }

/-! ## Elements of integer words (R165, R166) -/

/-- Element i of an operand of a TYPE. -/
def elOf (ty : IType) (v : W64) (i : Nat) : Int := elInt (ityW ty) (itySigned ty) (bitsAt v.toNat (i * ityW ty) (ityW ty))

/-- An exact value fitted to an element: clamped to its range with .sat, else congruent modulo 2^w. -/
def fitsEl (sat : Bool) (ty : IType) (e v : Int) : Prop :=
  if sat then
    v = (if itySigned ty then max (-(2 ^ (ityW ty - 1))) (min (2 ^ (ityW ty - 1) - 1) e) else max 0 (min (2 ^ ityW ty - 1) e))
  else (v - e) % 2 ^ ityW ty = 0

/-- What lane l reads from a 32-bit vector field. -/
def Ctx.rd (x : Ctx) (s : State) (c : Ctl) (l : Nat) (a : Src) : El := x.el s.clk c.lit false l a

/-- The fields of a word can be read in every lane of EXEC: accepted tags, no poison; and the destination takes the result. -/
def State.readable (s : State) (x : Ctx) (c : Ctl) (d : Dst) (srcs : List Src) (ok : Tag → Bool) (tag : Tag) : Prop :=
  ∀ l ∈ x.lanes, x.takes d l tag false ∧ ∀ a ∈ srcs, (x.rd s c l a).accepted ok = true ∧ (x.rd s c l a).psn = false

/-- A result of 32 bits whose tangents are 0 (R188). -/
def LRes.flat (r : LRes) (tag : Tag) : Prop :=
  r.wide = false ∧ r.keep = false ∧ r.tag = tag ∧ (∀ k, r.tan.get k 0#64 = 0#64) ∧ r.val.toNat < 2 ^ 32

/-- An integer element word completes: in every lane, element i of the result stands in relation `f` to the elements i of a, b and c. -/
def State.elemsDone (s : State) (x : Ctx) (c : Ctl) (ty : IType) (d : Dst) (a b e : Src) (o : Out) (f : Int → Int → Int → Int → Prop) : Prop :=
  ∃ r, s.vecDone x c d o r ∧ ∀ l ∈ x.lanes, (r l).flat (ityTag ty) ∧ ∀ i < 32 / ityW ty,
    f (elOf ty (x.rd s c l a).val i) (elOf ty (x.rd s c l b).val i) (elOf ty (x.rd s c l e).val i) (elOf ty (r l).val i)

/-- A word of 32 bits completes with a RAW result that stands in relation `f` to its operands. -/
def State.bitsDone (s : State) (x : Ctx) (c : Ctl) (d : Dst) (a b e : Src) (o : Out) (f : W64 → W64 → W64 → W64 → Prop) : Prop :=
  ∃ r, s.vecDone x c d o r ∧ ∀ l ∈ x.lanes, (r l).flat .raw
    ∧ f (x.rd s c l a).val (x.rd s c l b).val (x.rd s c l e).val (r l).val

end Sys2Proof.Machine
end

