-- ==== Sys2Proof/Certificates/Slice0/Obligations.lean ====
section
/-! DEFINITION. What is claimed of the machine: the statements for the provers. Each docstring names the rules of spec/ that it
formalises, or says which choice of the model it states. -/

open Sys2Proof Sys2Proof.Machine

/-! ## Scalar words (CLASS 0x0) -/

/-- R162, R163: every scalar word completes with the result that the table gives, once for the path, whatever EXEC holds. `A`, `B` and
`P` are what its fields read. -/
def scalarWordsGiveTheirResultsRule : Prop :=
  ∀ (s : State) (x : Ctx) (c : Ctl) (d : Dst) (a b p : Src), s.issues x c → s.errIn = [] →
    let A := x.sca s.clk c.lit a
    let B := x.sca s.clk c.lit b
    let P := x.sca s.clk c.lit p
    let n := B.toNat % 256
    s.scaDone x c d (exec (.sadd c d a b) s) (A + B)
    ∧ s.scaDone x c d (exec (.ssub c d a b) s) (A - B)
    ∧ s.scaDone x c d (exec (.smul c d a b) s) (A * B)
    ∧ s.scaDone x c d (exec (.smin c false d a b) s) (BitVec.ofInt 64 (min A.toInt B.toInt))
    ∧ s.scaDone x c d (exec (.smin c true d a b) s) (BitVec.ofNat 64 (min A.toNat B.toNat))
    ∧ s.scaDone x c d (exec (.smax c false d a b) s) (BitVec.ofInt 64 (max A.toInt B.toInt))
    ∧ s.scaDone x c d (exec (.smax c true d a b) s) (BitVec.ofNat 64 (max A.toNat B.toNat))
    ∧ s.scaDone x c d (exec (.sand c d a b) s) (A &&& B)
    ∧ s.scaDone x c d (exec (.sor c d a b) s) (A ||| B)
    ∧ s.scaDone x c d (exec (.sxor c d a b) s) (A ^^^ B)
    ∧ s.scaDone x c d (exec (.sandn c d a b) s) (A &&& ~~~B)
    ∧ s.scaDone x c d (exec (.snot c d a) s) (~~~A)
    ∧ s.scaDone x c d (exec (.sshl c d a b) s) (BitVec.ofNat 64 (A.toNat * 2 ^ n))
    ∧ s.scaDone x c d (exec (.sshr c d a b) s) (BitVec.ofNat 64 (A.toNat / 2 ^ n))
    ∧ s.scaDone x c d (exec (.ssar c d a b) s) (BitVec.ofInt 64 (A.toInt / 2 ^ n))
    ∧ s.scaDone x c d (exec (.smov c d a) s) A
    ∧ s.scaDone x c d (exec (.ssel c d p a b) s) (if P = 0#64 then B else A)
    ∧ s.scaDone x c d (exec (.spopc c d a) s) (BitVec.ofNat 64 ((List.range 64).countP (fun i => A.getLsbD i)))
    ∧ (∃ i, s.scaDone x c d (exec (.sffs c d a) s) (BitVec.ofNat 64 i) ∧ (∀ j < i, j < 64 → A.getLsbD j = false)
        ∧ if A = 0#64 then i = 64 else i < 64 ∧ A.getLsbD i = true)
    ∧ (∃ i, s.scaDone x c d (exec (.sfls c d a) s) (BitVec.ofNat 64 i) ∧ (∀ j, i < j → A.getLsbD j = false)
        ∧ if A = 0#64 then i = 64 else i < 64 ∧ A.getLsbD i = true)
    ∧ ∀ u : Bool,
        let I : W64 → Int := fun w => if u then w.toNat else w.toInt
        s.scaDone x c d (exec (.scmp c .eq u d a b) s) (if A = B then 1#64 else 0#64)
        ∧ s.scaDone x c d (exec (.scmp c .ne u d a b) s) (if A = B then 0#64 else 1#64)
        ∧ s.scaDone x c d (exec (.scmp c .lt u d a b) s) (if I A < I B then 1#64 else 0#64)
        ∧ s.scaDone x c d (exec (.scmp c .le u d a b) s) (if I A ≤ I B then 1#64 else 0#64)
        ∧ s.scaDone x c d (exec (.scmp c .gt u d a b) s) (if I B < I A then 1#64 else 0#64)
        ∧ s.scaDone x c d (exec (.scmp c .ge u d a b) s) (if I B ≤ I A then 1#64 else 0#64)

/-- R164: SRDLANE reads the element of lane SB mod 32 whatever EXEC and the tag, zero-extended; a lane that holds no thread reads 0;
a poisoned element raises a poison fault with FLANE = EXEC. -/
def srdlaneReadsOneLaneRule : Prop :=
  ∀ (s : State) (x : Ctx) (c : Ctl) (w : Bool) (d : Dst) (n : VNum) (l : Src), s.issues x c → s.errIn = [] →
    let q := (x.sca s.clk c.lit l).toNat % 32
    let lo := s.vAt x.ref q n.toNat
    let hi := s.vAt x.ref q (n.toNat + 1)
    if lo.psn = true ∨ (w = true ∧ hi.psn = true) then
      exec (.srdlane c w d (.v n) l) s = .next (s.trapped x (Fz.of 0x09 0 x.exec))
    else s.scaDone x c d (exec (.srdlane c w d (.v n) l) s) (BitVec.ofNat 64 (lo.val.toNat + if w then hi.val.toNat * 2 ^ 32 else 0))

/-- The statements `scalarWordsGiveTheirResultsRule`, `srdlaneReadsOneLaneRule` together. -/
def Obligations.ScalarWords : Prop := scalarWordsGiveTheirResultsRule ∧ srdlaneReadsOneLaneRule

/-! ## Integer vector words (CLASS 0x1) -/

/-- R165, R166: in every lane of EXEC, each element of an arithmetic form is computed exactly and then wrapped modulo 2^w or, with .sat,
clamped; the accepted tags and the result tag are those of the TYPE, the tangents of the result are 0 (R188). -/
def integerElementWordsRule : Prop :=
  ∀ (s : State) (x : Ctx) (c : Ctl) (ty : IType) (d : Dst) (a b e : Src), s.issues x c → s.errIn = [] →
    s.readable x c d [a, b, e] (ityAccepts ty) (ityTag ty) →
    (∀ sat,
      s.elemsDone x c ty d a b e (exec (.iadd c sat ty d a b) s) (fun p q _ v => fitsEl sat ty (p + q) v)
      ∧ s.elemsDone x c ty d a b e (exec (.isub c sat ty d a b) s) (fun p q _ v => fitsEl sat ty (p - q) v)
      ∧ s.elemsDone x c ty d a b e (exec (.imul c sat ty d a b) s) (fun p q _ v => fitsEl sat ty (p * q) v)
      ∧ s.elemsDone x c ty d a b e (exec (.iabs c sat ty d a) s) (fun p _ _ v => fitsEl sat ty p.natAbs v))
    ∧ s.elemsDone x c ty d a b e (exec (.imin c ty d a b) s) (fun p q _ v => v = min p q)
    ∧ s.elemsDone x c ty d a b e (exec (.imax c ty d a b) s) (fun p q _ v => v = max p q)
    ∧ (ityW ty = 32 → s.elemsDone x c ty d a b e (exec (.imulh c ty d a b) s) (fun p q _ v => fitsEl false ty (p * q / 2 ^ 32) v))
    ∧ (∀ u, ty = (if u then .n32 else .i32) →
      s.elemsDone x c ty d a b e (exec (.imad c u d a b e) s) (fun p q z v => fitsEl false ty (p * q + z) v))

/-- R167: IDIV truncates toward zero, IREM gives a − q × b; division by zero and the signed overflow give the results of the table. -/
def integerDivisionRule : Prop :=
  ∀ (s : State) (x : Ctx) (c : Ctl) (ty : IType) (d : Dst) (a b : Src), s.issues x c → s.errIn = [] → ityW ty = 32 →
    s.readable x c d [a, b] (ityAccepts ty) (ityTag ty) →
    s.elemsDone x c ty d a b a (exec (.idiv c ty d a b) s) (fun p q _ v =>
      if q = 0 then v = (if ty = .n32 then 2 ^ 32 - 1 else if 0 ≤ p then 2 ^ 31 - 1 else -(2 ^ 31))
      else if ty = .i32 ∧ p = -(2 ^ 31) ∧ q = -1 then v = -(2 ^ 31)
      else v = p.tdiv q)
    ∧ s.elemsDone x c ty d a b a (exec (.irem c ty d a b) s) (fun p q _ v =>
      if q = 0 then v = p else if ty = .i32 ∧ p = -(2 ^ 31) ∧ q = -1 then v = 0 else v = p - p.tdiv q * q)

/-- R168: the bitwise, shift and bit-field forms work on 32 bits of any tag and their result is tagged RAW. -/
def bitwiseWordsRule : Prop :=
  ∀ (s : State) (x : Ctx) (c : Ctl) (d : Dst) (a b e : Src), s.issues x c → s.errIn = [] →
    s.readable x c d [a, b, e] (fun _ => true) .raw →
    s.bitsDone x c d a b e (exec (.vand c d a b) s) (fun p q _ v => ∀ i < 32, v.getLsbD i = (p.getLsbD i && q.getLsbD i))
    ∧ s.bitsDone x c d a b e (exec (.vor c d a b) s) (fun p q _ v => ∀ i < 32, v.getLsbD i = (p.getLsbD i || q.getLsbD i))
    ∧ s.bitsDone x c d a b e (exec (.vxor c d a b) s) (fun p q _ v => ∀ i < 32, v.getLsbD i = (p.getLsbD i != q.getLsbD i))
    ∧ s.bitsDone x c d a b e (exec (.vandn c d a b) s) (fun p q _ v => ∀ i < 32, v.getLsbD i = (p.getLsbD i && !q.getLsbD i))
    ∧ s.bitsDone x c d a b e (exec (.vnot c d a) s) (fun p _ _ v => ∀ i < 32, v.getLsbD i = !p.getLsbD i)
    ∧ s.bitsDone x c d a b e (exec (.shl c d a b) s) (fun p q _ v => v.toNat = p.toNat * 2 ^ (q.toNat % 256) % 2 ^ 32)
    ∧ s.bitsDone x c d a b e (exec (.shr c d a b) s) (fun p q _ v => v.toNat = p.toNat / 2 ^ (q.toNat % 256))
    ∧ s.bitsDone x c d a b e (exec (.sar c d a b) s) (fun p q _ v =>
        v.setWidth 32 = BitVec.ofInt 32 ((p.setWidth 32 : W32).toInt / 2 ^ (q.toNat % 256)))
    ∧ s.bitsDone x c d a b e (exec (.rot c d a b) s) (fun p q _ v => ∀ i < 32, v.getLsbD ((i + q.toNat % 32) % 32) = p.getLsbD i)
    ∧ (∀ sx, s.bitsDone x c d a b e (exec (.bfe c sx d a b) s) (fun p q _ v =>
        let o := q.toNat % 256
        let n := q.toNat / 256 % 256
        ∀ i < 32, v.getLsbD i = if n = 0 ∨ 32 ≤ o then false else if i < n then p.getLsbD (o + i) else sx && p.getLsbD (o + n - 1)))
    ∧ s.bitsDone x c d a b e (exec (.bfi c d a b e) s) (fun p q z v =>
        let o := z.toNat % 256
        let n := z.toNat / 256 % 256
        ∀ i < 32, v.getLsbD i = if o ≤ i ∧ i < o + n then p.getLsbD (i - o) else q.getLsbD i)
    ∧ s.bitsDone x c d a b e (exec (.popc c d a) s) (fun p _ _ v => v.toNat = (List.range 32).countP (fun i => p.getLsbD i))
    ∧ s.bitsDone x c d a b e (exec (.clz c d a) s) (fun p _ _ v =>
        v.toNat ≤ 32 ∧ (∀ i < 32, 32 ≤ i + v.toNat → p.getLsbD i = false) ∧ (v.toNat < 32 → p.getLsbD (31 - v.toNat) = true))
    ∧ s.bitsDone x c d a b e (exec (.brev c d a) s) (fun p _ _ v => ∀ i < 32, v.getLsbD i = p.getLsbD (31 - i))

/-- R169: ICMP writes bit LANE of its scalar destination for each lane of EXEC in which the condition holds, in the signedness of M;
every other bit of all 64 is 0. -/
def icmpWritesTheMaskRule : Prop :=
  ∀ (s : State) (x : Ctx) (c : Ctl) (u : Bool) (d : Dst) (a b : Src), s.issues x c → s.errIn = [] →
    s.readable x c d [a, b] (fun t => t = .raw ∨ t = .i32 ∨ t = .n32) .i32 →
    let A (l : Nat) : Int := elOf (if u then .n32 else .i32) (x.rd s c l a).val 0
    let B (l : Nat) : Int := elOf (if u then .n32 else .i32) (x.rd s c l b).val 0
    let masks (o : Out) (f : Nat → Prop) : Prop := ∃ v, s.scaDone x c d o v ∧ ∀ i < 64, (v.getLsbD i = true ↔ i ∈ x.lanes ∧ f i)
    masks (exec (.icmp c .eq u d a b) s) (fun l => A l = B l)
    ∧ masks (exec (.icmp c .ne u d a b) s) (fun l => A l ≠ B l)
    ∧ masks (exec (.icmp c .lt u d a b) s) (fun l => A l < B l)
    ∧ masks (exec (.icmp c .le u d a b) s) (fun l => A l ≤ B l)
    ∧ masks (exec (.icmp c .gt u d a b) s) (fun l => B l < A l)
    ∧ masks (exec (.icmp c .ge u d a b) s) (fun l => B l ≤ A l)

/-- R169, R46: the tag a moved value has: its own; RAW for an untagged source, F32 for an inline FP constant. -/
def movedTag (e : El) (a : Src) : Tag :=
  match e.tag, a with
  | some t, _ => t
  | none, .fp _ => .f32
  | none, _ => .raw

/-- R169, R188: SEL, MOV and MOVS move a value, its tag and its tangents: SEL the one that the mask chooses, MOV with the inline tag of
.as when it has one, MOVS only in the lanes whose mask bit is set; the others keep their destination. With NWB the lanes whose bit is
clear push free values (log entry 3), so the counter of free values moves. -/
def selectsAndMovesRule : Prop :=
  ∀ (s : State) (x : Ctx) (c : Ctl) (w : Bool) (d : Dst) (p a b : Src), s.issues x c → s.errIn = [] →
    let M := x.sca s.clk c.lit p
    let e (l : Nat) (q : Src) : El := x.el s.clk c.lit w l q
    let moves (l : Nat) (q : Src) (as : Option Tag) (r : LRes) : Prop :=
      r.keep = false ∧ r.wide = w ∧ r.val = (e l q).val ∧ r.tag = as.getD (movedTag (e l q) q) ∧ r.tan = (e l q).tan
    let free (l : Nat) (q : Src) (as : Option Tag) : Prop :=
      (e l q).poisoned x.want = false ∧ x.takes d l (as.getD (movedTag (e l q) q)) w
    ((∀ l ∈ x.lanes, free l (if M.getLsbD l then a else b) none) →
      ∃ r, s.vecDone x c d (exec (.sel c w d p a b) s) r ∧ ∀ l ∈ x.lanes, moves l (if M.getLsbD l then a else b) none (r l))
    ∧ (∀ as, (∀ l ∈ x.lanes, free l a as) → ∃ r, s.vecDone x c d (exec (.mov c w as d a) s) r ∧ ∀ l ∈ x.lanes, moves l a as (r l))
    ∧ ((∀ l ∈ x.lanes, if M.getLsbD l then free l a none else evenPair d w) →
      ∃ r, s.vecDoneBut x c d (exec (.movs c w d p a) s) r (fun q => d = .nwb ∧ q = .names)
        ∧ ∀ l ∈ x.lanes, if M.getLsbD l then moves l a none (r l) else (r l).keep = true)

/-- The statements `integerElementWordsRule`, `integerDivisionRule`, `icmpWritesTheMaskRule` together. -/
def Obligations.IntegerWords : Prop := integerElementWordsRule ∧ integerDivisionRule ∧ icmpWritesTheMaskRule

/-- The statements `bitwiseWordsRule`, `selectsAndMovesRule` together. -/
def Obligations.BitwiseWordsSelectsAndMoves : Prop := bitwiseWordsRule ∧ selectsAndMovesRule

/-! ## Floating-point words (CLASS 0x2) -/

/-- The operands of a floating-point word in a lane: its format (R160, R170), and what its fields read in that format (R44, R46, R48,
R74), not poisoned; the destination takes the result. -/
def fpReads (s : State) (x : Ctx) (c : Ctl) (d : Dst) (srcs : List Src) (l : Nat) (es : List El) : Prop :=
  let f := x.fmt s.clk l .f32 srcs
  f.isFp = true ∧ srcs.map (fun a => x.elFmt s.clk c.lit f l a) = es.map some ∧ (∀ e ∈ es, e.poisoned x.want = false)
  ∧ x.takes d l f (f == .f64)

/-- A floating-point word completes: where no enabled condition is met (R78), each element of each lane of EXEC holds `prim` of the
elements of its operands and each tangent propagated holds `tan`, given the result and the operands with that tangent. -/
def fpDone (s : State) (x : Ctx) (c : Ctl) (d : Dst) (srcs : List Src) (o : Out) (prim : Nat → Tag → Op3 → BRes)
    (tan : Nat → Tag → Nat → Op3 → BRes) : Prop :=
  ∀ es : Nat → List El, (∀ l ∈ x.lanes, fpReads s x c d srcs l (es l) ∧ ∀ i < (x.fmt s.clk l .f32 srcs).count,
      (prim l (x.fmt s.clk l .f32 srcs) (op3 (x.fmt s.clk l .f32 srcs) (es l) 0 i)).c &&& x.grid.lrec.trapen = 0#3) →
    ∃ r, s.vecDone x c d o r ∧ ∀ l ∈ x.lanes,
      let f := x.fmt s.clk l .f32 srcs
      (r l).tag = f ∧ (r l).wide = (f == .f64) ∧ (r l).keep = false ∧ ∀ i < f.count,
        let q := prim l f (op3 f (es l) 0 i)
        (f.elems (r l).val.toNat).getD i 0 = q.bits
        ∧ ∀ k ∈ x.want, (f.elems ((r l).tan.get k 0#64).toNat).getD i 0 = (tan l f q.bits (op3 f (es l) k i)).bits

/-- R171, R188: FADD, FSUB, FMUL, FFMA, FDIV and FSQRT return the exact result rounded once in the mode of M, in each element of the
format of the lane; FADD to FSQRT give the tangents of the table, each step rounded to nearest. -/
def floatingPointArithmeticRule : Prop :=
  ∀ (s : State) (x : Ctx) (c : Ctl) (m : Rnd) (d : Dst) (a b e : Src), s.issues x c → s.errIn = [] →
    let v (f : Tag) (n : Nat) : FVal := f.value false n
    let mul (f : Tag) (p q : Nat) : Nat := ((fMul (v f p) (v f q)).pack f .rne).bits
    let fma (f : Tag) (p q z : Nat) : Nat := ((fFma .rne (v f p) (v f q) (v f z)).pack f .rne).bits
    fpDone s x c d [a, b] (exec (.fadd c m d a b) s) (fun _ f o => (fAdd m (v f o.a) (v f o.b)).pack f m)
      (fun _ f _ o => (fAdd .rne (v f o.ta) (v f o.tb)).pack f .rne)
    ∧ fpDone s x c d [a, b] (exec (.fsub c m d a b) s) (fun _ f o => (fAdd m (v f o.a) (v f o.b).neg).pack f m)
      (fun _ f _ o => (fAdd .rne (v f o.ta) (v f o.tb).neg).pack f .rne)
    ∧ fpDone s x c d [a, b] (exec (.fmul c m d a b) s) (fun _ f o => (fMul (v f o.a) (v f o.b)).pack f m)
      (fun _ f _ o => (fFma .rne (v f o.a) (v f o.tb) (v f (mul f o.ta o.b))).pack f .rne)
    ∧ fpDone s x c d [a, b, e] (exec (.ffma c m d a b e) s) (fun _ f o => (fFma m (v f o.a) (v f o.b) (v f o.e)).pack f m)
      (fun _ f _ o => (fAdd .rne (v f (fma f o.a o.tb (mul f o.ta o.b))) (v f o.te)).pack f .rne)
    ∧ fpDone s x c d [a, b] (exec (.fdiv c m d a b) s) (fun _ f o => (fDiv (v f o.a) (v f o.b)).pack f m)
      (fun _ f q o => (fDiv (v f ((fFma .rne (v f q).neg (v f o.tb) (v f o.ta)).pack f .rne).bits) (v f o.b)).pack f .rne)
    ∧ fpDone s x c d [a] (exec (.fsqrt c m d a) s) (fun _ f o => (fSqrt (v f o.a)).pack f m)
      (fun _ f q o => (fDiv (v f o.ta) (v f (opScale f .rne q 1).bits)).pack f .rne)

/-- R76, R66: in the formats with infinities a finite value is rounded as IEEE 754 specifies. A result that is no overflow is the value
of the format that the mode asks for: no other lies between it and the exact value on the side that a directed mode excludes, none lies
nearer in RNE, where a tie takes the even one. An overflow gives an infinity or the largest finite value as the mode and the sign say. -/
def resultsAreRoundedOnceRule : Prop :=
  ∀ (f : Tag) (m : Rnd) (sg : Bool) (n : Nat) (e : Int), (f = .f32 ∨ f = .f64 ∨ f = .h16 ∨ f = .b16) →
    let rat : FVal → Rat := fun v => match v with
      | .fin s k q => (if s then -1 else 1) * (k : Rat) * (2 : Rat) ^ q
      | _ => 0
    let p := f.pack m false false (.fin sg n e)
    let w := f.value false p.bits
    let y := rat (.fin sg n e)
    p.bits < 2 ^ f.width ∧
    if p.c = cOv then
      rat (f.value false f.maxCode) < |y|
      ∧ w = (if m = .rne ∨ (m = .rup ∧ sg = false) ∨ (m = .rdn ∧ sg = true) then .inf sg else f.value false (f.maxCode + f.signBit sg))
    else
      p.c = 0#3 ∧ w.sign = sg ∧ ∀ z, z < 2 ^ f.width → (f.value false z).isNan = false → (f.value false z).isInf = false →
        match m with
        | .rtz => |rat w| ≤ |y| ∧ (|rat (f.value false z)| ≤ |y| → |rat (f.value false z)| ≤ |rat w|)
        | .rup => y ≤ rat w ∧ (y ≤ rat (f.value false z) → rat w ≤ rat (f.value false z))
        | .rdn => rat w ≤ y ∧ (rat (f.value false z) ≤ y → rat (f.value false z) ≤ rat w)
        | .rne => |rat w - y| ≤ |rat (f.value false z) - y|
            ∧ (|rat w - y| = |rat (f.value false z) - y| → rat (f.value false z) ≠ rat w → p.bits % 2 = 0)

/-- R172, R174, R188: FMIN and FMAX return an operand, −0 below +0, a when the operands are equal, the other when one is NaN; FRND rounds
to an integral value; FSCL multiplies by 2^n in the format of a; their tangents. None but FSCL meets a condition. -/
def floatingPointSelectionRule : Prop :=
  ∀ (s : State) (x : Ctx) (c : Ctl) (m : Rnd) (d : Dst) (a b : Src), s.issues x c → s.errIn = [] →
    let v (f : Tag) (n : Nat) : FVal := f.value false n
    let nan (f : Tag) (o : Op3) : Bool := (v f o.a).isNan && (v f o.b).isNan
    let less (p q : FVal) : Prop := fCmp p q < 0 ∨ (p.isZero = true ∧ q.isZero = true ∧ p.sign = true ∧ q.sign = false)
    let takesA (max : Bool) (f : Tag) (o : Op3) : Prop :=
      (v f o.b).isNan = true ∨ ((v f o.a).isNan = false ∧ ¬ (if max then less (v f o.a) (v f o.b) else less (v f o.b) (v f o.a)))
    (∀ g : Bool → Tag → Op3 → Bool, (∀ max f o, g max f o = true ↔ takesA max f o) →
      fpDone s x c d [a, b] (exec (.fmin c d a b) s) (fun _ f o => ⟨if nan f o then f.nanCode else if g false f o then o.a else o.b, 0#3⟩)
        (fun _ f _ o => ⟨if nan f o then 0 else if g false f o then o.ta else o.tb, 0#3⟩)
      ∧ fpDone s x c d [a, b] (exec (.fmax c d a b) s) (fun _ f o => ⟨if nan f o then f.nanCode else if g true f o then o.a else o.b, 0#3⟩)
        (fun _ f _ o => ⟨if nan f o then 0 else if g true f o then o.ta else o.tb, 0#3⟩))
    ∧ fpDone s x c d [a] (exec (.frnd c m d a) s) (fun _ f o => ⟨match v f o.a with
        | .nan => f.nanCode
        | .inf _ => o.a
        | .fin sg k e => if k = 0 ∨ 0 ≤ e then o.a else (f.pack m false false (.fin sg (roundAt m sg k e 0) 0)).bits, 0#3⟩)
      (fun _ _ _ _ => ⟨0, 0#3⟩)
    ∧ ((∀ l ∈ x.lanes, (x.rd s c l b).accepted (fun t => t == .raw || t == .i32) = true ∧ (x.rd s c l b).psn = false) →
      let n (l : Nat) : Int := elInt 32 true (x.rd s c l b).val.toNat
      fpDone s x c d [a] (exec (.fscl c m d a b) s) (fun l f o => opScale f m o.a (n l)) (fun l f _ o => opScale f .rne o.ta (n l)))

/-- R173, R174: FCMP sets the bit of a lane of EXEC when its condition holds in every element, a NaN making every condition but .ne and
.uno false; FCLASS writes a RAW mask with the bit of the class of each element, the high half's at bits [24:16]. -/
def floatingPointComparisonRule : Prop :=
  ∀ (s : State) (x : Ctx) (c : Ctl) (d : Dst) (a b : Src), s.issues x c → s.errIn = [] →
    (∀ (fc : FCond) (ea eb : Nat → El), (∀ l ∈ x.lanes,
        let f := x.fmt s.clk l .f32 [a, b]
        f.isFp = true ∧ x.elFmt s.clk c.lit f l a = some (ea l) ∧ x.elFmt s.clk c.lit f l b = some (eb l) ∧ (ea l).psn = false
        ∧ (eb l).psn = false ∧ x.takes d l .raw false) →
      ∃ w, s.scaDone x c d (exec (.fcmp c fc d a b) s) w ∧ ∀ i < 64, (w.getLsbD i = true ↔ i ∈ x.lanes ∧
        let f := x.fmt s.clk i .f32 [a, b]
        ∀ j < f.count,
          let p := f.value false ((f.elems (ea i).val.toNat).getD j 0)
          let q := f.value false ((f.elems (eb i).val.toNat).getD j 0)
          let n := p.isNan = true ∨ q.isNan = true
          match fc with
          | .eq => ¬ n ∧ fCmp p q = 0
          | .ne => n ∨ fCmp p q ≠ 0
          | .lt => ¬ n ∧ fCmp p q < 0
          | .le => ¬ n ∧ fCmp p q ≤ 0
          | .gt => ¬ n ∧ 0 < fCmp p q
          | .ge => ¬ n ∧ 0 ≤ fCmp p q
          | .ord => ¬ n
          | .uno => n))
    ∧ ∀ (ea : Nat → El), (∀ l ∈ x.lanes,
        let f := x.fmt s.clk l .f32 [a]
        f.isFp = true ∧ x.elFmt s.clk c.lit f l a = some (ea l) ∧ (ea l).psn = false ∧ x.takes d l .raw false) →
      ∃ r, s.vecDone x c d (exec (.fclass c d a) s) r ∧ ∀ l ∈ x.lanes, (r l).flat .raw ∧ ∀ i < 32, ((r l).val.getLsbD i = true ↔
        let f := x.fmt s.clk l .f32 [a]
        i % 16 ≤ 8 ∧ i / 16 < f.count ∧
        let p := (f.elems (ea l).val.toNat).getD (i / 16) 0
        let sub : Prop := ∃ y, f.lay = some y ∧ bitsAt p y.mb y.eb = 0
        match f.value false p with
        | .nan => i % 16 = 8
        | .inf sg => i % 16 = if sg then 0 else 7
        | .fin sg k _ =>
          if k = 0 then i % 16 = (if sg then 3 else 4)
          else (sub → i % 16 = if sg then 2 else 5) ∧ (¬ sub → i % 16 = if sg then 1 else 6))

/-- R175, R188: FDOT2 and FDOT4 form the exact sum of the element products, rounded once to F32, and add c with a second rounding; the
result is tagged F32; a tangent is the exact sum of ta × b + a × tb, rounded once, then + tc. -/
def dotProductsRule : Prop :=
  ∀ (s : State) (x : Ctx) (c : Ctl) (m : Rnd) (d : Dst) (a b e : Src), s.issues x c → s.errIn = [] →
    let dot (o : Out) (dflt : Tag) (ok : Tag → Bool) : Prop :=
      ∀ ea eb ec : Nat → El,
        let f (l : Nat) : Tag := x.fmt s.clk l dflt [a, b]
        let vs (l : Nat) (n : Nat) : List FVal := ((f l).elems n).map ((f l).value false)
        let sum (l : Nat) : BRes := (fDot m ((vs l (ea l).val.toNat).zip (vs l (eb l).val.toNat))).pack .f32 m
        let res (l : Nat) : BRes := (fAdd m (Tag.f32.value false (sum l).bits) (Tag.f32.value false (ec l).val.toNat)).pack .f32 m
        (∀ l ∈ x.lanes, ok (f l) = true ∧ x.elFmt s.clk c.lit (f l) l a = some (ea l) ∧ x.elFmt s.clk c.lit (f l) l b = some (eb l)
          ∧ x.elFmt s.clk c.lit .f32 l e = some (ec l) ∧ (ea l).poisoned x.want = false ∧ (eb l).poisoned x.want = false
          ∧ (ec l).poisoned x.want = false ∧ x.takes d l .f32 false ∧ ((sum l).c ||| (res l).c) &&& x.grid.lrec.trapen = 0#3) →
        ∃ r, s.vecDone x c d o r ∧ ∀ l ∈ x.lanes, (r l).tag = .f32 ∧ (r l).wide = false ∧ (r l).keep = false
          ∧ (r l).val.toNat = (res l).bits ∧ ∀ k ∈ x.want,
            let ts := (vs l ((ea l).tn k)).zip (vs l (eb l).val.toNat) ++ (vs l (ea l).val.toNat).zip (vs l ((eb l).tn k))
            let u := (fDot .rne ts).pack .f32 .rne
            (r l).tan.get k 0#64 = BitVec.ofNat 64 ((fAdd .rne (Tag.f32.value false u.bits) (Tag.f32.value false ((ec l).tn k))).pack .f32 .rne).bits
    dot (exec (.fdot2 c m d a b e) s) .h16 (fun t => t == .h16 || t == .b16)
    ∧ dot (exec (.fdot4 c m d a b e) s) .e4m3 (fun t => t == .e4m3 || t == .e5m2 || t == .pt8)

/-- The statements `floatingPointArithmeticRule`, `dotProductsRule`, `resultsAreRoundedOnceRule` together. -/
def Obligations.FloatingPointWords : Prop := floatingPointArithmeticRule ∧ dotProductsRule ∧ resultsAreRoundedOnceRule

/-- The statements `floatingPointSelectionRule`, `floatingPointComparisonRule` together. -/
def Obligations.FloatingPointSelectionAndComparison : Prop := floatingPointSelectionRule ∧ floatingPointComparisonRule

/-! ## Conversions and special functions (CLASS 0x3) -/

/-- The source format of CVT and CVTS in a lane (R176): the lane's tag, which must not be RAW, or the forced format, when the lane's tag
is RAW or that format. -/
def cvtReads (s : State) (x : Ctx) (cv : CvtCtl) (a : Src) (l : Nat) (f : Tag) : Prop :=
  let t := ((x.el s.clk none false l a).tag).getD .raw
  match cv.src with
  | none => t = f ∧ f ≠ .raw
  | some g => f = g ∧ (t = .raw ∨ t = g)

/-- R176, R177, R188: CVT writes the elements of its source, each converted in the mode of M with the ranges of R77, at the same
positions of the target and 0 at the higher ones, tagged with the target; a tangent is converted to nearest from float to float and is 0
otherwise. CVTS rounds element i with the SEED that i + 1 steps give (R79, R80) and leaves SEED stepped once for each element. -/
def conversionsWriteTheTargetRule : Prop :=
  ∀ (s : State) (x : Ctx) (c : Ctl) (m : Rnd) (cv : CvtCtl) (d : Dst) (a : Src) (f : Nat → Tag) (e : Nat → El), s.issues x c → s.errIn = [] →
    let float (l : Nat) : Bool := !(f l).isInt && !cv.tgt.isInt
    let val (l i : Nat) : FVal := (f l).value cv.srcU (((f l).elems (e l).val.toNat).getD i 0)
    let seed (l n : Nat) : W32 := Nat.repeat seedStep n ((s.seedAt x.ref l).getD 0#32)
    (∀ l ∈ x.lanes, cvtReads s x cv a l (f l) ∧ cvtSrc x s cv (f l) l a = some (e l) ∧ (f l).count ≤ cv.tgt.count
      ∧ (e l).psn = false ∧ (float l = true → (e l).tpoisoned x.want = false) ∧ x.takes d l cv.tgt (cv.tgt == .f64)) →
    let holds (r : Nat → LRes) (conv : Nat → Nat → BRes) : Prop := ∀ l ∈ x.lanes,
      (r l).tag = cv.tgt ∧ (r l).wide = (cv.tgt == .f64) ∧ (r l).keep = false ∧ ∀ i < cv.tgt.count,
        (cv.tgt.elems (r l).val.toNat).getD i 0 = (if i < (f l).count then (conv l i).bits else 0)
        ∧ ∀ k ∈ x.want, (cv.tgt.elems ((r l).tan.get k 0#64).toNat).getD i 0 =
          (if float l = true ∧ i < (f l).count then
            (cv.tgt.pack .rne cv.sat false ((f l).value false (((f l).elems ((e l).tn k)).getD i 0))).bits else 0)
    let quiet (conv : Nat → Nat → BRes) : Prop := ∀ l ∈ x.lanes, ∀ i < (f l).count, (conv l i).c &&& x.grid.lrec.trapen = 0#3
    let plain (l i : Nat) : BRes := cv.tgt.pack m cv.sat cv.dstU (val l i)
    let stoch (l i : Nat) : BRes := cv.tgt.packStoch cv.sat (seed l (i + 1)) (val l i)
    (quiet plain → ∃ r, s.vecDone x c d (exec (.cvt c m cv d a) s) r ∧ holds r plain)
    ∧ (quiet stoch → ∃ r t, exec (.cvts c cv d a) s = .next t
        ∧ s.vecDoneBut x c d (.next t) r (fun p => ∃ l ∈ x.lanes, p = .seed x.ref l) ∧ holds r stoch
        ∧ (d ≠ .seed → ∀ l ∈ x.lanes, (s.thr x.ref l).isSome → t.seedAt x.ref l = some (seed l (f l).count)))

/-- R178: PACK returns the base with element p mod e replaced by element 0 of the element source; UNPK returns element p mod e in
position 0. The format is the element source's tag, or the base's when the element source is untagged, and the result carries it. -/
def packAndUnpackRule : Prop :=
  ∀ (s : State) (x : Ctx) (c : Ctl) (d : Dst) (a b p : Src) (f : Nat → Tag) (ea eb : Nat → El), s.issues x c → s.errIn = [] →
    let pos (l : Nat) (q : Src) : Nat := (x.rd s c l q).val.toNat % (f l).count
    let tags (l : Nat) (q : Src) : Option Tag := (x.rd s c l q).tag
    ((∀ l ∈ x.lanes, (match tags l b with
          | some t => f l = t ∧ (tags l a = none ∨ tags l a = some t ∨ tags l a = some .raw)
          | none => tags l a = some (f l)) ∧ f l ≠ .raw
        ∧ packEl x s c (f l) l a = some (ea l) ∧ packEl x s c (f l) l b = some (eb l) ∧ (ea l).poisoned x.want = false
        ∧ (eb l).poisoned x.want = false ∧ (x.rd s c l p).psn = false ∧ x.takes d l (f l) (f l == .f64)) →
      ∃ r, s.vecDone x c d (exec (.pack c d a b p) s) r ∧ ∀ l ∈ x.lanes, (r l).tag = f l ∧ (r l).wide = (f l == .f64) ∧ (r l).keep = false
        ∧ ∀ i < (f l).count,
          let pick (u v : Nat) : Nat := if i = pos l p then ((f l).elems v).getD 0 0 else ((f l).elems u).getD i 0
          ((f l).elems (r l).val.toNat).getD i 0 = pick (ea l).val.toNat (eb l).val.toNat
          ∧ ∀ k ∈ x.want, ((f l).elems ((r l).tan.get k 0#64).toNat).getD i 0 = pick ((ea l).tn k) ((eb l).tn k))
    ∧ ((∀ l ∈ x.lanes, tags l a = some (f l) ∧ f l ≠ .raw ∧ packEl x s c (f l) l a = some (ea l) ∧ (ea l).poisoned x.want = false
        ∧ (x.rd s c l p).psn = false ∧ x.takes d l (f l) (f l == .f64)) →
      ∃ r, s.vecDone x c d (exec (.unpk c d a p) s) r ∧ ∀ l ∈ x.lanes, (r l).tag = f l ∧ (r l).wide = (f l == .f64) ∧ (r l).keep = false
        ∧ (r l).val.toNat = ((f l).elems (ea l).val.toNat).getD (pos l p) 0
        ∧ ∀ k ∈ x.want, ((r l).tan.get k 0#64).toNat = ((f l).elems ((ea l).tn k)).getD (pos l p) 0)

/-- R179, R188: a special function reads F32 only, is checked at issue and leaves one operation in flight that holds, for each lane of
EXEC, the result rounded to nearest and the tangents of R188; FRCP is 1 ÷ a. Nothing else moves until SFU_RESULT_WRITE. -/
def specialFunctionsIssueRule : Prop :=
  ∀ (s : State) (x : Ctx) (c : Ctl) (d : Dst) (a : Src) (e : Nat → El), s.issues x c → s.errIn = [] →
    let arg (l : Nat) : Nat := (e l).val.toNat
    let mul (p q : Nat) : Nat := ((fMul (Tag.f32.value false p) (Tag.f32.value false q)).pack .f32 .rne).bits
    let neg (p : Nat) : Nat := ((fAdd .rne (Tag.f32.value false 0x80000000) (Tag.f32.value false p).neg).pack .f32 .rne).bits
    let cos (p : Nat) : Nat := (SfuFn.run .cos p).bits
    let sin (p : Nat) : Nat := (SfuFn.run .sin p).bits
    let sfu (o : Out) (fn : SfuFn) (tan : Nat → Nat → Nat → Nat) : Prop :=
      (∀ l ∈ x.lanes, x.elFmt s.clk c.lit .f32 l a = some (e l) ∧ (e l).poisoned x.want = false ∧ x.takes d l .f32 false
        ∧ (fn.run (arg l)).c &&& x.grid.lrec.trapen = 0#3) →
      ∃ q, s.asyncDone x c o q (fun _ => False) ∧ q.kind = .sfu ∧ q.exec = x.exec ∧ q.dst = some d ∧ q.tag = .f32 ∧ AMap.keys q.lanes = x.lanes
        ∧ ∀ l ∈ x.lanes, ∃ as, q.lanes.find l = some as
          ∧ accPrimal as .f32 = (if x.dxMode = .tonly then none else some (BitVec.ofNat 64 (fn.run (arg l)).bits, .f32, false))
          ∧ ∀ k ∈ x.tans, (accTans as).find k = some (x.givenTan .f32
              (x.want.map (fun k => (k, BitVec.ofNat 64 (tan (arg l) (fn.run (arg l)).bits ((e l).tn k))))) k, false)
    sfu (exec (.frcp c d a) s) .rcp (fun _ r t => neg (mul (mul r r) t))
    ∧ sfu (exec (.frsq c d a) s) .rsq (fun _ r t => mul (mul 0xBF000000 (mul (mul r r) r)) t)
    ∧ sfu (exec (.fexp2 c d a) s) .exp2 (fun _ y t => mul (mul y 0x3F317218) t)
    ∧ sfu (exec (.flog2 c d a) s) .log2 (fun p _ t =>
        ((fDiv (Tag.f32.value false (mul t 0x3FB8AA3B)) (Tag.f32.value false p)).pack .f32 .rne).bits)
    ∧ sfu (exec (.fsin c d a) s) .sin (fun p _ t => mul (cos p) t)
    ∧ sfu (exec (.fcos c d a) s) .cos (fun p _ t => neg (mul (sin p) t))
    ∧ sfu (exec (.ftanh c d a) s) .tanh (fun _ y t => mul
        ((fFma .rne (Tag.f32.value false y).neg (Tag.f32.value false y) (Tag.f32.value false 0x3F800000)).pack .f32 .rne).bits t)
    ∧ ∀ p, SfuFn.run .rcp p = (fDiv (.fin false 1 0) (Tag.f32.value false p)).pack .f32 .rne

/-- R180: the special values of the special functions with their conditions (invalid 1, division by zero 2, overflow 4), and the exact
results that the rule lists. -/
def specialFunctionValuesRule : Prop :=
  (SfuFn.run .rcp 0x00000000 = ⟨0x7F800000, cDz⟩ ∧ SfuFn.run .rcp 0x80000000 = ⟨0xFF800000, cDz⟩
    ∧ SfuFn.run .rcp 0x7F800000 = ⟨0x00000000, 0#3⟩ ∧ SfuFn.run .rcp 0xFF800000 = ⟨0x80000000, 0#3⟩
    ∧ SfuFn.run .rcp 0x00000001 = ⟨0x7F800000, cOv⟩ ∧ SfuFn.run .rcp 0x80000001 = ⟨0xFF800000, cOv⟩)
  ∧ (SfuFn.run .rsq 0x00000000 = ⟨0x7F800000, cDz⟩ ∧ SfuFn.run .rsq 0x80000000 = ⟨0xFF800000, cDz⟩
    ∧ SfuFn.run .rsq 0x7F800000 = ⟨0x00000000, 0#3⟩)
  ∧ (SfuFn.run .exp2 0xFF800000 = ⟨0x00000000, 0#3⟩ ∧ SfuFn.run .exp2 0x7F800000 = ⟨0x7F800000, 0#3⟩
    ∧ SfuFn.run .exp2 0x43000000 = ⟨0x7F800000, cOv⟩ ∧ SfuFn.run .exp2 0x00000000 = ⟨0x3F800000, 0#3⟩
    ∧ SfuFn.run .exp2 0x80000000 = ⟨0x3F800000, 0#3⟩)
  ∧ (SfuFn.run .log2 0x00000000 = ⟨0xFF800000, cDz⟩ ∧ SfuFn.run .log2 0x80000000 = ⟨0xFF800000, cDz⟩
    ∧ SfuFn.run .log2 0x7F800000 = ⟨0x7F800000, 0#3⟩ ∧ SfuFn.run .log2 0x3F800000 = ⟨0x00000000, 0#3⟩)
  ∧ (∀ p, Tag.f32.value false p = .inf true ∨ (∃ k e, Tag.f32.value false p = .fin true k e ∧ k ≠ 0) →
      SfuFn.run .rsq p = ⟨0x7FC00000, cInv⟩ ∧ SfuFn.run .log2 p = ⟨0x7FC00000, cInv⟩)
  ∧ (∀ fn : SfuFn, ∀ p, Tag.f32.value false p = .nan → SfuFn.run fn p = ⟨0x7FC00000, 0#3⟩)
  ∧ (SfuFn.run .sin 0x00000000 = ⟨0x00000000, 0#3⟩ ∧ SfuFn.run .sin 0x80000000 = ⟨0x80000000, 0#3⟩
    ∧ SfuFn.run .sin 0x7F800000 = ⟨0x7FC00000, cInv⟩ ∧ SfuFn.run .sin 0xFF800000 = ⟨0x7FC00000, cInv⟩)
  ∧ (SfuFn.run .cos 0x00000000 = ⟨0x3F800000, 0#3⟩ ∧ SfuFn.run .cos 0x80000000 = ⟨0x3F800000, 0#3⟩
    ∧ SfuFn.run .cos 0x7F800000 = ⟨0x7FC00000, cInv⟩ ∧ SfuFn.run .cos 0xFF800000 = ⟨0x7FC00000, cInv⟩)
  ∧ (SfuFn.run .tanh 0x00000000 = ⟨0x00000000, 0#3⟩ ∧ SfuFn.run .tanh 0x80000000 = ⟨0x80000000, 0#3⟩
    ∧ SfuFn.run .tanh 0x7F800000 = ⟨0x3F800000, 0#3⟩ ∧ SfuFn.run .tanh 0xFF800000 = ⟨0xBF800000, 0#3⟩)
  ∧ SfuFn.run .rcp 0x40400000 = ⟨0x3EAAAAAB, 0#3⟩ ∧ SfuFn.run .exp2 0x3F000000 = ⟨0x3FB504F3, 0#3⟩
  ∧ SfuFn.run .log2 0x41000000 = ⟨0x40400000, 0#3⟩

/-- R58, R179, R55: SFU_RESULT_WRITE writes a lane's result to the destination of its operation, tagged F32, with its tangents; the lane
is no longer in flight, and with the last one the operation is gone and its counter is one less. -/
def sfuResultsAreWrittenRule : Prop :=
  ∀ (s : State) (id l : Nat) (p : Pend) (d : Dst) (as : List Acc) (h : Thread), s.pendOf id = some p → p.kind = .sfu →
    s.landable p l false = some as → p.dst = some d → (AMap.keys (accTans as)).Nodup → s.thr p.ref l = some h →
    ∃ t, exec (.sfuResultWrite id l) s = .next t
      ∧ (∀ v psn, accPrimal as p.tag = some (v, p.tag, psn) → match d with
        | .v n => (t.vAt p.ref l n.toNat).val = v.setWidth 32 ∧ (t.vAt p.ref l n.toNat).tag = p.tag
        | .seed => t.seedAt p.ref l = some (v.setWidth 32)
        | _ => True)
      ∧ (∀ k v psn n, (accTans as).find k = some (v, psn) → d = .v n → (t.vAt p.ref l n.toNat).tan.get k 0#32 = v.setWidth 32)
      ∧ (∀ r q m, (r = p.ref ∧ q = l → ∀ n, d = .v n → m ≠ n.toNat) → t.vAt r q m = s.vAt r q m)
      ∧ (if (p.lanes.del l).isEmpty && !p.more then t.pendOf id = none ∧ ∀ k, p.slot = some k →
            t.ctrAt p.ref k.toNat = (if s.ctrAt p.ref k.toNat = 0#6 then 0#6 else s.ctrAt p.ref k.toNat - 1#6)
          else ∃ q, t.pendOf id = some q ∧ q.lanes = p.lanes.del l)

/-- The statements `conversionsWriteTheTargetRule`, `packAndUnpackRule` together. -/
def Obligations.ConversionsAndPacking : Prop := conversionsWriteTheTargetRule ∧ packAndUnpackRule

/-- The statements `specialFunctionsIssueRule`, `specialFunctionValuesRule`, `sfuResultsAreWrittenRule` together. -/
def Obligations.SpecialFunctions : Prop := specialFunctionsIssueRule ∧ specialFunctionValuesRule ∧ sfuResultsAreWrittenRule

/-! ## Lane operations (CLASS 0x4) -/

/-- R182, R184, R185, R187: SHFL gives each lane of EXEC the element, tag and tangents of its source lane, whether or not that is in EXEC,
and its own outside 0 to 31; a source lane without a thread gives 0, RAW. LBCAST does the same from lane SB mod 32. MPREF counts the
mask's bits below the lane, and the lane's own with .incl, tagged N32. -/
def laneOperationsMoveElementsRule : Prop :=
  ∀ (s : State) (x : Ctx) (c : Ctl) (w : Bool) (d : Dst) (a b : Src), s.issues x c → s.errIn = [] →
    let e (q : Nat) : El := x.el s.clk c.lit w q a
    let n (l : Nat) : Nat := (x.rd s c l b).val.toNat
    let from' (mode : ShflMode) (l : Nat) : Nat := match mode with
      | .idx => n l % 32
      | .up => if n l % 64 ≤ l then l - n l % 64 else l
      | .down => if l + n l % 64 < 32 then l + n l % 64 else l
      | .xor => l ^^^ (n l % 32)
    let reach (mode : ShflMode) (l : Nat) : Prop := match mode with
      | .up => n l % 64 ≤ l
      | .down => l + n l % 64 < 32
      | _ => True
    let gone (q : Nat) : Bool := (s.thr x.ref q).isNone
    let tag (q : Nat) : Tag := if gone q then .raw else movedTag (e q) a
    let gives (q : Nat) (r : LRes) : Prop :=
      r.keep = false ∧ r.wide = w ∧ r.tag = tag q ∧ r.val = (if gone q then 0#64 else (e q).val) ∧ r.tan = (if gone q then [] else (e q).tan)
    (∀ mode : ShflMode, (∀ l ∈ x.lanes, (x.rd s c l b).psn = false ∧ (e (from' mode l)).poisoned x.want = false
        ∧ (reach mode l ∨ gone l = false) ∧ x.takes d l (tag (from' mode l)) w) →
      ∃ r, s.vecDone x c d (exec (.shfl c mode w d a b) s) r ∧ ∀ l ∈ x.lanes, gives (from' mode l) (r l))
    ∧ (let q := (x.sca s.clk c.lit b).toNat % 32
      (e q).poisoned x.want = false → (∀ l ∈ x.lanes, x.takes d l (tag q) w) →
      ∃ r, s.vecDone x c d (exec (.lbcast c w d a b) s) r ∧ ∀ l ∈ x.lanes, gives q (r l))
    ∧ ∀ incl, (∀ l ∈ x.lanes, x.takes d l .n32 false) →
      ∃ r, s.vecDone x c d (exec (.mpref c incl d a) s) r ∧ ∀ l ∈ x.lanes, (r l).flat .n32 ∧
        let m := x.sca s.clk c.lit a
        (r l).val.toNat = (List.range l).countP (fun i => m.getLsbD i) + if incl && m.getLsbD l then 1 else 0

/-- R183: VOTE over the lanes of EXEC: the ballot, and whether any, all, or the same element is held. -/
def voteReadsEveryLaneOfExecRule : Prop :=
  ∀ (s : State) (x : Ctx) (c : Ctl) (d : Dst) (a : Src), s.issues x c → s.errIn = [] →
    (∀ l ∈ x.lanes, (x.rd s c l a).psn = false ∧ x.takes d l .raw false) →
    let v (l : Nat) : W64 := (x.rd s c l a).val
    (∃ m, s.scaDone x c d (exec (.vote c .ballot d a) s) m ∧ ∀ i < 64, (m.getLsbD i = true ↔ i ∈ x.lanes ∧ v i ≠ 0#64))
    ∧ (∃ m, s.scaDone x c d (exec (.vote c .any d a) s) m ∧ (m = 1#64 ∨ m = 0#64) ∧ (m = 1#64 ↔ ∃ l ∈ x.lanes, v l ≠ 0#64))
    ∧ (∃ m, s.scaDone x c d (exec (.vote c .all d a) s) m ∧ (m = 1#64 ∨ m = 0#64) ∧ (m = 1#64 ↔ ∀ l ∈ x.lanes, v l ≠ 0#64))
    ∧ ∃ m, s.scaDone x c d (exec (.vote c .eq d a) s) m ∧ (m = 1#64 ∨ m = 0#64) ∧ (m = 1#64 ↔ ∀ l ∈ x.lanes, ∀ k ∈ x.lanes, v l = v k)

/-- One step of a reduction in format f (R186, R172, R82): the value so far and the next element, each with a tangent. -/
def reduceStep (op : RedOp) (f : Tag) (p q : Nat × Nat) : Nat × Nat :=
  let v (n : Nat) : FVal := f.value false n
  let int (n : Nat) : Int := elInt 32 (f == .i32) n
  match op, f.isFp with
  | .or, _ => (p.1 ||| q.1, 0)
  | .add, false => ((p.1 + q.1) % 2 ^ 32, 0)
  | .add, true => (((fAdd .rne (v p.1) (v q.1)).pack f .rne).bits, ((fAdd .rne (v p.2) (v q.2)).pack f .rne).bits)
  | .min, false => (if int p.1 ≤ int q.1 then p.1 else q.1 % 2 ^ 32, 0)
  | .max, false => (if int q.1 ≤ int p.1 then p.1 else q.1 % 2 ^ 32, 0)
  | .min, true => if (v p.1).isNan && (v q.1).isNan then (f.nanCode, 0) else if fSelA false (v p.1) (v q.1) then p else q
  | .max, true => if (v p.1).isNan && (v q.1).isNan then (f.nanCode, 0) else if fSelA true (v p.1) (v q.1) then p else q

/-- R186, R188: LREDUCE folds the elements of the lanes of EXEC, in ascending LANE, in the format that the tag of the lowest lane gives: a
vector destination receives the result in every lane, a scalar one receives it zero-extended. -/
def reductionsFoldTheLanesRule : Prop :=
  ∀ (s : State) (x : Ctx) (c : Ctl) (op : RedOp) (d : Dst) (a : Src) (f : Tag) (e : Nat → El) (l0 : Nat) (ls : List Nat),
    s.issues x c → s.errIn = [] → x.lanes = l0 :: ls →
    (op = .or ∧ f = .raw ∨ op ≠ .or ∧ match movedTag (x.rd s c l0 a) a with
      | .raw | .i32 => f = .i32
      | t => f = t ∧ (t = .n32 ∨ t = .f32 ∨ t = .f64)) →
    (∀ l ∈ x.lanes, (e l).poisoned x.want = false ∧ if f.isFp then x.elFmt s.clk c.lit f l a = some (e l)
      else e l = x.rd s c l a ∧ (op = .or ∨ (e l).accepted (fun t => t == .raw || t == .i32 || t == .n32) = true)) →
    let fold (k : Nat) : Nat × Nat := ls.foldl (fun p l => reduceStep op f p ((e l).val.toNat, (e l).tn k))
      ((e l0).val.toNat, if f.isFp then (e l0).tn k else 0)
    let res : Nat := if f.isFp && (f.value false (fold 1).1).isNan then f.nanCode else (fold 1).1
    (op = .add → f.isFp = true → ∀ i < ls.length,
      ((fAdd .rne (f.value false ((ls.take i).foldl (fun p l => reduceStep op f p ((e l).val.toNat, 0)) ((e l0).val.toNat, 0)).1)
        (f.value false (e (ls.getD i 0)).val.toNat)).pack f .rne).c &&& x.grid.lrec.trapen = 0#3) →
    match d with
    | .s _ => s.scaDone x c d (exec (.lreduce c op d a) s) (BitVec.ofNat 64 res)
    | .b _ => f ≠ .f64 → s.scaDone x c d (exec (.lreduce c op d a) s) (BitVec.ofNat 64 res)
    | _ => (∀ l ∈ x.lanes, x.takes d l f (f == .f64)) → ∃ r, s.vecDone x c d (exec (.lreduce c op d a) s) r ∧ ∀ l ∈ x.lanes,
        (r l).tag = f ∧ (r l).wide = (f == .f64) ∧ (r l).keep = false ∧ (r l).val.toNat = res
        ∧ ∀ k ∈ x.want, ((r l).tan.get k 0#64).toNat = (fold k).2

/-! ## The faults of vector words -/

/-- R75, R74, R161: an integer element word with a lane of EXEC whose tag is not accepted freezes the cohort at the word with a format
fault before anything else is looked at, FLANE holding every lane that fails; without one, poisoned operands raise a poison fault with
FLANE holding their lanes. No register is written. -/
def vectorWordsFaultBeforeTheyWriteRule : Prop :=
  ∀ (s : State) (x : Ctx) (c : Ctl) (ty : IType) (sat : Bool) (d : Dst) (a b : Src), s.issues x c → s.errIn = [] →
    let bad (l : Nat) : Prop := ¬ (x.takes d l (ityTag ty) false ∧ ∀ q ∈ [a, b], (x.rd s c l q).accepted (ityAccepts ty) = true)
    let psn (l : Nat) : Prop := ∃ q ∈ [a, b], (x.rd s c l q).psn = true
    let faults (kind : Nat) (f : Nat → Prop) : Prop := ∃ m : W32, (∀ i < 32, (m.getLsbD i = true ↔ i ∈ x.lanes ∧ f i)) ∧
      ∀ o, o ∈ [exec (.iadd c sat ty d a b) s, exec (.isub c sat ty d a b) s, exec (.imul c sat ty d a b) s, exec (.imin c ty d a b) s,
          exec (.imax c ty d a b) s, exec (.idiv c ty d a b) s, exec (.irem c ty d a b) s, exec (.imulh c ty d a b) s] →
        o = .next (s.trapped x (Fz.of kind 0 m))
    ((∃ l ∈ x.lanes, bad l) → faults 0x07 bad)
    ∧ ((∀ l ∈ x.lanes, ¬ bad l) → (∃ l ∈ x.lanes, psn l) → faults 0x09 psn)

/-- R78: when a lane of EXEC meets a condition whose enable is set, the word raises one arithmetic trap before any lane writes: CODE holds
every enabled condition that any lane met, FLANE every lane that met one. A lane's condition is that of any of its elements (R170). -/
def arithmeticTrapsRule : Prop :=
  ∀ (s : State) (x : Ctx) (c : Ctl) (m : Rnd) (d : Dst) (a b e : Src), s.issues x c → s.errIn = [] →
    let v (f : Tag) (n : Nat) : FVal := f.value false n
    let traps (srcs : List Src) (o : Out) (prim : Tag → Op3 → BRes) : Prop :=
      ∀ es : Nat → List El, (∀ l ∈ x.lanes, fpReads s x c d srcs l (es l)) →
        let f (l : Nat) : Tag := x.fmt s.clk l .f32 srcs
        let met (l j : Nat) : Prop := x.grid.lrec.trapen.getLsbD j = true ∧ ∃ i < (f l).count, (prim (f l) (op3 (f l) (es l) 0 i)).c.getLsbD j = true
        (∃ l ∈ x.lanes, ∃ j < 3, met l j) →
        ∃ (code : Nat) (w : W32), o = .next (s.trapped x (Fz.of 0x0B code w)) ∧ (∀ i < 32, (w.getLsbD i = true ↔ i ∈ x.lanes ∧ ∃ j < 3, met i j))
          ∧ code < 8 ∧ ∀ j < 3, (code.testBit j = true ↔ ∃ l ∈ x.lanes, met l j)
    traps [a, b] (exec (.fadd c m d a b) s) (fun f o => (fAdd m (v f o.a) (v f o.b)).pack f m)
    ∧ traps [a, b] (exec (.fsub c m d a b) s) (fun f o => (fAdd m (v f o.a) (v f o.b).neg).pack f m)
    ∧ traps [a, b] (exec (.fmul c m d a b) s) (fun f o => (fMul (v f o.a) (v f o.b)).pack f m)
    ∧ traps [a, b, e] (exec (.ffma c m d a b e) s) (fun f o => (fFma m (v f o.a) (v f o.b) (v f o.e)).pack f m)
    ∧ traps [a, b] (exec (.fdiv c m d a b) s) (fun f o => (fDiv (v f o.a) (v f o.b)).pack f m)
    ∧ traps [a] (exec (.fsqrt c m d a) s) (fun f o => (fSqrt (v f o.a)).pack f m)

/-- The statements `laneOperationsMoveElementsRule`, `voteReadsEveryLaneOfExecRule`, `reductionsFoldTheLanesRule` together. -/
def Obligations.LaneOperations : Prop := laneOperationsMoveElementsRule ∧ voteReadsEveryLaneOfExecRule ∧ reductionsFoldTheLanesRule

/-- The statements `vectorWordsFaultBeforeTheyWriteRule`, `arithmeticTrapsRule` together. -/
def Obligations.VectorFaultsAndTraps : Prop := vectorWordsFaultBeforeTheyWriteRule ∧ arithmeticTrapsRule

/-! ## Matrix words (CLASS 0x5 and 0x6) -/

/-- The words of the two matrix classes but MLD, MST and MRING, the tangent words on matrix registers (R231), and their control fields. -/
def matrixWord : Instr → Option Ctl
  | .mshape c .. | .mzero c _ | .mid c _ | .mget c .. | .mput c .. | .mmul c .. | .mmult c .. | .mtmul c .. | .madd c .. | .msub c ..
  | .mscal c .. | .mhad c .. | .mtr c .. | .mcvt c .. | .minv c .. | .mlu c .. | .mlus c .. | .mchol c .. | .mexp c .. | .mtrq c ..
  | .mnrm1 c .. | .minvT c .. | .mluT c .. | .mcholT c .. => some c
  | .tget c _ (.m _) (.m _) | .tset c _ (.m _) (.m _) | .tzero c _ (.m _) | .tseed c _ (.m _) => some c
  | _ => none

/-- A lane passes the checks of R192 (but those of addresses) and R78 with the computation `m`: its sources can be read, none is poisoned,
the tiles fit, and no enabled condition is met. -/
def matrixLaneOk (s : State) (x : Ctx) (c : Ctl) (i : Instr) (l : Nat) (m : MLane) : Prop :=
  let thr : W64 := ((matThr i).map (fun t => x.coh.sreg t.toNat)).getD 0#64
  ∃ th, s.thr x.ref l = some th
    ∧ matLane i x.dxMode x.tans x.blk.cfg.t thr ((matSrcs i).map (matSrc x s c.lit l)) th none = some m
    ∧ m.psn = false ∧ (∀ a ∈ matSrcs i, matSrcPsn x s c.lit i l a = false) ∧ m.c &&& x.grid.lrec.trapen = 0#3
    ∧ ∀ w d, m.res.mat = some w → matWrite i = some d → s.laneTiles x.ref l th d w ≤ x.blk.cfg.mtb

/-- The operation that a matrix word leaves in the sequencer: unstarted, with its sources and the results of its lanes as read at issue. -/
def matrixQueued (s : State) (x : Ctx) (c : Ctl) (i : Instr) (L : Nat → MLane) (q : Pend) : Prop :=
  ∃ op, q.kind = .matrix op ∧ q.exec = maskOf x.todo ∧ q.dst = none ∧ op.i = i ∧ op.mode = x.dxMode ∧ op.ks = x.tans
    ∧ op.thr = ((matThr i).map (fun t => x.coh.sreg t.toNat)).getD 0#64 ∧ op.ring = [] ∧ op.started = false ∧ op.groups = []
    ∧ (∀ l ∈ x.todo, op.src.get l [] = (matSrcs i).map (matSrc x s c.lit l)) ∧ op.res = x.todo.map (fun l => (l, (L l).res))

/-- R192, R193, R191: a matrix word that no earlier one holds, whose lanes pass every check, enters the sequencer with its vector and
scalar sources read; nothing is written yet, and the next word may issue
(where a word that conflicts with an earlier one waits is the model's reading of R193, log entry 12). Behind a trapping form the path stays
until it has finished. -/
def matrixWordsEnterTheSequencerRule : Prop :=
  ∀ (s : State) (x : Ctx) (c : Ctl) (i : Instr) (L : Nat → MLane), matrixWord i = some c → s.issues x c → s.errIn = [] →
    s.matStall x.ref i = false → (∀ l ∈ x.todo, matrixLaneOk s x c i l (L l)) →
    ∃ q, matrixQueued s x c i L q ∧ q.lanes = [] ∧
      if matTrap i = true then
        q.id = s.nid ∧ q.ref = x.ref ∧ q.isB = x.isB ∧ q.slot = c.set ∧ ∃ t, exec i s = .next t ∧ t.pend = s.pend ++ [q] ∧ t.nid = s.nid + 1
        ∧ t.counted1 x c ∧ (∀ r p, s.same t (.slot r p)) ∧ s.keeps t (fun p => x.moved p ∨ x.flight c p)
      else s.asyncDone x c (exec i s) q (fun _ => False)

/-- R199, R192, R193: MLD and MST pass the same checks, then those of their addresses, and enter the sequencer with the runs of bytes of
each lane's image; nothing is read or written before they start. -/
def matrixMovesEnterTheSequencerRule : Prop :=
  ∀ (s : State) (x : Ctx) (c : Ctl) (i : Instr) (L : Nat → MLane) (acc : Nat → List Acc),
    ((∃ sp p d a b, i = .mld c sp p d a b) ∨ ∃ sp p a b m, i = .mst c sp p a b m) → s.issues x c → s.errIn = [] →
    s.matStall x.ref i = false → (∀ n, ((s.core x.blk.coreId).wpb.get n 0#64).getLsbD 63 = false) →
    (∀ l ∈ x.todo, matrixLaneOk s x c i l (L l) ∧
      let m := s.mAt x.ref l (matMoved i).toNat
      let a := matAddr ((matSrcs i).map (matSrc x s c.lit l))
      winOk x (matSpace i).1 (imageTans m x.tans) a = true ∧ a % imageAlign m.tag = 0
      ∧ s.matAccs x l (matSpace i).1 a m (matSpace i).2 x.tans = some (acc l)) →
    ∃ q, matrixQueued s x c i L q ∧ q.lanes = x.todo.map (fun l => (l, acc l)) ∧ s.asyncDone x c (exec i s) q (fun _ => False)

/-- R193, R194, log entry 12 (what holds a word): a queued word that nothing holds starts: its matrix sources are read now, and its lanes fall into the shape groups, those
of equal shape and format together, in the order of their lowest lane. Nothing else moves. -/
def matrixWordsStartRule : Prop :=
  ∀ (s : State) (id : Nat) (p : Pend) (op : MatOp) (b : Block) (L : Nat → MLane), s.matOp id = some (p, op) → s.matReady p op = true →
    matMove op.i = false → s.block p.blk = some b → (AMap.keys op.res).Pairwise (· < ·) → (∀ l ∈ AMap.keys op.res, l < 32) →
    (∀ l ∈ AMap.keys op.res, ∃ th, s.thr p.ref l = some th
      ∧ matLane op.i op.mode op.ks b.cfg.t op.thr (op.src.get l []) th (op.ring.find l) = some (L l)) →
    ∃ t q op', exec (.matrixWordStart id) s = .next t ∧ t.matOp id = some (q, op') ∧ op'.started = true ∧ op'.ngrp = 0
      ∧ { op' with started := op.started, ngrp := op.ngrp, groups := op.groups, res := op.res } = op
      ∧ op'.res = (AMap.keys op.res).map (fun l => (l, (L l).res))
      ∧ (∀ l ∈ AMap.keys op.res, ∀ k ∈ AMap.keys op.res,
          ((∃ g ∈ op'.groups, g.getLsbD l = true ∧ g.getLsbD k = true) ↔ (L l).key = (L k).key))
      ∧ (op'.groups.map lowBit).Pairwise (· < ·) ∧ s.keeps t (· = .pend)

/-- R199, R155: as MLD starts it reads each lane's image into its register, whose shape stays, and marks it poisoned when a byte comes
from a poisoned granule; as MST starts it stores each image; no other byte changes. `L` are the lanes' results without the elements. -/
def matrixMovesPerformRule : Prop :=
  ∀ (s : State) (id : Nat) (p : Pend) (op : MatOp) (b : Block) (L : Nat → MLane), s.matOp id = some (p, op) → s.matReady p op = true →
    s.block p.blk = some b → s.errIn = [] → (∀ q ∈ s.blocks, q.2.logr = none) →
    (∀ l ∈ AMap.keys op.res, ∃ th, s.thr p.ref l = some th
      ∧ matLane op.i op.mode op.ks b.cfg.t op.thr (op.src.get l []) th (op.ring.find l) = some (L l)) →
    let reg (l : Nat) : MReg := s.mAt p.ref l (matMoved op.i).toNat
    let starts (t : State) (res : AMap MRes) : Prop := ∃ q op', t.matOp id = some (q, op') ∧ op'.started = true ∧ q.lanes = [] ∧ op'.res = res
    (∀ c sp pt d e f, op.i = .mld c sp pt d e f → ∃ t, exec (.matrixWordStart id) s = .next t ∧ s.keeps t (· = .pend)
      ∧ starts t ((AMap.keys op.res).map (fun l =>
          (l, { (L l).res with mat := (L l).res.mat.map (fun m => s.mldRead m ((p.lanes.find l).getD [])) })))
      ∧ ∀ (m : MReg) as, (s.mldRead m as).rows = m.rows ∧ (s.mldRead m as).cols = m.cols ∧ (s.mldRead m as).tag = m.tag
          ∧ (s.mldRead m as).psn = as.any (fun a => s.poisoned a.store a.addr a.z)
          ∧ (m.tag.blocked = false → ∀ n < m.rows * m.cols, (s.mldRead m as).el.getD n 0#64 = BitVec.ofNat 64 (leNat
              (((s.accBytes 0 as).drop (n * (m.tag.width / 8))).take (m.tag.width / 8)))))
    ∧ (∀ c sp pt e f m, op.i = .mst c sp pt e f m →
      (∀ l ∈ p.lanes, ∀ a ∈ l.2, ∀ g ∈ granules 16 a.addr a.z, (s.objs a.store).contains g = false) →
      ∃ t, exec (.matrixWordStart id) s = .next t ∧ starts t ((AMap.keys op.res).map (fun l => (l, (L l).res)))
      ∧ (∀ l ∈ p.lanes, ∀ a, l.2 = [a] → a.k = 0 → a.z = (imageBytes (reg l.1)).length → (∀ h, a.store = .hblk h → (s.block h).isSome) →
          (∀ k ∈ p.lanes, k.1 ≠ l.1 → accsOverlap k.2 l.2 = false) → (p.lanes.filter (fun k => k.1 == l.1)).length = 1 →
          (t.mem a.store).readN a.addr a.z = imageBytes (reg l.1))
      ∧ s.keeps t (fun q => q = .pend ∨ (∃ r l, q = .resv r l) ∨ ∃ l ∈ p.lanes, ∃ a ∈ l.2,
          (∃ n, q = .byte a.store n ∧ a.addr ≤ n ∧ n < a.addr + a.z) ∨ ∃ g ∈ granules a.store.pg a.addr a.z, q = .psn a.store g))

/-- R194, R206, R214: a shape group that finishes writes its lanes: the matrix, the vector result with its tag, the pivots; the
singular lanes of a trapping form stay as they are. The group is recorded, the other lanes and all else stay. -/
def shapeGroupsWriteTheirLanesRule : Prop :=
  ∀ (s : State) (id : Nat) (p : Pend) (op : MatOp) (g : W32) (gs : List W32), s.matOp id = some (p, op) → op.groups = g :: gs →
    s.seqFree p.ref = true → s.thawed p.ref = true → (AMap.keys op.res).Nodup →
    ∃ t q op', exec (.shapeGroupFinish id) s = .next t ∧ t.matOp id = some (q, op') ∧ op'.groups = gs ∧ op'.ngrp = op.ngrp + 1
      ∧ q.done = p.done ||| g
      ∧ s.keeps t (fun w => w = .pend ∨ ∃ l n, l ∈ AMap.keys op.res ∧ g.getLsbD l = true ∧ (w = .v p.ref l n ∨ w = .m p.ref l n ∨ w = .seed p.ref l))
      ∧ ∀ l r, op.res.find l = some r → g.getLsbD l = true → (s.thr p.ref l).isSome →
        if matTrap op.i = true ∧ r.sing = true then t.thr p.ref l = s.thr p.ref l
        else
          (∀ m d, r.mat = some m → matWrite op.i = some d → t.mAt p.ref l d.toNat = m)
          ∧ (∀ v wide tag tan n, r.vec = some (v, wide, tag, tan) → op.mode ≠ .tonly →
              ((∃ c a e f, op.i = .mget c (.v n) a e f) ∨ ∃ c a, op.i = .mnrm1 c (.v n) a) →
              (t.vAt p.ref l n.toNat).val = v.setWidth 32 ∧ (t.vAt p.ref l n.toNat).tag = tag
              ∧ (wide = true → (t.vAt p.ref l (n.toNat + 1)).val = v.extractLsb' 32 32 ∧ (t.vAt p.ref l (n.toNat + 1)).tag = tag))
          ∧ (∀ v c d a e n, r.piv = some v → op.mode ≠ .tonly → (op.i = .mlu c d a e n ∨ op.i = .mluT c d a e n) →
              (t.vAt p.ref l n.toNat).val = v ∧ (t.vAt p.ref l n.toNat).tag = .raw)

/-- R206, R55: when every group has finished the word is done and its counter one less. MINV, MLU and MCHOL write the mask of their
singular lanes to their scalar register. Behind a trapping form the path goes on, or the cohort freezes with the singularity trap:
FLANE the singular lanes, PMASK all that have committed, PIDX their number. -/
def matrixWordsFinishRule : Prop :=
  ∀ (s : State) (id : Nat) (p : Pend) (op : MatOp) (l : Nat) (h : Thread), s.matOp id = some (p, op) → op.started = true → op.groups = [] →
    s.seqFree p.ref = true → (matTrap op.i = true → s.thawed p.ref = true) → p.smp = none → s.thr p.ref l = some h → (AMap.keys op.res).Nodup →
    let counted (t : State) : Prop := ∀ k, p.slot = some k →
      t.ctrAt p.ref k.toNat = if s.ctrAt p.ref k.toNat = 0#6 then 0#6 else s.ctrAt p.ref k.toNat - 1#6
    let ctr (w : Place) : Prop := ∃ k, p.slot = some k ∧ w = .ctr p.ref k.toNat
    ∃ sing : W32, (∀ n < 32, (sing.getLsbD n = true ↔ ∃ r, op.res.find n = some r ∧ r.sing = true)) ∧ ∃ t,
      exec (.matrixWordFinish id) s = .next t ∧ t.matOp id = none ∧
      if matTrap op.i = false then
        counted t ∧ (∀ n, matStatus op.i = some n → t.sAt p.ref n.toNat = sing.setWidth 64)
        ∧ s.keeps t (fun w => w = .pend ∨ ctr w ∨ ∃ n, matStatus op.i = some n ∧ w = .s p.ref n.toNat)
      else if sing = 0#32 then
        counted t ∧ t.slot p.ref p.isB = (s.slot p.ref p.isB).map (fun w => { w.advance 1 with
          stp := w.stp || ((s.coh p.ref).map (fun k => k.step == 1)).getD false }) ∧ t.latches p.ref = (.none :: s.latches p.ref).take 8
        ∧ s.keeps t (fun w => w = .pend ∨ ctr w ∨ w = .slot p.ref p.isB ∨ w = .latch p.ref ∨ w = .cnt p.ref)
      else
        let com := (p.exec &&& ~~~sing) ||| ((s.coh p.ref).map (·.rpm)).getD 0#32
        t = (s.delPend id).freezeCoh p.ref ⟨0x0A, 0, 0, p.widx, p.isB, p.pc, 0#64, false, false, []⟩ sing com
          (BitVec.ofNat 32 ((List.range 32).countP (fun i => com.getLsbD i)))

/-- Element (i, j) of a matrix register. -/
def elemAt (m : MReg) (i j : Nat) : Nat := (m.el.getD (i * m.cols + j) 0#64).toNat

/-- The matrix that a word computes in a lane: its shape, tag and elements; whether a source is poisoned. -/
def matGives (r : Option MLane) (rows cols : Nat) (tag : Tag) (psn : Bool) (e : Nat → Nat → Nat) : Prop :=
  ∃ m w, r = some m ∧ m.res.mat = some w ∧ m.psn = psn ∧ w.rows = rows ∧ w.cols = cols ∧ w.tag = tag ∧ w.psn = false
    ∧ ∀ i < rows, ∀ j < cols, elemAt w i j = e i j

/-- R203, R204, R82: the products. F32 and F64 elements are chains of fused multiply-adds in ascending order from D or from −0; I8 sums
wrap modulo 2^32; a narrow product is the exact sum of the exact values rounded once, then added to D. -/
def matrixProductsRule : Prop :=
  ∀ (c : Ctl) (acc neg : Bool) (d a b : MNum) (mode : DxMode) (ks : List Nat) (T : Nat) (thr : W64) (ss : List MSrc) (th : Thread)
    (ring : Option MReg), mode ≠ .tonly →
    let A := th.mreg a.toNat
    let B := th.mreg b.toNat
    let D := th.mreg d.toNat
    let f := A.tag
    let v (n : Nat) : FVal := f.value false n
    let tag : Tag := if f = .f64 then .f64 else if f = .i8 then .i32 else .f32
    let sum (ga gb : Nat → Nat) (va vb : Nat → FVal) (k d0 : Nat) : Nat :=
      if f = .f32 ∨ f = .f64 then
        (List.range k).foldl (fun z q => ((fFma .rne (v (if neg then negBits f (ga q) else ga q)) (v (gb q)) (v z)).pack f .rne).bits)
          (if acc then d0 else 2 ^ (f.width - 1))
      else if f = .i8 then
        let n : Int := (List.range k).foldl (fun n q => n + (if neg then -1 else 1) * (elInt 8 true (ga q) * elInt 8 true (gb q))) 0
        (((if acc then (d0 : Int) else 0) + n) % 2 ^ 32).toNat
      else
        let e := ((fDot .rne ((List.range k).map (fun q => (if neg then (va q).neg else va q, vb q)))).pack .f32 .rne).bits
        if acc then ((fAdd .rne (Tag.f32.value false d0) (Tag.f32.value false e)).pack .f32 .rne).bits else e
    let gives (i : Instr) (m k n : Nat) (ka kb : Bool) (pa pb : Nat → Nat → Nat × Nat) : Prop :=
      (f.blocked = true → A.kax = ka ∧ B.kax = kb) → (acc = true → D.rows = m ∧ D.cols = n ∧ D.tag = tag) →
      matGives (matLane i mode ks T thr ss th ring) m n tag (A.psn || B.psn || (acc && D.psn)) (fun i j =>
        sum (fun q => elemAt A (pa i q).1 (pa i q).2) (fun q => elemAt B (pb q j).1 (pb q j).2)
          (fun q => mxVal A (pa i q).1 (pa i q).2) (fun q => mxVal B (pb q j).1 (pb q j).2) k (elemAt D i j))
    A.rows ≠ 0 → B.rows ≠ 0 → A.tag = B.tag → A.tag ≠ .raw →
    (A.cols = B.rows → gives (.mmul c acc neg d a b) A.rows A.cols B.cols false true (fun i q => (i, q)) (fun q j => (q, j)))
    ∧ (A.cols = B.cols → gives (.mmult c acc neg d a b) A.rows A.cols B.rows false false (fun i q => (i, q)) (fun q j => (j, q)))
    ∧ (A.rows = B.rows → gives (.mtmul c acc neg d a b) A.cols A.rows B.cols true true (fun i q => (q, i)) (fun q j => (q, j)))

/-- R198, R200, R201, R205: what the other words of CLASS 0x5 compute in a lane: element-wise sums and products, scaling, conversion, the
transpose, the shapes that MSHAPE, MZERO and MID set, and the single elements that MGET and MPUT move. -/
def matrixElementsRule : Prop :=
  ∀ (c : Ctl) (kax : Bool) (d a b : MNum) (vd : Dst) (p q e : Src) (tgt : Tag) (mode : DxMode) (ks : List Nat) (T : Nat) (thr : W64)
    (ss : List MSrc) (th : Thread) (ring : Option MReg), mode ≠ .tonly →
    let A := th.mreg a.toNat
    let B := th.mreg b.toNat
    let D := th.mreg d.toNat
    let lane (i : Instr) : Option MLane := matLane i mode ks T thr ss th ring
    let v (n : Nat) : FVal := A.tag.value false n
    let int (n : Int) : Nat := (n % 2 ^ 32).toNat
    let els (o : FVal → FVal → FRes) (oi : Int → Int → Int) (x y : Nat) : Nat :=
      if A.tag = .i32 then int (oi x y) else ((o (v x) (v y)).pack A.tag .rne).bits
    let zero (t : Tag) : Nat := if t = .pt8 then 0x08 else 0
    (A.rows ≠ 0 → A.tag ∈ [.f32, .f64, .h16, .b16, .i32] →
      (A.rows = B.rows → A.cols = B.cols → A.tag = B.tag →
        matGives (lane (.madd c d a b)) A.rows A.cols A.tag (A.psn || B.psn)
          (fun i j => els (fAdd .rne) (· + ·) (elemAt A i j) (elemAt B i j))
        ∧ matGives (lane (.msub c d a b)) A.rows A.cols A.tag (A.psn || B.psn)
          (fun i j => els (fun x y => fAdd .rne x y.neg) (· - ·) (elemAt A i j) (elemAt B i j))
        ∧ matGives (lane (.mhad c d a b)) A.rows A.cols A.tag (A.psn || B.psn)
          (fun i j => els fMul (· * ·) (elemAt A i j) (elemAt B i j)))
      ∧ ∀ f, (srcAt ss 0).inFmt true A.tag = some f → matGives (lane (.mscal c d a p)) A.rows A.cols A.tag A.psn
          (fun i j => els fMul (· * ·) (elemAt A i j) f.1))
    ∧ (A.rows ≠ 0 → tgt.blocked = false → matGives (lane (.mcvt c kax tgt d a)) A.rows A.cols tgt A.psn
        (fun i j => (tgt.pack .rne false false (mxVal A i j)).bits))
    ∧ (A.rows ≠ 0 → matGives (lane (.mtr c d a)) A.cols A.rows A.tag A.psn (fun i j => elemAt A j i)
        ∧ ∀ m w, lane (.mtr c d a) = some m → m.res.mat = some w → w.sc = A.sc ∧ w.kax = (A.tag.blocked && !A.kax))
    ∧ (A.rows ≠ 0 → A.tag.blocked = true → ∃ m w, lane (.mtrq c d a) = some m ∧ m.res.mat = some w ∧ w.rows = A.cols ∧ w.cols = A.rows
        ∧ w.tag = A.tag ∧ w.kax = A.kax)
    ∧ (D.rows ≠ 0 → matGives (lane (.mzero c d)) D.rows D.cols D.tag false (fun _ _ => zero D.tag)
        ∧ (D.tag.blocked = false → matGives (lane (.mid c d)) D.rows D.cols D.tag false
            (fun i j => if i = j then (if D.tag.isInt then 1 else D.tag.one) else 0)))
    ∧ (∀ r n k, (srcAt ss 0).n32 = some r → (srcAt ss 1).n32 = some n → (srcAt ss 2).n32 = some k →
        1 ≤ r → r ≤ 8 → 1 ≤ n → n ≤ 8 → ∀ t, Tag.ofCode (BitVec.ofNat 4 k) = some t → t.matOk = true →
        matGives (lane (.mshape c kax d p q e)) r n t false (fun _ _ => zero t)
        ∧ ∀ m w, lane (.mshape c kax d p q e) = some m → m.res.mat = some w → w.kax = (t.blocked && kax) ∧ (mode = .prop → w.tp = 0))
    ∧ (∀ i j n, (srcAt ss 0).n32 = some i → (srcAt ss 1).n32 = some j → i < A.rows → j < A.cols → vd = .v n →
        (A.tag = .f64 → n.toNat % 2 = 0) → ∃ m tan, lane (.mget c vd a p q) = some m ∧ m.psn = A.psn
          ∧ m.res.vec = some (BitVec.ofNat 64 (elemAt A i j), A.tag == .f64, A.tag, tan))
    ∧ (∀ x i j, (srcAt ss 0).inFmt false D.tag = some x → (srcAt ss 1).n32 = some i → (srcAt ss 2).n32 = some j → i < D.rows → j < D.cols →
        ∃ m w, lane (.mput c d p q e) = some m ∧ m.res.mat = some w ∧ w.rows = D.rows ∧ w.cols = D.cols ∧ w.tag = D.tag ∧ w.sc = D.sc
          ∧ w.kax = D.kax ∧ ∀ r < D.rows, ∀ k < D.cols, i * D.cols + j < D.el.length →
            elemAt w r k = if r = i ∧ k = j then x.1 % 2 ^ 64 else elemAt D r k)

/-- R206: a lane of MINV, MLU or MCHOL whose pivot is NaN or not above the threshold is singular: every element of its result is the
canonical NaN, and MLU's pivots are 0x76543210. For a 1 × 1 matrix the pivot is its element. -/
def singularLanesRule : Prop :=
  ∀ (c : Ctl) (d a : MNum) (t : Sys2Proof.SNum) (pv : VNum) (mode : DxMode) (ks : List Nat) (T : Nat) (thr : W64) (ss : List MSrc) (th : Thread)
    (ring : Option MReg) (i : Instr), mode ≠ .tonly →
    i ∈ [.minv c d a t, .minvT c d a t, .mlu c d a t pv, .mluT c d a t pv, .mchol c d a t, .mcholT c d a t] →
    let A := th.mreg a.toNat
    (A.tag = .f32 ∨ A.tag = .f64) → A.rows = A.cols → A.rows ≠ 0 →
    ∃ m w, matLane i mode ks T thr ss th ring = some m ∧ m.res.mat = some w ∧ w.rows = A.rows ∧ w.cols = A.cols ∧ w.tag = A.tag
      ∧ (m.res.sing = true → (∀ r < A.rows, ∀ k < A.cols, elemAt w r k = A.tag.nanCode)
          ∧ ((i = .mlu c d a t pv ∨ i = .mluT c d a t pv) → m.res.piv = some 0x76543210#32))
      ∧ (A.rows = 1 →
          let p := A.tag.value false (elemAt A 0 0)
          let lim := A.tag.value false (if A.tag = .f64 then thr.toNat else thr.toNat % 2 ^ 32)
          (m.res.sing = true ↔ p.isNan = true ∨ (lim.isNan = false ∧ fCmp p.abs lim ≤ 0)))

/-- The statements `matrixWordsEnterTheSequencerRule`, `matrixMovesEnterTheSequencerRule` together. -/
def Obligations.MatrixWordsEnterTheSequencer : Prop := matrixWordsEnterTheSequencerRule ∧ matrixMovesEnterTheSequencerRule

/-- The statements `matrixWordsStartRule`, `matrixMovesPerformRule`, `shapeGroupsWriteTheirLanesRule`, `matrixWordsFinishRule` together. -/
def Obligations.MatrixWordsRun : Prop := matrixWordsStartRule ∧ matrixMovesPerformRule ∧ shapeGroupsWriteTheirLanesRule ∧ matrixWordsFinishRule

/-- The statements `matrixProductsRule`, `matrixElementsRule`, `singularLanesRule` together. -/
def Obligations.MatrixResults : Prop := matrixProductsRule ∧ matrixElementsRule ∧ singularLanesRule

/-! ## Scratchpad loads and stores (CLASS 0x7) -/

/-- The address of a lane (R153): its base operand, its index, the element size; of a ring register the bits `k`. -/
def formAddr (mode : AMode) (k : W64) (z : Nat) (disp : Int) (p q : Nat) : Nat :=
  match mode with
  | .base => (((p : Int) + q + disp * z) % 2 ^ 32).toNat
  | .scaled => (((p : Int) + q * z + disp * z) % 2 ^ 32).toNat
  | .ring => (k.toNat % 2 ^ 32 + q % bitsAt k.toNat 32 27) % 2 ^ 32

/-- No watchpoint of the issuer's core is enabled (R341). -/
def noWatch (s : State) (x : Ctx) : Prop := ∀ n, ((s.core x.blk.coreId).wpb.get n 0#64).getLsbD 63 = false

/-- A lane of a load or store passes the checks of R154 with base and index `ops`, element size `z` and accesses `as`: address operands
accepted (R74) and not poisoned, a permitted ring register (R150), window bits, alignment and reach, for tangents `ks` as for the primal. -/
def spLaneOk (s : State) (x : Ctx) (c : Ctl) (sp : Space) (mode : AMode) (disp : Int) (a b : Src) (ks : List Nat) (l : Nat)
    (ops : Nat × Nat) (z : Nat) (val : Nat → W64 × Bool) (as : List Acc) : Prop :=
  let ok (q : Src) : Prop := (x.rd s c l q).accepted (ityAccepts .n32) = true ∧ (x.rd s c l q).psn = false
  let ring : W64 := match a with
    | .k n => x.coh.kreg n.toNat
    | _ => 0#64
  let adr := formAddr mode ring z disp ops.1 ops.2
  ops.2 = (x.rd s c l b).val.toNat % 2 ^ 32 ∧ ok b ∧ (if mode = .ring then ops.1 = 0 ∧ ringOk ring sp = true
    else ops.1 = (x.rd s c l a).val.toNat % 2 ^ 32 ∧ ok a)
  ∧ winOk x sp ks adr = true ∧ (∀ k ∈ 0 :: ks, tanAddr x sp adr k % z = 0) ∧ s.laneAccs x sp l adr z ks val = some as

/-- The indices of a ring form step on at issue, tagged N32; no other form writes a register (R153). -/
def ringSteps (s t : State) (x : Ctx) (mode : AMode) (disp : Int) (a b : Src) (ops : Nat → Nat × Nat) (z : Nat → Nat) : Prop :=
  ∀ n k, mode = .ring → b = .v n → a = .k k → ∀ l ∈ x.todo, (s.thr x.ref l).isSome →
    let size := bitsAt (x.coh.kreg k.toNat).toNat 32 27
    (t.vAt x.ref l n.toNat).val = BitVec.ofInt 32 ((((ops l).2 % size : Nat) + disp * z l) % size)
    ∧ (t.vAt x.ref l n.toNat).tag = .n32 ∧ (t.vAt x.ref l n.toNat).psn = false

/-- The places that the ring form moves. -/
def ringPlaces (x : Ctx) (mode : AMode) (b : Src) (p : Place) : Prop :=
  mode = .ring ∧ ∃ n l, b = .v n ∧ l ∈ x.todo ∧ p = .v x.ref l n.toNat

/-- R153, R154, R159: a load of each space whose lanes pass every check issues, its accesses in flight, one for the primal and one for each
tangent that it moves; STOP names the tangents that it will zero. -/
def scratchpadLoadsIssueRule : Prop :=
  ∀ (s : State) (x : Ctx) (c : Ctl) (q : LdCtl) (d : Dst) (a b : Src) (ops : Nat → Nat × Nat) (as : Nat → List Acc),
    s.issues x c → s.errIn = [] → noWatch s x →
    let z := if q.fmt = .f64 then 8 else 4
    let ks := if x.dxMode = .stop then [] else x.tans
    let loads (i : Instr) (sp : Space) : Prop :=
      (∀ l ∈ x.todo, spLaneOk s x c sp q.mode q.disp.toInt a b ks l (ops l) z (fun _ => (0#64, false)) (as l)) →
      ∃ t p old, exec i s = .next t ∧ s.asyncDone x c (.next t) p (ringPlaces x q.mode b) ∧ p.kind = .load q.q old ∧ p.exec = x.exec
        ∧ p.dst = some d ∧ p.tag = q.fmt
        ∧ p.lanes = x.todo.map (fun l => (l, as l ++ if x.dxMode = .stop then x.tans.map (fun k => ⟨k, .phys, 0, 0, 0#64, 0#64, false⟩) else []))
        ∧ (q.q = .poll → ∀ l ∈ x.todo, ∀ n h, d = .v n → s.thr x.ref l = some h → old.find l = some (h.el (z == 8) n.toNat).val)
        ∧ ringSteps s t x q.mode q.disp.toInt a b ops (fun _ => z)
    loads (.lds c q d a b) .core ∧ loads (.ldc c q d a b) .window ∧ loads (.ldd c q d a b) .die ∧ loads (.ldp c q d a b) .frame

/-- R152, R153, R154, R159: a store of each space whose lanes pass every check issues with the values of its lanes, 8 bytes where the value
carries F64 and 4 otherwise, and their tangents; nothing is stored yet. -/
def scratchpadStoresIssueRule : Prop :=
  ∀ (s : State) (x : Ctx) (c : Ctl) (q : StCtl) (a b v : Src) (ops : Nat → Nat × Nat) (as : Nat → List Acc) (e : Nat → El),
    s.issues x c → s.errIn = [] → noWatch s x →
    let z (l : Nat) : Nat := if (x.rd s c l v).tag = some .f64 then 8 else 4
    let stores (i : Instr) (sp : Space) : Prop :=
      (∀ l ∈ x.todo, (if z l = 8 then x.elFmt s.clk c.lit .f64 l v = some (e l) else e l = x.rd s c l v)
        ∧ spLaneOk s x c sp q.mode q.disp.toInt a b x.tans l (ops l) (z l)
          (fun k => if k = 0 then ((e l).val, (e l).psn) else ((e l).t k, (e l).tpsn.contains k)) (as l)) →
      ∃ t p, exec i s = .next t ∧ s.asyncDone x c (.next t) p (ringPlaces x q.mode b) ∧ p.kind = .store q.q (wholeGranules p.lanes) ∧ p.exec = x.exec
        ∧ p.lanes = x.todo.map (fun l => (l, as l)) ∧ ringSteps s t x q.mode q.disp.toInt a b ops z
    stores (.sts c q a b v) .core ∧ stores (.stc c q a b v) .window ∧ stores (.std c q a b v) .die ∧ stores (.stp c q a b v) .frame

/-- R141, R143, R159: the bytes that an address of each space names: the block's own program scratch, a byte of a core of the cluster that
lies in the program scratch of a resident block of the grid for each byte, the grant in the die-wide scratchpad, the thread's own frame. -/
def scratchpadSpacesRule : Prop :=
  ∀ (s : State) (x : Ctx) (l a n : Nat) (h : Thread), x.coh.thread l = some h → x.blk.isHandler = false →
    let b := x.blk
    let r := x.grid.lrec
    let frame := if b.cfg.t = 0 then b.cfg.pfb else b.cfg.pfb / (b.cfg.t + 1)
    let core := 256 * b.die + 64 * (b.core / 64) + bitsAt a 18 6
    s.place x l .core a n = (if a + n ≤ b.cfg.sb then some (.core (256 * b.die + b.core), b.base + a) else none)
    ∧ s.place x l .die a n = (if r.dwbase ≤ a ∧ a + n ≤ r.dwbase + r.dwsize then some (.die b.die, a) else none)
    ∧ s.place x l .frame a n =
        (if a + n ≤ frame then some (.core (256 * b.die + b.core), b.base + (b.cfg.sb + h.t * b.cfg.pfb) + a) else none)
    ∧ (s.place x l .window a n = some (.core core, a % 2 ^ 18) ∨ s.place x l .window a n = none)
    ∧ (s.place x l .window a n = some (.core core, a % 2 ^ 18) ↔ ∀ i < n, ∃ k ∈ s.blocks, k.2.grid = b.grid ∧ k.2.coreId = core ∧ k.2.saved = false
        ∧ k.2.isHandler = false ∧ k.2.base ≤ a % 2 ^ 18 + i ∧ a % 2 ^ 18 + i < k.2.base + k.2.cfg.sb)
    ∧ ∀ k, s.placeTan x l .core a n k = s.place x l .core ((a + k * r.sdstr.toNat) % 2 ^ 32) n
      ∧ s.placeTan x l .window a n k = s.place x l .window ((a + k * r.sdstr.toNat) % 2 ^ 32) n
      ∧ s.placeTan x l .die a n k = s.place x l .die ((a + k * r.ddstr.toNat) % 2 ^ 32) n
      ∧ s.placeTan x l .frame a n k = (s.place x l .frame a n).map (fun p => (p.1, p.2 + k * frame))

/-- R154: a load in base or scaled form with accepted operands faults on the first kind of address check that a lane of EXEC fails: the
window bits (code 0x22), the alignment (0x27), the reach (0x21). FLANE holds every lane that fails that kind. -/
def scratchpadAddressFaultsRule : Prop :=
  ∀ (s : State) (x : Ctx) (c : Ctl) (q : LdCtl) (d : Dst) (a b : Src), s.issues x c → s.errIn = [] → q.mode ≠ .ring →
    x.coh.rpm = 0#32 → x.dxMode ≠ .stop → (∀ l ∈ x.lanes, ∀ p ∈ [a, b], (x.rd s c l p).accepted (ityAccepts .n32) = true ∧ (x.rd s c l p).psn = false) →
    let z := if q.fmt = .f64 then 8 else 4
    let adr (l : Nat) : Nat := formAddr q.mode 0#64 z q.disp.toInt ((x.rd s c l a).val.toNat % 2 ^ 32) ((x.rd s c l b).val.toNat % 2 ^ 32)
    let faults (i : Instr) (sp : Space) : Prop :=
      let win (l : Nat) : Prop := sp = .window ∧ ∃ k ∈ 0 :: x.tans, bitsAt (tanAddr x sp (adr l) k) 24 8 ≠ 0
      let ali (l : Nat) : Prop := ∃ k ∈ 0 :: x.tans, tanAddr x sp (adr l) k % z ≠ 0
      let rea (l : Nat) : Prop := ∃ k ∈ 0 :: x.tans, s.placeTan x l sp (adr l) z k = none
      let as (code : Nat) (f : Nat → Prop) : Prop := ∃ m : W32, (∀ l < 32, (m.getLsbD l = true ↔ l ∈ x.lanes ∧ f l)) ∧
        exec i s = .next (s.trapped x { Fz.of 0x02 code m with
          va := BitVec.ofNat 64 (adr (lowBit m)), per := (lanesOf m).map (fun l => (l, code, 0xF, BitVec.ofNat 64 (adr l))) })
      ((∃ l ∈ x.lanes, win l) → as 0x22 win)
      ∧ ((∀ l ∈ x.lanes, ¬ win l) → (∃ l ∈ x.lanes, ali l) → as 0x27 ali)
      ∧ ((∀ l ∈ x.lanes, ¬ win l ∧ ¬ ali l) → (∃ l ∈ x.lanes, rea l) → as 0x21 rea)
    faults (.lds c q d a b) .core ∧ faults (.ldc c q d a b) .window ∧ faults (.ldd c q d a b) .die ∧ faults (.ldp c q d a b) .frame

/-- The registers of a lane hold what its accesses read: the primal with the format of the load, each tangent; a poisoned granule marks
what it gave (R154, R159). -/
def landed (s t : State) (p : Pend) (lane : Nat) (as : List Acc) : Prop :=
  ∀ n a, p.dst = some (.v n) → a ∈ as → a.z ≠ 0 →
    let v := BitVec.ofNat 64 (s.readNat a.store a.addr a.z)
    let m := s.poisoned a.store a.addr a.z
    let lo := t.vAt p.ref lane n.toNat
    let hi := t.vAt p.ref lane (n.toNat + 1)
    if a.k = 0 then
      lo.val = v.setWidth 32 ∧ lo.tag = p.tag ∧ lo.psn = m
      ∧ (p.tag = .f64 → hi.val = v.extractLsb' 32 32 ∧ hi.tag = p.tag ∧ hi.psn = m)
    else
      lo.tan.get a.k 0#32 = v.setWidth 32 ∧ lo.tpsn.contains a.k = m
      ∧ (p.tag = .f64 → hi.tan.get a.k 0#32 = v.extractLsb' 32 32 ∧ hi.tpsn.contains a.k = m)

/-- The lanes of an operation in flight that are left, and its counter: one less with the last lane (R55). -/
def lanesLeft (s t : State) (p : Pend) (done : List Nat) : Prop :=
  let left := p.lanes.filter (fun l => !done.contains l.1)
  if left = [] ∧ p.more = false then
    t.pendOf p.id = none ∧ ∀ k, p.slot = some k → t.ctrAt p.ref k.toNat =
      if s.ctrAt p.ref k.toNat = 0#6 then 0#6 else s.ctrAt p.ref k.toNat - 1#6
  else ∃ q, t.pendOf p.id = some q ∧ q.lanes = left

/-- An operation of a thread's cohort whose lane may land now, in the order of R155, in a machine where nothing records, samples or errs. -/
def mayLand (s : State) (id lane : Nat) (p : Pend) (as : List Acc) (h : Thread) : Prop :=
  s.pendOf id = some p ∧ s.landable p lane false = some as ∧ s.thr p.ref lane = some h ∧ s.errIn = [] ∧ (∀ q ∈ s.blocks, q.2.logr = none)
  ∧ p.smp = none ∧ (AMap.keys p.lanes).Nodup ∧ (as.map (·.k)).Nodup

/-- The places that a landing lane moves beside memory. -/
def landPlaces (p : Pend) (ls : List Nat) (w : Place) : Prop :=
  w = .pend ∨ (∃ k, p.slot = some k ∧ w = .ctr p.ref k.toNat) ∨ ∃ l ∈ ls, (p.dst = some .seed ∧ w = .seed p.ref l) ∨
    ∃ n, p.dst = some (.v n) ∧ (w = .v p.ref l n.toNat ∨ (p.tag = .f64 ∧ w = .v p.ref l (n.toNat + 1)))

/-- The path of a cohort that has issued an operation is demoted, wherever it stands (R240): in a slot outside its boundary at its next
one; at its boundary at once, when an entry of the spill stack waits for the slot. -/
def isDemoted (s t : State) (r : CohRef) (id : Nat) : Prop :=
  ∀ c i o, s.coh r = some c → c.path i = some o → o.ops.contains id = true →
    (o.atBoundary = false ∨ c.spill = [] → (t.slot r i).map (·.dem) = some true)
    ∧ (o.atBoundary = true → c.spill ≠ [] → (∀ k, c.path (!i) = some k → k.dem = false ∧ k.ops.contains id = false) →
        ∃ d, t.coh r = some d ∧ ∃ e, d.spill.getLast? = some e ∧ e.path.pc = o.pc ∧ e.path.mask = o.mask ∧ e.path.dem = false)

/-- The places that such a demotion moves. -/
def demotePlaces (r : CohRef) (w : Place) : Prop := (∃ i, w = .slot r i) ∨ w = .spill r ∨ w = .cnt r

/-- R154, R155, R58, R158: a lane of a plain or polling load reads and writes its registers, and the lanes of its word that name a common
element with it read it together. With the last lane of a poll that changed nothing in any lane, the path that issued it, wherever it stands,
is to be demoted, at once where it stands at its boundary beside a waiting spill entry (R240), and one more unchanged poll counts; a change
starts that count again. -/
def loadsLandRule : Prop :=
  ∀ (s : State) (id lane : Nat) (p : Pend) (as : List Acc) (h : Thread) (q : LQual) (old : AMap W64), mayLand s id lane p as h →
    p.kind = .load q old → (q = .none ∨ q = .poll) →
    let ls := p.sameElement lane
    let accs (l : Nat) : List Acc := (p.lanes.find l).getD []
    s.groupOk p ls = true → (∀ l ∈ ls, (s.thr p.ref l).isSome ∧ ((accs l).map (·.k)).Nodup) →
    lane ∈ ls ∧ (∀ l ∈ AMap.keys p.lanes, (∃ k ∈ ls, accsOverlap ((accs l).filter (fun a => a.z != 0)) (accs k) = true) → l ∈ ls) ∧
    ∃ t, exec (.scratchpadLoadLands id lane) s = .next t ∧ (∀ l ∈ ls, landed s t p l (accs l)) ∧ lanesLeft s t p ls
      ∧ s.keeps t (fun w => landPlaces p ls w ∨ (q = .poll ∧ demotePlaces p.ref w))
      ∧ (q = .poll → p.lanes = [(lane, as)] → ∀ a ∈ as, a.k = 0 → a.z ≠ 0 →
          let same := (old.filter (fun e => !(e.1 == lane && e.2 == BitVec.ofNat 64 (s.readNat a.store a.addr a.z)))).isEmpty
          (AMap.keys old).Nodup → (t.coh p.ref).map (·.polls) = (s.coh p.ref).map (fun c => if same then c.polls + 1 else 0)
          ∧ (same = true → isDemoted s t p.ref id))

/-- A lane's elements stand in their stores (R154): `as` are its accesses, disjoint from one another and from `all`'s other bytes. -/
def storedAll (t : State) (as : List Acc) : Prop :=
  ∀ a ∈ as, t.readNat a.store a.addr a.z = a.val.toNat % 2 ^ (8 * a.z)
    ∧ (a.psn = true → ∀ g ∈ granules a.store.pg a.addr a.z, (t.psns a.store).contains g = true)

/-- Accesses that lie in stores that exist, touch no live barrier object (R106), and are disjoint. -/
def plainAccs (s : State) (as : List Acc) : Prop :=
  as.Pairwise (fun a b => a.overlaps b = false) ∧ ∀ a ∈ as, a.z ≠ 0 ∧ (∀ b, a.store = .hblk b → (s.block b).isSome)
    ∧ (∀ g ∈ granules 16 a.addr a.z, (s.objs a.store).contains g = false)
    ∧ ∀ b ∈ as, a.psn = true → b.psn = false → a.store = b.store → ∀ g ∈ granules a.store.pg a.addr a.z, g ∉ granules b.store.pg b.addr b.z

/-- The places that the accesses of stores move: their bytes, poison, reservations (R260). -/
def storePlaces (as : List Acc) (w : Place) : Prop :=
  (∃ r l, w = .resv r l) ∨ ∃ a ∈ as, (∃ n, w = .byte a.store n ∧ a.addr ≤ n ∧ n < a.addr + a.z) ∨ ∃ g ∈ granules a.store.pg a.addr a.z, w = .psn a.store g

/-- The granules that a store covers whole are granules of scratchpads in which none of its values is poisoned. -/
def coverOk (cov : List (Store × Nat)) (as : List Acc) : Prop :=
  ∀ g ∈ cov, g.1.pg = 16 ∧ ∀ a ∈ as, a.psn = true → a.store = g.1 → g.2 ∉ granules 16 a.addr a.z

/-- R154, R156: a lane of a plain or .fill store writes the bytes of its value, the poison of its value with them; a granule that the store
covers whole with unpoisoned data is not poisoned behind its last lane; .fill then sets the bit of its granule. No other byte changes. -/
def storesArePerformedRule : Prop :=
  ∀ (s : State) (id lane : Nat) (p : Pend) (as : List Acc) (h : Thread) (q : SQual) (cov : List (Store × Nat)), mayLand s id lane p as h →
    p.kind = .store q cov → s.ordOk p lane as = true → plainAccs s as → coverOk cov as → (q = .none ∨ q = .fill) →
    let bit (w : Place) : Prop := q = .fill ∧ ∃ g, granOf as = some g ∧ ∃ n, w = .full g.1 n ∧ n / 16 = g.2 / 16
    ∃ t, exec (.scratchpadStorePerformed id lane) s = .next t ∧ storedAll t as ∧ lanesLeft s t p [lane]
      ∧ (∀ g ∈ cov, (∃ a ∈ as, a.store = g.1 ∧ a.addr / 16 = g.2) →
          (∀ l ∈ p.lanes, l.1 ≠ lane → ∀ a ∈ l.2, a.store = g.1 → a.addr / 16 ≠ g.2) → (t.psns g.1).contains g.2 = false)
      ∧ (∀ st n, q = .fill → granOf as = some (st, n) → (∃ k, st = .core k) → t.full st n = true)
      ∧ s.keeps t (fun w => landPlaces p [] w ∨ storePlaces as w ∨ bit w)

/-- R156: a .fe load of a full granule reads in every lane of its word that names the granule; a .fe.clr load does and clears the bit
once; a .fe store of an empty granule writes in every such lane and sets the bit once. While the bit is otherwise, nothing happens. -/
def fullEmptyWaitsRule : Prop :=
  ∀ (s : State) (id lane : Nat) (p : Pend) (as : List Acc) (h : Thread) (n : Nat) (a : Nat), mayLand s id lane p as h →
    granOf as = some (.core n, a) →
    let full := s.full (.core n) a
    let ls := (p.lanes.filter (fun l => match granOf l.2 with
      | some g => g.1 == .core n && g.2 / 16 == a / 16
      | none => false)).map (·.1)
    let accs (l : Nat) : List Acc := (p.lanes.find l).getD []
    let run := exec (.feWaitSatisfied id lane) s
    let bit (w : Place) : Prop := ∃ m, w = .full (.core n) m ∧ m / 16 = a / 16
    s.groupOk p ls = true → (∀ l ∈ ls, (s.thr p.ref l).isSome ∧ ((accs l).map (·.k)).Nodup) →
    (∀ old, p.kind = .load .fe old → if full = true then ∃ t, run = .next t ∧ (∀ l ∈ ls, landed s t p l (accs l)) ∧ lanesLeft s t p ls
        ∧ s.keeps t (landPlaces p ls) else run = .next s)
    ∧ (∀ old, p.kind = .load .feClr old → if full = true then ∃ t, run = .next t ∧ (∀ l ∈ ls, landed s t p l (accs l)) ∧ lanesLeft s t p ls
        ∧ t.full (.core n) a = false ∧ s.keeps t (fun w => landPlaces p ls w ∨ bit w) else run = .next s)
    ∧ (∀ cov, p.kind = .store .fe cov → plainAccs s (ls.flatMap accs) → coverOk cov (ls.flatMap accs) → if full = true then run = .next s else ∃ t, run = .next t
        ∧ storedAll t (ls.flatMap accs) ∧ lanesLeft s t p ls ∧ t.full (.core n) a = true
        ∧ s.keeps t (fun w => landPlaces p [] w ∨ storePlaces (ls.flatMap accs) w ∨ bit w))

/-- The statements `scratchpadLoadsIssueRule`, `scratchpadStoresIssueRule`, `scratchpadSpacesRule`, `scratchpadAddressFaultsRule` together. -/
def Obligations.ScratchpadWordsIssue : Prop := scratchpadLoadsIssueRule ∧ scratchpadStoresIssueRule ∧ scratchpadSpacesRule ∧ scratchpadAddressFaultsRule

/-- The statements `loadsLandRule`, `storesArePerformedRule`, `fullEmptyWaitsRule` together. -/
def Obligations.ScratchpadAccessesArePerformed : Prop := loadsLandRule ∧ storesArePerformedRule ∧ fullEmptyWaitsRule

/-! ## Bulk copies (CLASS 0x8) -/

/-- An event ends the wait of a path (R102): its word issues again and passes. -/
def endsWait (s : State) (p : PathRef) (o : Out) : Prop :=
  ∃ t q w, s.slot (pathCoh p) p.isB = some q ∧ q.wait = some w ∧ o = .next t
    ∧ t.slot (pathCoh p) p.isB = some { q with wait := some { w with released := true } } ∧ s.keeps t (· = .slot (pathCoh p) p.isB)

/-- The word may take a bulk slot of its core now (R101): one is free for it, and no older waiter may take one. -/
def slotOpen (s : State) (x : Ctx) : Prop :=
  s.slotsFree x.blk.coreId x.blk.isHandler ≠ 0 ∧ ∀ p ∈ s.slotLine x.blk.coreId, p.1 < x.ticket s → s.slotTakes x.blk.coreId p.2 = false

/-- The traffic class of a copy (R103). -/
def copyClass (x : Ctx) (spl : Option W64) : Nat :=
  match spl with
  | none => x.grid.lrec.tc
  | some v => if bitsAt v.toNat 59 1 = 1 then bitsAt v.toNat 56 3 else if x.blk.isHandler then 6 else x.grid.lrec.tc

/-- A copy or fill issues (R112 passed): an empty one is complete; another is in flight with all its bytes still to land, its bytes are
counted on its objects before the next word, and it joins the open group. -/
def copyIssues (s : State) (x : Ctx) (c : Ctl) (o : Out) (r : BulkReq) : Prop :=
  let n := r.box.x * r.box.y * r.box.z * (x.tans.length + 1)
  s.reqCode x r x.tans = none →
  if n = 0 ∨ r.cores = some 0#64 then
    ∃ t, o = .next t ∧ t.passed x c .none ∧ s.keeps t x.moved
  else ∃ t q, let objs := s.reqObjs x r
    o = .next t ∧ t.copies = s.copies ++ [q] ∧ t.nid = s.nid + 1 ∧ t.counted1 x c ∧ t.passedWith x c .none (x.path.ops ⊆ ·)
    ∧ (q.id = s.nid ∧ q.blk = x.ref.blk ∧ q.coh = x.ref.coh ∧ q.grid = x.blk.grid ∧ q.slot = c.set ∧ q.fill = r.fill ∧ q.empty = r.empty
      ∧ q.out = r.out ∧ q.va = r.va ∧ q.box = r.box ∧ q.tans = x.tans ∧ q.total = n ∧ q.done = 0 ∧ q.susp = none ∧ q.objs = objs
      ∧ q.sps = x.reqEnds r ∧ q.pasid = x.grid.pasid ∧ q.tc = copyClass x r.spl)
    ∧ (∀ p ∈ objs, t.objAt p.1 p.2 = { s.objAt p.1 p.2 with pend := (s.objAt p.1 p.2).pend + n })
    ∧ (t.coh x.ref).map (·.openg) = some (x.coh.openg ++ [q.id])
    ∧ (t.coh x.ref).map (fun k => { k.bare with openg := [] }) = some { x.coh.bare with openg := [] } ∧ t.tlb = s.tlb
    ∧ s.keeps t (fun p => x.moved p ∨ x.flight c p ∨ p = .copies ∨ p = .coh x.ref ∨ p = .xlat ∨ (∃ r l, p = .resv r l)
      ∨ ∃ q ∈ objs, (∃ n, q.1 = .core n ∧ p = .objs n) ∨ ∃ a, p = .byte q.1 a ∧ q.2 ≤ a ∧ a < q.2 + 16)

/-- R113, R114, R115, R99, R101, R103, R110: what BCP, BCPM, BFILL and BFILL.empty ask for, from the registers their fields name, once for the
cohort; and what becomes of it when a slot is free. -/
def bulkCopiesIssueRule : Prop :=
  ∀ (s : State) (x : Ctx) (c : Ctl) (d b : Sys2Proof.SNum) (a n o : Src), s.issues x c → slotOpen s x →
    let S (k : Nat) : W64 := x.coh.sreg k
    let A := x.sca s.clk c.lit a
    let O : Option W64 := if o = .special 0x0D#5 then none else some (x.sca s.clk c.lit o)
    let one (v : W64) : Box := ⟨v.toNat, 1, 1, 0#64, 0#64, 0#64, 0#64⟩
    let group (k : Nat) : Box := ⟨(S k).toNat % 2 ^ 32, (S k).toNat / 2 ^ 32 % 2 ^ 16, (S k).toNat / 2 ^ 48 % 2 ^ 16, S (k + 1), S (k + 2), S (k + 3), S (k + 4)⟩
    copyIssues s x c (exec (.bcp c false false d a n o) s) ⟨some (S d.toNat), none, A, false, none, false, one (x.sca s.clk c.lit n), O⟩
    ∧ copyIssues s x c (exec (.bcp c true false d a n o) s) ⟨some A, none, S d.toNat, true, none, false, one (x.sca s.clk c.lit n), O⟩
    ∧ copyIssues s x c (exec (.bcp c false true d a (.s b) o) s) ⟨some (S d.toNat), none, A, false, none, false, group b.toNat, O⟩
    ∧ copyIssues s x c (exec (.bcp c true true d a (.s b) o) s) ⟨some A, none, S d.toNat, true, none, false, group b.toNat, O⟩
    ∧ copyIssues s x c (exec (.bcpm c false d a b o) s) ⟨some (S d.toNat), some (S (b.toNat + 1)), A, false, none, false, one (S b.toNat), O⟩
    ∧ copyIssues s x c (exec (.bcpm c true d a b o) s) ⟨some (S d.toNat), some (S (b.toNat + 5)), A, false, none, false, group b.toNat, O⟩
    ∧ copyIssues s x c (exec (.bfill c false d a n o) s)
        ⟨some (S d.toNat), none, S d.toNat, false, some (A.setWidth 32), false, one (x.sca s.clk c.lit n), O⟩
    ∧ copyIssues s x c (exec (.bfill c true d a n o) s) ⟨none, none, S d.toNat, true, some (A.setWidth 32), false, one (x.sca s.clk c.lit n), O⟩
    ∧ copyIssues s x c (exec (.bfillEmpty c d n o) s) ⟨some (S d.toNat), none, 0#64, false, some 0#32, true, one (x.sca s.clk c.lit n), O⟩

/-- R112: the first check that fails decides the code of the protection fault, FLANE holds EXEC, and nothing is issued. R101: without a slot
the word waits; its number places it behind all that wait already, and a wait that goes on keeps its own. -/
def bulkFaultsAndSlotsRule : Prop :=
  ∀ (s : State) (x : Ctx) (c : Ctl) (d : Sys2Proof.SNum) (a n o : Src), s.issues x c →
    let r : BulkReq := ⟨some (x.coh.sreg d.toNat), none, x.sca s.clk c.lit a, false, none, false, ⟨(x.sca s.clk c.lit n).toNat, 1, 1, 0#64, 0#64, 0#64, 0#64⟩,
      if o = .special 0x0D#5 then none else some (x.sca s.clk c.lit o)⟩
    let v := (x.coh.sreg d.toNat).toNat
    let run := exec (.bcp c false false d a n o) s
    let obj (f : Nat → Prop) : Prop := ∃ w, r.obj = some w ∧ f w.toNat
    let shape (w : Nat) : Prop := bitsAt w 62 2 = 3 ∨ bitsAt w 60 2 ≠ 0 ∨ bitsAt w 32 21 ≠ 0 ∨ (bitsAt w 62 2 = 1 ∧ 0xFFFFFF < w % 2 ^ 32)
    let class_ : Prop := bitsAt v 59 1 = 1 ∧ (bitsAt v 56 3 = 7 ∨ (bitsAt v 56 3 = 6 ∧ x.blk.isHandler = false))
    let home (w : Nat) : Prop := bitsAt w 62 2 = 2 ∨ w % 2 ^ 32 % 16 ≠ 0
    let faults (code : Nat) : Prop := run = .next (s.trapped x (Fz.of 0x02 code x.exec))
    (slotOpen s x →
      (shape v ∨ obj shape → faults 0x22)
      ∧ (¬ (shape v ∨ obj shape) → obj home → faults 0x23)
      ∧ (¬ (shape v ∨ obj shape) → ¬ obj home → class_ → faults 0x24)
      ∧ (¬ (shape v ∨ obj shape) → ¬ obj home → ¬ class_ → 0xFFFFFFFF < (x.sca s.clk c.lit n).toNat → faults 0x25))
    ∧ (s.slotsFree x.blk.coreId x.blk.isHandler = 0 →
      waitsNow s x run .slot (x.ticket s) (· = .names) ∧ (∃ t, run = .next t ∧ x.ticket s < t.nid)
      ∧ ((∃ w, x.path.wait = some w ∧ w.kind = .slot ∧ x.ticket s = w.num) ∨ x.ticket s = s.nid))

/-- The store exists: a handler's own is there as long as its block. -/
def isThere (s : State) (st : Store) : Prop := ∀ b, st = .hblk b → (s.block b).isSome

/-- The step of R106 on an object. -/
def objStep (o q : Obj) : Prop :=
  if o.exp ≠ 0 ∧ o.arr = o.exp ∧ o.pend = 0 then q = { o with phase := !o.phase, arr := 0 } else q = o

/-- R99, R100, R108, R113, R115, R123, log entry 17 (the order and grouping of landing, which the spec leaves open): the next piece of a
copy lands at its destination, in every core of a BCPM, is subtracted from its objects, and sets or, with .empty, clears the full-empty
bits; with the last byte the copy ends. A fault at the main-memory end suspends it. -/
def copiesLandRule : Prop :=
  ∀ (s s1 : State) (id : Nat) (c : CopyT) (h : Thread) (l pa : Nat), s.copyT id = some c → s.copyGoes c = true → c.done < c.total →
    c.box.bytes ≠ 0 → s.thr ⟨c.blk, c.coh⟩ l = some h →
    let p := c.pos c.done
    let n := c.pieceLen p 1
    let mem := c.out || c.fill.isNone
    let walk := s.translate (xunit c.core) c.pasid (c.memAddr p) (if c.out then .copyOut else .copyIn)
    let place (e : SpEnd) : Store × Nat := e.place (c.spAddr e p)
    let data (i : Nat) : Byte := match c.fill, c.sps with
      | some w, _ => if p.k = 0 then w.extractLsb' (8 * ((p.x + i) % 4)) 8 else 0#8
      | none, e :: _ => if c.out then s1.byte (place e).1 ((place e).2 + i) else s1.byte .phys (pa + i)
      | none, [] => 0#8
    let run := exec (.copyByteLands id 1) s
    (∀ f, mem = true → walk.2 = .error f → c.hnd = false → ∃ t, run = .next t ∧ (∀ o ∈ c.objs, (∃ k, o.1 = .core k) → t.objAt o.1 o.2 = walk.1.objAt o.1 o.2)
        ∧ (t.copyT id).bind (·.susp) = some ⟨f.kind, f.code, f.level, 0, c.isB, c.hdr, c.memAddr p, false, false, []⟩
        ∧ (t.copyT id).map (·.done) = some c.done)
    ∧ ((if mem then walk = (s1, .ok pa) else s1 = s) → s1.errIn = [] → (∀ q ∈ s1.blocks, q.2.logr = none) → s1.recording c.grid = false →
      (c.fill.isNone = true → c.sps ≠ []) → (c.out = false → ∀ e ∈ c.sps, isThere s1 (place e).1 ∧ (place e).1 ≠ .phys) →
      (c.sps.map (fun e => (place e).1)).Nodup → c.objs.Nodup →
      (c.out = false → ∀ e ∈ c.sps, s1.copyReach c (place e).1 (place e).2 n = true) →
      (∀ o ∈ c.objs, s1.copyReach c o.1 o.2 16 = true ∧ isThere s1 o.1 ∧ o.1 ≠ .phys ∧ o.2 % 16 = 0 ∧ ∀ e ∈ c.sps, c.out = false → o ≠ ((place e).1, (place e).2 / 16 * 16)) →
      (c.objs.map (fun o => o.1)).Nodup →
      1 ≤ n ∧ ∃ t, run = .next t
        ∧ (if c.out then ∀ i < n, t.byte .phys (pa + i) = data i
          else c.empty = false → ∀ e ∈ c.sps, ∀ i < n, t.byte (place e).1 ((place e).2 + i) = data i)
        ∧ (c.out = false → ∀ e ∈ c.sps, ∀ k, (place e).1 = .core k → t.full (place e).1 (place e).2 =
            (!c.empty && (!c.laterIn e (c.done + n) ((c.spAddr e p).toNat / 16) || s1.full (place e).1 (place e).2)))
        ∧ (∀ o ∈ c.objs, objStep { s1.objAt o.1 o.2 with pend := (s1.objAt o.1 o.2).pend - n } (t.objAt o.1 o.2))
        ∧ (if c.total ≤ c.done + n then
            t.copyT id = none ∧ ∀ k, c.slot = some k → t.ctrAt ⟨c.blk, c.coh⟩ k.toNat =
              if s1.ctrAt ⟨c.blk, c.coh⟩ k.toNat = 0#6 then 0#6 else s1.ctrAt ⟨c.blk, c.coh⟩ k.toNat - 1#6
          else ∃ torn dirty, t.copyT id = some { c with done := c.done + n, torn := torn, dirty := dirty })
        ∧ t.tlb = s1.tlb
        ∧ s1.keeps t (fun w => w = .copies ∨ w = .xlat ∨ (∃ k, c.slot = some k ∧ w = .ctr ⟨c.blk, c.coh⟩ k.toNat) ∨ (∃ r l, w = .resv r l) ∨ (∃ k, w = .objs k)
          ∨ (∃ o ∈ c.objs, ∃ a, w = .byte o.1 a ∧ o.2 ≤ a ∧ a < o.2 + 16)
          ∨ (c.out = true ∧ ((∃ a, w = .byte .phys a ∧ pa ≤ a ∧ a < pa + n) ∨ ∃ g ∈ granules 64 pa n, w = .psn .phys g))
          ∨ (c.out = false ∧ ∃ e ∈ c.sps, (∃ a, w = .byte (place e).1 a ∧ (place e).2 ≤ a ∧ a < (place e).2 + n)
              ∨ (∃ g ∈ granules (place e).1.pg (place e).2 n, w = .psn (place e).1 g) ∨ ∃ a, w = .full (place e).1 a ∧ a / 16 = (place e).2 / 16)))

/-- R116: BPREF takes a slot and leaves the walks of its pages in flight; each walk caches its leaf, a page that would fault is skipped; with
the last the counter is one less. A count of zero completes at issue. -/
def prefetchesWalkTheirPagesRule : Prop :=
  (∀ (s : State) (x : Ctx) (c : Ctl) (a n : Src), s.issues x c → slotOpen s x →
    let va := (x.sca s.clk c.lit a).toNat
    let cnt := (x.sca s.clk c.lit n).toNat
    let run := exec (.bpref c a n) s
    if cnt = 0 then ∃ t, run = .next t ∧ t.passed x c .none ∧ s.keeps t x.moved
    else ∃ q, s.asyncDone x c run q (fun _ => False)
      ∧ q.kind = .pref [BitVec.ofNat 64 (va / 65536 * 65536), BitVec.ofNat 64 ((va + cnt - 1) / 65536 - va / 65536 + 1)])
  ∧ ∀ (s : State) (id : Nat) (p : Pend) (b : Block) (g : Grid) (va n : W64) (l : Nat) (h : Thread), s.pendOf id = some p →
    p.kind = .pref [va, n] → s.block p.blk = some b → s.grid b.grid = some g → p.smp = none → s.thr p.ref l = some h →
    s.xlatHeld (xunit b.coreId) g.pasid va .pref = false →
    let w := s.translate (xunit b.coreId) g.pasid va .pref
    ∃ t, exec (.bprefWalkEnd id) s = .next t ∧ t.tlb = (match w.2 with
        | .ok _ => w.1.tlb
        | .error _ => s.tlb) ∧ t.phys = w.1.phys
      ∧ if n.toNat ≤ 1 then t.pendOf id = none ∧ ∀ k, p.slot = some k → t.ctrAt p.ref k.toNat =
          (if s.ctrAt p.ref k.toNat = 0#6 then 0#6 else s.ctrAt p.ref k.toNat - 1#6)
        else (t.pendOf id).map (·.kind) = some (.pref [va + 65536#64, n - 1#64])

/-- R105, R106, R117, R118, R119: BOBJ sets its object up once PEND is 0, BARV adds one arrival unless the phase has all of them or expects
none, BWAIT goes on once PHASE differs from its operand; each update ends with the step of R106. Otherwise the word waits. -/
def barrierObjectsRule : Prop :=
  ∀ (s : State) (x : Ctx) (c : Ctl) (o a : Src) (p : Store × Nat), s.issues x c →
    let v := x.sca s.clk c.lit o
    let A := x.sca s.clk c.lit a
    let ob := s.objAt p.1 p.2
    let l := locOf v
    l.bad = false → l.sp ≠ 2 → l.off % 16 = 0 → s.objPlace x v = some p →
    let upd (run : Out) (q : Obj) : Prop := ∃ t, run = .next t ∧ t.passed x c .none ∧ objStep q (t.objAt p.1 p.2)
      ∧ s.keeps t (fun w => x.moved w ∨ (∃ r l, w = .resv r l) ∨ (∃ n, p.1 = .core n ∧ w = .objs n) ∨ ∃ k, w = .byte p.1 k ∧ p.2 ≤ k ∧ k < p.2 + 16)
    (1 ≤ A.toNat → A.toNat ≤ 65535 → if ob.pend = 0 then upd (exec (.bobj c o a) s) ⟨0, A.toNat, 0, false, false, l.scope⟩
      else waitsNow s x (exec (.bobj c o a) s) .bobj 0 (fun _ => False))
    ∧ (if s.accessesDone x.ref false = false then waitsNow s x (exec (.barv c o) s) .order 0 (fun _ => False)
      else if ob.exp ≠ 0 ∧ ob.arr ≠ ob.exp then upd (exec (.barv c o) s) { ob with arr := (ob.arr + 1) % 2 ^ 16 }
      else waitsNow s x (exec (.barv c o) s) .barv 0 (fun _ => False))
    ∧ (if ob.phase ≠ A.getLsbD 0 ∨ (∃ w, x.path.wait = some w ∧ w.kind = .bwait ∧ w.released = true) then
        ∃ t, exec (.bwait c o a) s = .next t ∧ t.passed x c .none ∧ s.keeps t x.moved
      else waitsNow s x (exec (.bwait c o a) s) .bwait 0 (fun _ => False))

/-- R110, R120, R121: BCOMMIT closes the open group into the next batch unless 32 are incomplete; BWAITN goes on when no more than its
operand are; BQUERY leaves a read in flight, which samples when it lands. -/
def batchesCommitAndWaitRule : Prop :=
  ∀ (s : State) (x : Ctx) (c : Ctl) (n : Src) (d : Dst), s.issues x c →
    let ended (b : List Nat) : Bool := b.all (fun i => !s.copies.any (fun q => q.id == i) && !s.pend.any (fun q => q.id == i))
    let inc := x.coh.batches.dropWhile ended
    let N := (x.sca s.clk c.lit n).toNat
    (if 32 ≤ inc.length then waitsNow s x (exec (.bcommit c) s) .bcommit 0 (fun _ => False)
      else ∃ t, exec (.bcommit c) s = .next t ∧ t.passed x c .none ∧ (t.coh x.ref).map (·.batches) = some (inc ++ [x.coh.openg])
        ∧ (t.coh x.ref).map (·.openg) = some [] ∧ s.keeps t (fun p => x.moved p ∨ p = .coh x.ref)
        ∧ (t.coh x.ref).map (fun k => { k.bare with openg := [], batches := [] }) = some { x.coh.bare with openg := [], batches := [] })
    ∧ (if inc.length ≤ N ∨ (∃ w, x.path.wait = some w ∧ w.kind = .bwaitn ∧ w.released = true) then
        ∃ t, exec (.bwaitn c n) s = .next t ∧ t.passed x c .none ∧ s.keeps t x.moved
      else waitsNow s x (exec (.bwaitn c n) s) .bwaitn N (fun _ => False))
    ∧ (∀ v, v = x.sca s.clk c.lit n → (locOf v).bad = false → (locOf v).sp ≠ 2 → (locOf v).off % 16 = 0 → (s.objPlace x v).isSome →
        ∃ q, s.asyncDone x c (exec (.bquery c d (.obj n)) s) q (fun _ => False) ∧ q.kind = .bquery 0 v ∧ q.dst = some d)
    ∧ (∃ q, s.asyncDone x c (exec (.bquery c d .batches) s) q (fun _ => False) ∧ q.kind = .bquery 1 0#64 ∧ q.dst = some d)
    ∧ ∃ q, s.asyncDone x c (exec (.bquery c d .slots) s) q (fun _ => False) ∧ q.kind = .bquery 2 0#64 ∧ q.dst = some d

/-- R101, R102, R118 to R120: the waits of the bulk words end when what they wait for holds: a slot that the oldest waiter may take, an
object as it is waited for, fewer incomplete batches. -/
def bulkWaitsEndRule : Prop :=
  ∀ (s : State) (p : PathRef) (w : PWait), s.waiting p = some w →
    (∀ core n, (n, p) ∈ s.slotLine core → s.slotTakes core p = true →
      (∀ q ∈ s.slotLine core, s.slotTakes core q.2 = true → n < q.1 ∨ q = (n, p)) → endsWait s p (exec (.bulkSlotGrant core) s))
    ∧ (∀ x, s.pathCtx p = some x → s.objReady x = true → (w.kind = .bobj ∨ w.kind = .barv ∨ w.kind = .bwait) →
        endsWait s p (exec (.bwaitReturn p) s))
    ∧ (∀ k, s.coh (pathCoh p) = some k → w.kind = .bcommit → (s.incomplete k).length < 32 → endsWait s p (exec (.bcommitRoom p) s))
    ∧ (∀ k, s.coh (pathCoh p) = some k → w.kind = .bwaitn → (s.incomplete k).length ≤ w.num → endsWait s p (exec (.bwaitnReturn p) s))

/-- The statements `bulkCopiesIssueRule`, `bulkFaultsAndSlotsRule` together. -/
def Obligations.BulkWordsIssue : Prop := bulkCopiesIssueRule ∧ bulkFaultsAndSlotsRule

/-- The statements `copiesLandRule`, `prefetchesWalkTheirPagesRule` together. -/
def Obligations.CopiesAndPrefetchesRun : Prop := copiesLandRule ∧ prefetchesWalkTheirPagesRule

/-- The statements `barrierObjectsRule`, `batchesCommitAndWaitRule`, `bulkWaitsEndRule` together. -/
def Obligations.ObjectsAndBatches : Prop := barrierObjectsRule ∧ batchesCommitAndWaitRule ∧ bulkWaitsEndRule

/-! ## Turret words (CLASS 0x9) -/

/-- The address of a lane (R127): its index is accepted (R74) and not poisoned. -/
def idxAddr (s : State) (x : Ctx) (c : Ctl) (mode : IdxMode) (z : Nat) (a b : Src) (l : Nat) (A : W64) : Prop :=
  let base := x.sca s.clk c.lit a
  let e := x.el s.clk c.lit (mode == .a64) l b
  e.accepted (ityAccepts .n32) = true ∧ e.psn = false ∧ match mode with
    | .a64 => (∀ n, b = .v n → (x.el s.clk c.lit false l (.v (n + 1#8))).accepted (ityAccepts .n32) = true) ∧ A = base + e.val
    | .sx => A = base + (e.val.setWidth 32).signExtend 64 * BitVec.ofNat 64 z
    | .uns => A = base + BitVec.ofNat 64 (e.val.toNat % 2 ^ 32) * BitVec.ofNat 64 z

/-- Stage 2 of a word on main memory (R128), from the state `u` on: the lanes of EXEC are translated in ascending LANE; those that translate
are in flight, and the word has counted. Where one of them lies in host memory or in another package, the word stands in a blocked wait for
its reply. When all translate, the word has issued. Else the cohort freezes at the word: kind, code and address of the lowest failing lane
and of each, FLANE the failing lanes, PMASK those sent, PIDX their number. -/
def sentOrFrozen (s : State) (x : Ctx) (c : Ctl) (o : Out) (u : State) (pc : Bool) (ac : Access) (ks : TLane → List Nat) (zs : List Nat)
    (L : Nat → TLane) (isOp : Pend → Prop) : Prop :=
  let R := sendLanes x pc 0#32 ac ks (x.lanes.map (fun l => (l, L l))) u
  let op (q : Pend) (more : Bool) : Prop := q.lanes = withZeros zs R.lanes ∧ q.more = more ∧ q.exec = x.exec ∧ isOp q
    ∧ q.id = R.s.nid ∧ q.ref = x.ref ∧ q.isB = x.isB ∧ q.grid = x.blk.grid ∧ q.slot = c.set
  let counts (t : State) : Prop := ∀ n, c.set = some n → t.ctrAt x.ref n.toNat = x.coh.ctr n.toNat + 1#6
  let ops (q : Pend) (ids : List Nat) : Prop := x.path.ops ⊆ ids ∧ (q.kind.demotes = true → q.id ∈ ids)
  let w (rel : Bool) : PWait := ⟨.reply, rel, R.s.clk, R.s.nid, []⟩
  if R.lanes.any (fun l => accsFar l.2) then
    ∃ t q, o = .next t ∧ t.pend = R.s.pend ++ [q] ∧ op q true ∧ counts t ∧ waitsWith R.s x o (w false) (ops q) (x.flight c)
  else if R.fails = [] then ∃ q, R.s.asyncDone x c o q (fun _ => False) ∧ op q false
  else (s.die x.blk.die).smpsize = 0 → (u.die x.blk.die).smpsize = 0 → ∃ t v q, o = .next t ∧ v.pend = R.s.pend ++ [q] ∧ op q true
    ∧ counts v ∧ (∃ ids, v.slot x.ref x.isB = some { x.path with wait := some (w true), ops := ids } ∧ ops q ids)
    ∧ R.s.keeps v (fun p => x.moved p ∨ x.flight c p)
    ∧ ∀ l f va r, R.fails = (l, f, va) :: r →
        let fl := maskOf (AMap.keys R.fails)
        let pm := x.exec &&& ~~~fl
        t = v.freezeCoh x.ref ⟨f.kind, f.code, f.level, (x.path.cl.map (·.wi)).getD 0, x.isB, x.path.pc, va, false, false,
            R.fails.map (fun k => (k.1, k.2.1.code, k.2.1.level, k.2.2))⟩ fl pm
          (BitVec.ofNat 32 ((List.range 32).countP (fun i => pm.getLsbD i)))

/-- A word that issues again for the lanes that it has not sent (R60, R128): they join the operation `q0` that is in flight already, nothing
counts again, and the word has issued when all are sent. -/
def resent (s : State) (x : Ctx) (c : Ctl) (o : Out) (q0 : Pend) (pc : Bool) (ac : Access) (ks : TLane → List Nat) (zs : List Nat)
    (L : Nat → TLane) : Prop :=
  let R := sendLanes x pc q0.lost ac ks ((x.unsent s).map (fun l => (l, L l))) s
  let lanes := (withZeros zs R.lanes).foldl (fun m l => AMap.set m l.1 l.2) q0.lanes
  R.fails = [] → R.lanes.any (fun l => accsFar l.2) = false → lanes ≠ [] →
  ∃ t k, o = .next t ∧ t.pendOf q0.id = some { q0 with kind := k, lanes := lanes, more := false, lost := 0#32 }
    ∧ (k = q0.kind ∨ ∃ tags, k = .scata tags) ∧ (∀ id, id ≠ q0.id → t.pendOf id = s.pendOf id) ∧ t.passed x c .none
    ∧ R.s.keeps t (fun p => x.moved p ∨ p = .pend)

/-- A word on main memory whose lanes pass stage 1: it sends them, or, when it has sent some already, the others. -/
def sends (s : State) (x : Ctx) (c : Ctl) (o : Out) (pc : Bool) (ac : Access) (ks : TLane → List Nat) (zs : List Nat) (L : Nat → TLane)
    (isOp : Pend → Prop) : Prop :=
  (s.wordOp x = none → sentOrFrozen s x c o s pc ac ks zs L isOp) ∧ ∀ q0, s.wordOp x = some q0 → resent s x c o q0 pc ac ks zs L

/-- R128, R130, R132, R133, R136, R139: GATH, SCAT, SCATA and LDSPL, whose lanes of EXEC pass stage 1, are sent, or freeze the cohort behind
the lanes that could be sent; a word that waited for far replies, or was retried, sends the others. SCATA moves tangents of floating-point values only, LDSPL checks the tiles of an 8 × 8 F32 register. -/
def turretWordsIssueRule : Prop :=
  ∀ (s : State) (x : Ctx) (c : Ctl) (mode : IdxMode) (fmt : Tag) (d : Dst) (m : MNum) (a b v : Src) (A : Nat → W64) (e : Nat → El),
    s.issues x c → s.errIn = [] → x.coh.rinc = false →
    let ok (l z : Nat) : Prop := idxAddr s x c mode z a b l (A l) ∧ (A l).toNat % z = 0
    let reads (z : Nat) (l : Nat) : TLane := ⟨A l, z, false, 0#64, .raw, [], 0#64⟩
    let zv (l : Nat) : Nat := if (x.rd s c l v).tag = some .f64 then 8 else 4
    let writes (l : Nat) : TLane := ⟨A l, zv l, false, (e l).val, (e l).moved v, (e l).tan, 0#64⟩
    let value (l : Nat) : Prop := (if zv l = 8 then x.elFmt s.clk c.lit .f64 l v = some (e l) else e l = x.rd s c l v)
      ∧ (e l).poisoned x.tans = false ∧ ok l (zv l)
    let sum (t : Tag) : Prop := t = .i32 ∨ t = .n32 ∨ t = .raw ∨ t = .f32 ∨ t = .f64
    ((∀ l ∈ x.unsent s, ok l (if fmt = .f64 then 8 else 4)) →
      sends s x c (exec (.gath c mode fmt d a b) s) false .read (fun _ => x.tans) [] (reads (if fmt = .f64 then 8 else 4))
        (fun q => q.kind = .gath ∧ q.dst = some d ∧ q.tag = fmt))
    ∧ ((∀ l ∈ x.unsent s, value l) → sends s x c (exec (.scat c mode a b v) s) false .write (fun _ => x.tans) [] writes (fun q => q.kind = .scat))
    ∧ ((∀ l ∈ x.unsent s, value l ∧ sum ((e l).moved v)) →
      sends s x c (exec (.scata c mode a b v) s) false .atomic (fun t => if t.tag.isFp then x.tans else []) [] writes
        (fun q => ∃ tags, q.kind = .scata tags ∧ ∀ l ∈ x.unsent s, tags.find l = some ((e l).moved v)))
    ∧ ((∀ l ∈ x.unsent s, ok l 128 ∧ ∃ th, s.thr x.ref l = some th ∧ s.laneTiles x.ref l th m (splReg x.blk.cfg.t x.tans (th.mreg m.toNat)) ≤ x.blk.cfg.mtb) →
      sends s x c (exec (.ldspl c mode m a b) s) false .read (fun _ => x.tans) [] (reads 128)
        (fun q => q.kind = .ldspl ∧ q.dst = some (.m m)))

/-- R131, R101, R110: GATHS takes a slot, counts the bytes of all its lanes and tangents on its object before they are sent, joins the open
group, and sends its lanes; each will land at the locator's offset plus z times its LANE. -/
def gathsIssuesRule : Prop :=
  ∀ (s : State) (x : Ctx) (c : Ctl) (w sx : Bool) (d : Sys2Proof.SNum) (a b o : Src) (A : Nat → W64), s.issues x c → s.errIn = [] →
    x.coh.rinc = false →
    let z := if w then 8 else 4
    let v := x.coh.sreg d.toNat
    let ob : Option W64 := if o = .special 0x0D#5 then none else some (x.sca s.clk c.lit o)
    let add := z * x.lanes.length * (1 + x.tans.length)
    let L (l : Nat) : TLane := ⟨A l, z, false, 0#64, .raw, [], 0#64⟩
    (∀ l ∈ x.unsent s, idxAddr s x c (if sx then .sx else .uns) z a b l (A l) ∧ (A l).toNat % z = 0) →
    (∀ q0, s.wordOp x = some q0 → resent s x c (exec (.gaths c w sx d a b o) s) q0 false .read (fun _ => x.tans) [] L) ∧
    (s.wordOp x = none → slotOpen s x → s.gathsChk x v ob z add = none →
    let pl := ob.bind (fun q => s.objPlace x q)
    let u := (match pl with
      | some q => s.objUpd q (fun k => { k with pend := k.pend + add })
      | none => s).joinGroup x.ref s.nid
    sentOrFrozen s x c (exec (.gaths c w sx d a b o) s) u false .read (fun _ => x.tans) [] L
      (fun q => ∃ dst, q.kind = .gaths dst pl ∧ ∀ l ∈ x.lanes, s.gathsDst x (locOf v) z l = some (dst.get l []) ∧
        ((locOf v).sp = 0 → (dst.get l []).head?.map (fun k => (k.store, k.addr)) = some (x.own.1, x.own.2 + ((locOf v).off + z * l)))))

/-- R137, R138: HACC with accepted keys and values and a permitted table inside the block's scratchpad leaves one step for each lane of EXEC
in flight, with its key, its value and, for F32, its tangents; the overflow mask is written with the last step. -/
def haccIssuesRule : Prop :=
  ∀ (s : State) (x : Ctx) (c : Ctl) (d : Sys2Proof.SNum) (k : KNum) (key v : Src), s.issues x c → s.errIn = [] → noWatch s x →
    let r := (x.coh.kreg k.toNat).toNat
    let base := r % 2 ^ 32
    let size := bitsAt r 32 27
    let K (l : Nat) : El := x.rd s c l key
    let V (l : Nat) : El := x.rd s c l v
    let tag (l : Nat) : Tag := (V l).moved v
    let ks (l : Nat) : List Nat := if tag l = .f32 then x.tans else []
    (∀ l ∈ x.lanes, (K l).accepted (ityAccepts .n32) = true ∧ (K l).psn = false ∧ (tag l = .i32 ∨ tag l = .n32 ∨ tag l = .raw ∨ tag l = .f32)
      ∧ (V l).poisoned (ks l) = false ∧ ∀ i ∈ 0 :: ks l, base + i * x.grid.lrec.sdstr.toNat + size ≤ x.blk.cfg.sb) →
    bitsAt r 59 5 = 0 → base % 8 = 0 → (∃ j < 16, size = 8 * 2 ^ j) →
    ∃ q t, s.asyncDone x c (exec (.hacc c d k key v) s) q (fun _ => False) ∧ q.kind = .hacc t (x.lanes.map (fun l => (l, tag l))) 0#32
      ∧ q.dst = some (.s d) ∧ t.store = x.own.1 ∧ t.base = x.own.2 + base ∧ t.n = size / 8 ∧ t.str = x.grid.lrec.sdstr.toNat
      ∧ AMap.keys q.lanes = x.lanes ∧ ∀ l ∈ x.lanes, ((q.lanes.get l []).map (fun a => (a.k, a.val, a.cmp))) =
          (0, (V l).val, (K l).val) :: (ks l).map (fun i => (i, (V l).t i, (K l).val))

/-- No grid records (R346, R350). -/
def noRecord (s : State) : Prop := ∀ g ∈ s.grids, g.2.recd = false

/-- R126, R130, R131, R135, R136, R139: a reply serves every lane of its word that names the element, as its own or a tangent's. GATH writes the lanes' registers; LDSPL
expands the line, NaN where it is malformed; GATHS lands its elements, subtracts them from its object and sets the full-empty bits. -/
def turretReadsLandRule : Prop :=
  ∀ (s : State) (id lane : Nat) (p : Pend) (as : List Acc) (h : Thread), mayLand s id lane p as h → noRecord s →
    let ls := p.sameElement lane
    let accs (l : Nat) : List Acc := (p.lanes.find l).getD []
    let run := exec (.turretLaneReply id lane) s
    s.groupOk p ls = true → (∀ l ∈ ls, l < 32 ∧ (s.thr p.ref l).isSome ∧ ((accs l).map (·.k)).Nodup) →
    (p.kind = .gath → ∃ t, run = .next t ∧ (∀ l ∈ ls, landed s t p l (accs l)) ∧ lanesLeft s t p ls ∧ s.keeps t (landPlaces p ls))
    ∧ (∀ d, p.kind = .ldspl → p.dst = some (.m d) → ∃ t, run = .next t ∧ lanesLeft s t p ls
        ∧ s.keeps t (fun w => landPlaces p [] w ∨ ∃ l ∈ ls, w = .m p.ref l d.toNat)
        ∧ ∀ l ∈ ls, ∀ a ∈ accs l, a.k = 0 → a.z = 128 →
          let m := t.mAt p.ref l d.toNat
          let line := s.readNat a.store a.addr 128
          let n (q : Nat) : Nat := (List.range q).countP (fun i => line.testBit i)
          let scale := bitsAt line 112 8
          let bad (f : Tag) : Prop := bitsAt line 104 8 ≠ n 64 ∨ 896 < n 64 * f.width ∨ bitsAt line 120 8 ≠ 0 ∨ bitsAt line 100 4 ≠ 0
          m.rows = 8 ∧ m.cols = 8 ∧ m.tag = .f32 ∧ m.psn = (accs l).any (fun a => s.poisoned a.store a.addr a.z)
          ∧ ∀ i < 8, ∀ j < 8, match splTag (bitsAt line 96 4) with
            | none => elemAt m i j = 0x7FC00000
            | some f => elemAt m i j = if bad f then 0x7FC00000 else if line.testBit (8 * i + j) = false then 0 else
                (Tag.pack .f32 .rne false false (if scale = 0xFF then .nan
                  else scaleVal (f.value false (bitsAt line (128 + f.width * n (8 * i + j)) f.width)) (scale - 127))).bits)
    ∧ (∀ dst obj, p.kind = .gaths dst obj → (AMap.keys dst).Nodup →
        let out (l : Nat) : List Acc := dst.get l []
        let outs := ls.flatMap out
        let sum := (outs.map (·.z)).sum
        0 < sum →
        (dst.flatMap (·.2)).Pairwise (fun a b => a.overlaps b = false) →
        (∀ q ∈ outs, isThere s q.store ∧ q.store ≠ .phys ∧ (q.z = 4 ∨ q.z = 8) ∧ s.accReach p q = true
          ∧ ∀ o, obj = some o → ∀ g ∈ granules 16 q.addr q.z, (q.store, 16 * g) ≠ o) →
        (∀ o, obj = some o → isThere s o.1 ∧ o.1 ≠ .phys ∧ o.2 % 16 = 0 ∧ sum ≤ (s.objAt o.1 o.2).pend) →
        (∀ l ∈ ls, (∀ a ∈ accs l, a.store = .phys ∧ 0 < a.z) ∧ (out l).map (fun q => (q.k, q.z)) = (accs l).map (fun a => (a.k, a.z))) →
        ∃ t, run = .next t ∧ lanesLeft s t p ls
        ∧ (∀ l ∈ ls, ∀ q ∈ out l, ∀ a ∈ accs l, a.k = q.k → t.readNat q.store q.addr q.z = s.readNat a.store a.addr a.z)
        ∧ (∀ o, obj = some o → objStep { s.objAt o.1 o.2 with pend := (s.objAt o.1 o.2).pend - sum } (t.objAt o.1 o.2))
        ∧ (∀ q ∈ outs, ∀ k, q.store = .core k → ∀ g ∈ granules 16 q.addr q.z,
            let later := dst.any (fun l => !ls.contains l.1 && !p.done.getLsbD l.1
              && l.2.any (fun b => b.store == q.store && (granules 16 b.addr b.z).contains g))
            t.full q.store (16 * g) = (!later || s.full q.store (16 * g)))
        ∧ s.keeps t (fun w => landPlaces p [] w ∨ storePlaces outs w ∨ (∃ k, w = .objs k) ∨ (∃ q ∈ outs, ∃ a, w = .full q.store a ∧ a / 16 ∈ granules 16 q.addr q.z)
          ∨ ∃ o, obj = some o ∧ ∃ a, w = .byte o.1 a ∧ o.2 ≤ a ∧ a < o.2 + 16))

/-- R132, R133, R134, R139: a lane of SCAT writes its elements; a lane of SCATA adds to each element in the format of its value, integers
modulo 2^32, floating point rounded to nearest. -/
def scattersArePerformedRule : Prop :=
  ∀ (s : State) (id lane : Nat) (p : Pend) (as : List Acc) (h : Thread), mayLand s id lane p as h → noRecord s → s.ordOk p lane as = true →
    plainAccs s as →
    let run := exec (.turretLaneReply id lane) s
    (p.kind = .scat → ∃ t, run = .next t ∧ storedAll t as ∧ lanesLeft s t p [lane] ∧ s.keeps t (fun w => landPlaces p [] w ∨ storePlaces as w))
    ∧ ∀ tags f, p.kind = .scata tags → tags.find lane = some f → ((∀ a ∈ as, s.poisoned a.store a.addr a.z = false)) →
      (∀ a ∈ as, if f = .f64 then a.z = 8 else a.z = 4) → ∃ t, run = .next t ∧ lanesLeft s t p [lane]
      ∧ s.keeps t (fun w => landPlaces p [] w ∨ storePlaces as w)
      ∧ ∀ a ∈ as,
        let old := s.readNat a.store a.addr a.z
        let b := a.val.toNat % 2 ^ (8 * a.z)
        t.readNat a.store a.addr a.z = if f = .f32 ∨ f = .f64 then ((fAdd .rne (f.value false old) (f.value false b)).pack f .rne).bits
          else if f.isFp then ((fAdd .rne (f.value false old) (f.value false b)).pack f .rne).bits % 2 ^ 32 else (old + b) % 2 ^ 32

/-- R137, R138: a lane's step of HACC: the first of at most eight slots from its hash on that holds its key takes the sum, the first empty
one before takes key and value; without one, or for the key 0xFFFFFFFF, the lane is set in the mask. The last step writes the mask. -/
def haccTakesItsStepsRule : Prop :=
  ∀ (s : State) (id lane : Nat) (p : Pend) (a : Acc) (h : Thread) (t : HTable) (tags : AMap Tag) (mask : W32) (d : Sys2Proof.SNum) (f : Tag) (j : Nat),
    mayLand s id lane p [a] h → noRecord s → s.ordOk p lane [a] = true → p.kind = .hacc t tags mask → p.dst = some (.s d) →
    tags.find lane = some f → (f = .i32 ∨ f = .n32 ∨ f = .raw ∨ f = .f32) → a.k = 0 → t.n = 2 ^ j → j < 16 → lane < 32 →
    isThere s t.store → s.objs t.store = [] →
    let k := a.cmp.toNat % 2 ^ 32
    let v := a.val.toNat % 2 ^ 32
    let hash := if j = 0 then 0 else k * 0x9E3779B9 % 2 ^ 32 / 2 ^ (32 - j)
    let slot (i : Nat) : Nat := t.base + 8 * ((hash + i) % 2 ^ j)
    let key (i : Nat) : Nat := s.readNat t.store (slot i) 4
    let hit := (List.range (min 8 (2 ^ j))).find? (fun i => key i == k || key i == 0xFFFFFFFF)
    ∃ u, exec (.turretLaneReply id lane) s = .next u ∧ lanesLeft s u p [lane] ∧
      let last : Prop := p.lanes = [(lane, [a])]
      let places (w : Place) : Prop := landPlaces { p with dst := none } [] w ∨ (last ∧ w = .s p.ref d.toNat)
      match (if k = 0xFFFFFFFF then none else hit) with
      | some i =>
        u.readNat t.store (slot i) 4 = k
        ∧ u.readNat t.store (slot i + 4) 4 = (if key i = k then
            (if f = .f32 then ((fAdd .rne (Tag.f32.value false (s.readNat t.store (slot i + 4) 4)) (Tag.f32.value false v)).pack .f32 .rne).bits
              else (s.readNat t.store (slot i + 4) 4 + v) % 2 ^ 32) else v)
        ∧ (last → u.sAt p.ref d.toNat = mask.setWidth 64)
        ∧ s.keeps u (fun w => places w ∨ (∃ r l, w = .resv r l) ∨ (∃ g, w = .psn t.store g)
            ∨ ∃ b, w = .byte t.store b ∧ slot i ≤ b ∧ b < slot i + 8)
      | none => (last → u.sAt p.ref d.toNat = (mask ||| (1#32 <<< lane)).setWidth 64) ∧ s.keeps u places

/-- The statements `turretWordsIssueRule`, `gathsIssuesRule`, `haccIssuesRule` together. -/
def Obligations.TurretWordsIssue : Prop := turretWordsIssueRule ∧ gathsIssuesRule ∧ haccIssuesRule

/-- The statements `turretReadsLandRule`, `scattersArePerformedRule`, `haccTakesItsStepsRule` together. -/
def Obligations.TurretOperationsRun : Prop := turretReadsLandRule ∧ scattersArePerformedRule ∧ haccTakesItsStepsRule

/-! ## Atomics (CLASS 0xA) -/

/-- What a lane of an atomic reads as its value (R257): integers of index tags, a floating-point format, or any bits. -/
def atOperand (s : State) (x : Ctx) (c : Ctl) (k : AVal) (w : Bool) (b : Src) (l : Nat) (e : El) : Prop :=
  match k with
  | .int => e = x.el s.clk c.lit w l b ∧ e.accepted (ityAccepts .n32) = true
      ∧ (w = true → ∀ n, b = .v n → (x.el s.clk c.lit false l (.v (n + 1#8))).accepted (ityAccepts .n32) = true)
  | .fp => x.elFmt s.clk c.lit (if w then .f64 else .f32) l b = some e
  | .bits => e = x.el s.clk c.lit w l b

/-- The address of a lane (R257): a pair in main memory, bits [31:0] in a scratchpad. -/
def atAddress (s : State) (x : Ctx) (c : Ctl) (al : AtCtl) (a : Src) (l : Nat) (A : W64) : Prop :=
  let ok (e : El) : Prop := e.accepted (ityAccepts .n32) = true ∧ e.psn = false
  if al.space = .mem then ok (x.el s.clk c.lit true l a) ∧ A = (x.el s.clk c.lit true l a).val
    ∧ ∀ n, a = .v n → (x.el s.clk c.lit false l (.v (n + 1#8))).accepted (ityAccepts .n32) = true
  else ok (x.rd s c l a) ∧ A = BitVec.ofNat 64 ((x.rd s c l a).val.toNat % 2 ^ 32)

/-- An atomic word whose lanes pass their checks (R257): in main memory its two stages; in a scratchpad, where every element is in reach
and no granule is poisoned, one operation in flight. Its scope and, where that binds the cohort to other agents (R28, R277; log entry 10),
its order stand in the operation (R256). -/
def atomicIssues (s : State) (x : Ctx) (c : Ctl) (al : AtCtl) (o : Out) (ac : Access) (tans zero : List Nat) (L : Nat → TLane)
    (isOp : Pend → Prop) : Prop :=
  let op (q : Pend) : Prop := isOp q ∧ q.scope = al.scope ∧ q.acq = (x.blk.binds al.scope && decide (al.ord = .acq ∨ al.ord = .ar ∨ al.ord = .sc))
    ∧ q.rel = (x.blk.binds al.scope && decide (al.ord = .rel ∨ al.ord = .ar ∨ al.ord = .sc))
  if al.space = .mem then (∀ l ∈ x.unsent s, (L l).a.toNat % (L l).z = 0) → sends s x c o true ac (fun _ => tans) zero L op
  else noWatch s x → ∀ acc : Nat → List Acc,
    let sp : Space := if al.space = .die then .die else .core
    (∀ l ∈ x.unsent s, (∀ k ∈ 0 :: tans, tanAddr x sp (L l).a.toNat k % (L l).z = 0)
      ∧ s.laneAccs x sp l (L l).a.toNat (L l).z tans (fun k => (if k = 0 then (L l).val else (L l).tan.get k 0#64, false)) = some (acc l)
      ∧ ∀ a ∈ acc l, s.poisoned a.store a.addr a.z = false) →
    ∃ q, s.asyncDone x c o q (fun _ => False) ∧ op q ∧ q.exec = x.exec ∧ q.lanes = (x.unsent s).map (fun l => (l,
      (acc l).map (fun a => { a with cmp := (L l).cmp }) ++ zero.map (fun k => ⟨k, .phys, 0, 0, 0#64, 0#64, false⟩)))

/-- R256, R257, R226, R227: ATOM, CAS, LDX and STX issue with the value, the compare value and the address of each lane. Only fadd moves
tangents; the other forms with a vector result clear the tangents of their destination. -/
def atomicsIssueRule : Prop :=
  ∀ (s : State) (x : Ctx) (c : Ctl) (op : AtomOp) (w u : Bool) (al : AtCtl) (rd : Option Dst) (d : Dst) (n : VNum) (a b : Src)
    (A : Nat → W64) (e : Nat → El), s.issues x c → s.errIn = [] → x.coh.rinc = false →
    let z := if w then 8 else 4
    let fp : Bool := op == .fadd || op == .fmin || op == .fmax
    let tans := if op = .fadd then x.tans else []
    let tag : Tag := if fp then (if w then .f64 else .f32)
      else if op = .add ∨ op = .min ∨ op = .max then (if w then .raw else if u && op != .add then .n32 else .i32) else .raw
    let val (k : AVal) (ks : List Nat) : Prop := ∀ l ∈ x.unsent s, atAddress s x c al a l (A l) ∧ atOperand s x c k w b l (e l) ∧ (e l).poisoned ks = false
    (val (if fp then .fp else if op = .exch then .bits else .int) tans →
      atomicIssues s x c al (exec (.atom c op w u al rd a b) s) .atomic tans (if op = .fadd ∨ rd = none then [] else x.tans)
        (fun l => ⟨A l, z, false, (e l).val, .raw, (e l).tan, 0#64⟩)
        (fun q => q.kind = .atom op u rd.isSome ∧ q.dst = rd ∧ q.tag = tag))
    ∧ (val .bits [] → (∀ l ∈ x.unsent s, (x.el s.clk c.lit w l (.v n)).psn = false) →
      atomicIssues s x c al (exec (.cas c w al (.v n) a b) s) .atomic [] x.tans
        (fun l => ⟨A l, z, false, (e l).val, .raw, (e l).tan, (x.el s.clk c.lit w l (.v n)).val⟩)
        (fun q => q.kind = .cas false ∧ q.dst = some (.v n) ∧ q.tag = .raw))
    ∧ ((∀ l ∈ x.unsent s, atAddress s x c al a l (A l)) →
      atomicIssues s x c al (exec (.ldx c w al d a) s) .exclRead [] x.tans (fun l => ⟨A l, z, false, 0#64, .raw, [], 0#64⟩)
        (fun q => q.kind = .ldx ∧ q.dst = some d ∧ q.tag = .raw))
    ∧ (val .bits [] → atomicIssues s x c al (exec (.stx c w al d a b) s) .atomic [] [] (fun l => ⟨A l, z, false, (e l).val, .raw, (e l).tan, 0#64⟩)
        (fun q => q.kind = .stx 0#32 ∧ q.dst = some d ∧ q.tag = .raw))

/-- Op(old, b) of R258 on elements of z bytes. -/
def atomicOp (op : AtomOp) (u : Bool) (z a b : Nat) : Nat :=
  let f : Tag := if z = 8 then .f64 else .f32
  let v (n : Nat) : FVal := f.value false n
  let i (n : Nat) : Int := if u then n else (BitVec.ofNat (8 * z) n).toInt
  match op with
  | .add => (a + b) % 2 ^ (8 * z)
  | .min => if i b < i a then b else a
  | .max => if i a < i b then b else a
  | .and => a &&& b
  | .or => a ||| b
  | .xor => a ^^^ b
  | .exch => b
  | .fadd => ((fAdd .rne (v a) (v b)).pack f .rne).bits
  | .fmin => if (v a).isNan && (v b).isNan then f.nanCode else if fSelA false (v a) (v b) then a else b
  | .fmax => if (v a).isNan && (v b).isNan then f.nanCode else if fSelA true (v a) (v b) then a else b

/-- A lane's destination holds a value that returns, in 32 or 64 bits, with its tag and no poison. -/
def returned (t : State) (p : Pend) (lane : Nat) (tag : Tag) (z k v : Nat) : Prop :=
  ∀ n, p.dst = some (.v n) →
    let lo := t.vAt p.ref lane n.toNat
    let hi := t.vAt p.ref lane (n.toNat + 1)
    if k = 0 then lo.val = BitVec.ofNat 32 v ∧ lo.tag = tag ∧ lo.psn = false
      ∧ (z = 8 → hi.val = BitVec.ofNat 32 (v / 2 ^ 32) ∧ hi.tag = tag ∧ hi.psn = false)
    else lo.tan.get k 0#32 = BitVec.ofNat 32 v ∧ (z = 8 → hi.tan.get k 0#32 = BitVec.ofNat 32 (v / 2 ^ 32))

/-- The places of a returning lane: its destination, a pair where it reads 8 bytes. -/
def returnPlaces (p : Pend) (lane : Nat) (as : List Acc) (w : Place) : Prop :=
  w = .pend ∨ (∃ k, p.slot = some k ∧ w = .ctr p.ref k.toNat) ∨ (p.dst = some .seed ∧ w = .seed p.ref lane)
  ∨ ∃ n, p.dst = some (.v n) ∧ (w = .v p.ref lane n.toNat ∨ ((∃ a ∈ as, a.z = 8) ∧ w = .v p.ref lane (n.toNat + 1)))

/-- R258 to R261: one lane's step. ATOM applies its operation to each element and returns the old one; CAS writes when the element equals
its compare value bit for bit, and returns it; LDX reads and reserves the granule; STX writes when its lane holds the reservation, which
clears, and its mask is written with the last lane. A CAS or STX that fails in every lane demotes the path that issued it. -/
def atomicStepsArePerformedRule : Prop :=
  ∀ (s : State) (id lane : Nat) (p : Pend) (as : List Acc) (h : Thread), mayLand s id lane p as h → s.ordOk p lane as = true → lane < 32 →
    let mem := as.filter (fun a => a.z != 0)
    plainAccs s mem → (∀ a ∈ mem, (a.z = 4 ∨ a.z = 8) ∧ a.addr % a.z = 0 ∧ s.poisoned a.store a.addr a.z = false) →
    let run := exec (.atomicStepPerformed id lane) s
    let old (a : Acc) : Nat := s.readNat a.store a.addr a.z
    let arg (a : Acc) : Nat := a.val.toNat % 2 ^ (8 * a.z)
    let last : Prop := p.lanes = [(lane, as)] ∧ p.more = false
    (∀ op u ret, p.kind = .atom op u ret → (ret = true → p.dst ≠ none) → ∃ t, run = .next t ∧ lanesLeft s t p [lane]
        ∧ (∀ a ∈ mem, t.readNat a.store a.addr a.z = atomicOp op u a.z (old a) (arg a))
        ∧ (ret = true → (∀ a ∈ mem, returned t p lane p.tag a.z a.k (old a))
            ∧ ∀ a ∈ as, a.z = 0 → a.k ≠ 0 → a.val = 0#64 → returned t p lane p.tag (if ∃ b ∈ as, b.z = 8 then 8 else 4) a.k 0)
        ∧ s.keeps t (fun w => (if ret = true then returnPlaces p lane as w else landPlaces p [] w) ∨ storePlaces mem w))
    ∧ (∀ hit a zs, p.kind = .cas hit → as = a :: zs → a.k = 0 → a.z ≠ 0 → ∃ t, run = .next t ∧ lanesLeft s t p [lane]
        ∧ t.readNat a.store a.addr a.z = (if old a = a.cmp.toNat % 2 ^ (8 * a.z) then arg a else old a)
        ∧ returned t p lane .raw a.z 0 (old a)
        ∧ (last → hit = false → old a ≠ a.cmp.toNat % 2 ^ (8 * a.z) → isDemoted s t p.ref id)
        ∧ s.keeps t (fun w => returnPlaces p lane as w ∨ storePlaces [a] w ∨ (last ∧ demotePlaces p.ref w)))
    ∧ (∀ a zs, p.kind = .ldx → as = a :: zs → a.k = 0 → a.z ≠ 0 → ∃ t, run = .next t ∧ lanesLeft s t p [lane] ∧ returned t p lane .raw a.z 0 (old a)
        ∧ (t.thr p.ref lane).bind (·.resv) = some ⟨a.store, a.addr / 16⟩
        ∧ s.keeps t (fun w => returnPlaces p lane as w ∨ w = .resv p.ref lane))
    ∧ (∀ mask a zs d, p.kind = .stx mask → as = a :: zs → a.z ≠ 0 → (AMap.keys p.lanes).head? = some lane → p.dst = some (.s d) →
        let ok := decide (h.resv = some ⟨a.store, a.addr / 16⟩)
        let mask' := if ok then mask ||| (1#32 <<< lane) else mask
        ∃ t, run = .next t ∧ lanesLeft s t p [lane]
        ∧ t.readNat a.store a.addr a.z = (if ok then arg a else old a) ∧ (t.thr p.ref lane).bind (·.resv) = none
        ∧ (last → t.sAt p.ref d.toNat = mask'.setWidth 64 ∧ (mask' = 0#32 → isDemoted s t p.ref id))
        ∧ (¬ last → (t.pendOf id).map (·.kind) = some (.stx mask'))
        ∧ s.keeps t (fun w => landPlaces { p with dst := none } [] w ∨ (if ok then storePlaces [a] w else w = .resv p.ref lane)
            ∨ (last ∧ (w = .s p.ref d.toNat ∨ demotePlaces p.ref w))))

/-- The statements `atomicsIssueRule`, `atomicStepsArePerformedRule` together. -/
def Obligations.AtomicWords : Prop := atomicsIssueRule ∧ atomicStepsArePerformedRule

/-! ## Fences, barriers, neighbour links, giving up issue (CLASS 0xA) -/

/-- The issuing path stands in a wait of a kind that has ended. -/
def hasPassed (x : Ctx) (k : WaitKind) : Prop := ∃ w, x.path.wait = some w ∧ w.kind = k ∧ w.released = true

/-- A word completes and moves nothing beside. -/
def plainDone (s : State) (x : Ctx) (c : Ctl) (o : Out) (ex : Place → Prop) : Prop :=
  ∃ t, o = .next t ∧ t.passed x c .none ∧ s.keeps t (fun p => x.moved p ∨ ex p)

/-- R262, R256, R28, R277: FENCE performs no access. At a scope at which it binds the cohort to other agents (log entry 10), an acquire waits
until every earlier read of the cohort is performed, any other order until every earlier access is; then, and at once otherwise, it completes.
The waits for accesses end with the last of them: of a fence, a release, an acquire that holds an access back, an invalidation, the replies of
the second stage of a word (R128), a capability word (R329). -/
def Obligations.FencesOrderAccesses : Prop :=
  (∀ (s : State) (x : Ctx) (c : Ctl) (sc : Scope) (ord : MOrd), s.issues x c →
    let busy := ord ≠ .rlx ∧ x.blk.binds sc = true ∧ ∃ p ∈ s.pend, p.ref = x.ref ∧ p.touchesMem = true ∧ (ord = .acq → p.kind.isRead = true)
    let run := exec (.fence c sc ord) s
    (busy → waitsNow s x run .fence (if ord = .acq then 1 else 0) (fun _ => False)) ∧ (¬ busy → plainDone s x c run (fun _ => False)))
  ∧ ∀ (s : State) (p : PathRef) (w : PWait), s.waiting p = some w →
    let quiet (rd : Bool) : Prop := ∀ q ∈ s.pend, q.ref = pathCoh p → q.touchesMem = true → rd = true ∧ q.kind.isRead = false
    (w.kind = .fence ∧ quiet (w.num == 1)) ∨ (w.kind = .order ∧ w.num ≠ 2 ∧ quiet false)
      ∨ (w.kind = .order ∧ w.num = 2 ∧ ∀ q ∈ s.pend, q.ref = pathCoh p → q.acq = false) ∨ (w.kind = .tlb ∧ quiet false)
      ∨ (w.kind = .reply ∧ ∀ q, s.pendOf w.num = some q → ∀ l ∈ q.lanes, accsFar l.2 = false) ∨ (w.kind = .regs ∧ s.capWaitOver p w.num = true) →
    endsWait s p (exec (.fenceWaitEnd p) s)

/-- No path of the block arrives late (R263): every thread that waits at its barrier has arrived in the open phase. -/
def noneLate (b : Block) : Prop := ∀ c ∈ b.cohs, ∀ p ∈ c.2.paths, p.late = []

/-- The block's barrier behind an arrival of threads that had not arrived (R263): the phase completes when all live threads have, the waits
at BAR of its other paths then end. -/
def barrierTakes (s t : State) (x : Ctx) (ts : List Nat) : Prop :=
  let b := x.blk
  let arr := ts.foldl setIns b.arr
  let whole := arr = b.live ∧ arr ≠ []
  (t.block x.ref.blk).map (fun n => (n.ph, n.arr)) = some (if whole then (b.ph + 1, []) else (b.ph, arr))
  ∧ (t.block x.ref.blk).map (fun n => { n.bare with ph := 0, arr := [] }) = some { b.bare with ph := 0, arr := [] }
  ∧ (whole → ∀ r isB q w, r.blk = x.ref.blk → (r ≠ x.ref ∨ isB ≠ x.isB) → s.slot r isB = some q → q.wait = some w → w.kind = .bar →
      t.slot r isB = some { q with wait := some { w with released := true } })

/-- The places that a completed phase moves. -/
def phasePlaces (x : Ctx) (p : Place) : Prop :=
  p = .blk x.ref.blk ∨ p = .cnt x.ref ∨ (∃ r isB, r.blk = x.ref.blk ∧ p = .slot r isB) ∨ ∃ r, r.blk = x.ref.blk ∧ p = .spill r

/-- R263, R264, R265: BAR arrives, then waits until PH has grown past its value at arrival, and passes when it has; BARA arrives and writes PH
at arrival; BARW waits until PH is above its token. Without a barrier slot they are protection faults with code 0x2E. -/
def Obligations.BlockBarriers : Prop :=
  ∀ (s : State) (x : Ctx) (c : Ctl) (d : Dst) (a : Src), s.issues x c → (∀ q ∈ s.blocks, q.2.logr = none) →
    let ts := x.coh.threadsOf x.exec
    let arr := ts.foldl setIns x.blk.arr
    let whole := arr = x.blk.live ∧ arr ≠ []
    let tok := (x.sca s.clk c.lit a).toNat
    if x.blk.cfg.bslot = false then
      ∀ o ∈ [exec (.bar c) s, exec (.bara c d) s, exec (.barw c a) s], o = .next (s.trapped x (Fz.of 0x02 0x2E x.exec))
    else
      (hasPassed x .bar → plainDone s x c (exec (.bar c) s) (fun _ => False))
      ∧ (¬ hasPassed x .bar → x.blk.sbo = none → s.accessesDone x.ref false = false → waitsNow s x (exec (.bar c) s) .order 0 (fun _ => False))
      ∧ (noneLate x.blk → (∀ t ∈ ts, t ∉ x.blk.arr) → x.blk.sbo = none → s.accessesDone x.ref false = true →
          (¬ hasPassed x .bar → ∃ t, exec (.bar c) s = .next t ∧ barrierTakes s t x ts ∧
            if whole then plainDone s x c (.next t) (phasePlaces x)
            else waitsAs s x (.next t) ⟨.bar, false, s.clk, x.blk.ph, []⟩ (· = .blk x.ref.blk))
          ∧ (¬ hasPassed x .bara → ∃ t, exec (.bara c d) s = .next t ∧ barrierTakes s t x ts ∧ t.holdsSca x d (BitVec.ofNat 64 x.blk.ph)
            ∧ plainDone s x c (.next t) (fun p => phasePlaces x p ∨ dstCovers d x [] (fun _ => false) p)))
      ∧ (∀ w, x.path.wait = some w → w.kind = .bara → w.released = true → ∃ t, exec (.bara c d) s = .next t
          ∧ t.holdsSca x d (BitVec.ofNat 64 w.num) ∧ plainDone s x c (.next t) (dstCovers d x [] (fun _ => false)))
      ∧ (if tok < x.blk.ph then plainDone s x c (exec (.barw c a) s) (fun _ => False)
        else waitsNow s x (exec (.barw c a) s) .barw tok (fun _ => False))
      ∧ (¬ hasPassed x .bar → x.blk.sbo.isSome = true → exec (.bar c) s = .next (s.trapped x (Fz.of 0x06 0 x.exec)))

/-- R266: SBAR and SBAR.grid make their threads arrive and wait; with the last live thread the block arrives, at its grid's barrier or at that
of its instance of the scope, where the first arrival of a phase fixes the count. A path behind an ended wait passes. -/
def scopedBarriersRule : Prop :=
  ∀ (s : State) (x : Ctx) (c : Ctl) (sc : Scope) (n : Src), s.issues x c → (∀ q ∈ s.blocks, q.2.logr = none) → x.blk.cfg.bslot = true →
    let N := (x.sca s.clk c.lit n).toNat % 2 ^ 16
    let arr := (x.coh.threadsOf x.exec).foldl setIns x.blk.arr
    let whole := arr = x.blk.live ∧ arr ≠ []
    let inst := scopeInst sc x.blk.die x.blk.core
    let joined : List SBarI := if x.grid.sbars.any (fun i => i.scope == sc && i.inst == inst) then
        x.grid.sbars.map (fun i => if i.scope = sc ∧ i.inst = inst then { i with arr := setIns i.arr x.ref.blk } else i)
      else x.grid.sbars ++ [⟨sc, inst, N, [x.ref.blk]⟩]
    let arrives (run : Out) (k : WaitKind) (o : SOpen) (g : Grid) : Prop := ∃ t, run = .next t
      ∧ (t.block x.ref.blk).map (fun b => (b.sbo, b.arr, b.ph)) =
          some (some (if whole then { x.blk.sbo.getD o with made := true } else x.blk.sbo.getD o), arr, x.blk.ph)
      ∧ t.grid x.blk.grid = some (if whole ∧ (x.blk.sbo.map (·.made)).getD false = false then g else x.grid)
      ∧ waitsAs s x (.next t) ⟨k, false, s.clk, x.blk.ph, []⟩ (fun p => p = .blk x.ref.blk ∨ p = .grid x.blk.grid)
    (hasPassed x .sbar → plainDone s x c (exec (.sbar c sc n) s) (fun _ => False))
    ∧ (hasPassed x .sbarGrid → plainDone s x c (exec (.sbarGrid c) s) (fun _ => False))
    ∧ (¬ hasPassed x .sbar → N = 0 → exec (.sbar c sc n) s = .next (s.trapped x (Fz.of 0x06 0 x.exec)))
    ∧ (x.blk.sbo = none → x.blk.arr ≠ [] → (¬ hasPassed x .sbar → exec (.sbar c sc n) s = .next (s.trapped x (Fz.of 0x06 0 x.exec)))
        ∧ (¬ hasPassed x .sbarGrid → exec (.sbarGrid c) s = .next (s.trapped x (Fz.of 0x06 0 x.exec))))
    ∧ ((x.blk.sbo = none → x.blk.arr = []) → s.accessesDone x.ref false = true →
      (¬ hasPassed x .sbar → N ≠ 0 → (∀ o, x.blk.sbo = some o → o.isGrid = false ∧ o.scope = sc ∧ o.n = N) →
        (∀ i ∈ x.grid.sbars, i.scope = sc → i.inst = inst → i.n = N) →
        arrives (exec (.sbar c sc n) s) .sbar ⟨false, sc, N, false⟩ { x.grid with sbars := joined })
      ∧ (¬ hasPassed x .sbarGrid → (∀ o, x.blk.sbo = some o → o.isGrid = true) →
        arrives (exec (.sbarGrid c) s) .sbarGrid ⟨true, .pkg, 0, false⟩ { x.grid with garr := setIns x.grid.garr x.ref.blk }))

/-- R266: when the arrivals of a scoped barrier reach its count, or those of the grid barrier every block of the grid that has not ended, each
block that arrived completes its phase and its waiting paths are released; a new phase may open. -/
def scopedBarriersReleaseRule : Prop :=
  ∀ (s : State) (gid : Nat) (g : Grid), s.grid gid = some g → (∀ q ∈ s.blocks, q.2.logr = none) → (s.blocks.map (·.1)).Nodup →
    let frees (o : Out) (bs : List Nat) (g' : Grid) : Prop := bs.Nodup → ∃ t, o = .next t ∧ t.grid gid = some g'
      ∧ (∀ i ∈ bs, ∀ b, s.block i = some b → (t.block i).map (fun n => (n.sbo, n.arr, n.ph)) = some (none, [], b.ph + 1)
          ∧ ∀ c isB q w, s.slot ⟨i, c⟩ isB = some q → q.wait = some w → (w.kind = .sbar ∨ w.kind = .sbarGrid) → w.released = false →
              t.slot ⟨i, c⟩ isB = some { q with wait := some { w with released := true } })
      ∧ s.keeps t (fun p => p = .grid gid ∨ ∃ i ∈ bs, p = .blk i ∨ ∃ c, p = .spill ⟨i, c⟩ ∨ ∃ isB, p = .slot ⟨i, c⟩ isB)
    let left := g.lrec.gx * g.lrec.gy * g.lrec.gz - g.done + (s.blocks.filter (fun b => b.2.grid == gid && b.2.kind == .task)).length
    (g.garr ≠ [] → left ≤ g.garr.length → frees (exec (.scopedBarrierRelease gid 0) s) g.garr { g with garr := [], gph := g.gph + 1 })
    ∧ ∀ n i, g.sbars[n]? = some i → i.n ≤ i.arr.length →
      frees (exec (.scopedBarrierRelease gid (n + 1)) s) i.arr { g with sbars := g.sbars.filter (fun j => j != i) }

/-- The core on a side of a core of a die (R267): 16 × 16 cores, no links across the edge. -/
def sideCore (b : Block) (d : Dir) : Option Nat :=
  let row := b.core / 16
  let col := b.core % 16
  match d with
  | .n => if row = 0 then none else some (256 * b.die + (16 * (row - 1) + col))
  | .e => if col = 15 then none else some (256 * b.die + (16 * row + (col + 1)))
  | .s => if row = 15 then none else some (256 * b.die + (16 * (row + 1) + col))
  | .w => if col = 0 then none else some (256 * b.die + (16 * row + (col - 1)))

/-- The number of a side, and of the side that faces it. -/
def sideNo : Dir → Nat
  | .n => 0
  | .e => 1
  | .s => 2
  | .w => 3
def faceNo : Dir → Nat
  | .n => 2
  | .e => 3
  | .s => 0
  | .w => 1

/-- The FIFO of a core on a side holds `l` in `t`, every other one what it held. -/
def fifoIs (s t : State) (core side : Nat) (l : List FEntry) : Prop :=
  (t.core core).fifoAt side = l ∧ (∀ k, k ≠ side → (t.core core).fifoAt k = (s.core core).fifoAt k)
  ∧ { (t.core core).bare with fifo := [] } = { (s.core core).bare with fifo := [] }

/-- The places that a neighbour word moves beside: its block, which becomes neighbour-bound (R269), and its count of polls. -/
def linkPlaces (x : Ctx) (p : Place) : Prop := p = .blk x.ref.blk ∨ p = .cnt x.ref

/-- The entries of a FIFO that its messages take (R267, R213). -/
def fifoUsed (l : List FEntry) : Nat := (l.map (fun e => e.sent - e.took)).sum

/-- R267, R268, R269: NSEND appends one entry with the elements and tags of EXEC to the neighbour's FIFO on the side that faces the sender, or
waits while its 16 entries are taken; NRECV takes the head of its own FIFO, whose present lanes are written, in launch-wide mode with zero
tangents (log entry 79), or waits while it is empty; a head of another grid, COH or kind is a protection fault with code 0x2B. On a side with no neighbour they complete at once. -/
def neighbourWordsRule : Prop :=
  ∀ (s : State) (x : Ctx) (c : Ctl) (dir : Dir) (d : Dst) (a : Src), s.issues x c → s.errIn = [] → x.blk.core < 256 →
    let e (l : Nat) : El := x.rd s c l a
    let send := exec (.nsend c dir a) s
    let recv := exec (.nrecv c dir d) s
    let bound (t : State) : Prop := (t.block x.ref.blk).map Block.bare = some { x.blk with nb := true }.bare
    let here := (s.core x.blk.coreId).fifoAt (sideNo dir)
    ((∀ l ∈ x.lanes, (e l).psn = false) → match sideCore x.blk dir with
      | none => ∃ t, send = .next t ∧ bound t ∧ plainDone s x c send (linkPlaces x)
      | some n =>
        let q := (s.core n).fifoAt (faceNo dir)
        if fifoUsed q < 16 then ∃ t, send = .next t ∧ bound t ∧ plainDone s x c send (fun p => linkPlaces x p ∨ p = .core n)
          ∧ fifoIs s t n (faceNo dir) (q ++ [⟨x.blk.grid, x.ref.coh, some (x.lanes.map (fun l => (l, (e l).val.setWidth 32, (e l).moved a, false))), [], 1, 1, 0⟩])
        else waitsNow s x send .nsend 0 (linkPlaces x))
    ∧ match sideCore x.blk dir, here with
      | none, _ => ∃ t, recv = .next t ∧ bound t ∧ plainDone s x c recv (linkPlaces x)
      | some _, [] => waitsNow s x recv .nrecv 0 (linkPlaces x)
      | some _, q :: r => if q.grid ≠ x.blk.grid ∨ q.coh ≠ x.ref.coh ∨ q.vec = none then recv = .next (s.trapped x (Fz.of 0x02 0x2B x.exec))
        else ∃ t, recv = .next t ∧ bound t ∧ fifoIs s t x.blk.coreId (sideNo dir) r ∧ plainDone s x c recv (fun p => linkPlaces x p
            ∨ p = .core x.blk.coreId ∨ dstCovers d x (x.lanes.filter (fun l => ((q.vec.getD []).find l).isSome)) (fun _ => false) p)
          ∧ ∀ l ∈ x.lanes, ∀ g, (q.vec.getD []).find l = some g → (s.thr x.ref l).isSome → (∀ n, d = .v n →
              let v := t.vAt x.ref l n.toNat
              v.val = g.1 ∧ v.tag = g.2.1 ∧ v.psn = g.2.2 ∧ ∀ k, 1 ≤ k → k ≤ 4 →
                v.tan.get k 0#32 = if x.blk.cfg.dualn = 0 then (s.vAt x.ref l n.toNat).tan.get k 0#32 else 0#32)
            ∧ (d = .seed → t.seedAt x.ref l = some g.1)

/-- R213, R269: MRING first checks its lanes as MADD does and sends its matrices in its direction, word by word as the FIFO has room for them,
and waits while it has none; then, behind the send, it takes the head of the opposite side, whose words leave the FIFO as they come, waits
while one is missing, and enters the sequencer with the sum of each lane. How many words a message has is the model's choice (log entry 42). -/
def mringSendsThenAddsRule : Prop :=
  ∀ (s : State) (x : Ctx) (c : Ctl) (dir : Dir) (d a : MNum) (L : Nat → MLane), s.issues x c → s.errIn = [] → x.blk.core < 256 →
    s.matStall x.ref (.mring c dir d a) = false →
    let run := exec (.mring c dir d a) s
    let ms : AMap MReg := x.lanes.map (fun l => (l, s.mAt x.ref l a.toNat))
    let sent := ∃ w, x.path.wait = some w ∧ w.kind = .mringRecv
    let begun := ∃ w, x.path.wait = some w ∧ w.kind = .mringSend ∧ w.num = 1
    let back : Dir := match dir with
      | .n => .s
      | .e => .w
      | .s => .n
      | .w => .e
    let ok (got : AMap MReg) : Prop := ∀ l ∈ x.lanes, ∃ th, s.thr x.ref l = some th
      ∧ matLane (.mring c dir d a) x.dxMode x.tans x.blk.cfg.t 0#64 [] th (got.find l) = some (L l) ∧ (L l).psn = false
      ∧ (L l).c &&& x.grid.lrec.trapen = 0#3 ∧ ∀ w, (L l).res.mat = some w → s.laneTiles x.ref l th d w ≤ x.blk.cfg.mtb
    let got : PWait := ⟨.mringRecv, true, s.clk, 0, []⟩
    let some' : PWait := ⟨.mringRecv, false, s.clk, 0, []⟩
    let goes (whole : Prop) [Decidable whole] (ex : Place → Prop) : Prop :=
      waitsAs s x run (if whole then got else ⟨.mringSend, false, s.clk, 1, []⟩) (fun p => linkPlaces x p ∨ ex p)
    let adds (got : AMap MReg) (ex : Place → Prop) : Prop := ok got → ∃ q op, s.asyncDone x c run q (fun p => linkPlaces x p ∨ ex p)
      ∧ q.kind = .matrix op ∧ op.i = .mring c dir d a ∧ op.ring = got ∧ op.started = false ∧ op.res = x.lanes.map (fun l => (l, (L l).res))
    (¬ sent → ¬ begun → ok [] → match sideCore x.blk dir with
      | none => goes True (fun _ => False)
      | some n =>
        let q := (s.core n).fifoAt (faceNo dir)
        let free := 16 - fifoUsed q
        if 0 < free then goes (ringWords ms ≤ free) (· = .core n) ∧ ∃ t, run = .next t
            ∧ fifoIs s t n (faceNo dir) (q ++ [⟨x.blk.grid, x.ref.coh, none, ms, ringWords ms, min (ringWords ms) free, 0⟩])
          else waitsNow s x run .mringSend 0 (linkPlaces x))
    ∧ (begun → match sideCore x.blk dir with
      | none => goes True (fun _ => False)
      | some n =>
        let q := (s.core n).fifoAt (faceNo dir)
        let mine (e : FEntry) : Prop := e.grid = x.blk.grid ∧ e.coh = x.ref.coh ∧ e.vec = none
        ∀ pre e post, q = pre ++ e :: post → mine e → (∀ f ∈ post, ¬ mine f) →
          let now := min e.size (e.sent + (16 - fifoUsed q))
          goes (now = e.size) (· = .core n) ∧ ∃ t, run = .next t ∧ fifoIs s t n (faceNo dir) (pre ++ { e with sent := now } :: post))
    ∧ (sent → match sideCore x.blk back, (s.core x.blk.coreId).fifoAt (sideNo back) with
      | none, _ => adds [] (fun _ => False)
      | some _, [] => waitsAs s x run some' (linkPlaces x)
      | some _, q :: r => if q.grid ≠ x.blk.grid ∨ q.coh ≠ x.ref.coh ∨ q.vec ≠ none then run = .next (s.trapped x (Fz.of 0x02 0x2B x.exec))
        else if q.sent < q.size then ok q.mat → waitsAs s x run some' (fun p => linkPlaces x p ∨ p = .core x.blk.coreId)
          ∧ ∃ t, run = .next t ∧ fifoIs s t x.blk.coreId (sideNo back) ({ q with took := q.sent } :: r)
        else adds q.mat (· = .core x.blk.coreId) ∧ (ok q.mat → ∃ t, run = .next t ∧ fifoIs s t x.blk.coreId (sideNo back) r))

/-- R268, R213: the wait of a send ends when the neighbour's FIFO has room, that of a receive when words of a message stand at the head. -/
def neighbourWaitsEndRule : Prop :=
  ∀ (s : State) (p : PathRef) (w : PWait) (b : Block) (q : Path) (c : Ctl) (dir back : Dir) (d : Dst) (a : Src) (m n : MNum),
    s.waiting p = some w → s.block p.blk = some b → s.slot (pathCoh p) p.isB = some q → b.core < 256 → (sideNo back + 2) % 4 = sideNo dir →
    let word := q.waitWord b.lim
    let comes (side : Nat) : Prop := ∃ e r, (s.core b.coreId).fifoAt side = e :: r ∧ e.took < e.sent
    ((w.kind = .nsend ∧ word = some (.nsend c dir a)) ∨ (w.kind = .mringSend ∧ word = some (.mring c dir m n)) →
      (∀ k, sideCore b dir = some k → fifoUsed ((s.core k).fifoAt (faceNo dir)) < 16) → endsWait s p (exec (.nsendRoom p) s))
    ∧ (w.kind = .nrecv → word = some (.nrecv c dir d) → comes (sideNo dir) → endsWait s p (exec (.neighbourEntryArrival p) s))
    ∧ (w.kind = .mringRecv → word = some (.mring c dir m n) → comes (sideNo back) →
      endsWait s p (exec (.neighbourEntryArrival p) s))

/-- R270, R102, R302: YIELD demotes its path at the next boundary and pauses the cohort for the ready ones of its partition, at most 64 cycles;
SLEEP waits SA[15:0] cycles, 0 as NOP. Each counts one unchanged poll. The pause and the wait end when their time has passed, the pause also
when each cohort of its set has issued or left. -/
def Obligations.YieldAndSleep : Prop :=
  (∀ (s : State) (x : Ctx) (c : Ctl) (n : Src), s.issues x c →
    let N := (x.sca s.clk c.lit n).toNat % 2 ^ 16
    let polls (t : State) : Prop := (t.coh x.ref).map (·.polls) = some (x.coh.polls + 1)
    (sampledWord x.cls x.op = false → unpolls x.cls x.op = false → x.writesB = false → ∃ t, exec (.yield c) s = .next t ∧ polls t
      ∧ t.slot x.ref x.isB = some { x.path.advance (ctlLen c) with dem := true, stp := x.path.stp || x.coh.step == 1 } ∧ t.latches x.ref = (.none :: x.coh.latch).take 8
      ∧ (t.coh x.ref).map (·.ypause) = some (some ((s.cohortsOn x.blk.coreId x.coh.part).filter (fun q =>
          q != (x.ref.blk, x.ref.coh) && s.cohReady q.1 q.2), s.clk + 64))
      ∧ (t.coh x.ref).map (fun k => { k.bare with ypause := none }) = some { x.coh.bare with ypause := none }
      ∧ s.keeps t (fun p => x.moved p ∨ p = .coh x.ref))
    ∧ (N = 0 ∨ hasPassed x .sleep → plainDone s x c (exec (.sleep c n) s) (fun _ => False))
    ∧ (N ≠ 0 → ¬ hasPassed x .sleep → ∃ t, exec (.sleep c n) s = .next t ∧ polls t
      ∧ waitsAs s x (.next t) ⟨.sleep, false, s.clk, s.clk + N, []⟩ (fun _ => False)))
  ∧ (∀ (s : State) (p : PathRef) (w : PWait), s.waiting p = some w → w.kind = .sleep → w.num ≤ s.clk → endsWait s p (exec (.sleepEnd p) s))
  ∧ ∀ (s : State) (blk coh : Nat) (b : Block) (c : Cohort) (set : List (Nat × Nat)) (at' : Nat), s.block blk = some b → s.coh ⟨blk, coh⟩ = some c →
    c.ypause = some (set, at') → ((∀ q ∈ set, q ∉ s.cohortsOn b.coreId c.part) ∨ at' ≤ s.clk) →
    ∃ t, exec (.yieldPauseEnd blk coh) s = .next t ∧ t.coh ⟨blk, coh⟩ = some { c with ypause := none } ∧ s.keeps t (· = .coh ⟨blk, coh⟩)

/-- The statements `scopedBarriersRule`, `scopedBarriersReleaseRule` together. -/
def Obligations.ScopedBarriers : Prop := scopedBarriersRule ∧ scopedBarriersReleaseRule

/-- The statements `neighbourWordsRule`, `mringSendsThenAddsRule`, `neighbourWaitsEndRule` together. -/
def Obligations.NeighbourLinks : Prop := neighbourWordsRule ∧ mringSendsThenAddsRule ∧ neighbourWaitsEndRule

/-! ## Control words, paths and threads (CLASS 0xB), tangent words (CLASS 0xC) -/

/-- Nothing of the block waits for its boundary work: no record is complete, every slot that can be filled is, no path that stands between
clauses stands at its reconvergence point. -/
def atRest (b : Block) : Prop :=
  b.doneRec = none ∧ (∀ c ∈ b.cohs, c.2.settle = c.2) ∧ ∀ c ∈ b.cohs, ∀ p ∈ c.2.paths, p.cl = none → p.rpc ≠ some p.pc

/-- The places that the end of a clause moves. -/
def clauseEnds (x : Ctx) (p : Place) : Prop :=
  p = .slot x.ref x.isB ∨ p = .latch x.ref ∨ p = .ncls x.ref ∨ p = .cnt x.ref ∨ p = .sel x.ref

/-- The clause of the issuer has ended: the latch window is empty and NCLS counts it. -/
def clauseOver (t : State) (x : Ctx) : Prop := t.latches x.ref = [] ∧ (t.coh x.ref).map (·.ncls) = some (x.coh.ncls + 1)

/-- The whole path continues at the header `pc` and does not arrive there. -/
def continuesAt (s : State) (x : Ctx) (o : Out) (pc : W64) (rpc : Option W64) (ex : Place → Prop) : Prop :=
  ∃ t, o = .next t ∧ t.slot x.ref x.isB = some { x.path with pc := pc, rpc := rpc, wait := none, cl := none, stp := x.stepped } ∧ clauseOver t x
    ∧ s.keeps t (fun p => clauseEnds x p ∨ ex p)

/-- The address of the clause behind the one the issuer is in (R31). -/
def behind (x : Ctx) (cl : Clause) : W64 := x.path.pc + BitVec.ofNat 64 (8 * (cl.words.length + 1))

/-- header + 8 × a signed offset in words (R247). -/
def ahead (x : Ctx) (off : BitVec 19) : W64 := x.path.pc + 8#64 * off.signExtend 64

/-- A control word of the issuer that moves paths issues: the issuer's block is not recorded, and nothing waits for its boundary. -/
def ctlIssues (s : State) (x : Ctx) (c : Ctl) (cl : Clause) : Prop :=
  s.issues x c ∧ s.errIn = [] ∧ (∀ q ∈ s.blocks, q.2.logr = none) ∧ x.path.cl = some cl ∧ x.path.dem = false ∧ atRest x.blk

/-- R248, R250, R247: where the words that move a whole path take it, when it does not arrive there; what CALL links; and that RET needs one
link. JOIN without a reconvergence point acts as NOP. -/
def controlWordsMoveTheirPathRule : Prop :=
  ∀ (s : State) (x : Ctx) (c : Ctl) (cl : Clause) (off : BitVec 19) (a : Src) (n : VNum), ctlIssues s x c cl →
    let goes (o : Out) (pc : W64) (ex : Place → Prop) : Prop := x.path.rpc ≠ some pc → continuesAt s x o pc x.path.rpc ex
    let link (l : Nat) : El := x.el s.clk c.lit true l a
    goes (exec (.nop c) s) (behind x cl) (fun _ => False)
    ∧ goes (exec (.bra c off) s) (ahead x off) (fun _ => False)
    ∧ goes (exec (.brx c a) s) (x.sca s.clk c.lit a) (fun _ => False)
    ∧ (x.path.rpc = none → goes (exec (.join c) s) (behind x cl) (fun _ => False))
    ∧ goes (exec (.call c off n) s) (ahead x off)
        (fun p => ∃ l ∈ x.lanes, p = .v x.ref l n.toNat ∨ p = .v x.ref l (n.toNat + 1))
    ∧ (∀ t, exec (.call c off n) s = .next t → ∀ l ∈ x.lanes, (s.thr x.ref l).isSome → ∀ k, 1 ≤ k → k ≤ 4 →
        let lo := t.vAt x.ref l n.toNat
        let hi := t.vAt x.ref l (n.toNat + 1)
        lo.val = (behind x cl).setWidth 32 ∧ hi.val = (behind x cl).extractLsb' 32 32 ∧ lo.tag = .raw ∧ hi.tag = .raw ∧ lo.psn = false
        ∧ hi.psn = false ∧ lo.tan.get k 0#32 = (if x.blk.cfg.dualn = 0 then (s.vAt x.ref l n.toNat).tan.get k 0#32 else 0#32)
        ∧ hi.tan.get k 0#32 = (if x.blk.cfg.dualn = 0 then (s.vAt x.ref l (n.toNat + 1)).tan.get k 0#32 else 0#32))
    ∧ ∀ l0 ls, x.lanes = l0 :: ls →
        let bad (f : Nat → Prop) (kind : Nat) : Prop := ∃ m : W32, (∀ i < 32, (m.getLsbD i = true ↔ i ∈ x.lanes ∧ f i))
          ∧ exec (.ret c a) s = .next (s.trapped x (Fz.of kind 0 m))
        ((∃ l ∈ x.lanes, (link l).psn = true) → bad (fun l => (link l).psn = true) 0x09)
        ∧ ((∀ l ∈ x.lanes, (link l).psn = false) → (∃ l ∈ x.lanes, (link l).val ≠ (link l0).val) →
            bad (fun l => (link l).val ≠ (link l0).val) 0x06)
        ∧ ((∀ l ∈ x.lanes, (link l).psn = false ∧ (link l).val = (link l0).val) → goes (exec (.ret c a) s) (link l0).val (fun _ => False))

/-- A slot of the issuer is free: the newest spill entry takes it, or, without one, a lone path moves to slot A (R239). An entry that waits at a
barrier goes behind those that do not (R265). -/
def slotFreed (t : State) (x : Ctx) : Prop :=
  let took (e : Spill) (es : List Spill) : Prop :=
    t.slot x.ref x.isB = some e.path ∧ t.slot x.ref (!x.isB) = x.coh.path (!x.isB) ∧ (t.coh x.ref).map (·.spill) = some es
  (x.coh.spill = [] → t.slot x.ref false = x.coh.path (!x.isB) ∧ t.slot x.ref true = none ∧ (t.coh x.ref).map (·.spill) = some [])
  ∧ (∀ e es, x.coh.spill = e :: es → (e.path.barWait = false ∨ ∀ q ∈ es, q.path.barWait = true) → took e es)
  ∧ ∀ pre e post, x.coh.spill = pre ++ e :: post → (∀ q ∈ pre, q.path.barWait = true) → e.path.barWait = false → pre ≠ [] →
      took e (post ++ pre.map (fun q => ⟨{ q.path with dem := false }, 0#2⟩))

/-- The lanes of a cohort whose threads are among those given. -/
def lanesIn (k : Cohort) (ts : List Nat) : W32 := maskOf (AMap.keys (k.lanes.filter (fun l => ts.contains l.2.t)))

/-- The places of a block whose paths rejoin. -/
def rejoinPlaces (x : Ctx) (p : Place) : Prop :=
  p = .blk x.ref.blk ∨ (∃ j isB, p = .slot ⟨x.ref.blk, j⟩ isB) ∨ ∃ j, p = .spill ⟨x.ref.blk, j⟩

/-- R238, R239: a path that a control word takes to its reconvergence point joins the most recent record there that contains its threads and
ends; when all threads of the record have arrived, the record is freed and each cohort that holds some gets one path with the record's ORPC.
Without such a record its RPC becomes none and it goes on. -/
def pathsArriveAndRejoinRule : Prop :=
  ∀ (s : State) (x : Ctx) (c : Ctl) (cl : Clause) (off : BitVec 19) (a : Src) (rp : W64) (o : Out), ctlIssues s x c cl →
    x.path.rpc = some rp → (o = exec (.join c) s ∨ (o = exec (.nop c) s ∧ behind x cl = rp) ∨ (o = exec (.bra c off) s ∧ ahead x off = rp)
      ∨ (o = exec (.brx c a) s ∧ x.sca s.clk c.lit a = rp)) →
    let ts := x.coh.threadsOf x.exec
    let holds (r : Rec) : Prop := r.rp = rp ∧ ∀ t ∈ ts, t ∈ r.m
    ((∀ r ∈ x.blk.recs, ¬ holds r) → continuesAt s x o rp none (fun _ => False))
    ∧ ∀ pre r post, x.blk.recs = pre ++ r :: post → holds r → (∀ q ∈ post, ¬ holds q) →
      let arr := ts.foldl setIns r.arr
      (arr ≠ r.m → ∃ t, o = .next t ∧ (t.block x.ref.blk).map (·.recs) = some (pre ++ { r with arr := arr } :: post)
        ∧ (t.block x.ref.blk).map (fun b => { b.bare with recs := [] }) = some { x.blk.bare with recs := [] }
        ∧ slotFreed t x ∧ clauseOver t x
        ∧ s.keeps t (fun p => clauseEnds x p ∨ p = .slot x.ref (!x.isB) ∨ p = .spill x.ref ∨ p = .blk x.ref.blk))
      ∧ (arr = r.m → r.m ≠ [] → (r.blk = false ∨ r.keep = true) → r.orpc ≠ some rp → (AMap.keys x.blk.cohs).Nodup →
        lanesIn x.coh r.m ≠ 0#32 → ∃ t, o = .next t ∧ (t.block x.ref.blk).map (·.recs) = some (pre ++ post)
          ∧ (t.block x.ref.blk).map (fun b => { b.bare with recs := [] }) = some { x.blk.bare with recs := [] }
          ∧ t.slot x.ref x.isB = some (mkPath rp (lanesIn x.coh r.m) r.orpc) ∧ clauseOver t x
          ∧ (∀ j k, x.blk.coh j = some k → j ≠ x.ref.coh →
              t.coh ⟨x.ref.blk, j⟩ = some (if lanesIn k r.m = 0#32 then k
                else k.joined (mkPath rp (lanesIn k r.m) r.orpc) (if r.blk then 1#2 else 0#2)))
          ∧ s.keeps t (fun p => clauseEnds x p ∨ rejoinPlaces x p))

/-- R237, R236, R251, R249: BRC. One side empty: the path goes on whole. Both: a record is made unless the path's RPC is the reconvergence
point already; the fall side keeps its slot, the taken side takes the other or is pushed with KIND 0, and slot A issues next; a fall side
that stands at the reconvergence point arrives at once. A 33rd record and a full spill stack fault before anything changes. -/
def branchesDivergeRule : Prop :=
  ∀ (s : State) (x : Ctx) (c : Ctl) (cl : Clause) (off : BitVec 19) (rec : BitVec 10) (p : Src), ctlIssues s x c cl →
    let mask : W32 := (x.sca s.clk c.lit p).setWidth 32
    let tk := x.exec &&& mask
    let ft := x.exec &&& ~~~mask
    let rn := x.path.pc + 8#64 * rec.setWidth 64
    let run := exec (.brc c off rec p) s
    let ts := x.coh.threadsOf x.exec
    let tside : Path := mkPath (ahead x off) tk (some rn)
    let fside : Path := { x.path with pc := behind x cl, mask := ft, rpc := some rn, wait := none, cl := none, stp := x.stepped }
    let fresh : Prop := x.path.rpc ≠ some rn
    let made (arr : List Nat) : List Rec := x.blk.recs ++ (if x.path.rpc = some rn then [] else [⟨rn, x.path.rpc, ts, arr, false, false, []⟩])
    let moves (t : State) (arr : List Nat) : Prop := run = .next t ∧ clauseOver t x
      ∧ (t.block x.ref.blk).map (·.recs) = some (made arr)
      ∧ (t.block x.ref.blk).map (fun b => { b.bare with recs := [] }) = some { x.blk.bare with recs := [] }
      ∧ s.keeps t (fun p => clauseEnds x p ∨ p = .slot x.ref (!x.isB) ∨ p = .spill x.ref ∨ p = .blk x.ref.blk)
    (ft = 0#32 → x.path.rpc ≠ some (ahead x off) → continuesAt s x run (ahead x off) x.path.rpc (fun _ => False))
    ∧ (ft ≠ 0#32 → tk = 0#32 → x.path.rpc ≠ some (behind x cl) → continuesAt s x run (behind x cl) x.path.rpc (fun _ => False))
    ∧ (ft ≠ 0#32 → tk ≠ 0#32 →
      (fresh → 32 ≤ x.blk.recs.length → run = .next (s.trapped x (Fz.of 0x02 0x2C x.exec)))
      ∧ ((fresh → x.blk.recs.length < 32) →
        ((x.coh.path (!x.isB)).isSome = true → x.blk.cfg.spd ≤ x.coh.spill.length → run = .next (s.trapped x (Fz.of 0x02 0x2A x.exec)))
        ∧ ((x.coh.path (!x.isB) = none ∨ x.coh.spill.length < x.blk.cfg.spd) → ahead x off ≠ rn →
          (behind x cl ≠ rn → ∃ t, moves t []
            ∧ t.slot x.ref x.isB = some fside
            ∧ (t.coh x.ref).map (fun k => (k.selB, k.mid)) = some (true, false)
            ∧ match x.coh.path (!x.isB) with
              | none => t.slot x.ref (!x.isB) = some tside ∧ (t.coh x.ref).map (·.spill) = some x.coh.spill
              | some q =>
                if q.barWait then t.slot x.ref (!x.isB) = some tside
                  ∧ (t.coh x.ref).map (·.spill) = some (x.coh.spill ++ [⟨{ q with dem := false }, 0#2⟩])
                else t.slot x.ref (!x.isB) = some q ∧ (t.coh x.ref).map (·.spill) = some (⟨tside, 0#2⟩ :: x.coh.spill))
          ∧ (behind x cl = rn → fresh →
            let arr := (x.coh.threadsOf ft).foldl setIns []
            arr ≠ ts → ∃ t, moves t arr ∧ t.slot x.ref x.isB = some tside ∧ t.slot x.ref (!x.isB) = x.coh.path (!x.isB)
              ∧ (t.coh x.ref).map (·.spill) = some x.coh.spill))))

/-- R248, R238, R26: EXIT ends the path and takes its threads out of their lanes and of every record; a record left without threads is freed.
The block goes on with the threads that are left. -/
def exitEndsItsThreadsRule : Prop :=
  ∀ (s : State) (x : Ctx) (c : Ctl) (cl : Clause), ctlIssues s x c cl → (∀ p ∈ s.pend, p.ref ≠ x.ref) → x.blk.arr = [] →
    (∀ q, x.coh.path (!x.isB) = some q → q.mask &&& x.exec = 0#32 ∧ q.mask ≠ 0#32) →
    (∀ e ∈ x.coh.spill, e.path.mask &&& x.exec = 0#32 ∧ e.path.mask ≠ 0#32) →
    ((∃ k ∈ x.blk.cohs, k.1 ≠ x.ref.coh ∧ k.2.lanes ≠ []) ∨ ∃ l, l ∉ x.lanes ∧ (s.thr x.ref l).isSome = true) →
    let cut (ts : List Nat) : List Nat := ts.filter (fun t => !(x.coh.threadsOf x.exec).contains t)
    (∀ r ∈ x.blk.recs, cut r.m ≠ [] → cut r.m ≠ cut r.arr) →
    ∃ t, exec (.exit c) s = .next t ∧ (∀ l, t.thr x.ref l = if l ∈ x.lanes then none else s.thr x.ref l) ∧ slotFreed t x ∧ clauseOver t x
      ∧ (t.block x.ref.blk).map (·.recs) = some ((x.blk.recs.map (fun r => { r with m := cut r.m, arr := cut r.arr })).filter (fun r => !r.m.isEmpty))
      ∧ (t.block x.ref.blk).map (fun b => { b.bare with recs := [] }) = some { x.blk.bare with recs := [] }
      ∧ s.keeps t (fun p => clauseEnds x p ∨ p = .slot x.ref (!x.isB) ∨ p = .spill x.ref ∨ p = .blk x.ref.blk
          ∨ ∃ l ∈ x.lanes, p = .seed x.ref l ∨ p = .resv x.ref l ∨ p = .ident x.ref l ∨ ∃ n, p = .v x.ref l n ∨ p = .m x.ref l n)

/-- R243, R244, R245, R246: a path at REGROUP or BRC.blk stops, blocked; with spill entries of its cohort it is an illegal-state fault. When
every thread of the block has met and nothing of it is under way, the threads take lanes densely, group by group, with their whole state;
each cohort takes s and k from the lowest cohort that supplied it. The threads of a complete block-wide record without KEEP return to the
lanes recorded for them. -/
def meetingsRepackTheBlockRule : Prop :=
  (∀ (s : State) (x : Ctx) (c : Ctl) (off : BitVec 19) (rec : BitVec 10) (p : Src), s.issues x c →
    ∀ o ∈ [exec (.regroup c) s, exec (.brcBlk c off rec p) s, exec (.brcBlkKeep c off rec p) s],
      if x.coh.spill = [] then waitsAs s x o ⟨.meeting, false, s.clk, 0, []⟩ (fun _ => False)
      else o = .next (s.trapped x (Fz.of 0x06 0 x.exec)))
  ∧ (∀ (s : State) (blk : Nat) (b nb : Block) (retire : Bool) (gs : List MGroup), s.block blk = some b → (∀ q ∈ s.blocks, q.2.logr = none) →
    b.saved = false → b.allMet = true → s.blockQuiet blk b = true → b.stops ≠ [] → (∀ c ∈ b.cohs, s.partStopped ⟨blk, c.1⟩ = false) →
    ((∀ p ∈ b.stops, ∃ c, p.i = some (.regroup c)) ∧ retire = true ∧ gs = sortGroups (b.regroups b.stops ++ b.waiting)
      ∨ ∃ p0 ps c off rec m, b.stops = p0 :: ps ∧ (∀ p ∈ b.stops, p.path.pc = p0.path.pc ∧ p.path.rpc = p0.path.rpc
            ∧ p.i = some (if retire then .brcBlkKeep c off rec m else .brcBlk c off rec m)) ∧ b.recs.length < 32
          ∧ let sides := s.blkSides blk b b.stops
            sides.1 ≠ [] ∧ sides.2 ≠ []
            ∧ let rn := some (p0.path.pc + 8#64 * rec.setWidth 64)
              gs = ⟨some (p0.path.next, rn), sides.2⟩ :: ⟨some (p0.path.pc + 8#64 * off.signExtend 64, rn), sides.1⟩ :: sortGroups b.waiting) →
    b.pack gs retire = some nb →
    let order := gs.flatMap (·.ts)
    (∀ t ∈ order, (b.threadOf t).isSome = true) → (∀ j < (order.length + 31) / 32, (b.coh j).isSome = true) → (AMap.keys b.cohs).Nodup →
    ∃ t, exec (.meetingComplete blk) s = .next t ∧ (t.block blk).map (·.ncoh) = some ((order.length + 31) / 32) ∧ (∀ n, t.bAt blk n = s.bAt blk n)
      ∧ (∀ n u, order[n]? = some u → ∀ j th, b.threadOf u = some (j, th) → t.thr ⟨blk, n / 32⟩ (n % 32) = some { th with resv := none })
      ∧ (∀ j < (order.length + 31) / 32, ∀ i, (∃ n u th, order[n]? = some u ∧ n / 32 = j ∧ b.threadOf u = some (i, th)) →
          (∀ n u k th, order[n]? = some u → n / 32 = j → b.threadOf u = some (k, th) → i ≤ k) → i < 1000 →
          ∀ m, t.sAt ⟨blk, j⟩ m = s.sAt ⟨blk, i⟩ m ∧ t.kAt ⟨blk, j⟩ m = s.kAt ⟨blk, i⟩ m)
      ∧ (∀ j, (order.length + 31) / 32 ≤ j → ∀ l, t.thr ⟨blk, j⟩ l = none))
  ∧ ∀ (s : State) (blk : Nat) (b : Block) (r : Rec) (i : Nat), s.block blk = some b → (∀ q ∈ s.blocks, q.2.logr = none) → b.saved = false →
    s.blockQuiet blk b = true → b.recs[i]? = some r → (∀ q ∈ b.recs.take i, q.m ≠ q.arr) → r.blk = true → r.keep = false → r.m ≠ [] → r.m = r.arr →
    (AMap.keys b.cohs).Nodup → (b.cohs.flatMap (fun c => c.2.lanes.map (·.2.t))).Nodup →
    (∀ u v o, r.origins.find u = some o → r.origins.find v = some o → u = v) → (∀ c ∈ b.cohs, c.2.mid = false) →
    (b.isHandler = true ∨ s.heldSegs b.coreId
      + b.cfg.segs * (b.cohs.filter (fun c => c.2.retired && r.origins.any (fun o => o.2.1 == c.1))).length ≤ 256) →
    ∃ t, exec (.blkRecordRestore blk) s = .next t ∧ (t.block blk).map (·.recs.length) ≠ none ∧
      ∀ u j th o k, b.threadOf u = some (j, th) → r.origins.find u = some o → b.coh o.1 = some k → t.thr ⟨blk, o.1⟩ o.2 = some th

/-- The record that a lane of SPAWN without an affinity address appends. -/
def spawned (s : State) (x : Ctx) (c : Ctl) (e : Src) (v : VNum) (l : Nat) : Task :=
  ⟨x.blk.grid, x.sca s.clk c.lit e, [0, 1, 2, 3].map (fun i => (s.vAt x.ref l (v.toNat + i)).val), 0#64, none, s.clk, none⟩

/-- R299, R301, R300, R55: SPAWN waits for the cohort's accesses, then appends one record a lane, in ascending LANE, to the die's queue and goes
on at the next clause; a full queue makes it wait with the lanes whose records found room. Its counter stands from its issue until the last
record is appended. A group launches when it holds 32 records. The wait ends when the accesses are performed and the queue has room. -/
def Obligations.SpawnAppendsItsRecords : Prop :=
  (∀ (s : State) (x : Ctx) (c : Ctl) (cl : Clause) (e : Src) (v : VNum) (did : W32), ctlIssues s x c cl → x.coh.rinc = false →
    (x.path.wait = none ∧ did = 0#32 ∨ ∃ w, x.path.wait = some w ∧ w.kind = .spawn ∧ w.num = did.toNat) →
    let run := exec (.spawn c e v (.special 0x0D#5)) s
    let q := s.die x.blk.die
    let ts := (x.lanes.filter (fun l => !did.getLsbD l)).map (spawned s x c e v)
    let again := x.path.wait.isSome
    let mine (u : Task) : Bool := u.seq.isNone && u.grid == x.blk.grid && u.entry == x.sca s.clk c.lit e && u.clus.isNone
    let had := (q.tq.filter mine).length
    let sole (t : State) : Prop := { (t.die x.blk.die).bare with tq := [], tseq := 0 } = { q.bare with tq := [], tseq := 0 }
    let ctr (p : Place) : Prop := ∃ n, c.set = some n ∧ p = .ctr x.ref n.toNat
    let waiting (num : Nat) : PWait := ⟨.spawn, false, (x.path.wait.map (·.since)).getD s.clk, num, []⟩
    let waits (num : Nat) : Prop := waitsAs s x run (waiting num) (fun p => again = false ∧ ctr p)
      ∧ ∀ t, run = .next t → t.die x.blk.die = q ∧ ∀ n, c.set = some n → t.ctrAt x.ref n.toNat = s.ctrAt x.ref n.toNat + (if again then 0#6 else 1#6)
    let goes : Prop := continuesAt s x run (behind x cl) x.path.rpc (fun p => p = .die x.blk.die ∨ again = true ∧ ctr p)
      ∧ ∀ t, run = .next t → sole t ∧ ∀ n, c.set = some n → s.ctrAt x.ref n.toNat ≠ 0#6 →
          t.ctrAt x.ref n.toNat = s.ctrAt x.ref n.toNat - (if again then 1#6 else 0#6)
    (∀ l ∈ x.lanes, (s.thr x.ref l).isSome ∧ ∀ i < 4, (s.vAt x.ref l (v.toNat + i)).psn = false) → v.toNat + 3 < 256 →
    (s.accessesDone x.ref false = false → waits did.toNat)
    ∧ (s.accessesDone x.ref false = true → ts ≠ [] → x.path.rpc ≠ some (behind x cl) →
      (q.tq.length + ts.length ≤ 16384 → had + ts.length < 32 →
        goes ∧ ∀ t, run = .next t → (t.die x.blk.die).tq = q.tq ++ ts ∧ (t.die x.blk.die).tseq = q.tseq)
      ∧ (q.tq.length + ts.length ≤ 16384 → had + ts.length = 32 →
        goes ∧ ∀ t, run = .next t → (t.die x.blk.die).tseq = q.tseq + 1
          ∧ (t.die x.blk.die).tq = (q.tq ++ ts).map (fun u => if mine u then { u with seq := some q.tseq } else u))
      ∧ (q.tq.length = 16384 → waits did.toNat)))
  ∧ ∀ (s : State) (p : PathRef) (w : PWait) (x : Ctx) (c : Ctl) (e : Src) (v : VNum), s.waiting p = some w → s.pathCtx p = some x →
    w.kind = .spawn → s.accessesDone x.ref false = true → x.path.word x.blk.lim = some (.spawn c e v (.special 0x0D#5)) →
    (s.die x.blk.die).tq.length < 16384 → endsWait s p (exec (.spawnQueueRoom p) s)

/-- A tangent word on a vector register completes: in each lane the register, or its pair where it is tagged F64, keeps its value and has the
given tangents, without poison; nothing else moves. -/
def tangentDone (s : State) (x : Ctx) (c : Ctl) (n : VNum) (o : Out) (ks : List Nat) (v : Nat → W64) : Prop :=
  ∃ t, o = .next t ∧ t.passed x c .none
    ∧ (∀ l ∈ x.lanes,
        let wide := (s.vAt x.ref l n.toNat).tag = .f64
        let new (m : Nat) (f : W64 → W32) : Prop :=
          let q := s.vAt x.ref l m
          let r := t.vAt x.ref l m
          r.val = q.val ∧ r.tag = q.tag ∧ r.psn = q.psn ∧ ∀ k, r.tan.get k 0#32 = (if k ∈ ks then f (v l) else q.tan.get k 0#32)
            ∧ r.tpsn.contains k = (!ks.contains k && q.tpsn.contains k)
        new n.toNat (fun w => w.setWidth 32) ∧ (wide → new (n.toNat + 1) (fun w => w.extractLsb' 32 32)))
    ∧ s.keeps t (fun p => x.moved p ∨ ∃ l ∈ x.lanes, p = .v x.ref l n.toNat ∨ ((s.vAt x.ref l n.toNat).tag = .f64 ∧ p = .v x.ref l (n.toNat + 1)))

/-- R231, R229, R61: DX has no effect but on the next word, before which it stands. TGET makes a tangent its primal result, and in launch-wide
mode every tangent of its destination zero; no prefix stands before it (R225). TSET, TZERO and TSEED change only tangents, of both registers of
a pair where the register is tagged F64. On matrix registers they enter the sequencer
(MatrixWordsEnterTheSequencer) with these results. -/
def Obligations.TangentWords : Prop :=
  (∀ (s : State) (x : Ctx) (mode : DxMode) (mask : BitVec 4) (cl : Clause), s.ctx = some x → x.path.cl = some cl →
    ∃ t, exec (.dx mode mask) s = .next t ∧ t.slot x.ref x.isB = some { x.path with cl := some { cl with wi := cl.wi + 1, dx := some (mode, mask) } }
      ∧ s.keeps t (· = .slot x.ref x.isB))
  ∧ (∀ (s : State) (x : Ctx) (c : Ctl) (k : BitVec 2) (mask : BitVec 4) (d : Dst) (n : VNum) (a : Src) (e : Nat → El), s.issues x c →
    s.errIn = [] → (∀ l ∈ x.lanes, (s.thr x.ref l).isSome) →
    let tag (l : Nat) : Tag := (s.vAt x.ref l n.toNat).tag
    let K := k.toNat + 1
    let y : Ctx := { x with blk := { x.blk with cfg := { x.blk.cfg with dualn := if x.blk.cfg.dualn = 0 then 0 else 4 } } }
    ((∀ m, d ≠ .m m) → x.path.cl.bind (·.dx) = none → (∀ l ∈ x.lanes, let f := (x.rd s c l a).tag.getD .raw
        (if f = .f64 then x.elFmt s.clk c.lit .f64 l a = some (e l) else e l = x.rd s c l a) ∧ (e l).tpsn.contains K = false
        ∧ x.takes d l f (f == .f64)) →
      ∃ r, s.vecDone y c d (exec (.tget c k d a) s) r ∧ ∀ l ∈ x.lanes, let f := (x.rd s c l a).tag.getD .raw
        (r l).val = (e l).t K ∧ (r l).tag = f ∧ (r l).wide = (f == .f64) ∧ (r l).keep = false ∧ ∀ j, (r l).tan.get j 0#64 = 0#64)
    ∧ ((∀ l ∈ x.lanes, tag l = .f64 → n.toNat % 2 = 0) →
      ((∀ l ∈ x.lanes, x.elFmt s.clk c.lit (tag l) l a = some (e l) ∧ (e l).psn = false) →
        tangentDone s x c n (exec (.tset c k (.v n) a) s) [K] (fun l => (e l).val))
      ∧ tangentDone s x c n (exec (.tzero c mask (.v n)) s) (maskTans mask) (fun _ => 0#64)
      ∧ ((∀ l ∈ x.lanes, (tag l).isFp = true) → tangentDone s x c n (exec (.tseed c k (.v n)) s) [K] (fun l => tagOnes (tag l)))))
  ∧ ∀ (c : Ctl) (k : BitVec 2) (mask : BitVec 4) (d a : MNum) (mode : DxMode) (ks : List Nat) (T : Nat) (thr : W64) (ss : List MSrc) (th : Thread)
      (ring : Option MReg),
    let A := th.mreg a.toNat
    let D := th.mreg d.toNat
    let K := k.toNat + 1
    let gives (i : Instr) (psn : Bool) (f : MReg → Prop) : Prop :=
      ∃ m w, matLane i mode ks T thr ss th ring = some m ∧ m.res.mat = some w ∧ m.psn = psn ∧ f w
    let flt : Prop := D.tag = .f32 ∨ D.tag = .f64
    let only (w : MReg) (j : Nat) (es : List W64) : Prop := w.el = D.el ∧ w.rows = D.rows ∧ w.cols = D.cols ∧ w.tag = D.tag ∧ w.tp = max D.tp j
      ∧ w.tan.find j = some es ∧ ∀ i, i ≠ j → w.tan.find i = if i ≤ D.tp then D.tan.find i else none
    (A.rows ≠ 0 → gives (.tget c k (.m d) (.m a)) A.psn (fun w => w.rows = A.rows ∧ w.cols = A.cols ∧ w.tag = A.tag ∧ w.tp = 0
        ∧ w.tan = [] ∧ (K ≤ A.tp → w.el = mxFlat (mxTan A K))
        ∧ (A.tp < K → ∀ i < A.rows, ∀ j < A.cols, if A.tag.isInt = true then elemAt w i j = 0 else (mxVal w i j).isZero = true)))
    ∧ (D.rows ≠ 0 → A.rows = D.rows → A.cols = D.cols → A.tag = D.tag → flt → gives (.tset c k (.m d) (.m a)) A.psn (fun w => only w K A.el))
    ∧ (D.rows ≠ 0 → flt → gives (.tseed c k (.m d)) false (fun w => only w K (List.replicate (D.rows * D.cols) (tagOnes D.tag))))
    ∧ (D.rows ≠ 0 → gives (.tzero c mask (.m d)) false (fun w => w.el = D.el ∧ w.rows = D.rows ∧ w.cols = D.cols ∧ w.tag = D.tag
        ∧ (∀ i ∈ maskTans mask, w.tan.find i = none ∧ w.tp ≠ i) ∧ (∀ i, 1 ≤ i → i ≤ 4 → i ≤ D.tp → i ∉ maskTans mask → w.tan.find i = D.tan.find i ∧ i ≤ w.tp)))
    ∧ (A.rows = 0 → D.rows = 0 → ∀ i ∈ [Instr.tget c k (.m d) (.m a), .tset c k (.m d) (.m a), .tzero c mask (.m d), .tseed c k (.m d)],
        matLane i mode ks T thr ss th ring = none)

/-- The statements `controlWordsMoveTheirPathRule`, `pathsArriveAndRejoinRule`, `branchesDivergeRule` together. -/
def Obligations.ControlWords : Prop := controlWordsMoveTheirPathRule ∧ pathsArriveAndRejoinRule ∧ branchesDivergeRule

/-- The statements `exitEndsItsThreadsRule`, `meetingsRepackTheBlockRule` together. -/
def Obligations.ExitAndMeetings : Prop := exitEndsItsThreadsRule ∧ meetingsRepackTheBlockRule

/-! ## Exceptions, handlers, system words (CLASS 0xD and 0xE) -/

/-- The handler `s.nid` starts for a record of the grid `gid` (R315, R316): its block, its one cohort, what its registers hold, and the new
capability `s.nid + 1`. -/
def handlerStarts (s t : State) (nest : Bool) (slot die core gid : Nat) (g : Grid) (bid : W32 × W32 × W32) (w : FRec) (kw : W64) : Prop :=
  ∃ b k, t.block s.nid = some b ∧ b.coh 0 = some k ∧ b.kind = .handler nest slot (s.nid + 1) ∧ b.grid = gid ∧ b.die = die ∧ b.core = core
    ∧ b.bid = bid ∧ b.ntid = (32, 1, 1) ∧ b.nt = 32 ∧ b.ncoh = 1 ∧ b.cfg = ⟨64, 0, 8, 4096, 0, 8, false, 0⟩ ∧ b.mem = [] ∧ b.recs = []
    ∧ k.pa = some (mkPath g.lrec.hentry 0xFFFFFFFF#32 none) ∧ k.pb = none ∧ k.spill = [] ∧ k.frz = none
    ∧ k.part = (if nest then slot / 2 else 2 * slot)
    ∧ (∀ n, k.sreg n = if n = 0 then capVal (s.nid + 1) else if n = 1 then kw else 0#64)
    ∧ (∀ n, k.kreg n = 0#64 ∧ b.breg n = 0#32 ∧ k.ctr n = 0#6)
    ∧ (∀ l < 32, ∃ th, k.thread l = some th ∧ th.tid = (BitVec.ofNat 32 l, 0#32, 0#32) ∧ th.bid = bid
        ∧ (∀ n, th.vreg n = VReg.zero ∧ th.mreg n = MReg.empty) ∧ th.resv = none
        ∧ th.seed = seedForm g.lrec.seedb (l + 32 * (bid.1.toNat + g.lrec.gx * (bid.2.1.toNat + g.lrec.gy * bid.2.2.toNat))))
    ∧ (t.die die).caps = (s.die die).caps ++ [⟨s.nid + 1, w, s.nid⟩] ∧ t.nid = s.nid + 2

/-- The kind word of R324. -/
def kindOf (f : Freeze) (nest copy : Bool) : W64 :=
  BitVec.ofNat 64 (f.kind % 256 + f.code % 256 * 2 ^ 8 + f.level % 16 * 2 ^ 16 + f.widx % 65536 * 2 ^ 32 + (if copy then 2 ^ 48 else 0)
    + if nest then 2 ^ 49 else 0)

/-- The places that a freeze moves of its cohort and partition. -/
def frozenPlaces (b : Block) (r : CohRef) (part : Nat) (p : Place) : Prop :=
  p = .frz r ∨ p = .exc r ∨ p = .cnt r ∨ (∃ isB, p = .slot r isB) ∨ p = .spill r ∨ p = .blk r.blk ∨ p = .cur ∨ p = .part b.coreId part

/-- R313, R314, R317, R318: a fault freezes the whole cohort at its word: the paths keep their PCs and masks, the latch window and the
counters stay, its threads leave the block barrier, its partition issues others; PMASK and PIDX of a freeze between words or at a header are the
progress of the cohort's running matrix word (R196). A handler starts in a free handler slot of the core, slot 0
before slot 1, else on the core of the die with the lowest number; without one, or behind records that wait, the record joins the die fault
queue, or is held. A handler's own fault takes a nest slot or waits for one; a second-level handler's fault kills its grid with machine-check
code 8. -/
def faultsFreezeTheCohortAndStartAHandlerRule : Prop :=
  ∀ (s : State) (r : CohRef) (f : Freeze) (fl pm pi : W32) (b : Block) (k : Cohort) (g : Grid), s.block r.blk = some b → b.coh r.coh = some k →
    s.grid b.grid = some g → s.heldCap b.die r = false → (∀ i b', s.block i = some b' → i < s.nid) →
    let t := s.freezeCoh r f fl pm pi
    let w : FRec := .coh r.blk r.coh
    let d := s.die b.die
    let ts := k.threadsOf k.populated
    let pr := if f.header || f.between then (s.matProgress r).getD (pm, pi) else (pm, pi)
    let held (ex : Place → Prop) : Prop :=
      t.frozen r = some f ∧ (t.coh r).map (fun c => (c.flane, c.pmask, c.pidx, c.step)) = some (fl, pr.1, pr.2, 0)
      ∧ (∀ isB q, k.path isB = some q → ∃ q', t.slot r isB = some q' ∧ q'.pc = q.pc ∧ q'.mask = q.mask ∧ q'.rpc = q.rpc ∧ q'.cl = q.cl)
      ∧ (t.block r.blk).map (fun n => (n.arr, { n.bare with arr := [] })) = some (b.arr.filter (fun u => !ts.contains u), { b.bare with arr := [] })
      ∧ ((t.core b.coreId).part k.part).cur ≠ some (r.blk, r.coh) ∧ s.keeps t (fun p => frozenPlaces b r k.part p ∨ ex p)
    let fresh (p : Place) : Prop := p = .die b.die ∨ p = .names ∨ p = .blk s.nid ∨ ∃ h : CohRef, h.blk = s.nid ∧ (p = .coh h ∨ p = .frz h ∨ p = .exc h
      ∨ p = .spill h ∨ p = .sel h ∨ p = .latch h ∨ p = .ncls h ∨ p = .cnt h ∨ (∃ n, p = .s h n ∨ p = .k h n ∨ p = .ctr h n ∨ p = .b s.nid n)
      ∨ (∃ isB, p = .slot h isB) ∨ (∃ l, p = .seed h l ∨ p = .resv h l ∨ p = .ident h l ∨ ∃ n, p = .v h l n ∨ p = .m h l n)
      ∨ ∃ a, p = .byte (.hblk s.nid) a ∨ p = .full (.hblk s.nid) a ∨ p = .psn (.hblk s.nid) a)
    match b.kind with
    | .handler true _ _ => ((t.grid b.grid).map (·.stat) = some (if g.stat = .running then .killed else g.stat))
        ∧ (g.stat = .running → (t.grid b.grid).map (·.status) = some 0x10 ∧ ∀ i b', s.block i = some b' → b'.grid = b.grid → t.block i = none)
    | .handler false _ _ => match (if d.nestq = [] then (List.range 8).find? (fun j => s.nslotFree b.die j) else none) with
      | some j => held fresh ∧ handlerStarts s t true j b.die 0 b.grid g b.bid w (kindOf f true false)
      | none => held (· = .die b.die) ∧ (t.die b.die).nestq = d.nestq ++ [w] ∧ { (t.die b.die).bare with nestq := [] } = { d.bare with nestq := [] }
    | _ =>
      let here (j : Nat) : Bool := s.hslotFree (256 * b.die + b.core) j
      let starts (c j : Nat) : Prop := held fresh ∧ handlerStarts s t false j b.die c b.grid g b.bid w (kindOf f false false)
      if d.fq = [] ∧ d.heldq = [] ∧ here 0 = true then starts b.core 0
      else if d.fq = [] ∧ d.heldq = [] ∧ here 1 = true then starts b.core 1
      else match (if d.fq = [] ∧ d.heldq = [] then (s.freeHslots b.die).head? else none) with
        | some (c, j) => starts c j
        | none => held (· = .die b.die)
          ∧ if d.fq.length < 4096 ∧ d.heldq = [] then (t.die b.die).fq = d.fq ++ [w] ∧ { (t.die b.die).bare with fq := [] } = { d.bare with fq := [] }
            else (t.die b.die).heldq = d.heldq ++ [w] ∧ { (t.die b.die).bare with heldq := [] } = { d.bare with heldq := [] }

/-- R317, R318: the oldest held fault enters the queue when it has room; a free handler slot takes the oldest record of the queue, a free nest
slot the oldest fault that waits for one. -/
def slotsTakeTheRecordsInOrderRule : Prop :=
  ∀ (s : State) (die : Nat) (w : FRec) (rest : List FRec),
    let d := s.die die
    (d.heldq = w :: rest → d.fq.length < 4096 → ∃ t, exec (.heldFaultEnqueue die) s = .next t
      ∧ t.die die = { d with fq := d.fq ++ [w], heldq := rest } ∧ s.keeps t (· = .die die))
    ∧ ∀ b c bk k f g, w = .coh b c → s.block b = some bk → bk.coh c = some k → k.frz = some f → s.grid bk.grid = some g → b ≠ s.nid →
      (∀ j cr tl, d.fq = w :: rest → s.freeHslots die = (cr, j) :: tl → ∃ t, exec (.handlerSlotTakesRecord die) s = .next t
          ∧ handlerStarts s t false j die cr bk.grid g bk.bid w (kindOf f bk.isHandler false) ∧ (t.die die).fq = rest)
      ∧ (∀ j, d.nestq = w :: rest → (List.range 8).find? (fun j => s.nslotFree die j) = some j → ∃ t, exec (.nestSlotTakesFault die) s = .next t
          ∧ handlerStarts s t true j die 0 bk.grid g bk.bid w (kindOf f bk.isHandler false) ∧ (t.die die).nestq = rest)

/-- A word of a handler whose capability names the frozen cohort `r`, whose accesses are performed (R289). -/
def named (s : State) (x : Ctx) (c : Ctl) (cap : Src) (k : Cap) (r : CohRef) (b : Block) (ch : Cohort) (f : Freeze) : Prop :=
  s.issues x c ∧ s.errIn = [] ∧ (∀ q ∈ s.blocks, q.2.logr = none) ∧ x.blk.isHandler = true
  ∧ s.capOf x.blk.die (x.sca s.clk c.lit cap) = some k ∧ k.what = .coh r.blk r.coh ∧ s.block r.blk = some b ∧ b.coh r.coh = some ch ∧ ch.frz = some f
  ∧ s.accessesDone r false = true

/-- R322, R316, R328, R123: outside a handler every word of CLASS 0xD, SWR, TLBINV and ICINV is a protection fault with code 0x2D. In a handler
an unknown or ended capability is a capability fault with code 0x01; a register word or FRSM.pc or .step on a copy capability with code 0x02.
A cohort that is being stepped, or whose accesses before its freeze are not performed, is waited for (R329, R289). -/
def Obligations.HandlerWordsArePrivileged : Prop :=
  ∀ (s : State) (x : Ctx) (c : Ctl) (w : Bool) (k : BitVec 3) (d : Dst) (cap a n : Src) (sel : BitVec 4) (num : BitVec 10) (m m' : MNum),
    s.issues x c →
    let regs : List Out := [exec (.frds c d cap a) s, exec (.frdv c w k d cap a) s, exec (.frdm c k d cap m) s, exec (.fwrs c d cap a) s,
      exec (.fwrv c w k d cap a) s, exec (.fwrm c k m cap m') s]
    let kills : List Out := [exec (.fkilLanes c cap a) s, exec (.fkilCoh c cap) s, exec (.fkilGrid c cap) s, exec (.frel c cap) s]
    let resumes : List Out := [exec (.frsmPc c cap a) s, exec (.frsmStep c cap) s]
    let caps := exec (.finf c d cap sel) s :: exec (.frsmRetry c cap) s :: exec (.frsmSkip c cap) s :: (regs ++ kills ++ resumes)
    let v := s.capOf x.blk.die (x.sca s.clk c.lit cap)
    (x.blk.isHandler = false → ∀ o ∈ caps ++ [exec (.swr c num a) s, exec (.tlbinvPage c a) s, exec (.tlbinvPasid c) s, exec (.icinvRange c a n) s,
      exec (.icinvAll c) s], o = .next (s.trapped x (Fz.of 0x02 0x2D x.exec)))
    ∧ (x.blk.isHandler = true →
      (v = none → ∀ o ∈ caps, o = .next (s.trapped x (Fz.of 0x0F 0x01 x.exec)))
      ∧ (∀ q r b ch, v = some q → q.what = .coh r.blk r.coh → s.block r.blk = some b → b.coh r.coh = some ch → ch.lanes ≠ [] →
          (ch.frz = none ∨ s.accessesDone r false = false) → ∀ o ∈ caps, waitsNow s x o .regs (2 * q.num) (fun _ => False))
      ∧ ∀ q id cp f, v = some q → q.what = .copy id → s.copyT id = some cp → cp.susp = some f →
        (∀ o ∈ regs, o = .next (s.trapped x (Fz.of 0x0F 0x02 x.exec)))
        ∧ (s.accessesDone x.ref false = true → ∀ o ∈ resumes, o = .next (s.trapped x (Fz.of 0x0F 0x02 x.exec))))

/-- One word of the fault record of a frozen cohort (R324), as a number. -/
def recordWord (g : Grid) (b : Block) (r : CohRef) (ch : Cohort) (f : Freeze) (sel : Nat) : Nat :=
  let mask (p : Option Path) : Nat := ((p.map (·.mask)).getD 0#32).toNat
  let pc (p : Option Path) : Nat := ((p.map (·.pc)).getD 0#64).toNat
  let rpc (p : Option Path) : Nat := ((p.bind (·.rpc)).getD 0#64).toNat
  match sel with
  | 0 => (kindOf f b.isHandler false).toNat
  | 1 => f.hdr.toNat
  | 2 => ch.flane.toNat + ch.pmask.toNat * 2 ^ 32
  | 3 => ch.pidx.toNat + r.coh % 32 * 2 ^ 32 + ch.part % 4 * 2 ^ 37 + b.core % 256 * 2 ^ 39 + b.die % 4 * 2 ^ 47 + if f.isB then 2 ^ 49 else 0
  | 4 => if f.kind = 1 ∨ f.kind = 2 then f.va.toNat else 0
  | 6 => mask ch.pa + mask ch.pb * 2 ^ 32
  | 7 => pc ch.pa
  | 8 => pc ch.pb
  | 9 => rpc ch.pa
  | 10 => rpc ch.pb
  | 11 => g.pasid.toNat + g.qn.toNat * 2 ^ 20
  | _ => 0

/-- R324, R325, R326, R327, R328: what the reading words of a handler bring: FINF a word of the fault record at once; the others, once the
register writes of the frozen cohort have landed, its scalars, a vector register or tangent lane for lane with tag and poison mark, a matrix
register or tangent with TP 0, a descriptor. A register outside the frozen allocation is a protection fault with code 0x2F. -/
def handlersReadFrozenRegistersRule : Prop :=
  ∀ (s : State) (x : Ctx) (c : Ctl) (cap : Src) (k : Cap) (r : CohRef) (b : Block) (ch : Cohort) (f : Freeze) (g : Grid) (d : Dst)
    (sel : BitVec 4) (n : Sys2Proof.SNum) (kn : BitVec 3) (bn : BitVec 6) (w : Bool) (tk : BitVec 3) (v : VNum) (m dm : MNum), named s x c cap k r b ch f →
    s.grid b.grid = some g →
    let reads (run : Out) (d : Dst) (kind : PKind → Prop) : Prop := ∃ q, s.asyncDone x c run q (fun _ => False) ∧ kind q.kind ∧ q.dst = some d ∧ q.lanes = []
    let sca (run : Out) (z : W64) : Prop := reads run d (· = .sysread z)
    let out : Prop := b.cfg.vr ≤ v.toNat + (if w then 1 else 0) ∨ b.cfg.t < tk.toNat
    let T := tk.toNat
    let vec (l i : Nat) : VReg := match ch.thread l with
      | none => ⟨0#32, .raw, false, [], []⟩
      | some th =>
        let q := th.vreg i
        if T = 0 then ⟨q.val, q.tag, q.psn, [], []⟩ else ⟨q.tan.get T 0#32, q.tag, q.tpsn.contains T, [], []⟩
    sca (exec (.finf c d cap sel) s) (BitVec.ofNat 64 (recordWord g b r ch f sel.toNat))
    ∧ (s.regsSettled r = false → ∀ o ∈ [exec (.frds c d cap (.s n)) s, exec (.frdv c w tk d cap (.v v)) s, exec (.frdm c tk d cap m) s],
        waitsNow s x o .regs (2 * k.num + 1) (fun _ => False))
    ∧ (s.regsSettled r = true →
      sca (exec (.frds c d cap (.s n)) s) (ch.sreg n.toNat) ∧ sca (exec (.frds c d cap (.k kn)) s) (ch.kreg kn.toNat)
      ∧ sca (exec (.frds c d cap (.b bn)) s) ((b.breg bn.toNat).setWidth 64)
      ∧ sca (exec (.frds c d cap (.special 0#5)) s) ((((ch.path f.isB).map (·.mask)).getD 0#32).setWidth 64)
      ∧ (if out then exec (.frdv c w tk d cap (.v v)) s = .next (s.trapped x (Fz.of 0x02 0x2F x.exec))
        else reads (exec (.frdv c w tk d cap (.v v)) s) d (fun q => ∃ ls, q = .regread ls []
          ∧ (∀ l ∈ x.lanes, ls.find l = some (vec l v.toNat) ∧ (w = true → ls.find (32 + l) = some (vec l (v.toNat + 1))))))
      ∧ (∀ i z, (i = 0x18#5 ∧ w = false ∧ z = (fun l => ((ch.thread l).map (·.seed)).getD 0#32)
            ∨ i = 1#5 ∧ z = (fun l => if (ch.thread l).isSome then BitVec.ofNat 32 l else 0#32)
            ∨ i = 2#5 ∧ z = (fun l => ((ch.thread l).map (·.tid.1)).getD 0#32) ∨ i = 3#5 ∧ z = (fun l => ((ch.thread l).map (·.tid.2.1)).getD 0#32)
            ∨ i = 4#5 ∧ z = (fun l => ((ch.thread l).map (·.tid.2.2)).getD 0#32)) →
        reads (exec (.frdv c w 0#3 d cap (.special i)) s) d (fun q => ∃ ls, q = .regread ls []
          ∧ ∀ l ∈ x.lanes, ls.find l = some ⟨z l, .raw, false, [], []⟩ ∧ (w = true → ls.find (32 + l) = some ⟨0#32, .raw, false, [], []⟩)))
      ∧ (b.cfg.t < T → exec (.frdm c tk d cap m) s = .next (s.trapped x (Fz.of 0x02 0x2F x.exec)))
      ∧ (T ≤ b.cfg.t →
        ((∀ l ∈ x.lanes, ∀ th, ch.thread l = some th → (th.mreg m.toNat).isEmpty = false ∧ ∀ h, x.coh.thread l = some h →
            s.laneTiles x.ref l h dm (frzM (th.mreg m.toNat) T) ≤ x.blk.cfg.mtb) →
          reads (exec (.frdm c tk (.m dm) cap m) s) (.m dm) (fun q => ∃ ms, q = .regread [] ms ∧ ∀ l ∈ x.lanes, ∀ th, ch.thread l = some th →
            ∃ z, ms.find l = some z ∧ z.tp = 0 ∧ z.tan = [] ∧
              let o := th.mreg m.toNat
              z.rows = o.rows ∧ z.cols = o.cols ∧ z.tag = o.tag ∧ (T = 0 → z.el = o.el ∧ z.sc = o.sc ∧ z.psn = o.psn)
              ∧ (T ≠ 0 → ∀ es, o.tan.find T = some es → z.el = es)))
        ∧ ∀ u, reads (exec (.frdm c tk (.v u) cap m) s) (.v u) (fun q => ∃ ls, q = .regread ls [] ∧ ∀ l ∈ x.lanes, ∃ z, ls.find l = some z ∧ z.tag = .raw
            ∧ ∀ th, ch.thread l = some th →
              let o := th.mreg m.toNat
              z.val = BitVec.ofNat 32 (o.rows % 16 + o.cols % 16 * 2 ^ 4 + o.tag.code.toNat * 2 ^ 8 + (if o.psn then 2 ^ 15 else 0)
                + (if o.kax then 2 ^ 16 else 0) + o.tp % 8 * 2 ^ 17))))

/-- R55, R58, R344, R121: a read of the handler or system words lands: its destination holds the value, with no tangents, and its counter is one
less. A mailbox word is read as it lands, a query of objects, batches and slots samples then. -/
def handlerAndSystemReadsLandRule : Prop :=
  ∀ (s : State) (id : Nat) (p : Pend) (b : Block) (l0 : Nat), s.pendOf id = some p → s.isSaved p.blk = false → s.partStopped p.ref = false →
    s.block p.blk = some b → (s.thr p.ref l0).isSome = true → (∀ q ∈ s.blocks, q.2.logr = none) → p.smp = none → p.lanes = [] → p.more = false →
    let lands (regs : State → Prop) (pl : Place → Prop) : Prop := ∃ t, exec (.handlerOrSystemReadLands id) s = .next t ∧ regs t ∧ lanesLeft s t p []
      ∧ s.keeps t (fun w => w = .pend ∨ (∃ k, p.slot = some k ∧ w = .ctr p.ref k.toNat) ∨ pl w)
    let sca (z : W64) : Prop :=
      (∀ n, p.dst = some (.s n) → lands (fun t => t.sAt p.ref n.toNat = z) (· = .s p.ref n.toNat))
      ∧ ∀ n, p.dst = some (.b n) → lands (fun t => t.bAt p.blk n.toNat = z.setWidth 32) (· = .b p.blk n.toNat)
    match p.kind with
    | .sysread z => sca z
    | .mbxr j w => sca ((s.die b.die).mbx.get (8 * j.toNat + w.toNat) 0#64)
    | .bquery sel o => ∀ y, s.cohCtx p.ref = some y → sca (s.bquery y sel o)
    | .regread ls ms =>
      (∀ n, p.dst = some (.v n) → (AMap.keys ls).Nodup → (∀ i ∈ AMap.keys ls, i < 64) → lands (fun t => ∀ l z, ls.find l = some z →
          (s.thr p.ref (l % 32)).isSome = true →
          let q := t.vAt p.ref (l % 32) (n.toNat + l / 32)
          q.val = z.val ∧ q.tag = z.tag ∧ q.psn = z.psn ∧ ∀ k, 1 ≤ k → k ≤ 4 → q.tan.get k 0#32 = 0#32 ∧ q.tpsn.contains k = false)
        (fun w => ∃ l, w = .v p.ref l n.toNat ∨ w = .v p.ref l (n.toNat + 1)))
      ∧ ∀ n, p.dst = some (.m n) → (AMap.keys ms).Nodup → lands (fun t => ∀ l z, ms.find l = some z → (s.thr p.ref l).isSome = true →
          t.mAt p.ref l n.toNat = z) (fun w => ∃ l, w = .m p.ref l n.toNat)
    | _ => True

/-- R325, R326, R327, R328: what the writing words of a handler write, once the register writes of the frozen cohort have landed: a scalar; a
vector register, tangent or SEED in the lanes of EXEC that hold a frozen thread; a matrix register or tangent. The frozen cohort's latch window
stays. -/
def Obligations.HandlersWriteFrozenRegisters : Prop :=
  ∀ (s : State) (x : Ctx) (c : Ctl) (cap a : Src) (k : Cap) (r : CohRef) (b : Block) (ch : Cohort) (f : Freeze) (n : Sys2Proof.SNum) (kn : BitVec 3)
    (bn : BitVec 6) (w : Bool) (tk : BitVec 3) (v : VNum) (m am : MNum), named s x c cap k r b ch f → s.regsSettled r = true →
    let A := x.sca s.clk c.lit a
    let T := tk.toNat
    let ls := x.lanes.filter (fun l => (ch.thread l).isSome)
    let e (l : Nat) : El := x.el s.clk c.lit w l a
    let writes (run : Out) (pl : Place → Prop) (regs : State → Prop) : Prop := ∃ t, run = .next t ∧ regs t ∧ plainDone s x c run pl
    writes (exec (.fwrs c (.s n) cap a) s) (· = .s r n.toNat) (fun t => t.sAt r n.toNat = A)
    ∧ writes (exec (.fwrs c (.k kn) cap a) s) (· = .k r kn.toNat) (fun t => t.kAt r kn.toNat = A)
    ∧ writes (exec (.fwrs c (.b bn) cap a) s) (· = .b r.blk bn.toNat) (fun t => t.bAt r.blk bn.toNat = A.setWidth 32)
    ∧ ((∀ l ∈ ls, (e l).psn = false) →
      (w = false → writes (exec (.fwrv c w 0#3 .seed cap a) s) (fun p => ∃ l ∈ ls, p = .seed r l) (fun t => ∀ l ∈ ls, t.seedAt r l = some ((e l).val.setWidth 32)))
      ∧ (v.toNat + (if w then 1 else 0) < b.cfg.vr → T ≤ b.cfg.t → writes (exec (.fwrv c w tk (.v v) cap a) s)
          (fun p => ∃ l ∈ ls, p = .v r l v.toNat ∨ (w = true ∧ p = .v r l (v.toNat + 1)))
          (fun t => ∀ l ∈ ls,
            let lo := t.vAt r l v.toNat
            let hi := t.vAt r l (v.toNat + 1)
            if T = 0 then lo.val = (e l).val.setWidth 32 ∧ lo.tag = (e l).moved a ∧ lo.psn = false ∧ lo.tan = (s.vAt r l v.toNat).tan
              ∧ (w = true → hi.val = (e l).val.extractLsb' 32 32 ∧ hi.psn = false)
            else lo.tan.get T 0#32 = (e l).val.setWidth 32 ∧ lo.val = (s.vAt r l v.toNat).val ∧ lo.tag = (s.vAt r l v.toNat).tag
              ∧ (w = true → hi.tan.get T 0#32 = (e l).val.extractLsb' 32 32))))
    ∧ ((b.cfg.vr ≤ v.toNat + (if w then 1 else 0) ∨ b.cfg.t < T) → exec (.fwrv c w tk (.v v) cap a) s = .next (s.trapped x (Fz.of 0x02 0x2F x.exec)))
    ∧ (T ≤ b.cfg.t → (∀ l ∈ ls, ∃ h th z, x.coh.thread l = some h ∧ ch.thread l = some th ∧ (h.mreg am.toNat).isEmpty = false ∧ (h.mreg am.toNat).psn = false
        ∧ fwrmReg T (h.mreg am.toNat) (th.mreg m.toNat) = some z ∧ s.laneTiles r l th m z ≤ b.cfg.mtb) →
      writes (exec (.fwrm c tk m cap am) s) (fun p => ∃ l ∈ ls, p = .m r l m.toNat) (fun t => ∀ l ∈ ls, ∀ h th, x.coh.thread l = some h → ch.thread l = some th →
        let q := t.mAt r l m.toNat
        let o := th.mreg m.toNat
        let z := h.mreg am.toNat
        if T = 0 then q.rows = z.rows ∧ q.cols = z.cols ∧ q.tag = z.tag ∧ q.kax = z.kax ∧ q.el = z.el ∧ q.sc = z.sc ∧ q.psn = false ∧ q.tp = 0 ∧ q.tan = []
        else z.rows = o.rows ∧ z.cols = o.cols ∧ z.tag = o.tag ∧ q.el = o.el ∧ q.tp = max o.tp T ∧ q.tan.find T = some z.el))

/-- The places of a frozen cohort that FRSM moves. -/
def resumePlaces (x : Ctx) (r : CohRef) (p : Place) : Prop :=
  x.moved p ∨ p = .die x.blk.die ∨ p = .frz r ∨ (∃ isB, p = .slot r isB) ∨ p = .sel r ∨ p = .latch r ∨ p = .cnt r

/-- R329, R123: FRSM waits for the handler's accesses, ends the capability but for .step, and resumes the cohort: .retry at its clause's header, at
the next word, or at its word fetched again for the lanes not in PMASK; .skip behind the word; .pc at another header with its mask and RPC;
.step as .retry with one word to issue. A header cannot be skipped (code 0x03). A suspended copy goes on where it stopped. -/
def Obligations.HandlersResumeTheCohort : Prop :=
  (∀ (s : State) (x : Ctx) (c : Ctl) (cap a : Src) (k : Cap) (r : CohRef) (b : Block) (ch : Cohort) (f : Freeze) (p : Path), named s x c cap k r b ch f →
    x.ref.blk ≠ r.blk → ch.path f.isB = some p → atRest b →
    let retry := exec (.frsmRetry c cap) s
    let skip := exec (.frsmSkip c cap) s
    let goPc := exec (.frsmPc c cap a) s
    let stp := exec (.frsmStep c cap) s
    let keep := p.wait.filter (fun w => w.kind == .mringRecv || w.kind == .reply)
    let resumes (run : Out) (ends : Bool) (q : Cohort) (ex : Place → Prop) : Prop := ∃ t, run = .next t ∧ t.passed x c .none ∧ t.coh r = some q
      ∧ (t.die x.blk.die).caps = (if ends then (s.die x.blk.die).caps.filter (fun z => z.num != k.num) else (s.die x.blk.die).caps)
      ∧ { (t.die x.blk.die).bare with caps := [] } = { (s.die x.blk.die).bare with caps := [] }
      ∧ s.keeps t (fun w => resumePlaces x r w ∨ ex w)
    let hdr (step : Nat) (q : Path) : Cohort := { ch.setPath f.isB (some { q with cl := none, wait := none }) with
      frz := none, step := step, latch := [], mid := false, selB := !f.isB }
    let word (step : Nat) (cl : Clause) : Cohort := { ch.setPath f.isB (some { p with cl := some cl, wait := keep }) with
      frz := none, step := step, mid := true, selB := f.isB, rpm := if f.between then ch.rpm else ch.rpm ||| ch.pmask }
    (s.accessesDone x.ref false = false → ∀ o ∈ [retry, skip, goPc, stp], waitsNow s x o .order 0 (fun _ => False))
    ∧ (s.accessesDone x.ref false = true →
      (f.header = true → p.rpc ≠ some p.pc → resumes retry true (hdr 0 p) (fun _ => False) ∧ resumes stp false (hdr 1 p) (fun _ => False))
      ∧ (f.header = true ∨ (f.between = false ∧ f.widx = 0) → skip = .next (s.trapped x (Fz.of 0x0F 0x03 x.exec)))
      ∧ (f.header = false → f.between = true → ∀ cl, p.cl = some cl →
          resumes retry true (word 0 cl) (fun _ => False) ∧ resumes skip true (word 0 cl) (fun _ => False) ∧ resumes stp false (word 1 cl) (fun _ => False))
      ∧ (f.header = false → f.between = false → ∀ g cl dx, s.grid b.grid = some g →
          (∀ z ∈ [s, s.endCap x.blk.die k.num], z.fetchClause b.coreId g.pasid b.lim f.hdr = (z, .ok cl)) →
          seekWord b.lim f.widx cl.words 1 none false = some dx →
          resumes retry true (word 0 { cl with wi := f.widx, dx := dx }) (fun _ => False) ∧ resumes stp false (word 1 { cl with wi := f.widx, dx := dx }) (fun _ => False))
      ∧ (s.frzOp r = none → ch.rinc = false →
        (f.header = false → f.between = false → f.widx ≠ 0 → ∀ i cl, p.cl = some cl → p.word b.lim = some i →
          resumes skip true { ch.setPath f.isB (some { p with wait := none, cl := some { cl with wi := cl.wi + (if i.usesLit then 2 else 1), dx := none } }) with
            frz := none, step := 0, rpm := 0#32, rinc := false, mid := true, selB := f.isB,
            latch := ((match i.push with
              | .vec => LEnt.vec []
              | .sca => .sca 0#64 false
              | .none => .none) :: ch.latch).take 8 } (fun _ => False))
        ∧ (p.dem = false → p.rpc ≠ some (x.sca s.clk c.lit a) →
          resumes goPc true { hdr 0 { p with pc := x.sca s.clk c.lit a } with rpm := 0#32, rinc := false } (fun _ => False)))))
  ∧ ∀ (s : State) (x : Ctx) (c : Ctl) (cap : Src) (k : Cap) (id : Nat) (q : CopyT) (f : Freeze), s.issues x c → x.blk.isHandler = true →
    s.accessesDone x.ref false = true → s.capOf x.blk.die (x.sca s.clk c.lit cap) = some k → k.what = .copy id → s.copyT id = some q → q.susp = some f →
    ∃ t, exec (.frsmRetry c cap) s = .next t ∧ t.passed x c .none ∧ t.copyT id = some { q with susp := none }
      ∧ (t.die x.blk.die).caps = (s.die x.blk.die).caps.filter (fun z => z.num != k.num) ∧ s.keeps t (fun w => x.moved w ∨ w = .die x.blk.die ∨ w = .copies)

/-- R330, R331, R319, R316: FKIL.lanes kills the lanes of its mask, FKIL.coh all: their threads are gone, the others stay with FLANE less
the killed; the last thread's end ends the capability. FKIL.grid kills the grid: its blocks, copies and tasks are gone and its status is killed.
FREL ends the capability and puts the record at the tail of the die fault queue, that of a handler at the tail of the nest slots' list. -/
def Obligations.HandlersKillAndRelease : Prop :=
  (∀ (s : State) (x : Ctx) (c : Ctl) (cap a : Src) (k : Cap) (r : CohRef) (b : Block) (ch : Cohort) (f : Freeze), named s x c cap k r b ch f →
    x.ref.blk ≠ r.blk → (∀ p ∈ s.pend, p.ref ≠ r) → ch.rinc = false →
    let m : W32 := (x.sca s.clk c.lit a).setWidth 32
    let gone (run : Out) (m : W32) : Prop := ∃ t, run = .next t ∧ t.passed x c .none ∧ (∀ l < 32, t.thr r l = if m.getLsbD l then none else s.thr r l)
      ∧ ((∃ l < 32, m.getLsbD l = false ∧ (s.thr r l).isSome) → (∀ l, (s.thr r l).isSome → l < 32) →
          (t.coh r).map (·.flane) = some (ch.flane &&& ~~~(ch.populated &&& m)) ∧ (t.frozen r).isSome ∧ (t.die x.blk.die).caps = (s.die x.blk.die).caps)
      ∧ ((∀ l, (s.thr r l).isSome → l < 32 ∧ m.getLsbD l = true) → ∀ q ∈ (t.die x.blk.die).caps, q.num ≠ k.num)
    gone (exec (.fkilLanes c cap a) s) m ∧ gone (exec (.fkilCoh c cap) s) 0xFFFFFFFF#32
    ∧ (∀ g, s.grid b.grid = some g → g.stat = .running → ∃ t, exec (.fkilGrid c cap) s = .next t
        ∧ t.grid b.grid = some { g with stat := .killed, status := 0x10 } ∧ (∀ i bk, s.block i = some bk → bk.grid = b.grid → t.block i = none)
        ∧ (∀ i bk, s.block i = some bk → (∀ q ∈ s.blocks, q.1 = i → q.2 = bk) → bk.grid ≠ b.grid → t.block i = some bk)
        ∧ t.copies = s.copies.filter (fun q => q.grid != b.grid) ∧ ∀ d, ∀ u ∈ (t.die d).tq, u.grid ≠ b.grid)
    ∧ ∃ t, exec (.frel c cap) s = .next t ∧ t.passed x c .none ∧ s.keeps t (fun w => x.moved w ∨ w = .die x.blk.die)
        ∧ (t.die x.blk.die).caps = (s.die x.blk.die).caps.filter (fun z => z.num != k.num)
        ∧ (let room := (s.die x.blk.die).fq.length < 4096 ∧ (s.die x.blk.die).heldq = []
          (t.die x.blk.die).fq = (if b.isHandler = false ∧ room then (s.die x.blk.die).fq ++ [k.what] else (s.die x.blk.die).fq)
          ∧ (t.die x.blk.die).heldq = (if b.isHandler = false ∧ ¬ room then (s.die x.blk.die).heldq ++ [k.what] else (s.die x.blk.die).heldq))
        ∧ (t.die x.blk.die).nestq = (if b.isHandler then (s.die x.blk.die).nestq ++ [k.what] else (s.die x.blk.die).nestq))
  ∧ ∀ (s : State) (blk coh : Nat) (b : Block) (k : Cohort) (isB : Bool) (p : Path) (cl : Clause), s.block blk = some b → b.coh coh = some k →
    2 ≤ k.step → k.frz = none → b.saved = false → k.path isB = some p → p.stp = true → (isB = true → ∀ q, k.pa = some q → q.stp = false) →
    p.cl = some cl → s.heldCap b.die ⟨blk, coh⟩ = true → (∀ n c, b.kind ≠ .handler true n c) → (∀ q ∈ s.blocks, q.2.logr = none) →
    let next := p.pc + BitVec.ofNat 64 (8 * (cl.words.length + 1))
    let stands (f : Freeze) : Prop := ∃ t, exec (.singleStepFreeze blk coh) s = .next t ∧ t.frozen ⟨blk, coh⟩ = some f
    (cl.wi ≤ cl.words.length → stands ⟨0x0E, 0, 0, cl.wi, isB, p.pc, 0#64, false, true, []⟩)
    ∧ (cl.words.length < cl.wi → atRest b → p.dem = false → p.rpc ≠ some next → stands ⟨0x0E, 0, 0, 0, isB, next, 0#64, false, true, []⟩)

/-- What SRD reads (R333, R339, R370) in the issuer's block, grid, core and die. -/
def srdGives (s : State) (x : Ctx) (n : Nat) : Option W64 :=
  let k := s.core x.blk.coreId
  let d := s.die x.blk.die
  let bank := d.banks.get ((n - 0x200) / 8) Bank.zero
  if 0x200 ≤ n then (match n % 8 with
    | 0 => some bank.status
    | 1 => some bank.addr
    | 2 => some bank.misc
    | 3 => some bank.ctl
    | 4 => some bank.count
    | _ => none)
  else if 0x100 ≤ n ∧ n < 0x120 then some (k.bpc.get (n - 0x100) 0#64)
  else if 0x120 ≤ n ∧ n < 0x124 then some (k.wpb.get (n - 0x120) 0#64)
  else match n with
    | 0x000 => some (if x.blk.isHandler then 0xFFFFFFFF#64 else BitVec.ofNat 64 x.blk.base)
    | 0x001 => some x.grid.lrec.result
    | 0x002 => some (BitVec.ofNat 64 x.grid.lrec.img)
    | 0x004 => some (x.grid.pasid.setWidth 64)
    | 0x005 => some (x.grid.qn.setWidth 64)
    | 0x008 => some (d.lifeh.setWidth 64)
    | 0x010 => some (BitVec.ofNat 64 d.fq.length)
    | 0x011 => some (BitVec.ofNat 64 (s.freeHslots x.blk.die).length)
    | 0x012 => some (if x.blk.isNest then 1#64 else 0#64)
    | 0x128 => some ((k.part x.coh.part).bphit.setWidth 64)
    | 0x130 => some (BitVec.ofNat 64 ((List.range 4).foldl (fun n p => n + if (k.part p).stopped then 2 ^ p else 0) 0))
    | 0x140 => some (d.smpper.setWidth 64)
    | 0x141 => some (d.smpdrop.setWidth 64)
    | 0x150 => some (if x.grid.recd then s.dbg.recctl ||| 1#64 else s.dbg.recctl &&& ~~~1#64)
    | 0x160 => some (d.mbxst.setWidth 64)
    | _ => none

/-- R333, R334, R335, R336, R344, R352, R348, R332: the system words complete: SRD leaves a read of its register in flight; SWR writes a
breakpoint or watchpoint register of the core; BRK and TRAP freeze the cohort at the word; the invalidations, behind the cohort's accesses, drop the
cached translations and code of the issuer's PASID; the mailbox words, PSAMP and CKPT. -/
def Obligations.SystemWords : Prop :=
  ∀ (s : State) (x : Ctx) (c : Ctl) (d : Dst) (a n : Src) (num : BitVec 10) (tn : BitVec 8) (j : BitVec 4) (w : BitVec 3) (acq post : Bool)
    (sa : Option Src), s.issues x c →
    let A := x.sca s.clk c.lit a
    let N := x.sca s.clk c.lit n
    let mine := x.grid.pasid
    let core := x.blk.coreId
    let inv (run : Out) (pl : Place → Prop) (f : State → Prop) : Prop := x.blk.isHandler = true →
      if s.accessesDone x.ref false = false then waitsNow s x run .tlb 0 (fun _ => False)
      else ∃ t, run = .next t ∧ f t ∧ plainDone s x c run pl
    let codes (t : State) (hit : Option W64 → Prop) : Prop := ∀ i, { (t.core i).bare with ic := [] } = { (s.core i).bare with ic := [] }
      ∧ (∀ e ∈ (t.core i).ic, e ∈ (s.core i).ic ∧ ¬ (e.1 = mine ∧ hit (some e.2.1))) ∧ ∀ e ∈ (s.core i).ic, e.1 ≠ mine → e ∈ (t.core i).ic
    (∀ v, srdGives s x num.toNat = some v → ∃ q, s.asyncDone x c (exec (.srd c d num) s) q (fun _ => False) ∧ q.kind = .sysread v ∧ q.dst = some d)
    ∧ (x.blk.isHandler = true → ∃ t, exec (.swr c num a) s = .next t ∧ plainDone s x c (.next t) (· = .core core)
      ∧ (0x100 ≤ num.toNat → num.toNat < 0x120 → (t.core core).bpc.get (num.toNat - 0x100) 0#64 = A &&& ~~~2#64)
      ∧ (0x120 ≤ num.toNat → num.toNat < 0x124 → (t.core core).wpb.get (num.toNat - 0x120) 0#64 = A &&& 0xF003FFFF0003FFFF#64))
    ∧ exec (.brk c) s = .next (s.trapped x (Fz.of 0x0C 0 x.exec))
    ∧ exec (.trap c tn) s = .next (s.trapped x (Fz.of 0x0D tn.toNat x.exec))
    ∧ inv (exec (.tlbinvPage c a) s) (· = .xlat) (fun t => ∀ e, e ∈ t.tlb ↔ e ∈ s.tlb ∧ ¬ (e.pasid = mine ∧ e.page = pageOf A e.lg))
    ∧ inv (exec (.tlbinvPasid c) s) (· = .xlat) (fun t => ∀ e, e ∈ t.tlb ↔ e ∈ s.tlb ∧ e.pasid ≠ mine)
    ∧ inv (exec (.icinvAll c) s) (fun p => ∃ i, p = .core i) (fun t => codes t (fun _ => True))
    ∧ inv (exec (.icinvRange c a n) s) (fun p => ∃ i, p = .core i) (fun t => codes t (fun v => ∃ va, v = some va
        ∧ va.toNat < A.toNat + N.toNat ∧ A.toNat < va.toNat + 8 ∧ N ≠ 0#64))
    ∧ (∃ q, s.asyncDone x c (exec (.mbxr c acq d j w) s) q (fun _ => False) ∧ q.kind = .mbxr j w ∧ q.dst = some d ∧ q.acq = acq)
    ∧ (post = true → s.accessesDone x.ref false = false → waitsNow s x (exec (.mbxw c post j w a) s) .order 0 (fun _ => False))
    ∧ (post = false ∨ s.accessesDone x.ref false = true → ∃ t, exec (.mbxw c post j w a) s = .next t ∧ plainDone s x c (.next t) (· = .die x.blk.die)
      ∧ (∀ i, (t.die x.blk.die).mbx.get i 0#64 = if i = 8 * j.toNat + w.toNat then A else (s.die x.blk.die).mbx.get i 0#64)
      ∧ (t.die x.blk.die).mbxst = (if post then (s.die x.blk.die).mbxst ||| (1#16 <<< j.toNat) else (s.die x.blk.die).mbxst)
      ∧ { (t.die x.blk.die).bare with mbx := [], mbxst := 0#16 } = { (s.die x.blk.die).bare with mbx := [], mbxst := 0#16 })
    ∧ (∃ t, exec (.psamp c sa) s = .next t ∧ plainDone s x c (.next t) (fun _ => False) ∧ (sampledWord x.cls x.op = false →
      (t.coh x.ref).map (·.psamp) = some (if (s.die x.blk.die).smpsize = 0 then x.coh.psamp else some (match sa with
        | some v => (x.sca s.clk c.lit v).setWidth 16
        | none => 0#16))))
    ∧ ∃ t, exec (.ckpt c) s = .next t ∧ plainDone s x c (.next t) (· = .blk x.ref.blk)
      ∧ (t.block x.ref.blk).map Block.bare = some { x.blk with ckw := x.blk.ckw || (x.blk.logr.isSome && x.grid.recd) }.bare

/-- The statements `faultsFreezeTheCohortAndStartAHandlerRule`, `slotsTakeTheRecordsInOrderRule` together. -/
def Obligations.FaultsStartHandlers : Prop := faultsFreezeTheCohortAndStartAHandlerRule ∧ slotsTakeTheRecordsInOrderRule

/-- The statements `handlersReadFrozenRegistersRule`, `handlerAndSystemReadsLandRule` together. -/
def Obligations.HandlersReadFrozenRegisters : Prop := handlersReadFrozenRegistersRule ∧ handlerAndSystemReadsLandRule

/-! ## The choice of clauses, and translation (events) -/

/-- The priority of a cohort on its partition: handlers rank above PRIO 3 (R308). -/
def issuePrio (s : State) (r : CohRef) : Nat :=
  match s.block r.blk with
  | some b => if b.isHandler then 4 else ((s.grid b.grid).map (·.lrec.prio)).getD 0
  | none => 0

/-- R308 for two ready cohorts of a partition: `r` issues before `o`. -/
def comesFirst (s : State) (pt : Part) (r o : CohRef) : Prop :=
  ∀ k m, s.coh r = some k → s.coh o = some m →
    let since (c : Cohort) : Nat := (c.ready.map (·.2)).getD s.clk
    let goesOn (q : CohRef) : Prop := pt.last = some (q.blk, q.coh)
    match k.urgent, m.urgent with
    | some a, some b => a < b ∨ (a = b ∧ k.cslot < m.cslot)
    | some _, none => True
    | none, some _ => False
    | none, none => goesOn r ∨ (¬ goesOn o ∧ (issuePrio s o < issuePrio s r ∨ (issuePrio s o = issuePrio s r
        ∧ (since k < since m ∨ (since k = since m ∧ k.cslot < m.cslot)))))

/-- The partition chooses a clause of the cohort now: the package runs, the partition is in no clause and not stopped, every cohort on it
stands at a boundary, and the cohort comes first of those that are ready (R308). -/
def choosesNext (s : State) (r : CohRef) (b : Block) (k : Cohort) : Prop :=
  let pt := (s.core b.coreId).part k.part
  let on := s.cohortsOn b.coreId k.part
  s.pow.on = true ∧ s.pow.fatal = false ∧ pt.stopped = false ∧ pt.cur = none ∧ (∀ q ∈ on, (s.coh ⟨q.1, q.2⟩).map (·.mid) = some false)
  ∧ (r.blk, r.coh) ∈ on ∧ s.cohReady r.blk r.coh = true
  ∧ ∀ q ∈ on, s.cohReady q.1 q.2 = true → q ≠ (r.blk, r.coh) → comesFirst s pt r ⟨q.1, q.2⟩

/-- The instruction cache of a core holds the words `w` of code from an address, and its unit the executable pages of all of them (R64). -/
def codeCached (s : State) (core : Nat) (pasid : BitVec 20) (pc : W64) (w : List W64) : Prop :=
  ∀ i < w.length, let va := pc + BitVec.ofNat 64 (8 * i)
    (s.core core).ic.find? (fun e => e.1 == pasid && e.2.1 == va) = some (pasid, va, w.getD i 0#64)
    ∧ va.extractLsb' 55 9 = 0#9 ∧ ∃ e lv pa, s.leafHit (xunit core) pasid va .fetch = some (e, lv) ∧ permCode e .fetch = none
      ∧ s.physCheck e va lv = .ok pa

/-- R308, R309, R239, R34, R40, R340: a partition that is in no clause takes the cohort that comes first among those whose next clause is ready;
its path holds the checked clause at word 1, the count of counted cycles goes on, the cohorts passed over keep the count since which they are
ready, and YLD = 0 lets the cohort continue for at most 7 more clauses. A clause that fails the checks freezes the cohort at the header with the
kind and word index; so does a breakpoint of action 0, and action 1 stops the partition. -/
def partitionsChooseTheirNextClauseRule : Prop :=
  ∀ (s : State) (r : CohRef) (b : Block) (k : Cohort) (g : Grid) (isB : Bool) (p : Path) (h : W64) (ws : List W64),
    s.block r.blk = some b → b.coh r.coh = some k → s.grid b.grid = some g → k.path isB = some p → p.cl = none →
    let core := b.coreId
    let pt := (s.core core).part k.part
    let on := s.cohortsOn core k.part
    let run := exec (.issueSelect core k.part) s
    let bp (n : Nat) : W64 := (s.core core).bpc.get (8 * k.part + n) 0#64
    let hit (n : Nat) : Prop := (bp n).getLsbD 0 = true ∧ (bp n) >>> 3 = p.pc >>> 3
    choosesNext s r b k → (∀ q ∈ s.blocks, q.2.logr = none) → r.blk ≠ s.nid → s.nextPath b k = some isB → (k.fair < 256 ∨ k.spill = []) →
    p.pc.extractLsb' 0 3 = 0#3 → ws.length = hdrN h → codeCached s core g.pasid p.pc (h :: ws) →
    let chain := if pt.last = some (r.blk, r.coh) then pt.chain + 1 else 1
    let frozenAt (f : Freeze) : Prop := b.isHandler = false → s.matProgress r = none → ∃ t, run = .next t ∧ t.frozen r = some f
      ∧ (t.coh r).map (fun c => (c.flane, c.pmask, c.pidx)) = some (p.mask, 0#32, 0#32)
    ((b.isHandler = true ∨ ∀ n < 8, ¬ hit n) → (match checkClause b.lim h ws with
      | some e => frozenAt ⟨decKind e.err, 0, 0, e.widx, isB, p.pc, p.pc, true, false, []⟩
      | none => ∃ t, run = .next t ∧ t.cur = some r ∧ t.slot r isB = some { p with cl := some ⟨h, ws, 1, none⟩ }
        ∧ t.slot r (!isB) = (k.path (!isB)).map (fun q => { q with dem := q.dem && !q.atBoundary })
        ∧ (t.coh r).map (fun c => (c.selB, c.mid, c.ready, c.urgent)) = some (isB, true, none, none)
        ∧ (t.core core).part k.part = { pt with
            cur := some (r.blk, r.coh)
            last := if hdrYld h = false ∧ chain < 8 then some (r.blk, r.coh) else none
            chain := chain
            cnt := pt.cnt + 1 }
        ∧ (∀ q ∈ on, q ≠ (r.blk, r.coh) → ∀ m, s.coh ⟨q.1, q.2⟩ = some m → t.coh ⟨q.1, q.2⟩ = some { m with
            ready := if s.cohReady q.1 q.2 then some (m.ready.getD (pt.cnt, s.clk)) else none
            urgent := if s.cohReady q.1 q.2 then m.urgent else none
            ypause := m.ypause.map (fun y => (y.1.filter (fun z => z != (r.blk, r.coh)), y.2)) })
        ∧ s.keeps t (fun z => z = .cur ∨ z = .part core k.part ∨ (∃ q ∈ on, z = .coh ⟨q.1, q.2⟩) ∨ (∃ i, z = .slot r i) ∨ z = .sel r)))
    ∧ (b.isHandler = false → ∀ n < 8, hit n → (∀ m < n, ¬ hit m) → k.bpskip ≠ some p.pc →
      if (bp n).getLsbD 2 then ∃ t, run = .next t ∧ ((t.core core).part k.part).stopped = true
        ∧ ((t.core core).part k.part).bphit = BitVec.ofNat 16 (n + 256) ∧ t.slot r isB = some p ∧ t.cur = s.cur
      else frozenAt ⟨0x0C, 0, 0, 0, isB, p.pc, 0#64, true, false, []⟩)

/-- R308, R309, R241, R59: a cohort whose next clause has been ready for 48 counted cycles becomes urgent, and not before; when the partition
chooses a clause of a path due for rotation, that path is written as the oldest spill entry and the newest takes its slot; a stalled word issues when its counters are zero and its own is not full. -/
def waitingCohortsGoOnRule : Prop :=
  ∀ (s : State) (r : CohRef) (b : Block) (k : Cohort), s.block r.blk = some b → b.coh r.coh = some k →
    let pt := (s.core b.coreId).part k.part
    pt.stopped = false →
    (∀ n clk, k.ready = some (n, clk) → k.urgent = none → s.cohReady r.blk r.coh = true →
      (48 ≤ pt.cnt - n → ∃ t, exec (.cohortBecomesUrgent r.blk r.coh) s = .next t ∧ t.coh r = some { k with urgent := some pt.cnt }
        ∧ s.keeps t (· = .coh r))
      ∧ (pt.cnt - n < 48 → exec (.cohortBecomesUrgent r.blk r.coh) s = .next s))
    ∧ (∀ isB p e es, choosesNext s r b k → k.spill = e :: es → s.nextPath b k = some isB → k.path isB = some p →
      (256 ≤ k.fair → ∃ t, exec (.fairnessRotation r.blk r.coh) s = .next t ∧ t.slot r isB = some e.path
        ∧ (t.coh r).map (fun c => (c.spill, c.fair)) = some (es ++ [⟨{ p with dem := false }, 0#2⟩], 0)
        ∧ s.keeps t (fun z => z = .slot r isB ∨ z = .spill r ∨ z = .cnt r))
      ∧ (k.fair < 256 → ∃ t, exec (.fairnessRotation r.blk r.coh) s = .next t ∧ s.keeps t (fun _ => False)))
    ∧ ∀ p cl, pt.cur = some (r.blk, r.coh) → k.frz = none → b.saved = false → k.mid = true → k.path k.selB = some p → p.cl = some cl →
        cl.wi ≤ cl.words.length →
        let w := cl.words.getD (cl.wi - 1) 0#64
        let own := k.ctr (w.extractLsb' 52 3).toNat
        let free : Prop := k.rinc = true ∨ p.counts = true
          ∨ (∀ i < 8, (w.extractLsb' 56 8).getLsbD i = true → k.ctr i = 0#6) ∧ (w.getLsbD 55 = true → own ≠ 63#6)
        (free → exec (.counterWaitRelease r.blk r.coh) s = .next { s with cur := some r }) ∧ (¬ free → exec (.counterWaitRelease r.blk r.coh) s = .next s)

/-- R86, R87, R89, R91, R93, R95: a walk for a waiting request reads the three levels from the PASID's root, with the PASID's entry already held by the
I/O die; it sets A, and for a write D, in the leaf, and the unit caches the two pointers and the leaf. A walk that faults caches nothing. A unit
whose miss queue has room lets the oldest engine it held back go on. -/
def Obligations.TranslationsAreWalked : Prop :=
  ∀ (s : State) (unit : Nat) (p : BitVec 20) (va : W64) (ac : Access),
    let run := exec (.translationWalk unit p.toNat va ac) s
    (s.wants unit p va ac = true →
      ((∃ f, (s.translate unit p va ac).2 = .error f) → ∃ t, run = .next t ∧ t.tlb = s.tlb)
      ∧ ∀ lo root a2 a1 a0 e2 e1 e0 pa,
        let entry (a lv : Nat) (e : W64) : Prop := s.poisoned .phys (a + 8 * vaIndex va lv) 8 = false
          ∧ BitVec.ofNat 64 (s.readNat .phys (a + 8 * vaIndex va lv) 8) = e ∧ e.getLsbD 0 = true ∧ badEntry e lv = false ∧ e.getLsbD 1 = (lv == 0)
        let need : W64 := if ac = .write ∨ ac = .copyOut ∨ ac = .atomic then 0x60#64 else 0x20#64
        va.extractLsb' 55 9 = 0#9 → s.errIn = [] → (∀ e ∈ s.tlb, ¬ (e.unit = unit ∧ e.pasid = p)) →
        (s.tlb.filter (fun e => e.unit == unit && e.ent.getLsbD 1)).length < 16384 →
        (s.tlb.filter (fun e => e.unit == unit && !e.ent.getLsbD 1)).length < 511 →
        s.host.pasids.find p.toNat = some (lo, root) → lo.getLsbD 0 = true → root.extractLsb' 0 16 = 0#16 → root.extractLsb' 52 12 = 0#12 →
        s.physAddr root.toNat = some a2 → entry a2 2 e2 → s.physAddr (frameOf e2) = some a1 → entry a1 1 e1 → s.physAddr (frameOf e1) = some a0 →
        entry a0 0 e0 → permCode e0 ac = none → s.physAddr (frameOf e0 + va.toNat % 65536) = some pa →
        ∃ t, run = .next t ∧ t.tlb = s.tlb ++ [⟨unit, p, pageOf va 42, 42, e2⟩, ⟨unit, p, pageOf va 29, 29, e1⟩, ⟨unit, p, pageOf va 16, 16, e0 ||| need⟩]
          ∧ BitVec.ofNat 64 (t.readNat .phys (a0 + 8 * vaIndex va 0) 8) = e0 ||| need ∧ t.missq = s.missq
          ∧ s.keeps t (fun z => z = .xlat ∨ (∃ a, z = .byte .phys a ∧ a0 + 8 * vaIndex va 0 ≤ a ∧ a < a0 + 8 * vaIndex va 0 + 8) ∨ ∃ r l, z = .resv r l))
    ∧ ∀ id, s.missq.find unit = some id → s.misses unit id < 4160 →
        let held := s.copies.filter (fun c => xunit c.core == unit && decide (id ≤ c.id))
        (∀ a c rest, held = a :: c :: rest → exec (.missQueueResume unit) s = .next { s with missq := s.missq.set unit c.id })
        ∧ (held.length ≤ 1 → exec (.missQueueResume unit) s = .next { s with missq := s.missq.del unit })

/-- The statements `partitionsChooseTheirNextClauseRule`, `waitingCohortsGoOnRule` together. -/
def Obligations.ClausesIssueAndWaitsEnd : Prop := partitionsChooseTheirNextClauseRule ∧ waitingCohortsGoOnRule

/-! ## The host's queues and commands (events) -/

/-- An address that a command of a queue names is translated by a cached leaf that allows the access (R89, R93, R95): it lies at `pa`. -/
def hostSees (s : State) (q : Nat) (va : W64) (ac : Access) (pa : Nat) : Prop :=
  va.extractLsb' 55 9 = 0#9 ∧ ∃ e lv, s.leafHit ioUnit (s.queue q).pasid va ac = some (e, lv) ∧ permCode e ac = none
    ∧ s.physAddr (leafAddr e va lv) = some pa

/-- The I/O die holds the first-level entry of a queue, and its control block lies at `a` (R376). -/
def qcbKnown (s : State) (q a : Nat) : Prop :=
  ∃ lo root, s.host.pasids.find (s.queue q).pasid.toNat = some (lo, root) ∧ lo.getLsbD 0 = true ∧ lo.getLsbD 1 = true
    ∧ s.physAddr ((lo >>> 20 <<< 20).toNat + 64 * q) = some a

/-- A queue whose control block and whose command's completion word can be written, apart from each other. -/
def hostOpen (s : State) (q a : Nat) (c : Cmd) : Prop :=
  qcbKnown s q a ∧ (c.flags.getLsbD 1 = true → (c.w64 8).toNat % 8 = 0 ∧ ∃ pc, hostSees s q (c.w64 8) .write pc ∧ (pc + 8 ≤ a ∨ a + 64 ≤ pc))

/-- The same, and no error strikes. -/
def hostReady (s : State) (q a : Nat) (c : Cmd) : Prop := hostOpen s q a c ∧ s.errIn = []

/-- The command starts now (R382): fetched, not started, its queue running, and alone when it behaves as if FB were set. -/
def startsNow (s : State) (q : Nat) (c : Cmd) (op : Nat) : Prop :=
  s.cmdOf q c.id = some c ∧ c.began = false ∧ c.op = op ∧ (s.queue q).state ≠ 2 ∧ (s.queue q).bound = true ∧ s.pow.fatal = false
    ∧ s.pow.on = true ∧ (c.flags.getLsbD 0 = true ∨ op = 5 ∨ op = 6 ∨ op = 7 → ((s.queue q).cmds.head?).map (·.id) = some c.id)

/-- The places that the start or end of a command moves; its writes end reservations on the bytes written (R260). -/
def hostPlaces (s : State) (q a : Nat) (c : Cmd) (z : Place) : Prop :=
  z = .host ∨ (∃ i < 64, z = .byte .phys (a + i)) ∨ (∃ r l, z = .resv r l) ∨ (c.flags.getLsbD 1 = true ∧ ∃ pc, hostSees s q (c.w64 8) .write pc
    ∧ ((∃ i < 8, z = .byte .phys (pc + i)) ∨ ∃ g, z = .psn .phys g))

/-- A command has started: HEAD names the next slot (R382). -/
def cmdBegun (s t : State) (q : Nat) (c : Cmd) : Prop :=
  t.queue q = { s.queue q with
    head := ((s.queue q).head + 1) % 2 ^ 32
    cmds := (s.queue q).cmds.map (fun k => if k.id = c.id then { k with began := true, since := s.clk } else k) }

/-- A command has ended with a status (R382, R383): it is gone, HEAD is `head`, a status that stops the queue has stopped it, and the completion
word that it asked for holds TAG, DONE and the status. -/
def cmdEnded (s t : State) (q a : Nat) (c : Cmd) (st head : Nat) : Prop :=
  let stops : Bool := st == 0x12 || st == 0x13 || st == 0x15
  t.queue q = { s.queue q with
    head := head
    cmds := ((s.queue q).cmds.filter (fun k => k.id != c.id)).filter (fun k => !stops || k.began)
    state := if stops then 2 else (s.queue q).state
    err := if stops then st else (s.queue q).err }
  ∧ BitVec.ofNat 64 (t.readNat .phys (a + 24) 8) = BitVec.ofNat 64 head
  ∧ (c.flags.getLsbD 1 = true → ∀ pc, hostSees s q (c.w64 8) .write pc →
      BitVec.ofNat 64 (t.readNat .phys pc 8) = BitVec.ofNat 64 (st + 2 ^ 16 + c.w32 4 * 2 ^ 32))

/-- The compare of a command (R381): equal, not equal, unsigned ≥, unsigned <. -/
def compares (c : Cmd) (v : W64) : Prop :=
  (c.byte 32 = 0 ∧ v = c.w64 24) ∨ (c.byte 32 = 1 ∧ v ≠ c.w64 24) ∨ (c.byte 32 = 2 ∧ c.w64 24 ≤ v) ∨ (c.byte 32 = 3 ∧ v < c.w64 24)

/-- R379, R380, R381, R382, R383: a doorbell sets the tail count, is dropped and counted while a table entry is not present, and stops the queue when
it overruns the ring. A running queue whose earlier commands have all started reads the slot at HEAD; a malformed one stops it with 0x13, a slot
that does not translate with 0x12. -/
def doorbellsAndSlotsRule : Prop :=
  ∀ (s : State) (q a : Nat) (ws : List W64), qcbKnown s q a → s.errIn = [] → (s.queue q).entry = some ws → q < 16384 → s.pow.on = true →
    s.pow.bootst = 3 →
    let x := s.queue q
    let live : Prop := (ws.getD 1 0#64).getLsbD 0 = true ∧ (ws.getD 1 0#64).getLsbD 1 = true
    let n := 2 ^ bitsAt (ws.getD 1 0#64).toNat 24 8
    let block (z : Place) : Prop := z = .host ∨ (∃ i < 64, z = .byte .phys (a + i)) ∨ ∃ r l, z = .resv r l
    (x.state ≠ 2 → ∀ tail, ∃ t, exec (.doorbell q tail) s = .next t ∧ t.pow = { s.pow with ps2 := false, idle := none }
      ∧ s.keeps t (fun z => block z ∨ z = .pow)
      ∧ (¬ live → t.host = { s.host with dbdrop := if s.host.dbdrop.toNat < 2 ^ 32 - 1 then s.host.dbdrop + 1#64 else s.host.dbdrop })
      ∧ (live →
          let tl := tail % 2 ^ 32
          if x.bound = true ∧ n < (tl + 2 ^ 32 - x.head) % 2 ^ 32
          then t.queue q = { x with tail := tl, state := 2, err := 0x13, cmds := x.cmds.filter (·.began) }
          else t.queue q = { x with tail := tl }))
    ∧ (x.state = 2 → ∀ tail, exec (.doorbell q tail) s = .next { s with pow := { s.pow with ps2 := false, idle := none } })
    ∧ (live → s.pow.fatal = false → s.pow.ps2 = false → x.bound = true → x.state ≠ 2 → x.head ≠ x.tail →
        (∀ c ∈ x.cmds, c.began = true ∧ c.op ≠ 3 ∧ c.op ≠ 5) →
        let va := ws.getD 2 0#64 + BitVec.ofNat 64 (64 * (x.head % n))
        va.toNat % 8 = 0 →
        (∀ pa, (∀ i < 8, hostSees s q (va + BitVec.ofNat 64 (8 * i)) .read (pa + 8 * i)) →
          let w (i : Nat) : W64 := BitVec.ofNat 64 (s.readNat .phys (pa + 8 * i) 8)
          let c : Cmd := ⟨s.nid, x.head % n, (w 0).toNat % 256, BitVec.ofNat 64 ((w 0).toNat / 256 % 256), (List.range 8).map w, false, false, 0, s.clk⟩
          ∃ t, exec (.queueCommandFetch q) s = .next t
            ∧ (c.wellFormed (bitsAt (ws.getD 1 0#64).toNat 24 8) = true → t.queue q = { x with cmds := x.cmds ++ [c] } ∧ t.nid = s.nid + 1
              ∧ s.keeps t (fun z => block z ∨ z = .names))
            ∧ (c.wellFormed (bitsAt (ws.getD 1 0#64).toNat 24 8) = false → c.flags.getLsbD 1 = false → (∀ k ∈ x.cmds, k.id ≠ s.nid) →
              t.queue q = { x with state := 2, err := 0x13 }))
        ∧ ((∃ f, s.translate ioUnit x.pasid va .read = (s, .error f)) → ∃ t, exec (.queueCommandFetch q) s = .next t
          ∧ t.queue q = { x with state := 2, err := 0x12 }))

/-- R292, R293, R382, R383, R386: LAUNCH reads its record and checks it: the first check that fails gives the status, then a DUALN that its feature does
not allow 0x15, then a PRIO above PCAP 0x16. Else the command has started and its grid, with the record and the queue's PASID, waits for placement. -/
def Obligations.LaunchesStartGrids : Prop :=
  ∀ (s : State) (q a pa : Nat) (c : Cmd) (qw : List W64), hostReady s q a c → startsNow s q c 1 → (s.queue q).entry = some qw →
    (c.w64 16).toNat % 8 = 0 → (∀ i < 32, hostSees s q (c.w64 16 + BitVec.ofNat 64 (8 * i)) .read (pa + 8 * i)) →
    let ws : List W64 := (List.range 32).map (fun i => BitVec.ofNat 64 (s.readNat .phys (pa + 8 * i) 8))
    let l := lrecOf ws
    let run := exec (.launch q c.id) s
    let refused (st : Nat) : Prop := ∃ t, run = .next t ∧ cmdEnded s t q a c st (((s.queue q).head + 1) % 2 ^ 32) ∧ s.keeps t (hostPlaces s q a c)
    match recCheck ws with
    | some st => refused st
    | none =>
      (l.dualn ≠ 0 → s.host.featcom.getLsbD 2 = false → refused 0x15)
      ∧ ((l.dualn = 0 ∨ s.host.featcom.getLsbD 2 = true) →
        let pcap := bitsAt (qw.getD 1 0#64).toNat 16 8
        (pcap < l.prio → refused 0x16)
        ∧ (l.prio ≤ pcap → ∃ t g, run = .next t ∧ cmdBegun s t q c ∧ t.grid s.nid = some g ∧ t.nid = s.nid + 1
          ∧ g.lrec = l ∧ g.pasid = (s.queue q).pasid ∧ g.qn = BitVec.ofNat 16 q ∧ g.cmd = c.id ∧ g.stat = .running ∧ g.next = 0 ∧ g.ahead = []
          ∧ g.waits = some s.clk ∧ g.rot = [] ∧ g.slots = []
          ∧ (s.dbg.recarm.getLsbD 63 = false → g.recd = false)
          ∧ s.keeps t (fun z => hostPlaces s q a c z ∨ z = .grid s.nid ∨ z = .names ∨ z = .dbg)))

/-- R382, R383: COPY starts, then its bytes land in order and it completes. WAITVAL starts, and completes when its compare holds or with 0x14 when its time
is over. SIGNAL stores or adds its value. BRANCH moves HEAD to the next count of its target slot when its compare holds. FENCE completes. A word
that a command names and that does not translate ends it with 0x12. -/
def Obligations.CommandsRun : Prop :=
  ∀ (s : State) (q a : Nat) (c : Cmd), hostReady s q a c →
    let hd := (s.queue q).head
    let next := (hd + 1) % 2 ^ 32
    let begins (o : Out) : Prop := ∃ t, o = .next t ∧ cmdBegun s t q c ∧ s.keeps t (hostPlaces s q a c)
    let ends (o : Out) (st head : Nat) (ex : Place → Prop) : Prop := ∃ t, o = .next t ∧ cmdEnded s t q a c st head
      ∧ s.keeps t (fun z => hostPlaces s q a c z ∨ ex z)
    let word (pa : Nat) : W64 := BitVec.ofNat 64 (s.readNat .phys pa 8)
    let apart (pa n : Nat) : Prop := (pa + n ≤ a ∨ a + 64 ≤ pa) ∧ (c.flags.getLsbD 1 = true → ∀ pc, hostSees s q (c.w64 8) .write pc →
      pc + 8 ≤ pa ∨ pa + n ≤ pc)
    let going : Prop := s.cmdOf q c.id = some c ∧ c.began = true ∧ s.pow.fatal = false ∧ s.pow.on = true
    let fails (ac : Access) : Prop := ∃ f, s.translate ioUnit (s.queue q).pasid (c.w64 16) ac = (s, .error f)
    (startsNow s q c 2 → begins (exec (.copy q c.id) s))
    ∧ (startsNow s q c 3 → begins (exec (.waitval q c.id) s))
    ∧ (startsNow s q c 7 → ends (exec (.fenceCommand q c.id) s) 0 next (fun _ => False))
    ∧ (going → c.op = 2 →
      let n := c.w32 32
      (∀ src dst, (∀ i < n, hostSees s q (c.w64 16 + BitVec.ofNat 64 i) .copyIn (src + i) ∧ hostSees s q (c.w64 24 + BitVec.ofNat 64 i) .copyOut (dst + i)) →
        (src + n ≤ dst ∨ dst + n ≤ src) → apart dst n →
        ends (exec (.copy q c.id) s) 0 hd (fun z => (∃ i < n, z = .byte .phys (dst + i)) ∨ (∃ g, z = .psn .phys g) ∨ ∃ r l, z = .resv r l)
        ∧ ∀ t, exec (.copy q c.id) s = .next t → ∀ i < n, t.byte .phys (dst + i) = s.byte .phys (src + i))
      ∧ (n ≠ 0 → fails .copyIn → ends (exec (.copy q c.id) s) 0x12 hd (fun _ => False)))
    ∧ (going → c.op = 3 →
      (∀ pa, (c.w64 16).toNat % 8 = 0 → hostSees s q (c.w64 16) .read pa → c.byte 32 ≤ 3 →
        (compares c (word pa) → ends (exec (.waitvalCompareHolds q c.id) s) 0 hd (fun _ => False))
        ∧ (¬ compares c (word pa) → exec (.waitvalCompareHolds q c.id) s = .next s))
      ∧ ((c.w64 16).toNat % 8 = 0 → fails .read → ends (exec (.waitvalCompareHolds q c.id) s) 0x12 hd (fun _ => False))
      ∧ (c.w32 36 ≠ 0 → c.since + 1500 * c.w32 36 ≤ s.clk → ends (exec (.waitvalTimeout q c.id) s) 0x14 hd (fun _ => False))
      ∧ (c.w32 36 = 0 ∨ s.clk < c.since + 1500 * c.w32 36 → exec (.waitvalTimeout q c.id) s = .next s))
    ∧ (startsNow s q c 4 → (c.w64 16).toNat % 8 = 0 →
      (∀ pa, hostSees s q (c.w64 16) .atomic pa → apart pa 8 →
        ends (exec (.signal q c.id) s) 0 next (fun z => (∃ i < 8, z = .byte .phys (pa + i)) ∨ (∃ g, z = .psn .phys g) ∨ ∃ r l, z = .resv r l)
        ∧ ∀ t, exec (.signal q c.id) s = .next t →
            BitVec.ofNat 64 (t.readNat .phys pa 8) = if c.byte 32 = 1 then word pa + c.w64 24 else c.w64 24))
    ∧ (startsNow s q c 5 → (c.w64 16).toNat % 8 = 0 → c.byte 32 ≤ 3 → ∀ qw pa, (s.queue q).entry = some qw → hostSees s q (c.w64 16) .read pa →
        let n := 2 ^ bitsAt (qw.getD 1 0#64).toNat 24 8
        (¬ compares c (word pa) → ends (exec (.branch q c.id) s) 0 next (fun _ => False))
        ∧ (compares c (word pa) → c.w32 36 < n → hd + n < 2 ^ 32 → ∃ h, h % n = c.w32 36 ∧ hd < h ∧ h ≤ hd + n
          ∧ ends (exec (.branch q c.id) s) 0 h (fun _ => False)))

/-- R373, R383, R386: SELFTEST takes the named cores of its die out of dispatch, or ends with 0x15 without its feature. When nothing is resident on the first
16 cores of a cluster that are under test and their time is over, each returns to dispatch, or stays fenced and is logged with CODE 0x000A. The command
ends when none of its cores is under test: the mask of those that failed stands at its result address. -/
def Obligations.SelfTestsRun : Prop :=
  let named (c : Cmd) (k : Nat) : Prop := ∃ i < 256, k = 256 * c.byte 16 + i ∧ (c.w64 (32 + 8 * (i / 64))).getLsbD (i % 64) = true
  (∀ (s : State) (q a : Nat) (c : Cmd), hostReady s q a c → startsNow s q c 6 →
    (s.host.featcom.getLsbD 4 = false → ∃ t, exec (.selftest q c.id) s = .next t ∧ cmdEnded s t q a c 0x15 (((s.queue q).head + 1) % 2 ^ 32)
      ∧ s.keeps t (hostPlaces s q a c))
    ∧ (s.host.featcom.getLsbD 4 = true → (∃ k, named c k) → ∃ t, exec (.selftest q c.id) s = .next t ∧ cmdBegun s t q c
      ∧ (∀ k, named c k → t.core k = { s.core k with testing := true })
      ∧ s.keeps t (fun z => hostPlaces s q a c z ∨ ∃ k, named c k ∧ z = .core k)))
  ∧ ∀ (s : State) (die clus : Nat), s.testGroup die clus ≠ [] → s.groupTime die clus = true → s.pow.fatal = false →
    (∀ n ∈ s.testGroup die clus, ∀ b ∈ s.blocks, b.2.coreId = n → b.2.saved = true) →
    let failed (n : Nat) : Bool := s.errIn.contains (.core n)
    ∃ t, exec (.selftestGroupComplete die clus) s = .next t
      ∧ (∀ n, t.core n = if n ∈ s.testGroup die clus then { s.core n with testing := false, fenced := failed n } else s.core n)
      ∧ (s.selftests = [] → t.errIn = s.errIn.filter (fun e => (s.testGroup die clus).all (fun n => e != .core n))
        ∧ ((∀ n ∈ s.testGroup die clus, failed n = false) → s.keeps t (fun z => ∃ n ∈ s.testGroup die clus, z = .core n))
        ∧ ∀ n, s.testGroup die clus = [n] → failed n = true → ((s.die die).banks.get 0x0D Bank.zero).status.getLsbD 63 = false →
            ((s.die die).banks.get 0x0D Bank.zero).ctl.getLsbD 0 = true → n / 256 = die →
            let bank := (t.die die).banks.get 0x0D Bank.zero
            bank.status.extractLsb' 0 16 = 0x000A#16 ∧ bank.status.extractLsb' 60 2 = 0#2 ∧ bank.status.getLsbD 63 = true)
      ∧ ∀ (q a pa : Nat) (c : Cmd), s.selftests = [(q, c)] → s.cmdOf q c.id = some c → hostOpen s q a c →
          (∀ e ∈ s.errIn, ∃ n ∈ s.testGroup die clus, e = .core n) → (∀ k, named c k → k ∈ s.testGroup die clus ∨ (s.core k).testing = false) →
          (c.w64 24).toNat % 8 = 0 → (∀ i < 4, hostSees s q (c.w64 24 + BitVec.ofNat 64 (8 * i)) .write (pa + 8 * i)) → (pa + 32 ≤ a ∨ a + 64 ≤ pa) →
          (c.flags.getLsbD 1 = true → ∀ pc, hostSees s q (c.w64 8) .write pc → pc + 8 ≤ pa ∨ pa + 32 ≤ pc) →
          cmdEnded s t q a c 0 (s.queue q).head
          ∧ ∀ i < 4, ∀ k < 64, (t.readNat .phys (pa + 8 * i) 8).testBit k = true ↔
              named c (256 * c.byte 16 + 64 * i + k) ∧ (t.core (256 * c.byte 16 + 64 * i + k)).fenced = true

/-- R378, R386, R387, R376: QBIND takes EN only behind a commit; EN rising sets HEAD to the doorbell count and the queue idle; EN falling lets the commands end
that have started. QTBASE is ignored while a queue is enabled. An invalidation runs behind those before it and drops the entries that it names. FEATGO
commits the features that are offered and fails, changing nothing else, on one that is not. -/
def bindingsTablesAndFeaturesRule : Prop :=
  ∀ (s : State) (n : Nat) (v : W64),
    let x := s.queue n
    let en := v.getLsbD 31
    let p : BitVec 20 := v.extractLsb' 0 20
    (n < 16384 → s.pow.on = true →
      (en = true → (s.host.featst.getLsbD 1 = false ∨ s.pow.bootst ≠ 3) → exec (.qbindWrite n v) s = .next s)
      ∧ (en = false ∨ (s.host.featst.getLsbD 1 = true ∧ s.pow.bootst = 3) → ∃ t, exec (.qbindWrite n v) s = .next t
        ∧ (t.queue n).pasid = p ∧ (t.queue n).bound = en ∧ (t.queue n).tail = x.tail
        ∧ (en = false → (t.queue n).cmds = x.cmds.filter (·.began) ∧ (t.queue n).head = x.head ∧ s.keeps t (· = .host))
        ∧ (en = true → (t.queue n).cmds = x.cmds ∧ (x.bound = false → (t.queue n).head = x.tail ∧ (t.queue n).state = 0 ∧ (t.queue n).err = 0)
            ∧ (x.bound = true → (t.queue n).head = x.head ∧ (t.queue n).state = x.state ∧ (t.queue n).err = x.err))
        ∧ ∀ m, m ≠ n → t.queue m = s.queue m))
    ∧ ((∃ q ∈ s.host.queues, q.2.bound = true) → exec (.qtbaseWrite v) s = .next s)
    ∧ ((∀ q ∈ s.host.queues, q.2.bound = false) → exec (.qtbaseWrite v) s = .next { s with host := { s.host with qtbase := v &&& ~~~0xFFFF#64 } })
    ∧ exec (.qtinv v) s = .next { s with host := { s.host with qtinv := s.host.qtinv ++ [v] } }
    ∧ (∀ rest, s.host.qtinv = v :: rest → ∃ t, exec .qtinvComplete s = .next t ∧ t.host.qtinv = rest ∧ s.keeps t (· = .host)
        ∧ (∀ m, (t.queue m).entry = if v.getLsbD 63 = true ∨ (v.getLsbD 62 = true ∧ (s.queue m).pasid = p)
              ∨ (v.getLsbD 62 = false ∧ m = (v.toNat / 2 ^ 20) % 2 ^ 16) then none else (s.queue m).entry)
        ∧ (∀ m, { t.queue m with entry := none } = { s.queue m with entry := none })
        ∧ ∀ i, t.host.pasids.find i = if v.getLsbD 63 = true ∨ (v.getLsbD 62 = true ∧ i = p.toNat) then none else s.host.pasids.find i)
    ∧ (let offered : W64 := if s.pow.bootst = 3 then s.host.featoff else 0#64
       let bad : Prop := ∃ i < 256, s.host.featacc.getLsbD i = true ∧ (offered.setWidth 256).getLsbD i = false
       (bad → exec .featgo s = .next { s with host := { s.host with featst := s.host.featst ||| 1#64 } })
       ∧ (¬ bad → exec .featgo s = .next { s with host := { s.host with featst := 2#64, featcom := s.host.featacc.setWidth 64 } }))

/-- R126, R139, R373, R383: where these events complete, whatever else is in flight. A reply lands a lane of GATH, LDSPL or SCAT and leaves the
lanes behind it; SELFTEST with the feature committed takes its cores out for the test; the end of a group's time ends their test. -/
def Obligations.LaneRepliesAndSelfTestsComplete : Prop :=
  (∀ (s : State) (id lane : Nat) (p : Pend) (as : List Acc) (h : Thread), mayLand s id lane p as h → noRecord s →
    (p.kind = .gath ∨ p.kind = .ldspl → s.groupOk p (p.sameElement lane) = true →
      ∃ t, exec (.turretLaneReply id lane) s = .next t ∧ lanesLeft s t p (p.sameElement lane))
    ∧ (p.kind = .scat → s.ordOk p lane as = true → ∃ t, exec (.turretLaneReply id lane) s = .next t ∧ lanesLeft s t p [lane]))
  ∧ (∀ (s : State) (q : Nat) (c : Cmd), startsNow s q c 6 → s.host.featcom.getLsbD 4 = true → c.testCores ≠ [] →
    ∃ t, exec (.selftest q c.id) s = .next t ∧ (t.queue q).head = ((s.queue q).head + 1) % 2 ^ 32
      ∧ ∀ n, (t.core n).testing = (c.testCores.contains n || (s.core n).testing))
  ∧ ∀ (s : State) (die clus : Nat), s.testGroup die clus ≠ [] → s.groupTime die clus = true → s.pow.fatal = false →
    (∀ n ∈ s.testGroup die clus, ∀ b ∈ s.blocks, b.2.coreId = n → b.2.saved = true) →
    ∃ t, exec (.selftestGroupComplete die clus) s = .next t
      ∧ ∀ n, (t.core n).testing = (!(s.testGroup die clus).contains n && (s.core n).testing)
        ∧ (t.core n).fenced = if n ∈ s.testGroup die clus then s.errIn.contains (.core n) else (s.core n).fenced

/-- The statements `doorbellsAndSlotsRule`, `bindingsTablesAndFeaturesRule` together. -/
def Obligations.QueuesAndBindings : Prop := doorbellsAndSlotsRule ∧ bindingsTablesAndFeaturesRule

/-! ## Placement, rotation, tasks, the end of grids (events) -/

/-- The places of a new block `n`. -/
def bornPlaces (n : Nat) (p : Place) : Prop :=
  p = .blk n ∨ p = .names ∨ (∃ i, p = .b n i) ∨ (∃ a, p = .byte (.hblk n) a ∨ p = .full (.hblk n) a ∨ p = .psn (.hblk n) a)
    ∨ ∃ h : CohRef, h.blk = n ∧ (p = .coh h ∨ p = .frz h ∨ p = .exc h ∨ p = .spill h ∨ p = .sel h ∨ p = .latch h ∨ p = .ncls h ∨ p = .cnt h
      ∨ (∃ i, p = .s h i ∨ p = .k h i ∨ p = .ctr h i) ∨ (∃ isB, p = .slot h isB)
      ∨ ∃ l, p = .seed h l ∨ p = .resv h l ∨ p = .ident h l ∨ ∃ i, p = .v h l i ∨ p = .m h l i)

/-- R23, R25, R79, R146, R294: the new block `s.nid` of a grid on a core: its threads by linear index in cohorts of 32, every register at its reset
value but for the arguments `arg` of a task, SEED formed, one path at `pc` in slot A of each cohort, its allocation empty of full bits. -/
def blockStarts (s t : State) (gid : Nat) (g : Grid) (kind : BKind) (core base nt : Nat) (pc : W64) (bid : W32 × W32 × W32)
    (ntid : Nat × Nat × Nat) (tid : Nat → W32 × W32 × W32) (arg : Nat → Nat → VReg) : Prop :=
  ∃ b, t.block s.nid = some b ∧ b.grid = gid ∧ b.kind = kind ∧ b.coreId = core ∧ b.base = base ∧ b.size = g.lrec.alloc nt ∧ b.bid = bid
    ∧ b.ntid = ntid ∧ b.nt = nt ∧ b.ncoh = (nt + 31) / 32 ∧ b.cfg = g.lrec.cfg ∧ (∀ n, b.breg n = 0#32) ∧ b.recs = [] ∧ b.arr = [] ∧ b.ph = 0
    ∧ b.saved = false ∧ t.nid = s.nid + 1
    ∧ (∀ f ∈ (t.core core).fe, ¬ (base ≤ 16 * f ∧ 16 * f < base + b.size))
    ∧ ∀ i < b.ncoh, ∃ k m, b.coh i = some k ∧ k.pa = some (mkPath pc m none) ∧ (∀ l < 32, (m.getLsbD l = true ↔ 32 * i + l < nt))
      ∧ k.pb = none ∧ k.spill = [] ∧ k.frz = none ∧ k.latch = [] ∧ k.ncls = 0 ∧ k.part < 4 ∧ k.cslot < 8
      ∧ (∀ n, k.sreg n = 0#64 ∧ k.kreg n = 0#64 ∧ k.ctr n = 0#6)
      ∧ ∀ l < 32, if 32 * i + l < nt then
          ∃ th, k.thread l = some th ∧ th.t = 32 * i + l ∧ th.tid = tid (32 * i + l) ∧ th.bid = bid
            ∧ (∀ n, th.vreg n = arg (32 * i + l) n ∧ th.mreg n = MReg.empty) ∧ th.resv = none
            ∧ th.seed = seedForm g.lrec.seedb (seedIndex (32 * i + l) nt bid g.lrec.gx g.lrec.gy)
        else k.thread l = none

/-- R295, R301, R304, R298: a grid's next item is placed: a block of its index space on a core where it fits, or, ahead of the blocks, a launched task
cohort, whose records leave the queue with their arguments in v0 to v3. A launched task cohort goes first, then blocks in ascending index, rotated
blocks last; of a grid that is alone the item goes to the die and there to the core with the lowest load, ties to the lower. -/
def Obligations.BlocksArePlaced : Prop :=
  ∀ (s : State) (gid d core base : Nat) (g : Grid), s.grid gid = some g → g.recd = false → core < 1024 → (g.lrec.aff = true → s.errIn = []) →
    let run := exec (.blockPlacement gid) s
    let counted (h : Grid) : Grid := { h with waits := some s.clk, since := none }
    (∀ bl clus, s.placement gid = some (d, .block bl clus, core) → s.fits core (g.lrec.need g.lrec.nt) false = some base →
      ∃ t, run = .next t ∧ t.grid gid = some (counted (g.markPlaced bl))
        ∧ blockStarts s t gid g .grid core base g.lrec.nt g.lrec.prog
            (BitVec.ofNat 32 (bl % g.lrec.gx), BitVec.ofNat 32 (bl / g.lrec.gx % g.lrec.gy), BitVec.ofNat 32 (bl / (g.lrec.gx * g.lrec.gy)))
            (g.lrec.bx, g.lrec.by', g.lrec.bz)
            (fun u => (BitVec.ofNat 32 (u % g.lrec.bx), BitVec.ofNat 32 (u / g.lrec.bx % g.lrec.by'), BitVec.ofNat 32 (u / (g.lrec.bx * g.lrec.by'))))
            (fun _ _ => VReg.zero)
        ∧ s.keeps t (fun p => bornPlaces s.nid p ∨ p = .grid gid ∨ p = .objs core ∨ ∃ a, p = .full (.core core) a))
    ∧ (∀ seq clus, s.placement gid = some (d, .task seq clus, core) → s.fits core (g.lrec.need (s.taskGroup gid d seq).length) false = some base →
      (s.taskGroup gid d seq).length ≤ 32 →
      let ts := s.taskGroup gid d seq
      ∃ t, run = .next t ∧ t.grid gid = some (counted g)
        ∧ (t.die d).tq = (s.die d).tq.filter (fun u => !(u.grid == gid && u.seq == some seq))
        ∧ blockStarts s t gid g .task core base ts.length ((ts.head?.map (·.entry)).getD 0#64) (BitVec.ofNat 32 seq, BitVec.ofNat 32 d, 0#32)
            (ts.length, 1, 1) (fun u => (BitVec.ofNat 32 u, 0#32, 0#32))
            (fun u n => match (ts[u]?).bind (fun r => r.args[n]?) with
              | some v => { VReg.zero with val := v }
              | none => VReg.zero)
        ∧ s.keeps t (fun p => bornPlaces s.nid p ∨ p = .grid gid ∨ p = .objs core ∨ p = .die d ∨ ∃ a, p = .full (.core core) a))
    ∧ ∀ i, s.placement gid = some (d, i, core) →
        ((∃ u ∈ (s.die d).tq, u.grid = gid ∧ u.seq.isSome) → ∃ seq clus, i = .task seq clus)
        ∧ (∀ b, i = .rotated b → g.lrec.total ≤ g.next)
        ∧ (∀ bl clus, g.lrec.aff = false → g.ahead = [] → i = .block bl clus → bl = g.next ∧ clus = none
          ∧ ∀ c, c / 256 = d → (s.fits c (g.lrec.need g.lrec.nt) false).isSome → s.heldSegs core < s.heldSegs c ∨ (s.heldSegs core = s.heldSegs c ∧ core ≤ c))
        ∧ (s.grids = [(gid, g)] → ∀ e < 4, (s.offerFit gid g e false).isSome → s.dieLoad d < s.dieLoad e ∨ (s.dieLoad d = s.dieLoad e ∧ d ≤ e))

/-- R320, R321: a block is saved: its image holds the bytes of its allocation and every register, path, latch entry and record as they were, with
PMASK and PIDX the progress of a running matrix word of a cohort that is not frozen (R196); the
reservations are cleared; its arrivals at scoped barriers are withdrawn (R266); it is the last of its grid to be placed again; its fault records
leave the queue. -/
def blockSaved (s t : State) (blk : Nat) (b : Block) (slot : Nat) (g : Grid) : Prop :=
  t.grid b.grid = some { g with
    rot := g.rot ++ [blk]
    slots := g.slots.set blk slot
    sbars := (g.sbars.map (fun i => { i with arr := i.arr.filter (· != blk) })).filter (fun i => !i.arr.isEmpty) } ∧ (∀ n, n ≠ b.grid → t.grid n = s.grid n)
  ∧ (∀ d, ∀ c, FRec.coh blk c ∉ (t.die d).fq ∧ FRec.coh blk c ∉ (t.die d).heldq) ∧ (∀ r, t.cur = some r → r.blk ≠ blk)
  ∧ ∃ img, t.block blk = some img ∧ img.saved = true ∧ (∀ i < b.size, img.mem.read i = s.byte (.core b.coreId) (b.base + i))
  ∧ img.b = b.b ∧ img.recs = b.recs ∧ img.arr = b.arr ∧ img.ph = b.ph ∧ img.sbo = b.sbo ∧ img.cfg = b.cfg ∧ img.bid = b.bid
  ∧ ∀ i k, b.coh i = some k → ∃ k', img.coh i = some k' ∧ k'.s = k.s ∧ k'.k = k.k ∧ k'.d = k.d ∧ k'.latch = k.latch ∧ k'.frz = k.frz
    ∧ k'.flane = k.flane ∧ (k.frz.isSome = true → k'.pmask = k.pmask ∧ k'.pidx = k.pidx)
    ∧ (k.frz = none → ∀ q, s.matProgress ⟨blk, i⟩ = some q → (k'.pmask, k'.pidx) = q) ∧ k'.polls = 0 ∧ k'.psamp = none ∧ k'.bpskip = none
    ∧ k'.batches = k.batches ∧ k'.openg = k.openg ∧ k'.ncls = k.ncls
    ∧ (∀ isB, (k'.path isB).map (fun p => (p.pc, p.mask, p.rpc, p.cl)) = (k.path isB).map (fun p => (p.pc, p.mask, p.rpc, p.cl)))
    ∧ k'.spill.map (fun e => (e.kind, e.path.pc, e.path.mask, e.path.rpc)) = k.spill.map (fun e => (e.kind, e.path.pc, e.path.mask, e.path.rpc))
    ∧ ∀ l th, k.thread l = some th → k'.thread l = some { th with resv := none }

/-- R302, R303, R304, R385, R321, R297, and for the victim of a pre-emption log entry 20, the model's choice: rotation saves the block of the grid placed last among those that may be; pre-emption, after 1 ms, one of a grid of lower
PRIO. A saved block is placed again with everything it held, on a core that fits it, and its arrival at a scoped barrier is made again there (R266).
Compaction moves an allocation with its bytes, full-empty bits and reservations (R260). -/
def Obligations.BlocksAreSavedMovedAndRestored : Prop :=
  (∀ (s : State) (gid blk slot : Nat) (g : Grid) (b : Block), s.grid gid = some g → s.rotNeeded gid g = true → s.rotVictim gid = some (blk, b) →
    g.freeSlot = some slot → s.canSave blk b = true → s.block blk = some b →
    b.grid = gid ∧ (∀ i c, (i, c) ∈ s.residents gid → s.hasSuspended i = false → s.blockStopped i c = false → c.order ≤ b.order)
    ∧ ∃ t, exec (.blockRotation gid) s = .next t ∧ blockSaved s t blk b slot g)
  ∧ (∀ (s : State) (gid blk slot c : Nat) (g h : Grid) (b : Block), s.grid gid = some g → g.waits = some c → g.stat = .running → s.itemStuck gid g = true →
    s.preemptVictim g = some (blk, b) → s.block blk = some b → s.grid b.grid = some h → h.freeSlot = some slot →
    h.lrec.prio < g.lrec.prio ∧ (c + 1500000 ≤ s.clk → ∃ t, exec (.preemption gid) s = .next t ∧ blockSaved s t blk b slot h)
    ∧ (s.clk < c + 1500000 → exec (.preemption gid) s = .next s))
  ∧ (∀ (s : State) (gid d blk core base : Nat) (g : Grid) (b : Block), s.grid gid = some g → s.placement gid = some (d, .rotated blk, core) →
    s.block blk = some b → s.fits core b.need false = some base → (∀ c ∈ b.cohs, c.2.frz = none) →
    (∀ p ∈ s.pend, p.blk = blk → p.feWindow = false) →
    let inst (o : SOpen) : Nat := scopeInst o.scope (core / 256) (core % 256)
    (∀ o, b.sbo = some o → o.made = true → o.isGrid = false → ∀ i ∈ g.sbars, i.scope = o.scope → i.inst = inst o → i.n = o.n) →
    ∃ t nb, exec (.rotatedBlockRestore gid) s = .next t ∧ t.block blk = some nb ∧ nb.saved = false ∧ nb.coreId = core ∧ nb.base = base
      ∧ { nb.bare with die := 0, core := 0, base := 0, order := 0, saved := false } = { b.bare with die := 0, core := 0, base := 0, order := 0, saved := false }
      ∧ nb.b = b.b ∧ (∀ i < b.size, t.byte (.core core) (base + i) = b.mem.read i)
      ∧ (∀ i k, b.coh i = some k → ∃ k', nb.coh i = some k' ∧ { k' with part := 0, cslot := 0 } = { k with part := 0, cslot := 0 })
      ∧ (b.nb = true → nb.coreId = b.coreId) ∧ (t.grid gid).map (·.rot) = some (g.rot.filter (· != blk))
      ∧ ∀ o, b.sbo = some o → o.made = true → o.isGrid = false → ∃ h i, t.grid gid = some h ∧ i ∈ h.sbars ∧ i.scope = o.scope ∧ i.inst = inst o
          ∧ i.n = o.n ∧ blk ∈ i.arr)
  ∧ ∀ (s : State) (core blk base : Nat) (b : Block), s.wantsRun core = true → s.nextMove core = some (blk, b, base) → s.block blk = some b → b.coreId = core →
    b.base % 16 = 0 → base % 16 = 0 →
    base < b.base ∧ ∃ t, exec (.scratchpadCompaction core) s = .next t ∧ (t.block blk).map Block.bare = some { b with base := base }.bare
      ∧ (∀ r l th, s.thr r l = some th → t.thr r l = some { th with resv := th.resv.map (fun v =>
          if v.store = .core core ∧ b.base ≤ 16 * v.gran ∧ 16 * v.gran < b.base + b.size then { v with gran := v.gran - b.base / 16 + base / 16 } else v) })
      ∧ (∀ i < b.size, t.byte (.core core) (base + i) = s.byte (.core core) (b.base + i) ∧ t.full (.core core) (base + i) = s.full (.core core) (b.base + i))
      ∧ (∀ a, a < base ∨ base + b.size ≤ a → t.byte (.core core) a = s.byte (.core core) a)
      ∧ s.keeps t (fun p => p = .blk blk ∨ p = .objs core ∨ (∃ r l, p = .resv r l) ∨ ∃ a, p = .byte (.core core) a ∨ p = .full (.core core) a
        ∨ p = .psn (.core core) a)

/-- R306, R298, R301, R60, R321: the residency condition held for 10 ms with no rotation possible kills the grid, logged with unit 0x0D and CODE 9; a task group
launches 2,048 cycles after its first record; a grid of which nothing is left ends, its messages leave the neighbour links (R267) and its LAUNCH completes, with status 0, or 0x10 when it was
killed; a load of a saved block lands in its image. -/
def Obligations.GridsEnd : Prop :=
  (∀ (s : State) (gid c : Nat) (g : Grid), s.grid gid = some g → g.since = some c → g.stat = .running → s.rotNeeded gid g = true → s.noRotation gid g = true →
    (s.clk < c + 15000000 → exec (.residencyDeadlockKill gid) s = .next s)
    ∧ (c + 15000000 ≤ s.clk → ∃ t, exec (.residencyDeadlockKill gid) s = .next t ∧ t.grid gid = some { g with stat := .killed, status := 0x10 }
      ∧ (∀ i bk, s.block i = some bk → bk.grid = gid → t.block i = none) ∧ t.copies = s.copies.filter (fun q => q.grid != gid)
      ∧ (let k := (s.die 0).banks.get 12 Bank.zero
         let n := (t.die 0).banks.get 12 Bank.zero
         k.status = 0#64 → n.status = 0x92000000000D0009#64 ∧ n.misc = g.pasid.setWidth 64 <<< 36)))
  ∧ (∀ (s : State) (die : Nat) (u : Task) (pre post : List Task), (s.die die).tq = pre ++ u :: post → u.seq = none → u.at' + 2048 ≤ s.clk →
    (∀ w ∈ pre, w.seq.isSome ∨ s.clk < w.at' + 2048) → ∃ t, exec (.taskGroupTimeout die) s = .next t
      ∧ (t.die die).tq = (s.die die).tq.map (fun w => if w.seq = none ∧ w.grid = u.grid ∧ w.entry = u.entry ∧ w.clus = u.clus
          then { w with seq := some (s.die die).tseq } else w)
      ∧ (t.die die).tseq = (s.die die).tseq + 1 ∧ s.keeps t (· = .die die))
  ∧ (∀ (s : State) (gid a : Nat) (g : Grid) (c : Cmd), s.grid gid = some g → g.stat ≠ .ended → (∀ b ∈ s.blocks, b.2.grid ≠ gid) →
    (∀ q ∈ s.copies, q.grid ≠ gid) → (∀ p ∈ s.pend, p.grid ≠ gid) → (∀ d ∈ s.dies, ∀ u ∈ d.2.tq, u.grid ≠ gid) → (g.stat = .killed ∨ g.lrec.total ≤ g.next) →
    hostReady s g.qn.toNat a c → s.cmdOf g.qn.toNat g.cmd = some c → (g.stat = .killed → g.status = 0x10) →
    ∃ t, exec (.gridEnd gid) s = .next t ∧ t.grid gid = some { g with stat := .ended, status := if g.stat = .killed then 0x10 else 0 }
      ∧ cmdEnded s t g.qn.toNat a c (if g.stat = .killed then 0x10 else 0) (s.queue g.qn.toNat).head
      ∧ t.dbg = (if g.recd then { s.dbg with recctl := s.dbg.recctl &&& ~~~1#64 } else s.dbg)
      ∧ (∀ n, t.core n = { s.core n with fifo := (s.core n).fifo.map (fun f => (f.1, f.2.filter (fun e => e.grid != gid))) })
      ∧ s.keeps t (fun p => hostPlaces s g.qn.toNat a c p ∨ p = .grid gid ∨ p = .dbg ∨ ∃ n, p = .core n))
  ∧ ∀ (s : State) (id lane : Nat) (p : Pend) (as : List Acc) (old : AMap W64), s.pendOf id = some p → s.landable p lane true = some as →
    s.errIn = [] → (∀ q ∈ s.blocks, q.2.logr = none) → p.smp = none → (AMap.keys p.lanes).Nodup → p.kind = .load .none old → s.isSaved p.blk = true →
    let ls := p.sameElement lane
    let accs (l : Nat) : List Acc := (p.lanes.find l).getD []
    s.groupOk p ls = true → (∀ l ∈ ls, (s.thr p.ref l).isSome ∧ ((accs l).map (·.k)).Nodup) →
    lane ∈ ls ∧ ∃ t, exec (.replyToSavedImage id lane) s = .next t ∧ (∀ l ∈ ls, landed s t p l (accs l)) ∧ lanesLeft s t p ls
      ∧ s.keeps t (landPlaces p ls)

/-! ## Debugging and errors (events) -/

/-- R371, R370: an event of a unit and class reaches its bank: COUNT advances; an empty bank takes the record; a valid record of the same or a higher
class stays and OVER is set; one of a lower class is overwritten with OVER set. -/
def bankTakes (s t : State) (die unit cls code : Nat) : Prop :=
  let k := (s.die die).banks.get (unit - 1) Bank.zero
  let n := (t.die die).banks.get (unit - 1) Bank.zero
  let rec' : W64 := BitVec.ofNat 64 (2 ^ 63 + cls * 2 ^ 60 + unit * 2 ^ 16 + code)
  (k.count.toNat % 2 ^ 32 < 2 ^ 32 - 1 → n.count.toNat % 2 ^ 32 = k.count.toNat % 2 ^ 32 + 1) ∧ n.ctl = k.ctl
  ∧ (cls ≠ 0 ∨ k.ctl.getLsbD 0 = true →
    (k.status = 0#64 → n.status = rec')
    ∧ (k.status.getLsbD 63 = true → (k.status.toNat / 2 ^ 60) % 4 < cls → n.status = rec' ||| 0x4000000000000000#64)
    ∧ (k.status.getLsbD 63 = true → cls ≤ (k.status.toNat / 2 ^ 60) % 4 → n.status = k.status ||| 0x4000000000000000#64 ∧ n.addr = k.addr ∧ n.misc = k.misc))

/-- An image has taken the place of a block: its cohorts but for their places, the bytes of its allocation. -/
def imageIn (t : State) (blk : Nat) (b img : Block) : Prop :=
  (∀ i < b.size, t.byte (.core b.coreId) (b.base + i) = img.mem.read i)
  ∧ ∃ nb, t.block blk = some nb ∧ nb.coreId = b.coreId ∧ nb.base = b.base ∧ nb.b = img.b ∧ nb.recs = img.recs ∧ nb.arr = img.arr ∧ nb.ph = img.ph
    ∧ ∀ i k, img.coh i = some k → ∃ k', nb.coh i = some k' ∧ { k' with part := 0, cslot := 0 } = { k with part := 0, cslot := 0 }

/-- A join record in the layout of R235: ORPC and RP; V, BLK and KEEP; a bit of M and of ARR for each thread of the block. -/
def laidOut (d : RecDump) (q : Rec) (nt : Nat) : Prop :=
  d.orpc = q.orpc.getD 0#64 ∧ d.rp = q.rp
  ∧ d.low = 1#64 ||| (if q.blk then 4#64 else 0#64) ||| (if q.keep then 8#64 else 0#64)
  ∧ ∀ t < nt, d.m[t]? = some (q.m.contains t) ∧ d.arr[t]? = some (q.arr.contains t)

/-- R342, R343, R228, R235: a host request stops a partition; a resumed partition issues again; the dump of a stopped one holds each of its cohorts
with the registers of its threads, primal and tangents, its block's records in their layout, and the register writes under way, a
load's with its lanes, counter, destination and cohort slot. -/
def stopsAndDumpsRule : Prop :=
  ∀ (s : State) (core part : Nat),
    let pt := (s.core core).part part
    (∃ t, exec (.hostStopRequest core part) s = .next t ∧ (t.core core).part part = { pt with stopped := true } ∧ s.keeps t (fun p => p = .part core part ∨ p = .pow))
    ∧ (pt.stopped = true → s.dbg.live = [] → ∃ t, exec (.partitionResume core part) s = .next t ∧ (t.core core).part part = { pt with stopped := false }
        ∧ t.cur = none ∧ s.keeps t (fun p => p = .part core part ∨ p = .cur))
    ∧ (pt.stopped = false → exec (.partitionResume core part) s = .next s ∧ exec (.partitionDump core part) s = .next s)
    ∧ (pt.stopped = true → ∃ t, exec (.partitionDump core part) s = .next t ∧ s.keeps t (· = .dbg) ∧ { t.dbg with dump := [] } = { s.dbg with dump := [] }
        ∧ (∀ q b c, q ∈ s.cohortsOn core part → s.block q.1 = some b → b.coh q.2 = some c → c.cslot < 11 → ∃ e ∈ t.dbg.dump, e.blk = q.1 ∧ e.coh = q.2
            ∧ e.cslot = c.cslot ∧ e.b = b.b ∧ e.img.s = c.s ∧ e.img.k = c.k ∧ e.img.d = c.d ∧ e.img.frz = c.frz
            ∧ (∀ l th, c.thread l = some th → ∃ h, e.img.thread l = some h ∧ h.v = th.v ∧ h.m = th.m ∧ h.seed = th.seed)
            ∧ e.recs.length = b.recs.length ∧ ∀ (i : Nat) d w, e.recs[i]? = some d → b.recs[i]? = some w → laidOut d w b.nt)
        ∧ ∀ p k d c q old, p ∈ s.pend → (p.blk, p.coh) ∈ s.cohortsOn core part → s.coh p.ref = some c → c.cslot < 11 → p.kind = .load q old → p.more = false →
            p.slot = some k → p.dst = some (.v d) → (∃ l ∈ p.lanes, l.1 < 32 ∧ ∃ a ∈ l.2, a.k = 0) →
            BitVec.ofNat 64 (min c.cslot 8 + d.toNat * 2 ^ 12 + k.toNat * 2 ^ 24 + (maskOf (AMap.keys p.lanes)).toNat * 2 ^ 32) ∈ t.dbg.dump.flatMap (·.pend))

/-- R348, R349, R350: a checkpoint that is due holds its block and is then kept; a step backwards, with every partition of the grid stopped, keeps the live image and puts the recorded state of the clause count in its place, or is out of reach (the number of that
status is the model's, log entry 21); the return puts the live image back; a replay is refused with
0x05 while a partition of its die runs and with 0x04 when the log is incomplete. -/
def recordedBlocksStepBackRule : Prop :=
  ∀ (s : State) (blk : Nat) (b : Block), s.block blk = some b →
    (s.ckptDue b = true → b.saved = false →
      (b.held = false → b.ckw = false → ∃ t, exec (.autoCheckpoint blk) s = .next t ∧ t.block blk = some { b with ckw := true } ∧ s.keeps t (· = .blk blk))
      ∧ (b.held = true → ∃ t, exec (.autoCheckpoint blk) s = .next t ∧ t.block blk = some { b with ckw := false, ckat := b.retiredClauses, ckn := b.ckn + 1 }
        ∧ ((∀ q ∈ s.dbg.snaps, q.blk ≠ blk) → s.dbg.ckdepth ≠ 0#8 → ∃ q ∈ t.dbg.snaps, q.blk = blk ∧ q.ck = true ∧ q.clk = s.clk ∧ q.img.cohs = b.cohs)))
    ∧ (s.gridStopped b.grid = true → b.saved = false → s.dbg.live.find blk = none → s.allocQuiet blk b = true → ∀ coh n,
        (s.snapAt blk coh n = none → exec (.reverseStep blk coh n) s = .next { s with dbg := { s.dbg with status := 0x100 } })
        ∧ ∀ q, s.snapAt blk coh n = some q → q.blk = blk ∧ q.ncls coh = n ∧ ∃ t, exec (.reverseStep blk coh n) s = .next t ∧ imageIn t blk b q.img
            ∧ t.dbg.live.find blk = some (s.imageOf b) ∧ t.dbg.status = 0)
    ∧ (s.gridStopped b.grid = false → ∀ coh n, exec (.reverseStep blk coh n) s = .next s)
    ∧ (s.dbg.live.find blk = none → exec (.returnToLive blk) s = .next s)
    ∧ (∀ img, s.dbg.live.find blk = some img → ∃ t, exec (.returnToLive blk) s = .next t ∧ imageIn t blk b img ∧ t.dbg.live.find blk = none)
    ∧ ∀ die lo hi,
        let run := exec (.engineReplay die lo hi) s
        let ends (n : Nat) : Prop := run = .next { s with dbg := { s.dbg with status := n } }
        let stopped : Prop := ∀ c p, c / 256 = die → p < 4 → s.stoppedAt c p = true
        (¬ stopped → ends 0x05)
        ∧ (stopped → (hi < lo ∨ (s.die die).englog.length ≤ hi) → ends 0x04)
        ∧ (stopped → lo ≤ hi → hi < (s.die die).englog.length →
            ((∀ e ∈ (s.die die).englog, (s.die die).logWhole e = true) → s.errIn = [] → ends 0x01)
            ∧ ((∀ e ∈ (s.die die).englog, (s.die die).logWhole e = false) → ends 0x04))

/-- R344, R370, R345, R347, R387, R395, R339, R386, R5: writes of the management plane: a mailbox word takes the value; a register takes it by its access
type: RW fields take it, a one clears a W1C bit, RO registers do not change, FEATGO commits when 1 is written; WO and reserved registers read 0. -/
def Obligations.ManagementWrites : Prop :=
  ∀ (s : State) (die core : Nat) (v : W64) (j : BitVec 4) (w : BitVec 3) (n : Nat),
    let d := s.die die
    let put (r : HReg) (f : State → Prop) (pl : Place → Prop) : Prop := ∃ t, exec (.registerWrite die core r v) s = .next t ∧ f t
      ∧ t.pow = { s.pow with ps2 := false, idle := none } ∧ s.keeps t (fun p => p = .pow ∨ pl p)
    let onDie (r : HReg) (f : Die) : Prop := put r (fun t => t.die die = f) (· = .die die)
    let bank (r : HReg) (f : Bank → Bank) : Prop := n < 32 →
      put r (fun t => (t.die die).banks.get n Bank.zero = f (d.banks.get n Bank.zero) ∧ { t.die die with banks := [] } = { d with banks := [] }
        ∧ ∀ m, m ≠ n → (t.die die).banks.get m Bank.zero = d.banks.get m Bank.zero) (· = .die die)
    (∃ t, exec (.hostMailboxWrite die j w v) s = .next t ∧ s.keeps t (fun p => p = .pow ∨ p = .die die)
      ∧ (∀ i, (t.die die).mbx.get i 0#64 = if i = 8 * j.toNat + w.toNat then v else d.mbx.get i 0#64) ∧ { t.die die with mbx := [] } = { d with mbx := [] })
    ∧ onDie .smpper { d with smpper := v.setWidth 32 } ∧ onDie .smpbase { d with smpbase := v, smpptr := 0 } ∧ onDie .smpsize { d with smpsize := v.toNat }
    ∧ onDie .mbxst { d with mbxst := d.mbxst &&& ~~~(v.setWidth 16) } ∧ onDie .engbase { d with engbase := v } ∧ onDie .engsize { d with engsize := v }
    ∧ onDie .lifethr { d with lifethr := v.setWidth 32 }
    ∧ bank (.mcstatus n) (fun b => { b with status := b.status &&& ~~~(v &&& 0xC000000000000000#64) })
    ∧ bank (.mcctl n) (fun b => { b with ctl := v &&& 0xFFFFFFFF00000003#64 })
    ∧ bank (.mccount n) (fun b => { b with count := (b.count &&& ~~~v &&& 0x8000000000000000#64) ||| (v &&& 0xFFFFFFFF#64) })
    ∧ (∀ r ∈ [HReg.recctl, HReg.recarm, HReg.logbase, HReg.logstride, HReg.logcount, HReg.ckbase, HReg.ckdepth], put r (fun t =>
        t.dbg.recctl = (if r = .recctl then (v &&& 0xFFFFFFFF00000000#64) ||| (s.dbg.recctl &&& 1#64) ||| (s.dbg.recctl &&& 2#64 &&& ~~~v) else s.dbg.recctl)
        ∧ t.dbg.recarm = (if r = .recarm then v &&& 0x8000000FFFFFFFFF#64 else s.dbg.recarm)
        ∧ t.dbg.logbase = (if r = .logbase then v else s.dbg.logbase) ∧ t.dbg.logstride = (if r = .logstride then v.setWidth 32 else s.dbg.logstride)
        ∧ t.dbg.logcount = (if r = .logcount then v.setWidth 16 else s.dbg.logcount) ∧ t.dbg.ckbase = (if r = .ckbase then v else s.dbg.ckbase)
        ∧ t.dbg.ckdepth = (if r = .ckdepth then v.setWidth 8 else s.dbg.ckdepth)) (· = .dbg))
    ∧ (n < 4 → put (.featacc n) (fun t => ∀ i < 256, t.host.featacc.getLsbD i = if i / 64 = n then v.getLsbD (i % 64) else s.host.featacc.getLsbD i) (· = .host))
    ∧ (n < 512 → put (.route n) (fun t => t.fab.route.get n 0#32 = v.setWidth 32 &&& 0x3FFFF#32) (· = .fab))
    ∧ (n < 32 → put (.bpc n) (fun t => (t.core core).bpc.get n 0#64 = v &&& ~~~2#64) (· = .core core))
    ∧ (n < 4 → put (.wpb n) (fun t => (t.core core).wpb.get n 0#64 = v &&& 0xF003FFFF0003FFFF#64) (· = .core core))
    ∧ onDie .smpdrop { d with smpdrop := v.setWidth 32 }
    ∧ (n < 4 → put (.bphit n) (fun t => ((t.core core).part n).bphit = v.setWidth 16 &&& 0x107#16) (· = .part core n))
    ∧ (s.dbg.live = [] → put .stopst (fun t => ∀ p < 4, ((t.core core).part p).stopped = v.getLsbD p) (fun z => z = .cur ∨ ∃ p < 4, z = .part core p))
    ∧ (∀ r ∈ [HReg.ro n, .mcaddr n, .mcmisc n, .lifeh, .featoff n, .featst, .qtbase, .qtinv, .qtinvst, .dbdrop, .plim, .bootst, .fenced n, .down,
        .inletTemp, .inputPower], put r (fun _ => True) (fun _ => False))
    ∧ (v ≠ 1#64 → put .featgo (fun _ => True) (fun _ => False))
    ∧ (v = 1#64 → put .featgo (fun t => t.host = s.commitFeat.host) (· = .host))
    ∧ s.getHReg die core .featgo = 0#64 ∧ s.getHReg die core .qtinv = 0#64 ∧ s.getHReg die core (.ro n) = 0#64

/-- R365, R368, R370, R371, R372, R374: a failed CRC is retransmitted and logged as corrected; after 8 failed retransmissions it is contained on a Spire link
and fatal elsewhere. A fatal error stops the package: all work is discarded and the outstanding LAUNCH, COPY and SELFTEST commands end. LIFEH below its
threshold is logged once. -/
def Obligations.ErrorsAreLogged : Prop :=
  (∀ (s : State) (link : Nat) (again : Bool), s.pow.fatal = false → link ∉ s.fab.down →
    let n := if again then s.fab.crcs.get link 0 + 1 else 1
    let die := if link < 18 then 0 else if link < 22 then link - 18 else if link < 26 then link - 22 else 0
    let unit := if link < 18 then 0x0C else 0x0B
    ∃ t, exec (.crcRetransmit link again) s = .next t ∧ t.fab = { s.fab with crcs := s.fab.crcs.set link n }
      ∧ (if n ≤ 8 then bankTakes s t die unit 0 6 ∧ t.pow = s.pow
        else if link < 18 then bankTakes s t die unit 1 7 ∧ t.pow = s.pow
        else bankTakes s t die unit 2 7 ∧ t.pow = { s.pow with raised := some (die, unit - 1) })
      ∧ s.keeps t (fun p => p = .fab ∨ p = .die die ∨ p = .pow))
  ∧ (∀ (s : State) (die bank : Nat), s.pow.raised = some (die, bank) → ∃ t, exec (.fatalStop die bank) s = .next t
    ∧ t.pow = { s.pow with raised := none, fatal := true } ∧ t.cur = none ∧ t.grids = [] ∧ t.blocks = [] ∧ t.pend = [] ∧ t.copies = [] ∧ t.fab.reqs = []
    ∧ (∀ d, (t.die d).caps = [] ∧ (t.die d).fq = [] ∧ (t.die d).heldq = [] ∧ (t.die d).nestq = [] ∧ (t.die d).tq = []
      ∧ (s.errIn = [] → (t.die d).banks = (s.die d).banks))
    ∧ ∀ q, ∀ c ∈ (t.queue q).cmds, c.began = true → c.op ≠ 1 ∧ c.op ≠ 2 ∧ c.op ≠ 6)
  ∧ ∀ (s : State) (die : Nat) (v : W32), ∃ t, exec (.lifehUpdate die v) s = .next t ∧ (t.die die).lifeh = v ∧ s.keeps t (· = .die die)
    ∧ (if v.toNat < (s.die die).lifethr.toNat ∧ (s.die die).lifethr.toNat ≤ (s.die die).lifeh.toNat then bankTakes s t die 0x0F 0 0x0B
      else t.die die = { s.die die with lifeh := v })

/-- The statements `stopsAndDumpsRule`, `recordedBlocksStepBackRule` together. -/
def Obligations.StopsDumpsAndRecordings : Prop := stopsAndDumpsRule ∧ recordedBlocksStepBackRule

/-! ## Fabric, boot, power and heat (events) -/

/-- R390, R391, R392: how an output's arbiter shares it: TC6 and TC7 go before TC0 to TC5; the class visited sends while its counter holds 64
bytes, then the next class in ascending TC that holds a flit is visited, which adds its weight times 64 to its counter; past the last one a new
round reads the weights. A flit sent takes 64 from the counter, which is 0 when the class holds no more. Of the inputs that hold a flit of the
class the least recently granted wins. -/
def arbiterShares : Prop :=
  (∀ (a : Arb) (wt : Nat → Nat) (has : Nat → Bool),
    let hi := has 6 || has 7
    let mine (k : Nat) : Prop := has k = true ∧ if hi then k = 6 ∨ k = 7 else k < 6
    let visited (a' : Arb) (k w : Nat) : Prop := a'.dc.get k 0 = a.dc.get k 0 + 64 * max 1 w ∧ a'.pos hi = some k ∧ a'.pos (!hi) = a.pos (!hi)
      ∧ a'.lru = a.lru ∧ ∀ j, j ≠ k → a'.dc.get j 0 = a.dc.get j 0
    ((∀ k, ¬ mine k) → a.choose wt has = none)
    ∧ (∀ p, a.pos hi = some p → mine p → 64 ≤ a.dc.get p 0 → a.choose wt has = some (p, a))
    ∧ ((∀ p, a.pos hi = some p → has p = false ∨ a.dc.get p 0 < 64) →
      (∀ p k, a.pos hi = some p → mine k → p < k → (∀ j, mine j → p < j → k ≤ j) →
        ∃ a', a.choose wt has = some (k, a') ∧ visited a' k (a.w.get k 4) ∧ a'.w = a.w)
      ∧ (∀ k, (∀ p, a.pos hi = some p → ∀ j, mine j → j ≤ p) → mine k → (∀ j, mine j → k ≤ j) →
        ∃ a', a.choose wt has = some (k, a') ∧ visited a' k (wt k) ∧ ∀ j, (if hi then j = 6 ∨ j = 7 else j < 6) → a'.w.get j 4 = wt j)))
  ∧ ∀ (a : Arb) (c i : Nat) (more : Bool) (ins : List Nat),
    (a.granted c i more).dc.get c 0 = (if more then a.dc.get c 0 - 64 else 0)
    ∧ (i < 64 → ∀ j < 64, j ≠ i → j ∈ (a.granted c i more).lru.get i [] ∧ i ∉ (a.granted c i more).lru.get j [])
    ∧ (∀ w, a.input ins = some w → w ∈ ins ∧ ((∃ i ∈ ins, ∀ j ∈ ins, j ∉ a.lru.get i []) → ∀ j ∈ ins, j ∉ a.lru.get w []))

/-- R390 to R394, and log entry 22 for the model's network, which has no credits and serves flits by events: an output's arbiter shares it by
classes and weights; a weight is written. The first flit event of an operation whose first access leaves its die injects its request, with the
traffic class of its launch, or 6 in a handler (R125), numbered between its dies, and its first flit takes the direct link. Of two flits that want one link the older takes it and the younger is deflected to
the lowest free one. A request whose flits have all arrived is applied when no earlier one of its source to the same elements is missing. -/
def requestsCrossThePackageRule : Prop :=
  arbiterShares
  ∧ (∀ (s : State) (die n : Nat) (router : Bool) (v : W32), n < 8 → ∃ t, exec (.qwWeightWrite die n router v) s = .next t
    ∧ (t.die die).qw = (s.die die).qw.set (if router then n + 8 else n) (v &&& 0xFF#32) ∧ { t.die die with qw := [] } = { s.die die with qw := [] }
    ∧ s.keeps t (fun p => p = .die die ∨ p = .pow))
  ∧ (∀ (s : State) (die id home n : Nat) (p : Pend) (b : Block), die ≤ 4 → home ≤ 4 → s.fab.reqs = [] → s.pendOf id = some p → s.block p.blk = some b →
    b.die = die → p.away die = some (home, n) → ∃ t, exec (.packageFlitArrival die id) s = .next t
      ∧ t.fab = { s.fab with
          reqs := [⟨id, if b.isHandler then 6 else ((s.grid b.grid).map (·.lrec.tc)).getD 0, b.core / 16, die, home, s.clk,
            s.fab.seqOut.get (8 * die + home) 0, (home, true) :: List.replicate (max 1 ((n + 63) / 64) - 1) (die, false)⟩]
          seqOut := s.fab.seqOut.set (8 * die + home) (s.fab.seqOut.get (8 * die + home) 0 + 1) }
      ∧ { t.die die with net := (s.die die).net } = s.die die ∧ s.keeps t (fun p => p = .fab ∨ p = .die die))
  ∧ (∀ (s : State) (die : Nat) (a b : NetReq), die ≤ 4 → a.dst ≤ 4 → s.fab.reqs = [a, b] → a.id ≠ b.id → a.dst = b.dst → a.dst ≠ die → a.flits = [(die, true)] →
    b.flits = [(die, true)] → a.inj < b.inj →
    let low := if die ≠ 0 ∧ a.dst ≠ 0 then 0 else if die ≠ 1 ∧ a.dst ≠ 1 then 1 else 2
    exec (.packageFlitArrival die a.id) s = .next { s with fab := { s.fab with reqs := [{ a with flits := [(a.dst, true)] }, b] } }
    ∧ exec (.packageFlitArrival die b.id) s = .next { s with fab := { s.fab with reqs := [a, { b with flits := [(low, true)] }] } })
  ∧ ∀ (s : State) (id : Nat) (r : NetReq) (rest : List NetReq), s.fab.reqs = r :: rest → r.id = id →
    ((∃ f ∈ r.flits, f.1 ≠ r.dst) → exec (.requestReassembled id) s = .next s)
    ∧ ((∀ f ∈ r.flits, f.1 = r.dst) → (∀ q ∈ rest, q.src = r.src → q.dst = r.dst → r.seq < q.seq) →
        exec (.requestReassembled id) s = .next { s with fab := { s.fab with reqs := rest.filter (fun q => q.id != id) } })

/-- R368, R395, R285, R123: a Spire link whose retransmissions are exhausted goes down; no access or copy that does not take it is touched. The lanes
that a waiting word has sent over it are lost and issue again; a copy over it is suspended with the translation fault 0x04; and packages that
only it leads to are in a hole from then on. -/
def linksGoDownRule : Prop :=
  ∀ (s : State) (link : Nat), link < 18 → link ∉ s.fab.down → 8 < s.fab.crcs.get link 0 →
    ∃ t, exec (.spireLinkDown link) s = .next t ∧ link ∈ t.fab.down ∧ (∀ l, l ≠ link → (l ∈ t.fab.down ↔ l ∈ s.fab.down))
      ∧ (let crosses (c : CopyT) (pa : Nat) : Prop := ∃ u, s.translate (xunit c.core) c.pasid (c.memAddr (c.pos c.done))
          (if c.out then .copyOut else .copyIn) = (u, .ok pa) ∧ s.linkAt pa = some link
        ((∀ p ∈ s.pend, ∀ l ∈ p.lanes, ∀ a ∈ l.2, s.linkOf a ≠ some link) → (∀ c ∈ s.copies, ∀ pa, ¬ crosses c pa) → s.keeps t (· = .fab))
        ∧ (∀ c pa, s.copies = [c] → s.pend = [] → crosses c pa → c.susp = none → (c.out = true ∨ c.fill = none) →
            ∃ f, (t.copyT c.id).bind (·.susp) = some f ∧ f.kind = 0x01 ∧ f.code = 0x04)
        ∧ ∀ p, s.pend = [p] → s.copies = [] → p.more = true →
            let gone := p.lanes.filter (fun l => l.2.any (fun a => s.linkOf a == some link))
            gone ≠ [] → ∃ q, t.pend = [q] ∧ q.lost = p.lost ||| maskOf (AMap.keys gone) ∧ q.done = p.done
              ∧ q.lanes = p.lanes.filter (fun l => !(AMap.keys gone).contains l.1))
      ∧ ∀ a, 0x8000000000000 ≤ a → a < 0x10000000000000 → bitsAt a 42 9 ≠ s.fab.self →
          (∀ l < 18, (s.fab.route.get (bitsAt a 42 9) 0#32).getLsbD l = true → l = link ∨ l ∈ s.fab.down) → t.physAddr a = none

/-- R396, R397, R398, R372: power-on leaves the reset state with the boot ROM waiting, the banks kept over a reset of a package that had power; power-off
loses all. The boot ROM takes one image, refuses a bad MAGIC or LEN with 0x10 and a second image with 0x12, and starts the firmware or discards the
image with 0x11. An attestation report is made only while the firmware runs. -/
def Obligations.ThePackageBoots : Prop :=
  ∀ (s : State) (img nonce : List Byte),
    let bootst (n : Nat) : State := { s with pow := { s.pow with bootst := n } }
    let len := leNat ((img.drop 8).take 8)
    let good : Prop := leNat (img.take 8) = 0x4B484C3732303046 ∧ len % 64 = 0 ∧ 64 ≤ len ∧ len + 512 ≤ img.length
    (∃ t, exec .powerOn s = .next t ∧ t.pow = PowSt.reset ∧ t.host = HostSt.reset ∧ t.dbg = DbgSt.reset ∧ t.fab = FabSt.reset ∧ t.phys = [] ∧ t.grids = []
      ∧ t.blocks = [] ∧ t.pend = [] ∧ t.copies = [] ∧ t.cores = [] ∧ t.tlb = [] ∧ t.cur = none ∧ t.clk = 0
      ∧ ∀ d, t.die d = if s.pow.on then { Die.zero with banks := (s.die d).banks } else Die.zero)
    ∧ (∃ t, exec .powerOff s = .next t ∧ t.pow = { PowSt.reset with on := false, bootst := 0 } ∧ t.host = HostSt.reset ∧ t.phys = [] ∧ t.grids = [] ∧ t.blocks = []
      ∧ t.cores = [] ∧ ∀ d, t.die d = Die.zero)
    ∧ (s.pow.on = true → s.pow.bootst ≠ 3 →
      (s.pow.img.isSome = true → exec (.firmwareImage img) s = .next (bootst 0x12))
      ∧ (s.pow.img = none → (good → exec (.firmwareImage img) s = .next { s with pow := { s.pow with bootst := 2, img := some img } })
        ∧ (¬ good → exec (.firmwareImage img) s = .next (bootst 0x10))))
    ∧ (s.pow.on = true → s.pow.img = some img →
      (Config.signatureOk img = true → exec .firmwareVerifyComplete s = .next { s with pow := { s.pow with
          bootst := 3
          img := none
          ver := BitVec.ofNat 64 (leNat ((img.drop 0x10).take 4))
          imghash := Config.hash (img.take len) } })
      ∧ (Config.signatureOk img = false → exec .firmwareVerifyComplete s = .next { s with pow := { s.pow with bootst := 0x11, img := none } }))
    ∧ (s.pow.on = true → s.pow.bootst = 3 → nonce.length = 32 → ∃ t body, exec (.attestationRequest nonce) s = .next t ∧ t.pow.report = body ++ Config.sign body
      ∧ body = nonce ++ s.pow.imghash ++ leBytes 4 s.pow.ver.toNat ++ leBytes 32 s.host.featoff.toNat ++ leBytes 32 s.host.featacc.toNat ++ Config.serial
      ∧ s.keeps t (· = .pow))
    ∧ (s.pow.bootst ≠ 3 → exec (.attestationRequest nonce) s = .next s)

/-- R399, R400, R401, R372: PLIM takes a value from 1,200 W to 2,800 W. PS2 is entered only when the queues have been idle for 10 ms. A die at 105 °C issues
nothing until it has fallen to 100 °C; at 115 °C a fatal error with unit 0x0F is raised. -/
def Obligations.PowerAndHeat : Prop :=
  ∀ (s : State) (die : Nat) (v : W32),
    (s.pow.on = true → 1200 ≤ v.toNat → v.toNat ≤ 2800 →
      exec (.plimWrite v) s = .next { s with pow := { s.pow with ps2 := false, idle := none, plim := v } })
    ∧ (v.toNat < 1200 ∨ 2800 < v.toNat → exec (.plimWrite v) s = .next s)
    ∧ (∀ c, s.pow.idle = some c → s.quiet = true → s.pow.on = true → s.pow.bootst = 3 → s.pow.fatal = false → s.pow.ps2 = false →
      (c + 15000000 ≤ s.clk → exec .ps2Entry s = .next { s with pow := { s.pow with ps2 := true } })
      ∧ (s.clk < c + 15000000 → exec .ps2Entry s = .next s))
    ∧ (s.pow.idle = none ∨ s.quiet = false → exec .ps2Entry s = .next s)
    ∧ (∃ t, exec (.thermalThrottle die) s = .next t ∧ t.die die = { s.die die with hot := true } ∧ s.keeps t (· = .die die)
      ∧ ∀ b c, b.die = die → t.cohFree b c = false)
    ∧ (∃ t, exec (.thermalThrottleEnd die) s = .next t ∧ t.die die = { s.die die with hot := false } ∧ s.keeps t (· = .die die))
    ∧ (s.pow.fatal = false → ∃ t code, code < 65536 ∧ exec (.thermalTrip die) s = .next t ∧ t.pow = { s.pow with raised := some (die, 0x0E) }
      ∧ bankTakes s t die 0x0F 2 code ∧ s.keeps t (fun p => p = .die die ∨ p = .pow ∨ p = .names))

/-- The statements `requestsCrossThePackageRule`, `linksGoDownRule` together. -/
def Obligations.RequestsAndLinks : Prop := requestsCrossThePackageRule ∧ linksGoDownRule

/-! ## Decoding -/

/-- R36, R37, R49: encoding a well-formed instruction word of any family and decoding the words gives it back, with every operand, counter and
literal at every value that the encoding admits. The second word is its literal, when a field names one. -/
def Obligations.DecodeOfEncode : Prop :=
  ∀ (L : Lim) (i : Instr), i.wf L = true → ∃ w, (i.usesLit = false ∧ encode i = [w] ∧ ∀ n, decodeWord L w n = .ok i)
    ∨ ∃ lit, i.usesLit = true ∧ encode i = [w, lit] ∧ decodeWord L w lit = .ok i

/-- R36, R37, R40: what the decoder accepts is well formed, and encodes as the very words that it was read from: no bit of a word is left out. -/
def Obligations.EncodeOfDecode : Prop :=
  ∀ (L : Lim) (w n : W64) (i : Instr), decodeWord L w n = .ok i → i.wf L = true ∧ encode i = if i.usesLit then [w, n] else [w]

/-- Words of the spec's worked examples with the instructions that their field columns name: one or more of every CLASS. -/
def specWords : List (Nat × Instr) :=
  let c : Ctl := ⟨0#8, none, none⟩
  let on (n : BitVec 3) : Ctl := ⟨0#8, some n, none⟩
  let scalar : List (Nat × Instr) := [(0x000001056BDD2000, .sadd c (.s 5#6) (.special 0x0F#5) (.int 0x12#6))]
  let ints : List (Nat × Instr) := [(0x0001000800505000, .iadd c false .i32 (.v 8#8) (.v 1#8) (.s 5#6)),
    (0x0001000701406009, .iadd c true .i8 (.v 7#8) (.v 5#8) (.v 6#8)), (0x00010401005D1000, .isub c false .i32 (.v 1#8) (.v 1#8) (.int 0x11#6)),
    (0x00013C00689D2000, .shl c (.v 0#8) (.special 2#5) (.int 0x12#6)), (0x00016502005D0000, .icmp c .ne false (.s 2#6) (.v 1#8) (.int 0x10#6))]
  let floats : List (Nat × Instr) := [(0x0002180300402000, .fdiv c .rne (.v 3#8) (.v 1#8) (.v 2#8)),
    (0x00020805801FD000, .fmul c .rne (.v 5#8) (.latch 0#3) (.fp 13#4)), (0x00020200005F1000, .fadd c .rne .nwb (.v 1#8) (.fp 1#4)),
    (0x0202000380004000, .fadd ⟨2#8, none, none⟩ .rne (.v 3#8) (.latch 0#3) (.v 4#8)), (0x00024C0800803010, .fdot2 c .rne (.v 8#8) (.v 2#8) (.v 3#8) (.v 4#8)),
    (0x0093380601000000, .ftanh (on 1#3) (.v 6#8) (.v 4#8))]
  let mats : List (Nat × Instr) := [(0x0005018001 * 2 ^ 24 + 0x00574C, .mshape c false 0#4 (.v 4#8) (.v 5#8) (.int 0x13#6)),
    (0x00051D8260181001, .mmul c true false 2#4 0#4 1#4), (0x0005218460180000, .mmult c false false 4#4 0#4 0#4),
    (0x0006018360505000, .minv c 3#4 1#4 5#6), (0x0006218360505000, .minvT c 3#4 1#4 5#6)]
  let mems : List (Nat × Instr) := [(0x00870C0664403082, .lds (on 0#3) ⟨.f32, .none, .ring, 0x20#8⟩ (.v 6#8) (.k 1#3) (.v 3#8)),
    (0x000801074110A419, .bcp c false true 7#6 (.s 4#6) (.s 10#6) (.s 6#6)), (0x00081000419D1000, .bobj c (.s 6#6) (.int 0x11#6)),
    (0x00B82514419D0000, .bquery (on 3#3) (.s 20#6) (.obj (.s 6#6))), (0x00A9000A4100274C, .gath (on 2#3) .uns .f32 (.v 10#8) (.s 4#6) (.v 2#8))]
  let syncs : List (Nat × Instr) := [(0x009A000501007F08, .atom (on 1#3) .add false false ⟨.mem, .pkg, .rlx⟩ (some (.v 5#8)) (.v 4#8) (.v 7#8)),
    (0x00AA4003000040B8, .cas (on 2#3) false ⟨.core, .blk, .ar⟩ (.v 3#8) (.v 0#8) (.v 4#8)), (0x009A440300000088, .ldx (on 1#3) false ⟨.core, .blk, .rlx⟩ (.v 3#8) (.v 0#8)),
    (0x00AA4906000040A8, .stx (on 2#3) false ⟨.core, .blk, .rel⟩ (.s 6#6) (.v 0#8) (.v 4#8)), (0x000A4C00000002A0, .fence c .die .rel),
    (0x000A500000000000, .bar c), (0x000A600002400001, .nsend c .e (.v 9#8))]
  let ctls : List (Nat × Instr) := [(0x000B05FF003FC000, .bra c 0x7FFFC#19), (0x000B080040800010, .brc c 0#19 4#10 (.s 2#6)), (0x000B0C0042400000, .brx c (.s 9#6)),
    (0x000B100004004000, .call c 4#19 16#8), (0x000B140004000000, .ret c (.v 16#8)), (0x000B180000000000, .join c), (0x000B1C0000000000, .regroup c),
    (0x000B200000000000, .exit c), (0x000B240041008050, .spawn c (.s 4#6) 8#8 (.v 20#8)), (0x000B280040806020, .brcBlk c 6#19 8#10 (.s 2#6))]
  let duals : List (Nat × Instr) := [(0x000C000300000001, .dx .stop 3#4), (0x000C040600C00000, .tget c 0#2 (.v 6#8) (.v 3#8)),
    (0x000C080101400001, .tset c 1#2 (.v 1#8) (.v 5#8)), (0x000C0C0300003000, .tzero c 3#4 (.v 3#8)), (0x000C100100000000, .tseed c 0#2 (.v 1#8))]
  let systems : List (Nat × Instr) := [(0x008E010900008000, .srd (on 0#3) (.s 9#6) 8#10), (0x000E080000000000, .brk c), (0x000E0C0000007000, .trap c 7#8),
    (0x000E100040C00000, .tlbinvPage c (.s 3#6)), (0x000E140040D04000, .icinvRange c (.s 3#6) (.s 4#6))]
  scalar ++ ints ++ floats ++ mats ++ mems ++ syncs ++ ctls ++ duals ++ systems

/-- Words written out in the spec decode to the instructions that they stand for; a literal word belongs to the word before it; a point that no row
lists is refused; a header names its words, its CCLS and its CWAIT. A check of fixed words. -/
def Obligations.SpecWordsDecode : Prop :=
  (∀ p ∈ specWords, decodeTableWord 64 p.1 = some p.2)
  ∧ decodeTableWord 128 (0x0000010340DFF000 + 2 ^ 64 * 0x1000) = some (.sadd ⟨0#8, none, some 0x1000#64⟩ (.s 3#6) (.s 3#6) .lit)
  ∧ decodeTableWord 128 (0x00870C02001FF000 + 2 ^ 64 * 512) = some (.lds ⟨0#8, some 0#3, some 512#64⟩ ⟨.f32, .none, .base, 0#8⟩ (.v 2#8) (.v 0#8) .lit)
  ∧ decodeTableWord 64 0x000F000000000000 = none
  ∧ (hdrSig 0xD330100000000000#64, hdrN 0xD330100000000000#64, hdrCcls 0xD330100000000000#64, hdrYld 0xD330100000000000#64,
      hdrCwait 0xD330100000000000#64) = (0xD#4, 4, 1#3, true, 1#8)

/-- R33, R40, R38: a clause is checked in order: its SIG, its CCLS, the reserved bits of its header, and only then its words. A word that lists no row faults
as an illegal instruction at its index when the words before it pass. -/
def Obligations.ClausesAreCheckedInOrder : Prop :=
  ∀ (L : Lim) (h : W64) (ws : List W64),
    (hdrSig h ≠ 0xD#4 → checkClause L h ws = some ⟨.illegalClause, 0⟩)
    ∧ (hdrSig h = 0xD#4 → 5 ≤ (hdrCcls h).toNat → checkClause L h ws = some ⟨.illegalClause, 0⟩)
    ∧ (hdrSig h = 0xD#4 → (hdrCcls h).toNat < 5 → h.extractLsb' 0 44 ≠ 0#44 → checkClause L h ws = some ⟨.illegalEncoding, 0⟩)
    ∧ (hdrSig h = 0xD#4 → (hdrCcls h).toNat < 5 → h.extractLsb' 0 44 = 0#44 → ∀ w rest, ws = w :: rest →
      (raw (Fields.ofWord w) none = none → checkClause L h ws = some ⟨.illegalInstruction, 1⟩)
      ∧ ∀ i, raw (Fields.ofWord w) none = some i → placeOk (Fields.ofWord w).cls (Fields.ofWord w).op (hdrCcls h) = false →
          checkClause L h ws = some ⟨.illegalClause, 1⟩)

/-! ## One step, reset, invariants -/

/-- A step runs the decoded word (R31, R34, R59, R61; which word or event a step takes and how CLK moves is the model's order,
log entries 2 and 4): when no fatal error is raised and no outside event is due, the cohort in `cur` stands in a clause, its partition may
issue, and the word it stands at decodes to `i`, does not stall and is not held by the order of accesses (R256), the step is exec of `i`, with one
cycle more on CLK and the timing of R306, R308 and R400 behind it; a prefix looks at the word behind it. A word that the order holds waits,
blocked (R102). A step whose agenda names an event that is due, and no word stands behind a prefix, is exec of that event. -/
def aStepRunsTheDecodedWordRule : Prop :=
  (∀ (s : State) (x : Ctx) (cl : Clause) (i : Instr), s.pow.raised = none → s.agenda = [] → s.ctx = some x → s.mayIssue x = true → x.path.cl = some cl →
    cl.wi ≤ cl.words.length → decodeWord x.blk.lim (cl.words.getD (cl.wi - 1) 0#64) (cl.words.getD cl.wi 0#64) = .ok i → s.wordStalls x i = false →
    let held : Option Nat := (match i with
      | .dx _ _ => x.skipDx.path.word x.blk.lim
      | j => some j).bind (s.ordHeld x)
    (held = none → step s = onNext (fun u => { u with clk := u.clk + 1 }.tick) (exec i s))
    ∧ ∀ n, held = some n → step s = .next (s.stand x ⟨.order, false, s.clk, n, []⟩).tick)
  ∧ (∀ (s : State) (e : Instr) (rest : List (Nat × Instr)), s.pow.raised = none → s.dxPending = false → s.agenda = (0, e) :: rest → e.ctl = none →
    step s = onNext State.tick (exec e { s with agenda := rest }))
  ∧ (∀ (s : State) (d n : Nat), s.pow.raised = some (d, n) → step s = onNext State.tick (exec (.fatalStop d n) s))
  ∧ ∀ (s : State) (f : State → Out) (t : State) (rest : List (State → Out)), s.pow.raised = none → s.agenda = [] → s.issueNow = none →
    s.ordWait = none → s.events = f :: rest → f s = .next t → t ≠ s → step s = .next t.tick

/-- What the step adds behind a word or an event is timing: it moves nothing but the marks of R306 in grids, the time at which a cohort's next
clause became ready (R308) and the idle time of R400. -/
def timingMovesNothingElseRule : Prop :=
  ∀ (s : State), s.keeps s.tick (fun p => p = .pow ∨ (∃ g, p = .grid g) ∨ ∃ r, p = .coh r) ∧ { s.tick.pow with idle := none } = { s.pow with idle := none }
    ∧ ((AMap.keys s.grids).Nodup → ∀ g gr, s.grid g = some gr → ∃ h, s.tick.grid g = some h ∧ { h with since := none } = { gr with since := none })
    ∧ ∀ r c, s.coh r = some c → ∃ d, s.tick.coh r = some d ∧ { d with ready := c.ready } = c ∧ (c.ready.isSome = true → d.ready = c.ready)

/-- The state after reset, as the spec states it: the boot ROM waits for an image (R396, R397; the values that log entries 5 to 7
choose are not stated), PLIM is 2,800 W (R399), no feature is accepted or committed
(R386), no queue is bound and QTBASE is 0 (R376, R378), MCCTL.EN is 1 and every bank is empty (R370), the weights are 4 (R392), the breakpoints and
watchpoints are off (R339), scratchpad bits are empty (R108), no grid, block, copy or access exists. -/
def Obligations.ResetState : Prop :=
  let s := State.reset
  s.pow.on = true ∧ s.pow.bootst = 1 ∧ s.pow.ps2 = false ∧ s.pow.img = none ∧ s.pow.plim = 2800#32 ∧ s.pow.raised = none ∧ s.pow.fatal = false
  ∧ s.host.featacc = 0#256 ∧ s.host.featst = 0#64 ∧ s.host.featcom = 0#64 ∧ s.featOffered = 0#64 ∧ s.host.qtbase = 0#64 ∧ s.host.dbdrop = 0#64
  ∧ (∀ q, (s.queue q).bound = false ∧ (s.queue q).head = 0 ∧ (s.queue q).tail = 0 ∧ (s.queue q).state = 0 ∧ (s.queue q).err = 0)
  ∧ (∀ d, (∀ n, (s.die d).banks.get n Bank.zero = ⟨0#64, 0#64, 0#64, 1#64, 0#64⟩) ∧ (∀ n, (s.die d).weight n = 4) ∧ (s.die d).mbxst = 0#16
    ∧ (s.die d).fq = [] ∧ (s.die d).tq = [] ∧ (s.die d).caps = [] ∧ (s.die d).smpper = 0#32)
  ∧ (∀ c, (s.core c).fe = [] ∧ (s.core c).fenced = false ∧ (∀ n, (s.core c).bpc.get n 0#64 = 0#64 ∧ (s.core c).wpb.get n 0#64 = 0#64)
    ∧ ∀ p, ((s.core c).part p).stopped = false ∧ ((s.core c).part p).bphit = 0#16)
  ∧ s.grids = [] ∧ s.blocks = [] ∧ s.pend = [] ∧ s.copies = [] ∧ s.tlb = [] ∧ s.dbg.recarm = 0#64 ∧ s.dbg.recctl = 0#64

/-- Memory keeps its canonical form in every step: in main memory, in the scratchpads of cores, dies and handler blocks, in saved images and in the
images that Belfry keeps (log entry 5: the form is the model's). -/
def Obligations.EveryStepKeepsMemoryCanonical : Prop := ∀ (s t : State), s.memWf → step s = .next t → t.memWf

/-- The reset state has canonical memory. -/
def Obligations.ResetMemoryIsCanonical : Prop := State.reset.memWf

/-- The statements `aStepRunsTheDecodedWordRule`, `timingMovesNothingElseRule` together. -/
def Obligations.AStepRunsTheDecodedWord : Prop := aStepRunsTheDecodedWordRule ∧ timingMovesNothingElseRule
end

