-- ==== Sys2Proof/Laws/Map.lean ====
section
/-! SUPPORT. The laws of sparse maps, of lane masks and of memory: what a write leaves, and that memory keeps its canonical form. -/

namespace Sys2Proof.Machine

/-! ## Sparse maps -/

theorem AMap.find_set_same {α : Type} (m : AMap α) (i : Nat) (v : α) : (m.set i v).find i = some v := by
  induction m with
  | nil => simp [AMap.set, AMap.find]
  | cons p r ih =>
    obtain ⟨k, w⟩ := p
    simp only [AMap.set]
    split
    · simp [AMap.find]
    · split
      · simp [AMap.find]
      · rename_i h _
        simpa [AMap.find, h] using ih

theorem AMap.find_set_ne {α : Type} (m : AMap α) (i j : Nat) (v : α) (h : j ≠ i) : (m.set i v).find j = m.find j := by
  have h' : i ≠ j := fun e => h e.symm
  induction m with
  | nil => simp [AMap.set, AMap.find, h']
  | cons p r ih =>
    obtain ⟨k, w⟩ := p
    simp only [AMap.set]
    split
    · rename_i hk
      subst hk
      simp [AMap.find, h']
    · split
      · simp [AMap.find, h']
      · by_cases hj : k = j <;> simp [AMap.find, hj, ih]

/-- A written key reads as written, every other key as before. -/
theorem AMap.find_set {α : Type} (m : AMap α) (i j : Nat) (v : α) : (m.set i v).find j = if j = i then some v else m.find j := by
  split
  · rename_i h
    subst h
    exact AMap.find_set_same m j v
  · exact AMap.find_set_ne m i j v ‹_›

/-- The same for reads with a default. -/
theorem AMap.get_set {α : Type} (m : AMap α) (i j : Nat) (v d : α) : (m.set i v).get j d = if j = i then v else m.get j d := by
  simp only [AMap.get, AMap.find_set]
  split <;> rfl

@[simp] theorem AMap.get_set_same {α : Type} (m : AMap α) (i : Nat) (v d : α) : (m.set i v).get i d = v := by
  simp [AMap.get_set]

/-- A removed key is gone, every other key reads as before. -/
theorem AMap.find_del {α : Type} (m : AMap α) (i j : Nat) : (m.del i).find j = if j = i then none else m.find j := by
  induction m with
  | nil => simp [AMap.del, AMap.find]
  | cons p r ih =>
    obtain ⟨k, w⟩ := p
    simp only [AMap.del] at ih
    by_cases hk : k = i
    · subst hk
      simp only [AMap.del, List.filter_cons, bne_self_eq_false, Bool.false_eq_true, if_false, ih, AMap.find]
      by_cases hj : j = k
      · simp [hj]
      · simp [hj, Ne.symm hj]
    · have : (k != i) = true := by simpa using hk
      simp only [AMap.del, List.filter_cons, this, if_true, AMap.find, ih]
      by_cases hj : k = j
      · subst hj
        simp [hk]
      · simp [hj]

/-- A map over the values. -/
theorem AMap.find_map {α β : Type} (m : AMap α) (f : Nat → α → β) (j : Nat) :
    AMap.find (m.map (fun p => (p.1, f p.1 p.2))) j = (m.find j).map (f j) := by
  induction m with
  | nil => rfl
  | cons p r ih =>
    obtain ⟨k, w⟩ := p
    by_cases hk : k = j
    · subst hk
      simp [AMap.find]
    · simp [AMap.find, hk, ih]

/-! ## Lanes -/

theorem mem_lanesOf {m : W32} {l : Nat} (h : l ∈ lanesOf m) : m.getLsbD l = true := by
  simp only [lanesOf, List.mem_filter] at h
  exact h.2

theorem lanesOf_nodup (m : W32) : (lanesOf m).Nodup := List.Nodup.filter _ (by decide)

/-! ## Memory -/

/-- The first cell of a list at an address, when the cells at another address are dropped. -/
theorem find_filter_ne (m : Memory) (a x : Nat) (h : x ≠ a) :
    (m.filter (fun d => d.1 != a)).find? (fun c => c.1 == x) = m.find? (fun c => c.1 == x) := by
  induction m with
  | nil => rfl
  | cons c r ih =>
    by_cases hc : c.1 = a
    · have : ¬ c.1 = x := fun e => h (e ▸ hc)
      simp [hc, ih, Ne.symm h]
    · by_cases hx : c.1 = x <;> simp [hc, hx, ih, h]

/-- A cell put in place: that address reads as written, every other as before. -/
theorem Memory.read_ins (m : Memory) (a x : Nat) (b : Byte) : (m.ins a b).read x = if x = a then b else m.read x := by
  induction m with
  | nil =>
    by_cases hb : b = memDefault <;> by_cases hx : x = a <;> simp_all [Memory.ins, Memory.read, Ne.symm]
  | cons c r ih =>
    simp only [Memory.ins]
    split
    · rename_i hk
      by_cases hx : c.1 = x
      · have : x ≠ a := by omega
        simp [Memory.read, hx, this]
      · have e1 : Memory.read (c :: Memory.ins r a b) x = Memory.read (Memory.ins r a b) x := by simp [Memory.read, hx]
        have e2 : Memory.read (c :: r) x = Memory.read r x := by simp [Memory.read, hx]
        rw [e1, e2, ih]
    · by_cases hx : x = a
      · subst hx
        have hn : ((c :: r).filter (fun d => d.1 != x)).find? (fun c => c.1 == x) = none := by
          rw [List.find?_eq_none]
          intro d hd
          simpa using (List.mem_filter.1 hd).2
        by_cases hb : b = memDefault
        · simp only [hb, if_true, List.nil_append, Memory.read, hn]
          rfl
        · simp [hb, Memory.read]
      · have hf := find_filter_ne (c :: r) a x hx
        by_cases hb : b = memDefault
        · simp only [hb, if_true, List.nil_append, Memory.read, hf, hx, if_false]
        · simp only [hb, if_false, Memory.read, List.cons_append, List.nil_append, hx]
          rw [List.find?_cons_of_neg (by simpa using Ne.symm hx), hf]

/-- The cells of a memory with a cell put in place. -/
theorem Memory.mem_ins {m : Memory} {a : Nat} {b : Byte} {c : Host.Cell} (h : c ∈ m.ins a b) : c ∈ m ∨ (c = (a, b) ∧ b ≠ memDefault) := by
  induction m with
  | nil =>
    simp only [Memory.ins] at h
    split at h
    · simp at h
    · rename_i hb
      exact .inr ⟨by simpa using h, hb⟩
  | cons d r ih =>
    simp only [Memory.ins] at h
    split at h
    · rcases List.mem_cons.1 h with h | h
      · exact .inl (by simp [h])
      · exact (ih h).imp_left (List.mem_cons_of_mem _)
    · rcases List.mem_append.1 h with h | h
      · split at h
        · simp at h
        · rename_i hb
          exact .inr ⟨by simpa using h, hb⟩
      · exact .inl (List.mem_filter.1 h).1

/-- Every write of a byte keeps the canonical form. -/
theorem Memory.wf_ins {m : Memory} (h : m.wf) (a : Nat) (b : Byte) : (m.ins a b).wf := by
  obtain ⟨hp, hd⟩ := h
  refine ⟨?_, fun c hc => (Memory.mem_ins hc).elim (hd c) (fun e => e.1 ▸ e.2)⟩
  induction m with
  | nil =>
    simp only [Memory.ins]
    split <;> simp
  | cons c r ih =>
    have hp' := List.pairwise_cons.1 hp
    simp only [Memory.ins]
    split
    · rename_i hk
      rw [List.pairwise_cons]
      refine ⟨fun d hd' => ?_, ih hp'.2 (fun c hc => hd c (List.mem_cons_of_mem _ hc))⟩
      rcases Memory.mem_ins hd' with h | h
      · exact hp'.1 d h
      · rw [h.1]; exact hk
    · rename_i hk
      have hf := hp.filter (fun d => d.1 != a)
      split
      · exact hf
      · refine List.pairwise_cons.2 ⟨fun d hd' => ?_, hf⟩
        have hm := List.mem_filter.1 hd'
        have ha : d.1 ≠ a := by simpa using hm.2
        rcases List.mem_cons.1 hm.1 with h | h
        · subst h; simp only; omega
        · have := hp'.1 d h
          simp only
          omega

/-- Every write of bytes keeps the canonical form. -/
theorem Memory.wf_writeN {m : Memory} (h : m.wf) (a : Nat) (bs : List Byte) : (m.writeN a bs).wf := by
  induction bs generalizing m a with
  | nil => exact h
  | cons b r ih => exact ih (Memory.wf_ins h a b) (a + 1)

/-- Bytes written: the range reads as written, every other address as before. -/
theorem Memory.read_writeN (m : Memory) (a x : Nat) (bs : List Byte) :
    (m.writeN a bs).read x = if a ≤ x ∧ x < a + bs.length then bs.getD (x - a) memDefault else m.read x := by
  induction bs generalizing m a with
  | nil => simp [Memory.writeN]
  | cons b r ih =>
    rw [Memory.writeN, ih]
    simp only [Memory.write, Memory.read_ins m a x b, List.length_cons]
    by_cases h1 : x = a
    · subst h1
      simp
    · by_cases h2 : a ≤ x ∧ x < a + (r.length + 1)
      · have h3 : a + 1 ≤ x ∧ x < a + 1 + r.length := by omega
        rw [if_pos h3, if_pos h2]
        obtain ⟨n, hn⟩ : ∃ n, x - a = n + 1 := ⟨x - a - 1, by omega⟩
        have : x - (a + 1) = n := by omega
        rw [hn, this]
        simp
      · have h3 : ¬ (a + 1 ≤ x ∧ x < a + 1 + r.length) := by omega
        rw [if_neg h3, if_neg h2, if_neg h1]

/-- A part of a memory is in canonical form. -/
theorem Memory.wf_filter {m : Memory} (h : m.wf) (p : Host.Cell → Bool) : Memory.wf (m.filter p) :=
  ⟨h.1.filter p, fun c hc => h.2 c (List.mem_filter.1 hc).1⟩

/-- A memory moved up is in canonical form. -/
theorem Memory.wf_up {m : Memory} (h : m.wf) (n : Nat) : Memory.wf (m.map (fun c => (c.1 + n, c.2))) := by
  refine ⟨List.pairwise_map.2 (h.1.imp (fun {a b} hab => ?_)), fun c hc => ?_⟩
  · show a.1 + n < b.1 + n
    omega
  · obtain ⟨d, hd, rfl⟩ := List.mem_map.1 hc
    exact h.2 d hd

/-- A memory from `n` on moved down is in canonical form. -/
theorem Memory.wf_down {m : Memory} (h : m.wf) (n : Nat) (hn : ∀ c ∈ m, n ≤ c.1) : Memory.wf (m.map (fun c => (c.1 - n, c.2))) := by
  refine ⟨?_, fun c hc => ?_⟩
  · rw [List.pairwise_map]
    refine List.Pairwise.imp_of_mem (fun {a b} ha hb hab => ?_) h.1
    have := hn a ha
    have := hn b hb
    show a.1 - n < b.1 - n
    omega
  · obtain ⟨d, hd, rfl⟩ := List.mem_map.1 hc
    exact h.2 d hd

/-- Two memories, the second above the first, make one in canonical form. -/
theorem Memory.wf_append {m n : Memory} (hm : m.wf) (hn : n.wf) (h : ∀ c ∈ m, ∀ d ∈ n, c.1 < d.1) : Memory.wf (m ++ n) :=
  ⟨List.pairwise_append.2 ⟨hm.1, hn.1, h⟩, fun c hc => (List.mem_append.1 hc).elim (hm.2 c) (hn.2 c)⟩

end Sys2Proof.Machine
end

