-- ==== Sys2Proof/Laws/State.lean ====
section
/-! SUPPORT. One lemma per field and update of the state, and what the named reads see behind each named write. -/

namespace Sys2Proof.Machine

/-! ## Updates that name one field -/


@[simp] theorem State.setCore_clk (s : State) (n : Nat) (x : Core) : (s.setCore n x).clk = s.clk := rfl
@[simp] theorem State.setCore_agenda (s : State) (n : Nat) (x : Core) : (s.setCore n x).agenda = s.agenda := rfl
@[simp] theorem State.setCore_cur (s : State) (n : Nat) (x : Core) : (s.setCore n x).cur = s.cur := rfl
@[simp] theorem State.setCore_turn (s : State) (n : Nat) (x : Core) : (s.setCore n x).turn = s.turn := rfl
@[simp] theorem State.setCore_free (s : State) (n : Nat) (x : Core) : (s.setCore n x).free = s.free := rfl
@[simp] theorem State.setCore_nid (s : State) (n : Nat) (x : Core) : (s.setCore n x).nid = s.nid := rfl
@[simp] theorem State.setCore_errIn (s : State) (n : Nat) (x : Core) : (s.setCore n x).errIn = s.errIn := rfl
@[simp] theorem State.setCore_phys (s : State) (n : Nat) (x : Core) : (s.setCore n x).phys = s.phys := rfl
@[simp] theorem State.setCore_physPsn (s : State) (n : Nat) (x : Core) : (s.setCore n x).physPsn = s.physPsn := rfl
@[simp] theorem State.setCore_grids (s : State) (n : Nat) (x : Core) : (s.setCore n x).grids = s.grids := rfl
@[simp] theorem State.setCore_blocks (s : State) (n : Nat) (x : Core) : (s.setCore n x).blocks = s.blocks := rfl
@[simp] theorem State.setCore_pend (s : State) (n : Nat) (x : Core) : (s.setCore n x).pend = s.pend := rfl
@[simp] theorem State.setCore_copies (s : State) (n : Nat) (x : Core) : (s.setCore n x).copies = s.copies := rfl
@[simp] theorem State.setCore_dies (s : State) (n : Nat) (x : Core) : (s.setCore n x).dies = s.dies := rfl
@[simp] theorem State.setCore_tlb (s : State) (n : Nat) (x : Core) : (s.setCore n x).tlb = s.tlb := rfl
@[simp] theorem State.setCore_missq (s : State) (n : Nat) (x : Core) : (s.setCore n x).missq = s.missq := rfl
@[simp] theorem State.setCore_fab (s : State) (n : Nat) (x : Core) : (s.setCore n x).fab = s.fab := rfl
@[simp] theorem State.setCore_host (s : State) (n : Nat) (x : Core) : (s.setCore n x).host = s.host := rfl
@[simp] theorem State.setCore_dbg (s : State) (n : Nat) (x : Core) : (s.setCore n x).dbg = s.dbg := rfl
@[simp] theorem State.setCore_pow (s : State) (n : Nat) (x : Core) : (s.setCore n x).pow = s.pow := rfl

@[simp] theorem State.setDie_clk (s : State) (n : Nat) (x : Die) : (s.setDie n x).clk = s.clk := rfl
@[simp] theorem State.setDie_agenda (s : State) (n : Nat) (x : Die) : (s.setDie n x).agenda = s.agenda := rfl
@[simp] theorem State.setDie_cur (s : State) (n : Nat) (x : Die) : (s.setDie n x).cur = s.cur := rfl
@[simp] theorem State.setDie_turn (s : State) (n : Nat) (x : Die) : (s.setDie n x).turn = s.turn := rfl
@[simp] theorem State.setDie_free (s : State) (n : Nat) (x : Die) : (s.setDie n x).free = s.free := rfl
@[simp] theorem State.setDie_nid (s : State) (n : Nat) (x : Die) : (s.setDie n x).nid = s.nid := rfl
@[simp] theorem State.setDie_errIn (s : State) (n : Nat) (x : Die) : (s.setDie n x).errIn = s.errIn := rfl
@[simp] theorem State.setDie_phys (s : State) (n : Nat) (x : Die) : (s.setDie n x).phys = s.phys := rfl
@[simp] theorem State.setDie_physPsn (s : State) (n : Nat) (x : Die) : (s.setDie n x).physPsn = s.physPsn := rfl
@[simp] theorem State.setDie_grids (s : State) (n : Nat) (x : Die) : (s.setDie n x).grids = s.grids := rfl
@[simp] theorem State.setDie_blocks (s : State) (n : Nat) (x : Die) : (s.setDie n x).blocks = s.blocks := rfl
@[simp] theorem State.setDie_pend (s : State) (n : Nat) (x : Die) : (s.setDie n x).pend = s.pend := rfl
@[simp] theorem State.setDie_copies (s : State) (n : Nat) (x : Die) : (s.setDie n x).copies = s.copies := rfl
@[simp] theorem State.setDie_cores (s : State) (n : Nat) (x : Die) : (s.setDie n x).cores = s.cores := rfl
@[simp] theorem State.setDie_tlb (s : State) (n : Nat) (x : Die) : (s.setDie n x).tlb = s.tlb := rfl
@[simp] theorem State.setDie_missq (s : State) (n : Nat) (x : Die) : (s.setDie n x).missq = s.missq := rfl
@[simp] theorem State.setDie_fab (s : State) (n : Nat) (x : Die) : (s.setDie n x).fab = s.fab := rfl
@[simp] theorem State.setDie_host (s : State) (n : Nat) (x : Die) : (s.setDie n x).host = s.host := rfl
@[simp] theorem State.setDie_dbg (s : State) (n : Nat) (x : Die) : (s.setDie n x).dbg = s.dbg := rfl
@[simp] theorem State.setDie_pow (s : State) (n : Nat) (x : Die) : (s.setDie n x).pow = s.pow := rfl

@[simp] theorem State.setBlock_clk (s : State) (n : Nat) (x : Block) : (s.setBlock n x).clk = s.clk := rfl
@[simp] theorem State.setBlock_agenda (s : State) (n : Nat) (x : Block) : (s.setBlock n x).agenda = s.agenda := rfl
@[simp] theorem State.setBlock_cur (s : State) (n : Nat) (x : Block) : (s.setBlock n x).cur = s.cur := rfl
@[simp] theorem State.setBlock_turn (s : State) (n : Nat) (x : Block) : (s.setBlock n x).turn = s.turn := rfl
@[simp] theorem State.setBlock_free (s : State) (n : Nat) (x : Block) : (s.setBlock n x).free = s.free := rfl
@[simp] theorem State.setBlock_nid (s : State) (n : Nat) (x : Block) : (s.setBlock n x).nid = s.nid := rfl
@[simp] theorem State.setBlock_errIn (s : State) (n : Nat) (x : Block) : (s.setBlock n x).errIn = s.errIn := rfl
@[simp] theorem State.setBlock_phys (s : State) (n : Nat) (x : Block) : (s.setBlock n x).phys = s.phys := rfl
@[simp] theorem State.setBlock_physPsn (s : State) (n : Nat) (x : Block) : (s.setBlock n x).physPsn = s.physPsn := rfl
@[simp] theorem State.setBlock_grids (s : State) (n : Nat) (x : Block) : (s.setBlock n x).grids = s.grids := rfl
@[simp] theorem State.setBlock_pend (s : State) (n : Nat) (x : Block) : (s.setBlock n x).pend = s.pend := rfl
@[simp] theorem State.setBlock_copies (s : State) (n : Nat) (x : Block) : (s.setBlock n x).copies = s.copies := rfl
@[simp] theorem State.setBlock_cores (s : State) (n : Nat) (x : Block) : (s.setBlock n x).cores = s.cores := rfl
@[simp] theorem State.setBlock_dies (s : State) (n : Nat) (x : Block) : (s.setBlock n x).dies = s.dies := rfl
@[simp] theorem State.setBlock_tlb (s : State) (n : Nat) (x : Block) : (s.setBlock n x).tlb = s.tlb := rfl
@[simp] theorem State.setBlock_missq (s : State) (n : Nat) (x : Block) : (s.setBlock n x).missq = s.missq := rfl
@[simp] theorem State.setBlock_fab (s : State) (n : Nat) (x : Block) : (s.setBlock n x).fab = s.fab := rfl
@[simp] theorem State.setBlock_host (s : State) (n : Nat) (x : Block) : (s.setBlock n x).host = s.host := rfl
@[simp] theorem State.setBlock_dbg (s : State) (n : Nat) (x : Block) : (s.setBlock n x).dbg = s.dbg := rfl
@[simp] theorem State.setBlock_pow (s : State) (n : Nat) (x : Block) : (s.setBlock n x).pow = s.pow := rfl

@[simp] theorem State.setGrid_clk (s : State) (n : Nat) (x : Grid) : (s.setGrid n x).clk = s.clk := rfl
@[simp] theorem State.setGrid_agenda (s : State) (n : Nat) (x : Grid) : (s.setGrid n x).agenda = s.agenda := rfl
@[simp] theorem State.setGrid_cur (s : State) (n : Nat) (x : Grid) : (s.setGrid n x).cur = s.cur := rfl
@[simp] theorem State.setGrid_turn (s : State) (n : Nat) (x : Grid) : (s.setGrid n x).turn = s.turn := rfl
@[simp] theorem State.setGrid_free (s : State) (n : Nat) (x : Grid) : (s.setGrid n x).free = s.free := rfl
@[simp] theorem State.setGrid_nid (s : State) (n : Nat) (x : Grid) : (s.setGrid n x).nid = s.nid := rfl
@[simp] theorem State.setGrid_errIn (s : State) (n : Nat) (x : Grid) : (s.setGrid n x).errIn = s.errIn := rfl
@[simp] theorem State.setGrid_phys (s : State) (n : Nat) (x : Grid) : (s.setGrid n x).phys = s.phys := rfl
@[simp] theorem State.setGrid_physPsn (s : State) (n : Nat) (x : Grid) : (s.setGrid n x).physPsn = s.physPsn := rfl
@[simp] theorem State.setGrid_blocks (s : State) (n : Nat) (x : Grid) : (s.setGrid n x).blocks = s.blocks := rfl
@[simp] theorem State.setGrid_pend (s : State) (n : Nat) (x : Grid) : (s.setGrid n x).pend = s.pend := rfl
@[simp] theorem State.setGrid_copies (s : State) (n : Nat) (x : Grid) : (s.setGrid n x).copies = s.copies := rfl
@[simp] theorem State.setGrid_cores (s : State) (n : Nat) (x : Grid) : (s.setGrid n x).cores = s.cores := rfl
@[simp] theorem State.setGrid_dies (s : State) (n : Nat) (x : Grid) : (s.setGrid n x).dies = s.dies := rfl
@[simp] theorem State.setGrid_tlb (s : State) (n : Nat) (x : Grid) : (s.setGrid n x).tlb = s.tlb := rfl
@[simp] theorem State.setGrid_missq (s : State) (n : Nat) (x : Grid) : (s.setGrid n x).missq = s.missq := rfl
@[simp] theorem State.setGrid_fab (s : State) (n : Nat) (x : Grid) : (s.setGrid n x).fab = s.fab := rfl
@[simp] theorem State.setGrid_host (s : State) (n : Nat) (x : Grid) : (s.setGrid n x).host = s.host := rfl
@[simp] theorem State.setGrid_dbg (s : State) (n : Nat) (x : Grid) : (s.setGrid n x).dbg = s.dbg := rfl
@[simp] theorem State.setGrid_pow (s : State) (n : Nat) (x : Grid) : (s.setGrid n x).pow = s.pow := rfl

@[simp] theorem State.updCopy_clk (s : State) (n : Nat) (f : CopyT → CopyT) : (s.updCopy n f).clk = s.clk := rfl
@[simp] theorem State.updCopy_agenda (s : State) (n : Nat) (f : CopyT → CopyT) : (s.updCopy n f).agenda = s.agenda := rfl
@[simp] theorem State.updCopy_cur (s : State) (n : Nat) (f : CopyT → CopyT) : (s.updCopy n f).cur = s.cur := rfl
@[simp] theorem State.updCopy_turn (s : State) (n : Nat) (f : CopyT → CopyT) : (s.updCopy n f).turn = s.turn := rfl
@[simp] theorem State.updCopy_free (s : State) (n : Nat) (f : CopyT → CopyT) : (s.updCopy n f).free = s.free := rfl
@[simp] theorem State.updCopy_nid (s : State) (n : Nat) (f : CopyT → CopyT) : (s.updCopy n f).nid = s.nid := rfl
@[simp] theorem State.updCopy_errIn (s : State) (n : Nat) (f : CopyT → CopyT) : (s.updCopy n f).errIn = s.errIn := rfl
@[simp] theorem State.updCopy_phys (s : State) (n : Nat) (f : CopyT → CopyT) : (s.updCopy n f).phys = s.phys := rfl
@[simp] theorem State.updCopy_physPsn (s : State) (n : Nat) (f : CopyT → CopyT) : (s.updCopy n f).physPsn = s.physPsn := rfl
@[simp] theorem State.updCopy_grids (s : State) (n : Nat) (f : CopyT → CopyT) : (s.updCopy n f).grids = s.grids := rfl
@[simp] theorem State.updCopy_blocks (s : State) (n : Nat) (f : CopyT → CopyT) : (s.updCopy n f).blocks = s.blocks := rfl
@[simp] theorem State.updCopy_pend (s : State) (n : Nat) (f : CopyT → CopyT) : (s.updCopy n f).pend = s.pend := rfl
@[simp] theorem State.updCopy_cores (s : State) (n : Nat) (f : CopyT → CopyT) : (s.updCopy n f).cores = s.cores := rfl
@[simp] theorem State.updCopy_dies (s : State) (n : Nat) (f : CopyT → CopyT) : (s.updCopy n f).dies = s.dies := rfl
@[simp] theorem State.updCopy_tlb (s : State) (n : Nat) (f : CopyT → CopyT) : (s.updCopy n f).tlb = s.tlb := rfl
@[simp] theorem State.updCopy_missq (s : State) (n : Nat) (f : CopyT → CopyT) : (s.updCopy n f).missq = s.missq := rfl
@[simp] theorem State.updCopy_fab (s : State) (n : Nat) (f : CopyT → CopyT) : (s.updCopy n f).fab = s.fab := rfl
@[simp] theorem State.updCopy_host (s : State) (n : Nat) (f : CopyT → CopyT) : (s.updCopy n f).host = s.host := rfl
@[simp] theorem State.updCopy_dbg (s : State) (n : Nat) (f : CopyT → CopyT) : (s.updCopy n f).dbg = s.dbg := rfl
@[simp] theorem State.updCopy_pow (s : State) (n : Nat) (f : CopyT → CopyT) : (s.updCopy n f).pow = s.pow := rfl

@[simp] theorem State.clearResv_clk (s : State) (st : Store) (a n : Nat) : (s.clearResv st a n).clk = s.clk := rfl
@[simp] theorem State.clearResv_agenda (s : State) (st : Store) (a n : Nat) : (s.clearResv st a n).agenda = s.agenda := rfl
@[simp] theorem State.clearResv_cur (s : State) (st : Store) (a n : Nat) : (s.clearResv st a n).cur = s.cur := rfl
@[simp] theorem State.clearResv_turn (s : State) (st : Store) (a n : Nat) : (s.clearResv st a n).turn = s.turn := rfl
@[simp] theorem State.clearResv_free (s : State) (st : Store) (a n : Nat) : (s.clearResv st a n).free = s.free := rfl
@[simp] theorem State.clearResv_nid (s : State) (st : Store) (a n : Nat) : (s.clearResv st a n).nid = s.nid := rfl
@[simp] theorem State.clearResv_errIn (s : State) (st : Store) (a n : Nat) : (s.clearResv st a n).errIn = s.errIn := rfl
@[simp] theorem State.clearResv_phys (s : State) (st : Store) (a n : Nat) : (s.clearResv st a n).phys = s.phys := rfl
@[simp] theorem State.clearResv_physPsn (s : State) (st : Store) (a n : Nat) : (s.clearResv st a n).physPsn = s.physPsn := rfl
@[simp] theorem State.clearResv_grids (s : State) (st : Store) (a n : Nat) : (s.clearResv st a n).grids = s.grids := rfl
@[simp] theorem State.clearResv_pend (s : State) (st : Store) (a n : Nat) : (s.clearResv st a n).pend = s.pend := rfl
@[simp] theorem State.clearResv_copies (s : State) (st : Store) (a n : Nat) : (s.clearResv st a n).copies = s.copies := rfl
@[simp] theorem State.clearResv_cores (s : State) (st : Store) (a n : Nat) : (s.clearResv st a n).cores = s.cores := rfl
@[simp] theorem State.clearResv_dies (s : State) (st : Store) (a n : Nat) : (s.clearResv st a n).dies = s.dies := rfl
@[simp] theorem State.clearResv_tlb (s : State) (st : Store) (a n : Nat) : (s.clearResv st a n).tlb = s.tlb := rfl
@[simp] theorem State.clearResv_missq (s : State) (st : Store) (a n : Nat) : (s.clearResv st a n).missq = s.missq := rfl
@[simp] theorem State.clearResv_fab (s : State) (st : Store) (a n : Nat) : (s.clearResv st a n).fab = s.fab := rfl
@[simp] theorem State.clearResv_host (s : State) (st : Store) (a n : Nat) : (s.clearResv st a n).host = s.host := rfl
@[simp] theorem State.clearResv_dbg (s : State) (st : Store) (a n : Nat) : (s.clearResv st a n).dbg = s.dbg := rfl
@[simp] theorem State.clearResv_pow (s : State) (st : Store) (a n : Nat) : (s.clearResv st a n).pow = s.pow := rfl

@[simp] theorem State.setPend_clk (s : State) (p : Pend) : (s.setPend p).clk = s.clk := rfl
@[simp] theorem State.setPend_agenda (s : State) (p : Pend) : (s.setPend p).agenda = s.agenda := rfl
@[simp] theorem State.setPend_cur (s : State) (p : Pend) : (s.setPend p).cur = s.cur := rfl
@[simp] theorem State.setPend_turn (s : State) (p : Pend) : (s.setPend p).turn = s.turn := rfl
@[simp] theorem State.setPend_free (s : State) (p : Pend) : (s.setPend p).free = s.free := rfl
@[simp] theorem State.setPend_nid (s : State) (p : Pend) : (s.setPend p).nid = s.nid := rfl
@[simp] theorem State.setPend_errIn (s : State) (p : Pend) : (s.setPend p).errIn = s.errIn := rfl
@[simp] theorem State.setPend_phys (s : State) (p : Pend) : (s.setPend p).phys = s.phys := rfl
@[simp] theorem State.setPend_physPsn (s : State) (p : Pend) : (s.setPend p).physPsn = s.physPsn := rfl
@[simp] theorem State.setPend_grids (s : State) (p : Pend) : (s.setPend p).grids = s.grids := rfl
@[simp] theorem State.setPend_blocks (s : State) (p : Pend) : (s.setPend p).blocks = s.blocks := rfl
@[simp] theorem State.setPend_copies (s : State) (p : Pend) : (s.setPend p).copies = s.copies := rfl
@[simp] theorem State.setPend_cores (s : State) (p : Pend) : (s.setPend p).cores = s.cores := rfl
@[simp] theorem State.setPend_dies (s : State) (p : Pend) : (s.setPend p).dies = s.dies := rfl
@[simp] theorem State.setPend_tlb (s : State) (p : Pend) : (s.setPend p).tlb = s.tlb := rfl
@[simp] theorem State.setPend_missq (s : State) (p : Pend) : (s.setPend p).missq = s.missq := rfl
@[simp] theorem State.setPend_fab (s : State) (p : Pend) : (s.setPend p).fab = s.fab := rfl
@[simp] theorem State.setPend_host (s : State) (p : Pend) : (s.setPend p).host = s.host := rfl
@[simp] theorem State.setPend_dbg (s : State) (p : Pend) : (s.setPend p).dbg = s.dbg := rfl
@[simp] theorem State.setPend_pow (s : State) (p : Pend) : (s.setPend p).pow = s.pow := rfl

@[simp] theorem State.delPend_clk (s : State) (n : Nat) : (s.delPend n).clk = s.clk := rfl
@[simp] theorem State.delPend_agenda (s : State) (n : Nat) : (s.delPend n).agenda = s.agenda := rfl
@[simp] theorem State.delPend_cur (s : State) (n : Nat) : (s.delPend n).cur = s.cur := rfl
@[simp] theorem State.delPend_turn (s : State) (n : Nat) : (s.delPend n).turn = s.turn := rfl
@[simp] theorem State.delPend_free (s : State) (n : Nat) : (s.delPend n).free = s.free := rfl
@[simp] theorem State.delPend_nid (s : State) (n : Nat) : (s.delPend n).nid = s.nid := rfl
@[simp] theorem State.delPend_errIn (s : State) (n : Nat) : (s.delPend n).errIn = s.errIn := rfl
@[simp] theorem State.delPend_phys (s : State) (n : Nat) : (s.delPend n).phys = s.phys := rfl
@[simp] theorem State.delPend_physPsn (s : State) (n : Nat) : (s.delPend n).physPsn = s.physPsn := rfl
@[simp] theorem State.delPend_grids (s : State) (n : Nat) : (s.delPend n).grids = s.grids := rfl
@[simp] theorem State.delPend_blocks (s : State) (n : Nat) : (s.delPend n).blocks = s.blocks := rfl
@[simp] theorem State.delPend_copies (s : State) (n : Nat) : (s.delPend n).copies = s.copies := rfl
@[simp] theorem State.delPend_cores (s : State) (n : Nat) : (s.delPend n).cores = s.cores := rfl
@[simp] theorem State.delPend_dies (s : State) (n : Nat) : (s.delPend n).dies = s.dies := rfl
@[simp] theorem State.delPend_tlb (s : State) (n : Nat) : (s.delPend n).tlb = s.tlb := rfl
@[simp] theorem State.delPend_missq (s : State) (n : Nat) : (s.delPend n).missq = s.missq := rfl
@[simp] theorem State.delPend_fab (s : State) (n : Nat) : (s.delPend n).fab = s.fab := rfl
@[simp] theorem State.delPend_host (s : State) (n : Nat) : (s.delPend n).host = s.host := rfl
@[simp] theorem State.delPend_dbg (s : State) (n : Nat) : (s.delPend n).dbg = s.dbg := rfl
@[simp] theorem State.delPend_pow (s : State) (n : Nat) : (s.delPend n).pow = s.pow := rfl

/-! ## Updates of a cohort -/

@[simp] theorem State.setCoh_clk (s : State) (r : CohRef) (c : Cohort) : (s.setCoh r c).clk = s.clk := by
  simp only [State.setCoh]
  split <;> rfl
@[simp] theorem State.updCoh_clk (s : State) (r : CohRef) (g : Cohort → Cohort) : (s.updCoh r g).clk = s.clk := by
  simp only [State.updCoh]
  split <;> simp
@[simp] theorem State.setCoh_agenda (s : State) (r : CohRef) (c : Cohort) : (s.setCoh r c).agenda = s.agenda := by
  simp only [State.setCoh]
  split <;> rfl
@[simp] theorem State.updCoh_agenda (s : State) (r : CohRef) (g : Cohort → Cohort) : (s.updCoh r g).agenda = s.agenda := by
  simp only [State.updCoh]
  split <;> simp
@[simp] theorem State.setCoh_cur (s : State) (r : CohRef) (c : Cohort) : (s.setCoh r c).cur = s.cur := by
  simp only [State.setCoh]
  split <;> rfl
@[simp] theorem State.updCoh_cur (s : State) (r : CohRef) (g : Cohort → Cohort) : (s.updCoh r g).cur = s.cur := by
  simp only [State.updCoh]
  split <;> simp
@[simp] theorem State.setCoh_turn (s : State) (r : CohRef) (c : Cohort) : (s.setCoh r c).turn = s.turn := by
  simp only [State.setCoh]
  split <;> rfl
@[simp] theorem State.updCoh_turn (s : State) (r : CohRef) (g : Cohort → Cohort) : (s.updCoh r g).turn = s.turn := by
  simp only [State.updCoh]
  split <;> simp
@[simp] theorem State.setCoh_free (s : State) (r : CohRef) (c : Cohort) : (s.setCoh r c).free = s.free := by
  simp only [State.setCoh]
  split <;> rfl
@[simp] theorem State.updCoh_free (s : State) (r : CohRef) (g : Cohort → Cohort) : (s.updCoh r g).free = s.free := by
  simp only [State.updCoh]
  split <;> simp
@[simp] theorem State.setCoh_nid (s : State) (r : CohRef) (c : Cohort) : (s.setCoh r c).nid = s.nid := by
  simp only [State.setCoh]
  split <;> rfl
@[simp] theorem State.updCoh_nid (s : State) (r : CohRef) (g : Cohort → Cohort) : (s.updCoh r g).nid = s.nid := by
  simp only [State.updCoh]
  split <;> simp
@[simp] theorem State.setCoh_errIn (s : State) (r : CohRef) (c : Cohort) : (s.setCoh r c).errIn = s.errIn := by
  simp only [State.setCoh]
  split <;> rfl
@[simp] theorem State.updCoh_errIn (s : State) (r : CohRef) (g : Cohort → Cohort) : (s.updCoh r g).errIn = s.errIn := by
  simp only [State.updCoh]
  split <;> simp
@[simp] theorem State.setCoh_phys (s : State) (r : CohRef) (c : Cohort) : (s.setCoh r c).phys = s.phys := by
  simp only [State.setCoh]
  split <;> rfl
@[simp] theorem State.updCoh_phys (s : State) (r : CohRef) (g : Cohort → Cohort) : (s.updCoh r g).phys = s.phys := by
  simp only [State.updCoh]
  split <;> simp
@[simp] theorem State.setCoh_physPsn (s : State) (r : CohRef) (c : Cohort) : (s.setCoh r c).physPsn = s.physPsn := by
  simp only [State.setCoh]
  split <;> rfl
@[simp] theorem State.updCoh_physPsn (s : State) (r : CohRef) (g : Cohort → Cohort) : (s.updCoh r g).physPsn = s.physPsn := by
  simp only [State.updCoh]
  split <;> simp
@[simp] theorem State.setCoh_grids (s : State) (r : CohRef) (c : Cohort) : (s.setCoh r c).grids = s.grids := by
  simp only [State.setCoh]
  split <;> rfl
@[simp] theorem State.updCoh_grids (s : State) (r : CohRef) (g : Cohort → Cohort) : (s.updCoh r g).grids = s.grids := by
  simp only [State.updCoh]
  split <;> simp
@[simp] theorem State.setCoh_pend (s : State) (r : CohRef) (c : Cohort) : (s.setCoh r c).pend = s.pend := by
  simp only [State.setCoh]
  split <;> rfl
@[simp] theorem State.updCoh_pend (s : State) (r : CohRef) (g : Cohort → Cohort) : (s.updCoh r g).pend = s.pend := by
  simp only [State.updCoh]
  split <;> simp
@[simp] theorem State.setCoh_copies (s : State) (r : CohRef) (c : Cohort) : (s.setCoh r c).copies = s.copies := by
  simp only [State.setCoh]
  split <;> rfl
@[simp] theorem State.updCoh_copies (s : State) (r : CohRef) (g : Cohort → Cohort) : (s.updCoh r g).copies = s.copies := by
  simp only [State.updCoh]
  split <;> simp
@[simp] theorem State.setCoh_cores (s : State) (r : CohRef) (c : Cohort) : (s.setCoh r c).cores = s.cores := by
  simp only [State.setCoh]
  split <;> rfl
@[simp] theorem State.updCoh_cores (s : State) (r : CohRef) (g : Cohort → Cohort) : (s.updCoh r g).cores = s.cores := by
  simp only [State.updCoh]
  split <;> simp
@[simp] theorem State.setCoh_dies (s : State) (r : CohRef) (c : Cohort) : (s.setCoh r c).dies = s.dies := by
  simp only [State.setCoh]
  split <;> rfl
@[simp] theorem State.updCoh_dies (s : State) (r : CohRef) (g : Cohort → Cohort) : (s.updCoh r g).dies = s.dies := by
  simp only [State.updCoh]
  split <;> simp
@[simp] theorem State.setCoh_tlb (s : State) (r : CohRef) (c : Cohort) : (s.setCoh r c).tlb = s.tlb := by
  simp only [State.setCoh]
  split <;> rfl
@[simp] theorem State.updCoh_tlb (s : State) (r : CohRef) (g : Cohort → Cohort) : (s.updCoh r g).tlb = s.tlb := by
  simp only [State.updCoh]
  split <;> simp
@[simp] theorem State.setCoh_missq (s : State) (r : CohRef) (c : Cohort) : (s.setCoh r c).missq = s.missq := by
  simp only [State.setCoh]
  split <;> rfl
@[simp] theorem State.updCoh_missq (s : State) (r : CohRef) (g : Cohort → Cohort) : (s.updCoh r g).missq = s.missq := by
  simp only [State.updCoh]
  split <;> simp
@[simp] theorem State.setCoh_fab (s : State) (r : CohRef) (c : Cohort) : (s.setCoh r c).fab = s.fab := by
  simp only [State.setCoh]
  split <;> rfl
@[simp] theorem State.updCoh_fab (s : State) (r : CohRef) (g : Cohort → Cohort) : (s.updCoh r g).fab = s.fab := by
  simp only [State.updCoh]
  split <;> simp
@[simp] theorem State.setCoh_host (s : State) (r : CohRef) (c : Cohort) : (s.setCoh r c).host = s.host := by
  simp only [State.setCoh]
  split <;> rfl
@[simp] theorem State.updCoh_host (s : State) (r : CohRef) (g : Cohort → Cohort) : (s.updCoh r g).host = s.host := by
  simp only [State.updCoh]
  split <;> simp
@[simp] theorem State.setCoh_dbg (s : State) (r : CohRef) (c : Cohort) : (s.setCoh r c).dbg = s.dbg := by
  simp only [State.setCoh]
  split <;> rfl
@[simp] theorem State.updCoh_dbg (s : State) (r : CohRef) (g : Cohort → Cohort) : (s.updCoh r g).dbg = s.dbg := by
  simp only [State.updCoh]
  split <;> simp
@[simp] theorem State.setCoh_pow (s : State) (r : CohRef) (c : Cohort) : (s.setCoh r c).pow = s.pow := by
  simp only [State.setCoh]
  split <;> rfl
@[simp] theorem State.updCoh_pow (s : State) (r : CohRef) (g : Cohort → Cohort) : (s.updCoh r g).pow = s.pow := by
  simp only [State.updCoh]
  split <;> simp

/-! ## Reads behind writes -/

theorem State.core_setCore (s : State) (n k : Nat) (x : Core) : (s.setCore n x).core k = if k = n then x else s.core k := by
  simp [State.setCore, State.core, AMap.get_set]
@[simp] theorem State.core_setCore_same (s : State) (n : Nat) (x : Core) : (s.setCore n x).core n = x := by simp [State.core_setCore]
theorem State.die_setDie (s : State) (n k : Nat) (x : Die) : (s.setDie n x).die k = if k = n then x else s.die k := by
  simp [State.setDie, State.die, AMap.get_set]
@[simp] theorem State.die_setDie_same (s : State) (n : Nat) (x : Die) : (s.setDie n x).die n = x := by simp [State.die_setDie]
theorem State.block_setBlock (s : State) (n k : Nat) (x : Block) : (s.setBlock n x).block k = if k = n then some x else s.block k := by
  simp [State.setBlock, State.block, AMap.find_set]
@[simp] theorem State.block_setBlock_same (s : State) (n : Nat) (x : Block) : (s.setBlock n x).block n = some x := by
  simp [State.block_setBlock]
theorem State.grid_setGrid (s : State) (n k : Nat) (x : Grid) : (s.setGrid n x).grid k = if k = n then some x else s.grid k := by
  simp [State.setGrid, State.grid, AMap.find_set]
@[simp] theorem State.grid_setGrid_same (s : State) (n : Nat) (x : Grid) : (s.setGrid n x).grid n = some x := by
  simp [State.grid_setGrid]
theorem Core.part_setPart (c : Core) (p q : Nat) (x : Part) : (c.setPart p x).part q = if q = p then x else c.part q := by
  simp [Core.setPart, Core.part, AMap.get_set]
theorem Block.coh_setCoh (b : Block) (i j : Nat) (c : Cohort) : (b.setCoh i c).coh j = if j = i then some c else b.coh j := by
  simp [Block.setCoh, Block.coh, AMap.find_set]
theorem Cohort.sreg_setS (c : Cohort) (i j : Nat) (x : W64) : (c.setS i x).sreg j = if j = i then x else c.sreg j := by
  simp [Cohort.setS, Cohort.sreg, AMap.get_set]
theorem Cohort.kreg_setK (c : Cohort) (i j : Nat) (x : W64) : (c.setK i x).kreg j = if j = i then x else c.kreg j := by
  simp [Cohort.setK, Cohort.kreg, AMap.get_set]
theorem Cohort.ctr_setCtr (c : Cohort) (i j : Nat) (x : BitVec 6) : (c.setCtr i x).ctr j = if j = i then x else c.ctr j := by
  simp [Cohort.setCtr, Cohort.ctr, AMap.get_set]
theorem Block.breg_setB (b : Block) (i j : Nat) (x : W32) : (b.setB i x).breg j = if j = i then x else b.breg j := by
  simp [Block.setB, Block.breg, AMap.get_set]
theorem Thread.vreg_setV (t : Thread) (i j : Nat) (x : VReg) : (t.setV i x).vreg j = if j = i then x else t.vreg j := by
  simp [Thread.setV, Thread.vreg, AMap.get_set]
theorem Thread.mreg_setM (t : Thread) (i j : Nat) (x : MReg) : (t.setM i x).mreg j = if j = i then x else t.mreg j := by
  simp [Thread.setM, Thread.mreg, AMap.get_set]
theorem Cohort.thread_setThread (c : Cohort) (i j : Nat) (t : Thread) : (c.setThread i t).thread j = if j = i then some t else c.thread j := by
  simp [Cohort.setThread, Cohort.thread, AMap.find_set]

/-- A thread changed: its lane reads as changed, every other as before. -/
theorem Cohort.thread_updThread (c : Cohort) (i j : Nat) (f : Thread → Thread) :
    (c.updThread i f).thread j = if j = i then (c.thread i).map f else c.thread j := by
  simp only [Cohort.updThread]
  split
  · rename_i t h
    simp [Cohort.thread_setThread, h]
  · rename_i h
    by_cases hj : j = i
    · subst hj; simp [h]
    · simp [hj]

theorem State.block_setCoh (s : State) (r : CohRef) (c : Cohort) (k : Nat) :
    (s.setCoh r c).block k = if k = r.blk then (s.block r.blk).map (fun b => b.setCoh r.coh c) else s.block k := by
  simp only [State.setCoh]
  split
  · rename_i b h
    simp [State.block_setBlock, h]
  · rename_i h
    by_cases hk : k = r.blk
    · subst hk; simp [h]
    · simp [hk]

/-- A cohort changed: it reads as changed, every other as before. -/
theorem State.coh_updCoh (s : State) (r q : CohRef) (f : Cohort → Cohort) :
    (s.updCoh r f).coh q = if q = r then (s.coh r).map f else s.coh q := by
  simp only [State.updCoh]
  split
  · rename_i c h
    have hb : ∃ b, s.block r.blk = some b := by
      simp only [State.coh] at h
      split at h
      · exact ⟨_, ‹_›⟩
      · simp at h
    obtain ⟨b, hb⟩ := hb
    obtain ⟨rb, rc⟩ := r
    obtain ⟨qb, qc⟩ := q
    simp only [CohRef.mk.injEq] at *
    by_cases h1 : qb = rb
    · subst h1
      simp only [State.coh, State.block_setCoh, hb, if_true, Option.map_some, Block.coh_setCoh, true_and]
      by_cases h2 : qc = rc
      · subst h2
        simp only [State.coh, hb] at h
        simp [h]
      · simp [h2]
    · simp [State.coh, State.block_setCoh, h1]
  · rename_i h
    by_cases hq : q = r
    · subst hq; simp [h]
    · simp [hq]

/-- A block with a cohort changed keeps all else of it. -/
theorem State.block_updCoh (s : State) (r : CohRef) (f : Cohort → Cohort) (k : Nat) :
    ∃ g : Block → AMap Cohort, (s.updCoh r f).block k = (s.block k).map (fun b => { b with cohs := g b }) := by
  simp only [State.updCoh]
  split
  · rename_i c h
    by_cases hk : k = r.blk
    · subst hk
      exact ⟨fun b => b.cohs.set r.coh (f c), by simp [State.block_setCoh, Block.setCoh]⟩
    · exact ⟨fun b => b.cohs, by simp [State.block_setCoh, hk]⟩
  · exact ⟨fun b => b.cohs, by simp⟩

/-! ## The cohort behind an issued word -/

@[simp] theorem Cohort.path_setPath (c : Cohort) (i j : Bool) (p : Option Path) :
    (c.setPath i p).path j = if j = i then p else c.path j := by
  cases i <;> cases j <;> simp [Cohort.setPath, Cohort.path]

@[simp] theorem Cohort.setPath_lanes (c : Cohort) (i : Bool) (p : Option Path) : (c.setPath i p).lanes = c.lanes := by cases i <;> rfl
@[simp] theorem Cohort.setPath_selB (c : Cohort) (i : Bool) (p : Option Path) : (c.setPath i p).selB = c.selB := by cases i <;> rfl
@[simp] theorem Cohort.setPath_mid (c : Cohort) (i : Bool) (p : Option Path) : (c.setPath i p).mid = c.mid := by cases i <;> rfl
@[simp] theorem Cohort.setPath_spill (c : Cohort) (i : Bool) (p : Option Path) : (c.setPath i p).spill = c.spill := by cases i <;> rfl
@[simp] theorem Cohort.setPath_s (c : Cohort) (i : Bool) (p : Option Path) : (c.setPath i p).s = c.s := by cases i <;> rfl
@[simp] theorem Cohort.setPath_k (c : Cohort) (i : Bool) (p : Option Path) : (c.setPath i p).k = c.k := by cases i <;> rfl
@[simp] theorem Cohort.setPath_d (c : Cohort) (i : Bool) (p : Option Path) : (c.setPath i p).d = c.d := by cases i <;> rfl
@[simp] theorem Cohort.setPath_latch (c : Cohort) (i : Bool) (p : Option Path) : (c.setPath i p).latch = c.latch := by cases i <;> rfl
@[simp] theorem Cohort.setPath_flane (c : Cohort) (i : Bool) (p : Option Path) : (c.setPath i p).flane = c.flane := by cases i <;> rfl
@[simp] theorem Cohort.setPath_pmask (c : Cohort) (i : Bool) (p : Option Path) : (c.setPath i p).pmask = c.pmask := by cases i <;> rfl
@[simp] theorem Cohort.setPath_pidx (c : Cohort) (i : Bool) (p : Option Path) : (c.setPath i p).pidx = c.pidx := by cases i <;> rfl
@[simp] theorem Cohort.setPath_frz (c : Cohort) (i : Bool) (p : Option Path) : (c.setPath i p).frz = c.frz := by cases i <;> rfl
@[simp] theorem Cohort.setPath_rpm (c : Cohort) (i : Bool) (p : Option Path) : (c.setPath i p).rpm = c.rpm := by cases i <;> rfl
@[simp] theorem Cohort.setPath_rinc (c : Cohort) (i : Bool) (p : Option Path) : (c.setPath i p).rinc = c.rinc := by cases i <;> rfl
@[simp] theorem Cohort.setPath_ncls (c : Cohort) (i : Bool) (p : Option Path) : (c.setPath i p).ncls = c.ncls := by cases i <;> rfl
@[simp] theorem Cohort.setPath_fair (c : Cohort) (i : Bool) (p : Option Path) : (c.setPath i p).fair = c.fair := by cases i <;> rfl
@[simp] theorem Cohort.setPath_openg (c : Cohort) (i : Bool) (p : Option Path) : (c.setPath i p).openg = c.openg := by cases i <;> rfl
@[simp] theorem Cohort.setPath_batches (c : Cohort) (i : Bool) (p : Option Path) : (c.setPath i p).batches = c.batches := by cases i <;> rfl
@[simp] theorem Cohort.setPath_polls (c : Cohort) (i : Bool) (p : Option Path) : (c.setPath i p).polls = c.polls := by cases i <;> rfl
@[simp] theorem Cohort.setPath_step (c : Cohort) (i : Bool) (p : Option Path) : (c.setPath i p).step = c.step := by cases i <;> rfl
@[simp] theorem Cohort.setPath_psamp (c : Cohort) (i : Bool) (p : Option Path) : (c.setPath i p).psamp = c.psamp := by cases i <;> rfl
@[simp] theorem Cohort.setPath_part (c : Cohort) (i : Bool) (p : Option Path) : (c.setPath i p).part = c.part := by cases i <;> rfl
@[simp] theorem Cohort.setPath_cslot (c : Cohort) (i : Bool) (p : Option Path) : (c.setPath i p).cslot = c.cslot := by cases i <;> rfl
@[simp] theorem Cohort.setPath_ready (c : Cohort) (i : Bool) (p : Option Path) : (c.setPath i p).ready = c.ready := by cases i <;> rfl
@[simp] theorem Cohort.setPath_urgent (c : Cohort) (i : Bool) (p : Option Path) : (c.setPath i p).urgent = c.urgent := by cases i <;> rfl
@[simp] theorem Cohort.setPath_ypause (c : Cohort) (i : Bool) (p : Option Path) : (c.setPath i p).ypause = c.ypause := by cases i <;> rfl
@[simp] theorem Cohort.setPath_bpskip (c : Cohort) (i : Bool) (p : Option Path) : (c.setPath i p).bpskip = c.bpskip := by cases i <;> rfl
@[simp] theorem Cohort.setPath_retired (c : Cohort) (i : Bool) (p : Option Path) : (c.setPath i p).retired = c.retired := by cases i <;> rfl

end Sys2Proof.Machine
end

