-- ==== Sys2Proof/Laws/Word.lean ====
section
/-! SUPPORT. Frames: what each shared update leaves as it was, and what issuing a word does (`word`, `scaWord`). -/

namespace Sys2Proof.Machine

/-! ## The frame relation -/

theorem State.same_refl (s : State) (p : Place) : s.same s p := by cases p <;> simp [State.same]

theorem State.same_trans {s t u : State} {p : Place} (h : s.same t p) (k : t.same u p) : s.same u p := by
  cases p <;> simp_all [State.same]

theorem State.keeps_refl (s : State) (w : Place → Prop) : s.keeps s w := fun p _ => s.same_refl p

theorem State.keeps_trans {s t u : State} {w : Place → Prop} (h : s.keeps t w) (k : t.keeps u w) : s.keeps u w :=
  fun p hp => State.same_trans (h p hp) (k p hp)

theorem State.keeps_mono {s t : State} {v w : Place → Prop} (h : s.keeps t v) (hw : ∀ p, v p → w p) : s.keeps t w :=
  fun p hp => h p (fun hv => hp (hw p hv))

/-! ## Updates of a cohort -/

/-- Two cohorts hold the same at a place of cohort `r`. -/
def cohSame (r : CohRef) (c c' : Cohort) : Place → Prop
  | .s q n => q = r → c'.sreg n = c.sreg n
  | .k q n => q = r → c'.kreg n = c.kreg n
  | .ctr q n => q = r → c'.ctr n = c.ctr n
  | .v q l n => q = r → ((c'.thread l).map (·.vreg n)).getD VReg.zero = ((c.thread l).map (·.vreg n)).getD VReg.zero
  | .m q l n => q = r → ((c'.thread l).map (·.mreg n)).getD MReg.empty = ((c.thread l).map (·.mreg n)).getD MReg.empty
  | .seed q l => q = r → (c'.thread l).map (·.seed) = (c.thread l).map (·.seed)
  | .resv q l => q = r → (c'.thread l).map (·.resv) = (c.thread l).map (·.resv)
  | .ident q l => q = r → (c'.thread l).map (fun h => (h.t, h.tid, h.bid)) = (c.thread l).map (fun h => (h.t, h.tid, h.bid))
  | .exc q => q = r → (c'.flane, c'.pmask, c'.pidx) = (c.flane, c.pmask, c.pidx)
  | .frz q => q = r → c'.frz = c.frz
  | .slot q i => q = r → c'.path i = c.path i
  | .spill q => q = r → c'.spill = c.spill
  | .sel q => q = r → (c'.selB, c'.mid) = (c.selB, c.mid)
  | .latch q => q = r → c'.latch = c.latch
  | .ncls q => q = r → c'.ncls = c.ncls
  | .cnt q => q = r → c'.counts = c.counts
  | .coh q => q = r → c'.bare = c.bare
  | _ => True

/-- A cohort changed: the state keeps what the cohort keeps, and everything outside it. -/
theorem State.keeps_updCoh {s : State} {r : CohRef} {f : Cohort → Cohort} {w : Place → Prop}
    (h : ∀ c, s.coh r = some c → ∀ p, ¬ w p → cohSame r c (f c) p) : s.keeps (s.updCoh r f) w := by
  intro p hp
  cases hc : s.coh r with
  | none =>
    have : s.updCoh r f = s := by simp [State.updCoh, hc]
    rw [this]
    exact s.same_refl p
  | some c =>
    have h := h c hc p hp
    have hb := s.block_updCoh r f
    cases p with
    | byte st a =>
      cases st <;> simp only [State.same, State.byte, State.mem, State.core, State.die, State.updCoh_phys, State.updCoh_cores, State.updCoh_dies]
      rename_i b
      obtain ⟨g, hg⟩ := hb b
      rw [hg]
      cases s.block b <;> rfl
    | full st a =>
      cases st <;> simp only [State.same, State.full, State.fes, State.core, State.updCoh_cores]
      rename_i b
      obtain ⟨g, hg⟩ := hb b
      rw [hg]
      cases s.block b <;> rfl
    | psn st a =>
      cases st <;> simp only [State.same, State.psns, State.core, State.die, State.updCoh_physPsn, State.updCoh_cores, State.updCoh_dies]
      rename_i b
      obtain ⟨g, hg⟩ := hb b
      rw [hg]
      cases s.block b <;> rfl
    | b blk n =>
      obtain ⟨g, hg⟩ := hb blk
      simp only [State.same, State.bAt, hg]
      cases s.block blk <;> rfl
    | blk b =>
      obtain ⟨g, hg⟩ := hb b
      simp only [State.same, hg]
      cases s.block b <;> rfl
    | s q n | k q n | ctr q n | v q l n | m q l n | seed q l | resv q l | ident q l | exc q | frz q | slot q i | spill q | sel q | latch q
    | ncls q | cnt q | coh q =>
      simp only [State.same, State.sAt, State.kAt, State.ctrAt, State.vAt, State.mAt, State.seedAt, State.thr, State.frozen, State.slot,
        State.latches, State.coh_updCoh]
      by_cases hq : q = r
      · subst hq
        simpa [hc, cohSame] using h
      · simp [hq]
    | _ => simp [State.same, State.core, State.die, State.grid]

/-! ## Issuing -/

/-- A block register written. -/
theorem State.keeps_setBlockB {s : State} {blk : Nat} {b : Block} {n : Nat} {v : W32} {w : Place → Prop} (hb : s.block blk = some b)
    (hw : w (.b blk n)) : s.keeps (s.setBlock blk (b.setB n v)) w := by
  intro p hp
  have hk (k : Nat) : (s.setBlock blk (b.setB n v)).block k = (s.block k).map (fun x => if k = blk then b.setB n v else x) := by
    rw [State.block_setBlock]
    by_cases h : k = blk
    · subst h; simp [hb]
    · cases s.block k <;> simp [h]
  have hcoh (q : CohRef) : (s.setBlock blk (b.setB n v)).coh q = s.coh q := by
    simp only [State.coh, hk]
    by_cases h : q.blk = blk
    · simp [h, hb, Block.setB, Block.coh]
    · cases s.block q.blk <;> simp [h]
  cases p with
  | b blk' n' =>
    by_cases h : blk' = blk
    · subst h
      have hn : n' ≠ n := fun e => hp (e ▸ hw)
      simp [State.same, State.bAt, hk, hb, Block.breg_setB, hn]
    · simp only [State.same, State.bAt, hk]
      cases s.block blk' <;> simp [h]
  | blk c =>
    simp only [State.same, hk]
    by_cases h : c = blk
    · subst h; simp [hb, Block.setB, Block.bare]
    · cases s.block c <;> simp [h]
  | byte st a | full st a | psn st a =>
    cases st <;> simp only [State.same, State.byte, State.mem, State.full, State.fes, State.psns, State.core, State.die, State.setBlock_phys,
      State.setBlock_cores, State.setBlock_dies, State.setBlock_physPsn, hk]
    rename_i c
    by_cases h : c = blk
    · subst h; simp [hb, Block.setB]
    · cases s.block c <;> simp [h]
  | s q n | k q n | ctr q n | v q l n | m q l n | seed q l | resv q l | ident q l | exc q | frz q | slot q i | spill q | sel q | latch q
  | ncls q | cnt q | coh q =>
    simp [State.same, State.sAt, State.kAt, State.ctrAt, State.vAt, State.mAt, State.seedAt, State.thr, State.frozen, State.slot,
      State.latches, hcoh]
  | _ => simp [State.same, State.core, State.die, State.grid]

/-- Sampling counts on the issuer's partition and uses its PSAMP. -/
theorem State.keeps_sampleCount (s : State) (x : Ctx) {w : Place → Prop} (hw : ∀ p, x.moved p → w p) : s.keeps (s.sampleCount x) w := by
  simp only [State.sampleCount]
  split
  · exact s.keeps_refl w
  · set k := s.core x.blk.coreId with hk
    set s1 := s.setCore x.blk.coreId (k.setPart x.coh.part { k.part x.coh.part with smp := (k.part x.coh.part).smp + 1 }) with hs1
    have h1 : s.keeps s1 w := by
      intro p hp
      have hcore (n : Nat) : s1.core n = if n = x.blk.coreId then
          k.setPart x.coh.part { k.part x.coh.part with smp := (k.part x.coh.part).smp + 1 } else s.core n := by
        rw [hs1, State.core_setCore]
      have hbare (n : Nat) : (s1.core n).scr = (s.core n).scr ∧ (s1.core n).fe = (s.core n).fe ∧ (s1.core n).psn = (s.core n).psn
          ∧ (s1.core n).objs = (s.core n).objs ∧ (s1.core n).bare = (s.core n).bare := by
        rw [hcore]
        split
        · rename_i h
          subst h
          simp [hk, Core.setPart, Core.bare]
        · simp
      cases p with
      | byte st a =>
        cases st with
        | core c => simp [State.same, State.byte, State.mem, (hbare c).1]
        | _ => simp [State.same, State.byte, State.mem, hs1, State.die, State.block]
      | full st a =>
        cases st with
        | core c => simp [State.same, State.full, State.fes, (hbare c).2.1]
        | _ => simp [State.same, State.full, State.fes, hs1, State.block]
      | psn st a =>
        cases st with
        | core c => simp [State.same, State.psns, (hbare c).2.2.1]
        | _ => simp [State.same, State.psns, hs1, State.block, State.die]
      | objs n => exact (hbare n).2.2.2.1
      | core n => exact (hbare n).2.2.2.2
      | part n q =>
        simp only [State.same, hcore]
        split
        · rename_i h
          subst h
          rw [Core.part_setPart]
          split
          · rename_i h
            subst h
            rfl
          · rfl
        · rfl
      | smp n q =>
        simp only [State.same, hcore]
        split
        · rename_i h
          subst h
          rw [Core.part_setPart]
          split
          · rename_i h
            subst h
            exact absurd (hw (.smp _ _) ⟨rfl, rfl⟩) hp
          · rfl
        · rfl
      | cur | names | xlat => exact ⟨rfl, rfl⟩
      | _ => exact rfl
    split
    · refine State.keeps_trans h1 (State.keeps_updCoh ?_)
      intro c _ p hp
      cases p with
      | cnt q => intro hq; exact absurd (hw (.cnt q) hq) hp
      | _ => simp [cohSame, Cohort.sreg, Cohort.kreg, Cohort.ctr, Cohort.thread, Cohort.path, Cohort.bare]
    · exact h1

/-- The counts of an issued word. -/
theorem State.keeps_issued (s : State) (x : Ctx) {w : Place → Prop} (hw : ∀ p, x.moved p → w p) : s.keeps (s.issued x) w := by
  simp only [State.issued]
  split
  · refine State.keeps_trans (s.keeps_sampleCount x hw) (State.keeps_updCoh ?_)
    intro c _ p hp
    cases p with
    | cnt q => intro hq; exact absurd (hw (.cnt q) hq) hp
    | _ => simp [cohSame, Cohort.sreg, Cohort.kreg, Cohort.ctr, Cohort.thread, Cohort.path, Cohort.bare]
  · exact s.keeps_sampleCount x hw

/-- The cohort of the issuer behind the counts of a word. -/
theorem State.coh_issued (s : State) (x : Ctx) (c : Cohort) (h : s.coh x.ref = some c) :
    ∃ c', (s.issued x).coh x.ref = some c' ∧ c' = { c with psamp := c'.psamp, polls := c'.polls } := by
  have h1 : ∃ c', (s.sampleCount x).coh x.ref = some c' ∧ c' = { c with psamp := c'.psamp, polls := c'.polls } := by
    simp only [State.sampleCount]
    split
    · exact ⟨c, h, rfl⟩
    · split
      · rw [State.coh_updCoh, if_pos rfl]
        exact ⟨{ c with psamp := none }, by simp [State.coh, State.block] at h ⊢; simp [h], rfl⟩
      · exact ⟨c, by simpa [State.coh, State.block] using h, rfl⟩
  obtain ⟨c1, h1, e1⟩ := h1
  simp only [State.issued]
  split
  · rw [State.coh_updCoh, if_pos rfl, h1]
    refine ⟨{ c1 with polls := 0 }, rfl, ?_⟩
    rw [e1]
  · exact ⟨c1, h1, e1⟩

/-- What the issuer names in the state. -/
theorem State.ctx_some {s : State} {x : Ctx} (h : s.ctx = some x) :
    s.cur = some x.ref ∧ s.block x.ref.blk = some x.blk ∧ s.coh x.ref = some x.coh ∧ s.grid x.blk.grid = some x.grid
    ∧ x.coh.path x.isB = some x.path ∧ x.isB = x.coh.selB ∧ x.coh.frz = none ∧ x.blk.saved = false ∧ x.smp = none := by
  simp only [State.ctx] at h
  split at h
  · simp at h
  · rename_i r hr
    split at h
    · simp at h
    · rename_i b hb
      split at h
      · rename_i c g hc hg
        split at h
        · rename_i p hp
          split at h
          · simp at h
          · rename_i hz
            simp only [Option.some.injEq] at h
            subst h
            simp only [Bool.or_eq_true, not_or, Bool.not_eq_true, Option.isSome_eq_false_iff, Option.isNone_iff_eq_none] at hz
            simp [hr, hb, hg, hp, hz, State.coh, hc]
        · simp at h
      · simp at h

/-- A word that issues passes its own checks: the issuer, the counters, the scalar latch entries. -/
theorem issues_checks {s : State} {x : Ctx} {c : Ctl} (h : s.issues x c) :
    s.ctx = some x ∧ (!x.counted && !x.coh.waitOk c.wait) = false
    ∧ ¬ (match c.set with | some n => x.coh.ctr n.toNat == 63#6 && !x.counted | none => false) = true
    ∧ scaCheck { x with smp := s.sampleOf x } s = none := by
  obtain ⟨hx, hw, hs, hm⟩ := h
  refine ⟨hx, by rcases hw with h | h <;> simp [h], ?_, Option.isNone_iff_eq_none.1 hm⟩
  cases hset : c.set with
  | none => simp
  | some n => rcases hs n hset with h | h <;> simp [h]

/-- A completed word leaves the path behind it, marked when it was the word of a single step (R329). -/
theorem Cohort.path_advance {k : Cohort} {x : Ctx} {e : LEnt} {n : Nat} {p : Path} (hp : k.path x.isB = some p) (hst : k.step = x.coh.step)
    (hm : p.stp = x.path.stp) : (k.advance x.isB n e).path x.isB = some { p.advance n with stp := x.stepped } := by
  simp only [Cohort.advance, Cohort.path_setPath, if_true, Cohort.wordDone]
  by_cases h : k.step = 1
  · have h1 : x.coh.step = 1 := hst ▸ h
    rw [if_pos h]
    cases hb : x.isB <;> simp_all [Cohort.path, Cohort.setPath, Path.advance, Ctx.stepped]
  · have h1 : x.coh.step ≠ 1 := hst ▸ h
    rw [if_neg h]
    cases hb : x.isB <;> simp_all [Cohort.path, Path.advance, Ctx.stepped]

/-- What a completed word leaves of its cohort. -/
theorem Cohort.advance_eq (k : Cohort) (isB : Bool) (n : Nat) (e : LEnt) :
    k.advance isB n e = { k with
      pa := (k.advance isB n e).pa, pb := (k.advance isB n e).pb, latch := (k.advance isB n e).latch, fair := (k.advance isB n e).fair,
      rpm := 0#32, rinc := false, step := (k.advance isB n e).step } := by
  simp only [Cohort.advance, Cohort.wordDone]
  split <;> cases isB <;> rfl

@[simp] theorem Cohort.bare_advance (k : Cohort) (isB : Bool) (n : Nat) (e : LEnt) : (k.advance isB n e).bare = k.bare := by
  rw [Cohort.advance_eq]; rfl
@[simp] theorem Cohort.advance_d (k : Cohort) (isB : Bool) (n : Nat) (e : LEnt) : (k.advance isB n e).d = k.d := by
  rw [Cohort.advance_eq]
@[simp] theorem Cohort.advance_lanes (k : Cohort) (isB : Bool) (n : Nat) (e : LEnt) : (k.advance isB n e).lanes = k.lanes := by
  rw [Cohort.advance_eq]
@[simp] theorem Cohort.advance_s (k : Cohort) (isB : Bool) (n : Nat) (e : LEnt) : (k.advance isB n e).s = k.s := by
  rw [Cohort.advance_eq]
@[simp] theorem Cohort.advance_k (k : Cohort) (isB : Bool) (n : Nat) (e : LEnt) : (k.advance isB n e).k = k.k := by
  rw [Cohort.advance_eq]
@[simp] theorem Cohort.advance_spill (k : Cohort) (isB : Bool) (n : Nat) (e : LEnt) : (k.advance isB n e).spill = k.spill := by
  rw [Cohort.advance_eq]
@[simp] theorem Cohort.advance_frz (k : Cohort) (isB : Bool) (n : Nat) (e : LEnt) : (k.advance isB n e).frz = k.frz := by
  rw [Cohort.advance_eq]
@[simp] theorem Cohort.advance_sel (k : Cohort) (isB : Bool) (n : Nat) (e : LEnt) :
    (k.advance isB n e).selB = k.selB ∧ (k.advance isB n e).mid = k.mid := by
  rw [Cohort.advance_eq]; exact ⟨rfl, rfl⟩
@[simp] theorem Cohort.advance_exc (k : Cohort) (isB : Bool) (n : Nat) (e : LEnt) :
    (k.advance isB n e).flane = k.flane ∧ (k.advance isB n e).pmask = k.pmask ∧ (k.advance isB n e).pidx = k.pidx := by
  rw [Cohort.advance_eq]; exact ⟨rfl, rfl, rfl⟩
@[simp] theorem Cohort.advance_ncls (k : Cohort) (isB : Bool) (n : Nat) (e : LEnt) : (k.advance isB n e).ncls = k.ncls := by
  rw [Cohort.advance_eq]

/-- The other slot stays. -/
theorem Cohort.path_advance_ne {k : Cohort} {isB i : Bool} {n : Nat} {e : LEnt} (h : i ≠ isB) : (k.advance isB n e).path i = k.path i := by
  simp only [Cohort.advance, Cohort.path_setPath, if_neg h, Cohort.wordDone]
  split
  · exact (Cohort.path_setPath k isB i _).trans (if_neg h)
  · rfl

/-- A word that completes: the window takes its entry, the path stands behind it, and beside what its body did nothing moves. -/
theorem word_done {s s' : State} {x : Ctx} {c : Ctl} {body : Ctx → WRes} {e : LEnt} {k : Cohort}
    (h : s.issues x c) (hb : body { x with smp := s.sampleOf x } = .done s' e) (hc : s'.coh x.ref = some k)
    (hp : k.path x.isB = some x.path) (hl : k.latch = x.coh.latch) (hst : k.step = x.coh.step) :
    ∃ t, word c s body = .next t ∧ t.passed x c e ∧ s'.keeps t x.moved := by
  have hword : word c s body
      = .next ((s'.issued { x with smp := s.sampleOf x }).updCoh x.ref (fun k => k.advance x.isB (ctlLen c) e)) := by
    obtain ⟨hx, hw, hf, hk⟩ := issues_checks h
    simp only [word, hx]
    rw [if_neg (by simp [hw]), if_neg ?_, hk, Option.getD_none, hb]
    exact hf
  refine ⟨_, hword, ?_, ?_⟩
  · obtain ⟨k', hk', ek⟩ := s'.coh_issued { x with smp := s.sampleOf x } k hc
    simp only at hk'
    have hp' : k'.path x.isB = some x.path := by rw [ek]; exact hp
    have hl' : k'.latch = x.coh.latch := by rw [ek]; exact hl
    have hs' : k'.step = x.coh.step := by rw [ek]; exact hst
    refine ⟨⟨x.path.ops, ?_, rfl⟩, ?_⟩
    · simp only [State.slot, State.coh_updCoh, if_true, hk', Option.map_some, Option.bind_some]
      rw [Cohort.path_advance hp' hs' rfl]
      rfl
    · simp [State.latches, State.coh_updCoh, hk', Cohort.advance, pushLatch, hl']
  · refine State.keeps_trans (s'.keeps_issued { x with smp := s.sampleOf x } (fun p hp => ?_)) (State.keeps_updCoh ?_)
    · cases p <;> exact hp
    · intro k1 _ p hp
      cases p with
      | slot q i =>
        intro hq
        have : i ≠ x.isB := fun hi => hp ⟨hq, hi⟩
        rw [Cohort.path_advance_ne this]
      | latch q => intro hq; exact absurd hq hp
      | cnt q => intro hq; exact absurd hq hp
      | _ => simp [cohSame, Cohort.sreg, Cohort.kreg, Cohort.ctr, Cohort.thread]

theorem Cohort.setPath_path (k : Cohort) (isB : Bool) : k.setPath isB (k.path isB) = k := by cases isB <;> rfl

/-- The cohort behind the note of operations that may demote its path (R158, R240). -/
theorem State.coh_noteOps (s : State) (r : CohRef) (isB : Bool) (n0 : Nat) {k : Cohort} {p : Path} (hc : s.coh r = some k)
    (hp : k.path isB = some p) :
    ∃ o, (s.noteOps r isB n0).coh r = some (k.setPath isB (some { p with ops := o })) ∧ p.ops ⊆ o
      ∧ ∀ q ∈ s.pend, n0 ≤ q.id → q.kind.demotes = true → q.id ∈ o := by
  simp only [State.noteOps]
  split
  · rename_i he
    refine ⟨p.ops, ?_, fun _ h => h, fun q hq hn hd => ?_⟩
    · rw [hc, show ({ p with ops := p.ops } : Path) = p from rfl, ← hp, Cohort.setPath_path]
    · simp only [List.isEmpty_iff, List.map_eq_nil_iff, List.filter_eq_nil_iff] at he
      exact absurd (by simp [hn, hd]) (he q hq)
  · refine ⟨_, by rw [State.coh_updCoh, if_pos rfl, hc, Option.map_some, hp, Option.map_some], List.subset_append_left _ _, fun q hq hn hd => ?_⟩
    by_cases hin : q.id ∈ p.ops
    · exact List.mem_append_left _ hin
    · refine List.mem_append_right _ (List.mem_filter.2 ⟨List.mem_map.2 ⟨q, List.mem_filter.2 ⟨hq, by simp [hn, hd]⟩, rfl⟩, by simpa using hin⟩)

/-- The note moves the path's slot alone. -/
theorem State.keeps_noteOps (s : State) (r : CohRef) (isB : Bool) (n0 : Nat) {w : Place → Prop} (hw : w (.slot r isB)) :
    s.keeps (s.noteOps r isB n0) w := by
  simp only [State.noteOps]
  split
  · exact s.keeps_refl w
  · refine State.keeps_updCoh ?_
    intro k _ p hp
    cases p with
    | slot q i =>
      intro hq
      have : i ≠ isB := fun hi => hp (by rw [hq, hi]; exact hw)
      simp [Cohort.path_setPath, this]
    | _ => cases isB <;> simp [cohSame, Cohort.setPath, Cohort.sreg, Cohort.kreg, Cohort.ctr, Cohort.thread, Cohort.counts, Cohort.bare]

/-- An asynchronous word issues: what its body did, its counter, the next word, the operations that may demote its path. -/
theorem word_async {s s' : State} {x : Ctx} {c : Ctl} {body : Ctx → WRes} {k : Cohort}
    (h : s.issues x c) (hb : body { x with smp := s.sampleOf x } = .async s') (hc : s'.coh x.ref = some k)
    (hp : k.path x.isB = some x.path) (hl : k.latch = x.coh.latch) (hd : k.d = x.coh.d) (hr : k.rinc = x.coh.rinc)
    (hst : k.step = x.coh.step) :
    ∃ t, word c s body = .next t
      ∧ t.passedWith x c .none (fun o => x.path.ops ⊆ o ∧ ∀ q ∈ s'.pend, s.nid ≤ q.id → q.kind.demotes = true → q.id ∈ o)
      ∧ t.counted1 x c ∧ t.pend = s'.pend ∧ t.nid = s'.nid ∧ t.free = s'.free
      ∧ s'.keeps t (fun p => x.moved p ∨ ∃ n, c.set = some n ∧ p = .ctr x.ref n.toNat) := by
  obtain ⟨hx, hw, hf, hk⟩ := issues_checks h
  have hword : word c s body = .next (((s'.issued { x with smp := s.sampleOf x }).noteOps x.ref x.isB s.nid).updCoh x.ref
      (fun k => (k.count c.set).advance x.isB (ctlLen c) .none)) := by
    simp only [word, hx]
    rw [if_neg (by simp [hw]), if_neg ?_, hk, Option.getD_none, hb]
    exact hf
  have hcnt (k : Cohort) : ∃ m, k.count c.set = { k with d := m } := by
    simp only [Cohort.count]
    split
    · split
      · exact ⟨k.d, rfl⟩
      · exact ⟨_, rfl⟩
    · exact ⟨k.d, rfl⟩
  obtain ⟨k', hk', ek⟩ := s'.coh_issued { x with smp := s.sampleOf x } k hc
  simp only at hk'
  have hp' : k'.path x.isB = some x.path := by rw [ek]; exact hp
  have hkeep := State.keeps_trans (s'.keeps_issued { x with smp := s.sampleOf x } (w := x.moved) (fun p hp => by cases p <;> exact hp))
    (State.keeps_noteOps (s'.issued { x with smp := s.sampleOf x }) x.ref x.isB s.nid (show x.moved (.slot x.ref x.isB) from ⟨rfl, rfl⟩))
  obtain ⟨o, hk2, hsub, hops⟩ := (s'.issued { x with smp := s.sampleOf x }).coh_noteOps x.ref x.isB s.nid hk' hp'
  have hpend := hkeep .pend (fun h => h)
  have hnames := hkeep .names (fun h => h)
  have hpi := s'.keeps_issued { x with smp := s.sampleOf x } (w := x.moved) (fun p hp => by cases p <;> exact hp) .pend (fun h => h)
  simp only [State.same] at hpend hnames hpi
  set k2 := k'.setPath x.isB (some { x.path with ops := o }) with hk2d
  have e2 : k2.path x.isB = some { x.path with ops := o } := by simp [hk2d]
  have er : k2.rinc = x.coh.rinc := by rw [hk2d, ek]; cases x.isB <;> exact hr
  have ed : k2.d = x.coh.d := by rw [hk2d, ek]; cases x.isB <;> exact hd
  have el : k2.latch = x.coh.latch := by rw [hk2d, ek]; cases x.isB <;> exact hl
  have es : k2.step = x.coh.step := by rw [hk2d, ek]; cases x.isB <;> exact hst
  refine ⟨_, hword, ⟨⟨o, ?_, hsub, fun q hq => hops q (by rw [hpi]; exact hq)⟩, ?_⟩, ?_, ?_, ?_, ?_, ?_⟩
  · simp only [State.slot, State.coh_updCoh, if_true, hk2, Option.map_some, Option.bind_some]
    obtain ⟨m, hm⟩ := hcnt k2
    rw [hm, Cohort.path_advance (k := { k2 with d := m }) (p := { x.path with ops := o }) e2 es rfl]
    rfl
  · obtain ⟨m, hm⟩ := hcnt k2
    simp only [State.latches, State.coh_updCoh, if_true, hk2, Option.map_some, Option.getD_some, Cohort.advance, Cohort.setPath_latch]
    rw [hm]
    simp [pushLatch, el]
  · intro n hn
    simp only [State.ctrAt, State.coh_updCoh, if_true, hk2, Option.map_some, Option.getD_some, Cohort.ctr, Cohort.advance_d, hn, Cohort.count, er]
    split
    · rw [ed]
    · simp [Cohort.incCtr, Cohort.setCtr, Cohort.ctr, ed]
  · simp [hpend]
  · simp [hnames]
  · simp [hnames]
  · refine State.keeps_trans (State.keeps_mono hkeep (fun _ => Or.inl)) (State.keeps_updCoh ?_)
    intro k1 _ p hp
    obtain ⟨m, hm⟩ := hcnt k1
    cases p with
    | slot q i =>
      intro hq
      have : i ≠ x.isB := fun hi => hp (Or.inl ⟨hq, hi⟩)
      rw [Cohort.path_advance_ne this, hm]
      rfl
    | latch q => intro hq; exact absurd (Or.inl hq) hp
    | cnt q => intro hq; exact absurd (Or.inl hq) hp
    | ctr q n =>
      intro hq
      simp only [Cohort.ctr, Cohort.advance_d, Cohort.count]
      cases hset : c.set with
      | none => rfl
      | some j =>
        have : n ≠ j.toNat := fun e => hp (Or.inr ⟨j, hset, by rw [hq, e]⟩)
        by_cases hri : k1.rinc = true
        · simp [hri]
        · simp [hri, Cohort.incCtr, Cohort.setCtr, AMap.get_set, this]
    | coh q => intro _; rw [hm]; simp only [Cohort.bare_advance]; rfl
    | _ => rw [hm]; simp [cohSame, Cohort.sreg, Cohort.kreg, Cohort.thread]

/-- The cohort of the issuer behind a scalar destination keeps its paths and its window. -/
theorem State.coh_putS {s : State} {r : CohRef} {k : Cohort} (d : Dst) (v : W64) (h : s.coh r = some k) :
    ∃ k', (s.putS r d v).coh r = some k' ∧ (∀ i, k'.path i = k.path i) ∧ k'.latch = k.latch ∧ k'.step = k.step := by
  cases d with
  | s n => exact ⟨k.setS n.toNat v, by simp [State.putS, State.coh_updCoh, h], fun _ => rfl, rfl, rfl⟩
  | k n => exact ⟨k.setK n.toNat v, by simp [State.putS, State.coh_updCoh, h], fun _ => rfl, rfl, rfl⟩
  | b n =>
    refine ⟨k, ?_, fun _ => rfl, rfl, rfl⟩
    simp only [State.putS]
    split
    · rename_i b hb
      simp only [State.coh, hb] at h
      simp only [State.coh, State.block_setBlock, if_true, Block.setB, Block.coh] at h ⊢
      exact h
    · exact h
  | _ => exact ⟨k, h, fun _ => rfl, rfl, rfl⟩

/-- A scalar destination written: nothing outside it moves. -/
theorem State.keeps_putS (s : State) (x : Ctx) (d : Dst) (v : W64) : s.keeps (s.putS x.ref d v) (dstCovers d x [] (fun _ => false)) := by
  cases d with
  | s n =>
    refine State.keeps_updCoh ?_
    intro c _ p hp
    cases p with
    | s q m =>
      intro hq
      have : m ≠ n.toNat := fun e => hp ⟨hq, n, rfl, e⟩
      simp [Cohort.sreg_setS, this]
    | _ => simp [cohSame, Cohort.setS, Cohort.kreg, Cohort.ctr, Cohort.thread, Cohort.path, Cohort.counts, Cohort.bare]
  | k n =>
    refine State.keeps_updCoh ?_
    intro c _ p hp
    cases p with
    | k q m =>
      intro hq
      have : m ≠ n.toNat := fun e => hp ⟨hq, n, rfl, e⟩
      simp [Cohort.kreg_setK, this]
    | _ => simp [cohSame, Cohort.setK, Cohort.sreg, Cohort.ctr, Cohort.thread, Cohort.path, Cohort.counts, Cohort.bare]
  | b n =>
    simp only [State.putS]
    split
    · exact State.keeps_setBlockB ‹_› ⟨rfl, n, rfl, rfl⟩
    · exact s.keeps_refl _
  | _ => exact s.keeps_refl _

/-- A scalar destination written holds the value. -/
theorem State.holdsSca_putS {s : State} {x : Ctx} (d : Dst) (v : W64) (h : s.coh x.ref = some x.coh) (hb : s.block x.ref.blk = some x.blk) :
    (s.putS x.ref d v).holdsSca x d v := by
  cases d <;> simp [State.holdsSca, State.putS, State.sAt, State.kAt, State.bAt, State.coh_updCoh, h, hb, Cohort.sreg_setS, Cohort.kreg_setK,
    Block.breg_setB]

/-- A result that a frame keeps. -/
theorem State.holdsSca_keeps {s t : State} {x : Ctx} {d : Dst} {v : W64} (h : s.holdsSca x d v) (hk : s.keeps t x.moved) : t.holdsSca x d v := by
  cases d with
  | s n => exact (hk (.s x.ref n.toNat) (fun h => h)).trans h
  | k n => exact (hk (.k x.ref n.toNat) (fun h => h)).trans h
  | b n => exact (hk (.b x.ref.blk n.toNat) (fun h => h)).trans h
  | _ => trivial

theorem residueCheck_quiet {x : Ctx} {s : State} (h : s.errIn = []) (u : Nat) : residueCheck x s u = .ok s := by
  simp [residueCheck, State.residueHit, h]

theorem parityCheck_quiet {x : Ctx} {s : State} (h : s.errIn = []) (srcs : List Src) (ls : List Nat) : parityCheck x s srcs ls = .ok s := by
  simp [parityCheck, State.parityHits, h]

/-- A word whose body writes one scalar result. -/
theorem word_sca {s : State} {x : Ctx} {c : Ctl} {d : Dst} {v : W64} {body : Ctx → WRes} (h : s.issues x c)
    (hb : body { x with smp := s.sampleOf x } = .done (s.putS x.ref d v) (.sca v false)) : s.scaDone x c d (word c s body) v := by
  obtain ⟨-, hblk, hcoh, -, hpath, -⟩ := State.ctx_some h.1
  obtain ⟨k, hk, hkp, hkl, hks⟩ := State.coh_putS d v hcoh
  obtain ⟨t, ht, hpass, hkeep⟩ := word_done h hb hk ((hkp _).trans hpath) hkl hks
  refine ⟨t, ht, State.holdsSca_keeps (State.holdsSca_putS d v hcoh hblk) hkeep, hpass, ?_⟩
  exact State.keeps_trans (State.keeps_mono (s.keeps_putS x d v) (fun _ => Or.inr)) (State.keeps_mono hkeep (fun _ => Or.inl))

/-- A scalar word completes with its result. -/
theorem scaWord_done {s : State} {x : Ctx} {c : Ctl} {u : Nat} {d : Dst} {f : Ctx → W64} {v : W64} (h : s.issues x c)
    (he : s.errIn = []) (hf : f { x with smp := s.sampleOf x } = v) : s.scaDone x c d (scaWord c s u d f) v :=
  word_sca h (by simp [residueCheck_quiet he, hf])

end Sys2Proof.Machine
end

