-- ==== Sys2Proof/Laws/Vec.lean ====
section
/-! SUPPORT. What a vector word that completes leaves in the lanes (`vecWord`), and the words that answer a mask (`maskWord`). -/

namespace Sys2Proof.Machine

/-! ## A register written -/

theorem get_foldTans (ks : List Nat) (g : Nat → W32) (m : AMap W32) (j : Nat) :
    ((ks.map (fun k => (k, g k, false))).foldl (fun (m : AMap W32) (p : Nat × W32 × Bool) =>
      if p.2.1 = 0#32 then m.del p.1 else m.set p.1 p.2.1) m).get j 0#32
    = if j ∈ ks then g j else m.get j 0#32 := by
  induction ks generalizing m with
  | nil => simp
  | cons k r ih =>
    simp only [List.map_cons, List.foldl_cons, ih]
    by_cases h : j ∈ r
    · simp [h]
    · by_cases hj : j = k
      · subst hj
        by_cases hz : g j = 0#32 <;> simp [h, hz, AMap.get, AMap.find_del, AMap.find_set]
      · by_cases hz : g k = 0#32 <;> simp [h, hj, hz, AMap.get, AMap.find_del, AMap.find_set]

theorem contains_setDel (l : List Nat) (i j : Nat) : (setDel l i).contains j = (!(j == i) && l.contains j) := by
  rw [Bool.eq_iff_iff]
  simp [setDel]
  tauto

theorem contains_foldTpsn (ks : List Nat) (g : Nat → W32) (m : List Nat) (j : Nat) :
    ((ks.map (fun k => (k, g k, false))).foldl (fun (m : List Nat) (p : Nat × W32 × Bool) =>
      if p.2.2 then setIns m p.1 else setDel m p.1) m).contains j
    = (!ks.contains j && m.contains j) := by
  induction ks generalizing m with
  | nil => simp
  | cons k r ih =>
    simp only [List.map_cons, List.foldl_cons, ih, Bool.false_eq_true, if_false, contains_setDel, List.contains_cons]
    cases (j == k) <;> cases r.contains j <;> simp

theorem VReg.given_put (q0 : VReg) (x : Ctx) (v : W32) (tag : Tag) (g : Nat → W32) :
    (q0.put (if x.dxMode = .tonly then none else some (v, tag, false)) (x.tans.map (fun k => (k, g k, false)))).given q0 x v tag g := by
  refine ⟨?_, fun k => ?_, fun k => ?_⟩
  · by_cases h : x.dxMode = .tonly <;> simp [h, VReg.put]
  · by_cases h : x.dxMode = .tonly <;> simp [h, VReg.put, get_foldTans]
  · by_cases h : x.dxMode = .tonly <;> simp only [h, VReg.put, if_true, if_false] <;> exact contains_foldTpsn _ _ _ _

/-! ## A lane written -/

theorem Ctx.newTans_eq (x : Ctx) (r : LRes) : x.newTans r = x.tans.map (fun k => (k, x.givenTan r.tag r.tan k)) := by
  simp only [Ctx.newTans, modeTans, Ctx.givenTan]
  cases x.dxMode <;> rfl

/-- The registers of a thread behind the write of a pair or of one register. -/
theorem Thread.vreg_putV (t : Thread) (n : Nat) (w : Bool) (p : Option (W64 × Tag × Bool)) (ts : AMap (W64 × Bool)) (m : Nat) :
    (t.putV n w p ts).vreg m =
      if m = n then (t.vreg n).put (p.map (fun p => (p.1.setWidth 32, p.2))) (ts.map (fun q => (q.1, q.2.1.setWidth 32, q.2.2)))
      else if w = true ∧ m = n + 1 then (t.vreg (n + 1)).put (p.map (fun p => (p.1.extractLsb' 32 32, p.2)))
        (ts.map (fun q => (q.1, q.2.1.extractLsb' 32 32, q.2.2)))
      else t.vreg m := by
  cases w
  · simp [Thread.putV, Thread.vreg_setV]
  · simp only [Thread.putV, if_true, Thread.vreg_setV, true_and]
    by_cases h1 : m = n + 1
    · have : m ≠ n := by omega
      simp [h1]
    · by_cases h2 : m = n <;> simp [h1, h2]

/-- A lane's write moves nothing of its thread but the destination. -/
theorem Ctx.putLane_rest (x : Ctx) (d : Dst) (t : Thread) (r : LRes) :
    (x.putLane d t r).m = t.m ∧ (x.putLane d t r).resv = t.resv ∧ (x.putLane d t r).t = t.t ∧ (x.putLane d t r).tid = t.tid
    ∧ (x.putLane d t r).bid = t.bid := by
  simp only [Ctx.putLane]
  split
  · simp
  · cases d <;> simp only [Thread.putD, and_self]
    · simp only [Thread.putV]
      split <;> simp [Thread.setV]
    · split <;> simp

/-- The registers of a thread that a lane's write does not name. -/
theorem Ctx.putLane_vreg (x : Ctx) (d : Dst) (t : Thread) (r : LRes) (m : Nat)
    (h : ∀ n, d = .v n → r.keep = false → m ≠ n.toNat ∧ (r.wide = true → m ≠ n.toNat + 1)) : (x.putLane d t r).vreg m = t.vreg m := by
  simp only [Ctx.putLane]
  split
  · rfl
  · rename_i hk
    cases d with
    | v n =>
      obtain ⟨h1, h2⟩ := h n rfl (by simpa using hk)
      simp only [Thread.putD, Thread.vreg_putV, h1, if_false]
      by_cases hw : r.wide = true
      · simp [hw, h2 hw]
      · simp [hw]
    | seed => simp only [Thread.putD]; split <;> rfl
    | _ => rfl

theorem Ctx.putLane_seed (x : Ctx) (d : Dst) (t : Thread) (r : LRes) (h : d = .seed → r.keep = true) : (x.putLane d t r).seed = t.seed := by
  simp only [Ctx.putLane]
  split
  · rfl
  · rename_i hk
    cases d with
    | v n =>
      simp only [Thread.putD, Thread.putV]
      split <;> simp [Thread.setV]
    | seed => exact absurd (h rfl) hk
    | _ => rfl

/-- What a lane's write leaves in its thread: the registers of the destination. -/
theorem Ctx.putLane_given (x : Ctx) (n : VNum) (t : Thread) (r : LRes) (hk : r.keep = false) :
    ((x.putLane (.v n) t r).vreg n.toNat).given (t.vreg n.toNat) x (r.val.setWidth 32) r.tag
      (fun k => (x.givenTan r.tag r.tan k).setWidth 32)
    ∧ (r.wide = true → ((x.putLane (.v n) t r).vreg (n.toNat + 1)).given (t.vreg (n.toNat + 1)) x (r.val.extractLsb' 32 32) r.tag
      (fun k => (x.givenTan r.tag r.tan k).extractLsb' 32 32)) := by
  have e (f : W64 → W32) : (if x.dxMode = .tonly then none else some (r.val, r.tag, false)).map (fun p => (f p.1, p.2))
      = if x.dxMode = .tonly then none else some (f r.val, r.tag, false) := by
    split <;> rfl
  simp only [Ctx.putLane, hk, Thread.putD, Thread.vreg_putV, Ctx.newTans_eq, List.map_map, Bool.false_eq_true, if_false, if_true]
  refine ⟨?_, fun hw => ?_⟩
  · rw [e (fun v => v.setWidth 32)]
    exact VReg.given_put _ _ _ _ _
  · have h1 : n.toNat + 1 ≠ n.toNat := by omega
    rw [if_neg h1, if_pos (by simp [hw]), e (fun v => v.extractLsb' 32 32)]
    exact VReg.given_put _ _ _ _ _

/-! ## The lanes written -/

theorem thread_foldUpd (g : Nat → Thread → Thread) (ls : List Nat) (hn : ls.Nodup) (c : Cohort) (l : Nat) :
    (ls.foldl (fun c k => c.updThread k (g k)) c).thread l = if l ∈ ls then (c.thread l).map (g l) else c.thread l := by
  induction ls generalizing c with
  | nil => simp
  | cons k r ih =>
    rw [List.nodup_cons] at hn
    simp only [List.foldl_cons, ih hn.2, Cohort.thread_updThread]
    by_cases h : l ∈ r
    · have : l ≠ k := fun e => hn.1 (e ▸ h)
      simp [h, this]
    · by_cases hl : l = k
      · subst hl; simp [h]
      · simp [h, hl]

theorem foldUpd_rest (g : Nat → Thread → Thread) (ls : List Nat) (c : Cohort) :
    ∃ m, ls.foldl (fun c k => c.updThread k (g k)) c = { c with lanes := m } := by
  induction ls generalizing c with
  | nil => exact ⟨c.lanes, rfl⟩
  | cons k r ih =>
    obtain ⟨m, hm⟩ := ih (c.updThread k (g k))
    refine ⟨m, ?_⟩
    rw [List.foldl_cons, hm]
    simp only [Cohort.updThread]
    split <;> simp [Cohort.setThread]

theorem Ctx.putLanes_eq (x : Ctx) (d : Dst) (ls : List Nat) (r : Nat → LRes) (c : Cohort) :
    x.putLanes d (ls.map (fun l => (l, r l))) c = ls.foldl (fun c k => c.updThread k (fun t => x.putLane d t (r k))) c := by
  simp [Ctx.putLanes, List.foldl_map]

theorem okRes_some (ls : List Nat) (r : Nat → LRes) : okRes (ls.map (fun l => (l, some (r l)))) = ls.map (fun l => (l, r l)) := by
  induction ls with
  | nil => rfl
  | cons l t ih => simp [okRes]

/-! ## The checks -/

theorem Ctx.dstFits_smp (x : Ctx) (o : Option (BitVec 16 × Bool)) (d : Dst) (l : Nat) (r : LRes) :
    ({ x with smp := o } : Ctx).dstFits d l r = x.dstFits d l r := rfl

theorem foldOr_zero (en : Cnd) (cs : AMap Cnd) (h : ∀ p ∈ cs, p.2 &&& en = 0#3) : cs.foldl (fun m p => m ||| (p.2 &&& en)) 0#3 = 0#3 := by
  induction cs with
  | nil => rfl
  | cons p r ih =>
    rw [List.foldl_cons, h p (by simp)]
    exact ih (fun q hq => h q (by simp [hq]))

/-- Results with no failing format, no poison and no enabled condition pass the checks when no physical error strikes. -/
theorem vecChecks_pass {x : Ctx} {s : State} {u : Nat} {d : Dst} {srcs : List Src} {lanes ls : List Nat} {r : Nat → LRes} (he : s.errIn = [])
    (h : ∀ l ∈ ls, (r l).psn = false ∧ x.dstFits d l (r l) = true ∧ (r l).c &&& x.grid.lrec.trapen = 0#3) :
    vecChecks x s u d srcs lanes (ls.map (fun l => (l, some (r l)))) = .ok s := by
  have hb : badLanes x d (ls.map (fun l => (l, some (r l)))) = 0#32 := by
    simp only [badLanes]
    rw [List.filter_eq_nil_iff.2]
    · rfl
    · intro p hp
      obtain ⟨l, hl, rfl⟩ := List.mem_map.1 hp
      simp [(h l hl).2.1]
  have hp : psnLanes (ls.map (fun l => (l, r l))) = 0#32 := by
    have : (ls.map (fun l => (l, r l))).filter (fun p => p.2.psn) = [] := by
      rw [List.filter_eq_nil_iff]
      intro p hp
      obtain ⟨l, hl, rfl⟩ := List.mem_map.1 hp
      simp [(h l hl).1]
    simp [psnLanes, this, AMap.keys, maskOf]
  have ht : trapOf x.grid.lrec.trapen ((ls.map (fun l => (l, r l))).map (fun p => (p.1, p.2.c))) = none := by
    have hz : trapCode x.grid.lrec.trapen ((ls.map (fun l => (l, r l))).map (fun p => (p.1, p.2.c))) = 0#3 := by
      refine foldOr_zero _ _ ?_
      intro p hp
      simp only [List.map_map, List.mem_map] at hp
      obtain ⟨l, hl, rfl⟩ := hp
      exact (h l hl).2.2
    simp only [trapOf, hz, if_true]
  simp only [vecChecks, parityCheck_quiet he, hb, okRes_some, hp, residueCheck_quiet he, ht]
  simp

/-! ## The frame of the lanes -/

theorem Ctx.lanes_nodup (x : Ctx) : x.lanes.Nodup := lanesOf_nodup _

/-- The cohort behind the results of a vector word: nothing outside the destination moves. -/
theorem State.keeps_putLanes (s : State) (x : Ctx) (o : Option (BitVec 16 × Bool)) (d : Dst) (r : Nat → LRes) :
    s.keeps (s.updCoh x.ref (({ x with smp := o } : Ctx).putLanes d (x.lanes.map (fun l => (l, r l)))))
      (dstCovers d x (x.lanes.filter (fun l => !(r l).keep)) (fun l => (r l).wide)) := by
  refine State.keeps_updCoh ?_
  intro c _ p hp
  rw [Ctx.putLanes_eq]
  have ht (l : Nat) := thread_foldUpd (fun k t => ({ x with smp := o } : Ctx).putLane d t (r k)) x.lanes x.lanes_nodup c l
  obtain ⟨m, hm⟩ := foldUpd_rest (fun k t => ({ x with smp := o } : Ctx).putLane d t (r k)) x.lanes c
  cases p with
  | v q l n =>
    intro hq
    rw [ht]
    by_cases hl : l ∈ x.lanes
    · simp only [hl, if_true]
      cases c.thread l with
      | none => rfl
      | some t =>
        simp only [Option.map_some, Option.getD_some]
        refine Ctx.putLane_vreg _ d t (r l) n ?_
        intro m hd hk
        have hl' : l ∈ x.lanes.filter (fun l => !(r l).keep) := List.mem_filter.2 ⟨hl, by simp [hk]⟩
        exact ⟨fun e => hp ⟨hq, hl', m, hd, Or.inl e⟩, fun hw e => hp ⟨hq, hl', m, hd, Or.inr ⟨hw, e⟩⟩⟩
    · simp [hl]
  | seed q l =>
    intro hq
    rw [ht]
    by_cases hl : l ∈ x.lanes
    · simp only [hl, if_true]
      cases c.thread l with
      | none => rfl
      | some t =>
        simp only [Option.map_some, Option.some.injEq]
        refine Ctx.putLane_seed _ d t (r l) ?_
        intro hd
        by_contra hk
        have hl' : l ∈ x.lanes.filter (fun l => !(r l).keep) := List.mem_filter.2 ⟨hl, by simpa using hk⟩
        exact hp ⟨hq, hl', hd⟩
    · simp [hl]
  | m q l n | resv q l | ident q l =>
    intro hq
    rw [ht]
    by_cases hl : l ∈ x.lanes
    · simp only [hl, if_true]
      cases c.thread l with
      | none => rfl
      | some t => simp [Thread.mreg, Ctx.putLane_rest]
    · simp [hl]
  | _ => simp [hm, cohSame, Cohort.sreg, Cohort.kreg, Cohort.ctr, Cohort.path, Cohort.counts, Cohort.bare]

theorem Ctx.putLane_smp (x : Ctx) (o : Option (BitVec 16 × Bool)) (d : Dst) (t : Thread) (r : LRes) :
    ({ x with smp := o } : Ctx).putLane d t r = x.putLane d t r := rfl

/-- What the lanes hold behind the results of a vector word. -/
theorem State.holdsLane_putLanes {s : State} {x : Ctx} (o : Option (BitVec 16 × Bool)) (d : Dst) (r : Nat → LRes) (hc : s.coh x.ref = some x.coh)
    (l : Nat) (hl : l ∈ x.lanes) (hs : (s.thr x.ref l).isSome = true) (hk : (r l).keep = false) :
    s.holdsLane (s.updCoh x.ref (({ x with smp := o } : Ctx).putLanes d (x.lanes.map (fun l => (l, r l))))) x d l (r l) := by
  obtain ⟨t, ht⟩ := Option.isSome_iff_exists.1 hs
  have hct : x.coh.thread l = some t := by simpa [State.thr, hc] using ht
  have hthr : (s.updCoh x.ref (({ x with smp := o } : Ctx).putLanes d (x.lanes.map (fun l => (l, r l))))).thr x.ref l
      = some (x.putLane d t (r l)) := by
    simp only [State.thr, State.coh_updCoh, if_true, hc, Option.map_some, Option.bind_some, Ctx.putLanes_eq]
    rw [thread_foldUpd _ _ x.lanes_nodup, if_pos hl, hct]
    rfl
  cases d with
  | v n =>
    simp only [State.holdsLane, State.vAt, hthr, ht, Option.map_some, Option.getD_some]
    exact x.putLane_given n t (r l) hk
  | seed =>
    simp only [State.holdsLane, State.seedAt, hthr, ht, Option.map_some, Ctx.putLane, hk, Thread.putD, Bool.false_eq_true, if_false]
    split
    · rename_i p hp
      split at hp
      · simp at hp
      · rename_i h
        simp only [Option.some.injEq] at hp
        subst hp
        simp [h]
    · rename_i hp
      split at hp
      · rename_i h; simp [h]
      · simp at hp
  | _ => trivial

/-- What a frame keeps of a lane. -/
theorem State.holdsLane_keeps {s t u : State} {x : Ctx} {d : Dst} {l : Nat} {r : LRes} (h : s.holdsLane t x d l r) (hk : t.keeps u x.moved) :
    s.holdsLane u x d l r := by
  cases d with
  | v n =>
    have h1 := hk (.v x.ref l n.toNat) (fun h => h)
    have h2 := hk (.v x.ref l (n.toNat + 1)) (fun h => h)
    simp only [State.same] at h1 h2
    simpa only [State.holdsLane, h1, h2] using h
  | seed =>
    have h1 := hk (.seed x.ref l) (fun h => h)
    simp only [State.same] at h1
    simpa only [State.holdsLane, h1] using h
  | _ => trivial

/-! ## The window -/

theorem find_mapLanes {α : Type} (ls : List Nat) (g : Nat → α) (l : Nat) : AMap.find (ls.map (fun k => (k, g k))) l = if l ∈ ls then some (g l) else none := by
  induction ls with
  | nil => rfl
  | cons k r ih =>
    simp only [List.map_cons, AMap.find, ih, List.mem_cons]
    by_cases h : k = l
    · subst h; simp
    · simp [h, Ne.symm h]

theorem find_latchVec (x : Ctx) (d : Dst) (ls : List Nat) (r : Nat → LRes) (l : Nat) :
    AMap.find ((ls.map (fun l => (l, r l))).filterMap (fun p => (x.coh.thread p.1).map (fun t =>
      (p.1, if p.2.keep then ⟨p.2.val, p.2.tag, p.2.tan, false⟩ else x.latchEl d t p.2)))) l
    = if l ∈ ls then (x.coh.thread l).map (fun t => if (r l).keep then ⟨(r l).val, (r l).tag, (r l).tan, false⟩ else x.latchEl d t (r l)) else none := by
  induction ls with
  | nil => rfl
  | cons k t ih =>
    simp only [List.map_cons, List.filterMap_cons]
    cases hk : x.coh.thread k with
    | none =>
      simp only [Option.map_none, ih, List.mem_cons]
      by_cases h : l = k
      · subst h; simp [hk]
      · simp [h]
    | some u =>
      simp only [Option.map_some, AMap.find, ih, List.mem_cons]
      by_cases h : k = l
      · subst h; simp [hk]
      · simp [h, Ne.symm h]

/-- A vector word whose lanes all run completes; `pre` is what it does beside. -/
theorem vecBody_done {s : State} {x : Ctx} {c : Ctl} {u : Nat} {d : Dst} {srcs : List Src} {lanes : Ctx → List Nat} {pre : State → State}
    {ex : Place → Prop} {f : Ctx → Nat → Option LRes} {r : Nat → LRes} (h : s.issues x c) (he : s.errIn = [])
    (hpre : s.keeps (pre s) ex) (hpc : ∀ q, (pre s).coh q = s.coh q) (hf : ∀ l ∈ x.lanes, f { x with smp := s.sampleOf x } l = some (r l))
    (hr : x.lanesRun d r) : s.vecDoneBut x c d (word c s (fun x => vecBody s u d srcs (lanes x) pre f x)) r ex := by
  obtain ⟨-, hblk, hcoh, -, hpath, -⟩ := State.ctx_some h.1
  have hcp : (pre s).coh x.ref = some x.coh := by rw [hpc]; exact hcoh
  set y : Ctx := { x with smp := s.sampleOf x } with hy
  have hres : x.lanes.map (fun l => (l, f y l)) = x.lanes.map (fun l => (l, some (r l))) :=
    List.map_congr_left (fun l hl => by rw [hf l hl])
  have hchk : vecChecks y s u d srcs (lanes y) (x.lanes.map (fun l => (l, some (r l)))) = .ok s := vecChecks_pass he hr
  have hbody : vecBody s u d srcs (lanes y) pre f y
      = .done ((pre s).updCoh x.ref (y.putLanes d (x.lanes.map (fun l => (l, r l))))) (y.latchVec d (x.lanes.map (fun l => (l, r l)))) := by
    have hl : y.lanes = x.lanes := rfl
    simp only [vecBody, hl, hres, hchk, okRes_some]
    rfl
  have hnew : ((pre s).updCoh x.ref (y.putLanes d (x.lanes.map (fun l => (l, r l))))).coh x.ref
      = some (y.putLanes d (x.lanes.map (fun l => (l, r l))) x.coh) := by
    simp [State.coh_updCoh, hcp]
  obtain ⟨m, hm⟩ : ∃ m, y.putLanes d (x.lanes.map (fun l => (l, r l))) x.coh = { x.coh with lanes := m } := by
    rw [Ctx.putLanes_eq]
    exact foldUpd_rest _ _ _
  obtain ⟨t, ht, hpass, hkeep⟩ := word_done (body := fun x => vecBody s u d srcs (lanes x) pre f x) h hbody hnew
    (by rw [hm]; exact hpath) (by rw [hm]) (by rw [hm])
  have hthr (l : Nat) : s.thr x.ref l = x.coh.thread l := by simp [State.thr, hcoh]
  have hthp (l : Nat) : (pre s).thr x.ref l = s.thr x.ref l := by simp [State.thr, hpc]
  refine ⟨t, _, ht, hpass, ?_, ?_, ?_, ?_⟩
  · intro l hl hs hk
    have h1 := State.holdsLane_keeps (State.holdsLane_putLanes (s := pre s) (s.sampleOf x) d r hcp l hl (by rw [hthp]; exact hs) hk) hkeep
    cases d with
    | v n => simpa only [State.holdsLane, State.vAt, hthp] using h1
    | seed => simpa only [State.holdsLane, State.seedAt, hthp] using h1
    | _ => trivial
  · intro l hl hs hk hm
    rw [hthr] at hs
    obtain ⟨w, hw⟩ := Option.isSome_iff_exists.1 hs
    simp only [latchLane, AMap.get]
    rw [find_latchVec, if_pos hl]
    have : y.coh.thread l = some w := hw
    have hm' : y.dxMode ≠ .tonly := hm
    rw [this]
    cases hmode : y.dxMode <;> simp_all [Ctx.latchEl]
  · intro l hl
    simp only [latchLane, AMap.get]
    rw [find_latchVec, if_neg hl]
    rfl
  · refine State.keeps_trans (State.keeps_mono hpre (fun _ h => Or.inr (Or.inr h))) ?_
    exact State.keeps_trans (State.keeps_mono ((pre s).keeps_putLanes x _ d r) (fun _ h => Or.inr (Or.inl h)))
      (State.keeps_mono hkeep (fun _ => Or.inl))

theorem vecWord_done {s : State} {x : Ctx} {c : Ctl} {u : Nat} {d : Dst} {srcs : List Src} {f : Ctx → Nat → Option LRes} {r : Nat → LRes}
    (h : s.issues x c) (he : s.errIn = []) (hf : ∀ l ∈ x.lanes, f { x with smp := s.sampleOf x } l = some (r l))
    (hr : x.lanesRun d r) : s.vecDone x c d (vecWord c s u d srcs f) r := vecBody_done h he (s.keeps_refl _) (fun _ => rfl) hf hr

/-- A word that answers a mask completes with it. -/
theorem maskWord_done {s : State} {x : Ctx} {c : Ctl} {u : Nat} {d : Dst} {srcs : List Src} {f : Ctx → Nat → Option LRes} {fin : AMap LRes → W64}
    {r : Nat → LRes} (h : s.issues x c) (he : s.errIn = []) (hf : ∀ l ∈ x.lanes, f { x with smp := s.sampleOf x } l = some (r l))
    (hr : x.lanesRun d r) : s.scaDone x c d (maskWord c s u d srcs f fin) (fin (x.lanes.map (fun l => (l, r l)))) := by
  refine word_sca h ?_
  set y : Ctx := { x with smp := s.sampleOf x } with hy
  have hres : y.lanes.map (fun l => (l, f y l)) = x.lanes.map (fun l => (l, some (r l))) :=
    List.map_congr_left (fun l hl => by rw [hf l hl])
  have hchk : vecChecks y s u d srcs y.lanes (x.lanes.map (fun l => (l, some (r l)))) = .ok s := vecChecks_pass he hr
  simp only [hres, hchk, okRes_some]
  rfl

end Sys2Proof.Machine
end

