-- ==== Sys2Proof/Tests/Slice0.lean ====
section
/-! SUPPORT. Tests of the model on fixed values: words written out from the encoding tables, ill-formed terms that the check of
WellFormed refuses, single steps with the results that the spec works out, and for each statement states and operands that meet
its hypotheses. -/

namespace Sys2Proof.Tests

open Sys2Proof Sys2Proof.Machine

set_option Elab.async false

/-- No wait, no counter, no literal. -/
def c : Ctl := ⟨0#8, none, none⟩
/-- SE with a counter. -/
def on (n : BitVec 3) : Ctl := ⟨0#8, some n, none⟩

/-! ## Decoding -/

/-- The decoder reads every word of a list as the instruction that stands beside it. -/
def reads (l : List (Nat × Instr)) : Bool := l.all (fun p => decodeTableWord 64 p.1 == some p.2)

/-- Words of the scalar rows, written out from the encoding tables of the spec. -/
def scalarWords0 : List (Nat × Instr) := [
  (0x00000101409C0000, .sadd c (.s 1#6) (.s 2#6) (.int 0#6)),
  (0x00000501409C0000, .ssub c (.s 1#6) (.s 2#6) (.int 0#6)),
  (0x00000901409C0000, .smul c (.s 1#6) (.s 2#6) (.int 0#6)),
  (0x00000D45519EF001, .smin c true (.b 5#6) (.b 6#6) (.int 47#6)),
  (0x0000113F68100000, .smax c false (.s 63#6) (.special 0#5) (.s 0#6)),
  (0x0000150140903000, .sand c (.s 1#6) (.s 2#6) (.s 3#6)),
  (0x0000190140903000, .sor c (.s 1#6) (.s 2#6) (.s 3#6)),
  (0x00001D0140903000, .sxor c (.s 1#6) (.s 2#6) (.s 3#6)),
  (0x0000210140903000, .sandn c (.s 1#6) (.s 2#6) (.s 3#6)),
  (0x0000260081C00000, .snot c .nwb (.latch 7#3)),
  (0x0000290140903000, .sshl c (.s 1#6) (.s 2#6) (.s 3#6)),
  (0x00002D0140903000, .sshr c (.s 1#6) (.s 2#6) (.s 3#6))]
def scalarWords1 : List (Nat × Instr) := [
  (0x0000310140903000, .ssar c (.s 1#6) (.s 2#6) (.s 3#6)),
  (0x0000359740800000, .smov c (.k 7#3) (.s 2#6)),
  (0x00003901409FE410, .ssel c (.s 1#6) (.s 2#6) (.fp 14#4) (.s 4#6)),
  (0x00003D0140800000, .spopc c (.s 1#6) (.s 2#6)),
  (0x0000410140800000, .sffs c (.s 1#6) (.s 2#6)),
  (0x0000450140800000, .sfls c (.s 1#6) (.s 2#6)),
  (0x000049013F9D7001, .srdlane c true (.s 1#6) (.v 254#8) (.int 23#6)),
  (0x0000610140903000, .scmp c .eq false (.s 1#6) (.s 2#6) (.s 3#6)),
  (0x0000650140903001, .scmp c .ne true (.s 1#6) (.s 2#6) (.s 3#6)),
  (0x0000690140903000, .scmp c .lt false (.s 1#6) (.s 2#6) (.s 3#6)),
  (0x00006D0140903001, .scmp c .le true (.s 1#6) (.s 2#6) (.s 3#6)),
  (0x0000710140903000, .scmp c .gt false (.s 1#6) (.s 2#6) (.s 3#6))]
def scalarWords2 : List (Nat × Instr) := [
  (0x0000750140903001, .scmp c .ge true (.s 1#6) (.s 2#6) (.s 3#6))]
theorem test_scalar_words_decode0 : reads scalarWords0 = true := by decide
theorem test_scalar_words_decode1 : reads scalarWords1 = true := by decide
theorem test_scalar_words_decode2 : reads scalarWords2 = true := by decide

/-- Words of the integer rows, written out from the encoding tables of the spec. -/
def integerWords0 : List (Nat × Instr) := [
  (0x00010001008FF009, .iadd c true .i8 (.v 1#8) (.v 2#8) (.v 255#8)),
  (0x00010401008FF00D, .isub c true .n8 (.v 1#8) (.v 2#8) (.v 255#8)),
  (0x00010801008FF011, .imul c true .i4 (.v 1#8) (.v 2#8) (.v 255#8)),
  (0x00010C0100803004, .imulh c .n32 (.v 1#8) (.v 2#8) (.v 3#8)),
  (0x0001100100803011, .imad c true (.v 1#8) (.v 2#8) (.v 3#8) (.v 4#8)),
  (0x0001140100803004, .idiv c .n32 (.v 1#8) (.v 2#8) (.v 3#8)),
  (0x0001180100803000, .irem c .i32 (.v 1#8) (.v 2#8) (.v 3#8)),
  (0x00011C0100803010, .imin c .i4 (.v 1#8) (.v 2#8) (.v 3#8)),
  (0x000120010080300C, .imax c .n8 (.v 1#8) (.v 2#8) (.v 3#8)),
  (0x0001240100800009, .iabs c true .i8 (.v 1#8) (.v 2#8)),
  (0x0001280100803000, .vand c (.v 1#8) (.v 2#8) (.v 3#8)),
  (0x00012C0100803000, .vor c (.v 1#8) (.v 2#8) (.v 3#8))]
def integerWords1 : List (Nat × Instr) := [
  (0x0001300100803000, .vxor c (.v 1#8) (.v 2#8) (.v 3#8)),
  (0x0001340100803000, .vandn c (.v 1#8) (.v 2#8) (.v 3#8)),
  (0x000139B800800000, .vnot c .seed (.v 2#8)),
  (0x00013C0100803000, .shl c (.v 1#8) (.v 2#8) (.v 3#8)),
  (0x0001400100803000, .shr c (.v 1#8) (.v 2#8) (.v 3#8)),
  (0x0001440100803000, .sar c (.v 1#8) (.v 2#8) (.v 3#8)),
  (0x0001480100803000, .rot c (.v 1#8) (.v 2#8) (.v 3#8)),
  (0x00014C0100803001, .bfe c true (.v 1#8) (.v 2#8) (.v 3#8)),
  (0x0001500100803010, .bfi c (.v 1#8) (.v 2#8) (.v 3#8) (.v 4#8)),
  (0x0001540100800000, .popc c (.v 1#8) (.v 2#8)),
  (0x0001580100800000, .clz c (.v 1#8) (.v 2#8)),
  (0x00015C0100800000, .brev c (.v 1#8) (.v 2#8))]
def integerWords2 : List (Nat × Instr) := [
  (0x0001610100803000, .icmp c .eq false (.s 1#6) (.v 2#8) (.v 3#8)),
  (0x0001650100803001, .icmp c .ne true (.s 1#6) (.v 2#8) (.v 3#8)),
  (0x0001690100803000, .icmp c .lt false (.s 1#6) (.v 2#8) (.v 3#8)),
  (0x00016D0100803001, .icmp c .le true (.s 1#6) (.v 2#8) (.v 3#8)),
  (0x0001710100803000, .icmp c .gt false (.s 1#6) (.v 2#8) (.v 3#8)),
  (0x0001750100803001, .icmp c .ge true (.s 1#6) (.v 2#8) (.v 3#8)),
  (0x0001780240404019, .sel c true (.v 2#8) (.s 1#6) (.v 4#8) (.v 6#8)),
  (0x00017C0201000770, .mov c false (some .i4) (.v 2#8) (.v 4#8)),
  (0x00017C0201000001, .mov c true none (.v 2#8) (.v 4#8)),
  (0x0001800240404000, .movs c false (.v 2#8) (.s 1#6) (.v 4#8))]
theorem test_integer_words_decode0 : reads integerWords0 = true := by decide
theorem test_integer_words_decode1 : reads integerWords1 = true := by decide
theorem test_integer_words_decode2 : reads integerWords2 = true := by decide

/-- Words of the float rows, written out from the encoding tables of the spec. -/
def floatWords0 : List (Nat × Instr) := [
  (0x00020001009F0001, .fadd c .rtz (.v 1#8) (.v 2#8) (.fp 0#4)),
  (0x00020401009F1002, .fsub c .rup (.v 1#8) (.v 2#8) (.fp 1#4)),
  (0x00020801009F2003, .fmul c .rdn (.v 1#8) (.v 2#8) (.fp 2#4)),
  (0x00020C0100803013, .ffma c .rdn (.v 1#8) (.v 2#8) (.v 3#8) (.v 4#8)),
  (0x0002100100803000, .fmin c (.v 1#8) (.v 2#8) (.v 3#8)),
  (0x0002140100803000, .fmax c (.v 1#8) (.v 2#8) (.v 3#8)),
  (0x0002180100803002, .fdiv c .rup (.v 1#8) (.v 2#8) (.v 3#8)),
  (0x00021C0100800001, .fsqrt c .rtz (.v 1#8) (.v 2#8)),
  (0x0002210100803000, .fcmp c .eq (.s 1#6) (.v 2#8) (.v 3#8)),
  (0x0002250100803000, .fcmp c .ne (.s 1#6) (.v 2#8) (.v 3#8)),
  (0x0002290100803000, .fcmp c .lt (.s 1#6) (.v 2#8) (.v 3#8)),
  (0x00022D0100803000, .fcmp c .le (.s 1#6) (.v 2#8) (.v 3#8))]
def floatWords1 : List (Nat × Instr) := [
  (0x0002310100803000, .fcmp c .gt (.s 1#6) (.v 2#8) (.v 3#8)),
  (0x0002350100803000, .fcmp c .ge (.s 1#6) (.v 2#8) (.v 3#8)),
  (0x0002390100803000, .fcmp c .ord (.s 1#6) (.v 2#8) (.v 3#8)),
  (0x00023D0100803000, .fcmp c .uno (.s 1#6) (.v 2#8) (.v 3#8)),
  (0x0002400100800003, .frnd c .rdn (.v 1#8) (.v 2#8)),
  (0x0002440100800000, .fclass c (.v 1#8) (.v 2#8)),
  (0x00024801009D3001, .fscl c .rtz (.v 1#8) (.v 2#8) (.int 19#6)),
  (0x00024C0100803010, .fdot2 c .rne (.v 1#8) (.v 2#8) (.v 3#8) (.v 4#8)),
  (0x0002500100803012, .fdot4 c .rup (.v 1#8) (.v 2#8) (.v 3#8) (.v 4#8))]
theorem test_float_words_decode0 : reads floatWords0 = true := by decide
theorem test_float_words_decode1 : reads floatWords1 = true := by decide

/-- Words of the convert rows, written out from the encoding tables of the spec. -/
def convertWords0 : List (Nat × Instr) := [
  (0x000300010086B76D, .cvt c .rtz ⟨.i8, false, true, true, some .i8⟩ (.v 1#8) (.v 2#8)),
  (0x0003040100817000, .cvts c ⟨.e4m3, true, false, false, none⟩ (.v 1#8) (.v 2#8)),
  (0x0003080100803748, .pack c (.v 1#8) (.v 2#8) (.v 3#8) (.int 18#6)),
  (0x00030C01009D2000, .unpk c (.v 1#8) (.v 2#8) (.int 18#6)),
  (0x0083200100800000, .frcp (on 0#3) (.v 1#8) (.v 2#8)),
  (0x0093240100800000, .frsq (on 1#3) (.v 1#8) (.v 2#8)),
  (0x00A3280100800000, .fexp2 (on 2#3) (.v 1#8) (.v 2#8)),
  (0x00B32C0100800000, .flog2 (on 3#3) (.v 1#8) (.v 2#8)),
  (0x00C3300100800000, .fsin (on 4#3) (.v 1#8) (.v 2#8)),
  (0x00D3340100800000, .fcos (on 5#3) (.v 1#8) (.v 2#8)),
  (0x00E3380100800000, .ftanh (on 6#3) (.v 1#8) (.v 2#8))]
theorem test_convert_words_decode0 : reads convertWords0 = true := by decide

/-- Words of the lane rows, written out from the encoding tables of the spec. -/
def laneWords0 : List (Nat × Instr) := [
  (0x0004000201006000, .shfl c .idx false (.v 2#8) (.v 4#8) (.v 6#8)),
  (0x0004000201006005, .shfl c .up true (.v 2#8) (.v 4#8) (.v 6#8)),
  (0x0004000201006002, .shfl c .down false (.v 2#8) (.v 4#8) (.v 6#8)),
  (0x0004000201006007, .shfl c .xor true (.v 2#8) (.v 4#8) (.v 6#8)),
  (0x0004050101000000, .vote c .ballot (.s 1#6) (.v 4#8)),
  (0x0004050101000001, .vote c .any (.s 1#6) (.v 4#8)),
  (0x0004050101000002, .vote c .all (.s 1#6) (.v 4#8)),
  (0x0004050101000003, .vote c .eq (.s 1#6) (.v 4#8)),
  (0x0004080140800001, .mpref c true (.v 1#8) (.s 2#6)),
  (0x00040C0201102001, .lbcast c true (.v 2#8) (.v 4#8) (.s 2#6)),
  (0x0004100201000000, .lreduce c .add (.v 2#8) (.v 4#8)),
  (0x0004110201000001, .lreduce c .min (.s 2#6) (.v 4#8))]
def laneWords1 : List (Nat × Instr) := [
  (0x0004114201000002, .lreduce c .max (.b 2#6) (.v 4#8)),
  (0x000411B801000003, .lreduce c .or .seed (.v 4#8))]
theorem test_lane_words_decode0 : reads laneWords0 = true := by decide
theorem test_lane_words_decode1 : reads laneWords1 = true := by decide

/-- Words of the matrix rows, written out from the encoding tables of the spec. -/
def matrixWords0 : List (Nat × Instr) := [
  (0x0005018100803761, .mshape c true 1#4 (.v 2#8) (.v 3#8) (.int 24#6)),
  (0x0005058F00000000, .mzero c 15#4),
  (0x0005098100000000, .mid c 1#4),
  (0x00050D8100903614, .mld c .frame 5#7 1#4 (.v 2#8) (.s 3#6)),
  (0x000510FF00903610, .mst c .window 127#7 (.v 2#8) (.s 3#6) 4#4),
  (0x00051401609D000C, .mget c (.v 1#8) 2#4 (.int 16#6) (.v 3#8)),
  (0x00051981009D000C, .mput c 1#4 (.v 2#8) (.int 16#6) (.v 3#8)),
  (0x00051D8160983001, .mmul c true false 1#4 2#4 3#4),
  (0x0005218160983002, .mmult c false true 1#4 2#4 3#4),
  (0x0005258160983003, .mtmul c true true 1#4 2#4 3#4),
  (0x0005298160983000, .madd c 1#4 2#4 3#4),
  (0x00052D8160983000, .msub c 1#4 2#4 3#4)]
def matrixWords1 : List (Nat × Instr) := [
  (0x0005358160983000, .mhad c 1#4 2#4 3#4),
  (0x0005318160903000, .mscal c 1#4 2#4 (.s 3#6)),
  (0x0005398160800000, .mtr c 1#4 2#4),
  (0x00053D81609D9001, .mcvt c true .f4 1#4 2#4),
  (0x0005418160800000, .mring c .n 1#4 2#4),
  (0x0005418160800001, .mring c .e 1#4 2#4),
  (0x0005418160800002, .mring c .s 1#4 2#4),
  (0x0005418160800003, .mring c .w 1#4 2#4),
  (0x0006018160903000, .minv c 1#4 2#4 3#6),
  (0x00060D8160903000, .mchol c 1#4 2#4 3#6),
  (0x0006058160903010, .mlu c 1#4 2#4 3#6 4#8),
  (0x0006098160983010, .mlus c 1#4 2#4 3#4 (.v 4#8))]
def matrixWords2 : List (Nat × Instr) := [
  (0x0006118160800000, .mexp c 1#4 2#4),
  (0x0006158160800000, .mtrq c 1#4 2#4),
  (0x0006180160800000, .mnrm1 c (.v 1#8) 2#4),
  (0x0006218160903000, .minvT c 1#4 2#4 3#6),
  (0x00062D8160903000, .mcholT c 1#4 2#4 3#6),
  (0x0006258160903010, .mluT c 1#4 2#4 3#6 4#8)]
theorem test_matrix_words_decode0 : reads matrixWords0 = true := by decide
theorem test_matrix_words_decode1 : reads matrixWords1 = true := by decide
theorem test_matrix_words_decode2 : reads matrixWords2 = true := by decide

/-- Words of the scratch rows, written out from the encoding tables of the spec. -/
def scratchWords0 : List (Nat × Instr) := [
  (0x0097300100903600, .lds (on 1#3) ⟨.i4, .fe, .base, 0x80#8⟩ (.v 1#8) (.v 2#8) (.s 3#6)),
  (0x00A7540164803FFE, .ldc (on 2#3) ⟨.i32, .poll, .ring, 0xFF#8⟩ (.v 1#8) (.k 2#3) (.v 3#8)),
  (0x00B79402009031FD, .ldd (on 3#3) ⟨.f64, .none, .scaled, 0x7F#8⟩ (.v 2#8) (.v 2#8) (.s 3#6)),
  (0x00C7B80100903000, .ldp (on 4#3) ⟨.raw, .none, .base, 0#8⟩ (.v 1#8) (.v 2#8) (.s 3#6)),
  (0x0097080100903800, .lds (on 1#3) ⟨.n32, .feClr, .base, 0#8⟩ (.v 1#8) (.v 2#8) (.s 3#6)),
  (0x000741400040200C, .sts c ⟨.fe, .base, 0x40#7⟩ (.v 1#8) (.v 2#8) (.v 3#8)),
  (0x000744BF6440200E, .stc c ⟨.fill, .ring, 0x3F#7⟩ (.k 1#3) (.v 2#8) (.v 3#8)),
  (0x000748010040200D, .std c ⟨.none, .scaled, 1#7⟩ (.v 1#8) (.v 2#8) (.v 3#8)),
  (0x00074C000040240C, .stp c ⟨.none, .base, 0#7⟩ (.v 1#8) (.v 2#8) (.s 3#6))]
theorem test_scratch_words_decode0 : reads scratchWords0 = true := by decide

/-- Words of the bulk rows, written out from the encoding tables of the spec. -/
def bulkWords0 : List (Nat × Instr) := [
  (0x000801014093B6B7, .bcp c true true 1#6 (.s 2#6) (.s 59#6) (.special 13#5)),
  (0x000805014093E410, .bcpm c false 1#6 (.s 2#6) 0x3E#6 (.s 4#6)),
  (0x0008090140903412, .bfill c true 1#6 (.s 2#6) (.s 3#6) (.s 4#6)),
  (0x0008090100103411, .bfillEmpty c 1#6 (.s 3#6) (.s 4#6)),
  (0x00080C0040903000, .bpref c (.s 2#6) (.s 3#6)),
  (0x0008100040903000, .bobj c (.s 2#6) (.s 3#6)),
  (0x0008140040800000, .barv c (.s 2#6)),
  (0x0008180040903000, .bwait c (.s 2#6) (.s 3#6)),
  (0x00081C0000000000, .bcommit c),
  (0x0008200075400000, .bwaitn c (.int 21#6)),
  (0x00882541001D1000, .bquery (on 0#3) (.b 1#6) .batches),
  (0x00882501001D2000, .bquery (on 0#3) (.s 1#6) .slots)]
def bulkWords1 : List (Nat × Instr) := [
  (0x00882501409D0000, .bquery (on 0#3) (.s 1#6) (.obj (.s 2#6)))]
theorem test_bulk_words_decode0 : reads bulkWords0 = true := by decide
theorem test_bulk_words_decode1 : reads bulkWords1 = true := by decide

/-- Words of the turret rows, written out from the encoding tables of the spec. -/
def turretWords0 : List (Nat × Instr) := [
  (0x00F9000240404752, .gath (on 7#3) .a64 .f64 (.v 2#8) (.s 1#6) (.v 4#8)),
  (0x0009050140803413, .gaths c true true 1#6 (.s 2#6) (.v 3#8) (.s 4#6)),
  (0x0009080040803015, .scat c .sx (.s 2#6) (.v 3#8) (.v 5#8)),
  (0x00090C0040803014, .scata c .uns (.s 2#6) (.v 3#8) (.v 5#8)),
  (0x00E9118140804002, .ldspl (on 6#3) .a64 1#4 (.s 2#6) (.v 4#8)),
  (0x00D9150164803010, .hacc (on 5#3) 1#6 2#3 (.v 3#8) (.v 4#8))]
theorem test_turret_words_decode0 : reads turretWords0 = true := by decide

/-- Words of the sync rows, written out from the encoding tables of the spec. -/
def syncWords0 : List (Nat × Instr) := [
  (0x000A000000806C02, .atom c .add true false ⟨.mem, .coh, .rlx⟩ none (.v 2#8) (.v 6#8)),
  (0x009A040800806C9A, .atom (on 1#3) .min true false ⟨.mem, .blk, .acq⟩ (some (.v 8#8)) (.v 2#8) (.v 6#8)),
  (0x000A080000806D23, .atom c .max true true ⟨.mem, .core, .rel⟩ none (.v 2#8) (.v 6#8)),
  (0x009A0C0800806DBA, .atom (on 1#3) .and true false ⟨.mem, .quad, .ar⟩ (some (.v 8#8)) (.v 2#8) (.v 6#8)),
  (0x000A100000806E42, .atom c .or true false ⟨.mem, .clus, .sc⟩ none (.v 2#8) (.v 6#8)),
  (0x009A140800806E8A, .atom (on 1#3) .xor true false ⟨.mem, .die, .rlx⟩ (some (.v 8#8)) (.v 2#8) (.v 6#8)),
  (0x000A180000806F12, .atom c .exch true false ⟨.mem, .pkg, .acq⟩ none (.v 2#8) (.v 6#8)),
  (0x009A1C0800806FAA, .atom (on 1#3) .fadd true false ⟨.mem, .pod, .rel⟩ (some (.v 8#8)) (.v 2#8) (.v 6#8)),
  (0x000A200000806C32, .atom c .fmin true false ⟨.mem, .coh, .ar⟩ none (.v 2#8) (.v 6#8)),
  (0x009A240800806CCA, .atom (on 1#3) .fmax true false ⟨.mem, .blk, .sc⟩ (some (.v 8#8)) (.v 2#8) (.v 6#8)),
  (0x00AA400300404A88, .cas (on 2#3) false ⟨.die, .die, .rlx⟩ (.v 3#8) (.v 1#8) (.v 4#8)),
  (0x00AA44040040004A, .ldx (on 2#3) true ⟨.core, .coh, .sc⟩ (.v 4#8) (.v 1#8))]
def syncWords1 : List (Nat × Instr) := [
  (0x00AA49440040602A, .stx (on 2#3) true ⟨.core, .coh, .rel⟩ (.b 4#6) (.v 1#8) (.v 6#8)),
  (0x000A4C00000003C0, .fence c .pod .sc),
  (0x000A500000000000, .bar c),
  (0x000A550100000000, .bara c (.s 1#6)),
  (0x000A580040400000, .barw c (.s 1#6)),
  (0x000A5C0040400200, .sbar c .clus (.s 1#6)),
  (0x000A5C0000000001, .sbarGrid c),
  (0x000A600002400002, .nsend c .s (.v 9#8)),
  (0x00BA640A00000003, .nrecv (on 3#3) .w (.v 10#8)),
  (0x000A680000000000, .yield c),
  (0x000A6C0076400000, .sleep c (.int 25#6))]
theorem test_sync_words_decode0 : reads syncWords0 = true := by decide
theorem test_sync_words_decode1 : reads syncWords1 = true := by decide

/-- Words of the control rows, written out from the encoding tables of the spec. -/
def controlWords0 : List (Nat × Instr) := [
  (0x000B000000000000, .nop c),
  (0x000B05FF003FC000, .bra c 0x7FFFC#19),
  (0x000B080140806FFC, .brc c 0x406#19 1023#10 (.s 2#6)),
  (0x000B280140806FFC, .brcBlk c 0x406#19 1023#10 (.s 2#6)),
  (0x000B2C0140806FFC, .brcBlkKeep c 0x406#19 1023#10 (.s 2#6)),
  (0x000B0C0042400000, .brx c (.s 9#6)),
  (0x000B100004004000, .call c 4#19 16#8),
  (0x000B140004000000, .ret c (.v 16#8)),
  (0x000B180000000000, .join c),
  (0x000B1C0000000000, .regroup c),
  (0x000B200000000000, .exit c),
  (0x000B240041008050, .spawn c (.s 4#6) 8#8 (.v 20#8))]
theorem test_control_words_decode0 : reads controlWords0 = true := by decide

/-- Words of the dual rows, written out from the encoding tables of the spec. -/
def dualWords0 : List (Nat × Instr) := [
  (0x000C000100000000, .dx .prop 1#4),
  (0x000C000200000001, .dx .stop 2#4),
  (0x000C000400000002, .dx .tonly 4#4),
  (0x000C000800000003, .dx .seed 8#4),
  (0x000C040600C00003, .tget c 3#2 (.v 6#8) (.v 3#8)),
  (0x000C098161400001, .tset c 1#2 (.m 1#4) (.m 5#4)),
  (0x000C0D830000F000, .tzero c 15#4 (.m 3#4)),
  (0x000C100100000002, .tseed c 2#2 (.v 1#8))]
theorem test_dual_words_decode0 : reads dualWords0 = true := by decide

/-- Words of the handler rows, written out from the encoding tables of the spec. -/
def handlerWords0 : List (Nat × Instr) := [
  (0x009D0104401DB000, .finf (on 1#3) (.s 4#6) (.s 0#6) 11#4),
  (0x00AD040640004001, .frdv (on 2#3) true 0#3 (.v 6#8) (.s 0#6) (.v 4#8)),
  (0x00AD0406401A4000, .frdv (on 2#3) false 0#3 (.v 6#8) (.s 0#6) (.special 4#5)),
  (0x000D09B840006000, .fwrv c false 0#3 .seed (.s 0#6) (.v 6#8)),
  (0x000D080340006010, .fwrv c false 4#3 (.v 3#8) (.s 0#6) (.v 6#8)),
  (0x009D0D0440197000, .frds (on 1#3) (.s 4#6) (.s 0#6) (.k 7#3)),
  (0x000D119140103000, .fwrs c (.k 1#3) (.s 0#6) (.s 3#6)),
  (0x009D158240183004, .frdm (on 1#3) 1#3 (.m 2#4) (.s 0#6) 3#4),
  (0x009D140240183001, .frdm (on 1#3) 0#3 (.v 2#8) (.s 0#6) 3#4),
  (0x000D198240183008, .fwrm c 2#3 2#4 (.s 0#6) 3#4),
  (0x000D1C0040000000, .frsmRetry c (.s 0#6)),
  (0x000D1C0040000001, .frsmSkip c (.s 0#6))]
def handlerWords1 : List (Nat × Instr) := [
  (0x000D1C0040105002, .frsmPc c (.s 0#6) (.s 5#6)),
  (0x000D1C0040000003, .frsmStep c (.s 0#6)),
  (0x000D200040102000, .fkilLanes c (.s 0#6) (.s 2#6)),
  (0x000D200040000001, .fkilCoh c (.s 0#6)),
  (0x000D200040000002, .fkilGrid c (.s 0#6)),
  (0x000D240040000000, .frel c (.s 0#6))]
theorem test_handler_words_decode0 : reads handlerWords0 = true := by decide
theorem test_handler_words_decode1 : reads handlerWords1 = true := by decide

/-- Words of the system rows, written out from the encoding tables of the spec. -/
def systemWords0 : List (Nat × Instr) := [
  (0x008E0109002FC000, .srd (on 0#3) (.s 9#6) 0x2FC#10),
  (0x000E040042523000, .swr c 0x123#10 (.s 9#6)),
  (0x000E080000000000, .brk c),
  (0x000E0C00000FF000, .trap c 0xFF#8),
  (0x000E100040C00000, .tlbinvPage c (.s 3#6)),
  (0x000E100000000001, .tlbinvPasid c),
  (0x000E140040D04000, .icinvRange c (.s 3#6) (.s 4#6)),
  (0x000E140000000001, .icinvAll c),
  (0x008E19050007F001, .mbxr (on 0#3) true (.s 5#6) 15#4 7#3),
  (0x000E1C0041817000, .mbxw c false 2#4 7#3 (.s 6#6)),
  (0x000E200075400000, .psamp c (some (.int 21#6))),
  (0x000E200000000000, .psamp c none)]
def systemWords1 : List (Nat × Instr) := [
  (0x000E240000000000, .ckpt c)]
theorem test_system_words_decode0 : reads systemWords0 = true := by decide
theorem test_system_words_decode1 : reads systemWords1 = true := by decide


/-! ## States -/

/-- A cohort of one thread, in lane 0, that stands at a NOP: the grid is 2, the block 1. -/
def nop : State := State.reset.withFetchWord 64 0x000B000000000000
/-- The cohort that issues there. -/
def me : CohRef := ⟨1, 0⟩

/-- The issuer of a state; one of no meaning where there is none. -/
def at' (s : State) : Ctx :=
  match s.ctx with
  | some x => x
  | none => ⟨⟨0, 0⟩, fetchGrid, fetchBlock s 0 ⟨0#64, [], 1, none⟩, fetchCohort ⟨0#64, [], 1, none⟩, mkPath 0#64 0#32 none, false, none⟩

/-- What `State.issues` asks for, as a check. -/
def issuesB (s : State) (c : Ctl) : Bool :=
  s.ctx.isSome && ((at' s).counted || (at' s).coh.waitOk c.wait) && (match c.set with
    | some n => (at' s).coh.ctr n.toNat != 63#6 || (at' s).counted
    | none => true) && (scaCheck (at' s) s).isNone

theorem issues_of {s : State} {c : Ctl} (h : issuesB s c = true) : s.issues (at' s) c := by
  unfold issuesB at h
  unfold State.issues
  cases hs : s.ctx with
  | none => simp [hs] at h
  | some x =>
    have hx : at' s = x := by simp [at', hs]
    simp only [hx, hs, Option.isSome_some, Bool.true_and, Bool.and_eq_true, Bool.or_eq_true] at h ⊢
    refine ⟨trivial, h.1.1, fun n hn => ?_, h.2⟩
    have := h.1.2
    rw [hn] at this
    simpa using this

/-- A vector register of the thread of lane 0. -/
def withV (s : State) (n : Nat) (v : W32) (t : Tag) : State := s.updCoh me (fun k => k.updThread 0 (fun h => h.setV n ⟨v, t, false, [], []⟩))
/-- A poisoned one. -/
def withPsn (s : State) (n : Nat) (v : W32) (t : Tag) : State := s.updCoh me (fun k => k.updThread 0 (fun h => h.setV n ⟨v, t, true, [], []⟩))
/-- A matrix register of that thread. -/
def withM (s : State) (n : Nat) (m : MReg) : State := s.updCoh me (fun k => k.updThread 0 (fun h => h.setM n m))
/-- A scalar register of the cohort. -/
def withS (s : State) (n : Nat) (v : W64) : State := s.updCoh me (fun k => k.setS n v)
/-- A ring register of the cohort. -/
def withK (s : State) (n : Nat) (v : W64) : State := s.updCoh me (fun k => k.setK n v)
/-- The block changed. -/
def withB (s : State) (f : Block → Block) : State :=
  match s.block 1 with
  | some b => s.setBlock 1 (f b)
  | none => s
/-- The grid changed. -/
def withG (s : State) (f : Grid → Grid) : State :=
  match s.grid 2 with
  | some g => s.setGrid 2 (f g)
  | none => s
/-- The word stands behind a prefix. -/
def behindDx (s : State) (m : DxMode) (k : BitVec 4) : State := s.updCoh me (fun c => { c with pa := c.pa.map (fun p => { p with cl := p.cl.map (fun l => { l with dx := some (m, k) }) }) })

/-- The state that an outcome leaves. -/
def after (o : Out) (d : State) : State :=
  match o with
  | .next t => t
  | _ => d

/-- v2 = 3.0, v3 = 0.5 in F32; v4:v5 = 2.0 in F64; v6 in H16x2, v8 in E4M3x4; v10 in I32. -/
def fps : State :=
  let s := withV (withV (withV (withV nop 2 0x40400000#32 .f32) 3 0x3F000000#32 .f32) 4 0#32 .f64) 5 0x40000000#32 .f64
  withV (withV (withV s 6 0x3C003C00#32 .h16) 8 0x38383838#32 .e4m3) 10 2#32 .i32

/-! ## A machine with memory -/

/-- The block has 4,096 bytes of program scratch and frames of 640 bytes, the grid a grant of the die-wide scratchpad, and a cached leaf translates the first page, for the
cluster of core 0 and for the I/O die. -/
def labOf (w : Nat) : State :=
  let s := withB (State.reset.withFetchWord 64 w) (fun b => { b with cfg := { b.cfg with sb := 4096, pfb := 640 }, size := 8192 })
  let s := withG s (fun g => { g with lrec := { g.lrec with dwbase := 0, dwsize := 4096 } })
  { withK s 0 0x0000004000000000#64 with tlb := [⟨0, 0#20, 0#64, 16, 0x500EF#64⟩, ⟨16, 0#20, 0#64, 16, 0x500EF#64⟩] }

def lab : State := labOf 0x000B000000000000
/-- The issuing path in a wait. -/
def waits (s : State) (k : WaitKind) (num : Nat) (ended : Bool := false) : State :=
  s.updCoh me (fun c => { c with pa := c.pa.map (fun p => { p with wait := some ⟨k, ended, 0, num, []⟩ }) })
def myPath : PathRef := ⟨1, 0, false⟩

theorem noWatch_of {s : State} {x : Ctx} (h : (s.core x.blk.coreId).wpb = []) : noWatch s x := fun n => by simp [h, AMap.get, AMap.find]

/-- `plainAccs` as a check. -/
def plainB (s : State) (as : List Acc) : Bool :=
  decide (as.Pairwise (fun a b => a.overlaps b = false)) && as.all (fun a => a.z != 0 && (match a.store with
      | .hblk b => (s.block b).isSome
      | _ => true)
    && (granules 16 a.addr a.z).all (fun g => !(s.objs a.store).contains g)
    && as.all (fun b => !(a.psn && !b.psn && a.store == b.store) || (granules a.store.pg a.addr a.z).all (fun g => !(granules b.store.pg b.addr b.z).contains g)))

theorem plain_of {s : State} {as : List Acc} (h : plainB s as = true) : plainAccs s as := by
  simp only [plainB, Bool.and_eq_true, decide_eq_true_eq, List.all_eq_true, bne_iff_ne] at h
  refine ⟨h.1, fun a ha => ?_⟩
  obtain ⟨⟨⟨h1, h2⟩, h3⟩, h4⟩ := h.2 a ha
  refine ⟨h1, fun b hb => by rw [hb] at h2; exact h2, fun g hg => by simpa using h3 g hg, fun b hb p q e g hg => ?_⟩
  have := h4 b hb
  simp only [p, q, e, Bool.not_false, Bool.and_self, beq_self_eq_true, Bool.not_true, Bool.false_or, List.all_eq_true] at this
  simpa [e] using this g (by simpa [e] using hg)

/-- `mayLand` and what the rules of landing lanes ask beside it, as a check. -/
def landsB (s : State) (id lane : Nat) (kind : PKind → Bool) : Bool :=
  match s.pendOf id with
  | none => false
  | some p =>
    match s.landable p lane false, s.thr p.ref lane with
    | some as, some _ => kind p.kind && s.errIn.isEmpty && s.blocks.all (fun q => q.2.logr.isNone) && p.smp.isNone && decide (AMap.keys p.lanes).Nodup
        && decide (as.map (·.k)).Nodup && s.ordOk p lane as && s.groupOk p [lane] && (p.sameElement lane == [lane]) && plainB s (as.filter (fun a => a.z != 0))
    | _, _ => false

/-- An operation of a kind is in flight, and its lane may land. -/
def lands (s : State) (id lane : Nat) (kind : PKind → Bool) : Prop :=
  ∃ p as t, mayLand s id lane p as t ∧ kind p.kind = true ∧ s.ordOk p lane as = true ∧ s.groupOk p [lane] = true ∧ p.sameElement lane = [lane]
    ∧ plainAccs s (as.filter (fun a => a.z != 0))

theorem lands_of {s : State} {id lane : Nat} {kind : PKind → Bool} (h : landsB s id lane kind = true) : lands s id lane kind := by
  unfold landsB at h
  split at h
  · exact absurd h (by decide)
  · rename_i p hp
    split at h
    · rename_i as t ha ht
      simp only [Bool.and_eq_true, List.isEmpty_iff, List.all_eq_true, Option.isNone_iff_eq_none, decide_eq_true_eq, beq_iff_eq] at h
      obtain ⟨⟨⟨⟨⟨⟨⟨⟨⟨h1, h2⟩, h3⟩, h4⟩, h5⟩, h6⟩, h7⟩, h8⟩, h9⟩, h10⟩ := h
      exact ⟨p, as, t, ⟨hp, ha, ht, h2, h3, h4, h5, h6⟩, h1, h7, h8, h9, plain_of h10⟩
    · exact absurd h (by decide)

/-- The operation of a word that has issued in `lab`. -/
def flying (i : Instr) (s : State := lab) : State := after (exec i s) s

/-! ## Witnesses: scalar and integer words -/

theorem witness_scalarWords : nop.issues (at' nop) c ∧ nop.errIn = [] := ⟨issues_of (by decide), by decide⟩

/-- Both branches of SRDLANE: a clean element, a poisoned one. -/
theorem witness_srdlane : nop.issues (at' nop) c ∧ (nop.vAt me 0 2).psn = false ∧ (withPsn nop 2 1#32 .f32).issues (at' (withPsn nop 2 1#32 .f32)) c
    ∧ ((withPsn nop 2 1#32 .f32).vAt me 0 2).psn = true := ⟨issues_of (by decide), by decide, issues_of (by decide), by decide⟩

theorem witness_integerElements : nop.issues (at' nop) c ∧ nop.errIn = [] ∧
    ∀ ty ∈ [IType.i32, .n32, .i8, .n8, .i4], nop.readable (at' nop) c (.v 1#8) [.v 2#8, .v 3#8, .v 4#8] (ityAccepts ty) (ityTag ty) := by
  refine ⟨issues_of (by decide), by decide, ?_⟩
  simp only [State.readable, Ctx.takes]; decide

/-- The rows of R167: a zero divisor, the signed overflow, any other. -/
def div : State := withV (withV nop 2 0x80000000#32 .i32) 3 0xFFFFFFFF#32 .i32
theorem witness_integerDivision : div.issues (at' div) c ∧ div.readable (at' div) c (.v 1#8) [.v 2#8, .v 3#8] (ityAccepts .i32) (ityTag .i32)
    ∧ div.readable (at' div) c (.v 1#8) [.v 2#8, .v 4#8] (ityAccepts .i32) (ityTag .i32) ∧ elOf .i32 ((at' div).rd div c 0 (.v 4#8)).val 0 = 0
    ∧ elOf .i32 ((at' div).rd div c 0 (.v 2#8)).val 0 = -(2 ^ 31) ∧ elOf .i32 ((at' div).rd div c 0 (.v 3#8)).val 0 = -1 := by
  refine ⟨issues_of (by decide), ?_⟩
  simp only [State.readable, Ctx.takes]; decide

theorem witness_bitwise : nop.issues (at' nop) c ∧ nop.readable (at' nop) c (.v 1#8) [.v 2#8, .v 3#8, .v 4#8] (fun _ => true) .raw := by
  refine ⟨issues_of (by decide), ?_⟩
  simp only [State.readable, Ctx.takes]; decide

theorem witness_icmp : nop.issues (at' nop) c
    ∧ nop.readable (at' nop) c (.s 1#6) [.v 2#8, .v 3#8] (fun t => t = .raw ∨ t = .i32 ∨ t = .n32) .i32 := by
  refine ⟨issues_of (by decide), ?_⟩
  simp only [State.readable, Ctx.takes]; decide

/-- Operands of 32 and 64 bits, a mask bit that is set and one that is clear. -/
theorem witness_selectsAndMoves : nop.issues (at' nop) c ∧ ((at' nop).sca nop.clk c.lit (.int 17#6)).getLsbD 0 = true
    ∧ ((at' nop).sca nop.clk c.lit (.int 16#6)).getLsbD 0 = false ∧ evenPair (.v 2#8) true ∧ ∀ w : Bool, ∀ l ∈ (at' nop).lanes,
      ((at' nop).el nop.clk c.lit w l (.v 4#8)).poisoned (at' nop).want = false ∧ (at' nop).takes (.v 2#8) l .raw w := by
  refine ⟨issues_of (by decide), ?_⟩
  simp only [Ctx.takes, evenPair]; decide

/-! ## Floating point, conversions -/

theorem witness_floatingPointArithmetic : fps.issues (at' fps) c ∧ (∃ e, fpReads fps (at' fps) c (.v 1#8) [.v 2#8, .v 3#8, .v 2#8] 0 e)
    ∧ (∃ e, fpReads fps (at' fps) c (.v 12#8) [.v 4#8, .v 4#8, .v 4#8] 0 e) ∧ ∃ e, fpReads fps (at' fps) c .seed [.v 6#8] 0 e := by
  refine ⟨issues_of (by decide), ⟨[fps.vAt me 0 2, fps.vAt me 0 3, fps.vAt me 0 2].map (fun r => ⟨r.val.setWidth 64, some r.tag, false, [], []⟩), ?_⟩,
    ⟨List.replicate 3 ⟨0x4000000000000000#64, some .f64, false, [], []⟩, ?_⟩, ⟨[⟨0x3C003C00#64, some .h16, false, [], []⟩], ?_⟩⟩ <;>
  · simp only [fpReads, Ctx.takes]; decide

/-- No trap is enabled there; a result that overflows and one that does not. -/
theorem witness_resultsAreRounded : (at' fps).grid.lrec.trapen = 0#3 ∧ (Tag.f32.pack .rne false false (.fin false 1 200)).c = cOv
    ∧ (Tag.f64.pack .rtz false false (.fin true 3 (-1))).c = 0#3 := by decide

theorem witness_floatingPointSelection : fps.issues (at' fps) c ∧ (∃ e, fpReads fps (at' fps) c (.v 1#8) [.v 2#8, .v 3#8] 0 e)
    ∧ (∃ e, fpReads fps (at' fps) c (.v 1#8) [.v 3#8] 0 e) ∧ ((at' fps).rd fps c 0 (.v 10#8)).accepted (fun t => t == .raw || t == .i32) = true
    ∧ ((at' fps).rd fps c 0 (.v 10#8)).psn = false := by
  refine ⟨issues_of (by decide), ⟨[fps.vAt me 0 2, fps.vAt me 0 3].map (fun r => ⟨r.val.setWidth 64, some r.tag, false, [], []⟩), ?_⟩,
    ⟨[⟨0x3F000000#64, some .f32, false, [], []⟩], ?_⟩, by decide, by decide⟩ <;>
  · simp only [fpReads, Ctx.takes]; decide

theorem witness_floatingPointComparison : fps.issues (at' fps) c ∧ (at' fps).lanes = [0] ∧ (at' fps).fmt fps.clk 0 .f32 [.v 2#8, .v 3#8] = .f32
    ∧ (at' fps).elFmt fps.clk c.lit .f32 0 (.v 2#8) = some ⟨0x40400000#64, some .f32, false, [], []⟩
    ∧ (at' fps).elFmt fps.clk c.lit .f32 0 (.v 3#8) = some ⟨0x3F000000#64, some .f32, false, [], []⟩ ∧ (at' fps).takes (.v 1#8) 0 .raw false := by
  refine ⟨issues_of (by decide), ?_⟩
  simp only [Ctx.takes]; decide

theorem witness_dotProducts : fps.issues (at' fps) c ∧ (at' fps).lanes = [0] ∧ (at' fps).fmt fps.clk 0 .h16 [.v 6#8, .v 6#8] = .h16
    ∧ (at' fps).fmt fps.clk 0 .e4m3 [.v 8#8, .v 8#8] = .e4m3
    ∧ (at' fps).elFmt fps.clk c.lit .h16 0 (.v 6#8) = some ⟨0x3C003C00#64, some .h16, false, [], []⟩
    ∧ (at' fps).elFmt fps.clk c.lit .e4m3 0 (.v 8#8) = some ⟨0x38383838#64, some .e4m3, false, [], []⟩
    ∧ (at' fps).elFmt fps.clk c.lit .f32 0 (.v 2#8) = some ⟨0x40400000#64, some .f32, false, [], []⟩ ∧ (at' fps).takes (.v 1#8) 0 .f32 false := by
  refine ⟨issues_of (by decide), ?_⟩
  simp only [Ctx.takes]; decide

/-- CVT from the lane's tag, and from a format forced on it. -/
theorem witness_conversions : fps.issues (at' fps) c ∧ cvtReads fps (at' fps) ⟨.e4m3, true, false, false, none⟩ (.v 2#8) 0 .f32
    ∧ cvtReads fps (at' fps) ⟨.e4m3, true, false, false, some .f32⟩ (.v 2#8) 0 .f32
    ∧ cvtSrc (at' fps) fps ⟨.e4m3, true, false, false, none⟩ .f32 0 (.v 2#8) = some ⟨0x40400000#64, some .f32, false, [], []⟩
    ∧ Tag.count .f32 ≤ Tag.count .e4m3 ∧ (at' fps).takes (.v 1#8) 0 .e4m3 false ∧ (at' fps).takes .seed 0 .e4m3 false := by
  refine ⟨issues_of (by decide), ?_⟩
  simp only [Ctx.takes, cvtReads]; decide

/-- PACK with a tagged and an untagged element source; UNPK. -/
theorem witness_packAndUnpack : fps.issues (at' fps) c ∧ ((at' fps).rd fps c 0 (.v 8#8)).tag = some .e4m3 ∧ ((at' fps).rd fps c 0 (.int 20#6)).tag = none
    ∧ packEl (at' fps) fps c .e4m3 0 (.v 8#8) = some ⟨0x38383838#64, some .e4m3, false, [], []⟩
    ∧ (packEl (at' fps) fps c .e4m3 0 (.int 20#6)).isSome = true ∧ ((at' fps).rd fps c 0 (.v 20#8)).psn = false ∧ (at' fps).takes (.v 1#8) 0 .e4m3 false := by
  refine ⟨issues_of (by decide), ?_⟩
  simp only [Ctx.takes]; decide

theorem witness_specialFunctions : fps.issues (at' fps) (on 1#3) ∧ (at' fps).lanes = [0]
    ∧ (at' fps).elFmt fps.clk c.lit .f32 0 (.v 2#8) = some ⟨0x40400000#64, some .f32, false, [], []⟩ ∧ (at' fps).takes (.v 1#8) 0 .f32 false
    ∧ (SfuFn.run .rcp 0x40400000).c &&& (at' fps).grid.lrec.trapen = 0#3 := by
  refine ⟨issues_of (by decide), ?_⟩
  simp only [Ctx.takes]; decide

theorem witness_specialFunctionValues : Tag.f32.value false 0xFF800000 = .inf true ∧ Tag.f32.value false 0xBF800000 = .fin true 8388608 (-23)
    ∧ Tag.f32.value false 0x7FC00001 = .nan := by decide

/-- FRCP v1, v2 is in flight. -/
def rcp : State := after (exec (.frcp (on 1#3) (.v 1#8) (.v 2#8)) fps) fps
theorem witness_sfuResults : ∃ p as h, rcp.pendOf 3 = some p ∧ p.kind = .sfu ∧ rcp.landable p 0 false = some as ∧ p.dst = some (.v 1#8)
    ∧ (AMap.keys (accTans as)).Nodup ∧ rcp.thr p.ref 0 = some h ∧ accPrimal as p.tag = some (0x3EAAAAAB#64, p.tag, false) := by
  refine ⟨_, _, _, rfl, ?_, rfl, ?_, ?_, rfl, ?_⟩ <;> decide

/-! ## Lane operations -/

/-- A source lane in reach, one out of reach, one that holds no thread. -/
theorem witness_laneOperations : nop.issues (at' nop) c ∧ (at' nop).lanes = [0] ∧ ((at' nop).rd nop c 0 (.int 16#6)).val.toNat % 64 = 0
    ∧ ((at' nop).rd nop c 0 (.int 17#6)).val.toNat % 64 = 1 ∧ (nop.thr me 0).isSome = true ∧ nop.thr me 1 = none
    ∧ ((at' nop).el nop.clk c.lit false 1 (.v 4#8)).poisoned (at' nop).want = false ∧ ((at' nop).el nop.clk c.lit true 0 (.v 4#8)).poisoned (at' nop).want = false
    ∧ (at' nop).takes (.v 2#8) 0 .raw true ∧ (at' nop).takes (.v 1#8) 0 .n32 false := by
  refine ⟨issues_of (by decide), ?_⟩
  simp only [Ctx.takes]; decide

theorem witness_vote : nop.issues (at' nop) c ∧ ((at' nop).rd nop c 0 (.v 2#8)).psn = false ∧ (at' nop).takes (.s 1#6) 0 .raw false := by
  refine ⟨issues_of (by decide), ?_⟩
  simp only [Ctx.takes]; decide

/-- The formats I32 of a RAW lane, F32 and RAW of .or; scalar and vector destinations. -/
theorem witness_reductions : fps.issues (at' fps) c ∧ (at' fps).lanes = 0 :: [] ∧ movedTag ((at' fps).rd fps c 0 (.v 20#8)) (.v 20#8) = .raw
    ∧ movedTag ((at' fps).rd fps c 0 (.v 2#8)) (.v 2#8) = .f32 ∧ (at' fps).elFmt fps.clk c.lit .f32 0 (.v 2#8) = some ⟨0x40400000#64, some .f32, false, [], []⟩
    ∧ ((at' fps).rd fps c 0 (.v 20#8)).poisoned (at' fps).want = false
    ∧ ((at' fps).rd fps c 0 (.v 20#8)).accepted (fun t => t == .raw || t == .i32 || t == .n32) = true ∧ (at' fps).takes (.v 1#8) 0 .f32 false := by
  refine ⟨issues_of (by decide), ?_⟩
  simp only [Ctx.takes]; decide

/-- A tag that is not accepted; then a poisoned operand whose tag is. -/
theorem witness_vectorWordFaults : fps.issues (at' fps) c ∧ (0 ∈ (at' fps).lanes)
    ∧ ((at' fps).rd fps c 0 (.v 2#8)).accepted (ityAccepts .i32) = false ∧ (withPsn fps 9 1#32 .i32).issues (at' (withPsn fps 9 1#32 .i32)) c
    ∧ ((at' (withPsn fps 9 1#32 .i32)).rd (withPsn fps 9 1#32 .i32) c 0 (.v 9#8)).accepted (ityAccepts .i32) = true
    ∧ ((at' (withPsn fps 9 1#32 .i32)).rd (withPsn fps 9 1#32 .i32) c 0 (.v 9#8)).psn = true := by
  refine ⟨issues_of (by decide), by decide, by decide, issues_of (by decide), ?_⟩
  decide

/-- Division by zero with its trap enabled. -/
def trapping : State := withV (withG fps (fun g => { g with lrec := { g.lrec with trapen := 2#3 } })) 12 0#32 .f32
theorem witness_arithmeticTraps : trapping.issues (at' trapping) c ∧ (∃ e, fpReads trapping (at' trapping) c (.v 1#8) [.v 2#8, .v 12#8] 0 e)
    ∧ (at' trapping).grid.lrec.trapen.getLsbD 1 = true ∧ ((fDiv (Tag.f32.value false 0x40400000) (Tag.f32.value false 0)).pack .f32 .rne).c.getLsbD 1 = true := by
  refine ⟨issues_of (by decide), ⟨[⟨0x40400000#64, some .f32, false, [], []⟩, ⟨0#64, some .f32, false, [], []⟩], ?_⟩, by decide, by decide⟩
  simp only [fpReads, Ctx.takes]; decide

/-! ## Matrix words -/

/-- `matrixLaneOk` as a check. -/
def laneOkB (s : State) (x : Ctx) (c : Ctl) (i : Instr) (l : Nat) : Bool :=
  match s.thr x.ref l with
  | none => false
  | some th =>
    match matLane i x.dxMode x.tans x.blk.cfg.t (((matThr i).map (fun t => x.coh.sreg t.toNat)).getD 0#64) ((matSrcs i).map (matSrc x s c.lit l)) th none with
    | none => false
    | some m => !m.psn && (matSrcs i).all (fun a => !matSrcPsn x s c.lit i l a) && (m.c &&& x.grid.lrec.trapen == 0#3)
        && (match m.res.mat, matWrite i with
          | some w, some d => decide (s.laneTiles x.ref l th d w ≤ x.blk.cfg.mtb)
          | _, _ => true)

theorem laneOk_of {s : State} {x : Ctx} {c : Ctl} {i : Instr} {l : Nat} (h : laneOkB s x c i l = true) : ∃ m, matrixLaneOk s x c i l m := by
  unfold laneOkB at h
  split at h
  · exact absurd h (by decide)
  · rename_i th hth
    split at h
    · exact absurd h (by decide)
    · rename_i m hm
      simp only [Bool.and_eq_true, Bool.not_eq_true', List.all_eq_true, beq_iff_eq] at h
      refine ⟨m, th, hth, hm, h.1.1.1, h.1.1.2, h.1.2, fun w d hw hd => ?_⟩
      have h2 := h.2
      rw [hw, hd] at h2
      simpa using h2

/-- m0 = the unit matrix, m1 = [[0, 2], [4, 1]], m3 = [[1, 2], [2, 4]] in F32; the block has 256 bytes of program scratch. -/
def mats : State :=
  let s := withB nop (fun b => { b with cfg := { b.cfg with sb := 256 } })
  let f (l : List W64) : MReg := ⟨2, 2, .f32, false, false, 0, l, [], []⟩
  withM (withM (withM s 0 (f [0x3F800000#64, 0#64, 0#64, 0x3F800000#64])) 1 (f [0#64, 0x40000000#64, 0x40800000#64, 0x3F800000#64]))
    3 (f [0x3F800000#64, 0x40000000#64, 0x40000000#64, 0x40800000#64])
def mul : Instr := .mmul c false false 2#4 0#4 1#4
def inv (a : MNum) : Instr := .minvT (on 1#3) 2#4 a 5#6
def load : Instr := .mld c .core 0#7 0#4 (.int 16#6) (.int 16#6)
def store : Instr := .mst c .core 0#7 (.int 16#6) (.int 16#6) 1#4

/-- A form that does not trap and one that does. -/
theorem witness_matrixWordsEnter : matrixWord mul = some c ∧ mats.errIn = [] ∧ mats.issues (at' mats) c ∧ mats.matStall (at' mats).ref mul = false ∧ matTrap mul = false
    ∧ (at' mats).todo = [0] ∧ (∃ m, matrixLaneOk mats (at' mats) c mul 0 m) ∧ matrixWord (inv 1#4) = some (on 1#3) ∧ mats.issues (at' mats) (on 1#3)
    ∧ matTrap (inv 1#4) = true ∧ ∃ m, matrixLaneOk mats (at' mats) (on 1#3) (inv 1#4) 0 m :=
  ⟨by decide, by decide, issues_of (by decide), by decide, by decide, by decide, laneOk_of (by decide), by decide, issues_of (by decide), by decide,
    laneOk_of (by decide)⟩

theorem witness_matrixMovesEnter : mats.issues (at' mats) c ∧ mats.matStall (at' mats).ref load = false ∧ (mats.core 0).wpb = []
    ∧ ∀ i ∈ [load, store], (∃ m, matrixLaneOk mats (at' mats) c i 0 m)
      ∧ (let m := mats.mAt (at' mats).ref 0 (matMoved i).toNat
         let a := matAddr ((matSrcs i).map (matSrc (at' mats) mats c.lit 0))
         winOk (at' mats) (matSpace i).1 (imageTans m (at' mats).tans) a = true ∧ a % imageAlign m.tag = 0
         ∧ (mats.matAccs (at' mats) 0 (matSpace i).1 a m (matSpace i).2 (at' mats).tans).isSome = true) := by
  refine ⟨issues_of (by decide), by decide, by decide, fun i hi => ?_⟩
  simp only [List.mem_cons, List.not_mem_nil, or_false] at hi
  rcases hi with rfl | rfl
  · exact ⟨laneOk_of (by decide), by decide⟩
  · exact ⟨laneOk_of (by decide), by decide⟩

/-- The word in the sequencer; started; its one group finished. -/
def queued (i : Instr) : State := after (exec i mats) mats
def started (i : Instr) : State := after (exec (.matrixWordStart 3) (queued i)) mats
def finished (i : Instr) : State := after (exec (.shapeGroupFinish 3) (started i)) mats

/-- The conditions on a queued word, as a check. -/
def startsB (i : Instr) (move : Bool) : Bool :=
  let s := queued i
  match s.matOp 3 with
  | some (p, op) => s.matReady p op && (matMove op.i == move) && (s.block p.blk).isSome && (AMap.keys op.res == [0]) && (match s.block p.blk, s.thr p.ref 0 with
      | some b, some th => (matLane op.i op.mode op.ks b.cfg.t op.thr (op.src.get 0 []) th (op.ring.find 0)).isSome
      | _, _ => false)
  | none => false

theorem witness_matrixWordsStart : startsB mul false = true := by decide
theorem witness_matrixMovesPerform : startsB load true = true ∧ startsB store true = true ∧ (queued load).errIn = [] ∧ (∀ q ∈ (queued load).blocks, q.2.logr = none)
    ∧ ∀ g, ((queued store).objs (.core 0)).contains g = false :=
  ⟨by decide, by decide, by decide, by decide, fun g => by rw [show (queued store).objs (.core 0) = [] from by decide]; rfl⟩

/-- A group that finishes writes its matrix; a singular lane of a trapping form keeps its register. -/
theorem witness_shapeGroups : ((started mul).matOp 3).map (fun q => (q.2.groups, AMap.keys q.2.res, (q.2.res.find 0).map (·.sing))) = some ([1#32], [0], some false)
    ∧ (started mul).seqFree me = true ∧ (started mul).thawed me = true ∧ ((started mul).thr me 0).isSome = true
    ∧ ((started (inv 3#4)).matOp 3).map (fun q => (q.2.groups, (q.2.res.find 0).map (·.sing), matTrap q.2.i)) = some ([1#32], some true, true) := by decide

/-- A form that does not trap, one that does without a singular lane, and one with a singular lane. -/
theorem witness_matrixWordsFinish : [mul, inv 1#4, inv 3#4].all (fun i => ((finished i).matOp 3).map (fun q => (q.2.started, q.2.groups, q.1.smp.isNone, AMap.keys q.2.res)) ==
    some (true, [], true, [0]) && (finished i).seqFree me && (finished i).thawed me && ((finished i).thr me 0).isSome) = true := by decide

/-- Shapes and formats of products with and without .acc, of element-wise words, of conversions and indices. -/
theorem witness_matrixResults : (at' mats).dxMode ≠ .tonly ∧ (let m := fun n => mats.mAt me 0 n
    (m 0).rows ≠ 0 ∧ (m 0).cols = (m 1).rows ∧ (m 0).rows = (m 1).rows ∧ (m 0).cols = (m 1).cols ∧ (m 0).tag = (m 1).tag ∧ (m 0).tag = .f32
    ∧ (m 3).rows = (m 0).rows ∧ (m 3).cols = (m 1).cols ∧ (m 3).tag = .f32 ∧ (m 0).tag.blocked = false)
    ∧ (srcAt [⟨1#64, none, [], 1⟩] 0).n32 = some 1 ∧ (srcAt [⟨0x3F800000#64, some .f32, [], 0⟩] 0).inFmt true .f32 = some (0x3F800000, [])
    ∧ (srcAt [⟨0x3F800000#64, some .f32, [], 0⟩] 0).inFmt false .f32 = some (0x3F800000, []) ∧ Tag.ofCode (BitVec.ofNat 4 3) = some .f32 ∧ Tag.f32.matOk = true
    ∧ Tag.f4.blocked = true := by decide

theorem witness_singularLanes : ((mats.mAt me 0 1).tag = .f32 ∧ (mats.mAt me 0 1).rows = (mats.mAt me 0 1).cols ∧ (mats.mAt me 0 1).rows ≠ 0)
    ∧ ((⟨1, 1, .f64, false, false, 0, [0#64], [], []⟩ : MReg).rows = 1) := by decide

/-! ## Witnesses: scratchpad words -/

def ld (q : LQual) (m : AMode) : LdCtl := ⟨.raw, q, m, 0#8⟩
def sts (q : SQual) (m : AMode) : StCtl := ⟨q, m, 0#7⟩

/-- A load in each space, and a ring form. -/
theorem witness_scratchpadLoads : lab.issues (at' lab) (on 1#3) ∧ noWatch lab (at' lab) ∧ (at' lab).todo = [0]
    ∧ (∀ q ∈ [(Space.core, Store.core 0, 0), (.window, .core 0, 0), (.die, .die 0, 0), (.frame, .core 0, 4096)],
      spLaneOk lab (at' lab) c q.1 .base 0 (.int 16#6) (.v 1#8) [] 0 (0, 0) 4 (fun _ => (0#64, false)) [⟨0, q.2.1, q.2.2, 4, 0#64, 0#64, false⟩])
    ∧ spLaneOk lab (at' lab) c .core .ring 0 (.k 0#3) (.v 1#8) [] 0 (0, 0) 4 (fun _ => (0#64, false)) [⟨0, .core 0, 0, 4, 0#64, 0#64, false⟩] := by
  refine ⟨issues_of (by decide), noWatch_of (by decide), by decide, ?_, ?_⟩ <;>
  · unfold spLaneOk; decide +kernel

/-- Values of 4 and of 8 bytes. -/
def wide : State := withV (withV lab 4 0#32 .f64) 5 0x40000000#32 .f64
theorem witness_scratchpadStores : wide.issues (at' wide) c ∧ noWatch wide (at' wide) ∧ ((at' wide).rd wide c 0 (.v 2#8)).tag ≠ some .f64
    ∧ ((at' wide).rd wide c 0 (.v 4#8)).tag = some .f64 ∧ ((at' wide).elFmt wide.clk c.lit .f64 0 (.v 4#8)).isSome = true
    ∧ spLaneOk wide (at' wide) c .core .base 0 (.int 16#6) (.v 1#8) [] 0 (0, 0) 8 (fun _ => (7#64, false)) [⟨0, .core 0, 0, 8, 7#64, 0#64, false⟩] := by
  refine ⟨issues_of (by decide), noWatch_of (by decide), by decide +kernel, by decide +kernel, by decide +kernel, ?_⟩
  unfold spLaneOk; decide +kernel

theorem witness_scratchpadSpaces : (at' lab).coh.thread 0 = lab.thr me 0 ∧ (lab.thr me 0).isSome = true ∧ (at' lab).blk.isHandler = false := by decide

/-- Window bits that are set; a misaligned address; an address past the allocation; and a lane that passes. -/
theorem witness_scratchpadAddressFaults : lab.issues (at' lab) (on 1#3) ∧ (at' lab).coh.rpm = 0#32 ∧ (at' lab).dxMode ≠ .stop ∧ (at' lab).lanes = [0]
    ∧ (∀ p ∈ [Src.int 16#6, .v 1#8], ((at' lab).rd lab c 0 p).accepted (ityAccepts .n32) = true ∧ ((at' lab).rd lab c 0 p).psn = false)
    ∧ bitsAt (tanAddr (at' lab) .window (formAddr .base 0#64 4 0 0x1000000 0) 0) 24 8 ≠ 0 ∧ tanAddr (at' lab) .core (formAddr .base 0#64 4 0 2 0) 0 % 4 ≠ 0
    ∧ lab.placeTan (at' lab) 0 .core (formAddr .base 0#64 4 0 4096 0) 4 0 = none ∧ (lab.placeTan (at' lab) 0 .core (formAddr .base 0#64 4 0 4092 0) 4 0).isSome = true := by
  refine ⟨issues_of (by decide), ?_⟩
  decide +kernel

def isLoad (q : LQual) : PKind → Bool
  | .load r _ => r == q
  | _ => false
def isStore (q : SQual) : PKind → Bool
  | .store r _ => r == q
  | _ => false
def lw (q : LQual) : Instr := .lds (on 1#3) (ld q .base) (.v 2#8) (.int 16#6) (.v 1#8)
def sw (q : SQual) : Instr := .sts c (sts q .base) (.int 16#6) (.v 1#8) (.v 2#8)

theorem witness_loadsLand : lands (flying (lw .none)) 3 0 (isLoad .none) ∧ lands (flying (lw .poll)) 3 0 (isLoad .poll) :=
  ⟨lands_of (by decide), lands_of (by decide)⟩

/-- A poll in flight whose path stands at its boundary, beside an entry of the spill stack. -/
def polling : State := (flying (lw .poll)).updCoh me (fun k => { k with
  pa := k.pa.map (fun p => { p with cl := none })
  spill := [⟨mkPath 0x2000#64 2#32 none, 0#2⟩] })
theorem witness_pollsDemote : lands polling 3 0 (isLoad .poll) ∧ ((polling.coh me).bind (·.path false)).map (fun o => (o.ops.contains 3, o.atBoundary)) = some (true, true)
    ∧ ((polling.coh me).bind (·.path true)).isNone = true ∧ ((polling.pendOf 3).map (fun p => decide (AMap.keys p.lanes = [0]))) = some true :=
  ⟨lands_of (by decide), by decide, by decide, by decide⟩

theorem witness_storesArePerformed : lands (flying (sw .none)) 3 0 (isStore .none) ∧ lands (flying (sw .fill)) 3 0 (isStore .fill) :=
  ⟨lands_of (by decide), lands_of (by decide)⟩

/-- A store whose lane is the last of those that cover a granule. -/
def covering : State :=
  let s := flying (sw .none)
  { s with pend := s.pend.map (fun p => { p with kind := .store .none [(.core 0, 0)] }) }
theorem witness_coveredGranules : lands covering 3 0 (isStore .none)
    ∧ ((covering.pendOf 3).map (fun p => p.lanes.map (fun l => l.2.map (fun a => (a.store, a.addr / 16, a.psn))))) = some [[(.core 0, 0, false)]]
    ∧ (Store.core 0).pg = 16 := ⟨lands_of (by decide), by decide, by decide⟩

/-- Each of the waiting forms; a granule that is empty and one that is full. -/
def fullAt (s : State) : State := s.setFull (.core 0) 0
theorem witness_fullEmptyWaits : lands (flying (lw .fe)) 3 0 (isLoad .fe) ∧ lands (flying (lw .feClr) (fullAt lab)) 3 0 (isLoad .feClr)
    ∧ lands (flying (sw .fe)) 3 0 (isStore .fe) ∧ (flying (lw .fe)).full (.core 0) 0 = false ∧ (flying (lw .feClr) (fullAt lab)).full (.core 0) 0 = true
    ∧ ((flying (lw .fe)).pendOf 3).bind (fun p => (p.lanes.find 0).bind granOf) = some (.core 0, 0)
    ∧ ∀ s ∈ [flying (lw .fe), flying (lw .feClr) (fullAt lab), flying (sw .fe)], (s.pendOf 3).map (fun p => AMap.keys p.lanes) = some [0] :=
  ⟨lands_of (by decide), lands_of (by decide), lands_of (by decide), by decide, by decide, by decide, by decide⟩

/-! ## Witnesses: bulk words and objects -/

/-- s1 = locator 0, s2 = locator 0x40, s3 = the locator 0x40 through the cluster window, s4 = 1 (a mask of core 0), s5 = the virtual address 0x100. -/
def blab : State := withS (withS (withS (withS lab 2 0x40#64) 3 0x4000000000000040#64) 4 1#64) 5 0x100#64
def one (n : Nat) : Box := ⟨n, 1, 1, 0#64, 0#64, 0#64, 0#64⟩
def bcp : Instr := .bcp c false false 1#6 (.s 5#6) (.int 24#6) (.special 0x0D#5)
def copying : State := flying bcp blab

/-- Requests that pass the checks: inward, outward, into a mask of cores, a fill, .empty, with an object, an empty one, one into no core. -/
theorem witness_bulkCopies : blab.issues (at' blab) c ∧ slotOpen blab (at' blab) ∧
    [(⟨some 0#64, none, 0x100#64, false, none, false, one 8, none⟩ : BulkReq), ⟨some 0#64, none, 0x100#64, true, none, false, one 8, none⟩,
      ⟨some 0x4000000000000000#64, some 1#64, 0x100#64, false, none, false, one 8, none⟩, ⟨some 0#64, none, 0#64, false, some 7#32, false, one 8, none⟩,
      ⟨some 0#64, none, 0#64, false, some 0#32, true, one 16, none⟩, ⟨some 0#64, none, 0x100#64, false, none, false, one 8, some 0x40#64⟩,
      ⟨some 0#64, none, 0x100#64, false, none, false, one 0, none⟩, ⟨some 0x4000000000000000#64, some 0#64, 0x100#64, false, none, false, one 8, none⟩].all
      (fun r => (blab.reqCode (at' blab) r (at' blab).tans).isNone) = true := by
  refine ⟨issues_of (by decide), ?_⟩
  unfold slotOpen; decide +kernel

/-- A locator of SPACE 3, an object that is not aligned, a class of a handler, a size beyond 32 bits, a core without a free slot. -/
theorem witness_bulkFaults : blab.issues (at' blab) c ∧ slotOpen blab (at' blab) ∧ bitsAt 0xC000000000000000 62 2 = 3 ∧ (8 % 2 ^ 32) % 16 ≠ 0
    ∧ (bitsAt 0x0E00000000000000 59 1 = 1 ∧ bitsAt 0x0E00000000000000 56 3 = 6 ∧ (at' blab).blk.isHandler = false) ∧ 0xFFFFFFFF < (0x100000000#64).toNat
    ∧ State.slotsFree { copying with copies := (copying.copies.flatMap (fun k => List.replicate 92 k)) } 0 false = 0
    ∧ State.issues { copying with copies := (copying.copies.flatMap (fun k => List.replicate 92 k)) } (at' copying) c := by
  refine ⟨issues_of (by decide), ?_, ?_, ?_, ?_, ?_, ?_, issues_of (by decide)⟩
  · unfold slotOpen; decide +kernel
  all_goals decide +kernel

/-- A piece that lands, and one whose main-memory end does not translate. -/
def lost : State := { copying with tlb := [] }
def copyOk (s : State) (objs : Bool) : Bool := ((s.copyT 3).map (fun q => match s.translate (xunit q.core) q.pasid (q.memAddr (q.pos q.done)) .copyIn with
    | (s1, .ok _) =>
      let n := q.pieceLen (q.pos q.done) 1
      decide (s1.errIn = [] ∧ (∀ b ∈ s1.blocks, b.2.logr = none) ∧ s1.recording q.grid = false ∧ q.sps ≠ [] ∧ q.objs.isEmpty = !objs ∧ q.sps.length = 1
        ∧ q.objs.length ≤ 1 ∧ q.out = false)
      && q.sps.all (fun e => let p := e.place (q.spAddr e (q.pos q.done)); p.1 == .core 0 && s1.copyReach q p.1 p.2 n
          && q.objs.all (fun o => o.1 == .core 0 && o.2 % 16 == 0 && s1.copyReach q o.1 o.2 16 && o != (p.1, p.2 / 16 * 16)))
    | _ => false)).getD false
/-- The same copy with an object. -/
def countedCopy : State := flying (.bcp c false false 1#6 (.s 5#6) (.int 24#6) (.s 2#6)) blab
theorem witness_copiesLand : (∀ s ∈ [copying, countedCopy, lost], (s.copyT 3).map (fun q => (s.copyGoes q, decide (q.done < q.total), decide (q.box.bytes ≠ 0), q.hnd)) = some (true, true, true, false)
      ∧ (s.thr me 0).isSome = true)
    ∧ copyOk copying false = true ∧ copyOk countedCopy true = true
    ∧ ((lost.copyT 3).map (fun q => match (lost.translate (xunit q.core) q.pasid (q.memAddr (q.pos q.done)) .copyIn).2 with
        | .error _ => true
        | _ => false)) = some true := by decide +kernel

/-- A count of zero and one of two pages; the walk of the first of two pages, and that of the last. -/
def pref : State := flying (.bpref c (.s 5#6) (.s 6#6)) (withS blab 6 0x10000#64)
theorem witness_prefetches : blab.issues (at' blab) c ∧ slotOpen blab (at' blab) ∧ ((at' blab).sca blab.clk c.lit (.int 16#6)).toNat = 0
    ∧ ((at' blab).sca blab.clk c.lit (.s 5#6)).toNat ≠ 0
    ∧ (pref.pendOf 3).map (fun p => (decide (p.kind = .pref [0#64, 2#64]), p.smp.isNone, (pref.block p.blk).isSome, (pref.thr p.ref 0).isSome)) = some (true, true, true, true)
    ∧ (pref.grid 2).isSome = true ∧ pref.xlatHeld (xunit 0) 0#20 0#64 .pref = false ∧ ((pref.grid 2).map (·.pasid)) = some 0#20 := by
  refine ⟨issues_of (by decide), ?_⟩
  unfold slotOpen; decide +kernel

/-- An object with PEND 0, one with PEND 8; one that expects 2 of which none has arrived, one that expects none; PHASE 0 against 0 and 1. -/
def objs : State := flying (.bobj c (.s 2#6) (.int 18#6)) blab
theorem witness_barrierObjects : blab.issues (at' blab) c ∧ (locOf 0x40#64).bad = false ∧ (locOf 0x40#64).sp ≠ 2 ∧ (locOf 0x40#64).off % 16 = 0
    ∧ blab.objPlace (at' blab) 0x40#64 = some (.core 0, 0x40) ∧ (blab.objAt (.core 0) 0x40).pend = 0
    ∧ ((flying (.bcp c false false 1#6 (.s 5#6) (.int 24#6) (.s 2#6)) blab).objAt (.core 0) 0x40).pend = 8
    ∧ (objs.objAt (.core 0) 0x40).exp = 2 ∧ (objs.objAt (.core 0) 0x40).arr = 0 ∧ (blab.objAt (.core 0) 0x40).exp = 0 ∧ (blab.objAt (.core 0) 0x40).phase = false
    ∧ blab.accessesDone (at' blab).ref false = true ∧ (flying (sw .none) blab).accessesDone me false = false
    ∧ objs.issues (at' objs) c := by
  refine ⟨issues_of (by decide), ?_, ?_, ?_, ?_, ?_, ?_, ?_, ?_, ?_, ?_, ?_, ?_, issues_of (by decide)⟩ <;> decide +kernel

/-- No batch, and 32 incomplete ones. -/
def full32 : State := copying.updCoh me (fun k => { k with batches := List.replicate 32 [3] })
theorem witness_batches : blab.issues (at' blab) c ∧ (at' blab).coh.batches = [] ∧ full32.issues (at' full32) c
    ∧ ((at' full32).coh.batches.dropWhile (fun b => b.all (fun i => !full32.copies.any (fun q => q.id == i) && !full32.pend.any (fun q => q.id == i)))).length = 32 :=
  ⟨issues_of (by decide), by decide +kernel, issues_of (by decide), by decide +kernel⟩

/-- A path in each of the waits whose end has come. -/
def granted : State := waits blab .slot 0
def bobjWaits : State := waits (withS (labOf 0x00081000419D1000) 6 0x40#64) .bobj 0
theorem witness_bulkWaits : (granted.waiting myPath).isSome = true ∧ granted.slotLine 0 = [(0, myPath)] ∧ granted.slotTakes 0 myPath = true
    ∧ (bobjWaits.waiting myPath).map (·.kind) = some .bobj ∧ (bobjWaits.pathCtx myPath).map (fun x => bobjWaits.objReady x) = some true
    ∧ ((waits blab .bcommit 0).waiting myPath).map (·.kind) = some .bcommit
    ∧ ((waits blab .bcommit 0).coh me).map (fun k => ((waits blab .bcommit 0).incomplete k).length) = some 0
    ∧ ((waits blab .bwaitn 0).waiting myPath).map (fun w => (w.kind, w.num)) = some (.bwaitn, 0) := by decide +kernel

/-! ## Witnesses: Turret words and atomics -/

def gath : Instr := .gath (on 1#3) .uns .f32 (.v 2#8) (.int 16#6) (.v 1#8)
def scat (a : Bool) : Instr := if a then .scata c .uns (.int 16#6) (.v 1#8) (.v 2#8) else .scat c .uns (.int 16#6) (.v 1#8) (.v 2#8)
def spl : Instr := .ldspl (on 1#3) .uns 0#4 (.int 16#6) (.v 1#8)
def nolab : State := { lab with tlb := [] }

/-- The page lies in host memory. -/
def farlab : State := { lab with tlb := [⟨0, 0#20, 0#64, 16, 0x800000500EF#64⟩] }
/-- The word has sent no lane yet, and issues again for the one that it has lost. -/
def again (i : Instr) : State :=
  let s := flying i
  let s1 := { s with pend := s.pend.map (fun (p : Pend) => { p with lanes := [], more := true, lost := 1#32 }) }
  s1.updCoh me (fun k => { k with pa := (lab.coh me).bind (fun q => q.pa.map (fun (p : Path) => { p with wait := some ⟨.reply, true, 0, 3, []⟩ })) })

/-- Lanes that pass stage 1, in a machine whose lanes all translate, in one where none does, and in one whose lane is far; tiles for LDSPL. -/
theorem witness_turretWords : lab.issues (at' lab) (on 1#3) ∧ nolab.issues (at' nolab) (on 1#3) ∧ farlab.issues (at' farlab) (on 1#3) ∧ (∀ s ∈ [lab, nolab, farlab],
    s.errIn = [] ∧ s.wordOp (at' s) = none ∧ (at' s).unsent s = [0] ∧ (at' s).coh.rinc = false ∧ (s.die 0).smpsize = 0 ∧ idxAddr s (at' s) c .uns 4 (.int 16#6) (.v 1#8) 0 0#64 ∧ (0#64).toNat % 128 = 0
    ∧ ((at' s).rd s c 0 (.v 2#8)).tag ≠ some .f64 ∧ ((at' s).rd s c 0 (.v 2#8)).poisoned (at' s).tans = false ∧ ((at' s).rd s c 0 (.v 2#8)).moved (.v 2#8) = .raw)
    ∧ (sendLanes (at' lab) false 0#32 .read (fun _ => []) [(0, ⟨0#64, 4, false, 0#64, .raw, [], 0#64⟩)] lab).fails = []
    ∧ (sendLanes (at' nolab) false 0#32 .read (fun _ => []) [(0, ⟨0#64, 4, false, 0#64, .raw, [], 0#64⟩)] nolab).fails ≠ []
    ∧ (sendLanes (at' farlab) false 0#32 .read (fun _ => []) [(0, ⟨0#64, 4, false, 0#64, .raw, [], 0#64⟩)] farlab).lanes.any (fun l => accsFar l.2) = true
    ∧ (lab.thr me 0).map (fun th => decide (lab.laneTiles me 0 th 0#4 ⟨8, 8, .f32, false, false, 0, List.replicate 64 0#64, [], []⟩ ≤ 64)) = some true := by
  refine ⟨issues_of (by decide), issues_of (by decide), issues_of (by decide), ?_⟩
  unfold idxAddr; decide +kernel

/-- A word of each kind that issues again. -/
def gathsI : Instr := .gaths c false false 2#6 (.int 16#6) (.v 1#8) (.special 0x0D#5)
def againB (i : Instr) (k : Ctl) : Bool :=
  let s := again i
  issuesB s k && s.errIn.isEmpty && !(at' s).coh.rinc && (s.wordOp (at' s)).any (fun q => q.id == 3 && q.lost == 1#32) && (at' s).unsent s == [0]
theorem witness_resentWords : [gath, spl].all (fun i => againB i (on 1#3)) = true ∧ [scat false, scat true, gathsI].all (fun i => againB i c) = true
    ∧ ∀ i ∈ [gath, scat true], (let s := again i; let r := sendLanes (at' s) false 1#32 .read (fun _ => []) [(0, ⟨0#64, 4, false, 0#64, .raw, [], 0#64⟩)] s
      r.fails = [] ∧ r.lanes.any (fun l => accsFar l.2) = false ∧ r.lanes ≠ []) := by decide +kernel

/-- s2 = the locator 0x40: with an object at locator 0 and without one. -/
theorem witness_gathsIssues : blab.issues (at' blab) c ∧ slotOpen blab (at' blab) ∧ (at' blab).coh.rinc = false ∧ blab.wordOp (at' blab) = none
    ∧ idxAddr blab (at' blab) c .uns 4 (.int 16#6) (.v 1#8) 0 0#64 ∧ blab.gathsChk (at' blab) 0x40#64 none 4 4 = none ∧ blab.gathsChk (at' blab) 0x40#64 (some 0#64) 4 4 = none := by
  refine ⟨issues_of (by decide), ?_⟩
  unfold slotOpen idxAddr; decide +kernel

def hacc : Instr := .hacc (on 1#3) 1#6 0#3 (.v 1#8) (.v 2#8)
theorem witness_haccIssues : lab.issues (at' lab) (on 1#3) ∧ noWatch lab (at' lab) ∧ (at' lab).lanes = [0]
    ∧ ((at' lab).rd lab c 0 (.v 1#8)).accepted (ityAccepts .n32) = true ∧ ((at' lab).rd lab c 0 (.v 1#8)).psn = false
    ∧ ((at' lab).rd lab c 0 (.v 2#8)).moved (.v 2#8) = .raw ∧ (0x0000004000000000#64).toNat % 2 ^ 32 + 64 ≤ (at' lab).blk.cfg.sb
    ∧ bitsAt (0x0000004000000000#64).toNat 59 5 = 0 ∧ (at' lab).coh.kreg 0 = 0x0000004000000000#64 ∧ bitsAt (0x0000004000000000#64).toNat 32 27 = 8 * 2 ^ 3 := by
  refine ⟨issues_of (by decide), noWatch_of (by decide), ?_⟩
  decide +kernel

def isKind (n : Nat) : PKind → Bool
  | .gath => n == 0
  | .ldspl => n == 1
  | .gaths _ _ => n == 2
  | .scat => n == 3
  | .scata _ => n == 4
  | .hacc _ _ _ => n == 5
  | .atom _ _ _ => n == 6
  | .cas _ => n == 7
  | .ldx => n == 8
  | .stx _ => n == 9
  | _ => false

/-- GATHS at the locator 0x40 that counts on the object at 0. -/
def gathering : State := flying (.gaths c false false 2#6 (.int 16#6) (.v 1#8) (.s 3#6)) (withS blab 3 0#64)
theorem witness_turretReads : lands (flying gath) 3 0 (isKind 0) ∧ lands (flying spl) 3 0 (isKind 1) ∧ lands gathering 3 0 (isKind 2) ∧ noRecord lab ∧ noRecord blab
    ∧ ((flying spl).pendOf 3).map (·.dst) = some (some (.m 0#4))
    ∧ (gathering.pendOf 3).map (fun p => match p.kind with
      | .gaths dst obj => decide (dst = [(0, [⟨0, .core 0, 0x40, 4, 0#64, 0#64, false⟩])] ∧ obj = some (.core 0, 0)
          ∧ p.lanes.map (fun l => l.2.map (fun a => (a.k, a.store, a.z))) = [[(0, .phys, 4)]])
      | _ => false) = some true ∧ (gathering.objAt (.core 0) 0).pend = 4
    ∧ (gathering.pendOf 3).map (fun p => gathering.accReach p ⟨0, .core 0, 0x40, 4, 0#64, 0#64, false⟩) = some true := by
  refine ⟨lands_of (by decide +kernel), lands_of (by decide +kernel), lands_of (by decide +kernel), ?_⟩
  unfold noRecord; decide +kernel

theorem witness_scatters : lands (flying (scat false)) 3 0 (isKind 3) ∧ lands (flying (scat true)) 3 0 (isKind 4)
    ∧ ((flying (scat true)).pendOf 3).map (fun p => match p.kind with
      | .scata tags => decide (tags.find 0 = some .raw ∧ p.lanes.all (fun l => l.2.all (fun a => a.z == 4 && !(flying (scat true)).poisoned a.store a.addr a.z)) = true)
      | _ => false) = some true :=
  ⟨lands_of (by decide +kernel), lands_of (by decide +kernel), by decide +kernel⟩

/-- A step whose key finds an empty slot, and one with the key 0xFFFFFFFF, in a table of eight slots. -/
def hashing (k : W32) : State := flying hacc ({ withV lab 1 k .n32 with cores := [(0, { Core.zero with scr := (List.range 64).map (fun i => (i, 0xFF#8)) })] })
theorem witness_haccSteps : [5#32, 0xFFFFFFFF#32].all (fun k => ((hashing k).pendOf 3).map (fun p => match p.kind with
      | .hacc t tags _ => decide (t.n = 2 ^ 3 ∧ t.store = .core 0 ∧ tags.find 0 = some .raw ∧ p.dst = some (.s 1#6) ∧ p.lanes.map (fun l => l.2.map (·.k)) = [[0]])
      | _ => false) == some true && (hashing k).objs (.core 0) == [] && (hashing k).readNat (.core 0) 0 4 == 0xFFFFFFFF) = true
    ∧ lands (hashing 5#32) 3 0 (isKind 5) ∧ lands (hashing 0xFFFFFFFF#32) 3 0 (isKind 5) :=
  ⟨by decide +kernel, lands_of (by decide +kernel), lands_of (by decide +kernel)⟩

def gm : AtCtl := ⟨.mem, .pkg, .rlx⟩
def sp : AtCtl := ⟨.core, .blk, .ar⟩
def atomI (al : AtCtl) : Instr := .atom (on 1#3) .add false false al (some (.v 4#8)) (.v 8#8) (.v 2#8)
def casI : Instr := .cas (on 1#3) false sp (.v 4#8) (.v 8#8) (.v 2#8)
def ldxI : Instr := .ldx (on 1#3) false sp (.v 4#8) (.v 8#8)
def stxI : Instr := .stx (on 1#3) false sp (.s 4#6) (.v 8#8) (.v 2#8)

/-- Operands of an atomic of main memory and of one of the core's scratchpad. -/
theorem witness_atomicsIssue : lab.issues (at' lab) (on 1#3) ∧ noWatch lab (at' lab) ∧ (at' lab).lanes = [0] ∧ (at' lab).coh.rinc = false ∧ lab.wordOp (at' lab) = none ∧ (at' lab).unsent lab = [0]
    ∧ (at' lab).blk.binds .pkg = true ∧ (at' lab).blk.binds .blk = false ∧ (∃ e, (∀ k ∈ [AVal.int, .bits], atOperand lab (at' lab) c k false (.v 2#8) 0 e) ∧ e.poisoned (at' lab).want = false) ∧ ((at' lab).el lab.clk c.lit false 0 (.v 4#8)).psn = false
    ∧ (∃ e, atOperand fps (at' fps) c .fp false (.v 2#8) 0 e)
    ∧ (lab.laneAccs (at' lab) .core 0 0 4 [] (fun _ => (0#64, false))).map (fun l => l.all (fun a => !lab.poisoned a.store a.addr a.z)) = some true
    ∧ ((∃ A, atAddress lab (at' lab) c gm (.s 8#6) 0 A ∧ A.toNat % 4 = 0) ∧ ∃ A, atAddress lab (at' lab) c sp (.v 8#8) 0 A ∧ A.toNat % 4 = 0) := by
  refine ⟨issues_of (by decide), noWatch_of (by decide), by decide, by decide, by decide, by decide, by decide, by decide, ⟨(at' lab).el lab.clk c.lit false 0 (.v 2#8), ?_, by decide +kernel⟩, by decide +kernel,
    ⟨⟨0x40400000#64, some .f32, false, [], []⟩, ?_⟩, by decide +kernel, ⟨0#64, ?_⟩, ⟨0#64, ?_⟩⟩
  · intro k hk
    simp only [List.mem_cons, List.not_mem_nil, or_false] at hk
    rcases hk with rfl | rfl
    · exact ⟨rfl, by decide +kernel, fun h => absurd h (by decide)⟩
    · exact rfl
  · show _ = _
    decide +kernel
  · exact ⟨⟨by decide +kernel, by decide +kernel, fun n hn => by cases hn⟩, by decide⟩
  · exact ⟨⟨by decide +kernel, by decide +kernel⟩, by decide⟩

/-- Every lane's step of the four forms: in flight, last of its word; a reservation that STX finds and one that it does not. -/
theorem witness_atomicSteps : lands (flying (atomI sp)) 3 0 (isKind 6) ∧ lands (flying casI) 3 0 (isKind 7) ∧ lands (flying ldxI) 3 0 (isKind 8) ∧ lands (flying stxI) 3 0 (isKind 9)
    ∧ (∀ i ∈ [atomI sp, casI, ldxI, stxI], ((flying i).pendOf 3).map (fun p => p.lanes.map (fun l => (l.1, l.2.head?.map (fun a => (a.k, a.z, a.addr % a.z))))) = some [(0, some (0, 4, 0))])
    ∧ ((flying stxI).thr me 0).map (·.resv) = some none ∧ ((flying stxI).pendOf 3).map (·.dst) = some (some (.s 4#6)) :=
  ⟨lands_of (by decide +kernel), lands_of (by decide +kernel), lands_of (by decide +kernel), lands_of (by decide +kernel), by decide +kernel, by decide +kernel, by decide +kernel⟩

/-! ## Witnesses: fences, barriers, neighbour links -/

/-- The kind of the ended wait of a path. -/
def endedKind (q : Path) : Option WaitKind :=
  match q.wait with
  | some w => if w.released then some w.kind else none
  | none => none

theorem passed_of {x : Ctx} {k : WaitKind} (h : endedKind x.path = some k) : hasPassed x k := by
  unfold endedKind at h
  split at h
  · rename_i w hw
    split at h
    · rename_i hr; exact ⟨w, hw, by simpa using h, hr⟩
    · exact absurd h (by simp)
  · exact absurd h (by simp)

theorem notPassed_of {x : Ctx} (k : WaitKind) (h : endedKind x.path = none) : ¬ hasPassed x k := by
  rintro ⟨w, hw, -, hr⟩
  simp [endedKind, hw, hr] at h

/-- A load in flight; a store in flight, which an acquire does not wait for; none. -/
theorem witness_fences : (flying (lw .none)).issues (at' (flying (lw .none))) c ∧ (flying (sw .none)).issues (at' (flying (sw .none))) c
    ∧ lab.issues (at' lab) c ∧ lab.pend = []
    ∧ (flying (lw .none)).pend.map (fun p => (p.ref, p.touchesMem, p.kind.isRead)) = [(me, true, true)]
    ∧ (flying (sw .none)).pend.map (fun p => (p.ref, p.touchesMem, p.kind.isRead)) = [(me, true, false)]
    ∧ (at' (flying (lw .none))).ref = me ∧ (at' lab).blk.binds .pkg = true ∧ (at' lab).blk.binds .coh = false :=
  ⟨issues_of (by decide +kernel), issues_of (by decide +kernel), issues_of (by decide), by decide, by decide +kernel, by decide +kernel, by decide +kernel⟩

/-- Paths that wait at a fence, for the order of a barrier, and for registers, with nothing in flight. -/
theorem witness_fenceWaits : ([WaitKind.fence, .order, .tlb, .regs].all (fun k => ((waits lab k 0).waiting myPath).map (fun w => (w.kind, w.num)) == some (k, 0)
      && (waits lab k 0).pend == [])) = true
    ∧ ([(WaitKind.order, 2), (.reply, 3)].all (fun k => ((waits lab k.1 k.2).waiting myPath).map (fun w => (w.kind, w.num)) == some k && (waits lab k.1 k.2).pend == [])) = true
    ∧ (waits lab .regs 0).capWaitOver myPath 0 = true := by decide +kernel

/-- A block without a barrier slot; one whose only thread arrives; one with a second live thread, in no cohort that the path runs. -/
def noSlot : State := withB lab (fun b => { b with cfg := { b.cfg with bslot := false } })
def two : State := withB lab (fun b => { b with cohs := b.cohs.set 1 { (at' lab).coh with lanes := (at' lab).coh.lanes.map (fun l => (l.1, { l.2 with t := 1 })) } })
def openPhase (o : SOpen) : State := withB lab (fun b => { b with sbo := some o })

theorem witness_blockBarriers : (∀ s ∈ [noSlot, lab, two, waits lab .bar 0 true, waits lab .bara 3 true, openPhase ⟨true, .pkg, 0, false⟩, flying (sw .none)], issuesB s c = true
      ∧ s.blocks.all (fun q => q.2.logr.isNone) = true) ∧ (at' noSlot).blk.cfg.bslot = false
    ∧ (∀ s ∈ [lab, two], (at' s).blk.cfg.bslot = true ∧ (at' s).blk.sbo = none ∧ s.accessesDone (at' s).ref false = true ∧ endedKind (at' s).path = none
      ∧ (at' s).blk.arr = [] ∧ (at' s).coh.threadsOf (at' s).exec = [0] ∧ (at' s).path.wait = none
      ∧ (at' s).blk.cohs.all (fun k => k.2.paths.all (fun p => p.late.isEmpty)) = true)
    ∧ (at' lab).blk.live = [0] ∧ (at' two).blk.live = [0, 1] ∧ (flying (sw .none)).accessesDone (at' (flying (sw .none))).ref false = false
    ∧ endedKind (at' (waits lab .bar 0 true)).path = some .bar ∧ endedKind (at' (waits lab .bara 3 true)).path = some .bara ∧ (at' (openPhase ⟨true, .pkg, 0, false⟩)).blk.sbo.isSome = true
    ∧ (at' lab).blk.ph = 0 ∧ (at' (withB lab (fun b => { b with ph := 3 }))).blk.ph = 3 ∧ ((at' lab).sca lab.clk c.lit (.int 16#6)).toNat = 0 := by decide +kernel

/-- s7 = 2, a count; a block whose barrier is open for that scope, or for the grid. -/
def counted : State := withS lab 7 2#64
theorem witness_scopedBarriers : (∀ s ∈ [counted, withS (openPhase ⟨false, .clus, 2, false⟩) 7 2#64, openPhase ⟨true, .pkg, 0, false⟩, withB lab (fun b => { b with arr := [5] }),
      waits lab .sbar 0 true, waits lab .sbarGrid 0 true], issuesB s c = true ∧ s.blocks.all (fun q => q.2.logr.isNone) = true ∧ (at' s).blk.cfg.bslot = true)
    ∧ ((at' counted).sca counted.clk c.lit (.s 7#6)).toNat = 2 ∧ ((at' counted).sca counted.clk c.lit (.int 16#6)).toNat = 0
    ∧ (at' counted).blk.sbo = none ∧ (at' counted).blk.arr = [] ∧ counted.accessesDone (at' counted).ref false = true ∧ (at' counted).grid.sbars = []
    ∧ endedKind (at' counted).path = none ∧ endedKind (at' (waits lab .sbar 0 true)).path = some .sbar ∧ endedKind (at' (waits lab .sbarGrid 0 true)).path = some .sbarGrid := by
  decide +kernel

/-- The block has arrived at the barrier of its grid, and at one of its cluster that expects one block. -/
def arrived : State := withG (withB lab (fun b => { b with arr := [0], sbo := some ⟨true, .pkg, 0, true⟩ })) (fun g => { g with garr := [1], sbars := [⟨.clus, 0, 1, [1]⟩] })
theorem witness_scopedReleases : (arrived.grid 2).map (fun g => decide (g.garr ≠ [] ∧ g.garr.Nodup ∧ g.lrec.gx * g.lrec.gy * g.lrec.gz - g.done
        + (arrived.blocks.filter (fun b => b.2.grid == 2 && b.2.kind == .task)).length ≤ g.garr.length ∧ g.sbars[0]? = some ⟨.clus, 0, 1, [1]⟩)) = some true
    ∧ arrived.blocks.all (fun q => q.2.logr.isNone) = true ∧ (arrived.blocks.map (·.1)).Nodup := by decide +kernel

/-- The FIFO of a core on a side holds n entries of a grid. -/
def filled (s : State) (core side n : Nat) (e : FEntry) : State :=
  let l : List FEntry := List.replicate n e
  s.setCore core { s.core core with fifo := AMap.set [] side l }
def entry (grid : Nat) : FEntry := ⟨grid, 0, some [(0, 7#32, .raw, false)], [], 1, 1, 0⟩

/-- Core 0 has no neighbour to the north, and core 1 to the east: room and none for a send, an entry, none and one of another grid for a receive. -/
theorem witness_neighbourWords : sideCore (at' lab).blk .n = none ∧ sideCore (at' lab).blk .e = some 1
    ∧ ([lab, filled lab 1 3 16 (entry 2), filled lab 0 1 1 (entry 2), filled lab 0 1 1 (entry 9)].all (fun s => issuesB s c && s.errIn.isEmpty && (at' s).blk.core == 0
      && ((at' s).rd s c 0 (.v 2#8)).psn == false)) = true
    ∧ fifoUsed ((lab.core 1).fifoAt 3) = 0 ∧ fifoUsed (((filled lab 1 3 16 (entry 2)).core 1).fifoAt 3) = 16 ∧ (lab.core 0).fifoAt 1 = []
    ∧ ((filled lab 0 1 1 (entry 2)).core 0).fifoAt 1 = [entry 2] ∧ ((filled lab 0 1 1 (entry 9)).core 0).fifoAt 1 = [entry 9] ∧ (at' lab).lanes = [0] := by decide +kernel

/-- A ring add of two matrices of ones, with room and without; behind its send, with nothing to take, with an entry, and with one of another grid. -/
def ones : MReg := ⟨2, 2, .f32, false, false, 0, List.replicate 4 0x3F800000#64, [], []⟩
def mEntry (grid : Nat) (sent : Nat := 1) : FEntry := ⟨grid, 0, none, [(0, ones)], 1, sent, 0⟩
def ring : State := withM (withM lab 1 ones) 2 ones
def ringW : State := waits ring .mringRecv 0 true
/-- A message sent in part. -/
def ringB : State := filled (waits ring .mringSend 1 true) 1 3 1 { mEntry 2 0 with size := 2 }
theorem witness_ringAdds : ([ring, filled ring 1 3 16 (mEntry 2), ringB, ringW, filled ringW 0 1 1 (mEntry 2), filled ringW 0 1 1 { mEntry 2 with size := 2 },
      filled ringW 0 1 1 (mEntry 9)].all (fun s => issuesB s c && s.errIn.isEmpty
      && (at' s).blk.core == 0 && !s.matStall (at' s).ref (.mring c .e 1#4 2#4) && !s.matStall (at' s).ref (.mring c .w 1#4 2#4))) = true
    ∧ (at' ring).lanes = [0] ∧ ([[], [(0, ones)]].all (fun got => ((ring.thr me 0).bind (fun th => (matLane (.mring c .w 1#4 2#4) (at' ring).dxMode (at' ring).tans
        (at' ring).blk.cfg.t 0#64 [] th (AMap.find got 0)).map (fun L => decide (L.psn = false ∧ L.c &&& (at' ring).grid.lrec.trapen = 0#3 ∧ L.res.mat.all (fun w => decide (ring.laneTiles me 0 th 1#4 w ≤ 64)) = true)))) == some true)) = true ∧ (at' ring).blk.cfg.mtb = 64
    ∧ (at' ring).path.wait = none ∧ endedKind (at' ringW).path = some .mringRecv
    ∧ ((at' ringB).path.wait.map (fun w => (w.kind, w.num))) = some (.mringSend, 1) ∧ ((ringB.core 1).fifoAt 3).all (fun e => e.grid == 2 && e.coh == 0 && e.vec.isNone) = true := by decide +kernel

/-- NSEND.s, NRECV.w and MRING.e wait, each for what has come. -/
def nsendW : State := waits (labOf 0x000A600002400002) .nsend 0
def nrecvW : State := filled (withB (waits (labOf 0x00BA640A00000003) .nrecv 0) (fun b => { b with core := 1 })) 1 3 1 (entry 2)
def mringS : State := waits (labOf 0x0005418160800001) .mringSend 0
def mringR : State := filled (withB (waits (labOf 0x0005418160800001) .mringRecv 0) (fun b => { b with core := 1 })) 1 3 1 (mEntry 2)
theorem witness_neighbourWaits : ([(nsendW, WaitKind.nsend, Instr.nsend c .s (.v 9#8)), (nrecvW, .nrecv, .nrecv (on 3#3) .w (.v 10#8)), (mringS, .mringSend, .mring c .e 1#4 2#4),
      (mringR, .mringRecv, .mring c .e 1#4 2#4)].all (fun q => (q.1.waiting myPath).map (·.kind) == some q.2.1 && (q.1.slot me false).bind (fun p => (q.1.block 1).bind (fun b => p.waitWord b.lim))
        == some q.2.2)) = true ∧ fifoUsed ((nsendW.core 16).fifoAt 0) < 16 ∧ fifoUsed ((mringS.core 1).fifoAt 3) < 16
    ∧ ((nrecvW.core 1).fifoAt 3).map (fun e => decide (e.took < e.sent)) = [true] ∧ ((mringR.core 1).fifoAt 3).map (fun e => decide (e.took < e.sent)) = [true] := by
  decide +kernel

/-- A count of zero, one of 5, and the end of the wait; a pause whose time is over. -/
theorem witness_yieldAndSleep : lab.issues (at' lab) c ∧ sampledWord (at' lab).cls (at' lab).op = false ∧ unpolls (at' lab).cls (at' lab).op = false ∧ (at' lab).writesB = false
    ∧ ((at' lab).sca lab.clk c.lit (.int 16#6)).toNat = 0 ∧ ((at' lab).sca lab.clk c.lit (.int 21#6)).toNat = 5 ∧ endedKind (at' lab).path = none
    ∧ endedKind (at' (waits lab .sleep 5 true)).path = some .sleep ∧ (waits lab .sleep 5 true).issues (at' (waits lab .sleep 5 true)) c
    ∧ (({ waits lab .sleep 5 with clk := 5 } : State).waiting myPath).map (fun w => (w.kind, w.num)) = some (.sleep, 5)
    ∧ ((lab.updCoh me (fun k => { k with ypause := some ([], 0) })).coh me).map (·.ypause) = some (some ([], 0)) := by
  refine ⟨issues_of (by decide), ?_, ?_, ?_, ?_, ?_, ?_, ?_, issues_of (by decide +kernel), ?_, ?_⟩ <;> decide +kernel

/-! ## Witnesses: control words and tangent words -/

/-- The issuing path changed. -/
def withP (s : State) (f : Path → Path) : State := s.updCoh me (fun c => { c with pa := c.pa.map f })
/-- `ctlIssues` as a check. -/
def ctlB (s : State) : Bool := issuesB s c && s.errIn.isEmpty && s.blocks.all (fun q => q.2.logr.isNone) && (at' s).path.cl.isSome && !(at' s).path.dem
  && (at' s).blk.doneRec.isNone && (at' s).blk.cohs.all (fun k => decide (k.2.settle = k.2) && k.2.paths.all (fun p => p.cl.isSome || p.rpc != some p.pc))
/-- The clause that the issuer is in. -/
def cl' (s : State) : Clause := ((at' s).path.cl).getD ⟨0, [], 0, none⟩
theorem ctl_of {s : State} (h : ctlB s = true) : ctlIssues s (at' s) c (cl' s) := by
  simp only [ctlB, Bool.and_eq_true, List.isEmpty_iff, List.all_eq_true, Option.isNone_iff_eq_none, Bool.not_eq_true', decide_eq_true_eq, Bool.or_eq_true, bne_iff_ne] at h
  obtain ⟨⟨⟨⟨⟨⟨h1, h2⟩, h3⟩, h4⟩, h5⟩, h6⟩, h7⟩ := h
  refine ⟨issues_of h1, h2, h3, ?_, h5, h6, fun k hk => (h7 k hk).1, fun k hk p hp hc => ?_⟩
  · unfold cl'
    cases hh : (at' s).path.cl with
    | none => simp [hh] at h4
    | some l => rfl
  · rcases (h7 k hk).2 p hp with h | h
    · simp [hc] at h
    · exact h

/-- The thread of lane 0 once more, in lane 1, as thread 1: a path of two lanes. -/
def twoLanes (s : State) : State :=
  let s := s.updCoh me (fun k => { k with lanes := k.lanes.set 1 (match k.lanes.find 0 with
    | some t => { t with t := 1 }
    | none => ⟨1, (0#32, 0#32, 0#32), (0#32, 0#32, 0#32), [], [], 0#32, none⟩) })
  withP s (fun p => { p with mask := 3#32 })
def pair : State := twoLanes lab
/-- Its link registers differ; one of them is poisoned. -/
def differ : State := pair.updCoh me (fun k => k.updThread 1 (fun h => h.setV 2 ⟨8#32, .raw, false, [], []⟩))

/-- A path whose way does not end in an arrival; links that agree, that differ, and that are poisoned. -/
theorem witness_pathMoves : (∀ s ∈ [lab, pair, differ, withPsn pair 2 0#32 .raw], ctlB s = true ∧ (at' s).path.rpc = none) ∧ ctlIssues pair (at' pair) c (cl' pair) ∧ (at' pair).lanes = [0, 1]
    ∧ ((at' differ).el differ.clk c.lit true 0 (.v 2#8)).val ≠ ((at' differ).el differ.clk c.lit true 1 (.v 2#8)).val
    ∧ ((at' (withPsn pair 2 0#32 .raw)).el pair.clk c.lit true 0 (.v 2#8)).psn = true
    ∧ (∀ l ∈ [0, 1], ((at' pair).el pair.clk c.lit true l (.v 2#8)).psn = false ∧ ((at' differ).el pair.clk c.lit true l (.v 2#8)).psn = false) :=
  ⟨by decide +kernel, ctl_of (by decide +kernel), by decide +kernel, by decide +kernel, by decide +kernel, by decide +kernel⟩

/-- The next clause as a reconvergence point, without a record, with one that waits for another thread, and with one that is complete behind the arrival. -/
def rpc0 : W64 := behind (at' lab) (cl' lab)
def arriving (m : List Nat) : State := withB (withP lab (fun p => { p with rpc := some rpc0 })) (fun b => { b with recs := [⟨rpc0, none, m, [], false, false, []⟩] })
theorem witness_arrivals : (∀ s ∈ [withP lab (fun p => { p with rpc := some rpc0 }), arriving [0, 1], arriving [0]], ctlB s = true ∧ (at' s).path.rpc = some rpc0 ∧ (at' s).coh.threadsOf (at' s).exec = [0]
      ∧ behind (at' s) (cl' s) = rpc0 ∧ (AMap.keys (at' s).blk.cohs).Nodup)
    ∧ (at' (withP lab (fun p => { p with rpc := some rpc0 }))).blk.recs = [] ∧ (at' (arriving [0, 1])).blk.recs = [] ++ ⟨rpc0, none, [0, 1], [], false, false, []⟩ :: []
    ∧ (at' (arriving [0])).blk.recs = [] ++ ⟨rpc0, none, [0], [], false, false, []⟩ :: [] ∧ lanesIn (at' (arriving [0])).coh [0] ≠ 0#32 := by decide +kernel

/-- s9 = 1, a condition: BRC of two lanes with a free slot, beside another path, with a full stack, with 32 records; and of one lane, either way. -/
def brc : State := withS pair 9 1#64
def beside (n : Nat) : State := (withB brc (fun b => { b with cfg := { b.cfg with spd := 8 } })).updCoh me (fun k => { k with pb := some (mkPath 64#64 4#32 none), spill := List.replicate n ⟨mkPath 64#64 8#32 none, 0#2⟩ })
theorem witness_branches : (∀ s ∈ [brc, beside 0, beside 8, withB brc (fun b => { b with recs := List.replicate 32 ⟨8#64, none, [9], [], false, false, []⟩ }), withS lab 9 1#64], ctlB s = true
      ∧ ((at' s).sca s.clk c.lit (.s 9#6)).setWidth 32 = 1#32 ∧ (at' s).path.rpc = none)
    ∧ (at' brc).exec &&& 1#32 ≠ 0#32 ∧ (at' brc).exec &&& ~~~1#32 ≠ 0#32 ∧ (at' (withS lab 9 1#64)).exec &&& ~~~1#32 = 0#32 ∧ (at' lab).exec &&& 0#32 = 0#32
    ∧ (at' brc).coh.path true = none ∧ ((at' (beside 8)).coh.path true).isSome = true ∧ (at' (beside 8)).blk.cfg.spd ≤ (at' (beside 8)).coh.spill.length
    ∧ (at' (beside 0)).coh.spill.length < (at' (beside 0)).blk.cfg.spd ∧ ahead (at' brc) 6#19 ≠ (at' brc).path.pc + 8#64 * (9#10).setWidth 64
    ∧ behind (at' brc) (cl' brc) ≠ (at' brc).path.pc + 8#64 * (9#10).setWidth 64 ∧ behind (at' brc) (cl' brc) = (at' brc).path.pc + 8#64 * (2#10).setWidth 64
    ∧ ((at' brc).coh.threadsOf 2#32).foldl setIns [] ≠ (at' brc).coh.threadsOf (at' brc).exec := by decide +kernel

/-- EXIT of lane 0 while lane 1 lives on in another path. -/
def leaving : State := (withP pair (fun p => { p with mask := 1#32 })).updCoh me (fun k => { k with pb := some (mkPath 64#64 2#32 none) })
theorem witness_exits : ctlIssues leaving (at' leaving) c (cl' leaving) ∧ leaving.pend = [] ∧ (at' leaving).blk.arr = [] ∧ (at' leaving).lanes = [0] ∧ (leaving.thr me 1).isSome = true
    ∧ ((at' leaving).coh.path true).map (fun q => (q.mask &&& (at' leaving).exec, q.mask)) = some (0#32, 2#32) ∧ (at' leaving).coh.spill = [] ∧ (at' leaving).blk.recs = [] :=
  ⟨ctl_of (by decide +kernel), by decide +kernel, by decide +kernel, by decide +kernel, by decide +kernel, by decide +kernel, by decide +kernel, by decide +kernel⟩

/-- Every thread has met at REGROUP; at BRC.blk, one thread on each side; and a complete block-wide record. -/
def atRegroup : State := { waits (twoLanes (labOf 0x000B1C0000000000)) .meeting 0 with cur := none }
def atBrcBlk : State := { waits (withS (twoLanes (labOf 0x000B280140806FFC)) 2 1#64) .meeting 0 with cur := none }
def meets (s : State) (retire : Bool) (gs : Block → List MGroup) : Bool :=
  match s.block 1 with
  | some b => s.blocks.all (fun q => q.2.logr.isNone) && !b.saved && b.allMet && s.blockQuiet 1 b && !b.stops.isEmpty && b.cohs.all (fun k => !s.partStopped ⟨1, k.1⟩)
    && (b.pack (gs b) retire).isSome && ((gs b).flatMap (·.ts)).all (fun t => (b.threadOf t).isSome) && decide ((gs b).flatMap (·.ts) = [0, 1] ∨ (gs b).flatMap (·.ts) = [1, 0])
    && (b.coh 0).isSome && decide (AMap.keys b.cohs).Nodup
  | none => false
def blkGroups (b : Block) : List MGroup :=
  match b.stops with
  | p :: _ => ⟨some (p.path.next, some (p.path.pc + 8#64 * (1023#10).setWidth 64)), (atBrcBlk.blkSides 1 b b.stops).2⟩
    :: ⟨some (p.path.pc + 8#64 * (0x406#19).signExtend 64, some (p.path.pc + 8#64 * (1023#10).setWidth 64)), (atBrcBlk.blkSides 1 b b.stops).1⟩ :: sortGroups b.waiting
  | [] => []
theorem witness_meetings : issuesB lab c = true ∧ (at' lab).coh.spill = [] ∧ (at' (beside 8)).coh.spill ≠ []
    ∧ meets atRegroup true (fun b => sortGroups (b.regroups b.stops ++ b.waiting)) = true ∧ meets atBrcBlk false blkGroups = true
    ∧ (atBrcBlk.block 1).map (fun b => (b.stops.map (·.i), (atBrcBlk.blkSides 1 b b.stops).1, (atBrcBlk.blkSides 1 b b.stops).2))
      = some ([some (.brcBlk c 0x406#19 1023#10 (.s 2#6))], [0], [1])
    ∧ (atRegroup.block 1).map (fun b => b.stops.map (·.i)) = some [some (.regroup c)] := by decide +kernel

def restored : State := { withB (pair.updCoh me (fun k => { k with pa := none, mid := false })) (fun b => { b with recs := [⟨8#64, none, [0, 1], [0, 1], true, false, [(0, (0, 1)), (1, (0, 0))]⟩] }) with cur := none }
theorem witness_restores : (restored.block 1).map (fun b => decide (b.saved = false ∧ restored.blockQuiet 1 b = true ∧ b.recs[0]?.map (fun r => (r.blk, r.keep, r.m == r.arr)) = some (true, false, true)
    ∧ (AMap.keys b.cohs).Nodup ∧ (b.cohs.flatMap (fun k => k.2.lanes.map (·.2.t))).Nodup ∧ (b.coh 0).map (·.retired) = some false
      ∧ (∀ c ∈ b.cohs, c.2.mid = false) ∧ restored.heldSegs b.coreId + b.cfg.segs * (b.cohs.filter (fun c => c.2.retired)).length ≤ 256)) = some true
    ∧ restored.blocks.all (fun q => q.2.logr.isNone) = true := by decide +kernel

/-- A SPAWN into an empty queue, into one with 31 records of its group, into a full one, and behind an access in flight; a wait in front of a queue with room. -/
def taskQueue (n : Nat) : State := lab.setDie 0 { lab.die 0 with tq := List.replicate n ⟨2, 0#64, [0#32, 0#32, 0#32, 0#32], 0#64, none, 0, none⟩ }
def spawnW : State := waits (labOf 0x000B2400410146B4) .spawn 0
theorem witness_spawns : ctlB lab = true ∧ ctlB (taskQueue 31) = true ∧ (at' lab).path.wait = none ∧ (at' lab).coh.rinc = false ∧ ctlB (waits lab .spawn 0 true) = true
    ∧ (at' (waits lab .spawn 0 true)).path.wait.map (fun w => (w.kind, w.num)) = some (.spawn, 0) ∧ (∀ i < 4, (lab.vAt me 0 (20 + i)).psn = false) ∧ (lab.thr me 0).isSome = true
    ∧ (at' lab).sca lab.clk c.lit (.int 16#6) = 0#64 ∧ (lab.die 0).tq = [] ∧ ((taskQueue 31).die 0).tq.length = 31
    ∧ (((taskQueue 31).die 0).tq.filter (fun u => u.seq.isNone && u.grid == (at' lab).blk.grid && u.entry == 0#64 && u.clus.isNone)).length = 31
    ∧ lab.accessesDone me false = true ∧ ctlB (flying (sw .none)) = true ∧ (flying (sw .none)).accessesDone me false = false
    ∧ (spawnW.waiting myPath).map (·.kind) = some .spawn ∧ (spawnW.pathCtx myPath).map (fun x => x.path.word x.blk.lim) = some (some (.spawn c (.s 4#6) 20#8 (.special 0x0D#5)))
    ∧ (spawnW.die 0).tq.length < 16384 := by decide +kernel
theorem witness_fullQueue : ((taskQueue 16384).die 0).tq.length = 16384 := by
  show (List.replicate 16384 _).length = _
  exact List.length_replicate
theorem witness_fullQueueIssues : ctlIssues (taskQueue 16384) (at' (taskQueue 16384)) c (cl' (taskQueue 16384)) := ctl_of (by decide +kernel)

/-- A word of each form: v2 in F32, v4:v5 in F64, v10 in I32; matrices of F32 with tangents, and an empty one. -/
theorem witness_tangentWords : fps.issues (at' fps) c ∧ (at' fps).path.cl.isSome = true ∧ (∀ l ∈ (at' fps).lanes, (fps.thr me l).isSome = true)
    ∧ (∀ n ∈ [2#8, 4#8, 10#8], ((at' fps).rd fps c 0 (.v n)).tpsn = [] ∧ (at' fps).takes (.v n) 0 (((at' fps).rd fps c 0 (.v n)).tag.getD .raw) ((((at' fps).rd fps c 0 (.v n)).tag.getD .raw) == .f64)
      ∧ ((at' fps).rd fps c 0 (.v n)).psn = false) ∧ ((at' fps).elFmt fps.clk c.lit .f64 0 (.v 4#8)).isSome = true ∧ ((at' fps).elFmt fps.clk c.lit .f32 0 (.v 3#8)).isSome = true
    ∧ (fps.vAt me 0 4).tag = .f64 ∧ (fps.vAt me 0 2).tag.isFp = true
    ∧ (lab.thr me 0).map (fun h => (h.mreg 1).rows) = some 0 ∧ ((ring.thr me 0).map (fun h => ((h.mreg 1).rows, (h.mreg 1).tag, (h.mreg 2).cols))) = some (2, .f32, 2) := by
  refine ⟨issues_of (by decide), by decide +kernel, by decide +kernel, ?_, by decide +kernel, by decide +kernel, by decide +kernel, by decide +kernel, by decide +kernel, by decide +kernel⟩
  unfold Ctx.takes
  decide +kernel

/-! ## Witnesses: exceptions, handlers, system words -/

/-- The cohort has frozen at BRK: the block 3 is its handler, the capability 4 names it, and its code is cached. -/
def coded : State := State.setCore { lab with tlb := lab.tlb.map (fun e => { e with ent := 0x500FF#64 }) } 0 { lab.core 0 with ic := [(0#20, 0x1000#64, (cl' lab).hdr), (0#20, 0x1008#64, 0x000B000000000000#64)] }
def fz : State := after (exec (.brk c) coded) coded
/-- The handler issues. -/
def hnd : State := { fz.updCoh ⟨3, 0⟩ (fun k => { k with pa := k.pa.map (fun p => { p with cl := some (cl' lab) }), mid := true }) with cur := some ⟨3, 0⟩ }
/-- The same with another freeze, or another frozen cohort. -/
def hndZ (f : Freeze → Freeze) (g : Cohort → Cohort := id) : State := hnd.updCoh me (fun k => g { k with frz := k.frz.map f })
def frozenMe (s : State) : Freeze := (s.frozen me).getD ⟨0, 0, 0, 0, false, 0#64, 0#64, false, false, []⟩
def fCoh (s : State) : Cohort := (s.coh me).getD (at' s).coh
def fBlk (s : State) : Block := (s.block 1).getD (at' s).blk

theorem capOf_self {s : State} {d : Nat} {v : W64} {q : Cap} (h : (s.die d).caps = [q]) (hv : v = capVal q.num) : s.capOf d v = some q := by
  subst hv
  show (s.die d).caps.find? _ = _
  rw [h]
  simp [List.find?]

/-- `named` for the capability 4, which s0 of the handler holds, as a check. -/
def namedB (s : State) : Bool := issuesB s c && s.errIn.isEmpty && s.blocks.all (fun q => q.2.logr.isNone) && (at' s).blk.isHandler
  && (s.die (at' s).blk.die).caps == [⟨4, .coh 1 0, 3⟩] && (s.block 1).isSome && (fBlk s).coh 0 == some (fCoh s) && (fCoh s).frz == some (frozenMe s) && s.accessesDone me false
theorem named_of {s : State} (h : namedB s = true) (hv : (at' s).sca s.clk c.lit (.s 0#6) = capVal 4) : named s (at' s) c (.s 0#6) ⟨4, .coh 1 0, 3⟩ me (fBlk s) (fCoh s) (frozenMe s) := by
  simp only [namedB, Bool.and_eq_true, List.isEmpty_iff, List.all_eq_true, Option.isNone_iff_eq_none, beq_iff_eq] at h
  obtain ⟨⟨⟨⟨⟨⟨⟨⟨h1, h2⟩, h3⟩, h4⟩, h5⟩, h6⟩, h7⟩, h8⟩, h9⟩ := h
  refine ⟨issues_of h1, h2, h3, h4, capOf_self h5 hv, rfl, ?_, h7, h8, h9⟩
  show s.block 1 = _
  unfold fBlk
  cases hb : s.block 1 with
  | none => simp [hb] at h6
  | some b => rfl

/-- Another word of a core in each of its two slots, in both, and in every slot of the die; the handler of the handler's fault, and of that one's. -/
def fenceAll (s : State) : State := { s with cores := (List.range 256).map (fun i => (i, { s.core i with fenced := true })) }
def hblock (core slot : Nat) : Block := { (at' hnd).blk with core := core, kind := .handler false slot 9 }
def slotTaken (js : List Nat) : State := { lab with blocks := lab.blocks ++ js.map (fun j => (3 + j, hblock 0 j)), nid := 9 }
def nested (n : Nat) : State := { hnd with blocks := hnd.blocks ++ (List.range n).map (fun j => (20 + j, { (at' hnd).blk with kind := .handler true j 9 })), nid := 90 }
def atKill : State := { nested 1 with cur := none }
theorem witness_faults : ([(lab, me), (slotTaken [0], me), (slotTaken [0, 1], me), (fenceAll lab, me), (hnd, ⟨3, 0⟩), (nested 8, ⟨3, 0⟩), (nested 1, ⟨20, 0⟩)].all (fun q => match q.1.block q.2.blk with
      | some b => (b.coh q.2.coh).isSome && (q.1.grid b.grid).map (·.stat) == some .running && !q.1.heldCap b.die q.2 && (AMap.keys q.1.blocks).all (fun i => decide (i < q.1.nid))
      | none => false)) = true
    ∧ lab.hslotFree 0 0 = true ∧ (slotTaken [0]).hslotFree 0 0 = false ∧ (slotTaken [0]).hslotFree 0 1 = true ∧ (slotTaken [0, 1]).hslotFree 0 1 = false
    ∧ (slotTaken [0, 1]).freeHslots 0 ≠ [] ∧ (fenceAll lab).freeHslots 0 = [] ∧ ((fenceAll lab).die 0).fq = []
    ∧ (List.range 8).find? (fun j => hnd.nslotFree 0 j) = some 0 ∧ (List.range 8).find? (fun j => (nested 8).nslotFree 0 j) = none
    ∧ (hnd.block 3).map (·.kind) = some (.handler false 0 4) ∧ ((nested 1).block 20).map (·.kind) = some (.handler true 0 9) := by decide +kernel

/-- A held fault and a queue with room; a record in the queue and a free slot; a record that waits for a nest slot. -/
def waitingRec (f : Die → Die) : State := let s := fz.setDie 0 (f (fz.die 0)); { s with nid := 90 }
theorem witness_slotsTake : ((waitingRec (fun d => { d with heldq := [.coh 1 0] })).die 0).heldq = .coh 1 0 :: [] ∧ ((waitingRec (fun d => { d with fq := [.coh 1 0] })).die 0).fq = .coh 1 0 :: []
    ∧ (waitingRec (fun d => { d with fq := [.coh 1 0] })).freeHslots 0 ≠ [] ∧ ((waitingRec (fun d => { d with nestq := [.coh 1 0] })).die 0).nestq = .coh 1 0 :: []
    ∧ (List.range 8).find? (fun j => (waitingRec (fun d => { d with nestq := [.coh 1 0] })).nslotFree 0 j) = some 0
    ∧ (waitingRec id).frozen me = some (frozenMe hnd) ∧ (waitingRec id).grids.map (·.1) = [2] ∧ (waitingRec id).nid ≠ 1 := by decide +kernel

/-- A handler whose capability names a frozen cohort; one that names a suspended copy; a value that names nothing; a path outside a handler. -/
def copyCap : State := { hnd.setDie 0 { hnd.die 0 with caps := [⟨4, .copy 3, 3⟩] } with copies := copying.copies.map (fun q => { q with susp := some (frozenMe hnd) }) }
theorem witness_privileges : lab.issues (at' lab) c ∧ (at' lab).blk.isHandler = false ∧ named hnd (at' hnd) c (.s 0#6) ⟨4, .coh 1 0, 3⟩ me (fBlk hnd) (fCoh hnd) (frozenMe hnd)
    ∧ State.capOf (hnd.setDie 0 { hnd.die 0 with caps := [] }) 0 0#64 = none
    ∧ copyCap.issues (at' copyCap) c ∧ (at' copyCap).blk.isHandler = true ∧ copyCap.accessesDone (at' copyCap).ref false = true
    ∧ copyCap.capOf (at' copyCap).blk.die ((at' copyCap).sca copyCap.clk c.lit (.s 0#6)) = some ⟨4, .copy 3, 3⟩
    ∧ (copyCap.copyT 3).map (·.susp) = some (some (frozenMe hnd)) :=
  ⟨issues_of (by decide), by decide, named_of (by decide +kernel) rfl, by decide +kernel, issues_of (by decide +kernel), by decide +kernel, by decide +kernel,
    capOf_self (by decide +kernel) rfl, by decide +kernel⟩

/-- Registers that have settled, and that have not; a register that the frozen block has, and one that it has not; a matrix of the frozen thread. -/
def hndM : State := withM hnd 2 ones
def unsettled : State := { hnd with pend := (flying (.frcp (on 1#3) (.v 1#8) (.v 2#8)) fps).pend }
theorem witness_frozenReads : named hnd (at' hnd) c (.s 0#6) ⟨4, .coh 1 0, 3⟩ me (fBlk hnd) (fCoh hnd) (frozenMe hnd) ∧ namedB unsettled = true ∧ namedB hndM = true
    ∧ hnd.regsSettled me = true ∧ unsettled.regsSettled me = false ∧ (hnd.grid (fBlk hnd).grid).isSome = true ∧ (fBlk hnd).cfg.vr = 256 ∧ (fBlk hnd).cfg.t = 4 ∧ (at' hnd).lanes.length = 32
    ∧ (fCoh hndM).thread 0 ≠ none ∧ (∀ l ∈ (at' hndM).lanes, l ≠ 0 → (fCoh hndM).thread l = none) ∧ ((fCoh hndM).thread 0).map (fun th => (th.mreg 2).isEmpty) = some false
    ∧ ((at' hndM).coh.thread 0).map (fun h => decide (hndM.laneTiles (at' hndM).ref 0 h 3#4 (frzM ones 0) ≤ (at' hndM).blk.cfg.mtb)) = some true := by
  refine ⟨named_of (by decide +kernel) rfl, ?_, ?_, ?_, ?_, ?_, ?_, ?_, ?_, ?_, ?_, ?_, ?_⟩ <;> decide +kernel

/-- A read of each kind in flight. -/
def isRead (n : Nat) : PKind → Bool
  | .sysread _ => n == 0
  | .mbxr _ _ => n == 1
  | .bquery _ _ => n == 2
  | .regread _ ms => n == (if ms.isEmpty then 3 else 4)
  | _ => false
theorem witness_readsLand : ([(Instr.finf c (.s 1#6) (.s 0#6) 1#4, (0, 5)), (.mbxr c false (.s 1#6) 0#4 0#3, (1, 5)), (.bquery c (.s 1#6) .slots, (2, 5))].all (fun q =>
      match (after (exec q.1 lab) lab).pend with
      | [p] => isRead q.2.1 p.kind && p.lanes.isEmpty && !p.more && p.smp.isNone && p.ref == me
      | _ => q.2.1 == 0)) = true ∧ (lab.thr me 0).isSome = true ∧ lab.isSaved 1 = false ∧ lab.partStopped me = false := by decide +kernel

def regRead (ls : AMap VReg) (ms : AMap MReg) (d : Dst) : State :=
  let s := after (exec (.srd c (.s 1#6) 0#10) lab) lab
  { s with pend := s.pend.map (fun p => { p with kind := .regread ls ms, dst := some d }) }
theorem witness_registerReadsLand : ([regRead [(0, VReg.zero), (32, VReg.zero)] [] (.v 2#8), regRead [] [(0, ones)] (.m 1#4), after (exec (.srd c (.s 1#6) 0#10) lab) lab].all (fun s =>
      match s.pend with
      | [p] => p.lanes.isEmpty && !p.more && p.smp.isNone && p.ref == me && !s.isSaved 1 && !s.partStopped me && (s.thr me 0).isSome && s.blocks.all (fun q => q.2.logr.isNone)
      | _ => false)) = true := by decide +kernel

/-- Values for registers of the frozen cohort, with a matrix in lane 0 of the handler. -/
def hndW : State := hndM.updCoh ⟨3, 0⟩ (fun k => k.updThread 0 (fun h => h.setM 5 ones))
theorem witness_frozenWrites : named hndW (at' hndW) c (.s 0#6) ⟨4, .coh 1 0, 3⟩ me (fBlk hndW) (fCoh hndW) (frozenMe hndW) ∧ hndW.regsSettled me = true
    ∧ (at' hndW).lanes.filter (fun l => ((fCoh hndW).thread l).isSome) = [0] ∧ ((at' hndW).el hndW.clk c.lit false 0 (.v 1#8)).psn = false
    ∧ ((at' hndW).coh.thread 0).map (fun h => ((h.mreg 5).isEmpty, (h.mreg 5).psn)) = some (false, false)
    ∧ (∀ T ∈ [0, 2], (fwrmReg T ones ones).map (fun z => match (fCoh hndW).thread 0 with
      | some th => decide (hndW.laneTiles me 0 th 2#4 z ≤ 64)
      | none => false) = some true) := by
  refine ⟨named_of (by decide +kernel) rfl, ?_, ?_, ?_, ?_, ?_⟩ <;> decide +kernel

/-- A cohort frozen at its word, at the header, between words, and at word 0. -/
theorem witness_resumes : named hnd (at' hnd) c (.s 0#6) ⟨4, .coh 1 0, 3⟩ me (fBlk hnd) (fCoh hnd) (frozenMe hnd)
    ∧ (∀ s ∈ [hndZ (fun f => { f with header := true }), hndZ (fun f => { f with between := true }), hndZ (fun f => { f with widx := 0 }), { hnd with pend := (flying (lw .none)).pend.map (fun p => { p with blk := 3 }) }], namedB s = true)
    ∧ (at' hnd).ref.blk ≠ me.blk ∧ hnd.accessesDone (at' hnd).ref false = true
    ∧ State.accessesDone { hnd with pend := (flying (lw .none)).pend.map (fun p => { p with blk := 3 }) } (at' hnd).ref false = false
    ∧ (frozenMe hnd).header = false ∧ (frozenMe hnd).between = false ∧ (frozenMe hnd).widx = 1 ∧ ((fCoh hnd).path (frozenMe hnd).isB).map (·.cl) = some (some (cl' lab))
    ∧ hnd.frzOp me = none ∧ (fCoh hnd).rinc = false ∧ ((fCoh hnd).path false).bind (fun p => p.word (fBlk hnd).lim) = some (.nop c)
    ∧ seekWord (fBlk hnd).lim (frozenMe hnd).widx (cl' lab).words 1 none false = some none
    ∧ ((fCoh hnd).path false).map (fun p => (p.dem, p.rpc)) = some (false, none)
    ∧ (fBlk hnd).doneRec.isNone = true ∧ (fBlk hnd).cohs.all (fun k => decide (k.2.settle = k.2)) = true
    ∧ copyCap.capOf (at' copyCap).blk.die ((at' copyCap).sca copyCap.clk c.lit (.s 0#6)) = some ⟨4, .copy 3, 3⟩ := by
  refine ⟨named_of (by decide +kernel) rfl, ?_, ?_, ?_, ?_, ?_, ?_, ?_, ?_, ?_, ?_, ?_, ?_, ?_, ?_, ?_, capOf_self (by decide +kernel) rfl⟩ <;> decide +kernel

theorem witness_clauseAgain : hnd.fetchClause (fBlk hnd).coreId 0#20 (fBlk hnd).lim (frozenMe hnd).hdr = (hnd, .ok (cl' lab))
    ∧ (hnd.endCap 0 4).fetchClause (fBlk hnd).coreId 0#20 (fBlk hnd).lim (frozenMe hnd).hdr = (hnd.endCap 0 4, .ok (cl' lab)) := ⟨rfl, rfl⟩

/-- A frozen cohort of two lanes, of which one is killed or both; a running grid; a cohort that has issued the word of its single step. -/
def stepped : State := coded.updCoh me (fun k => { k with step := 2, pa := k.pa.map (fun (p : Path) => { p with stp := true }) })
theorem witness_kills : named hnd (at' hnd) c (.s 0#6) ⟨4, .coh 1 0, 3⟩ me (fBlk hnd) (fCoh hnd) (frozenMe hnd) ∧ hnd.pend = [] ∧ (fCoh hnd).rinc = false
    ∧ ((withS hnd 1 1#64).thr me 0).isSome = true ∧ (twoLanes hnd).thr me 1 ≠ none ∧ namedB (twoLanes hnd) = true ∧ (hnd.grid 2).map (·.stat) = some .running
    ∧ (State.setDie stepped 0 { stepped.die 0 with caps := [⟨4, .coh 1 0, 3⟩] }).heldCap 0 me = true ∧ (stepped.coh me).map (fun k => (k.step, k.frz)) = some (2, none)
    ∧ ((stepped.coh me).bind (·.path false)).map (fun p => (p.stp, p.cl.isSome, p.dem, p.rpc)) = some (true, true, false, none)
    ∧ (stepped.block 1).map (·.kind) = some .grid := by
  refine ⟨named_of (by decide +kernel) rfl, ?_, ?_, ?_, ?_, ?_, ?_, ?_, ?_, ?_, ?_⟩ <;> decide +kernel

/-- Every system word issues, with its registers; an access of the handler in flight and none. -/
theorem witness_systemWords : lab.issues (at' lab) c ∧ issuesB hnd c = true ∧ (at' hnd).blk.isHandler = true ∧ hnd.accessesDone (at' hnd).ref false = true
    ∧ ([0x000, 0x001, 0x002, 0x004, 0x005, 0x008, 0x010, 0x011, 0x012, 0x100, 0x11F, 0x120, 0x123, 0x128, 0x130, 0x140, 0x141, 0x150, 0x160, 0x200, 0x3FC].all (fun n => (srdGives lab (at' lab) n).isSome)) = true
    ∧ lab.accessesDone (at' lab).ref false = true ∧ issuesB (flying (sw .none)) c = true ∧ (flying (sw .none)).accessesDone me false = false
    ∧ sampledWord (at' lab).cls (at' lab).op = false ∧ (lab.die 0).smpsize = 0 := by
  refine ⟨issues_of (by decide), ?_, ?_, ?_, ?_, ?_, ?_, ?_, ?_, ?_⟩ <;> decide +kernel

/-! ## Witnesses: events -/

/-- Between clauses: the path of the cohort has no clause, the code of its next one is cached. -/
def ready : State := { withP (coded.updCoh me (fun k => { k with mid := false })) (fun p => { p with cl := none }) with
  cur := none, cores := [(0, { coded.core 0 with parts := [] })] }
/-- With a header that fails a check, and with breakpoints of the two actions. -/
def badCode : State := { ready with cores := [(0, { ready.core 0 with ic := [(0#20, 0x1000#64, 0#64)] })] }
def withBp (v : W64) : State := { ready with cores := [(0, { ready.core 0 with bpc := [(0, v)] })] }
theorem witness_choices : ([ready, badCode, withBp 0x1001#64, withBp 0x1005#64].all (fun s => match s.block 1 with
      | some b => match b.coh 0, s.grid b.grid with
        | some k, some g => (match k.path false with
            | some p => decide (p.cl = none ∧ p.pc = 0x1000#64)
            | none => false) && s.pow.on && !s.pow.fatal && !((s.core 0).part 0).stopped && ((s.core 0).part 0).cur.isNone && s.blocks.all (fun q => q.2.logr.isNone)
          && s.cohortsOn 0 0 == [(1, 0)] && !k.mid && s.cohReady 1 0 && s.nextPath b k == some false && decide (k.fair < 256) && k.bpskip.isNone && decide (s.nid ≠ 1) && (s.matProgress me).isNone
          && g.pasid == 0#20 && !b.isHandler && b.coreId == 0 && k.part == 0
        | _, _ => false
      | none => false)) = true
    ∧ (ready.core 0).ic = [(0#20, 0x1000#64, (cl' lab).hdr), (0#20, 0x1008#64, 0x000B000000000000#64)] ∧ hdrN (cl' lab).hdr = 1
    ∧ ([0x1000#64, 0x1008#64].all (fun va => va.extractLsb' 55 9 == 0#9 && (match ready.leafHit 0 0#20 va .fetch with
      | some (e, lv) => (permCode e .fetch).isNone && (match ready.physCheck e va lv with
        | .ok _ => true
        | .error _ => false)
      | none => false))) = true ∧ ready.cohortsOn 0 0 = [(1, 0)]
    ∧ checkClause (fBlk lab).lim (cl' lab).hdr [0x000B000000000000#64] = none ∧ (badCode.core 0).ic = [(0#20, 0x1000#64, 0#64)] ∧ hdrN 0#64 = 1
    ∧ (0x1001#64).getLsbD 0 = true ∧ 0x1001#64 >>> 3 = 0x1000#64 >>> 3 ∧ (0x1001#64).getLsbD 2 = false ∧ (0x1005#64).getLsbD 2 = true := by decide +kernel
theorem witness_badClause : (checkClause (fBlk lab).lim 0#64 [0#64]).isSome = true ∧ (badCode.core 0).ic.find? (fun e => e.1 == 0#20 && e.2.1 == 0x1000#64) = some (0#20, 0x1000#64, 0#64) := by
  decide +kernel

/-- Ready for 0 and for 48 counted cycles; due for rotation and not; a word that no counter holds, and one that its own counter holds. -/
def tired (n : Nat) : State := ready.updCoh me (fun k => { k with fair := n, spill := [⟨mkPath 64#64 8#32 none, 0#2⟩] })
def counting (n : Nat) : State := (ready.updCoh me (fun k => { k with ready := some (0, 0) })).updPart 0 0 (fun p => { p with cnt := n })
theorem witness_waiting : (counting 0).cohReady 1 0 = true ∧ (counting 48).cohReady 1 0 = true ∧ ((counting 48).coh me).map (fun k => (k.ready, k.urgent)) = some (some (0, 0), none)
    ∧ (((counting 48).core 0).part 0).cnt = 48 ∧ ([tired 3, tired 256].all (fun s => s.cohReady 1 0 && ((s.block 1).bind (fun b => (b.coh 0).map (fun k =>
      !k.mid && k.spill.length == 1 && s.nextPath b k == some false))) == some true)) = true := by decide +kernel
theorem witness_counterWaits : (lab.block 1).map (fun b => (b.saved, (b.coh 0).map (fun k => (k.frz, k.mid, k.selB, k.ctr 0)))) = some (false, some (none, true, false, 0#6))
    ∧ ((lab.core 0).part 0).cur = some (1, 0)
    ∧ ((lab.core 0).part 0).stopped = false ∧ (0x0180000000000000#64).extractLsb' 56 8 = 1#8
    ∧ ((lab.updCoh me (fun k => { k with d := [(0, 5#6)] })).coh me).map (·.ctr 0) = some 5#6 := by decide +kernel

/-- A copy whose page is not cached, with tables in main memory that map it, and without them; a unit with two copies held back. -/
def tables : State :=
  let s := { copying with tlb := [], host := { copying.host with pasids := [(0, (3#64, 0x100000#64))] } }
  ((s.writeBytes .phys 0x100000 (leBytes 8 0x110001)).writeBytes .phys 0x110000 (leBytes 8 0x120001)).writeBytes .phys 0x120000 (leBytes 8 0x50008F)
def walkVa : W64 := 0x100#64
def heldBack : State := { copying with copies := copying.copies ++ copying.copies.map (fun k => { k with id := 9 }), missq := [(0, 3)] }
theorem witness_walks : lost.wants 0 0#20 walkVa .copyIn = true ∧ (match (lost.translate 0 0#20 walkVa .copyIn).2 with
      | .error _ => true
      | .ok _ => false) = true
    ∧ tables.wants 0 0#20 walkVa .copyIn = true ∧ walkVa.extractLsb' 55 9 = 0#9 ∧ tables.errIn = [] ∧ tables.tlb = [] ∧ tables.host.pasids.find 0 = some (3#64, 0x100000#64)
    ∧ (∀ q ∈ [(0x100000, 2, 0x110001#64, 0x110000), (0x110000, 1, 0x120001#64, 0x120000), (0x120000, 0, 0x50008F#64, 0x500000)], tables.physAddr q.1 = some q.1
      ∧ tables.poisoned .phys (q.1 + 8 * vaIndex walkVa q.2.1) 8 = false ∧ BitVec.ofNat 64 (tables.readNat .phys (q.1 + 8 * vaIndex walkVa q.2.1) 8) = q.2.2.1
      ∧ q.2.2.1.getLsbD 0 = true ∧ badEntry q.2.2.1 q.2.1 = false ∧ q.2.2.1.getLsbD 1 = (q.2.1 == 0) ∧ frameOf q.2.2.1 = q.2.2.2)
    ∧ permCode 0x50008F#64 .copyIn = none ∧ (tables.physAddr (0x500000 + walkVa.toNat % 65536)).isSome = true
    ∧ heldBack.missq.find 0 = some 3 ∧ heldBack.misses 0 3 < 4160 ∧ (heldBack.copies.filter (fun c => xunit c.core == 0 && decide (3 ≤ c.id))).length = 2
    ∧ ((copying.copies.filter (fun c => xunit c.core == 0 && decide (3 ≤ c.id))).length ≤ 1) := by decide +kernel

/-- A machine that runs its firmware, with queue 0 bound, its control block at 0x100000, its ring at 0x2000 and one command. -/
def cmdW (op : Nat) (ws : List W64) : Cmd := ⟨7, 0, op, 3#64, [BitVec.ofNat 64 op, 0x3000#64] ++ ws, false, false, 0, 0⟩
def hosted (c : List Cmd) (x : Queue → Queue := id) : State :=
  { lab with cur := none, agenda := [], pow := { lab.pow with bootst := 3 }, host := { lab.host with
      featst := 2#64
      pasids := [(0, (0x100003#64, 0x200000#64))]
      queues := [(0, x { Queue.zero with bound := true, binding := 0x80000000#64, tail := 1, entry := some [0#64, 0x04030003#64, 0x2000#64], cmds := c })] } }
/-- A leaf translates a command's address, and the place it gives. -/
def seesB (s : State) (va : W64) (ac : Access) (pa : Nat) : Bool := va.extractLsb' 55 9 == 0#9 && (match s.leafHit ioUnit 0#20 va ac with
  | some (e, lv) => (permCode e ac).isNone && s.physAddr (leafAddr e va lv) == some pa
  | none => false)
/-- `hostReady` for that queue as a check. -/
def readyB (s : State) : Bool := s.errIn.isEmpty && (s.queue 0).pasid == 0#20 && s.physAddr 0x100000 == some 0x100000 && s.host.pasids.find 0 == some (0x100003#64, 0x200000#64)
  && seesB s 0x3000#64 .write 0x53000
theorem sees_of {s : State} {va : W64} {ac : Access} {pa : Nat} (hp : (s.queue 0).pasid = 0#20) (h : seesB s va ac pa = true) : hostSees s 0 va ac pa := by
  unfold seesB at h
  unfold hostSees
  rw [hp]
  simp only [Bool.and_eq_true, beq_iff_eq] at h
  obtain ⟨h1, h2⟩ := h
  refine ⟨h1, ?_⟩
  split at h2
  · rename_i e lv he
    simp only [Bool.and_eq_true, Option.isNone_iff_eq_none, beq_iff_eq] at h2
    exact ⟨e, lv, he, h2.1, h2.2⟩
  · exact absurd h2 (by decide)
theorem hostReady_of {s : State} {c : Cmd} (h : readyB s = true) (hc : c.w64 8 = 0x3000#64) : hostReady s 0 0x100000 c := by
  simp only [readyB, Bool.and_eq_true, List.isEmpty_iff, beq_iff_eq] at h
  obtain ⟨⟨⟨⟨h1, h2⟩, h3⟩, h4⟩, h5⟩ := h
  refine ⟨⟨⟨0x100003#64, 0x200000#64, ?_, by decide, by decide, by simpa using h3⟩, fun _ => ?_⟩, h1⟩
  · rw [h2]; exact h4
  · rw [hc]
    exact ⟨by decide, 0x53000, sees_of h2 h5, Or.inl (by decide)⟩

/-- A doorbell's queue that runs, that is stopped, whose entry is not present; a slot that holds a command, one that does not translate. -/
def stopped : State := hosted [] (fun q => { q with state := 2, err := 0x13 })
def absent : State := hosted [] (fun q => { q with entry := some [0#64, 0#64, 0#64] })
def noRing : State := hosted [] (fun q => { q with entry := some [0#64, 0x04030003#64, 0xA0000000#64] })
theorem witness_doorbells : (∀ s ∈ [hosted [], stopped, absent, noRing], readyB s = true ∧ (s.queue 0).entry.isSome = true ∧ s.pow.on = true ∧ s.pow.bootst = 3)
    ∧ (hosted []).pow.fatal = false ∧ (hosted []).pow.ps2 = false ∧ ((hosted []).queue 0).bound = true ∧ ((hosted []).queue 0).state = 0 ∧ ((hosted []).queue 0).head ≠ ((hosted []).queue 0).tail
    ∧ (stopped.queue 0).state = 2 ∧ (∀ i < 8, seesB (hosted []) (0x2000#64 + BitVec.ofNat 64 (8 * i)) .read (0x52000 + 8 * i) = true)
    ∧ (noRing.translate ioUnit 0#20 0xA0000000#64 .read).1 = noRing ∧ (match (noRing.translate ioUnit 0#20 0xA0000000#64 .read).2 with
      | .error _ => true
      | .ok _ => false) = true := by decide +kernel

/-- LAUNCH of the record at 0x4000: a record of zeros, a good one, one with DUALN 1, one above PCAP. -/
def launching (ws : List W64) (x : Queue → Queue := id) : State :=
  (List.range ws.length).foldl (fun s i => s.writeBytes .phys (0x54000 + 8 * i) (leBytes 8 (ws.getD i 0#64).toNat)) (hosted [cmdW 1 [0x4000#64]] x)
def goodRec (w4 : W64) : List W64 := [0x1000#64, 0x2000#64, 0x0001000100000001#64, 0x0020000100010001#64, w4]
theorem witness_launches : (∀ s ∈ [launching [], launching (goodRec 0#64), launching [0x1000#64, 0x2000#64, 0x0001000100000001#64, 0x0020000100010001#64, 1#64, 0#64, 0x80#64],
      launching (goodRec 0x300#64) (fun q => { q with entry := some [0#64, 0x04020003#64, 0x2000#64] })], readyB s = true ∧ s.cmdOf 0 7 = some (cmdW 1 [0x4000#64]) ∧ (s.queue 0).state = 0
        ∧ (s.queue 0).bound = true ∧ s.pow.fatal = false ∧ s.pow.on = true ∧ (s.queue 0).cmds.head?.map (·.id) = some 7 ∧ ∀ i < 32, seesB s (0x4000#64 + BitVec.ofNat 64 (8 * i)) .read (0x54000 + 8 * i) = true)
    ∧ (recCheck (List.replicate 32 0#64)).isSome = true ∧ [0#64, 0x300#64].all (fun w4 => recCheck (goodRec w4 ++ List.replicate 27 0#64) == none) = true
    ∧ recCheck ([0x1000#64, 0x2000#64, 0x0001000100000001#64, 0x0020000100010001#64, 1#64, 0#64, 0x80#64] ++ List.replicate 25 0#64) = none
    ∧ ((List.range 32).map (fun i => BitVec.ofNat 64 ((launching (goodRec 0#64)).readNat .phys (0x54000 + 8 * i) 8))) = goodRec 0#64 ++ List.replicate 27 0#64 := by decide +kernel

/-- Each command, fetched, and under way; a compare that holds and one that does not; an address that does not translate. -/
def cmds : List Cmd := [cmdW 2 [0x4000#64, 0x5000#64, 8#64, 0#64], cmdW 3 [0x4000#64, 0#64, 0#64], cmdW 3 [0x4000#64, 5#64, 0x100000000#64], cmdW 4 [0x4000#64, 7#64, 1#64], cmdW 5 [0x4000#64, 0#64, 0x300000000#64],
  cmdW 5 [0x4000#64, 5#64, 0#64], cmdW 7 [], cmdW 2 [0xA0000000#64, 0x5000#64, 8#64, 0#64], cmdW 3 [0xA0000000#64, 0#64, 0#64]]
theorem witness_commands : (cmds.all (fun k => readyB (hosted [k]) && k.w64 8 == 0x3000#64 && (hosted [k]).cmdOf 0 7 == some k && ((hosted [k]).queue 0).bound && ((hosted [k]).queue 0).state == 0
      && ((hosted [k]).queue 0).cmds.head?.map (·.id) == some 7 && readyB (hosted [{ k with began := true }]) && (hosted [{ k with began := true }]).cmdOf 0 7 == some { k with began := true })) = true
    ∧ (∀ i < 8, seesB (hosted cmds) (0x4000#64 + BitVec.ofNat 64 i) .copyIn (0x54000 + i) = true ∧ seesB (hosted cmds) (0x5000#64 + BitVec.ofNat 64 i) .copyOut (0x55000 + i) = true)
    ∧ (∀ ac ∈ [Access.read, .atomic], seesB (hosted cmds) 0x4000#64 ac 0x54000 = true)
    ∧ (hosted cmds).readNat .phys 0x54000 8 = 0 ∧ (∀ ac ∈ [Access.copyIn, .read], (match (hosted cmds).translate ioUnit 0#20 0xA0000000#64 ac with
      | (t, .error _) => decide (t = hosted cmds)
      | _ => false) = true)
    ∧ (hosted cmds).pow.fatal = false ∧ (hosted cmds).pow.on = true := by decide +kernel

/-- SELFTEST of core 1 with the feature and without; a group whose time is over. -/
def testing : State := { (hosted []).setCore 1 { Core.zero with testing := true } with clk := 9000000 }
def testable (f : W64) : State := { hosted [cmdW 6 [0#64, 0#64, 2#64]] with host := { (hosted [cmdW 6 [0#64, 0#64, 2#64]]).host with featcom := f } }
theorem witness_selftests : ([0#64, 16#64].all (fun f => readyB (testable f) && (testable f).cmdOf 0 7 == some (cmdW 6 [0#64, 0#64, 2#64]) && (testable f).host.featcom.getLsbD 4 == (f == 16#64))) = true
    ∧ ((cmdW 6 [0#64, 0#64, 2#64]).w64 32).getLsbD 1 = true ∧ (cmdW 6 [0#64, 0#64, 2#64]).testCores = [1] ∧ (cmdW 6 [0#64, 0#64, 2#64]).byte 16 = 0 ∧ ((hosted [cmdW 6 []]).queue 0).cmds.head?.map (·.id) = some 7
    ∧ testing.testGroup 0 0 = [1] ∧ testing.groupTime 0 0 = true ∧ testing.pow.fatal = false ∧ testing.blocks.all (fun b => b.2.coreId != 1) = true ∧ testing.selftests = [] ∧ testing.errIn = [] := by
  decide +kernel

/-- A queue enabled and one not, the firmware running and not, an invalidation under way, features that are offered and not. -/
def idleHost : State := { hosted [] with host := { (hosted []).host with queues := [], qtinv := [0x8000000000000000#64], featoff := 1#64, featacc := 1#256 } }
theorem witness_bindings : (hosted []).pow.on = true ∧ (hosted []).host.featst.getLsbD 1 = true ∧ (hosted []).pow.bootst = 3 ∧ (0x80000001#64).getLsbD 31 = true ∧ lab.host.featst.getLsbD 1 = false
    ∧ (hosted []).host.queues.any (fun q => q.2.bound) = true ∧ idleHost.host.queues = [] ∧ idleHost.host.qtinv = 0x8000000000000000#64 :: []
    ∧ (List.range 256).all (fun i => !(idleHost.host.featacc.getLsbD i) || (idleHost.host.featoff.setWidth 256).getLsbD i) = true
    ∧ ({ idleHost.host with featacc := 2#256 }.featacc.getLsbD 1 && !(idleHost.host.featoff.setWidth 256).getLsbD 1) = true ∧ idleHost.pow.bootst = 3 := by decide +kernel

/-! ## Witnesses: placement, rotation, debugging, fabric, boot, one step -/

/-- A grid with one block to place; one with a launched task group; on the die 0, where core 0 holds the other block. -/
def toPlace : State := { withG lab (fun g => { g with next := 0 }) with cur := none }
def tasks : State := (withG { lab with cur := none } (fun g => { g with lrec := { g.lrec with sb := 0 } })).setDie 0 { Die.zero with tq := [⟨2, 0x1000#64, [1#32, 2#32, 3#32, 4#32], 0#64, none, 0, some 0⟩] }
theorem witness_placements : (toPlace.placement 2).map (fun q => (q.1, q.2.1 == .block 0 none, q.2.2)) = some (1, true, 256) ∧ (toPlace.grid 2).map (·.recd) = some false
    ∧ (toPlace.grid 2).map (fun g => (toPlace.fits 256 (g.lrec.need g.lrec.nt) false).isSome) = some true
    ∧ (tasks.placement 2).map (fun q => (q.1, q.2.1 == .task 0 none)) = some (0, true) ∧ (tasks.taskGroup 2 0 0).length = 1
    ∧ (tasks.grid 2).map (fun g => (tasks.fits 1 (g.lrec.need (tasks.taskGroup 2 0 0).length) false).isSome) = some true ∧ toPlace.grids.length = 1 := by decide +kernel

/-- A grid whose next block fits nowhere while its resident one waits, with an image slot and without. -/
def stuck (rs : Nat) : State := { waits (withG (withB lab (fun b => { b with size := 64 })) (fun g => { g with next := 0, since := some 0, lrec := { g.lrec with sb := 300000, rsize := rs } })) .bar 0 with cur := none, clk := 20000000 }
/-- A second grid of a higher PRIO waits for the block of the first. -/
def preempting : State :=
  let s := withG { lab with cur := none, clk := 20000000 } (fun g => { g with lrec := { g.lrec with rsize := 10000000 } })
  s.setGrid 9 { fetchGrid with next := 0, waits := some 0, lrec := { fetchLrec with sb := 300000, prio := 2 } }
def savedState : State := { withG (withB ready (fun b => { b with saved := true, size := 64 })) (fun g => { g with rot := [1], slots := [(1, 0)] }) with cur := none }
/-- A block that stands in the middle of the scratchpad, and one that needs a run of 200,000 bytes. -/
def spread : State :=
  let s := withB { ready with cur := none } (fun b => { b with base := 131072 })
  withG s (fun g => { g with next := 0, lrec := { g.lrec with sb := 200000 } })
theorem witness_rotations : ((stuck 10000000).grid 2).map (fun g => ((stuck 10000000).rotNeeded 2 g, g.freeSlot)) = some (true, some 0)
    ∧ ((stuck 10000000).rotVictim 2).map (fun v => (v.1, (stuck 10000000).canSave v.1 v.2)) = some (1, true)
    ∧ (preempting.grid 9).map (fun g => (g.waits, g.stat, preempting.itemStuck 9 g, (preempting.preemptVictim g).map (·.1))) = some (some 0, .running, true, some 1)
    ∧ (preempting.grid 2).map (fun g => (g.freeSlot, decide (g.lrec.prio < 2))) = some (some 0, true) := by decide +kernel
/-- The same block with an arrival at a scoped barrier, of which its new instance knows nothing yet. -/
def savedBarrier : State := withB savedState (fun b => { b with sbo := some ⟨false, .clus, 1, true⟩ })
theorem witness_restoreAtABarrier : (savedBarrier.placement 2).map (fun q => q.2.1 == .rotated 1) = some true ∧ savedBarrier.pend = []
    ∧ (savedBarrier.block 1).map (fun b => (b.sbo == some ⟨false, .clus, 1, true⟩, (savedBarrier.fits 256 b.need false).isSome, b.cohs.all (fun c => c.2.frz.isNone))) = some (true, true, true)
    ∧ (savedBarrier.grid 2).map (·.sbars) = some [] := by decide +kernel
theorem witness_restoresAndMoves : (savedState.placement 2).map (fun q => q.2.1 == .rotated 1) = some true ∧ (savedState.block 1).map (fun b => (b.saved, (savedState.fits 256 b.need false).isSome,
      b.cohs.all (fun c => c.2.frz.isNone))) = some (true, true, true)
    ∧ savedState.pend = [] ∧ (savedState.block 1).map (·.sbo) = some none
    ∧ spread.wantsRun 0 = true ∧ (spread.nextMove 0).map (fun q => (q.1, q.2.2, q.2.1.base % 16)) = some (1, 0, 0) ∧ (spread.block 1).map (·.coreId) = some 0 := by decide +kernel

/-- The residency condition has held for 10 ms and rotation is not possible; a group whose time is over; grids of which nothing is left; a reply to a saved image. -/
def ending (st : GStat) : State := { withG (hosted [{ cmdW 1 [] with id := 0, began := true }]) (fun g => { g with stat := st, status := if st = .killed then 0x10 else 0 }) with blocks := [] }
def savedLoad : State := withB (flying (lw .none)) (fun b => { b with saved := true })
theorem witness_gridEnds : ((stuck 0).grid 2).map (fun g => ((stuck 0).rotNeeded 2 g, (stuck 0).noRotation 2 g, g.since, g.stat)) = some (true, true, some 0, .running)
    ∧ ((taskQueue 1).die 0).tq.map (fun u => (u.seq, u.at')) = [(none, 0)] ∧ (∀ st ∈ [GStat.running, .killed], (ending st).blocks = [] ∧ (ending st).copies = [] ∧ (ending st).pend = []
      ∧ (ending st).dies.all (fun d => d.2.tq.isEmpty) = true ∧ readyB (ending st) = true ∧ (ending st).cmdOf 0 0 = some { cmdW 1 [] with id := 0, began := true }
      ∧ ((ending st).grid 2).map (fun g => (decide (g.stat = st), decide (g.lrec.total ≤ g.next), g.qn, g.cmd)) = some (true, true, 0#16, 0)) := by decide +kernel
theorem witness_savedReplies : ((savedLoad.pendOf 3).map (fun p => ((savedLoad.landable p 0 true).map (fun as => (savedLoad.groupOk p (p.sameElement 0) && p.sameElement 0 == [0], decide (as.map (·.k)).Nodup, as.length)), p.smp.isNone, match p.kind with
      | .load .none _ => true
      | _ => false))) = some (some (true, true, 1), true, true) ∧ (savedLoad.thr me 0).isSome = true ∧ savedLoad.errIn = [] := by decide +kernel

/-- A partition that is stopped, with a load of it in flight; an image put aside. -/
def halted : State := (flying (lw .none)).updPart 0 0 (fun p => { p with stopped := true })
def liveAside : State := { halted with dbg := { halted.dbg with live := [(1, fBlk halted)] } }
theorem witness_stops : ((halted.core 0).part 0).stopped = true ∧ halted.dbg.live = [] ∧ ((lab.core 0).part 0).stopped = false
    ∧ halted.pend.map (fun p => (halted.cohortsOn 0 0).contains (p.blk, p.coh) && p.slot == some 1#3 && !p.more && p.lanes.all (fun l => decide (l.1 < 32) && l.2.any (fun a => a.k == 0)) && !p.lanes.isEmpty && isLoad .none p.kind && p.dst == some (.v 2#8)) = [true] ∧ (halted.coh me).map (fun k => decide (k.cslot < 11)) = some true
    ∧ (liveAside.dbg.live.find 1).isSome = true := by decide +kernel

/-- A recorded block at a boundary for which a checkpoint is due, and one inside a clause; a kept state of clause count 0; logs of an engine, whole and not. -/
def recorded (s : State) : State := withG (withB s (fun b => { b with logr := some 0, ckw := true })) (fun g => { g with recd := true })
def kept : State := let s := { halted with pend := [] }; { s with dbg := { s.dbg with snaps := [⟨1, 0, true, 0, fBlk s⟩], ckdepth := 4#8 } }
def logged (w : Bool) : State := (kept.setDie 1 { Die.zero with englog := [⟨1, [], [], w, 0⟩], engsize := if w then 4096#64 else 0#64 })
theorem witness_checkpoints : ((recorded ready).block 1).map (fun b => ((recorded ready).ckptDue b, b.saved, b.held)) = some (true, false, true)
    ∧ ((withB (recorded lab) (fun b => { b with ckw := false })).block 1).map (fun b => (b.saved, b.held)) = some (false, false)
    ∧ (kept.block 1).map (fun b => (kept.gridStopped b.grid, b.saved, kept.allocQuiet 1 b, (kept.snapAt 1 0 0).isSome, (kept.snapAt 1 0 5).isNone)) = some (true, false, true, true, true)
    ∧ (lab.block 1).map (fun b => lab.gridStopped b.grid) = some false ∧ kept.dbg.live.find 1 = none ∧ kept.errIn = [] ∧ (∀ w ∈ [true, false], ((logged w).die 1).englog.map (((logged w).die 1).logWhole) = [w]) := by
  decide +kernel

/-- A link that has failed once and nine times; a fatal error that has been raised; LIFEH that falls below its threshold; banks with a record. -/
theorem witness_errors : lab.pow.fatal = false ∧ lab.fab.down = [] ∧ ({ lab.fab with crcs := [(0, 8)] }.crcs.get 0 0 + 1 = 9) ∧ ({ lab.pow with raised := some (0, 0xB) }.raised = some (0, 0xB))
    ∧ (3#32).toNat < (5#32).toNat ∧ ({ Die.zero with lifeh := 7#32, lifethr := 5#32 }.lifethr.toNat ≤ 7) ∧ ((lab.die 0).banks.get 0xB Bank.zero).status = 0#64
    ∧ (0x80000000000C0006#64).getLsbD 63 = true ∧ ((0x80000000000C0006#64).toNat / 2 ^ 60) % 4 < 1 := by decide +kernel

/-- A store whose bytes lie with another die, and none on the network; two flits that want one link; a request that is whole and one that is not. -/
def far : State := { flying (lw .none) with pend := (flying (lw .none)).pend.map (fun p => { p with lanes := [(0, [⟨0, .die 2, 0, 4, 0#64, 0#64, false⟩])] }) }
theorem witness_requests : far.fab.reqs = [] ∧ (far.pendOf 3).map (fun p => (p.away 0, p.blk)) = some (some (2, 4), 1) ∧ (far.block 1).map (·.die) = some 0
    ∧ (let a : NetReq := ⟨1, 0, 0, 0, 2, 0, 0, [(1, true)]⟩
       let b : NetReq := ⟨2, 0, 0, 0, 2, 5, 1, [(1, true)]⟩
       a.id ≠ b.id ∧ a.dst = b.dst ∧ a.dst ≠ 1 ∧ a.inj < b.inj ∧ (∃ f ∈ a.flits, f.1 ≠ a.dst) ∧ ∀ f ∈ ({ a with flits := [(2, true)] } : NetReq).flits, f.1 = a.dst) := by decide +kernel

/-- An arbiter that has visited nothing, one in the middle of a round and one behind its last class; inputs granted and not. -/
def midRound : Arb := { Arb.zero with lo := some 0, dc := [(0, 128)], w := [(0, 3), (1, 1)] }
theorem witness_arbiter : midRound.pos false = some 0 ∧ 64 ≤ midRound.dc.get 0 0 ∧ ({ midRound with dc := [(0, 63)] }.dc.get 0 0 < 64)
    ∧ ({ midRound with lo := some 5, dc := [] }.pos false = some 5) ∧ Arb.zero.pos false = none ∧ Arb.zero.pos true = none
    ∧ (Arb.zero.granted 0 3 true).input [3, 7] = some 7 ∧ Arb.zero.input [3, 7] = some 3 := by decide +kernel

/-- A link with 9 retransmissions behind it leads to package 5; a copy that reads there, and a waiting word that has sent a lane there. -/
def failing : State := { copying with pend := [], fab := { copying.fab with crcs := [(3, 9)], route := [(5, 8#32)] }, tlb := [⟨0, 0#20, 0#64, 16, 0x81400000000EF#64⟩], host := { copying.host with featcom := 2#64 } }
def overLink : State := { failing with
  copies := []
  pend := (flying (lw .none)).pend.map (fun p => { p with more := true, lanes := [(0, [⟨0, .phys, 0x8140000000000, 4, 0#64, 0#64, false⟩])] }) }
theorem witness_linksLost : failing.copies.map (fun k => ((match failing.translate (xunit k.core) k.pasid (k.memAddr (k.pos k.done)) (if k.out then .copyOut else .copyIn) with
      | (_, .ok pa) => failing.linkAt pa
      | _ => none), k.susp.isNone, k.out || k.fill.isNone)) = [(some 3, true, true)]
    ∧ overLink.pend.map (fun p => (p.more, p.lanes.map (fun l => l.2.map overLink.linkOf))) = [(true, [[some 3]])] ∧ 8 < failing.fab.crcs.get 3 0 := by decide +kernel

theorem witness_links : (3 : Nat) < 18 ∧ 3 ∉ lab.fab.down ∧ 8 < ({ lab.fab with crcs := [(3, 9)] }.crcs.get 3 0) ∧ lab.pend = []
    ∧ bitsAt (0x8000000000000 + 5 * 2 ^ 42) 42 9 = 5 ∧ lab.fab.self ≠ 5 ∧ (∀ l < 18, (lab.fab.route.get 5 0#32).getLsbD l = false) := by decide +kernel

/-- An image that the boot ROM takes, and one that it refuses; a machine that waits, one that has an image, one whose firmware runs. -/
def image : List Byte := leBytes 8 0x4B484C3732303046 ++ leBytes 8 64 ++ List.replicate 560 0#8
theorem witness_boots : leNat (image.take 8) = 0x4B484C3732303046 ∧ leNat ((image.drop 8).take 8) = 64 ∧ 64 + 512 ≤ image.length ∧ leNat (([] : List Byte).take 8) ≠ 0x4B484C3732303046
    ∧ lab.pow.on = true ∧ lab.pow.bootst = 1 ∧ lab.pow.img = none ∧ ({ lab.pow with img := some image }.img = some image) ∧ (hosted []).pow.bootst = 3
    ∧ (List.replicate 32 0#8 : List Byte).length = 32 := by decide +kernel

def resting : State := { State.reset with clk := 20000000, pow := { State.reset.pow with bootst := 3, idle := some 0 } }
theorem witness_power : (hosted []).pow.on = true ∧ 1200 ≤ (2800#32).toNat ∧ (1#32).toNat < 1200 ∧ resting.quiet = true ∧ resting.pow.idle = some 0 ∧ resting.pow.fatal = false ∧ resting.pow.ps2 = false
    ∧ 0 + 15000000 ≤ resting.clk ∧ State.reset.pow.idle = none ∧ (hosted []).quiet = false := by decide +kernel

/-- Well-formed instructions, and words that decode and encode. -/
theorem witness_roundTrips : ([Instr.nop c, .iadd c false .i32 (.v 1#8) (.v 2#8) (.v 3#8), .sadd ⟨0#8, none, some 5#64⟩ (.s 1#6) (.s 2#6) .lit].all (fun i => i.wf (fBlk lab).lim && !(encode i).isEmpty)) = true
    ∧ (match decodeWord (fBlk lab).lim 0x000B000000000000#64 0#64 with
      | .ok i => i == .nop c
      | .error _ => false) = true := by decide +kernel

/-- A header for each check, and words that no row lists and that may not stand in a clause of CCLS 1. -/
theorem witness_clauseChecks : hdrSig 0#64 ≠ 0xD#4 ∧ hdrSig 0xD0E0000000000000#64 = 0xD#4 ∧ 5 ≤ (hdrCcls 0xD0E0000000000000#64).toNat ∧ (0xD000000000000001#64).extractLsb' 0 44 ≠ 0#44
    ∧ (hdrCcls 0xD000000000000001#64).toNat < 5 ∧ hdrSig 0xD000000000000000#64 = 0xD#4 ∧ raw (Fields.ofWord 0x000F000000000000#64) none = none
    ∧ raw (Fields.ofWord 0x0001000800505000#64) none = some (.iadd c false .i32 (.v 8#8) (.v 1#8) (.s 5#6)) ∧ placeOk 1#4 0#6 (hdrCcls 0xD020000000000000#64) = false := by decide +kernel

/-- A cohort that issues a NOP; an outside event that is due; a fatal error; a machine in which the first event fires. -/
theorem witness_steps : lab.pow.raised = none ∧ lab.agenda = [] ∧ lab.ctx.isSome = true ∧ lab.mayIssue (at' lab) = true ∧ (at' lab).path.cl = some (cl' lab) ∧ (cl' lab).wi ≤ (cl' lab).words.length
    ∧ (match decodeWord (at' lab).blk.lim ((cl' lab).words.getD ((cl' lab).wi - 1) 0#64) ((cl' lab).words.getD (cl' lab).wi 0#64) with
      | .ok i => i == .nop c
      | .error _ => false) = true ∧ lab.wordStalls (at' lab) (.nop c) = false ∧ lab.ordHeld (at' lab) (.nop c) = none ∧ lab.dxPending = false ∧ (Instr.powerOff).ctl = none := by decide +kernel
/-- A load behind an acquire that has not landed. -/
def behindAcquire : State :=
  { labOf ((encode (lw .none)).headD 0#64).toNat with pend := (flying (lw .none)).pend.map (fun p => { p with acq := true }) }
theorem witness_heldStep : behindAcquire.pow.raised = none ∧ behindAcquire.agenda = [] ∧ behindAcquire.ctx.isSome = true ∧ behindAcquire.mayIssue (at' behindAcquire) = true
    ∧ (match (at' behindAcquire).path.word (at' behindAcquire).blk.lim with
      | some i => i == lw .none && !behindAcquire.wordStalls (at' behindAcquire) i && behindAcquire.ordHeld (at' behindAcquire) i == some 2
      | none => false) = true := by decide +kernel
def landing : State := { ready with pend := (flying (lw .none)).pend }
theorem witness_eventSteps : landing.pow.raised = none ∧ landing.agenda = [] ∧ landing.issueNow.isNone = true ∧ landing.ordWait.isNone = true ∧ (match landing.events with
      | f :: _ => (match f landing with
        | .next t => t != landing
        | _ => false)
      | [] => false) = true := by decide +kernel

/-- A state whose memory is canonical, of which step answers a next state. -/
theorem witness_canonical : lab.memWf ∧ (match step lab with
      | .next _ => true
      | _ => false) = true := by
  constructor
  · unfold State.memWf
    decide +kernel
  · decide +kernel

/-! ## WellFormed: an ill-formed term for each check, beside one that passes it -/

/-- 32 vector registers and two tangents. -/
def L0 : Lim := ⟨32, 2⟩
def refuses (l : List Instr) : Bool := l.all (fun i => !i.wf L0)
def takes (l : List Instr) : Bool := l.all (fun i => i.wf L0)
def lit0 : Ctl := ⟨0#8, none, some 5#64⟩

/-- Events are no words; a literal without a field that names it, and a field without a literal; SE missing where R57 asks for it. -/
theorem test_wf_refuses_control : refuses [.powerOn, .sadd lit0 (.s 1#6) (.s 2#6) (.s 3#6), .sadd c (.s 1#6) (.s 2#6) .lit, .ftanh c (.v 1#8) (.v 2#8), .srd c (.s 1#6) 0#10] = true := by decide
theorem test_wf_takes_control : takes [.sadd lit0 (.s 1#6) (.s 2#6) .lit, .ftanh (on 1#3) (.v 1#8) (.v 2#8), .srd (on 1#3) (.s 1#6) 0#10] = true := by decide

/-- Sources of each kind (R41 to R46): VR, pairs, reserved specials and inline values, thread values in scalar fields, ring registers, groups, frozen registers, matrices. -/
theorem test_wf_refuses_sources : refuses [.iadd c false .i32 (.v 1#8) (.v 32#8) (.v 2#8), .mov c true none (.v 2#8) (.v 3#8), .mov c true none (.v 2#8) (.v 32#8),
    .iadd c false .i32 (.v 1#8) (.special 0x1D#5) (.v 2#8), .iadd c false .i32 (.v 1#8) (.int 48#6) (.v 2#8), .iadd c false .i32 (.v 1#8) (.fp 1#4) (.v 2#8), .fadd c .rne (.v 1#8) (.int 1#6) (.v 2#8),
    .fadd c .rne (.v 1#8) (.fp 15#4) (.v 2#8), .iadd c false .i32 (.v 1#8) (.k 1#3) (.v 2#8), .iadd c false .i32 (.v 1#8) (.m 1#4) (.v 2#8), .sadd c (.s 1#6) (.v 2#8) (.s 3#6),
    .sadd c (.s 1#6) (.special 1#5) (.s 3#6), .sadd c (.s 1#6) (.fp 1#4) (.s 3#6), .cvt c .rne ⟨.f32, false, false, false, none⟩ (.v 1#8) (.s 2#6), .ret c (.v 3#8), .ret c (.s 2#6)] = true := by decide
theorem test_wf_refuses_more_sources : refuses [.spawn c (.s 4#6) 8#8 (.v 3#8), .lds (on 1#3) (ld .none .ring) (.v 2#8) (.s 1#6) (.v 3#8), .lds (on 1#3) (ld .none .ring) (.v 2#8) (.k 1#3) (.s 3#6),
    .bcp c false true 1#6 (.s 4#6) (.s 60#6) (.s 6#6), .bcp c false true 1#6 (.s 4#6) (.int 5#6) (.s 6#6), .gath (on 1#3) .a64 .f32 (.v 1#8) (.s 1#6) (.v 3#8),
    .frdv (on 1#3) true 0#3 (.v 2#8) (.s 0#6) (.v 3#8), .frdv (on 1#3) false 5#3 (.v 2#8) (.s 0#6) (.v 3#8), .frdv (on 1#3) true 0#3 (.v 2#8) (.s 0#6) (.special 0x18#5),
    .frds (on 1#3) (.s 1#6) (.s 0#6) (.v 1#8), .frds (on 1#3) (.s 1#6) (.s 0#6) (.special 1#5), .tget c 0#2 (.v 1#8) (.s 1#6)] = true := by decide
theorem test_wf_takes_sources : takes [.mov c true none (.v 2#8) (.v 30#8), .iadd c false .i32 (.v 31#8) (.special 0x1C#5) (.int 47#6), .fadd c .rne .seed (.fp 14#4) (.latch 7#3),
    .sadd c (.s 1#6) (.special 0#5) (.b 3#6), .ret c (.v 2#8), .spawn c (.s 4#6) 28#8 (.v 2#8), .lds (on 1#3) (ld .none .ring) (.v 2#8) (.k 1#3) (.v 3#8), .bcp c false true 1#6 (.s 4#6) (.s 59#6) (.s 6#6),
    .frdv (on 1#3) true 4#3 (.v 2#8) (.s 0#6) (.v 254#8), .frds (on 1#3) (.s 1#6) (.s 0#6) (.k 1#3)] = true := by decide

/-- Destinations of each kind (R43, R44, R53). -/
theorem test_wf_refuses_destinations : refuses [.iadd c false .i32 (.s 1#6) (.v 1#8) (.v 2#8), .iadd c false .i32 (.v 32#8) (.v 1#8) (.v 2#8), .mov c true none .seed (.v 2#8), .ftanh (on 1#3) .nwb (.v 2#8),
    .sadd c (.v 1#8) (.s 2#6) (.s 3#6), .sadd c (.k 1#3) (.s 2#6) (.s 3#6), .bara c .nwb, .smov c (.v 1#8) (.s 2#6), .lreduce c .add (.m 1#4) (.v 2#8), .tset c 0#2 .nwb (.v 2#8), .tget c 0#2 (.s 1#6) (.v 2#8),
    .fwrv c true 0#3 (.v 3#8) (.s 0#6) (.v 2#8), .fwrv c false 5#3 (.v 3#8) (.s 0#6) (.v 2#8), .fwrv c true 0#3 .seed (.s 0#6) (.v 2#8), .fwrv c false 1#3 .seed (.s 0#6) (.v 2#8), .fwrs c (.v 1#8) (.s 0#6) (.s 2#6),
    .frdm (on 1#3) 0#3 (.s 1#6) (.s 0#6) 1#4, .lds (on 1#3) ⟨.f64, .none, .base, 0#8⟩ (.v 3#8) (.s 1#6) (.v 3#8)] = true := by decide
theorem test_wf_takes_destinations : takes [.mov c true none .nwb (.v 2#8), .sadd c .nwb (.s 2#6) (.s 3#6), .smov c (.k 1#3) (.s 2#6), .lreduce c .add (.s 1#6) (.v 2#8), .tset c 0#2 (.m 1#4) (.m 2#4),
    .fwrv c false 0#3 .seed (.s 0#6) (.v 2#8), .fwrs c (.k 1#3) (.s 0#6) (.s 2#6), .frdm (on 1#3) 0#3 (.v 5#8) (.s 0#6) 1#4, .lds (on 1#3) ⟨.f64, .none, .base, 0#8⟩ (.v 4#8) (.s 1#6) (.v 3#8)] = true := by decide

/-- The conditions that the field tables add. -/
theorem test_wf_refuses_fields : refuses [.imulh c .i8 (.v 1#8) (.v 2#8) (.v 3#8), .idiv c .n8 (.v 1#8) (.v 2#8) (.v 3#8), .irem c .i4 (.v 1#8) (.v 2#8) (.v 3#8), .iabs c false .n32 (.v 1#8) (.v 2#8),
    .mov c false (some .f64) (.v 1#8) (.v 2#8), .cvt c .rne ⟨.raw, false, false, false, none⟩ (.v 1#8) (.v 2#8), .cvt c .rne ⟨.f32, true, false, false, none⟩ (.v 1#8) (.v 2#8),
    .cvts c ⟨.f32, false, false, false, none⟩ (.v 1#8) (.v 2#8), .mcvt c false .raw 1#4 2#4, .mlu c 1#4 2#4 3#6 32#8, .lds (on 1#3) (ld .none .ring) (.v 3#8) (.k 1#3) (.v 3#8),
    .ldc (on 1#3) (ld .feClr .base) (.v 2#8) (.s 1#6) (.v 3#8), .ldd (on 1#3) (ld .fe .base) (.v 2#8) (.s 1#6) (.v 3#8), .ldp (on 1#3) (ld .none .ring) (.v 2#8) (.k 1#3) (.v 3#8),
    .ldp (on 1#3) (ld .poll .base) (.v 2#8) (.s 1#6) (.v 3#8), .stc c (sts .fe .base) (.s 1#6) (.v 3#8) (.v 4#8), .std c (sts .fill .base) (.s 1#6) (.v 3#8) (.v 4#8),
    .stp c (sts .none .ring) (.k 1#3) (.v 3#8) (.v 4#8)] = true := by decide
theorem test_wf_refuses_more_fields : refuses [.atom (on 1#3) .add false true ⟨.mem, .pkg, .rlx⟩ none (.v 4#8) (.v 2#8), .ldx (on 1#3) false ⟨.mem, .pkg, .rel⟩ (.v 2#8) (.v 4#8),
    .stx (on 1#3) false ⟨.mem, .pkg, .acq⟩ (.s 1#6) (.v 4#8) (.v 2#8), .fence c .pod .rlx, .sbar c .blk (.s 1#6), .sbar c .coh (.s 1#6), .brc c 1#19 0#10 (.s 1#6), .brcBlk c 1#19 0#10 (.s 1#6),
    .brcBlkKeep c 1#19 0#10 (.s 1#6), .call c 1#19 3#8, .call c 1#19 32#8, .spawn c (.s 4#6) 29#8 (.v 2#8), .dx .prop 0#4, .dx .prop 4#4, .tget c 2#2 (.v 1#8) (.v 2#8), .tget c 0#2 (.v 1#8) (.m 2#4),
    .tset c 0#2 (.m 1#4) (.v 2#8), .tzero c 0#4 (.v 1#8), .tzero c 8#4 (.v 1#8), .tseed c 2#2 (.v 1#8), .finf (on 1#3) (.s 1#6) (.s 0#6) 12#4, .frdm (on 1#3) 5#3 (.m 1#4) (.s 0#6) 1#4,
    .frdm (on 1#3) 1#3 (.v 1#8) (.s 0#6) 1#4, .fwrm c 5#3 1#4 (.s 0#6) 2#4, .srd (on 1#3) (.s 1#6) 3#10, .srd (on 1#3) (.s 1#6) 0x205#10, .swr c 0x128#10 (.s 1#6)] = true := by decide
theorem test_wf_takes_fields : takes [.imulh c .n32 (.v 1#8) (.v 2#8) (.v 3#8), .iabs c false .i4 (.v 1#8) (.v 2#8), .cvts c ⟨.pt8, false, false, false, none⟩ (.v 1#8) (.v 2#8), .mcvt c false .f4 1#4 2#4,
    .mlu c 1#4 2#4 3#6 31#8, .lds (on 1#3) (ld .feClr .base) (.v 3#8) (.s 1#6) (.v 3#8), .stc c (sts .fill .base) (.s 1#6) (.v 3#8) (.v 4#8), .fence c .pod .sc, .sbar c .clus (.s 1#6), .brc c 1#19 1#10 (.s 1#6),
    .call c 1#19 30#8, .dx .prop 3#4, .tget c 1#2 (.v 1#8) (.v 2#8), .finf (on 1#3) (.s 1#6) (.s 0#6) 11#4, .frdm (on 1#3) 4#3 (.m 1#4) (.s 0#6) 1#4, .srd (on 1#3) (.s 1#6) 0x204#10, .swr c 0x123#10 (.s 1#6)] = true := by
  decide

/-! ## Single steps: results worked out by hand from the rules -/

/-- Vector register n of lane 0 behind one word. -/
def got (i : Instr) (s : State) (n : Nat) : W32 := (after (exec i s) s).vAt me 0 n |>.val
/-- Scalar register n behind one word. -/
def gotS (i : Instr) (s : State) (n : Nat) : W64 := (after (exec i s) s).sAt me n

/-- R163: SADD wraps modulo 2^64, SSAR keeps the sign, SSHL by 64 gives 0. -/
theorem test_scalar_wraps : gotS (.sadd c (.s 1#6) (.s 2#6) (.int 17#6)) (withS nop 2 0xFFFFFFFFFFFFFFFF#64) 1 = 0#64 := by decide +kernel
theorem test_scalar_shifts : gotS (.ssar c (.s 1#6) (.s 2#6) (.int 20#6)) (withS nop 2 0xFFFFFFFFFFFFFF00#64) 1 = 0xFFFFFFFFFFFFFFF0#64
    ∧ gotS (.sshl c (.s 1#6) (.s 2#6) (.s 3#6)) (withS (withS nop 2 1#64) 3 64#64) 1 = 0#64 := by decide +kernel
/-- R165, R166: .sat clamps each element of I8, without it the sum wraps: 0x7F + 0x01, 0x80 + 0xFF. -/
theorem test_iadd_saturates : got (.iadd c true .i8 (.v 1#8) (.v 2#8) (.v 3#8)) (withV (withV nop 2 0x807F#32 .i8) 3 0xFF01#32 .i8) 1 = 0x807F#32
    ∧ got (.iadd c false .i8 (.v 1#8) (.v 2#8) (.v 3#8)) (withV (withV nop 2 0x807F#32 .i8) 3 0xFF01#32 .i8) 1 = 0x7F80#32 := by decide +kernel
/-- R168: 3.0 × 0.5 = 1.5, 3.0 − 0.5 = 2.5, 0.5 / 3.0 = 0x3E2AAAAB to nearest, the root of 0.5 is 0x3F3504F3. -/
theorem test_fp32_results : got (.fmul c .rne (.v 1#8) (.v 2#8) (.v 3#8)) fps 1 = 0x3FC00000#32 ∧ got (.fsub c .rne (.v 1#8) (.v 2#8) (.v 3#8)) fps 1 = 0x40200000#32
    ∧ got (.fdiv c .rne (.v 1#8) (.v 3#8) (.v 2#8)) fps 1 = 0x3E2AAAAB#32 ∧ got (.fsqrt c .rne (.v 1#8) (.v 3#8)) fps 1 = 0x3F3504F3#32 := by decide +kernel
/-- R176: 3.0 to H16 is 0x4200, to E4M3 0x44; 0.1 to B16 to nearest is 0x3DCD. -/
theorem test_conversions : got (.cvt c .rne ⟨.h16, false, false, false, none⟩ (.v 1#8) (.v 2#8)) fps 1 &&& 0xFFFF#32 = 0x4200#32
    ∧ got (.cvt c .rne ⟨.e4m3, false, false, false, none⟩ (.v 1#8) (.v 2#8)) fps 1 &&& 0xFF#32 = 0x44#32
    ∧ got (.cvt c .rne ⟨.b16, false, false, false, none⟩ (.v 1#8) (.v 2#8)) (withV fps 2 0x3DCCCCCD#32 .f32) 1 &&& 0xFFFF#32 = 0x3DCD#32 := by decide +kernel
/-- R312, R313: TRAP 7 freezes the cohort with kind 0x0D and its number as CODE, and a handler block appears. -/
theorem test_trap_freezes : (after (exec (.trap c 7#8) lab) lab).frozen me = some ⟨0x0D, 7, 0, 1, false, 0x1000#64, 0#64, false, false, []⟩
    ∧ ((after (exec (.trap c 7#8) lab) lab).block 3).map (·.isHandler) = some true := by decide +kernel
/-- R151, R152: a store of 0x40400000 at address 8 puts its bytes in order of ascending significance. -/
theorem test_store_bytes : let s := flying (.sts c (sts .none .base) (.int 24#6) (.v 1#8) (.v 2#8)) (withV lab 2 0x40400102#32 .f32)
    let t := after (exec (.scratchpadStorePerformed 3 0) s) s
    ((List.range 6).map (fun i => t.byte (.core 0) (7 + i))) = [0#8, 2#8, 1#8, 0x40#8, 0x40#8, 0#8] := by decide +kernel
/-- One step of a fetched word: the clock moves by one cycle and the clause is past its word. -/
theorem test_step_runs_word : (match step nop with
    | .next t => decide (t.clk = nop.clk + 1) && ((t.coh me).map (·.ncls) == some 1)
    | _ => false) = true := by decide +kernel

/-- R391: the spec's worked round: TC0 (weight 3) and TC1 (weight 1) are backlogged, and a TC6 flit is there at cycle 5. -/
def sentClasses : List Nat :=
  let has (left : List Nat) (k : Nat) : Bool := decide (0 < left.getD k 0)
  ((List.range 9).foldl (fun (q : Arb × List Nat × List Nat) n =>
    let left := if n = 5 then q.2.1.set 6 1 else q.2.1
    match q.1.choose (fun k => if k = 0 then 3 else 1) (has left) with
    | some (k, a) => let l := left.set k (left.getD k 0 - 1); (a.granted k 0 (has l k), l, q.2.2 ++ [k])
    | none => q) (Arb.zero, [10, 10, 0, 0, 0, 0, 0, 0], [])).2.2
theorem test_arbiter_round : sentClasses = [0, 0, 0, 1, 0, 6, 0, 0, 1] := by decide +kernel

end Sys2Proof.Tests
end

section
/-! SUPPORT. Encoding and decoding: the fields of a word, the decoder on the encoder's fields, what the decoder accepts (O53, O54), and the order of a
clause's checks (O56). -/

namespace Sys2Proof

/-! ## A word and its fields -/

theorem ofBool_getLsbD_eq_extractLsb' {n : Nat} (x : BitVec n) (i : Nat) : BitVec.ofBool (x.getLsbD i) = x.extractLsb' i 1 := by
  apply BitVec.eq_of_getLsbD_eq
  intro j hj
  obtain rfl : j = 0 := by omega
  simp

/-- Two adjacent parts of a word, put together: the library's lemma with its places explicit, for rewriting. -/
theorem extractLsb'_append_adjacent {n : Nat} (x : BitVec n) (i k j l : Nat) (h : i = j + l) :
    x.extractLsb' i k ++ x.extractLsb' j l = x.extractLsb' j (k + l) :=
  BitVec.extractLsb'_append_extractLsb'_eq_extractLsb' h

/-- The fields hold every bit of a word (R36). -/
theorem Fields.toWord_ofWord (w : W64) : (Fields.ofWord w).toWord = w := by
  simp only [Fields.toWord, Fields.ofWord, ofBool_getLsbD_eq_extractLsb']
  rw [extractLsb'_append_adjacent w 56 _ 55 _ rfl, extractLsb'_append_adjacent w 55 _ 52 _ rfl,
    extractLsb'_append_adjacent w 52 _ 48 _ rfl, extractLsb'_append_adjacent w 48 _ 42 _ rfl,
    extractLsb'_append_adjacent w 42 _ 41 _ rfl, extractLsb'_append_adjacent w 41 _ 32 _ rfl,
    extractLsb'_append_adjacent w 32 _ 22 _ rfl, extractLsb'_append_adjacent w 22 _ 12 _ rfl,
    extractLsb'_append_adjacent w 12 _ 2 _ rfl, extractLsb'_append_adjacent w 2 _ 0 _ rfl]
  exact BitVec.extractLsb'_eq_self

/-- The fields do not overlap (R36). -/
theorem Fields.ofWord_toWord (f : Fields) : Fields.ofWord f.toWord = f := by
  obtain ⟨wait, se, slot, cls, op, nwb, dst, sa, sb, sc, m⟩ := f
  simp only [Fields.ofWord, Fields.toWord, Fields.mk.injEq]
  refine ⟨?wait, ?se, ?slot, ?cls, ?op, ?nwb, ?dst, ?sa, ?sb, ?sc, ?m⟩
  case wait =>
    repeat rw [BitVec.extractLsb'_append_eq_of_le (by decide)]
    exact BitVec.extractLsb'_eq_self
  case se | nwb =>
    repeat rw [BitVec.getLsbD_append, if_neg (by decide)]
    rw [BitVec.getLsbD_append, if_pos (by decide)]
    exact BitVec.getLsbD_ofBool ..
  all_goals
    repeat rw [BitVec.extractLsb'_append_eq_of_le (by decide)]
    exact BitVec.extractLsb'_append_eq_right

/-- The source is one that a specifier names (R45, R46). -/
def Src.named : Src → Bool
  | .int n => decide (n.toNat < 48)
  | .fp n => decide (n.toNat < 15)
  | _ => true

theorem Src.named_of_ok {L : Lim} {k : SK} {a : Src} (h : Src.ok L k a = true) : a.named = true := by
  cases a with
  | int n | fp n => cases k <;> simp_all [Src.ok, Src.named, Src.inlineOk]
  | _ => rfl

/-- A specifier names the source that it was written for (R41). -/
theorem Src.dec_enc {a : Src} (h : a.named = true) : Src.dec a.enc = a := by
  cases a with
  | int n | fp n => revert n; decide
  | v n | s n | b n | m n | k n | special n | latch n => revert n; decide +kernel
  | lit => decide

@[simp] theorem Dst.dec_enc (d : Dst) : Dst.dec d.isNwb d.enc = d := by
  cases d with
  | v n | s n | b n | m n | k n => revert n; decide +kernel
  | seed | nwb => decide

/-! ## Fields read back -/

@[simp] theorem mkD_eq (c : Ctl) (cls : BitVec 4) (op : BitVec 6) (d : Dst) (sa sb sc : BitVec 10) (m : BitVec 2) :
    mkD c cls op d sa sb sc m = mkF c cls op d.isNwb d.enc sa sb sc m := rfl
@[simp] theorem mkN_eq (c : Ctl) (cls : BitVec 4) (op : BitVec 6) (dst : BitVec 9) (sa sb sc : BitVec 10) (m : BitVec 2) :
    mkN c cls op dst sa sb sc m = mkF c cls op false dst sa sb sc m := rfl

@[simp] theorem mkF_ctl (c : Ctl) (cls : BitVec 4) (op : BitVec 6) (nwb : Bool) (dst : BitVec 9) (sa sb sc : BitVec 10) (m : BitVec 2) :
    (mkF c cls op nwb dst sa sb sc m).ctl c.lit = c := by
  obtain ⟨wait, set, lit⟩ := c
  cases set <;> rfl

@[simp] theorem mBit_bit0 (b : Bool) : (mBit b)[0] = b := by cases b <;> rfl
@[simp] theorem mBits_bit0 (hi lo : Bool) : (mBits hi lo)[0] = lo := by cases hi <;> cases lo <;> rfl
@[simp] theorem mBits_bit1 (hi lo : Bool) : (mBits hi lo)[1] = hi := by cases hi <;> cases lo <;> rfl

@[simp] theorem Rnd.dec_enc (x : Rnd) : Rnd.dec x.enc = x := by cases x <;> rfl
@[simp] theorem IType.dec_enc (x : IType) : IType.dec x.enc = x := by cases x <;> rfl
@[simp] theorem ShflMode.dec_enc (x : ShflMode) : ShflMode.dec x.enc = x := by cases x <;> rfl
@[simp] theorem VoteKind.dec_enc (x : VoteKind) : VoteKind.dec x.enc = x := by cases x <;> rfl
@[simp] theorem RedOp.dec_enc (x : RedOp) : RedOp.dec x.enc = x := by cases x <;> rfl
@[simp] theorem Dir.dec_enc (x : Dir) : Dir.dec x.enc = x := by cases x <;> rfl
@[simp] theorem Space.dec_enc (x : Space) : Space.dec x.enc = x := by cases x <;> rfl
@[simp] theorem LQual.dec_enc (x : LQual) : LQual.dec x.enc = x := by cases x <;> rfl
@[simp] theorem SQual.dec_enc (x : SQual) : SQual.dec x.enc = x := by cases x <;> rfl
@[simp] theorem AMode.dec_enc (x : AMode) : AMode.dec x.enc = x := by cases x <;> rfl
@[simp] theorem IdxMode.dec_enc (x : IdxMode) : IdxMode.dec x.enc = x := by cases x <;> rfl
@[simp] theorem Scope.dec_enc (x : Scope) : Scope.dec x.enc = x := by cases x <;> rfl
@[simp] theorem MOrd.dec_enc (x : MOrd) : MOrd.dec x.enc = x := by cases x <;> rfl
@[simp] theorem ASpace.dec_enc (x : ASpace) : ASpace.dec x.enc = x := by cases x <;> rfl
@[simp] theorem DxMode.dec_enc (x : DxMode) : DxMode.dec x.enc = x := by cases x <;> rfl
@[simp] theorem AtomOp.dec_enc (x : AtomOp) : AtomOp.dec x.enc = x := by cases x <;> rfl
@[simp] theorem Cond.dec_enc (x : Cond) : Cond.dec x.enc = x := by cases x <;> rfl
@[simp] theorem FCond.dec_enc (x : FCond) : FCond.dec x.enc = x := by cases x <;> rfl
@[simp] theorem Tag.dec_code (t : Tag) : Tag.dec t.code = t := by cases t <;> rfl
@[simp] theorem Tag.decInline_encInline (t : Tag) : Tag.decInline t.encInline = t := by cases t <;> rfl

@[simp] theorem decTagOpt_encTagOpt (t : Option Tag) : decTagOpt (encTagOpt t) = t := by
  rcases t with _ | t
  · rfl
  · cases t <;> rfl

@[simp] theorem CvtCtl.dec_enc (cv : CvtCtl) : CvtCtl.dec cv.enc (encTagOpt cv.src) = cv := by
  obtain ⟨tgt, sat, dstU, srcU, src⟩ := cv
  simp only [CvtCtl.dec, CvtCtl.enc, decTagOpt_encTagOpt, CvtCtl.mk.injEq, and_true]
  cases tgt <;> cases sat <;> cases dstU <;> cases srcU <;> decide

@[simp] theorem AtCtl.dec_enc (al : AtCtl) (ret : Bool) : AtCtl.dec (al.enc ret) = al := by
  obtain ⟨space, scope, ord⟩ := al
  cases ret <;> cases space <;> cases scope <;> cases ord <;> rfl

@[simp] theorem AtCtl.ret_enc (al : AtCtl) (ret : Bool) : atRet (al.enc ret) = ret := by
  obtain ⟨space, scope, ord⟩ := al
  cases ret <;> cases space <;> cases scope <;> cases ord <;> rfl

@[simp] theorem mNumEnc9_num (n : MNum) : (mNumEnc9 n).setWidth 4 = n := by revert n; decide
@[simp] theorem mNumEnc_num (n : MNum) : (mNumEnc n).setWidth 4 = n := by revert n; decide
@[simp] theorem sNumEnc9_num (n : SNum) : (sNumEnc9 n).setWidth 6 = n := by revert n; decide
@[simp] theorem sNumEnc_num (n : SNum) : (sNumEnc n).setWidth 6 = n := by revert n; decide
@[simp] theorem kNumEnc_num (n : KNum) : (kNumEnc n).setWidth 3 = n := by revert n; decide
@[simp] theorem mNumEnc9_dst (n : MNum) : Dst.dec false (mNumEnc9 n) = .m n := by revert n; decide

@[simp] theorem offOf_extract (off : BitVec 19) : offOf (off.extractLsb' 10 9) (off.extractLsb' 0 10) = off := by
  rw [offOf, extractLsb'_append_adjacent off 10 _ 0 _ rfl]
  exact BitVec.extractLsb'_eq_self

/-! ### Fields that hold two numbers -/

theorem setWidth_append_low {n k : Nat} (x : BitVec n) (y : BitVec k) : (x ++ y).setWidth k = y := by
  rw [BitVec.setWidth_eq_extractLsb' (Nat.le_add_left k n)]
  exact BitVec.extractLsb'_append_eq_right

section
variable (q : BitVec 2) (p : BitVec 7) (disp : BitVec 8) (j : BitVec 4) (k n : BitVec 3)

/-- SPACE and pitch of MLD. -/
@[simp] theorem mldField_space : (0#1 ++ q ++ p : BitVec 10).extractLsb' 7 2 = q :=
  (BitVec.extractLsb'_append_eq_of_le (by decide)).trans BitVec.extractLsb'_append_eq_right
@[simp] theorem mldField_pitch : (0#1 ++ q ++ p : BitVec 10).setWidth 7 = p := setWidth_append_low ..
/-- SPACE and pitch of MST; qualifier and displacement of a store. -/
@[simp] theorem storeField_hi : (q ++ p : BitVec 9).extractLsb' 7 2 = q := BitVec.extractLsb'_append_eq_left
@[simp] theorem storeField_lo : (q ++ p : BitVec 9).setWidth 7 = p := setWidth_append_low ..
/-- Qualifier and displacement of a load. -/
@[simp] theorem loadField_q : (q ++ disp : BitVec 10).extractLsb' 8 2 = q := BitVec.extractLsb'_append_eq_left
@[simp] theorem loadField_disp : (q ++ disp : BitVec 10).setWidth 8 = disp := setWidth_append_low ..
/-- Scope and order of FENCE; scope of SBAR. -/
@[simp] theorem fenceField_scope : (0#2 ++ k ++ n ++ 0#2 : BitVec 10).extractLsb' 5 3 = k :=
  (BitVec.extractLsb'_append_eq_of_le (by decide)).trans
    ((BitVec.extractLsb'_append_eq_of_le (by decide)).trans BitVec.extractLsb'_append_eq_right)
@[simp] theorem fenceField_order : (0#2 ++ k ++ n ++ 0#2 : BitVec 10).extractLsb' 2 3 = n :=
  (BitVec.extractLsb'_append_eq_of_le (by decide)).trans BitVec.extractLsb'_append_eq_right
@[simp] theorem sbarField_scope : (0#2 ++ k ++ 0#5 : BitVec 10).extractLsb' 5 3 = k :=
  (BitVec.extractLsb'_append_eq_of_le (by decide)).trans BitVec.extractLsb'_append_eq_right
/-- Mailbox and word of MBXR and MBXW. -/
@[simp] theorem mbxField_box : (0#3 ++ j ++ k : BitVec 10).extractLsb' 3 4 = j :=
  (BitVec.extractLsb'_append_eq_of_le (by decide)).trans BitVec.extractLsb'_append_eq_right
@[simp] theorem mbxField_word : (0#3 ++ j ++ k : BitVec 10).setWidth 3 = k := setWidth_append_low ..
end

/-! ### A word's fields, from what the encoder put into them -/

section
variable (c : Ctl) (cls : BitVec 4) (op : BitVec 6) (nwb : Bool) (dst : BitVec 9) (sa sb sc : BitVec 10) (m : BitVec 2)

@[simp] theorem mkF_cls : (mkF c cls op nwb dst sa sb sc m).cls = cls := rfl
@[simp] theorem mkF_op : (mkF c cls op nwb dst sa sb sc m).op = op := rfl
@[simp] theorem mkF_dst : (mkF c cls op nwb dst sa sb sc m).dst = dst := rfl
@[simp] theorem mkF_sa : (mkF c cls op nwb dst sa sb sc m).sa = sa := rfl
@[simp] theorem mkF_sb : (mkF c cls op nwb dst sa sb sc m).sb = sb := rfl
@[simp] theorem mkF_sc : (mkF c cls op nwb dst sa sb sc m).sc = sc := rfl
@[simp] theorem mkF_m : (mkF c cls op nwb dst sa sb sc m).m = m := rfl
@[simp] theorem mkF_d : (mkF c cls op nwb dst sa sb sc m).d = Dst.dec nwb dst := rfl
@[simp] theorem mkF_a : (mkF c cls op nwb dst sa sb sc m).a = Src.dec sa := rfl
@[simp] theorem mkF_b : (mkF c cls op nwb dst sa sb sc m).b = Src.dec sb := rfl
@[simp] theorem mkF_e : (mkF c cls op nwb dst sa sb sc m).e = Src.dec sc := rfl
@[simp] theorem mkF_m0 : (mkF c cls op nwb dst sa sb sc m).m0 = m[0] := rfl
@[simp] theorem mkF_m1 : (mkF c cls op nwb dst sa sb sc m).m1 = m[1] := rfl
@[simp] theorem mkF_dM : (mkF c cls op nwb dst sa sb sc m).dM = dst.setWidth 4 := rfl
@[simp] theorem mkF_aM : (mkF c cls op nwb dst sa sb sc m).aM = sa.setWidth 4 := rfl
@[simp] theorem mkF_bM : (mkF c cls op nwb dst sa sb sc m).bM = sb.setWidth 4 := rfl
@[simp] theorem mkF_cM : (mkF c cls op nwb dst sa sb sc m).cM = sc.setWidth 4 := rfl
@[simp] theorem mkF_dS : (mkF c cls op nwb dst sa sb sc m).dS = dst.setWidth 6 := rfl
@[simp] theorem mkF_bS : (mkF c cls op nwb dst sa sb sc m).bS = sb.setWidth 6 := rfl
@[simp] theorem mkF_k3 : (mkF c cls op nwb dst sa sb sc m).k3 = sc.setWidth 3 := rfl
@[simp] theorem mkF_st : (mkF c cls op nwb dst sa sb sc m).st = ⟨SQual.dec (dst.extractLsb' 7 2), AMode.dec m, dst.setWidth 7⟩ := rfl
@[simp] theorem mkF_off : (mkF c cls op nwb dst sa sb sc m).off = offOf dst sb := rfl
end

/-! ## The decoder on the encoder's fields -/

/-- The literal word that an instruction carries. -/
def Instr.lit (i : Instr) : Option W64 := i.ctl.bind (·.lit)

/-- The points of the loads: the format of the OP picks the point of its space. -/
theorem raw7_lds (f : Fields) (c : Ctl) (t : Tag) (h : f.op = 0x00#6 + t.code.setWidth 6) :
    raw7 f c = some (.lds c (f.ld 0x00#6) f.d f.a f.b) := by
  rw [raw7, h]
  cases t <;> rfl
theorem raw7_ldc (f : Fields) (c : Ctl) (t : Tag) (h : f.op = 0x14#6 + t.code.setWidth 6) :
    raw7 f c = some (.ldc c (f.ld 0x14#6) f.d f.a f.b) := by
  rw [raw7, h]
  cases t <;> rfl
theorem raw7_ldd (f : Fields) (c : Ctl) (t : Tag) (h : f.op = 0x21#6 + t.code.setWidth 6) :
    raw7 f c = some (.ldd c (f.ld 0x21#6) f.d f.a f.b) := by
  rw [raw7, h]
  cases t <;> rfl
theorem raw7_ldp (f : Fields) (c : Ctl) (t : Tag) (h : f.op = 0x2E#6 + t.code.setWidth 6) :
    raw7 f c = some (.ldp c (f.ld 0x2E#6) f.d f.a f.b) := by
  rw [raw7, h]
  cases t <;> rfl

/-- The load control that the encoder spreads over OP, SC and M. -/
@[simp] theorem mkF_ld (c : Ctl) (cls : BitVec 4) (base : BitVec 6) (nwb : Bool) (dst : BitVec 9) (sa sb : BitVec 10) (ld : LdCtl) :
    (mkF c cls (base + ld.fmt.code.setWidth 6) nwb dst sa sb (ld.q.enc ++ ld.disp) ld.mode.enc).ld base = ld := by
  simp [Fields.ld]

/-- A scalar source is not v0, whose specifier is 0. -/
theorem Src.enc_ne_zero_of_sca {L : Lim} {fp : Bool} {a : Src} (h : Src.ok L (.sca fp) a = true) : a.enc ≠ 0#10 := by
  intro h0
  have hd := Src.dec_enc (Src.named_of_ok h)
  rw [h0] at hd
  subst hd
  exact absurd h Bool.false_ne_true

/-- The fields of a word whose sources fit their kinds decode to the word, with its literal behind it: one case for each row of the table, by the
point that its CLASS and OP pick and the fields that the point reads back. -/
theorem raw_fields {L : Lim} {i : Instr} {f : Fields} {l : Option W64} (hf : i.fields = some f) (hl : i.lit = l)
    (hok : ∀ x ∈ i.srcs, Src.ok L x.1 x.2 = true) : raw f l = some i := by
  have hs : ∀ x ∈ i.srcs, Src.dec x.2.enc = x.2 := fun x hx => Src.dec_enc (Src.named_of_ok (hok x hx))
  cases i with
  -- one point of the map, with source fields
  | sadd c | ssub c | smul c | smin c | smax c | sand c | sor c | sxor c | sandn c | snot c | sshl c | sshr c | ssar c | ssel c | spopc c
  | sffs c | sfls c | srdlane c | iadd c | isub c | imul c | imulh c | imad c | idiv c | irem c | imin c | imax c | iabs c | vand c
  | vor c | vxor c | vandn c | vnot c | shl c | shr c | sar c | rot c | bfe c | bfi c | popc c | clz c | brev c | sel c | mov c | movs c
  | fadd c | fsub c | fmul c | ffma c | fmin c | fmax c | fdiv c | fsqrt c | frnd c | fclass c | fscl c | fdot2 c | fdot4 c | cvt c
  | cvts c | pack c | unpk c | frcp c | frsq c | fexp2 c | flog2 c | fsin c | fcos c | ftanh c | vote c | mpref c | lbcast c | lreduce c
  | mshape c | mld c | mst c | mget c | mput c | mscal c | mlus c | sts c | stc c | std c | stp c | bcp c | bcpm c | bfill c
  | bfillEmpty c | bpref c | bobj c | barv c | bwait c | bwaitn c | gath c | gaths c | scat c | scata c | ldspl c | hacc c | cas c | ldx c
  | stx c | barw c | sbar c | nsend c | sleep c | brc c | brx c | ret c | spawn c | brcBlk c | brcBlkKeep c | finf c | frdv c | fwrv c
  | frds c | fwrs c | fwrm c | frsmRetry c | frsmSkip c | frsmPc c | frsmStep c | fkilLanes c | fkilCoh c | fkilGrid c | frel c | swr c
  | tlbinvPage c | icinvRange c | mbxw c =>
    cases hf
    obtain rfl : c.lit = l := hl
    simp only [Instr.srcs, List.forall_mem_cons] at hs
    simp [raw, raw0, raw1, raw2, raw3, raw4, raw5, raw6, raw7, raw8, raw9, rawA, rawB, rawD, rawE, hs]
  -- one point of the map, without source fields
  | mzero c | mid c | mmul c | mmult c | mtmul c | madd c | msub c | mhad c | mtr c | mcvt c | mring c | minv c | mlu c | mchol c | mexp c
  | mtrq c | mnrm1 c | minvT c | mluT c | mcholT c | bcommit c | fence c | bar c | bara c | sbarGrid c | nrecv c | yield c | nop c | bra c
  | call c | join c | regroup c | exit c | tzero c | tseed c | srd c | brk c | trap c | tlbinvPasid c | icinvAll c | mbxr c | ckpt c =>
    cases hf
    obtain rfl : c.lit = l := hl
    simp [raw, raw5, raw6, raw8, rawA, rawB, rawC, rawE]
  | dx mode mask =>
    cases hf
    simp [raw, rawC]
  -- a point for each condition or format
  | scmp c cc | icmp c cc =>
    cases hf
    obtain rfl : c.lit = l := hl
    simp only [Instr.srcs, List.forall_mem_cons] at hs
    cases cc <;> simp [raw, raw0, raw1, hs, Cond.enc, Cond.dec]
  | fcmp c fc =>
    cases hf
    obtain rfl : c.lit = l := hl
    simp only [Instr.srcs, List.forall_mem_cons] at hs
    cases fc <;> simp [raw, raw2, hs, FCond.enc, FCond.dec]
  | lds c ld =>
    cases hf
    obtain rfl : c.lit = l := hl
    simp only [Instr.srcs, List.forall_mem_cons] at hs
    exact (raw7_lds _ _ ld.fmt rfl).trans (by rw [mkD, mkF_ld]; simp [hs])
  | ldc c ld =>
    cases hf
    obtain rfl : c.lit = l := hl
    simp only [Instr.srcs, List.forall_mem_cons] at hs
    exact (raw7_ldc _ _ ld.fmt rfl).trans (by rw [mkD, mkF_ld]; simp [hs])
  | ldd c ld =>
    cases hf
    obtain rfl : c.lit = l := hl
    simp only [Instr.srcs, List.forall_mem_cons] at hs
    exact (raw7_ldd _ _ ld.fmt rfl).trans (by rw [mkD, mkF_ld]; simp [hs])
  | ldp c ld =>
    cases hf
    obtain rfl : c.lit = l := hl
    simp only [Instr.srcs, List.forall_mem_cons] at hs
    exact (raw7_ldp _ _ ld.fmt rfl).trans (by rw [mkD, mkF_ld]; simp [hs])
  -- fields that depend on an operand
  | smov c d a =>
    cases hf
    obtain rfl : c.lit = l := hl
    have ha : Src.dec a.enc = a := by
      cases a <;> simpa [Instr.srcs] using hs
    simp [raw, raw0, ha]
  | tget c k d a | tset c k d a =>
    cases hf
    obtain rfl : c.lit = l := hl
    have ha : Src.dec a.enc = a := by
      cases a <;> simpa [Instr.srcs] using hs
    simp [raw, rawC, ha]
  | shfl c mode w =>
    cases hf
    obtain rfl : c.lit = l := hl
    simp only [Instr.srcs, List.forall_mem_cons] at hs
    cases w <;> simp [raw, raw4, hs]
  | atom c op w u al d =>
    have hop : op.enc ≤ 0x09#6 := by cases op <;> decide
    cases d with
    | none | some d =>
      cases hf
      obtain rfl : c.lit = l := hl
      simp only [Instr.srcs, List.forall_mem_cons] at hs
      simp [raw, rawA, hs, hop]
  | bquery c d sel =>
    cases sel with
    | obj o =>
      cases hf
      obtain rfl : c.lit = l := hl
      simp only [Instr.srcs, List.forall_mem_cons] at hs
      simp [raw, raw8, hs]
    | batches | slots =>
      cases hf
      obtain rfl : c.lit = l := hl
      simp [raw, raw8]
  | frdm c k d =>
    cases d with
    | _ =>
      cases hf
      obtain rfl : c.lit = l := hl
      simp only [Instr.srcs, List.forall_mem_cons] at hs
      simp [raw, rawD, hs]
  | psamp c a =>
    cases a with
    | none =>
      cases hf
      obtain rfl : c.lit = l := hl
      simp [raw, rawE]
    | some a =>
      cases hf
      obtain rfl : c.lit = l := hl
      have ha := Src.enc_ne_zero_of_sca (hok _ (List.mem_singleton_self _))
      simp only [Instr.srcs, List.forall_mem_cons] at hs
      simp [raw, rawE, hs, ha]
  -- events have no fields
  | _ => cases hf

/-! ## Which literal the decoder reads -/

/-- `a`, read with the common fields `c`, names the literal as `b` does, and carries `c` where it carries common fields. -/
def readsAs (f : Fields) (c : Ctl) (a b : Option Instr) : Prop :=
  a.map (fun i => i.namesLit f) = b.map (fun i => i.namesLit f) ∧ (a.bind Instr.ctl).getD c = c

theorem readsAs_ite {f : Fields} {c : Ctl} {p : Prop} [Decidable p] {a a' b b' : Option Instr} (ht : readsAs f c a a')
    (he : readsAs f c b b') : readsAs f c (if p then a else b) (if p then a' else b') := by
  split
  · exact ht
  · exact he

theorem readsAs_bquery (f : Fields) (c c' : Ctl) (d : Dst) (sel : BqSel) : readsAs f c (some (.bquery c d sel)) (some (.bquery c' d sel)) := by
  cases sel <;> exact ⟨rfl, rfl⟩
theorem readsAs_atom (f : Fields) (c c' : Ctl) (op : AtomOp) (w u : Bool) (al : AtCtl) (d : Option Dst) (a b : Src) :
    readsAs f c (some (.atom c op w u al d a b)) (some (.atom c' op w u al d a b)) := by
  cases d <;> exact ⟨rfl, rfl⟩
theorem readsAs_psamp (f : Fields) (c c' : Ctl) (a : Option Src) : readsAs f c (some (.psamp c a)) (some (.psamp c' a)) := by
  cases a <;> exact ⟨rfl, rfl⟩

/-- Which point a word reads, and what it names there, does not depend on the word behind it. -/
theorem raw_readsAs (f : Fields) (l l' : Option W64) : readsAs f (f.ctl l) (raw f l) (raw f l') := by
  unfold raw
  repeat' refine readsAs_ite ?_ ?_
  all_goals try exact ⟨rfl, rfl⟩
  · exact readsAs_bquery ..
  · exact readsAs_atom ..
  · exact readsAs_psamp ..

theorem Dst.enc_ne_lit (d : Dst) : d.enc ≠ 0x1FF#9 := by
  cases d with
  | v n | s n | b n | m n | k n => revert n; decide +kernel
  | seed | nwb => decide

theorem mNumEnc9_ne_lit (n : MNum) : mNumEnc9 n ≠ 0x1FF#9 := by revert n; decide
theorem mNumEnc_ne_lit (n : MNum) : mNumEnc n ≠ 0x1FF#10 := by revert n; decide
theorem kNumEnc_ne_lit (n : KNum) : kNumEnc n ≠ 0x1FF#10 := by revert n; decide

/-- The destination field holds the specifier of the destination. -/
theorem fields_dst {i : Instr} {f : Fields} {k : DK} {d : Dst} (hf : i.fields = some f) (hd : i.dst = some (k, d)) : f.dst = d.enc := by
  cases i with
  | atom c op w u al e =>
    cases e with
    | none => cases hd
    | some e => cases hd; cases hf; rfl
  | frdm c k e => cases e <;> (cases hd; cases hf; rfl)
  | bquery c e sel => cases sel <;> (cases hd; cases hf; rfl)
  | _ => cases hd <;> cases hf <;> rfl

/-- A destination field that is read as a register specifier holds no literal specifier. -/
theorem fields_dst_ne_lit {i : Instr} {f : Fields} (hf : i.fields = some f) (hd : i.dstSpec = true) : f.dst ≠ 0x1FF#9 := by
  have of_dst (h : i.dst.isSome = true) : f.dst ≠ 0x1FF#9 := by
    obtain ⟨⟨k, d⟩, hkd⟩ := Option.isSome_iff_exists.1 h
    rw [fields_dst hf hkd]
    exact Dst.enc_ne_lit d
  cases i with
  | fwrv | fwrs => cases hd
  | mshape | mzero | mid | mld | mput | mmul | mmult | mtmul | madd | msub | mscal | mhad | mtr | mcvt | mring | minv | mlu | mlus
  | mchol | mexp | mtrq | minvT | mluT | mcholT | ldspl =>
    cases hf
    exact mNumEnc9_ne_lit _
  | _ => exact of_dst hd

/-- The matrix and ring fields of a word hold no literal specifier. -/
theorem bankSpecs_ne_lit {i : Instr} {f : Fields} {x : BitVec 10} (hf : i.fields = some f) (hx : x ∈ i.bankSpecs f) : x ≠ 0x1FF#10 := by
  cases i with
  | mmul | mmult | mtmul | madd | msub | mhad | mlus =>
    cases hf
    obtain rfl | rfl := List.mem_pair.1 hx <;> exact mNumEnc_ne_lit _
  | hacc =>
    cases hf
    obtain rfl := List.mem_singleton.1 hx
    exact kNumEnc_ne_lit _
  | mget | mscal | mtr | mcvt | mring | minv | mlu | mchol | mexp | mtrq | mnrm1 | minvT | mluT | mcholT | mst | fwrm =>
    cases hf
    obtain rfl := List.mem_singleton.1 hx
    exact mNumEnc_ne_lit _
  | _ => cases hx

/-- A word of the encoder names the literal in its source fields alone. -/
theorem namesLit_fields {i : Instr} {f : Fields} (hf : i.fields = some f) : i.namesLit f = i.usesLit := by
  have hdst : (i.dstSpec && !f.nwb && f.dst == 0x1FF#9) = false := by
    cases hd : i.dstSpec with
    | false => rfl
    | true => simp [fields_dst_ne_lit hf hd]
  have hbank : (i.bankSpecs f).any (· == 0x1FF#10) = false := by
    rw [List.any_eq_false]
    exact fun x hx => by simpa using bankSpecs_ne_lit hf hx
  rw [Instr.namesLit, hdst, hbank, Bool.or_false, Bool.or_false]

/-! ## What the decoder accepts -/

/-- A word is accepted when its point's reading is well formed and encodes as the word's own fields. -/
theorem decodeFields_ok_iff {L : Lim} {f : Fields} {l : Option W64} {i : Instr} :
    decodeFields L f l = .ok i ↔ raw f l = some i ∧ i.wf L = true ∧ i.fields = some f := by
  unfold decodeFields
  split
  · simp [*]
  · rename_i j hj
    rw [hj, Option.some.injEq]
    constructor
    · intro h
      split at h
      · rename_i hw
        obtain rfl : j = i := by simpa using h
        simpa using hw
      · cases h
    · rintro ⟨rfl, hw, hf⟩
      simp [hw, hf]

/-- The checks of a well-formed word that its encoding depends on. -/
theorem Instr.wf_parts {L : Lim} {i : Instr} (h : i.wf L = true) :
    i.isWord = true ∧ i.ctlOk = true ∧ ∀ x ∈ i.srcs, Src.ok L x.1 x.2 = true := by
  simp only [Instr.wf, Bool.and_eq_true, List.all_eq_true] at h
  obtain ⟨⟨⟨⟨hw, hc⟩, hs⟩, -⟩, -⟩ := h
  exact ⟨hw, hc, hs⟩

/-- The instruction words are those that have fields. -/
theorem fields_isSome (i : Instr) : i.fields.isSome = i.isWord := by
  cases i with
  | atom c op w u al d => cases d <;> rfl
  | bquery c d sel => cases sel <;> rfl
  | frdm c k d => cases d <;> rfl
  | psamp c a => cases a <;> rfl
  | _ => rfl

/-- The only instruction word without common fields is DX. -/
theorem Instr.eq_dx {i : Instr} (hw : i.isWord = true) (hc : i.ctl = none) : ∃ mode mask, i = .dx mode mask := by
  unfold Instr.isWord at hw
  split at hw
  · exact ⟨_, _, rfl⟩
  · simp [hc] at hw

/-- A well-formed word carries a literal exactly when a source field names one. -/
theorem lit_isSome {L : Lim} {i : Instr} (h : i.wf L = true) : i.lit.isSome = i.usesLit := by
  obtain ⟨hw, hc, -⟩ := Instr.wf_parts h
  cases hctl : i.ctl with
  | none =>
    obtain ⟨mode, mask, rfl⟩ := Instr.eq_dx hw hctl
    rfl
  | some c =>
    simp only [Instr.ctlOk, hctl, Bool.and_eq_true, beq_iff_eq] at hc
    rw [Instr.lit, hctl]
    exact hc.1

theorem encode_eq {i : Instr} {f : Fields} (h : i.fields = some f) : encode i = f.toWord :: i.lit.toList := by
  rw [encode, h, Instr.lit]
  cases i.ctl <;> rfl

/-- A literal that a decoded word carries is the one behind it. -/
theorem raw_lit {f : Fields} {l : Option W64} {i : Instr} (h : raw f l = some i) : i.lit = none ∨ i.lit = l := by
  obtain ⟨-, hc⟩ := raw_readsAs f l l
  rw [h, Option.bind_some] at hc
  cases hctl : i.ctl with
  | none => exact .inl (by rw [Instr.lit, hctl]; rfl)
  | some c =>
    rw [hctl, Option.getD_some] at hc
    exact .inr (by rw [Instr.lit, hctl, hc]; rfl)

/-- The word behind a word does not change whether the word names it. -/
theorem namesLit_of_raw {w : W64} {l : Option W64} {i : Instr} (h : raw (Fields.ofWord w) l = some i) :
    namesLit w = i.namesLit (Fields.ofWord w) := by
  obtain ⟨hn, -⟩ := raw_readsAs (Fields.ofWord w) none l
  rw [h, Option.map_some] at hn
  obtain ⟨j, hj, hji⟩ := Option.map_eq_some_iff.1 hn
  rw [namesLit, hj]
  exact hji

/-- Settles O54: a word is accepted when its reading encodes as its own fields, the fields are all of its bits, and the reading carries the word
behind it exactly when it names a literal. -/
theorem encodeOfDecode : Obligations.EncodeOfDecode := by
  unfold Obligations.EncodeOfDecode
  intro L w n i h
  obtain ⟨hraw, hwf, hf⟩ := decodeFields_ok_iff.1 h
  refine ⟨hwf, ?_⟩
  rw [encode_eq hf, Fields.toWord_ofWord]
  have hlit := lit_isSome hwf
  cases hu : i.usesLit with
  | false =>
    rw [hu, Option.isSome_eq_false_iff, Option.isNone_iff_eq_none] at hlit
    simp [hlit]
  | true =>
    rw [hu] at hlit
    have hl : i.lit = if namesLit w then some n else none := (raw_lit hraw).resolve_left (Option.isSome_iff_ne_none.1 hlit)
    rw [hl] at hlit ⊢
    split at hlit
    · simp [*]
    · cases hlit

/-- Settles O53: the fields of a well-formed word decode to the word (`raw_fields`), and they name a literal exactly when the word carries one. -/
theorem decodeOfEncode : Obligations.DecodeOfEncode := by
  unfold Obligations.DecodeOfEncode
  intro L i hwf
  obtain ⟨hw, -, hok⟩ := Instr.wf_parts hwf
  obtain ⟨f, hf⟩ := Option.isSome_iff_exists.1 ((fields_isSome i).trans hw)
  have hraw : raw f i.lit = some i := raw_fields hf rfl hok
  have hdec : decodeFields L f i.lit = .ok i := decodeFields_ok_iff.2 ⟨hraw, hwf, hf⟩
  have hnames : namesLit f.toWord = i.usesLit := by
    rw [← Fields.ofWord_toWord f] at hraw
    rw [namesLit_of_raw hraw, Fields.ofWord_toWord, namesLit_fields hf]
  refine ⟨f.toWord, ?_⟩
  simp only [decodeWord, Fields.ofWord_toWord, hnames, encode_eq hf]
  have hlit := lit_isSome hwf
  cases hl : i.lit with
  | none =>
    rw [hl] at hlit hdec
    exact .inl ⟨hlit.symm, rfl, fun n => by rw [← hlit]; exact hdec⟩
  | some v =>
    rw [hl] at hlit hdec
    exact .inr ⟨v, hlit.symm, rfl, by rw [← hlit]; exact hdec⟩

/-- The words of a clause are checked behind a header that passes (R33, R40). -/
theorem checkClause_of_header {h : W64} (L : Lim) (ws : List W64) (hs : hdrSig h = 0xD#4) (hc : (hdrCcls h).toNat < 5)
    (hr : h.extractLsb' 0 44 = 0#44) : checkClause L h ws = checkWords L (hdrCcls h) ws 1 [] none false := by
  rw [checkClause, if_neg (not_not.2 hs), if_neg (Nat.not_le.2 hc), if_neg (not_not.2 hr)]

/-- Settles O56: `checkClause` asks in the order of R40, and the check of the first word reads its point before its place. -/
theorem clausesAreCheckedInOrder : Obligations.ClausesAreCheckedInOrder := by
  unfold Obligations.ClausesAreCheckedInOrder
  intro L h ws
  refine ⟨fun hs => ?_, fun hs hc => ?_, fun hs hc hr => ?_, fun hs hc hr w rest hws => ⟨fun hn => ?_, fun i hi hp => ?_⟩⟩
  · rw [checkClause, if_pos hs]
  · rw [checkClause, if_neg (not_not.2 hs), if_pos hc]
  · rw [checkClause, if_neg (not_not.2 hs), if_neg (Nat.not_le.2 hc), if_pos hr]
  · rw [checkClause_of_header L ws hs hc hr, hws]
    simp [checkWords, hn]
  · rw [checkClause_of_header L ws hs hc hr, hws]
    simp [checkWords, hi, hp]

end Sys2Proof
end

section
/-! SUPPORT. What a step runs, and what the timing behind it moves (O60). -/

namespace Sys2Proof.Machine

/-! ## What timing moves -/

theorem AMap.find_of_mem {α : Type} {m : AMap α} (hm : (AMap.keys m).Nodup) {k : Nat} {v : α} (h : (k, v) ∈ m) : m.find k = some v := by
  induction m with
  | nil => cases h
  | cons p r ih =>
    obtain ⟨j, w⟩ := p
    simp only [AMap.keys, List.map_cons, List.nodup_cons] at hm
    rcases List.mem_cons.1 h with e | hr
    · cases e
      simp [AMap.find]
    · have hne : j ≠ k := fun e => hm.1 (e ▸ List.mem_map_of_mem (f := (·.1)) hr)
      rw [AMap.find, if_neg hne]
      exact ih hm.2 hr

/-- The marks of R306: each grid in turn keeps its mark or is written back with another. -/
theorem State.tickGrids_induction {P : State → Prop} (s : State) (h0 : P s)
    (hset : ∀ t p v, P t → p ∈ s.grids → P (t.setGrid p.1 { p.2 with since := v })) : P s.tickGrids := by
  refine List.foldlRecOn s.grids _ h0 (fun t ht p hp => ?_)
  split
  · split
    · exact ht
    · exact hset t p _ ht hp
  · split
    · split
      · exact ht
      · exact hset t p _ ht hp
    · split
      · exact ht
      · exact hset t p _ ht hp

theorem State.tickGrids_eq (s : State) : ∃ gs, s.tickGrids = { s with grids := gs } := by
  refine s.tickGrids_induction (P := fun t => ∃ gs, t = { s with grids := gs }) ⟨s.grids, rfl⟩ ?_
  rintro t p v ⟨gs, rfl⟩ -
  exact ⟨_, rfl⟩

/-- A grid keeps all but its mark of R306. -/
theorem State.grid_tickGrids {s : State} {g : Nat} {gr : Grid} (hn : (AMap.keys s.grids).Nodup) (hg : s.grid g = some gr) :
    ∃ h, s.tickGrids.grid g = some h ∧ { h with since := none } = { gr with since := none } := by
  refine s.tickGrids_induction (P := fun t => ∃ h, t.grid g = some h ∧ { h with since := none } = { gr with since := none })
    ⟨gr, hg, rfl⟩ (fun t p v ht hp => ?_)
  rw [State.grid_setGrid]
  split
  · rename_i e
    obtain rfl : p.2 = gr := Option.some.inj ((AMap.find_of_mem hn hp).symm.trans (e ▸ hg))
    exact ⟨_, rfl, rfl⟩
  · exact ht

theorem State.tickIdle_eq (s : State) : ∃ v, s.tickIdle = { s with pow := { s.pow with idle := v } } := by
  unfold State.tickIdle
  split
  · split
    · exact ⟨s.pow.idle, rfl⟩
    · exact ⟨_, rfl⟩
  · split
    · exact ⟨s.pow.idle, rfl⟩
    · exact ⟨_, rfl⟩

/-- Nothing but grids and the idle time moves where only they are written. -/
theorem State.keeps_grids_pow (s : State) (gs : AMap Grid) (pw : PowSt) :
    s.keeps { s with grids := gs, pow := pw } (fun p => p = .pow ∨ ∃ g, p = .grid g) := by
  intro p hp
  cases p with
  | grid g => exact absurd (.inr ⟨g, rfl⟩) hp
  | pow => exact absurd (.inl rfl) hp
  | byte st a | full st a | psn st a => cases st <;> rfl
  | cur | names | xlat => exact ⟨rfl, rfl⟩
  | _ => rfl

/-- Two cohorts are alike but for the time at which the next clause became ready, and a time that stood stays (R308). -/
def Cohort.readyOnly (c d : Cohort) : Prop := { d with ready := c.ready } = c ∧ (c.ready.isSome = true → d.ready = c.ready)

/-- `t` is `s` but for the times at which the next clauses of cohorts became ready (R308). -/
def State.readyOnly (s t : State) : Prop :=
  t.grids = s.grids ∧ t.pow = s.pow ∧ s.keeps t (fun p => ∃ r, p = .coh r)
  ∧ ∀ r c, s.coh r = some c → ∃ d, t.coh r = some d ∧ c.readyOnly d

theorem State.readyOnly_refl (s : State) : s.readyOnly s :=
  ⟨rfl, rfl, s.keeps_refl _, fun _ c h => ⟨c, h, rfl, fun _ => rfl⟩⟩

/-- A cohort alike but for its time keeps every place but the rest of the cohort. -/
theorem cohSame_of_readyOnly {r : CohRef} {c d : Cohort} {x : Option (Nat × Nat)} {p : Place} (h : c.readyOnly d) (hp : ¬ ∃ q, p = .coh q) :
    cohSame r d { c with ready := x } p := by
  obtain ⟨hd, -⟩ := h
  rw [← hd]
  cases p with
  | coh q => exact absurd ⟨q, rfl⟩ hp
  | s | k | ctr | v | m | seed | resv | ident | exc | frz | slot | spill | sel | latch | ncls | cnt => exact fun _ => rfl
  | _ => trivial

/-- A cohort that had no time gets one. -/
theorem State.readyOnly_setCoh {s t : State} (h : s.readyOnly t) {r : CohRef} {c : Cohort} (hc : s.coh r = some c) (hn : c.ready = none)
    (x : Option (Nat × Nat)) : s.readyOnly (t.setCoh r { c with ready := x }) := by
  obtain ⟨hg, hp, hk, hcoh⟩ := h
  obtain ⟨d, hd, hcd⟩ := hcoh r c hc
  have e : t.setCoh r { c with ready := x } = t.updCoh r (fun _ => { c with ready := x }) := by rw [State.updCoh, hd]
  refine ⟨by simpa [e] using hg, by simpa using hp, ?_, fun q k hq => ?_⟩
  · rw [e]
    refine State.keeps_trans hk (State.keeps_updCoh (fun d' hd' p hp => ?_))
    obtain rfl : d = d' := Option.some.inj (hd.symm.trans hd')
    exact cohSame_of_readyOnly hcd hp
  · rw [e, State.coh_updCoh]
    split
    · rename_i hqr
      subst hqr
      obtain rfl : c = k := Option.some.inj (hc.symm.trans hq)
      exact ⟨{ c with ready := x }, by rw [hd, Option.map_some], rfl, fun hs => by simp [hn] at hs⟩
    · exact hcoh q k hq

theorem State.readyOnly_noteReady (s : State) : s.readyOnly s.noteReady := by
  refine List.foldlRecOn _ _ s.readyOnly_refl (fun t ht q _ => ?_)
  split
  · rename_i c hb hc
    split
    · rename_i hif
      simp only [Bool.and_eq_true, Option.isNone_iff_eq_none] at hif
      obtain ⟨⟨⟨hn, -⟩, -⟩, -⟩ := hif
      exact State.readyOnly_setCoh ht hc hn _
    · exact ht
  · exact ht

/-- The timing behind a step: other grids, another idle time, and the times of R308. -/
theorem State.tick_eq (s : State) : ∃ gs v, s.tickGrids = { s with grids := gs }
    ∧ { s with grids := gs, pow := { s.pow with idle := v } }.readyOnly s.tick := by
  obtain ⟨gs, hgs⟩ := s.tickGrids_eq
  obtain ⟨v, hv⟩ := ({ s with grids := gs } : State).tickIdle_eq
  refine ⟨gs, v, hgs, ?_⟩
  have h := s.tickGrids.tickIdle.readyOnly_noteReady
  rw [hgs, hv] at h
  rw [State.tick, hgs, hv]
  exact h

theorem timingMovesNothingElse : timingMovesNothingElseRule := by
  unfold timingMovesNothingElseRule
  intro s
  obtain ⟨gs, v, hgs, hg, hp, hk, hcoh⟩ := s.tick_eq
  refine ⟨?_, by rw [hp], fun hn g gr hgr => ?_, fun r c hc => ?_⟩
  · refine State.keeps_trans (State.keeps_mono (s.keeps_grids_pow gs { s.pow with idle := v }) (fun p => ?_)) (State.keeps_mono hk (fun p => ?_))
    · exact Or.imp_right Or.inl
    · exact fun h => .inr (.inr h)
  · have e : s.tick.grid g = s.tickGrids.grid g := by rw [State.grid, hg, hgs]; rfl
    rw [e]
    exact State.grid_tickGrids hn hgr
  · exact hcoh r c hc

/-! ## What a step runs -/

theorem State.due_of_agenda_nil {s : State} (h : s.agenda = []) : s.due = none := by rw [State.due, h]
theorem State.counted_of_agenda_nil {s : State} (h : s.agenda = []) : s.counted = s := by rw [State.counted, h]

/-- Without an outside event, the word that issues now is the choice, behind a DX or not. -/
theorem State.choose_word {s : State} {i : Instr} (hr : s.pow.raised = none) (ha : s.agenda = []) (hi : s.issueNow = some i) :
    s.choose = .word i s := by
  rw [State.choose, hr]
  cases s.dxPending <;> simp [hi, State.due_of_agenda_nil ha, State.counted_of_agenda_nil ha]

theorem State.choose_ordWait {s u : State} (hr : s.pow.raised = none) (ha : s.agenda = []) (hi : s.issueNow = none) (hw : s.ordWait = some u) :
    s.choose = .done u := by
  rw [State.choose, hr]
  simp [hi, hw, State.due_of_agenda_nil ha, State.counted_of_agenda_nil ha]

theorem State.choose_firstEvent {s u : State} (hr : s.pow.raised = none) (ha : s.agenda = []) (hi : s.issueNow = none) (hw : s.ordWait = none)
    (hf : s.firstEvent = some u) : s.choose = .done u := by
  rw [State.choose, hr]
  simp [hi, hw, hf, State.due_of_agenda_nil ha, State.counted_of_agenda_nil ha]

theorem State.choose_due {s : State} {e : Instr} {rest : List (Nat × Instr)} (hr : s.pow.raised = none) (hdx : s.dxPending = false)
    (ha : s.agenda = (0, e) :: rest) (hc : e.ctl = none) : s.choose = .event e { s with agenda := rest } := by
  rw [State.choose, hr]
  simp [hdx, State.due, ha, hc]

/-- The word that the order of accesses holds or lets go: behind a DX, the word that it modifies. -/
def Ctx.orderedWord (x : Ctx) (i : Instr) : Option Instr :=
  match i with
  | .dx _ _ => x.skipDx.path.word x.blk.lim
  | j => some j

theorem State.nextWord_eq {s : State} {x : Ctx} {cl : Clause} {i : Instr} (hx : s.ctx = some x) (hm : s.mayIssue x = true)
    (hcl : x.path.cl = some cl) (hwi : cl.wi ≤ cl.words.length)
    (hd : decodeWord x.blk.lim (cl.words.getD (cl.wi - 1) 0#64) (cl.words.getD cl.wi 0#64) = .ok i) (hs : s.wordStalls x i = false) :
    s.nextWord = some i := by
  have hword : x.path.word x.blk.lim = some i := by simp only [Path.word, hcl, hd]
  rw [State.nextWord, hx]
  simp [hm, hcl, hwi, hword, hs]

theorem State.issueNow_eq {s : State} {x : Ctx} {i : Instr} (hx : s.ctx = some x) (hn : s.nextWord = some i) :
    s.issueNow = if ((x.orderedWord i).bind (s.ordHeld x)).isSome then none else some i := by
  rw [State.issueNow, hn, hx]
  cases i with
  | dx mode mask =>
    show (match (x.skipDx.path.word x.blk.lim).bind (s.ordHeld x) with | some _ => none | none => some (Instr.dx mode mask)) = _
    rw [Ctx.orderedWord]
    cases (x.skipDx.path.word x.blk.lim).bind (s.ordHeld x) <;> rfl
  | _ => rfl

theorem State.ordWait_eq {s : State} {x : Ctx} {i : Instr} (hx : s.ctx = some x) (hn : s.nextWord = some i) :
    s.ordWait = ((x.orderedWord i).bind (s.ordHeld x)).map (fun n => s.stand x ⟨.order, false, s.clk, n, []⟩) := by
  rw [State.ordWait, hn, hx]
  rfl

theorem State.firstEvent_of_head {s t : State} {f : Event} {rest : List Event} (he : s.events = f :: rest) (hf : f s = .next t) (hne : t ≠ s) :
    s.firstEvent = some t := by
  rw [State.firstEvent, he, List.findSome?_cons, State.fires, hf]
  simp [hne]

theorem stepRunsDecodedWord : aStepRunsTheDecodedWordRule := by
  unfold aStepRunsTheDecodedWordRule
  refine ⟨fun s x cl i hr ha hx hm hcl hwi hd hs => ?_, fun s e rest hr hdx ha hc => ?_, fun s d n hr => ?_,
    fun s f t rest hr ha hi hw he hf hne => ?_⟩
  · have hn := State.nextWord_eq hx hm hcl hwi hd hs
    have hi := State.issueNow_eq hx hn
    have hw := State.ordWait_eq hx hn
    intro held
    have hheld : (x.orderedWord i).bind (s.ordHeld x) = held := rfl
    rw [hheld] at hi hw
    refine ⟨fun h => ?_, fun n h => ?_⟩
    · rw [h] at hi
      rw [step, State.choose_word hr ha hi]
    · rw [h] at hi hw
      rw [step, State.choose_ordWait hr ha hi hw]
  · rw [step, State.choose_due hr hdx ha hc]
  · rw [step, State.choose, hr]
    rfl
  · rw [step, State.choose_firstEvent hr ha hi hw (State.firstEvent_of_head he hf hne)]

/-- Settles O60: the choice of a step under each of its conditions, and what the timing behind it leaves. -/
theorem aStepRunsTheDecodedWord : Obligations.AStepRunsTheDecodedWord := ⟨stepRunsDecodedWord, timingMovesNothingElse⟩

end Sys2Proof.Machine
end

section
/-! SUPPORT. The faults of vector words (O9): the masks of failing lanes, and what a vector word answers whose format, poison or trap check
(R161) fails. -/

namespace Sys2Proof.Machine

/-! ## Masks and conditions, bit by bit -/

theorem getLsbD_foldl_or {α : Type} {w : Nat} (g : α → BitVec w) (as : List α) (z : BitVec w) (i : Nat) :
    (as.foldl (fun m a => m ||| g a) z).getLsbD i = true ↔ z.getLsbD i = true ∨ ∃ a ∈ as, (g a).getLsbD i = true := by
  induction as generalizing z with
  | nil => simp
  | cons a r ih => simp [ih, or_assoc]

theorem getLsbD_maskOf {ls : List Nat} {i : Nat} (hi : i < 32) : (maskOf ls).getLsbD i = true ↔ i ∈ ls := by
  have hbit (l : Nat) : (1#32 <<< l).getLsbD i = true ↔ i = l := by
    rw [← BitVec.twoPow_eq, BitVec.getLsbD_twoPow, Bool.and_eq_true, decide_eq_true_eq, decide_eq_true_eq]
    omega
  simp only [maskOf, getLsbD_foldl_or, hbit, BitVec.getLsbD_zero, Bool.false_eq_true, false_or, exists_eq_right']

theorem Ctx.lt_of_mem_lanes {x : Ctx} {l : Nat} (h : l ∈ x.lanes) : l < 32 :=
  (by decide : ∀ k ∈ lanes32, k < 32) l (List.mem_filter.1 h).1

theorem Ctx.maskOf_lanes_ne_zero {x : Ctx} {p : Nat → Bool} {l : Nat} (hl : l ∈ x.lanes) (hp : p l = true) :
    maskOf (x.lanes.filter p) ≠ 0#32 := by
  intro h0
  have hbit := (getLsbD_maskOf (Ctx.lt_of_mem_lanes hl)).2 (List.mem_filter.2 ⟨hl, hp⟩)
  simp [h0] at hbit

theorem bitVec_ne_zero_iff {w : Nat} {v : BitVec w} : v ≠ 0#w ↔ ∃ j < w, v.getLsbD j = true := by
  simp only [ne_eq, BitVec.eq_of_getLsbD_eq_iff, BitVec.getLsbD_zero, not_forall, Bool.not_eq_false, exists_prop]

/-! ## The lanes that each check names -/

theorem keys_filter_lanes {α : Type} (ls : List Nat) (r : Nat → α) (p : Nat × α → Bool) :
    AMap.keys ((ls.map (fun l => (l, r l))).filter p) = ls.filter (fun l => p (l, r l)) := by
  simp only [AMap.keys, List.filter_map, List.map_map]
  exact List.map_id _

theorem badLanes_eq (x : Ctx) (d : Dst) (ls : List Nat) (r : Nat → Option LRes) :
    badLanes x d (ls.map (fun l => (l, r l))) = maskOf (ls.filter (fun l => !(r l).any (x.dstFits d l))) := by
  rw [badLanes, keys_filter_lanes]
  congr 2
  funext l
  cases r l <;> rfl

theorem psnLanes_eq (ls : List Nat) (r : Nat → LRes) : psnLanes (ls.map (fun l => (l, r l))) = maskOf (ls.filter (fun l => (r l).psn)) := by
  rw [psnLanes, keys_filter_lanes]

/-- The trap of a word that met an enabled condition: CODE joins the lanes' enabled conditions, FLANE holds the lanes. -/
theorem trapOf_eq {en : Cnd} {ls : List Nat} {r : Nat → LRes} (h : ∃ l ∈ ls, (r l).c &&& en ≠ 0#3) :
    trapOf en ((ls.map (fun l => (l, r l))).map (fun p => (p.1, p.2.c)))
      = some (Fz.of kArith (ls.foldl (fun m l => m ||| ((r l).c &&& en)) 0#3).toNat (maskOf (ls.filter (fun l => (r l).c &&& en != 0#3)))) := by
  have hcode : trapCode en (ls.map (fun l => (l, (r l).c))) = ls.foldl (fun m l => m ||| ((r l).c &&& en)) 0#3 := List.foldl_map
  have hne : ls.foldl (fun m l => m ||| ((r l).c &&& en)) 0#3 ≠ 0#3 := by
    obtain ⟨l, hl, hc⟩ := h
    obtain ⟨j, hj, hb⟩ := bitVec_ne_zero_iff.1 hc
    exact bitVec_ne_zero_iff.2 ⟨j, hj, (getLsbD_foldl_or _ _ _ _).2 (Or.inr ⟨l, hl, hb⟩)⟩
  rw [List.map_map]
  change trapOf en (ls.map (fun l => (l, (r l).c))) = _
  rw [trapOf, hcode, if_neg hne, trapLanes, keys_filter_lanes]

/-! ## The checks of a vector word that fail -/

/-- A word whose body faults with nothing done freezes its cohort. -/
theorem word_trap {s : State} {x : Ctx} {c : Ctl} {body : Ctx → WRes} {z : Fz} (h : s.issues x c)
    (hb : body { x with smp := s.sampleOf x } = .trap z) : word c s body = .next (s.trapped x z) := by
  obtain ⟨hx, hw, hf, hk⟩ := issues_checks h
  simp only [word, hx]
  rw [if_neg (by simp [hw]), if_neg ?_, hk, Option.getD_none, hb]
  · rfl
  · exact hf

section VecWord
variable {s : State} {x : Ctx} {c : Ctl} {u : Nat} {d : Dst} {srcs : List Src} {f : Ctx → Nat → Option LRes}

/-- A vector word whose checks trap on what its lanes compute. -/
theorem vecWord_trap {r : Nat → Option LRes} {z : Fz} (h : s.issues x c) (hf : ∀ l ∈ x.lanes, f { x with smp := s.sampleOf x } l = r l)
    (hz : vecChecks { x with smp := s.sampleOf x } s u d srcs x.lanes (x.lanes.map (fun l => (l, r l))) = .error (.trap z)) :
    vecWord c s u d srcs f = .next (s.trapped x z) := by
  refine word_trap h ?_
  have hres : x.lanes.map (fun l => (l, f { x with smp := s.sampleOf x } l)) = x.lanes.map (fun l => (l, r l)) :=
    List.map_congr_left (fun l hl => by rw [hf l hl])
  have hl : ({ x with smp := s.sampleOf x } : Ctx).lanes = x.lanes := rfl
  simp only [vecBody, hl, hres, hz]

/-- R75: a lane without a result, or whose destination does not take it, is a format fault before anything else. -/
theorem vecWord_format {r : Nat → Option LRes} (h : s.issues x c) (he : s.errIn = [])
    (hf : ∀ l ∈ x.lanes, f { x with smp := s.sampleOf x } l = r l) (hbad : ∃ l ∈ x.lanes, (r l).any (x.dstFits d l) = false) :
    vecWord c s u d srcs f = .next (s.trapped x (Fz.of kFormat 0 (maskOf (x.lanes.filter (fun l => !(r l).any (x.dstFits d l)))))) := by
  obtain ⟨l, hl, hb⟩ := hbad
  have hne := Ctx.maskOf_lanes_ne_zero (p := fun l => !(r l).any (x.dstFits d l)) hl (by simp [hb])
  have hbl := badLanes_eq { x with smp := s.sampleOf x } d x.lanes r
  simp only [funext (Ctx.dstFits_smp x (s.sampleOf x) d _)] at hbl
  exact vecWord_trap h hf (by simp only [vecChecks, parityCheck_quiet he, hbl, hne, ne_eq, not_false_eq_true, if_true])

/-- Results that every destination takes pass the format check. -/
theorem badLanes_pass {r : Nat → LRes} (hd : ∀ l ∈ x.lanes, x.dstFits d l (r l) = true) :
    badLanes { x with smp := s.sampleOf x } d (x.lanes.map (fun l => (l, some (r l)))) = 0#32 := by
  have hnil : x.lanes.filter (fun l => !(some (r l)).any (x.dstFits d l)) = [] :=
    List.filter_eq_nil_iff.2 (fun l hl => by simp [hd l hl])
  rw [badLanes_eq]
  exact congrArg maskOf hnil

/-- R74, R161: with every format accepted, poisoned operands are a poison fault of their lanes. -/
theorem vecWord_poison {r : Nat → LRes} (h : s.issues x c) (he : s.errIn = [])
    (hf : ∀ l ∈ x.lanes, f { x with smp := s.sampleOf x } l = some (r l)) (hd : ∀ l ∈ x.lanes, x.dstFits d l (r l) = true)
    (hp : ∃ l ∈ x.lanes, (r l).psn = true) :
    vecWord c s u d srcs f = .next (s.trapped x (Fz.of kPoison 0 (maskOf (x.lanes.filter (fun l => (r l).psn))))) := by
  obtain ⟨l, hl, hp⟩ := hp
  have hne := Ctx.maskOf_lanes_ne_zero (p := fun l => (r l).psn) hl hp
  refine vecWord_trap h hf ?_
  simp only [vecChecks, parityCheck_quiet he, badLanes_pass hd, okRes_some, psnLanes_eq, hne, ne_eq, not_true_eq_false, not_false_eq_true,
    if_true, if_false]

/-- R78: with the other checks passed, enabled conditions are one arithmetic trap. -/
theorem vecWord_arith {r : Nat → LRes} (h : s.issues x c) (he : s.errIn = [])
    (hf : ∀ l ∈ x.lanes, f { x with smp := s.sampleOf x } l = some (r l)) (hd : ∀ l ∈ x.lanes, x.dstFits d l (r l) = true)
    (hp : ∀ l ∈ x.lanes, (r l).psn = false) (hc : ∃ l ∈ x.lanes, (r l).c &&& x.grid.lrec.trapen ≠ 0#3) :
    vecWord c s u d srcs f = .next (s.trapped x (Fz.of kArith (x.lanes.foldl (fun m l => m ||| ((r l).c &&& x.grid.lrec.trapen)) 0#3).toNat
      (maskOf (x.lanes.filter (fun l => (r l).c &&& x.grid.lrec.trapen != 0#3))))) := by
  have hnil : x.lanes.filter (fun l => (r l).psn) = [] := List.filter_eq_nil_iff.2 (fun l hl => by simp [hp l hl])
  refine vecWord_trap h hf ?_
  simp only [vecChecks, parityCheck_quiet he, badLanes_pass hd, okRes_some, psnLanes_eq, hnil, residueCheck_quiet he, trapOf_eq hc]
  rfl

end VecWord

/-! ## Integer element words -/

/-- The format check of an integer word in a lane (R74, R75): the destination takes its tag, and every source's tag is accepted. -/
def Ctx.intFits (x : Ctx) (s : State) (c : Ctl) (d : Dst) (srcs : List Src) (ok : Tag → Bool) (tag : Tag) (l : Nat) : Bool :=
  x.dstFits d l (.plain 0#64 tag false) && srcs.all (fun a => (x.rd s c l a).accepted ok)

section IntWord
variable {s : State} {x : Ctx} {c : Ctl} {u : Nat} {d : Dst} {srcs : List Src} {ok : Tag → Bool} {tag : Tag} {f : W64 → W64 → W64 → W64}

theorem Ctx.intFits_iff {l : Nat} : x.intFits s c d srcs ok tag l = true
    ↔ x.takes d l tag false ∧ ∀ a ∈ srcs, (x.rd s c l a).accepted ok = true := by
  rw [Ctx.intFits, Bool.and_eq_true, List.all_eq_true]
  exact Iff.rfl

/-- An accepted lane of an integer word has a 32-bit result, poisoned where a source is; another has none. -/
theorem intLane_eq (l : Nat) : ∃ v, intLane c s x l srcs ok tag f = if srcs.all (fun a => (x.rd s c l a).accepted ok) then
    some (.plain v tag (srcs.any (fun a => (x.rd s c l a).psn))) else none :=
  ⟨_, by simp only [intLane, List.all_map, List.any_map]; rfl⟩

theorem intLane_any_dstFits (l : Nat) : (intLane c s x l srcs ok tag f).any (x.dstFits d l) = x.intFits s c d srcs ok tag l := by
  obtain ⟨v, hv⟩ := intLane_eq (c := c) (s := s) (x := x) (srcs := srcs) (ok := ok) (tag := tag) (f := f) l
  rw [hv, Ctx.intFits]
  split
  · rename_i hall
    rw [hall, Bool.and_true]
    rfl
  · rename_i hall
    rw [Bool.eq_false_iff.2 hall, Bool.and_false]
    rfl

/-- An integer word with a lane that fails its format check. -/
theorem intWord_format (h : s.issues x c) (he : s.errIn = []) (hbad : ∃ l ∈ x.lanes, x.intFits s c d srcs ok tag l = false) :
    intWord c s u d srcs ok tag f
      = .next (s.trapped x (Fz.of kFormat 0 (maskOf (x.lanes.filter (fun l => !x.intFits s c d srcs ok tag l))))) := by
  have hmask : x.lanes.filter (fun l => !x.intFits s c d srcs ok tag l)
      = x.lanes.filter (fun l => !(intLane c s x l srcs ok tag f).any (x.dstFits d l)) := by simp only [intLane_any_dstFits]
  rw [hmask]
  exact vecWord_format h he (fun _ _ => rfl) (by simpa only [intLane_any_dstFits] using hbad)

/-- An integer word whose lanes pass their format checks, with a poisoned source. -/
theorem intWord_poison (h : s.issues x c) (he : s.errIn = []) (hok : ∀ l ∈ x.lanes, x.intFits s c d srcs ok tag l = true)
    (hp : ∃ l ∈ x.lanes, ∃ a ∈ srcs, (x.rd s c l a).psn = true) :
    intWord c s u d srcs ok tag f
      = .next (s.trapped x (Fz.of kPoison 0 (maskOf (x.lanes.filter (fun l => srcs.any (fun a => (x.rd s c l a).psn)))))) := by
  choose v hv using intLane_eq (c := c) (s := s) (x := x) (srcs := srcs) (ok := ok) (tag := tag) (f := f)
  have hfit (l : Nat) (hl : l ∈ x.lanes) := Bool.and_eq_true_iff.1 (hok l hl)
  exact vecWord_poison (r := fun l => .plain (v l) tag (srcs.any (fun a => (x.rd s c l a).psn))) h he
    (fun l hl => (hv l).trans (if_pos (hfit l hl).2)) (fun l hl => (hfit l hl).1) (by simpa [LRes.plain] using hp)

end IntWord

/-- The element words of two operands are integer words that accept the tags of their TYPE. -/
theorem exec_eq_intWord (s : State) (c : Ctl) (ty : IType) (sat : Bool) (d : Dst) (a b : Src) {o : Out}
    (ho : o ∈ [exec (.iadd c sat ty d a b) s, exec (.isub c sat ty d a b) s, exec (.imul c sat ty d a b) s, exec (.imin c ty d a b) s,
      exec (.imax c ty d a b) s, exec (.idiv c ty d a b) s, exec (.irem c ty d a b) s, exec (.imulh c ty d a b) s]) :
    ∃ u g, o = intWord c s u d [a, b] (ityAccepts ty) (ityTag ty) g := by
  simp only [List.mem_cons, List.not_mem_nil, or_false] at ho
  rcases ho with rfl | rfl | rfl | rfl | rfl | rfl | rfl | rfl
  · exact ⟨_, _, (rfl : _ = execIadd c sat ty d a b s)⟩
  · exact ⟨_, _, (rfl : _ = execIsub c sat ty d a b s)⟩
  · exact ⟨_, _, (rfl : _ = execImul c sat ty d a b s)⟩
  · exact ⟨_, _, (rfl : _ = execImin c ty d a b s)⟩
  · exact ⟨_, _, (rfl : _ = execImax c ty d a b s)⟩
  · exact ⟨_, _, (rfl : _ = execIdiv c ty d a b s)⟩
  · exact ⟨_, _, (rfl : _ = execIrem c ty d a b s)⟩
  · exact ⟨_, _, (rfl : _ = execImulh c ty d a b s)⟩

theorem vectorWordsFaultBeforeTheyWrite : vectorWordsFaultBeforeTheyWriteRule := by
  unfold vectorWordsFaultBeforeTheyWriteRule
  intro s x c ty sat d a b h he bad psn faults
  have hfits (l : Nat) : x.intFits s c d [a, b] (ityAccepts ty) (ityTag ty) l = true ↔ ¬ bad l :=
    Ctx.intFits_iff.trans not_not.symm
  refine ⟨fun hbad => ⟨maskOf (x.lanes.filter (fun l => !x.intFits s c d [a, b] (ityAccepts ty) (ityTag ty) l)),
      fun i hi => ?_, fun o ho => ?_⟩,
    fun hok hpsn => ⟨maskOf (x.lanes.filter (fun l => [a, b].any (fun q => (x.rd s c l q).psn))),
      fun i hi => ?_, fun o ho => ?_⟩⟩
  · rw [getLsbD_maskOf hi, List.mem_filter, Bool.not_eq_true', Bool.eq_false_iff, ne_eq, hfits, not_not]
  · obtain ⟨u, g, rfl⟩ := exec_eq_intWord s c ty sat d a b ho
    obtain ⟨l, hl, hb⟩ := hbad
    exact intWord_format h he ⟨l, hl, Bool.eq_false_iff.2 (fun hf => (hfits l).1 hf hb)⟩
  · rw [getLsbD_maskOf hi, List.mem_filter, List.any_eq_true]
  · obtain ⟨u, g, rfl⟩ := exec_eq_intWord s c ty sat d a b ho
    exact intWord_poison h he (fun l hl => (hfits l).2 (hok l hl)) hpsn

/-! ## Floating-point words -/

theorem allSome_map_some {α : Type} (as : List α) : allSome (as.map some) = some as := by
  induction as with
  | nil => rfl
  | cons a r ih => simp [allSome, ih]

/-- What a lane in format `f` computes from its operands `es`. -/
def fmtRes (want : List Nat) (f tag : Tag) (es : List El) (prim : Op3 → BRes) (tanf : Nat → Op3 → Nat) : LRes :=
  let rs := (List.range f.count).map (fun i => prim (op3 f es 0 i))
  ⟨BitVec.ofNat 64 (f.joinEls (rs.map (·.bits))), f == .f64, tag,
    want.map (fun k => (k, BitVec.ofNat 64 (f.joinEls ((List.range f.count).map (fun i =>
      tanf ((rs[i]?).map (·.bits) |>.getD 0) (op3 f es k i)))))),
    es.any (fun e => e.poisoned want), rs.foldl (fun m r => m ||| r.c) 0#3, false⟩

theorem fmtLane_eq {c : Ctl} {s : State} {x : Ctx} {l : Nat} {f tag : Tag} {srcs : List Src} {es : List El} {prim : Op3 → BRes}
    {tanf : Nat → Op3 → Nat} (h : srcs.map (fun a => x.elFmt s.clk c.lit f l a) = es.map some) :
    fmtLane c s x l f tag srcs prim tanf = some (fmtRes x.want f tag es prim tanf) := by
  rw [fmtLane, h, allSome_map_some]
  rfl

/-- A lane whose operands can be read has a result in its own format. -/
theorem fpLane_eq {c : Ctl} {s : State} {x : Ctx} {d : Dst} {l : Nat} {srcs : List Src} {es : List El} {prim : Tag → Op3 → BRes}
    {tanf : Tag → Nat → Op3 → Nat} (h : fpReads s x c d srcs l es) :
    fpLane c s x l srcs prim tanf
      = (let f := x.fmt s.clk l .f32 srcs; some (fmtRes x.want f f es (prim f) (tanf f))) := by
  obtain ⟨hfp, hread, -, -⟩ := h
  exact (if_pos hfp).trans (fmtLane_eq hread)

/-- Sampling changes no operand's format. -/
theorem Ctx.fmt_smp (x : Ctx) (o : Option (BitVec 16 × Bool)) (clk l : Nat) (dflt : Tag) (srcs : List Src) :
    ({ x with smp := o } : Ctx).fmt clk l dflt srcs = x.fmt clk l dflt srcs := by
  induction srcs with
  | nil => rfl
  | cons a r ih =>
    simp only [Ctx.fmt, ih]
    rfl

/-- Sampling does not change what a floating-point lane computes. -/
theorem fpLane_smp {c : Ctl} {s : State} (x : Ctx) (o : Option (BitVec 16 × Bool)) (l : Nat) {srcs : List Src} {prim : Tag → Op3 → BRes}
    {tanf : Tag → Nat → Op3 → Nat} : fpLane c s { x with smp := o } l srcs prim tanf = fpLane c s x l srcs prim tanf := by
  simp only [fpLane, Ctx.fmt_smp]
  rfl

/-- R170: a lane's conditions are those of its elements. -/
theorem fmtRes_c {want : List Nat} {f tag : Tag} {es : List El} {prim : Op3 → BRes} {tanf : Nat → Op3 → Nat} (j : Nat) :
    (fmtRes want f tag es prim tanf).c.getLsbD j = true ↔ ∃ i < f.count, (prim (op3 f es 0 i)).c.getLsbD j = true := by
  simp [fmtRes, getLsbD_foldl_or]

/-- R78: a floating-point word whose operands can be read, and whose lanes meet an enabled condition. -/
theorem fpWord_arith {s : State} {x : Ctx} {c : Ctl} {u : Nat} {d : Dst} {srcs : List Src} {prim : Tag → Op3 → BRes}
    {tanf : Tag → Nat → Op3 → Nat} {es : Nat → List El} (h : s.issues x c) (he : s.errIn = [])
    (hes : ∀ l ∈ x.lanes, fpReads s x c d srcs l (es l)) :
    let f (l : Nat) : Tag := x.fmt s.clk l .f32 srcs
    let met (l j : Nat) : Prop := x.grid.lrec.trapen.getLsbD j = true
      ∧ ∃ i < (f l).count, (prim (f l) (op3 (f l) (es l) 0 i)).c.getLsbD j = true
    (∃ l ∈ x.lanes, ∃ j < 3, met l j) →
    ∃ (code : Nat) (w : W32), fpWord c s u d srcs prim tanf = .next (s.trapped x (Fz.of kArith code w))
      ∧ (∀ i < 32, (w.getLsbD i = true ↔ i ∈ x.lanes ∧ ∃ j < 3, met i j))
      ∧ code < 8 ∧ ∀ j < 3, (code.testBit j = true ↔ ∃ l ∈ x.lanes, met l j) := by
  intro f met hmet
  let r (l : Nat) : LRes := fmtRes x.want (f l) (f l) (es l) (prim (f l)) (tanf (f l))
  have hbit (l j : Nat) : ((r l).c &&& x.grid.lrec.trapen).getLsbD j = true ↔ met l j := by
    rw [BitVec.getLsbD_and, Bool.and_eq_true, and_comm, fmtRes_c]
  have hne (l : Nat) : (r l).c &&& x.grid.lrec.trapen ≠ 0#3 ↔ ∃ j < 3, met l j := by
    simp only [bitVec_ne_zero_iff, hbit]
  have hrun := vecWord_arith (u := u) (d := d) (srcs := srcs) (f := fun y l => fpLane c s y l srcs prim tanf) (r := r) h he
    (fun l hl => (fpLane_smp x _ l).trans (fpLane_eq (hes l hl)))
    (fun l hl => by
      obtain ⟨-, -, -, htakes⟩ := hes l hl
      exact htakes)
    (fun l hl => by
      obtain ⟨-, -, hclean, -⟩ := hes l hl
      exact List.any_eq_false.2 (fun e he => Bool.eq_false_iff.1 (hclean e he)))
    (by simpa only [hne] using hmet)
  refine ⟨_, _, hrun, fun i hi => ?_, BitVec.isLt _, fun j _ => ?_⟩
  · rw [getLsbD_maskOf hi, List.mem_filter, bne_iff_ne, hne]
  · rw [BitVec.testBit_toNat, getLsbD_foldl_or]
    simp only [hbit, BitVec.getLsbD_zero, Bool.false_eq_true, false_or]

theorem arithmeticTraps : arithmeticTrapsRule := by
  unfold arithmeticTrapsRule
  intro s x c m d a b e h he v traps
  refine ⟨?_, ?_, ?_, ?_, ?_, ?_⟩
  · exact fun es hes => fpWord_arith (prim := fun f o => opAdd f m o.a o.b) h he hes
  · exact fun es hes => fpWord_arith (prim := fun f o => opSub f m o.a o.b) h he hes
  · exact fun es hes => fpWord_arith (prim := fun f o => opMul f m o.a o.b) h he hes
  · exact fun es hes => fpWord_arith (prim := fun f o => opFma f m o.a o.b o.e) h he hes
  · exact fun es hes => fpWord_arith (prim := fun f o => opDiv f m o.a o.b) h he hes
  · exact fun es hes => fpWord_arith (prim := fun f o => opSqrt f m o.a) h he hes

/-- Settles O9: a check of R161 that fails is the freeze of the cohort, with the mask of the lanes that failed it. -/
theorem vectorFaultsAndTraps : Obligations.VectorFaultsAndTraps := ⟨vectorWordsFaultBeforeTheyWrite, arithmeticTraps⟩

end Sys2Proof.Machine
end

section
/-! SUPPORT. Page walks (O37): bytes written and read back, what a write to main memory and a cached translation leave, the levels of a
walk, and the events of the translation units. -/

namespace Sys2Proof.Machine

/-! ## Bytes written and read back -/

/-- The bytes of a number, put together, are the number modulo its size (R4). -/
theorem leNat_leBytes (n v : Nat) : leNat (leBytes n v) = v % 256 ^ n := by
  induction n generalizing v with
  | zero => simp [leBytes, leNat, Nat.mod_one]
  | succ n ih =>
    have hcons : leBytes (n + 1) v = BitVec.ofNat 8 v :: leBytes n (v / 256) := by
      simp [leBytes, List.range_succ_eq_map, Nat.mul_add, Nat.shiftRight_add, Nat.shiftRight_eq_div_pow _ 8, Nat.add_comm]
    have hnat : leNat (leBytes (n + 1) v) = v % 256 + 256 * leNat (leBytes n (v / 256)) := by
      rw [hcons]
      rfl
    rw [hnat, ih, Nat.pow_succ', Nat.mod_mul]

@[simp] theorem length_leBytes (n v : Nat) : (leBytes n v).length = n := by simp [leBytes]

theorem Memory.readN_writeN (m : Memory) (a : Nat) (bs : List Byte) : (m.writeN a bs).readN a bs.length = bs := by
  refine List.ext_getElem (by simp [Memory.readN]) (fun i hi hb => ?_)
  simp [Memory.readN, Memory.read_writeN, hb]

/-! ## A write to main memory -/

/-- Main memory written, with the reservations that the write clears. -/
theorem State.writeBytes_phys (s : State) (a : Nat) (bs : List Byte) :
    let t : State := { s with phys := s.phys.writeN a bs }
    s.writeBytes .phys a bs = if t.anyResv then t.clearResv .phys a bs.length else t := rfl

@[simp] theorem State.writeBytes_phys_tlb (s : State) (a : Nat) (bs : List Byte) : (s.writeBytes .phys a bs).tlb = s.tlb := by
  rw [State.writeBytes_phys]
  split <;> rfl
@[simp] theorem State.writeBytes_phys_missq (s : State) (a : Nat) (bs : List Byte) : (s.writeBytes .phys a bs).missq = s.missq := by
  rw [State.writeBytes_phys]
  split <;> rfl
@[simp] theorem State.writeBytes_phys_phys (s : State) (a : Nat) (bs : List Byte) : (s.writeBytes .phys a bs).phys = s.phys.writeN a bs := by
  rw [State.writeBytes_phys]
  split <;> rfl

/-- A word written reads back. -/
theorem State.readNat_writeBytes_phys (s : State) (a : Nat) (w : W64) : (s.writeBytes .phys a (leBytes 8 w.toNat)).readNat .phys a 8 = w.toNat := by
  have hn := Memory.readN_writeN s.phys a (leBytes 8 w.toNat)
  rw [length_leBytes] at hn
  rw [State.readNat, State.mem, State.writeBytes_phys_phys, Memory.readNat, hn, leNat_leBytes]
  exact Nat.mod_eq_of_lt w.isLt

/-- A thread that loses a reservation keeps all else. -/
theorem Thread.loseResv_eq (t : Thread) (st : Store) (a n : Nat) : ∃ v, t.loseResv st a n = { t with resv := v } := by
  unfold Thread.loseResv
  split
  · split
    · exact ⟨none, rfl⟩
    · exact ⟨t.resv, rfl⟩
  · exact ⟨t.resv, rfl⟩

/-- A cohort whose threads lose the reservations on a range (R260). -/
def Cohort.loseResv (c : Cohort) (st : Store) (a n : Nat) : Cohort :=
  { c with lanes := c.lanes.map (fun l => (l.1, l.2.loseResv st a n)) }

theorem Cohort.thread_loseResv (c : Cohort) (st : Store) (a n l : Nat) :
    (c.loseResv st a n).thread l = (c.thread l).map (fun t => t.loseResv st a n) :=
  AMap.find_map c.lanes (fun _ t => t.loseResv st a n) l

/-- A block whose threads lose the reservations on a range (R260). -/
def Block.loseResv (b : Block) (st : Store) (a n : Nat) : Block := { b with cohs := b.cohs.map (fun c => (c.1, c.2.loseResv st a n)) }

theorem Block.coh_loseResv (b : Block) (st : Store) (a n k : Nat) : (b.loseResv st a n).coh k = (b.coh k).map (fun c => c.loseResv st a n) :=
  AMap.find_map b.cohs (fun _ c => c.loseResv st a n) k

theorem State.block_clearResv (s : State) (st : Store) (a n k : Nat) :
    (s.clearResv st a n).block k = (s.block k).map (fun b => b.loseResv st a n) :=
  AMap.find_map s.blocks (fun _ b => b.loseResv st a n) k

theorem State.coh_clearResv (s : State) (st : Store) (a n : Nat) (r : CohRef) :
    (s.clearResv st a n).coh r = (s.coh r).map (fun c => c.loseResv st a n) := by
  rw [State.coh, State.coh, State.block_clearResv]
  cases s.block r.blk with
  | none => rfl
  | some b => exact b.coh_loseResv st a n r.coh

theorem State.thr_clearResv (s : State) (st : Store) (a n : Nat) (r : CohRef) (l : Nat) :
    (s.clearResv st a n).thr r l = (s.thr r l).map (fun t => t.loseResv st a n) := by
  rw [State.thr, State.thr, State.coh_clearResv]
  cases s.coh r with
  | none => rfl
  | some c => exact c.thread_loseResv st a n l

/-- Reservations that are cleared move nothing else. -/
theorem State.keeps_clearResv (s : State) (st : Store) (a n : Nat) : s.keeps (s.clearResv st a n) (fun z => ∃ r l, z = .resv r l) := by
  intro p hp
  cases p with
  | resv r l => exact absurd ⟨r, l, rfl⟩ hp
  | v r l _ | m r l _ | seed r l | ident r l =>
    simp only [State.same, State.vAt, State.mAt, State.seedAt, State.thr_clearResv]
    cases s.thr r l with
    | none => rfl
    | some t =>
      obtain ⟨v, hv⟩ := t.loseResv_eq st a n
      rw [Option.map_some, hv]
      rfl
  | s r _ | k r _ | ctr r _ | exc r | frz r | slot r _ | spill r | sel r | latch r | ncls r | cnt r | coh r =>
    simp only [State.same, State.sAt, State.kAt, State.ctrAt, State.frozen, State.slot, State.latches, State.coh_clearResv]
    cases s.coh r <;> rfl
  | b k _ | blk k =>
    simp only [State.same, State.bAt, State.block_clearResv]
    cases s.block k <;> rfl
  | byte q _ | full q _ | psn q _ =>
    cases q with
    | hblk k =>
      simp only [State.same, State.byte, State.mem, State.full, State.fes, State.psns, State.block_clearResv]
      cases s.block k <;> rfl
    | phys | core _ | die _ => rfl
  | cur | names | xlat => exact ⟨rfl, rfl⟩
  | _ => rfl

/-- Bytes of main memory written move nothing else. -/
theorem State.keeps_phys (s : State) (a : Nat) (bs : List Byte) :
    s.keeps { s with phys := s.phys.writeN a bs } (fun z => ∃ x, z = .byte .phys x ∧ a ≤ x ∧ x < a + bs.length) := by
  intro p hp
  cases p with
  | byte q x =>
    cases q with
    | phys => exact (Memory.read_writeN s.phys a x bs).trans (if_neg (fun hx => hp ⟨x, rfl, hx⟩))
    | core _ | die _ | hblk _ => rfl
  | full q _ | psn q _ => cases q <;> rfl
  | cur | names | xlat => exact ⟨rfl, rfl⟩
  | _ => rfl

/-- The places that a write of `n` bytes to main memory may move: the bytes, and the reservations that it ends (R260). -/
def physWrite (a n : Nat) (z : Place) : Prop := (∃ x, z = .byte .phys x ∧ a ≤ x ∧ x < a + n) ∨ ∃ r l, z = .resv r l

theorem State.keeps_writeBytes_phys (s : State) (a : Nat) (bs : List Byte) : s.keeps (s.writeBytes .phys a bs) (physWrite a bs.length) := by
  have hbytes := State.keeps_mono (w := physWrite a bs.length) (s.keeps_phys a bs) (fun _ => .inl)
  rw [State.writeBytes_phys]
  split
  · exact State.keeps_trans hbytes (State.keeps_mono (State.keeps_clearResv _ _ _ _) (fun _ => .inr))
  · exact hbytes

/-! ## The A and D bits -/

/-- A table entry that holds `e`, with the given bits set in it (R89): written where one of them is clear. -/
def State.setBits (s : State) (a : Nat) (e bits : W64) : State :=
  if e &&& bits = bits then s else s.writeBytes .phys a (leBytes 8 (e ||| bits).toNat)

theorem or_eq_left_of_and_eq {e bits : W64} (h : e &&& bits = bits) : e ||| bits = e := by
  rw [← h]
  ext i
  simpa using fun he _ => he

@[simp] theorem State.setBits_tlb (s : State) (a : Nat) (e bits : W64) : (s.setBits a e bits).tlb = s.tlb := by
  unfold State.setBits
  split <;> simp
@[simp] theorem State.setBits_missq (s : State) (a : Nat) (e bits : W64) : (s.setBits a e bits).missq = s.missq := by
  unfold State.setBits
  split <;> simp

/-- The entry reads as it was, with the bits. -/
theorem State.readNat_setBits {s : State} {a : Nat} {e : W64} (h : BitVec.ofNat 64 (s.readNat .phys a 8) = e) (bits : W64) :
    BitVec.ofNat 64 ((s.setBits a e bits).readNat .phys a 8) = e ||| bits := by
  unfold State.setBits
  split
  · rw [h, or_eq_left_of_and_eq ‹_›]
  · rw [State.readNat_writeBytes_phys, BitVec.ofNat_toNat, BitVec.setWidth_eq]

theorem State.keeps_setBits (s : State) (a : Nat) (e bits : W64) : s.keeps (s.setBits a e bits) (physWrite a 8) := by
  have hwrite := s.keeps_writeBytes_phys a (leBytes 8 (e ||| bits).toNat)
  rw [length_leBytes] at hwrite
  unfold State.setBits
  split
  · exact s.keeps_refl _
  · exact hwrite

/-- Stores, copies out and atomics need A and D, every other access A alone (R89; log entry 71). -/
theorem adBits_eq (ac : Access) : adBits ac = if ac = .write ∨ ac = .copyOut ∨ ac = .atomic then 0x60#64 else 0x20#64 := by
  cases ac <;> rfl

/-! ## The cached translations -/

/-- An entry cached behind the others. -/
def State.tlbAdd (s : State) (t : TlbEnt) : State := { s with tlb := s.tlb ++ [t] }

@[simp] theorem State.tlbAdd_tlb (s : State) (t : TlbEnt) : (s.tlbAdd t).tlb = s.tlb ++ [t] := rfl

/-- An entry of a page of which the unit holds none, where its cache has room, is cached behind the others (R93). -/
theorem State.tlbPut_fresh {s : State} {unit : Nat} {pasid : BitVec 20} {lv : Nat} {e : W64} (va : W64)
    (hnew : ∀ t ∈ s.tlb, ¬ (t.unit = unit ∧ t.pasid = pasid ∧ t.lg = lvBits lv))
    (hroom : (s.tlb.filter (fun t => t.of unit (e.getLsbD 1))).length < tlbMax (e.getLsbD 1)) :
    s.tlbPut unit pasid va lv e = s.tlbAdd ⟨unit, pasid, pageOf va (lvBits lv), lvBits lv, e⟩ := by
  have hold : s.tlb.filter (fun t => !(t.unit == unit && t.pasid == pasid && t.lg == lvBits lv && t.page == pageOf va (lvBits lv))) = s.tlb := by
    refine List.filter_eq_self.2 (fun t ht => ?_)
    have := hnew t ht
    simp only [Bool.not_eq_true', Bool.and_eq_false_iff, beq_eq_false_iff_ne]
    tauto
  simp only [State.tlbPut, State.tlbRoom, hold, if_pos hroom, State.tlbAdd]

theorem lvBits_inj {i j : Nat} (h : lvBits i = lvBits j) : i = j := by
  unfold lvBits at h
  omega

/-- An entry of another level leaves a unit without one of this level. -/
theorem State.tlbAdd_fresh {s : State} {unit : Nat} {pasid : BitVec 20} {i j : Nat}
    (hnew : ∀ t ∈ s.tlb, ¬ (t.unit = unit ∧ t.pasid = pasid ∧ t.lg = lvBits j)) (hij : i ≠ j) (page e : W64) :
    ∀ t ∈ (s.tlbAdd ⟨unit, pasid, page, lvBits i, e⟩).tlb, ¬ (t.unit = unit ∧ t.pasid = pasid ∧ t.lg = lvBits j) := by
  intro t ht
  rcases List.mem_append.1 ht with h | h
  · exact hnew t h
  · obtain rfl := List.mem_singleton.1 h
    exact fun ⟨_, _, hlg⟩ => hij (lvBits_inj hlg)

/-- A unit that holds no entry of a PASID finds none. -/
theorem State.tlbFind_none {s : State} {unit : Nat} {pasid : BitVec 20} (h : ∀ t ∈ s.tlb, ¬ (t.unit = unit ∧ t.pasid = pasid)) (va : W64)
    (lv : Nat) : s.tlbFind unit pasid va lv = none := by
  rw [State.tlbFind, Option.map_eq_none_iff, List.find?_eq_none]
  intro t ht hf
  simp only [Bool.and_eq_true, beq_iff_eq] at hf
  obtain ⟨⟨⟨hu, hp⟩, -⟩, -⟩ := hf
  exact h t ht ⟨hu, hp⟩

theorem State.leafHit_none {s : State} {unit : Nat} {pasid : BitVec 20} (h : ∀ t ∈ s.tlb, ¬ (t.unit = unit ∧ t.pasid = pasid)) (va : W64)
    (ac : Access) : s.leafHit unit pasid va ac = none := by
  simp only [State.leafHit, State.tlbFind_none h]

theorem State.keeps_tlb (s : State) (l : List TlbEnt) : s.keeps { s with tlb := l } (fun z => z = .xlat) := by
  intro p hp
  cases p with
  | xlat => exact absurd rfl hp
  | byte q _ | full q _ | psn q _ => cases q <;> rfl
  | cur | names => exact ⟨rfl, rfl⟩
  | _ => rfl

/-! ## The levels of a walk -/

/-- The table of a level at `a` holds a readable, valid entry `e` for an address: the leaf at level 0, a pointer above it (R86 to R88). -/
def State.tableHolds (s : State) (va : W64) (a lv : Nat) (e : W64) : Prop :=
  s.poisoned .phys (a + 8 * vaIndex va lv) 8 = false ∧ BitVec.ofNat 64 (s.readNat .phys (a + 8 * vaIndex va lv) 8) = e ∧ e.getLsbD 0 = true
  ∧ badEntry e lv = false ∧ e.getLsbD 1 = (lv == 0)

theorem State.tableEntry_ok {s : State} {va : W64} {base a lv : Nat} {e : W64} (ha : s.physAddr base = some a) (h : s.tableHolds va a lv e) :
    s.tableEntry base (vaIndex va lv) = .ok (a + 8 * vaIndex va lv, e) := by
  obtain ⟨hpsn, hread, -⟩ := h
  simp [State.tableEntry, ha, hpsn, hread]

/-- A level that is not cached, and whose table holds a pointer, passes the walk on to the table below. -/
theorem walkLevels_pointer {s : State} {unit : Nat} {pasid : BitVec 20} {va : W64} {base a n : Nat} {e : W64} (ptrs : List (Nat × W64))
    (hc : s.tlbFind unit pasid va (n + 1) = none) (ha : s.physAddr base = some a) (h : s.tableHolds va a (n + 1) e) :
    walkLevels s unit pasid va base (n + 1) ptrs = walkLevels s unit pasid va (frameOf e) n (ptrs ++ [(n + 1, e)]) := by
  obtain ⟨-, -, hvalid, hgood, hptr⟩ := id h
  have hlv : (n + 1 == 0) = false := rfl
  rw [walkLevels]
  simp only [Nat.add_eq_zero_iff, one_ne_zero, and_false, if_false, hc, State.tableEntry_ok ha h, hvalid, hgood, hptr, hlv, Bool.not_true,
    Bool.false_eq_true]

/-- The last level ends the walk with the leaf. -/
theorem walkLevels_leaf {s : State} {unit : Nat} {pasid : BitVec 20} {va : W64} {base a : Nat} {e : W64} (ptrs : List (Nat × W64))
    (ha : s.physAddr base = some a) (h : s.tableHolds va a 0 e) :
    walkLevels s unit pasid va base 0 ptrs = .ok (a + 8 * vaIndex va 0, e, 0, ptrs) := by
  obtain ⟨-, -, hvalid, hgood, hleaf⟩ := id h
  rw [walkLevels]
  simp [State.tableEntry_ok ha h, hvalid, hgood, hleaf]

/-- An address is served where it is, or, as the package's own pod address, at the local address that it names (R85). -/
theorem State.eq_or_localRange_of_physAddr {s : State} {a b : Nat} (h : s.physAddr a = some b) : b = a ∨ s.localRange b = true := by
  unfold State.physAddr at h
  split at h
  · exact .inl (Option.some.inj h).symm
  · split at h
    · exact .inl (Option.some.inj h).symm
    · split at h
      · dsimp only at h
        split_ifs at h with hlo hself hup
        · obtain rfl := Option.some.inj h
          exact .inr (by simpa using hlo)
        · exact .inl (Option.some.inj h).symm
      · cases h

/-- The location of an address is its own location. -/
theorem State.physAddr_of_physAddr {s : State} {a b : Nat} (h : s.physAddr a = some b) : s.physAddr b = some b := by
  rcases State.eq_or_localRange_of_physAddr h with rfl | hl
  · exact h
  · rw [State.physAddr, if_pos hl]

/-- With no error to strike, a walk's reads leave the state as it is. -/
theorem State.walkCheck_of_errIn {s : State} (h : s.errIn = []) (unit : Nat) (pasid : BitVec 20) (va : W64) (root : Nat) :
    s.walkCheck unit pasid va root = s := by
  simp [State.walkCheck, h]

theorem State.physCheck_ok {s : State} {e va : W64} {lv pa : Nat} (h : s.errIn = []) (ha : s.physAddr (leafAddr e va lv) = some pa) :
    s.physCheck e va lv = .ok pa := by
  simp [State.physCheck, ha, h]

/-- The PASID's entry that the I/O die holds is used as it is (R376). -/
theorem State.pasidEntry_held {s : State} {pasid : BitVec 20} {lo root : W64} (h : s.host.pasids.find pasid.toNat = some (lo, root)) :
    s.pasidEntry pasid = (s, lo, root) := by
  simp only [State.pasidEntry, h]

/-- The I/O die holds a valid entry of the PASID, and the table of level 2 lies at `a` (R87, R376). -/
def State.rootAt (s : State) (pasid : BitVec 20) (a : Nat) : Prop :=
  ∃ lo root, s.host.pasids.find pasid.toNat = some (lo, root) ∧ lo.getLsbD 0 = true ∧ root.extractLsb' 0 16 = 0#16
    ∧ root.extractLsb' 52 12 = 0#12 ∧ s.physAddr root.toNat = some a

/-- A walk that finds the leaf at the last level (R86 to R93): the leaf gets the bits that the access needs, and the unit caches the pointers
read on the way and the leaf. -/
theorem State.translate_walked {s : State} {unit : Nat} {pasid : BitVec 20} {va e : W64} {ac : Access} {base a pa : Nat}
    {ptrs : List (Nat × W64)} (hva : va.extractLsb' 55 9 = 0#9) (herr : s.errIn = []) (hmiss : s.leafHit unit pasid va ac = none)
    (hroot : s.rootAt pasid base) (hwalk : walkLevels s unit pasid va base 2 [] = .ok (a, e, 0, ptrs))
    (hread : BitVec.ofNat 64 (s.readNat .phys a 8) = e) (hperm : permCode e ac = none) (hpa : s.physAddr (leafAddr e va 0) = some pa) :
    s.translate unit pasid va ac = ((ptrs.foldl (fun s p => s.tlbPut unit pasid va p.1 p.2) (s.setBits a e (adBits ac))).tlbPut unit pasid va 0
      (e ||| adBits ac), .ok pa) := by
  obtain ⟨lo, root, hpasid, hlo, hlow, hhigh, hbase⟩ := hroot
  simp only [State.translate, hva, hmiss, State.pasidEntry_held hpasid, hlo, hlow, hhigh, hbase, State.walkCheck_of_errIn herr, hwalk, hperm,
    State.physCheck_ok herr hpa, hread, State.setBits, ne_eq, not_true, or_self, if_false, Bool.not_true, Bool.false_eq_true]

/-- The tables from the one at `a2` on lead an address over two pointers to the leaf `e0` in the table at `a0` (R86). -/
def State.tablesLead (s : State) (va : W64) (a2 a0 : Nat) (e2 e1 e0 : W64) : Prop :=
  ∃ a1, s.tableHolds va a2 2 e2 ∧ s.physAddr (frameOf e2) = some a1 ∧ s.tableHolds va a1 1 e1 ∧ s.physAddr (frameOf e1) = some a0
    ∧ s.tableHolds va a0 0 e0

theorem walkLevels_of_tablesLead {s : State} {unit : Nat} {pasid : BitVec 20} {va e2 e1 e0 : W64} {a2 a0 : Nat}
    (hnew : ∀ t ∈ s.tlb, ¬ (t.unit = unit ∧ t.pasid = pasid)) (ha2 : s.physAddr a2 = some a2) (h : s.tablesLead va a2 a0 e2 e1 e0) :
    walkLevels s unit pasid va a2 2 [] = .ok (a0 + 8 * vaIndex va 0, e0, 0, [(2, e2), (1, e1)]) := by
  obtain ⟨a1, he2, ha1, he1, ha0, he0⟩ := h
  rw [walkLevels_pointer [] (State.tlbFind_none hnew va 2) ha2 he2, walkLevels_pointer _ (State.tlbFind_none hnew va 1) ha1 he1,
    walkLevels_leaf _ ha0 he0]
  rfl

/-- A unit holds no entry of a PASID and has room for two pointers and a leaf (R93). -/
def State.roomForWalk (s : State) (unit : Nat) (pasid : BitVec 20) : Prop :=
  (∀ t ∈ s.tlb, ¬ (t.unit = unit ∧ t.pasid = pasid)) ∧ (s.tlb.filter (fun t => t.unit == unit && t.ent.getLsbD 1)).length < 16384
  ∧ (s.tlb.filter (fun t => t.unit == unit && !t.ent.getLsbD 1)).length < 511

/-- The entries that a walk of three levels leaves in a unit. -/
def walkEntries (unit : Nat) (pasid : BitVec 20) (va e2 e1 e0 : W64) : List TlbEnt :=
  [⟨unit, pasid, pageOf va 42, 42, e2⟩, ⟨unit, pasid, pageOf va 29, 29, e1⟩, ⟨unit, pasid, pageOf va 16, 16, e0⟩]

/-- Two pointers and a leaf go behind the entries of a unit that has room for them. -/
theorem State.tlbPut_levels {s : State} {unit : Nat} {pasid : BitVec 20} {e2 e1 e0 : W64} (va : W64) (h : s.roomForWalk unit pasid)
    (h2 : e2.getLsbD 1 = false) (h1 : e1.getLsbD 1 = false) (h0 : e0.getLsbD 1 = true) :
    ((s.tlbPut unit pasid va 2 e2).tlbPut unit pasid va 1 e1).tlbPut unit pasid va 0 e0
      = { s with tlb := s.tlb ++ walkEntries unit pasid va e2 e1 e0 } := by
  obtain ⟨hnew, hleaves, hptrs⟩ := h
  have hold (lv : Nat) : ∀ t ∈ s.tlb, ¬ (t.unit = unit ∧ t.pasid = pasid ∧ t.lg = lvBits lv) :=
    fun t ht ⟨hu, hp, _⟩ => hnew t ht ⟨hu, hp⟩
  have hleaf : (fun t : TlbEnt => t.of unit true) = fun t => t.unit == unit && t.ent.getLsbD 1 := by
    funext t
    simp [TlbEnt.of]
  have hptr : (fun t : TlbEnt => t.of unit false) = fun t => t.unit == unit && !t.ent.getLsbD 1 := by
    funext t
    simp [TlbEnt.of]
  have hroom2 : (s.tlb.filter (fun t => t.of unit (e2.getLsbD 1))).length < tlbMax (e2.getLsbD 1) := by
    rw [h2, hptr]
    exact hptrs.trans (by decide)
  rw [State.tlbPut_fresh va (hold 2) hroom2, State.tlbPut_fresh va (State.tlbAdd_fresh (hold 1) (by decide) _ _) ?room1,
    State.tlbPut_fresh va (State.tlbAdd_fresh (State.tlbAdd_fresh (hold 0) (by decide) _ _) (by decide) _ _) ?room0]
  · simp [State.tlbAdd, lvBits, walkEntries]
  case room1 =>
    rw [h1, hptr, State.tlbAdd_tlb, List.filter_append, List.length_append]
    exact Nat.add_lt_add_of_lt_of_le hptrs (List.length_filter_le _ _)
  case room0 =>
    rw [h0, hleaf]
    simpa only [State.tlbAdd_tlb, List.filter_append, List.filter_cons, List.filter_nil, h1, h2, Bool.and_false, Bool.false_eq_true, if_false,
      List.append_nil, tlbMax, if_true] using hleaves

/-! ## The events of the translation units -/

@[simp] theorem State.logMc_tlb (s : State) (die unit cls : Nat) (psn : Bool) (code : Nat) (addr misc : Option W64) :
    (s.logMc die unit cls psn code addr misc).tlb = s.tlb := rfl

@[simp] theorem State.killGrid_tlb (s : State) (g status : Nat) : (s.killGrid g status).tlb = s.tlb := by
  unfold State.killGrid
  split
  · rfl
  · split <;> rfl

@[simp] theorem State.placeHandler_tlb (s : State) (nest : Bool) (slot die core gid : Nat) (bid : W32 × W32 × W32) (w : FRec) :
    (s.placeHandler nest slot die core gid bid w).tlb = s.tlb := by
  unfold State.placeHandler
  split <;> rfl

@[simp] theorem State.spawnHandler_tlb (s : State) (gid die core : Nat) (bid : W32 × W32 × W32) (w : FRec) :
    (s.spawnHandler gid die core bid w).tlb = s.tlb := by
  unfold State.spawnHandler
  split <;> simp

@[simp] theorem State.spawnNest_tlb (s : State) (gid die : Nat) (bid : W32 × W32 × W32) (w : FRec) : (s.spawnNest gid die bid w).tlb = s.tlb := by
  unfold State.spawnNest
  split <;> simp

/-- A copy that takes a fault leaves the cached translations. -/
@[simp] theorem State.suspendCopy_tlb (s : State) (c : CopyT) (f : XFault) (va : W64) : (s.suspendCopy c f va).tlb = s.tlb := by
  unfold State.suspendCopy
  split
  · split <;> simp
  · simp

theorem exec_translationWalk (s : State) (unit : Nat) (p : BitVec 20) (va : W64) (ac : Access) :
    exec (.translationWalk unit p.toNat va ac) s = execTranslationWalk unit p.toNat va ac s := rfl
theorem exec_missQueueResume (s : State) (unit : Nat) : exec (.missQueueResume unit) s = execMissQueueResume unit s := rfl

/-- A walk that faults leaves the translations as they were, and copies that have joined it take the fault (R94, R95, R123). -/
theorem exec_translationWalk_error {s t : State} {unit : Nat} {p : BitVec 20} {va : W64} {ac : Access} {f : XFault}
    (hw : s.wants unit p va ac = true) (h : s.translate unit p va ac = (t, .error f)) :
    ∃ cs : List CopyT, exec (.translationWalk unit p.toNat va ac) s
      = .next (cs.foldl (fun u c => u.suspendCopy c f (c.memAddr (c.pos c.done))) { t with tlb := s.tlb }) :=
  ⟨_, by
    simp only [exec_translationWalk, execTranslationWalk, BitVec.ofNat_toNat, BitVec.setWidth_eq, hw, h, Bool.not_true, Bool.false_eq_true,
      if_false]
    rfl⟩

/-- A walk that faults caches nothing (R95). -/
theorem exec_translationWalk_error_tlb {s : State} {unit : Nat} {p : BitVec 20} {va : W64} {ac : Access} {f : XFault}
    (hw : s.wants unit p va ac = true) (hf : (s.translate unit p va ac).2 = .error f) :
    ∃ t, exec (.translationWalk unit p.toNat va ac) s = .next t ∧ t.tlb = s.tlb := by
  obtain ⟨cs, hrun⟩ := exec_translationWalk_error (t := (s.translate unit p va ac).1) hw (Prod.ext rfl hf)
  exact ⟨_, hrun, List.foldlRecOn (motive := fun u : State => u.tlb = s.tlb) cs _ rfl (fun u hu c _ => (u.suspendCopy_tlb c f _).trans hu)⟩

/-- A walk that does not fault leaves the state that the translation gives. -/
theorem exec_translationWalk_ok {s t : State} {unit : Nat} {p : BitVec 20} {va : W64} {ac : Access} {pa : Nat} (hw : s.wants unit p va ac = true)
    (h : s.translate unit p va ac = (t, .ok pa)) : exec (.translationWalk unit p.toNat va ac) s = .next t := by
  simp only [exec_translationWalk, execTranslationWalk, BitVec.ofNat_toNat, BitVec.setWidth_eq, hw, h, Bool.not_true, Bool.false_eq_true,
    if_false]

/-- The copies that a unit holds back from a number on (R94). -/
def State.heldFrom (s : State) (unit id : Nat) : List CopyT := s.copies.filter (fun c => xunit c.core == unit && decide (id ≤ c.id))

/-- A unit whose miss queue has room lets the oldest copy that it holds back go on: the one behind it is held from then on (R94). -/
theorem exec_missQueueResume_next {s : State} {unit id : Nat} {c : CopyT} (h : s.missq.find unit = some id) (hroom : s.misses unit id < missMax)
    (hc : ((s.heldFrom unit id).drop 1).head? = some c) :
    exec (.missQueueResume unit) s = .next { s with missq := s.missq.set unit c.id } := by
  rw [State.heldFrom] at hc
  simp only [exec_missQueueResume, execMissQueueResume, h, if_neg (Nat.not_le.2 hroom), hc]

/-- With none behind it, the unit holds back no more. -/
theorem exec_missQueueResume_last {s : State} {unit id : Nat} (h : s.missq.find unit = some id) (hroom : s.misses unit id < missMax)
    (hc : ((s.heldFrom unit id).drop 1).head? = none) : exec (.missQueueResume unit) s = .next { s with missq := s.missq.del unit } := by
  rw [State.heldFrom] at hc
  simp only [exec_missQueueResume, execMissQueueResume, h, if_neg (Nat.not_le.2 hroom), hc]

/-- A walk for a waiting request over three levels (R86 to R93): the leaf gets A, and for a write D, and the unit caches the two pointers and
the leaf. -/
theorem exec_translationWalk_levels {s : State} {unit : Nat} {p : BitVec 20} {va e2 e1 e0 : W64} {ac : Access} {a2 a0 pa : Nat}
    (hw : s.wants unit p va ac = true) (hva : va.extractLsb' 55 9 = 0#9) (herr : s.errIn = []) (hroom : s.roomForWalk unit p)
    (hroot : s.rootAt p a2) (hlead : s.tablesLead va a2 a0 e2 e1 e0) (hperm : permCode e0 ac = none)
    (hpa : s.physAddr (leafAddr e0 va 0) = some pa) :
    exec (.translationWalk unit p.toNat va ac) s = .next { s.setBits (a0 + 8 * vaIndex va 0) e0 (adBits ac) with
      tlb := s.tlb ++ walkEntries unit p va e2 e1 (e0 ||| adBits ac) } := by
  obtain ⟨hnew, -, -⟩ := id hroom
  obtain ⟨_, _, -, -, -, -, ha2⟩ := id hroot
  obtain ⟨_, ⟨-, -, -, -, hptr2⟩, -, ⟨-, -, -, -, hptr1⟩, -, ⟨-, hread, -, -, hleaf⟩⟩ := id hlead
  have hleafAD : (e0 ||| adBits ac).getLsbD 1 = true := by
    rw [BitVec.getLsbD_or, hleaf]
    rfl
  have hroomAD : (s.setBits (a0 + 8 * vaIndex va 0) e0 (adBits ac)).roomForWalk unit p := by
    rw [State.roomForWalk, State.setBits_tlb]
    exact hroom
  have hwalk := walkLevels_of_tablesLead hnew (State.physAddr_of_physAddr ha2) hlead
  have htrans := State.translate_walked hva herr (State.leafHit_none hnew va ac) hroot hwalk hread hperm hpa
  rw [List.foldl_cons, List.foldl_cons, List.foldl_nil, State.tlbPut_levels va hroomAD hptr2 hptr1 hleafAD, State.setBits_tlb] at htrans
  exact exec_translationWalk_ok hw htrans

/-- Settles O37: a walk over three levels is `exec_translationWalk_levels`, and what it writes is `State.setBits`; a fault puts the cached
translations back; a free miss queue holds from the next copy on. -/
theorem translationsAreWalked : Obligations.TranslationsAreWalked := by
  unfold Obligations.TranslationsAreWalked
  intro s unit p va ac run
  refine ⟨fun hw => ⟨fun ⟨f, hf⟩ => exec_translationWalk_error_tlb hw hf, ?walk⟩, fun id hq hroom => ⟨?next, ?last⟩⟩
  case walk =>
    intro lo root a2 a1 a0 e2 e1 e0 pa entry need hva herr hnew hleaves hptrs hpasid hlo hlow hhigh ha2 he2 ha1 he1 ha0 he0 hperm hpa
    have hrun := exec_translationWalk_levels hw hva herr ⟨hnew, hleaves, hptrs⟩ ⟨lo, root, hpasid, hlo, hlow, hhigh, ha2⟩
      ⟨a1, he2, ha1, he1, ha0, he0⟩ hperm hpa
    have hneed : adBits ac = need := adBits_eq ac
    rw [hneed] at hrun
    obtain ⟨-, hread, -⟩ := id he0
    have hmark := s.keeps_setBits (a0 + 8 * vaIndex va 0) e0 need
    have hcache := (s.setBits (a0 + 8 * vaIndex va 0) e0 need).keeps_tlb (s.tlb ++ walkEntries unit p va e2 e1 (e0 ||| need))
    exact ⟨_, hrun, rfl, State.readNat_setBits hread need, State.setBits_missq ..,
      State.keeps_trans (State.keeps_mono hmark (fun _ => .inr)) (State.keeps_mono hcache (fun _ => .inl))⟩
  case next =>
    intro a c rest h
    exact exec_missQueueResume_next hq hroom (congrArg (fun l => (l.drop 1).head?) h)
  case last =>
    intro h
    exact exec_missQueueResume_last hq hroom (congrArg List.head? (List.drop_eq_nil_of_le h))

end Sys2Proof.Machine
end

section
/-! SUPPORT. An LDSPL in flight that names no matrix register (O42). -/
namespace Sys2Proof.Machine

/-- An LDSPL of lane 0 in flight that names no matrix register. -/
def unaimedLine : Pend where
  id := 9
  grid := 2
  blk := 1
  coh := 0
  isB := false
  kind := .ldspl
  dst := none
  tag := .f32
  slot := none
  exec := 1#32
  lanes := [(0, [⟨0, .phys, 0, 128, 0#64, 0#64, false⟩])]
  done := 0#32
  more := false
  lost := 0#32
  acq := false
  rel := false
  scope := .coh
  clk0 := 0
  pc := 0#64
  widx := 1
  cls := 9#4
  op := 0#6
  smp := none
  sect := 0

/-- A machine with one thread, and that operation in flight. -/
def unaimedLineState : State := { State.reset.withFetchWord 64 0x000B000000000000 with pend := [unaimedLine] }

theorem mayLand_unaimedLine : ∃ h, mayLand unaimedLineState 9 0 unaimedLine [⟨0, .phys, 0, 128, 0#64, 0#64, false⟩] h := by
  have hthr : (unaimedLineState.thr unaimedLine.ref 0).isSome = true := by decide
  obtain ⟨h, hh⟩ := Option.isSome_iff_exists.1 hthr
  exact ⟨h, by decide, by decide, hh, by decide, by decide, by decide, by decide, by decide⟩

theorem exec_unaimedLine : exec (.turretLaneReply 9 0) unaimedLineState = .next unaimedLineState := by rfl

/-- Refutes O42: the statement lets an LDSPL name no destination, and the reply of such an operation changes nothing, so its lane is still in
flight. -/
theorem not_laneRepliesAndSelfTestsComplete : ¬ Obligations.LaneRepliesAndSelfTestsComplete := by
  unfold Obligations.LaneRepliesAndSelfTestsComplete
  rintro ⟨hland, -⟩
  obtain ⟨h, hmay⟩ := mayLand_unaimedLine
  obtain ⟨t, ht, hleft⟩ := (hland _ _ _ _ _ h hmay (by unfold noRecord; decide)).1 (.inr rfl) (by decide)
  rw [exec_unaimedLine] at ht
  cases ht
  unfold lanesLeft at hleft
  rw [if_pos (by decide)] at hleft
  exact absurd hleft.1 (by decide)
end Sys2Proof.Machine
end

section
/-! SUPPORT. A core, a die, a block changed: what a step moves, and what it leaves of the machine's shape (O19). -/
namespace Sys2Proof.Machine

/-! ## A core, a die, a block changed -/

/-- Two cores hold the same at a place of core `n`. -/
def coreSame (n : Nat) (c c' : Core) : Place → Prop
  | .byte (.core k) a => k = n → c'.scr.read a = c.scr.read a
  | .full (.core k) a => k = n → c'.fe.contains (a / 16) = c.fe.contains (a / 16)
  | .psn (.core k) g => k = n → c'.psn.contains g = c.psn.contains g
  | .objs k => k = n → c'.objs = c.objs
  | .core k => k = n → c'.bare = c.bare
  | .part k p => k = n → { c'.part p with smp := 0 } = { c.part p with smp := 0 }
  | .smp k p => k = n → (c'.part p).smp = (c.part p).smp
  | _ => True

/-- A core changed: the state keeps what the core keeps, and everything outside it. -/
theorem State.keeps_setCore {s : State} {n : Nat} {c : Core} {w : Place → Prop} (h : ∀ p, ¬ w p → coreSame n (s.core n) c p) :
    s.keeps (s.setCore n c) w := by
  intro p hp
  have h := h p hp
  cases p with
  | byte st a | full st a | psn st a =>
    cases st with
    | core k =>
      simp only [State.same, State.byte, State.mem, State.full, State.fes, State.psns, State.core_setCore]
      by_cases hk : k = n
      · subst hk
        simpa using h rfl
      · simp [hk]
    | _ => rfl
  | objs k | core k | part k _ | smp k _ =>
    simp only [State.same, State.core_setCore]
    by_cases hk : k = n
    · subst hk
      simpa using h rfl
    · simp [hk]
  | cur | names | xlat => exact ⟨rfl, rfl⟩
  | _ => rfl

/-- Two dies hold the same at a place of die `n`. -/
def dieSame (n : Nat) (d d' : Die) : Place → Prop
  | .byte (.die k) a => k = n → d'.dw.read a = d.dw.read a
  | .psn (.die k) g => k = n → d'.dwpsn.contains g = d.dwpsn.contains g
  | .die k => k = n → d'.bare = d.bare
  | _ => True

/-- A die changed: the state keeps what the die keeps, and everything outside it. -/
theorem State.keeps_setDie {s : State} {n : Nat} {d : Die} {w : Place → Prop} (h : ∀ p, ¬ w p → dieSame n (s.die n) d p) :
    s.keeps (s.setDie n d) w := by
  intro p hp
  have h := h p hp
  cases p with
  | byte st a | psn st a =>
    cases st with
    | die k =>
      simp only [State.same, State.byte, State.mem, State.psns, State.die_setDie]
      by_cases hk : k = n
      · subst hk
        simpa using h rfl
      · simp [hk]
    | _ => rfl
  | full st a => cases st <;> rfl
  | die k =>
    simp only [State.same, State.die_setDie]
    by_cases hk : k = n
    · subst hk
      simpa using h rfl
    · simp [hk]
  | cur | names | xlat => exact ⟨rfl, rfl⟩
  | _ => rfl

/-- Two blocks hold the same at a place of the own storage of block `n`. -/
def storageSame (n : Nat) (b b' : Block) : Place → Prop
  | .byte (.hblk k) a => k = n → b'.mem.read a = b.mem.read a
  | .full (.hblk k) a => k = n → b'.mfe.contains (a / 16) = b.mfe.contains (a / 16)
  | .psn (.hblk k) g => k = n → b'.mpsn.contains g = b.mpsn.contains g
  | _ => True

/-- The own storage of a block changed: the state keeps what the storage keeps, and everything outside it. -/
theorem State.keeps_setBlock {s : State} {n : Nat} {b b' : Block} {w : Place → Prop} (hb : s.block n = some b)
    (hbare : b'.bare = b.bare) (hcohs : b'.cohs = b.cohs) (hregs : b'.b = b.b) (h : ∀ p, ¬ w p → storageSame n b b' p) :
    s.keeps (s.setBlock n b') w := by
  intro p hp
  have h := h p hp
  have hblock (k : Nat) : (s.setBlock n b').block k = if k = n then some b' else s.block k := s.block_setBlock n k b'
  have hcoh (q : CohRef) : (s.setBlock n b').coh q = s.coh q := by
    simp only [State.coh, hblock]
    by_cases hq : q.blk = n
    · simp [hq, hb, Block.coh, hcohs]
    · simp [hq]
  cases p with
  | byte st a | full st a | psn st a =>
    cases st with
    | hblk k =>
      simp only [State.same, State.byte, State.mem, State.full, State.fes, State.psns, hblock]
      by_cases hk : k = n
      · subst hk
        simpa [hb] using h rfl
      · simp [hk]
    | _ => rfl
  | b k _ =>
    simp only [State.same, State.bAt, hblock]
    by_cases hk : k = n
    · subst hk
      simp [hb, Block.breg, hregs]
    · simp [hk]
  | blk k =>
    simp only [State.same, hblock]
    by_cases hk : k = n
    · subst hk
      simp [hb, hbare]
    · simp [hk]
  | s q _ | k q _ | ctr q _ | v q l _ | m q l _ | seed q l | resv q l | ident q l | exc q | frz q | slot q _ | spill q | sel q | latch q
  | ncls q | cnt q | coh q =>
    simp [State.same, State.sAt, State.kAt, State.ctrAt, State.vAt, State.mAt, State.seedAt, State.thr, State.frozen, State.slot,
      State.latches, hcoh]
  | cur | names | xlat => exact ⟨rfl, rfl⟩
  | _ => rfl

/-! ## What a step leaves of the machine's shape -/

/-- A block with its number and without what has a place of its own. -/
def shell (q : Nat × Block) : Nat × Block := (q.1, q.2.bare)

/-- A step moves only the places of `w`; it leaves the blocks that there are, with all that reach and logs read of them, and the errors
that are still to strike. -/
structure State.movesOnly (s t : State) (w : Place → Prop) : Prop where
  keeps  : s.keeps t w
  shells : ∀ q, q ∈ t.blocks.map shell ↔ q ∈ s.blocks.map shell
  errs   : t.errIn = s.errIn

theorem State.movesOnly_refl (s : State) (w : Place → Prop) : s.movesOnly s w := ⟨s.keeps_refl w, fun _ => Iff.rfl, rfl⟩

theorem State.movesOnly.trans {s t u : State} {w : Place → Prop} (h : s.movesOnly t w) (k : t.movesOnly u w) : s.movesOnly u w :=
  ⟨State.keeps_trans h.keeps k.keeps, fun q => (k.shells q).trans (h.shells q), k.errs.trans h.errs⟩

theorem State.movesOnly.mono {s t : State} {v w : Place → Prop} (h : s.movesOnly t v) (hw : ∀ p, v p → w p) : s.movesOnly t w :=
  ⟨State.keeps_mono h.keeps hw, h.shells, h.errs⟩

/-- Steps one after another. -/
theorem State.movesOnly_foldl {α : Type} {f : State → α → State} {as : List α} {w : Place → Prop}
    (h : ∀ s : State, ∀ a ∈ as, s.movesOnly (f s a) w) (s : State) : s.movesOnly (as.foldl f s) w := by
  induction as generalizing s with
  | nil => exact s.movesOnly_refl w
  | cons a as ih =>
    exact (h s a (List.mem_cons_self ..)).trans (ih (fun s b hb => h s b (List.mem_cons_of_mem _ hb)) _)

/-- A value put at a key that holds one: every other pair stays, and that pair gives way at most. -/
theorem AMap.mem_set {α : Type} {m : AMap α} {i : Nat} {v w : α} (h : m.find i = some w) (q : Nat × α) :
    (q ∈ m.set i v → q = (i, v) ∨ q ∈ m) ∧ (q ∈ m → q = (i, w) ∨ q ∈ m.set i v) ∧ (i, v) ∈ m.set i v := by
  induction m with
  | nil => simp [AMap.find] at h
  | cons p r ih =>
    obtain ⟨k, u⟩ := p
    simp only [AMap.find] at h
    simp only [AMap.set]
    split at h
    · rename_i hk
      subst hk
      cases h
      simp only [if_true, List.mem_cons]
      tauto
    · rename_i hk
      obtain ⟨h1, h2, h3⟩ := ih h
      rw [if_neg hk]
      split <;> simp only [List.mem_cons] <;> tauto

/-- A pair that a map finds is in it. -/
theorem AMap.mem_of_find {α : Type} {m : AMap α} {i : Nat} {v : α} (h : m.find i = some v) : (i, v) ∈ m := by
  induction m with
  | nil => simp [AMap.find] at h
  | cons p r ih =>
    obtain ⟨k, u⟩ := p
    simp only [AMap.find] at h
    split at h
    · rename_i hk
      subst hk
      cases h
      exact List.mem_cons_self ..
    · exact List.mem_cons_of_mem _ (ih h)

/-- A block replaced by one with the same shell. -/
theorem State.shells_setBlock {s : State} {n : Nat} {b b' : Block} (hb : s.block n = some b) (hbare : b'.bare = b.bare) (q : Nat × Block) :
    q ∈ (s.setBlock n b').blocks.map shell ↔ q ∈ s.blocks.map shell := by
  have hset := AMap.mem_set (v := b') hb
  have hnew : shell (n, b') = shell (n, b) := by simp [shell, hbare]
  simp only [List.mem_map]
  constructor
  · rintro ⟨p, hp, rfl⟩
    rcases (hset p).1 hp with rfl | hp
    · exact ⟨(n, b), AMap.mem_of_find hb, hnew.symm⟩
    · exact ⟨p, hp, rfl⟩
  · rintro ⟨p, hp, rfl⟩
    rcases (hset p).2.1 hp with hold | hp
    · exact ⟨(n, b'), (hset p).2.2, hold ▸ hnew⟩
    · exact ⟨p, hp, rfl⟩

theorem State.movesOnly_setBlock {s : State} {n : Nat} {b b' : Block} {w : Place → Prop} (hb : s.block n = some b)
    (hbare : b'.bare = b.bare) (hcohs : b'.cohs = b.cohs) (hregs : b'.b = b.b) (h : ∀ p, ¬ w p → storageSame n b b' p) :
    s.movesOnly (s.setBlock n b') w :=
  ⟨State.keeps_setBlock hb hbare hcohs hregs h, State.shells_setBlock hb hbare, rfl⟩

theorem State.movesOnly_setCore {s : State} {n : Nat} {c : Core} {w : Place → Prop} (h : ∀ p, ¬ w p → coreSame n (s.core n) c p) :
    s.movesOnly (s.setCore n c) w := ⟨State.keeps_setCore h, fun _ => Iff.rfl, rfl⟩

theorem State.movesOnly_setDie {s : State} {n : Nat} {d : Die} {w : Place → Prop} (h : ∀ p, ¬ w p → dieSame n (s.die n) d p) :
    s.movesOnly (s.setDie n d) w := ⟨State.keeps_setDie h, fun _ => Iff.rfl, rfl⟩

theorem State.movesOnly_updCoh {s : State} {r : CohRef} {f : Cohort → Cohort} {w : Place → Prop}
    (h : ∀ c, s.coh r = some c → ∀ p, ¬ w p → cohSame r c (f c) p) : s.movesOnly (s.updCoh r f) w := by
  refine ⟨State.keeps_updCoh h, fun q => ?_, by simp⟩
  unfold State.updCoh
  split
  · rename_i c hc
    unfold State.setCoh
    split
    · rename_i b hb
      exact State.shells_setBlock (b' := b.setCoh r.coh (f c)) hb rfl q
    · exact Iff.rfl
  · exact Iff.rfl

theorem State.movesOnly_clearResv (s : State) (st : Store) (a n : Nat) :
    s.movesOnly (s.clearResv st a n) (fun z => ∃ r l, z = .resv r l) := by
  refine ⟨s.keeps_clearResv st a n, fun q => ?_, rfl⟩
  have : (s.clearResv st a n).blocks.map shell = s.blocks.map shell := by
    simp [State.clearResv, shell, Block.bare, List.map_map, Function.comp_def]
  rw [this]

end Sys2Proof.Machine
end

section
/-! SUPPORT. The parts of a store: bytes, poison, full-empty bits and objects written, and what reads back (O19). -/
namespace Sys2Proof.Machine

/-! ## The parts of a store -/

theorem State.movesOnly_setMem (s : State) {st : Store} {m : Memory} {w : Place → Prop}
    (h : ∀ a, ¬ w (.byte st a) → m.read a = (s.mem st).read a) : s.movesOnly (s.setMem st m) w := by
  cases st with
  | phys =>
    refine ⟨fun p hp => ?_, fun _ => Iff.rfl, rfl⟩
    cases p with
    | byte q a =>
      cases q with
      | phys => exact h a hp
      | _ => rfl
    | full q _ | psn q _ => cases q <;> rfl
    | cur | names | xlat => exact ⟨rfl, rfl⟩
    | _ => rfl
  | core k =>
    refine State.movesOnly_setCore (fun p hp => ?_)
    cases p with
    | byte q a =>
      cases q with
      | core j =>
        rintro rfl
        exact h a hp
      | _ => trivial
    | full q _ | psn q _ => cases q <;> simp [coreSame]
    | _ => simp [coreSame, Core.bare, Core.part]
  | die k =>
    refine State.movesOnly_setDie (fun p hp => ?_)
    cases p with
    | byte q a =>
      cases q with
      | die j =>
        rintro rfl
        exact h a hp
      | _ => trivial
    | psn q _ => cases q <;> simp [dieSame]
    | _ => simp [dieSame, Die.bare]
  | hblk k =>
    simp only [State.setMem]
    split
    · rename_i b hb
      refine State.movesOnly_setBlock hb rfl rfl rfl (fun p hp => ?_)
      cases p with
      | byte q a =>
        cases q with
        | hblk j =>
          rintro rfl
          simpa [State.mem, hb] using h a hp
        | _ => trivial
      | full q _ | psn q _ => cases q <;> simp [storageSame]
      | _ => trivial
    · exact s.movesOnly_refl w

theorem State.movesOnly_setPsns (s : State) {st : Store} {l : List Nat} {w : Place → Prop}
    (h : ∀ g, ¬ w (.psn st g) → l.contains g = (s.psns st).contains g) : s.movesOnly (s.setPsns st l) w := by
  cases st with
  | phys =>
    refine ⟨fun p hp => ?_, fun _ => Iff.rfl, rfl⟩
    cases p with
    | psn q g =>
      cases q with
      | phys => exact h g hp
      | _ => rfl
    | full q _ | byte q _ => cases q <;> rfl
    | cur | names | xlat => exact ⟨rfl, rfl⟩
    | _ => rfl
  | core k =>
    refine State.movesOnly_setCore (fun p hp => ?_)
    cases p with
    | psn q g =>
      cases q with
      | core j =>
        rintro rfl
        exact h g hp
      | _ => trivial
    | full q _ | byte q _ => cases q <;> simp [coreSame]
    | _ => simp [coreSame, Core.bare, Core.part]
  | die k =>
    refine State.movesOnly_setDie (fun p hp => ?_)
    cases p with
    | psn q g =>
      cases q with
      | die j =>
        rintro rfl
        exact h g hp
      | _ => trivial
    | byte q _ => cases q <;> simp [dieSame]
    | _ => simp [dieSame, Die.bare]
  | hblk k =>
    simp only [State.setPsns]
    split
    · rename_i b hb
      refine State.movesOnly_setBlock hb rfl rfl rfl (fun p hp => ?_)
      cases p with
      | psn q g =>
        cases q with
        | hblk j =>
          rintro rfl
          simpa [State.psns, hb] using h g hp
        | _ => trivial
      | full q _ | byte q _ => cases q <;> simp [storageSame]
      | _ => trivial
    · exact s.movesOnly_refl w

theorem State.movesOnly_setFes (s : State) {st : Store} {l : List Nat} {w : Place → Prop}
    (h : ∀ a, ¬ w (.full st a) → l.contains (a / 16) = (s.fes st).contains (a / 16)) : s.movesOnly (s.setFes st l) w := by
  cases st with
  | phys | die _ => exact s.movesOnly_refl w
  | core k =>
    refine State.movesOnly_setCore (fun p hp => ?_)
    cases p with
    | full q g =>
      cases q with
      | core j =>
        rintro rfl
        exact h g hp
      | _ => trivial
    | psn q _ | byte q _ => cases q <;> simp [coreSame]
    | _ => simp [coreSame, Core.bare, Core.part]
  | hblk k =>
    simp only [State.setFes]
    split
    · rename_i b hb
      refine State.movesOnly_setBlock hb rfl rfl rfl (fun p hp => ?_)
      cases p with
      | full q g =>
        cases q with
        | hblk j =>
          rintro rfl
          simpa [State.fes, hb] using h g hp
        | _ => trivial
      | psn q _ | byte q _ => cases q <;> simp [storageSame]
      | _ => trivial
    · exact s.movesOnly_refl w

theorem State.movesOnly_setObjs (s : State) {st : Store} {l : List Nat} {w : Place → Prop} (h : ∀ k, st = .core k → w (.objs k)) :
    s.movesOnly (s.setObjs st l) w := by
  cases st with
  | phys | die _ => exact s.movesOnly_refl w
  | core k =>
    refine State.movesOnly_setCore (fun p hp => ?_)
    cases p with
    | objs j =>
      rintro rfl
      exact absurd (h j rfl) hp
    | psn q _ | byte q _ | full q _ => cases q <;> simp [coreSame]
    | _ => simp [coreSame, Core.bare, Core.part]
  | hblk k =>
    simp only [State.setObjs]
    split
    · rename_i b hb
      refine State.movesOnly_setBlock hb rfl rfl rfl (fun p hp => ?_)
      cases p with
      | psn q _ | byte q _ | full q _ => cases q <;> simp [storageSame]
      | _ => trivial
    · exact s.movesOnly_refl w

/-! ## Reads behind writes of a store -/

theorem isThere_of_keeps {s t : State} {w : Place → Prop} {st : Store} (h : isThere s st) (k : s.keeps t w) (hw : ∀ b, ¬ w (.blk b)) :
    isThere t st := by
  intro b hb
  have hsame := k (.blk b) (hw b)
  simp only [State.same] at hsame
  have := congrArg Option.isSome hsame
  simpa [h b hb] using this

theorem State.mem_setMem {s : State} {st : Store} (h : isThere s st) (q : Store) (m : Memory) :
    (s.setMem st m).mem q = if q = st then m else s.mem q := by
  cases st with
  | phys => cases q <;> simp [State.setMem, State.mem, State.core, State.die, State.block]
  | core k =>
    cases q with
    | core j =>
      simp only [State.setMem, State.mem, State.core_setCore, Store.core.injEq]
      split <;> rfl
    | _ => simp [State.setMem, State.mem, State.die, State.block]
  | die k =>
    cases q with
    | die j =>
      simp only [State.setMem, State.mem, State.die_setDie, Store.die.injEq]
      split <;> rfl
    | _ => simp [State.setMem, State.mem, State.core, State.block]
  | hblk k =>
    obtain ⟨b, hb⟩ := Option.isSome_iff_exists.1 (h k rfl)
    cases q with
    | hblk j =>
      simp only [State.setMem, hb, State.mem, State.block_setBlock, Store.hblk.injEq]
      split <;> rfl
    | _ => simp [State.setMem, hb, State.mem, State.core, State.die]

theorem State.psns_setPsns {s : State} {st : Store} (h : isThere s st) (l : List Nat) : (s.setPsns st l).psns st = l := by
  cases st with
  | phys => rfl
  | core k => simp [State.setPsns, State.psns]
  | die k => simp [State.setPsns, State.psns]
  | hblk k =>
    obtain ⟨b, hb⟩ := Option.isSome_iff_exists.1 (h k rfl)
    simp [State.setPsns, State.psns, hb]

/-- The granules with live objects behind an update that changes no store's list of them. -/
def State.sameObjs (s t : State) : Prop := ∀ st, t.objs st = s.objs st

theorem State.sameObjs_setMem (s : State) (st : Store) (m : Memory) : s.sameObjs (s.setMem st m) := by
  intro q
  cases st with
  | phys => rfl
  | core k =>
    cases q with
    | core j =>
      simp only [State.setMem, State.objs, State.core_setCore]
      split
      · next h => rw [h]
      · rfl
    | _ => rfl
  | die k => cases q <;> rfl
  | hblk k =>
    simp only [State.setMem]
    split
    · rename_i b hb
      cases q with
      | hblk j =>
        simp only [State.objs, State.block_setBlock]
        split
        · next h => rw [h, hb]; rfl
        · rfl
      | _ => rfl
    · rfl

theorem State.sameObjs_setPsns (s : State) (st : Store) (l : List Nat) : s.sameObjs (s.setPsns st l) := by
  intro q
  cases st with
  | phys => rfl
  | core k =>
    cases q with
    | core j =>
      simp only [State.setPsns, State.objs, State.core_setCore]
      split
      · next h => rw [h]
      · rfl
    | _ => rfl
  | die k => cases q <;> rfl
  | hblk k =>
    simp only [State.setPsns]
    split
    · rename_i b hb
      cases q with
      | hblk j =>
        simp only [State.objs, State.block_setBlock]
        split
        · next h => rw [h, hb]; rfl
        · rfl
      | _ => rfl
    · rfl

theorem State.sameObjs_clearResv (s : State) (st : Store) (a n : Nat) : s.sameObjs (s.clearResv st a n) := by
  intro q
  cases q with
  | hblk k =>
    simp only [State.objs, State.block_clearResv]
    cases s.block k <;> rfl
  | _ => rfl

/-! ## Bytes written -/

theorem State.writeBytes_eq (s : State) (st : Store) (a : Nat) (bs : List Byte) : ∃ u, u = s.setMem st ((s.mem st).writeN a bs)
    ∧ (s.writeBytes st a bs = u ∨ s.writeBytes st a bs = u.clearResv st a bs.length) := by
  refine ⟨_, rfl, ?_⟩
  unfold State.writeBytes
  dsimp only
  split
  · exact .inr rfl
  · exact .inl rfl

/-- Bytes written move the bytes, and end the reservations on them (R260). -/
theorem State.movesOnly_writeBytes (s : State) (st : Store) (a : Nat) (bs : List Byte) {w : Place → Prop}
    (hb : ∀ x, a ≤ x → x < a + bs.length → w (.byte st x)) (hr : ∀ r l, w (.resv r l)) : s.movesOnly (s.writeBytes st a bs) w := by
  obtain ⟨u, rfl, hu⟩ := s.writeBytes_eq st a bs
  have hmem := s.movesOnly_setMem (st := st) (m := (s.mem st).writeN a bs) (w := w) (fun x hx => by
    rw [Memory.read_writeN, if_neg (fun hin => hx (hb x hin.1 hin.2))])
  rcases hu with hu | hu <;> rw [hu]
  · exact hmem
  · exact hmem.trans ((State.movesOnly_clearResv _ st a bs.length).mono (fun p ⟨r, l, h⟩ => h ▸ hr r l))

theorem State.mem_clearResv (s : State) (st q : Store) (a n : Nat) : (s.clearResv st a n).mem q = s.mem q := by
  cases q with
  | hblk k =>
    simp only [State.mem, State.block_clearResv]
    cases s.block k <;> rfl
  | _ => rfl

theorem State.mem_writeBytes {s : State} {st : Store} (h : isThere s st) (q : Store) (a : Nat) (bs : List Byte) :
    (s.writeBytes st a bs).mem q = if q = st then (s.mem st).writeN a bs else s.mem q := by
  obtain ⟨u, rfl, hu⟩ := s.writeBytes_eq st a bs
  rw [← State.mem_setMem h q]
  rcases hu with hu | hu <;> rw [hu]
  exact State.mem_clearResv ..

theorem State.sameObjs_writeBytes (s : State) (st : Store) (a : Nat) (bs : List Byte) : s.sameObjs (s.writeBytes st a bs) := by
  obtain ⟨u, rfl, hu⟩ := s.writeBytes_eq st a bs
  rcases hu with hu | hu <;> rw [hu]
  · exact s.sameObjs_setMem _ _
  · exact fun q => (State.sameObjs_clearResv _ _ _ _ q).trans (s.sameObjs_setMem _ _ q)

/-- Bytes of a number written read back, modulo their size. -/
theorem State.readNat_writeBytes {s : State} {st : Store} (h : isThere s st) (a n v : Nat) :
    (s.writeBytes st a (leBytes n v)).readNat st a n = v % 256 ^ n := by
  have hn := Memory.readN_writeN (s.mem st) a (leBytes n v)
  rw [length_leBytes] at hn
  rw [State.readNat, State.mem_writeBytes h, if_pos rfl, Memory.readNat, hn, leNat_leBytes]

/-- What a range reads depends on its bytes alone. -/
theorem State.readNat_of_bytes {s t : State} {st : Store} {a n : Nat} (h : ∀ x, a ≤ x → x < a + n → t.byte st x = s.byte st x) :
    t.readNat st a n = s.readNat st a n := by
  unfold State.readNat Memory.readNat Memory.readN
  congr 1
  refine List.map_congr_left (fun i hi => h _ (Nat.le_add_right ..) ?_)
  exact Nat.add_lt_add_left (List.mem_range.1 hi) a

theorem State.movesOnly.readNat {s t : State} {w : Place → Prop} (h : s.movesOnly t w) {st : Store} {a n : Nat}
    (hw : ∀ x, a ≤ x → x < a + n → ¬ w (.byte st x)) : t.readNat st a n = s.readNat st a n :=
  State.readNat_of_bytes (fun x hx hx' => h.keeps (.byte st x) (hw x hx hx'))

theorem State.movesOnly.poisoned {s t : State} {w : Place → Prop} (h : s.movesOnly t w) {st : Store} {a n : Nat}
    (hw : ∀ g ∈ granules st.pg a n, ¬ w (.psn st g)) : t.poisoned st a n = s.poisoned st a n := by
  unfold State.poisoned
  rw [Bool.eq_iff_iff, List.any_eq_true, List.any_eq_true]
  exact exists_congr (fun g => and_congr_right (fun hg => by rw [h.keeps (.psn st g) (hw g hg)]))

/-! ## Poison written -/

theorem mem_setIns {l : List Nat} {i j : Nat} : j ∈ setIns l i ↔ j = i ∨ j ∈ l := by
  induction l with
  | nil => simp [setIns]
  | cons k r ih =>
    simp only [setIns]
    split
    · rename_i h
      subst h
      simp
    · split
      · simp
      · simp only [List.mem_cons, ih]
        tauto

theorem mem_setDel {l : List Nat} {i j : Nat} : j ∈ setDel l i ↔ j ≠ i ∧ j ∈ l := by
  simp [setDel, and_comm]

theorem mem_foldl_setIns {gs l : List Nat} {j : Nat} : j ∈ gs.foldl setIns l ↔ j ∈ gs ∨ j ∈ l := by
  induction gs generalizing l with
  | nil => simp
  | cons g gs ih =>
    rw [List.foldl_cons, ih, mem_setIns, List.mem_cons]
    tauto

theorem mem_foldl_setDel {gs l : List Nat} {j : Nat} : j ∈ gs.foldl setDel l ↔ j ∉ gs ∧ j ∈ l := by
  induction gs generalizing l with
  | nil => simp
  | cons g gs ih =>
    rw [List.foldl_cons, ih, mem_setDel, List.mem_cons]
    tauto

theorem contains_eq_of_mem_iff {l l' : List Nat} {g : Nat} (h : g ∈ l' ↔ g ∈ l) : l'.contains g = l.contains g := by
  rw [Bool.eq_iff_iff, List.contains_iff_mem, List.contains_iff_mem, h]

/-- A write of poison moves the marks of the granules that it touches (R97, R154). -/
theorem State.movesOnly_writePsn (s : State) (st : Store) (a n : Nat) (psn : Bool) {w : Place → Prop}
    (hw : ∀ g ∈ granules st.pg a n, w (.psn st g)) : s.movesOnly (s.writePsn st a n psn) w := by
  unfold State.writePsn
  dsimp only
  split
  · refine s.movesOnly_setPsns (fun g hg => contains_eq_of_mem_iff ?_)
    have : g ∉ granules st.pg a n := fun h => hg (hw g h)
    simp [mem_foldl_setIns, this]
  · split
    · refine s.movesOnly_setPsns (fun g hg => contains_eq_of_mem_iff ?_)
      have : g ∉ granules st.pg a n := fun h => hg (hw g h)
      simp [mem_foldl_setDel, this]
    · exact s.movesOnly_refl w

/-- Behind a poisoned write the granules are marked. -/
theorem State.psns_writePsn {s : State} {st : Store} (h : isThere s st) {a n g : Nat} (hg : g ∈ granules st.pg a n) :
    ((s.writePsn st a n true).psns st).contains g = true := by
  simp only [State.writePsn, if_true, State.psns_setPsns h, List.contains_iff_mem, mem_foldl_setIns]
  exact .inl hg

/-- A write that carries no poison marks nothing. -/
theorem State.psns_writePsn_clean {s : State} {st : Store} (h : isThere s st) {a n g : Nat}
    (hg : (s.psns st).contains g = false) : ((s.writePsn st a n false).psns st).contains g = false := by
  have hg' : g ∉ s.psns st := by simpa using hg
  simp only [State.writePsn, Bool.false_eq_true, if_false]
  split
  · rw [State.psns_setPsns h]
    simp [mem_foldl_setDel, hg']
  · exact hg

theorem State.sameObjs_writePsn (s : State) (st : Store) (a n : Nat) (psn : Bool) : s.sameObjs (s.writePsn st a n psn) := by
  unfold State.writePsn
  dsimp only
  split
  · exact s.sameObjs_setPsns _ _
  · split
    · exact s.sameObjs_setPsns _ _
    · exact fun _ => rfl

end Sys2Proof.Machine
end

section
/-! SUPPORT. The elements of a lane stored in a machine where nothing errs and no block logs (R154; O19). -/
namespace Sys2Proof.Machine

/-! ## A machine where nothing errs and no block logs -/

/-- No error is still to strike, and no block writes a log (R346). -/
structure State.calm (s : State) : Prop where
  errs : s.errIn = []
  logs : ∀ q ∈ s.blocks, q.2.logr = none

/-- A block of one machine has a block of the same shell in the other. -/
theorem State.movesOnly.block {s t : State} {w : Place → Prop} (h : s.movesOnly t w) {q : Nat × Block} (hq : q ∈ t.blocks) :
    ∃ p ∈ s.blocks, p.1 = q.1 ∧ p.2.bare = q.2.bare := by
  obtain ⟨p, hp, he⟩ := List.mem_map.1 ((h.shells (shell q)).1 (List.mem_map_of_mem hq))
  exact ⟨p, hp, (congrArg Prod.fst he : (shell p).1 = (shell q).1), (congrArg Prod.snd he : (shell p).2 = (shell q).2)⟩

theorem State.movesOnly.calm {s t : State} {w : Place → Prop} (h : s.movesOnly t w) (hs : s.calm) : t.calm := by
  refine ⟨h.errs.trans hs.errs, fun q hq => ?_⟩
  obtain ⟨p, hp, -, hbare⟩ := h.block hq
  exact (congrArg Block.logr hbare).symm.trans (hs.logs p hp)

theorem State.logRec_calm {s : State} (h : s.calm) (r : CohRef) (kind lane : Nat) (data : W64) : s.logRec r kind lane data = s := by
  unfold State.logRec
  split
  · rfl
  · rename_i b hb
    rw [h.logs _ (AMap.mem_of_find hb)]
    cases s.grid b.grid <;> rfl

theorem State.logRead_calm {s : State} (h : s.calm) (r : CohRef) (lane : Nat) (a : Acc) (v : W64) : s.logRead r lane a v = s := by
  unfold State.logRead
  split
  · rfl
  · exact State.logRec_calm h ..

theorem State.logLanded_calm {s : State} (h : s.calm) (st : Store) (a : Nat) (bs : List Byte) (src : Option Nat) :
    s.logLanded st a bs src = s := by
  unfold State.logLanded
  split
  · rfl
  · split
    · rfl
    · generalize List.range _ = is
      induction is with
      | nil => rfl
      | cons i is ih => rwa [List.foldl_cons, State.logRec_calm h, State.logRec_calm h]

theorem State.logFe_calm {s : State} (h : s.calm) (st : Store) (a : Nat) (full : Bool) : s.logFe st a full = s := by
  unfold State.logFe
  split
  · rfl
  · exact State.logRec_calm h ..

theorem State.readCheck_quiet {s : State} (h : s.errIn = []) (st : Store) (a n : Nat) : s.readCheck st a n = s := by
  simp [State.readCheck, h]

/-! ## One element stored -/

theorem State.movesOnly_writeEl (s : State) (st : Store) (a n : Nat) (v : W64) (psn : Bool) {w : Place → Prop}
    (hb : ∀ x, a ≤ x → x < a + n → w (.byte st x)) (hp : ∀ g ∈ granules st.pg a n, w (.psn st g)) (hr : ∀ r l, w (.resv r l)) :
    s.movesOnly (s.writeEl st a n v psn) w :=
  (s.movesOnly_writeBytes st a (leBytes n v.toNat) (by simpa using hb) hr).trans (State.movesOnly_writePsn _ st a n psn hp)

theorem State.sameObjs_writeEl (s : State) (st : Store) (a n : Nat) (v : W64) (psn : Bool) : s.sameObjs (s.writeEl st a n v psn) :=
  fun q => (State.sameObjs_writePsn _ _ _ _ _ q).trans (s.sameObjs_writeBytes _ _ _ q)

theorem isThere_writeBytes {s : State} {st q : Store} (h : isThere s q) (a : Nat) (bs : List Byte) : isThere (s.writeBytes st a bs) q :=
  isThere_of_keeps h (s.movesOnly_writeBytes st a bs (w := fun z => (∃ x, z = .byte st x) ∨ ∃ r l, z = .resv r l)
    (fun x _ _ => .inl ⟨x, rfl⟩) (fun r l => .inr ⟨r, l, rfl⟩)).keeps (by simp)

/-- An element written reads back as its value. -/
theorem State.readNat_writeEl {s : State} {st : Store} (h : isThere s st) (a n : Nat) (v : W64) (psn : Bool) :
    (s.writeEl st a n v psn).readNat st a n = v.toNat % 2 ^ (8 * n) := by
  rw [Nat.pow_mul, ← State.readNat_writeBytes h]
  exact (State.movesOnly_writePsn _ st a n psn (w := fun z => ∃ g, z = .psn st g) (fun g _ => ⟨g, rfl⟩)).readNat (by simp)

/-- A poisoned element marks its granules (R97, R154). -/
theorem State.psns_writeEl {s : State} {st : Store} (h : isThere s st) {a n g : Nat} (v : W64) (hg : g ∈ granules st.pg a n) :
    ((s.writeEl st a n v true).psns st).contains g = true :=
  State.psns_writePsn (isThere_writeBytes h a _) hg

/-- The places that one stored element moves are among those of all that are stored. -/
theorem storePlaces_of_mem {as : List Acc} {a : Acc} (ha : a ∈ as) : (∀ x, a.addr ≤ x → x < a.addr + a.z → storePlaces as (.byte a.store x))
    ∧ (∀ g ∈ granules a.store.pg a.addr a.z, storePlaces as (.psn a.store g)) ∧ ∀ r l, storePlaces as (.resv r l) :=
  ⟨fun x h h' => .inr ⟨a, ha, .inl ⟨x, rfl, h, h'⟩⟩, fun g hg => .inr ⟨a, ha, .inr ⟨g, hg, rfl⟩⟩, fun r l => .inl ⟨r, l, rfl⟩⟩

theorem storePlaces_mono {as bs : List Acc} (h : ∀ a ∈ as, a ∈ bs) {w : Place} (hw : storePlaces as w) : storePlaces bs w :=
  hw.imp_right (fun ⟨a, ha, hp⟩ => ⟨a, h a ha, hp⟩)

/-- In a calm machine an element stored beside the live objects is its bytes and its poison alone (R106, R154). -/
theorem State.storeAcc_calm {s : State} (h : s.calm) (blk : Nat) {a : Acc}
    (hobj : ∀ g ∈ granules 16 a.addr a.z, (s.objs a.store).contains g = false) :
    s.storeAcc blk a = s.writeEl a.store a.addr a.z a.val a.psn := by
  have hq : (s.writeEl a.store a.addr a.z a.val a.psn).calm :=
    (s.movesOnly_writeEl a.store a.addr a.z a.val a.psn (w := fun _ => True) (fun _ _ _ => trivial) (fun _ _ => trivial)
      (fun _ _ => trivial)).calm h
  rw [State.storeAcc, State.logLanded_calm hq, State.objStored, State.sameObjs_writeEl,
    List.filter_eq_nil_iff.2 (fun g hg => by simpa using hobj g hg), List.foldl_nil]

theorem State.movesOnly_storeAcc {s : State} (h : s.calm) (blk : Nat) {a : Acc} {as : List Acc} (ha : a ∈ as)
    (hobj : ∀ g ∈ granules 16 a.addr a.z, (s.objs a.store).contains g = false) : s.movesOnly (s.storeAcc blk a) (storePlaces as) := by
  obtain ⟨hb, hp, hr⟩ := storePlaces_of_mem ha
  rw [State.storeAcc_calm h blk hobj]
  exact s.movesOnly_writeEl _ _ _ _ _ hb hp hr

/-! ## The elements of a lane stored -/

/-- Bytes of one access are not bytes of another that does not overlap it. -/
theorem not_byte_of_not_overlaps {a b : Acc} (h : a.overlaps b = false) {x : Nat} (hx : a.addr ≤ x) (hx' : x < a.addr + a.z)
    (hst : a.store = b.store) : ¬ (b.addr ≤ x ∧ x < b.addr + b.z) := by
  simp only [Acc.overlaps, hst, beq_self_eq_true, Bool.true_and, Bool.and_eq_false_iff, decide_eq_false_iff_not] at h
  omega

theorem not_storePlaces_byte {a : Acc} {as : List Acc} (h : ∀ b ∈ as, a.overlaps b = false) {x : Nat} (hx : a.addr ≤ x)
    (hx' : x < a.addr + a.z) : ¬ storePlaces as (.byte a.store x) := by
  rintro (⟨r, l, h'⟩ | ⟨b, hb, ⟨n, he, hn⟩ | ⟨g, -, h'⟩⟩)
  · cases h'
  · obtain ⟨hst, rfl⟩ := Place.byte.inj he
    exact not_byte_of_not_overlaps (h b hb) hx hx' hst hn
  · cases h'

theorem not_storePlaces_blk {as : List Acc} (b : Nat) : ¬ storePlaces as (.blk b) := by
  rintro (⟨r, l, h'⟩ | ⟨b, hb, ⟨n, he, hn⟩ | ⟨g, -, h'⟩⟩) <;> simp at *

theorem isThere_storeAcc {s : State} (h : s.calm) (blk : Nat) {a : Acc} {st : Store}
    (hobj : ∀ g ∈ granules 16 a.addr a.z, (s.objs a.store).contains g = false) (hst : isThere s st) : isThere (s.storeAcc blk a) st :=
  isThere_of_keeps hst (State.movesOnly_storeAcc h blk (List.mem_singleton_self a) hobj).keeps not_storePlaces_blk

/-- What `plainAccs` asks of the accesses that follow holds behind the first. -/
theorem plainAccs_tail {s : State} (h : s.calm) (blk : Nat) {a : Acc} {as : List Acc} (hp : plainAccs s (a :: as)) :
    plainAccs (s.storeAcc blk a) as := by
  obtain ⟨hpair, hall⟩ := hp
  obtain ⟨-, -, hobj, -⟩ := hall a (List.mem_cons_self ..)
  refine ⟨(List.pairwise_cons.1 hpair).2, fun b hb => ?_⟩
  obtain ⟨hz, hthere, hobjb, hpsn⟩ := hall b (List.mem_cons_of_mem _ hb)
  refine ⟨hz, isThere_storeAcc h blk hobj hthere, fun g hg => ?_, fun c hc => hpsn c (List.mem_cons_of_mem _ hc)⟩
  rw [State.storeAcc_calm h blk hobj, State.sameObjs_writeEl]
  exact hobjb g hg

/-- Behind every element of a lane, the machine has moved the places of its elements alone. -/
theorem State.movesOnly_storeAccs {s : State} (h : s.calm) (blk : Nat) {as : List Acc} (hp : plainAccs s as) :
    s.movesOnly (as.foldl (fun s a => s.storeAcc blk a) s) (storePlaces as) := by
  induction as generalizing s with
  | nil => exact s.movesOnly_refl _
  | cons a as ih =>
    obtain ⟨-, -, hobj, -⟩ := hp.2 a (List.mem_cons_self ..)
    have hfirst := State.movesOnly_storeAcc h blk (List.mem_cons_self (a := a) (l := as)) hobj
    exact hfirst.trans ((ih (hfirst.calm h) (plainAccs_tail h blk hp)).mono
      (fun p => storePlaces_mono (fun b => List.mem_cons_of_mem a)))

/-- A mark of poison stays behind elements that carry poison or lie in other granules. -/
theorem State.marks_storeAccs {s : State} (h : s.calm) (blk : Nat) {as : List Acc} (hp : plainAccs s as) {st : Store} {g : Nat}
    (hg : (s.psns st).contains g = true) (hother : ∀ b ∈ as, b.psn = false → b.store = st → g ∉ granules b.store.pg b.addr b.z) :
    ((as.foldl (fun s a => s.storeAcc blk a) s).psns st).contains g = true := by
  induction as generalizing s with
  | nil => exact hg
  | cons a as ih =>
    obtain ⟨-, hthere, hobj, -⟩ := hp.2 a (List.mem_cons_self ..)
    have hfirst := State.movesOnly_storeAcc h blk (List.mem_cons_self (a := a) (l := as)) hobj
    refine ih (hfirst.calm h) (plainAccs_tail h blk hp) ?_ (fun b hb => hother b (List.mem_cons_of_mem _ hb))
    show ((s.storeAcc blk a).psns st).contains g = true
    rw [State.storeAcc_calm h blk hobj]
    by_cases hin : a.store = st ∧ g ∈ granules a.store.pg a.addr a.z
    · obtain ⟨rfl, hin⟩ := hin
      cases hpsn : a.psn with
      | true => exact State.psns_writeEl hthere a.val hin
      | false => exact absurd hin (hother a (List.mem_cons_self ..) hpsn rfl)
    · have hmove := s.movesOnly_writeEl a.store a.addr a.z a.val a.psn
        (w := fun z => (∃ x, z = .byte a.store x) ∨ (∃ k ∈ granules a.store.pg a.addr a.z, z = .psn a.store k) ∨ ∃ r l, z = .resv r l)
        (fun x _ _ => .inl ⟨x, rfl⟩) (fun k hk => .inr (.inl ⟨k, hk, rfl⟩)) (fun r l => .inr (.inr ⟨r, l, rfl⟩))
      refine (hmove.keeps (.psn st g) ?_).trans hg
      rintro (⟨x, hx⟩ | ⟨k, hk, he⟩ | ⟨r, l, hr⟩)
      · cases hx
      · cases he
        exact hin ⟨rfl, hk⟩
      · cases hr

/-- Every element of a lane stands in its store, with its poison (R154). -/
theorem State.storedAll_storeAccs {s : State} (h : s.calm) (blk : Nat) {as : List Acc} (hp : plainAccs s as) :
    storedAll (as.foldl (fun s a => s.storeAcc blk a) s) as := by
  induction as generalizing s with
  | nil => exact fun a ha => absurd ha (List.not_mem_nil)
  | cons a as ih =>
    obtain ⟨-, hthere, hobj, hpsn⟩ := hp.2 a (List.mem_cons_self ..)
    have hfirst := State.movesOnly_storeAcc h blk (List.mem_cons_self (a := a) (l := as)) hobj
    have hrest := plainAccs_tail h blk hp
    intro b hb
    rcases List.mem_cons.1 hb with rfl | hb
    · refine ⟨?_, fun hb g hg => ?_⟩
      · have hkeep := (State.movesOnly_storeAccs (hfirst.calm h) blk hrest).readNat
          (fun x hx hx' => not_storePlaces_byte (List.pairwise_cons.1 hp.1).1 hx hx')
        rw [List.foldl_cons, hkeep, State.storeAcc_calm h blk hobj]
        exact State.readNat_writeEl hthere ..
      · refine State.marks_storeAccs (hfirst.calm h) blk hrest ?_
          (fun c hc hclean hst hin => hpsn c (List.mem_cons_of_mem _ hc) hb hclean hst.symm g hg hin)
        rw [State.storeAcc_calm h blk hobj, hb]
        exact State.psns_writeEl hthere b.val hg
    · exact ih (hfirst.calm h) hrest b hb

end Sys2Proof.Machine
end

section
/-! SUPPORT. Operations in flight whose lanes are done one after another (R55, R58; O19). -/
namespace Sys2Proof.Machine

/-! ## Operations in flight, by number -/

theorem State.id_of_pendOf {s : State} {id : Nat} {p : Pend} (h : s.pendOf id = some p) : p.id = id := by
  simpa using List.find?_some h

theorem State.pendOf_setPend {s : State} {p q : Pend} (h : s.pendOf p.id = some q) : (s.setPend p).pendOf p.id = some p := by
  unfold State.pendOf State.setPend at *
  generalize s.pend = ps at *
  induction ps with
  | nil => simp at h
  | cons a r ih =>
    by_cases ha : a.id = p.id
    · simp [ha]
    · have hne : (a.id == p.id) = false := by simpa using ha
      rw [List.find?_cons_of_neg (by simp [hne])] at h
      simp only [List.map_cons, if_neg ha]
      rw [List.find?_cons_of_neg (by simp [hne])]
      exact ih h

theorem State.pendOf_setPend_ne (s : State) {p : Pend} {id : Nat} (h : id ≠ p.id) : (s.setPend p).pendOf id = s.pendOf id := by
  unfold State.pendOf State.setPend
  generalize s.pend = ps
  induction ps with
  | nil => rfl
  | cons a r ih =>
    by_cases ha : a.id = p.id
    · have h1 : (p.id == id) = false := by simpa using Ne.symm h
      have h2 : (a.id == id) = false := by simpa [ha] using Ne.symm h
      simpa [ha, List.find?_cons, h1, h2] using ih
    · simp only [List.map_cons, if_neg ha, List.find?_cons, ih]

theorem State.pendOf_delPend (s : State) (id : Nat) : (s.delPend id).pendOf id = none := by
  simp [State.pendOf, State.delPend]

theorem State.movesOnly_setPend (s : State) (p : Pend) {w : Place → Prop} (hw : w .pend) : s.movesOnly (s.setPend p) w := by
  refine ⟨fun z hz => ?_, fun _ => Iff.rfl, rfl⟩
  cases z with
  | pend => exact absurd hw hz
  | byte st _ | full st _ | psn st _ => cases st <;> rfl
  | cur | names | xlat => exact ⟨rfl, rfl⟩
  | _ => rfl

theorem State.movesOnly_delPend (s : State) (id : Nat) {w : Place → Prop} (hw : w .pend) : s.movesOnly (s.delPend id) w := by
  refine ⟨fun z hz => ?_, fun _ => Iff.rfl, rfl⟩
  cases z with
  | pend => exact absurd hw hz
  | byte st _ | full st _ | psn st _ => cases st <;> rfl
  | cur | names | xlat => exact ⟨rfl, rfl⟩
  | _ => rfl

theorem State.movesOnly.pendOf {s t : State} {w : Place → Prop} (h : s.movesOnly t w) (hw : ¬ w .pend) (id : Nat) :
    t.pendOf id = s.pendOf id := by
  have hsame : t.pend = s.pend := h.keeps .pend hw
  rw [State.pendOf, State.pendOf, hsame]

theorem State.movesOnly.thr {s t : State} {w : Place → Prop} (h : s.movesOnly t w) {r : CohRef} {l : Nat} (hw : ¬ w (.ident r l)) :
    (t.thr r l).isSome = (s.thr r l).isSome := by
  have hsame := h.keeps (.ident r l) hw
  simp only [State.same] at hsame
  simpa using congrArg Option.isSome hsame

/-! ## The end of an operation -/

/-- What a counter holds behind one decrement (R55). -/
def ctrLess (v : BitVec 6) : BitVec 6 := if v = 0#6 then 0#6 else v - 1#6

theorem State.coh_of_thr {s : State} {r : CohRef} {l : Nat} (h : (s.thr r l).isSome) :
    ∃ b c t, s.block r.blk = some b ∧ b.coh r.coh = some c ∧ s.coh r = some c ∧ c.thread l = some t := by
  obtain ⟨t, ht⟩ := Option.isSome_iff_exists.1 h
  unfold State.thr at ht
  obtain ⟨c, hc, hct⟩ := Option.bind_eq_some_iff.1 ht
  have hc' := hc
  unfold State.coh at hc'
  split at hc'
  · rename_i b hb
    exact ⟨b, c, t, hb, hc', hc, hct⟩
  · cases hc'

/-- A block with a thread has not ended, and stays. -/
theorem State.reap_of_thr {s : State} {r : CohRef} {l : Nat} (h : (s.thr r l).isSome) : s.reap r.blk = s := by
  obtain ⟨b, c, t, hb, hbc, -, hct⟩ := State.coh_of_thr h
  have hlane : c.lanes ≠ [] := by
    intro he
    simp [Cohort.thread, he, AMap.find] at hct
  have hended : b.ended = false := by
    refine Bool.eq_false_iff.2 (fun he => ?_)
    have hgone := List.all_eq_true.1 he _ (AMap.mem_of_find hbc)
    simp [Cohort.gone, hlane] at hgone
  simp [State.reap, hb, hended]

/-- The counter of an operation that is complete. -/
def State.discharge (s : State) (p : Pend) : State :=
  match p.slot with
  | some n => s.updCoh p.ref (fun c => c.decCtr n)
  | none => s

theorem State.movesOnly_discharge (s : State) (p : Pend) : s.movesOnly (s.discharge p) (landPlaces p []) := by
  unfold State.discharge
  split
  · rename_i n hn
    refine State.movesOnly_updCoh (fun c _ z hz => ?_)
    cases z with
    | ctr q k =>
      rintro rfl
      have hk : k ≠ n.toNat := fun he => hz (.inr (.inl ⟨n, hn, by rw [he]⟩))
      simp [Cohort.decCtr, Cohort.ctr_setCtr, hk]
    | _ => simp [cohSame, Cohort.decCtr, Cohort.setCtr, Cohort.sreg, Cohort.kreg, Cohort.thread, Cohort.path, Cohort.counts, Cohort.bare]
  · exact s.movesOnly_refl _

theorem State.ctrAt_discharge {s : State} {p : Pend} {l : Nat} (h : (s.thr p.ref l).isSome) {k : BitVec 3} (hk : p.slot = some k) :
    (s.discharge p).ctrAt p.ref k.toNat = ctrLess (s.ctrAt p.ref k.toNat) := by
  obtain ⟨-, c, -, -, -, hc, -⟩ := State.coh_of_thr h
  simp [State.discharge, hk, State.ctrAt, State.coh_updCoh, hc, Cohort.decCtr, Cohort.ctr_setCtr, ctrLess]

theorem landPlaces_nil {p : Pend} {w : Place} : landPlaces p [] w ↔ w = .pend ∨ ∃ k, p.slot = some k ∧ w = .ctr p.ref k.toNat := by
  simp [landPlaces]

theorem not_landPlaces_ident {p : Pend} {ls : List Nat} {r : CohRef} {l : Nat} : ¬ landPlaces p ls (.ident r l) := by
  simp [landPlaces]

/-- An operation that demotes no path and is not sampled ends (R55): it is gone, and its counter is one less. -/
theorem State.finishPend_eq {s : State} {p : Pend} {l : Nat} (hsmp : p.smp = none) (hdem : p.kind.demotes = false)
    (h : (s.thr p.ref l).isSome) (x : Option Nat) : s.finishPend p x = (s.delPend p.id).discharge p := by
  have hthr : (((s.delPend p.id).discharge p).thr p.ref l).isSome := by
    rw [((s.delPend p.id).movesOnly_discharge p).thr not_landPlaces_ident]
    exact h
  have hreap : ((s.delPend p.id).discharge p).reap p.blk = (s.delPend p.id).discharge p := State.reap_of_thr hthr
  unfold State.finishPend
  simp only [hsmp, hdem, Bool.false_eq_true, if_false]
  exact hreap

/-! ## Lanes done -/

/-- An operation some lanes of which are done. -/
def Pend.behind (p : Pend) (done : List Nat) : Pend :=
  { p with
    lanes := p.lanes.filter (fun l => !done.contains l.1)
    done := done.foldl (fun m l => m ||| (1#32 <<< l)) p.done }

theorem Pend.behind_nil (p : Pend) : p.behind [] = p := by
  simp [Pend.behind]

theorem Pend.behind_append (p : Pend) (done : List Nat) (l : Nat) : p.behind (done ++ [l]) =
    { p.behind done with lanes := (p.behind done).lanes.del l, done := (p.behind done).done ||| (1#32 <<< l) } := by
  simp only [Pend.behind, AMap.del, List.filter_filter, List.foldl_append, List.foldl_cons, List.foldl_nil]
  congr 1
  refine List.filter_congr (fun q _ => ?_)
  rw [Bool.eq_iff_iff]
  simp
  tauto

/-- An operation of `s` stands behind some of its lanes: it is gone with the last one, its counter then one less. -/
def opBehind (s u : State) (p : Pend) (done : List Nat) : Prop :=
  if done ≠ [] ∧ (p.behind done).lanes = [] ∧ p.more = false then
    u.pendOf p.id = none ∧ ∀ k, p.slot = some k → u.ctrAt p.ref k.toNat = ctrLess (s.ctrAt p.ref k.toNat)
  else u.pendOf p.id = some (p.behind done) ∧ ∀ k, p.slot = some k → u.ctrAt p.ref k.toNat = s.ctrAt p.ref k.toNat

theorem opBehind_nil {s : State} {p : Pend} (h : s.pendOf p.id = some p) : opBehind s s p [] := by
  simp [opBehind, Pend.behind_nil, h]

theorem lanesLeft_of_opBehind {s t : State} {p : Pend} {done : List Nat} (hne : done ≠ []) (h : opBehind s t p done) :
    lanesLeft s t p done := by
  unfold opBehind at h
  unfold lanesLeft
  by_cases hend : (p.behind done).lanes = [] ∧ p.more = false
  · rw [if_pos ⟨hne, hend⟩] at h
    exact (if_pos hend).mpr h
  · rw [if_neg (fun hall => hend hall.2)] at h
    exact (if_neg hend).mpr ⟨_, h.1, rfl⟩

/-- While a lane is left, the operation is in flight. -/
theorem pendOf_of_opBehind {s u : State} {p : Pend} {done : List Nat} (h : opBehind s u p done) (hl : (p.behind done).lanes ≠ []) :
    u.pendOf p.id = some (p.behind done) := by
  unfold opBehind at h
  rw [if_neg (fun hend => hl hend.2.1)] at h
  exact h.1

/-- An operation stands as before behind a step that touches neither it nor its counter. -/
theorem opBehind.move {s u v : State} {p : Pend} {done : List Nat} {w : Place → Prop} (h : opBehind s u p done) (hm : u.movesOnly v w)
    (hpend : ¬ w .pend) (hctr : ∀ k, p.slot = some k → ¬ w (.ctr p.ref k.toNat)) : opBehind s v p done := by
  unfold opBehind at *
  split at h
  · rename_i hend
    rw [if_pos hend, hm.pendOf hpend]
    exact ⟨h.1, fun k hk => (hm.keeps (.ctr p.ref k.toNat) (hctr k hk)).trans (h.2 k hk)⟩
  · rename_i hend
    rw [if_neg hend, hm.pendOf hpend]
    exact ⟨h.1, fun k hk => (hm.keeps (.ctr p.ref k.toNat) (hctr k hk)).trans (h.2 k hk)⟩

/-- One more lane is done (R55, R58). -/
theorem State.laneOff_behind {s u : State} {p : Pend} {done : List Nat} {l j : Nat} (h : opBehind s u p done)
    (hl : (p.behind done).lanes ≠ []) (hsmp : p.smp = none) (hdem : p.kind.demotes = false) (hthr : (u.thr p.ref j).isSome) :
    opBehind s (u.laneOff p.id l) p (done ++ [l]) ∧ u.movesOnly (u.laneOff p.id l) (landPlaces p []) := by
  have hop := pendOf_of_opBehind h hl
  have hctr : ∀ k, p.slot = some k → u.ctrAt p.ref k.toNat = s.ctrAt p.ref k.toNat := by
    unfold opBehind at h
    rw [if_neg (fun hend => hl hend.2.1)] at h
    exact h.2
  have hpend : landPlaces p [] .pend := .inl rfl
  have hoff : u.laneOff p.id l = if (p.behind (done ++ [l])).lanes.isEmpty && !p.more then
      u.finishPend (p.behind (done ++ [l])) (if p.kind.writesReg then some l else none) else u.setPend (p.behind (done ++ [l])) := by
    unfold State.laneOff
    rw [hop, Pend.behind_append]
    rfl
  by_cases hend : (p.behind (done ++ [l])).lanes = [] ∧ p.more = false
  · have hfin : u.laneOff p.id l = (u.delPend p.id).discharge (p.behind (done ++ [l])) := by
      rw [hoff, if_pos (by simp [hend.1, hend.2])]
      exact State.finishPend_eq (p := p.behind (done ++ [l])) hsmp hdem hthr _
    have hmoves : (u.delPend p.id).movesOnly (u.laneOff p.id l) (landPlaces p []) := by
      rw [hfin]
      exact (u.delPend p.id).movesOnly_discharge (p.behind (done ++ [l]))
    refine ⟨?_, (u.movesOnly_delPend p.id hpend).trans hmoves⟩
    unfold opBehind
    rw [if_pos ⟨by simp, hend⟩]
    refine ⟨?_, fun k hk => ?_⟩
    · have hdis := (u.delPend p.id).movesOnly_discharge (p.behind (done ++ [l]))
      have hgone := u.pendOf_delPend p.id
      have hkeep : ((u.delPend p.id).discharge (p.behind (done ++ [l]))).pend = (u.delPend p.id).pend := by
        unfold State.discharge
        split <;> simp
      rw [hfin, State.pendOf, hkeep]
      exact hgone
    · rw [hfin, ← hctr k hk]
      exact State.ctrAt_discharge (p := p.behind (done ++ [l])) (s := u.delPend p.id) hthr hk
  · have hset : u.laneOff p.id l = u.setPend (p.behind (done ++ [l])) := by
      rw [hoff, if_neg (by simpa using hend)]
    rw [hset]
    refine ⟨?_, u.movesOnly_setPend _ hpend⟩
    unfold opBehind
    rw [if_neg (fun hall => hend hall.2)]
    exact ⟨State.pendOf_setPend (p := p.behind (done ++ [l])) hop, hctr⟩

end Sys2Proof.Machine
end

section
/-! SUPPORT. The lanes of SCAT and SCATA (R132 to R134; O19). -/
namespace Sys2Proof.Machine

/-! ## Packed elements fit their format -/

theorem Lay.bits_lt {l : Lay} {s : Bool} {m : Nat} {q : Int} (h : m = 0 ∨ l.bits false m q < 2 ^ (l.eb + l.mb)) :
    l.bits s m q < 2 ^ (l.eb + l.mb + 1) := by
  have hpow : (2 : Nat) ^ (l.eb + l.mb + 1) = 2 ^ (l.eb + l.mb) + 2 ^ (l.eb + l.mb) := by ring
  have hsign : (if s then 2 ^ (l.eb + l.mb) else 0 : Nat) ≤ 2 ^ (l.eb + l.mb) := by split <;> simp
  have hmag : (if m < 2 ^ l.mb then m else (q + l.mb + l.bias).toNat * 2 ^ l.mb + (m - 2 ^ l.mb)) < 2 ^ (l.eb + l.mb) := by
    rcases h with rfl | h
    · simp
    · simpa [Lay.bits] using h
  unfold Lay.bits
  omega

/-- A rounded significand written in a layout, or the overflow of it. -/
theorem Lay.packed_lt {l : Lay} {s : Bool} {x top ovf : Nat} {q : Int} {c : Cnd} (htop : top < 2 ^ (l.eb + l.mb))
    (hover : ovf < 2 ^ (l.eb + l.mb + 1)) :
    (if x ≠ 0 ∧ top < l.bits false x q then (⟨ovf, c⟩ : BRes) else ⟨l.bits s x q, 0#3⟩).bits < 2 ^ (l.eb + l.mb + 1) := by
  split
  · exact hover
  · rename_i hcode
    refine Lay.bits_lt ?_
    rcases Nat.eq_zero_or_pos x with h0 | h0
    · exact .inl h0
    · exact .inr (lt_of_le_of_lt (not_lt.1 (fun hlt => hcode ⟨h0.ne', hlt⟩)) htop)

/-- A value packed into F32 takes 32 bits. -/
theorem pack_f32_lt (r : Rnd) (sat u : Bool) (v : FVal) : (Tag.pack .f32 r sat u v).bits < 2 ^ 32 := by
  cases v with
  | nan => exact (by decide : 0x7FC00000 < 2 ^ 32)
  | inf s => cases s <;> cases sat <;> simp [Tag.pack, Tag.maxCode, Tag.infCode, Tag.lay, lay32, Tag.signBit, Tag.width]
  | fin s m e => exact Lay.packed_lt (l := lay32) (by decide) (by cases r <;> cases sat <;> cases s <;> decide)

/-- A value packed into F64 takes 64 bits. -/
theorem pack_f64_lt (r : Rnd) (sat u : Bool) (v : FVal) : (Tag.pack .f64 r sat u v).bits < 2 ^ 64 := by
  cases v with
  | nan => exact (by decide : 0x7FF8000000000000 < 2 ^ 64)
  | inf s => cases s <;> cases sat <;> simp [Tag.pack, Tag.maxCode, Tag.infCode, Tag.lay, lay64, Tag.signBit, Tag.width]
  | fin s m e => exact Lay.packed_lt (l := lay64) (by decide) (by cases r <;> cases sat <;> cases s <;> decide)

/-! ## The event -/

theorem calm_of_mayLand {s : State} {id lane : Nat} {p : Pend} {as : List Acc} {h : Thread} (hm : mayLand s id lane p as h) : s.calm := by
  obtain ⟨-, -, -, herr, hlog, -⟩ := hm
  exact ⟨herr, hlog⟩

/-- The accesses of a lane that may land are those that it has in flight. -/
theorem State.find_of_landable {s : State} {p : Pend} {lane : Nat} {saved : Bool} {as : List Acc} (h : s.landable p lane saved = some as) :
    p.lanes.find lane = some as := by
  unfold State.landable at h
  split at h
  · cases h
  · split at h
    · cases h
    · split at h
      · cases h
      · exact h

theorem State.recording_of_noRecord {s : State} (h : noRecord s) (g : Nat) : s.recording g = false := by
  unfold State.recording
  cases hg : s.grid g with
  | none => rfl
  | some gr => exact h (g, gr) (AMap.mem_of_find hg)

/-- Where no grid records, the Turret units log nothing. -/
theorem State.turretLog_of_noRecord {s t : State} (h : noRecord s) {w : Place → Prop} (hm : s.movesOnly t w) (hw : ∀ g, ¬ w (.grid g))
    (p : Pend) (as : List Acc) (reads : Bool) : s.turretLog t p as reads = t := by
  have hrec (g : Nat) : t.recording g = false := by
    have hsame : t.grid g = s.grid g := hm.keeps (.grid g) (hw g)
    rw [State.recording, hsame]
    exact State.recording_of_noRecord h g
  unfold State.turretLog
  generalize servingDies as = ds
  induction ds with
  | nil => rfl
  | cons d ds ih =>
    rw [List.foldl_cons]
    simp only [State.engLog, hrec, Bool.not_false, if_true]
    exact ih

/-- A reply whose lane may land does what the kind of its operation does. -/
theorem exec_turretLaneReply {s : State} {id lane : Nat} {p : Pend} {as : List Acc} {h : Thread} (hm : mayLand s id lane p as h) {t : State}
    (ht : s.turretLane p lane as = some t) : exec (.turretLaneReply id lane) s = .next t := by
  obtain ⟨hp, hland, -⟩ := hm
  show execTurretLaneReply id lane s = .next t
  simp [execTurretLaneReply, hp, hland, ht]

/-! ## Scatters -/

/-- A lane that has stored its elements is done: what the elements moved, and then the operation. -/
theorem State.storesLand {s : State} {id lane : Nat} {p : Pend} {as : List Acc} {h : Thread} (hm : mayLand s id lane p as h)
    (hdem : p.kind.demotes = false) {bs : List Acc} (hp : plainAccs s bs) :
    let t := (bs.foldl (fun s a => s.storeAcc p.blk a) s).laneOff id lane
    storedAll t bs ∧ lanesLeft s t p [lane] ∧ s.movesOnly t (fun w => landPlaces p [] w ∨ storePlaces bs w) := by
  have hcalm := calm_of_mayLand hm
  obtain ⟨hop, hland, hthr, -, -, hsmp, -⟩ := hm
  obtain rfl := State.id_of_pendOf hop
  have hstore := State.movesOnly_storeAccs hcalm p.blk hp
  have hnone : (p.behind []).lanes ≠ [] := by
    rw [Pend.behind_nil]
    intro he
    have hfind := State.find_of_landable hland
    rw [he] at hfind
    cases hfind
  have hstands : opBehind s (bs.foldl (fun s a => s.storeAcc p.blk a) s) p [] :=
    (opBehind_nil hop).move hstore (by simp [storePlaces]) (by simp [storePlaces])
  have hthr' : ((bs.foldl (fun s a => s.storeAcc p.blk a) s).thr p.ref lane).isSome := by
    rw [hstore.thr (by simp [storePlaces]), hthr]
    rfl
  obtain ⟨hleft, hoff⟩ := State.laneOff_behind (l := lane) hstands hnone hsmp hdem hthr'
  refine ⟨fun a ha => ?_, lanesLeft_of_opBehind (by simp) hleft, (hstore.mono fun _ => .inr).trans (hoff.mono fun _ => .inl)⟩
  obtain ⟨hval, hpsn⟩ := State.storedAll_storeAccs hcalm p.blk hp a ha
  refine ⟨(hoff.readNat (by simp [landPlaces])).trans hval, fun hmark g hg => ?_⟩
  exact (hoff.keeps (.psn a.store g) (by simp [landPlaces])).trans (hpsn hmark g hg)

theorem grid_not_moved {p : Pend} {ls : List Nat} {as : List Acc} (g : Nat) : ¬ (landPlaces p ls (.grid g) ∨ storePlaces as (.grid g)) := by
  simp [landPlaces, storePlaces]

/-- SCAT (R132): a lane writes its elements. -/
theorem scatLands {s : State} {id lane : Nat} {p : Pend} {as : List Acc} {h : Thread} (hm : mayLand s id lane p as h) (hrec : noRecord s)
    (hord : s.ordOk p lane as = true) (hp : plainAccs s as) (hk : p.kind = .scat) :
    ∃ t, exec (.turretLaneReply id lane) s = .next t ∧ storedAll t as ∧ lanesLeft s t p [lane]
      ∧ s.keeps t (fun w => landPlaces p [] w ∨ storePlaces as w) := by
  obtain ⟨hstored, hleft, hmoves⟩ := State.storesLand hm (by rw [hk]; rfl) hp
  have hop := hm.1
  have hid := State.id_of_pendOf hop
  have hrun : s.scatLane id lane = (as.foldl (fun s a => s.storeAcc p.blk a) s).laneOff id lane := by
    simp [State.scatLane, hop, AMap.get, State.find_of_landable hm.2.1]
  refine ⟨_, exec_turretLaneReply hm ?_, hstored, hleft, hmoves.keeps⟩
  rw [State.turretLane, hk]
  simp only [hord, if_true, hid, hrun]
  rw [State.turretLog_of_noRecord hrec hmoves grid_not_moved]

/-- The element of a lane of SCATA behind its add. -/
def sumAcc (f : Tag) (s : State) (a : Acc) : Acc :=
  { a with
    val := BitVec.ofNat 64 (tagAdd f (s.readNat a.store a.addr a.z) (a.val.toNat % 2 ^ (8 * a.z)))
    psn := false }

theorem plainAccs_sum {f : Tag} {s : State} {as : List Acc} (h : plainAccs s as) : plainAccs s (as.map (sumAcc f s)) := by
  refine ⟨List.pairwise_map.2 h.1, ?_⟩
  simp only [List.forall_mem_map]
  intro a ha
  obtain ⟨hz, hthere, hobj, -⟩ := h.2 a ha
  exact ⟨hz, hthere, hobj, fun b _ hpsn => nomatch hpsn⟩

/-- A granule without a mark has none behind an element that carries no poison. -/
theorem State.poisoned_storeAcc_clean {s : State} (h : s.calm) (blk : Nat) {a : Acc} (hthere : isThere s a.store) (ha : a.psn = false)
    (hobj : ∀ g ∈ granules 16 a.addr a.z, (s.objs a.store).contains g = false) {st : Store} {x n : Nat} (hx : s.poisoned st x n = false) :
    (s.storeAcc blk a).poisoned st x n = false := by
  refine List.any_eq_false.2 (fun g hg => ?_)
  have hclean : (s.psns st).contains g = false := Bool.eq_false_iff.2 (List.any_eq_false.1 hx g hg)
  refine Bool.eq_false_iff.1 ?_
  rw [State.storeAcc_calm h blk hobj, ha]
  have hbytes := s.movesOnly_writeBytes a.store a.addr (leBytes a.z a.val.toNat)
    (w := fun z => (∃ x, z = .byte a.store x) ∨ ∃ r l, z = .resv r l) (fun x _ _ => .inl ⟨x, rfl⟩) (fun r l => .inr ⟨r, l, rfl⟩)
  have hstart (q : Store) : ((s.writeBytes a.store a.addr (leBytes a.z a.val.toNat)).psns q).contains g = (s.psns q).contains g :=
    hbytes.keeps (.psn q g) (by simp)
  by_cases hst : st = a.store
  · subst hst
    exact State.psns_writePsn_clean (isThere_writeBytes hthere _ _) ((hstart _).trans hclean)
  · have hmarks := State.movesOnly_writePsn (s.writeBytes a.store a.addr (leBytes a.z a.val.toNat)) a.store a.addr a.z false
      (w := fun z => ∃ g, z = .psn a.store g) (fun g _ => ⟨g, rfl⟩)
    exact ((hmarks.keeps (.psn st g) (by simp [hst])).trans (hstart st)).trans hclean

/-- Elements that do not overlap are added to what stands in memory at first, each on its own (R133). -/
theorem State.scataAccs_eq {f : Tag} {s : State} (h : s.calm) (blk : Nat) {as : List Acc} (hp : plainAccs s as)
    (hclean : ∀ a ∈ as, s.poisoned a.store a.addr a.z = false) :
    as.foldl (fun s a =>
      let s1 := s.readCheck a.store a.addr a.z
      let v := tagAdd f (s1.readNat a.store a.addr a.z) (a.val.toNat % 2 ^ (8 * a.z))
      s1.storeAcc blk { a with val := BitVec.ofNat 64 v, psn := s1.poisoned a.store a.addr a.z }) s
    = (as.map (sumAcc f s)).foldl (fun s a => s.storeAcc blk a) s := by
  induction as generalizing s with
  | nil => rfl
  | cons a as ih =>
    have hsum := plainAccs_sum (f := f) hp
    rw [List.map_cons] at hsum
    obtain ⟨-, hthere, hobj, -⟩ := hp.2 a (List.mem_cons_self ..)
    have hfirst := State.movesOnly_storeAcc (a := sumAcc f s a) h blk (List.mem_singleton_self _) hobj
    have hstep : (s.readCheck a.store a.addr a.z).storeAcc blk { a with
        val := BitVec.ofNat 64 (tagAdd f ((s.readCheck a.store a.addr a.z).readNat a.store a.addr a.z) (a.val.toNat % 2 ^ (8 * a.z)))
        psn := (s.readCheck a.store a.addr a.z).poisoned a.store a.addr a.z } = s.storeAcc blk (sumAcc f s a) := by
      rw [State.readCheck_quiet h.errs, hclean a (List.mem_cons_self ..)]
      rfl
    have hrest : as.map (sumAcc f (s.storeAcc blk (sumAcc f s a))) = as.map (sumAcc f s) := by
      refine List.map_congr_left (fun b hb => ?_)
      have hread := hfirst.readNat (st := b.store) (a := b.addr) (n := b.z) (fun x hx hx' => by
        rintro (⟨r, l, he⟩ | ⟨c, hc, ⟨n, he, hn⟩ | ⟨g, -, he⟩⟩)
        · cases he
        · obtain rfl := List.mem_singleton.1 hc
          obtain ⟨hst, rfl⟩ := Place.byte.inj he
          exact not_byte_of_not_overlaps ((List.pairwise_cons.1 hp.1).1 b hb) hn.1 hn.2 hst.symm ⟨hx, hx'⟩
        · cases he)
      simp only [sumAcc] at hread ⊢
      rw [hread]
    have hplain : plainAccs (s.storeAcc blk (sumAcc f s a)) as := by
      have htail := plainAccs_tail h blk (a := sumAcc f s a) (as := as.map (sumAcc f s)) hsum
      refine ⟨(List.pairwise_cons.1 hp.1).2, fun b hb => ?_⟩
      obtain ⟨hz, hthere', hobj', -⟩ := htail.2 (sumAcc f s b) (List.mem_map_of_mem hb)
      obtain ⟨-, -, -, hpsn⟩ := hp.2 b (List.mem_cons_of_mem _ hb)
      exact ⟨hz, hthere', hobj', fun c hc => hpsn c (List.mem_cons_of_mem _ hc)⟩
    rw [List.foldl_cons, List.map_cons, List.foldl_cons]
    dsimp only
    rw [hstep, ih (hfirst.calm h) hplain (fun b hb => State.poisoned_storeAcc_clean (a := sumAcc f s a) h blk hthere rfl hobj
      (hclean b (List.mem_cons_of_mem _ hb))), hrest]

/-- The sum that a lane of SCATA leaves: in F32 and F64 the rounded sum, in narrow formats its low bits, else the sum modulo 2^32. -/
theorem sumAcc_val {f : Tag} {s : State} {a : Acc} (hz : if f = .f64 then a.z = 8 else a.z = 4) :
    let old := s.readNat a.store a.addr a.z
    let b := a.val.toNat % 2 ^ (8 * a.z)
    (sumAcc f s a).val.toNat % 2 ^ (8 * a.z)
      = if f = .f32 ∨ f = .f64 then ((fAdd .rne (f.value false old) (f.value false b)).pack f .rne).bits
        else if f.isFp then ((fAdd .rne (f.value false old) (f.value false b)).pack f .rne).bits % 2 ^ 32 else (old + b) % 2 ^ 32 := by
  intro old b
  have hval : (sumAcc f s a).val.toNat = tagAdd f old b % 2 ^ 64 := BitVec.toNat_ofNat ..
  have hlow (n : Nat) : n % 2 ^ 64 % 2 ^ 32 = n % 2 ^ 32 := by omega
  rw [hval]
  by_cases h64 : f = .f64
  · rw [if_pos h64] at hz
    subst h64
    rw [hz, if_pos (.inr rfl)]
    have hlt := pack_f64_lt .rne false false (fAdd .rne (Tag.value .f64 false old) (Tag.value .f64 false b)).v
    have htag : tagAdd .f64 old b = ((fAdd .rne (Tag.value .f64 false old) (Tag.value .f64 false b)).pack .f64 .rne).bits := rfl
    rw [htag, Nat.mod_mod]
    exact Nat.mod_eq_of_lt hlt
  · rw [if_neg h64] at hz
    rw [hz, hlow]
    by_cases h32 : f = .f32
    · subst h32
      rw [if_pos (.inl rfl)]
      have hlt := pack_f32_lt .rne false false (fAdd .rne (Tag.value .f32 false old) (Tag.value .f32 false b)).v
      exact Nat.mod_eq_of_lt hlt
    · rw [if_neg (by simp [h32, h64])]
      unfold tagAdd
      split
      · rfl
      · exact Nat.mod_mod _ _

/-- SCATA (R133, R134): a lane adds to its elements. -/
theorem scataLands {s : State} {id lane : Nat} {p : Pend} {as : List Acc} {h : Thread} (hm : mayLand s id lane p as h) (hrec : noRecord s)
    (hord : s.ordOk p lane as = true) (hp : plainAccs s as) {tags : AMap Tag} {f : Tag} (hk : p.kind = .scata tags)
    (hf : tags.find lane = some f) (hclean : ∀ a ∈ as, s.poisoned a.store a.addr a.z = false) :
    ∃ t, exec (.turretLaneReply id lane) s = .next t ∧ lanesLeft s t p [lane]
      ∧ s.keeps t (fun w => landPlaces p [] w ∨ storePlaces as w)
      ∧ ∀ a ∈ as, t.readNat a.store a.addr a.z = (sumAcc f s a).val.toNat % 2 ^ (8 * a.z) := by
  obtain ⟨hstored, hleft, hmoves⟩ := State.storesLand hm (by rw [hk]; rfl) (plainAccs_sum (f := f) hp)
  have hop := hm.1
  have hid := State.id_of_pendOf hop
  have hrun : s.scataLane id lane = ((as.map (sumAcc f s)).foldl (fun s a => s.storeAcc p.blk a) s).laneOff id lane := by
    rw [← State.scataAccs_eq (calm_of_mayLand hm) p.blk hp hclean]
    simp [State.scataLane, hop, hk, AMap.get, State.find_of_landable hm.2.1, hf]
  have hplaces : ∀ w, storePlaces (as.map (sumAcc f s)) w → storePlaces as w := by
    rintro w (h | ⟨b, hb, hw⟩)
    · exact .inl h
    · obtain ⟨a, ha, rfl⟩ := List.mem_map.1 hb
      exact .inr ⟨a, ha, hw⟩
  refine ⟨_, exec_turretLaneReply hm ?_, hleft, State.keeps_mono hmoves.keeps (fun w => Or.imp_right (hplaces w)), fun a ha => ?_⟩
  · rw [State.turretLane, hk]
    simp only [hord, if_true, hid, hrun]
    rw [State.turretLog_of_noRecord hrec hmoves grid_not_moved]
  · exact (hstored (sumAcc f s a) (List.mem_map_of_mem ha)).1

theorem scattersArePerformed : scattersArePerformedRule := by
  intro s id lane p as h hm hrec hord hp run
  refine ⟨scatLands hm hrec hord hp, fun tags f hk hf hclean hz => ?_⟩
  obtain ⟨t, hrun, hleft, hkeep, hval⟩ := scataLands hm hrec hord hp hk hf hclean
  exact ⟨t, hrun, hleft, hkeep, fun a ha => (hval a ha).trans (sumAcc_val (hz a ha))⟩

end Sys2Proof.Machine
end

section
/-! SUPPORT. The lanes that a reply serves together, and the registers that they write (R126; O19). -/
namespace Sys2Proof.Machine

/-! ## Lanes of a group, one after another -/

/-- What holds at first, and behind each element of a list with those before it, holds behind the list. -/
theorem foldl_along {σ β : Type} {f : σ → β → σ} {P : List β → σ → Prop} {ls : List β} {s : σ} (h0 : P [] s)
    (hstep : ∀ done l rest u, ls = done ++ l :: rest → P done u → P (done ++ [l]) (f u l)) : P ls (ls.foldl f s) := by
  suffices h : ∀ rest done u, ls = done ++ rest → P done u → P ls (rest.foldl f u) from h ls [] s rfl h0
  intro rest
  induction rest with
  | nil =>
    intro done u he hP
    rw [he, List.append_nil]
    exact hP
  | cons l rest ih =>
    intro done u he hP
    exact ih (done ++ [l]) (f u l) (by rw [he, List.append_assoc]; rfl) (hstep done l rest u he hP)

theorem AMap.mem_keys_of_find {α : Type} {m : AMap α} {i : Nat} {v : α} (h : m.find i = some v) : i ∈ AMap.keys m :=
  List.mem_map_of_mem (f := Prod.fst) (AMap.mem_of_find h)

theorem AMap.find_of_mem_keys {α : Type} {m : AMap α} {i : Nat} (h : i ∈ AMap.keys m) : (m.find i).isSome := by
  induction m with
  | nil => simp [AMap.keys] at h
  | cons p r ih =>
    obtain ⟨k, v⟩ := p
    by_cases hk : k = i
    · simp [AMap.find, hk]
    · simp only [AMap.find, hk, if_false]
      refine ih ?_
      simpa [AMap.keys, Ne.symm hk] using h

/-- A lane that is not done is found as before. -/
theorem Pend.find_behind (p : Pend) {done : List Nat} {l : Nat} (hl : l ∉ done) : (p.behind done).lanes.find l = p.lanes.find l := by
  simp only [Pend.behind]
  induction p.lanes with
  | nil => rfl
  | cons q r ih =>
    obtain ⟨k, v⟩ := q
    by_cases hk : k = l
    · subst hk
      simp [hl, AMap.find]
    · rw [List.filter_cons]
      split
      · simp only [AMap.find, if_neg hk]
        exact ih
      · simp only [AMap.find, if_neg hk]
        exact ih

/-! ## The lanes that are read together (R126) -/

/-- The lanes that name one element are lanes of the operation, each once, and the lane itself is among them. -/
theorem Pend.sameElement_spec (p : Pend) {lane : Nat} (hl : lane ∈ AMap.keys p.lanes) :
    lane ∈ p.sameElement lane ∧ List.Sublist (p.sameElement lane) (AMap.keys p.lanes) := by
  have hgrow : ∀ n g, lane ∈ g → (List.Sublist g (AMap.keys p.lanes) ∨ n ≠ 0) →
      lane ∈ p.grow n g ∧ List.Sublist (p.grow n g) (AMap.keys p.lanes) := by
    intro n
    induction n with
    | zero => exact fun g hg hs => ⟨hg, hs.resolve_right (by simp)⟩
    | succ n ih =>
      intro g hg _
      have hsub (f : Nat × List Acc → Bool) : List.Sublist (AMap.keys (p.lanes.filter f)) (AMap.keys p.lanes) :=
        List.Sublist.map _ List.filter_sublist
      have hin (f : Nat × List Acc → Bool) : lane ∈ AMap.keys (p.lanes.filter (fun l => g.contains l.1 || f l)) := by
        obtain ⟨q, hq, hk⟩ := List.mem_map.1 hl
        refine List.mem_map.2 ⟨q, List.mem_filter.2 ⟨hq, ?_⟩, hk⟩
        simp [hk, hg]
      unfold Pend.grow
      dsimp only
      split
      · exact ⟨hin _, hsub _⟩
      · exact ih _ (hin _) (.inl (hsub _))
  refine hgrow p.lanes.length [lane] (List.mem_singleton_self lane) (.inr ?_)
  intro he
  rw [List.length_eq_zero_iff.1 he] at hl
  cases hl

/-! ## A group lands -/

/-- The lanes of a group are done one after another: what each leaves behind (`C`) stays, and beside the operation only `w` moves. -/
theorem State.lanesLand {s : State} {id lane : Nat} {p : Pend} {as : List Acc} {h : Thread} (hm : mayLand s id lane p as h)
    (hdem : p.kind.demotes = false) {step : State → Nat → State} {w : Place → Prop} {C : List Nat → State → Prop}
    (hpend : ¬ w .pend) (hctr : ∀ k, p.slot = some k → ¬ w (.ctr p.ref k.toNat)) (hident : ∀ r l, ¬ w (.ident r l)) (h0 : C [] s)
    (hstep : ∀ done l rest u, p.sameElement lane = done ++ l :: rest → u.pendOf id = some (p.behind done) →
      s.movesOnly u (fun z => landPlaces p [] z ∨ w z) → C done u →
      ∃ v, step u l = v.laneOff id l ∧ u.movesOnly v w ∧ ∀ t, v.movesOnly t (landPlaces p []) → C (done ++ [l]) t) :
    let t := (p.sameElement lane).foldl step s
    lanesLeft s t p (p.sameElement lane) ∧ s.movesOnly t (fun z => landPlaces p [] z ∨ w z) ∧ C (p.sameElement lane) t := by
  obtain ⟨hop, hland, hthr, -, -, hsmp, hnodup, -⟩ := hm
  obtain rfl := State.id_of_pendOf hop
  obtain ⟨hlane, hsub⟩ := p.sameElement_spec (AMap.mem_keys_of_find (State.find_of_landable hland))
  obtain ⟨hstands, hmoves, hC⟩ := foldl_along (f := step) (ls := p.sameElement lane) (s := s)
    (P := fun done u => opBehind s u p done ∧ s.movesOnly u (fun z => landPlaces p [] z ∨ w z) ∧ C done u)
    ⟨opBehind_nil hop, s.movesOnly_refl _, h0⟩ (by
      rintro done l rest u he ⟨hstands, hmoves, hC⟩
      have hnew : l ∉ done := fun hin => by
        have := hsub.nodup hnodup
        rw [he] at this
        exact (List.nodup_append.1 this).2.2 l hin l (List.mem_cons_self ..) rfl
      have hleft : (p.behind done).lanes ≠ [] := by
        have hkey : l ∈ AMap.keys p.lanes := hsub.subset (by rw [he]; simp)
        have hfound := AMap.find_of_mem_keys hkey
        rw [← Pend.find_behind p hnew] at hfound
        intro hnil
        simp [hnil, AMap.find] at hfound
      obtain ⟨v, hv, huv, hCv⟩ := hstep done l rest u he (pendOf_of_opBehind hstands hleft) hmoves hC
      have hthr' : (v.thr p.ref lane).isSome := by
        rw [(hmoves.trans (huv.mono fun _ => .inr)).thr (by simp [hident, landPlaces]), hthr]
        rfl
      obtain ⟨hnext, hoff⟩ := State.laneOff_behind (l := l) (hstands.move huv hpend hctr) hleft hsmp hdem hthr'
      rw [hv]
      exact ⟨hnext, (hmoves.trans (huv.mono fun _ => .inr)).trans (hoff.mono fun _ => .inl), hCv _ hoff⟩)
  exact ⟨lanesLeft_of_opBehind (List.ne_nil_of_mem hlane) hstands, hmoves, hC⟩

/-! ## A lane read -/

/-- An access with what it reads. -/
def readAcc (s : State) (a : Acc) : Acc :=
  if a.z = 0 then a else
    { a with
      val := BitVec.ofNat 64 (s.readNat a.store a.addr a.z)
      psn := s.poisoned a.store a.addr a.z }

@[simp] theorem readAcc_k (s : State) (a : Acc) : (readAcc s a).k = a.k := by
  unfold readAcc
  split <;> rfl

/-- In a calm machine a lane reads and changes nothing. -/
theorem State.readLane_calm {s : State} (h : s.calm) (r : CohRef) (lane : Nat) (as : List Acc) :
    s.readLane r lane as = (s, as.map (readAcc s)) := by
  have hfold : ∀ done : List Acc, as.foldl (fun (p : State × List Acc) a =>
      if a.z = 0 then (p.1, p.2 ++ [a])
      else
        let s1 := p.1.readCheck a.store a.addr a.z
        let v := BitVec.ofNat 64 (s1.readNat a.store a.addr a.z)
        (s1.logRead r lane a v, p.2 ++ [{ a with val := v, psn := s1.poisoned a.store a.addr a.z }])) (s, done)
      = (s, done ++ as.map (readAcc s)) := by
    induction as with
    | nil => simp
    | cons a as ih =>
      intro done
      rw [List.foldl_cons, List.map_cons]
      by_cases hz : a.z = 0
      · simp only [hz, if_true]
        rw [ih]
        simp [readAcc, hz]
      · simp only [hz, if_false, State.readCheck_quiet h.errs, State.logRead_calm h]
        rw [ih]
        simp [readAcc, hz]
  exact hfold []

/-- What is read stays as long as its bytes and its marks do. -/
theorem readAcc_of_movesOnly {s u : State} {w : Place → Prop} (h : s.movesOnly u w) (hb : ∀ st x, ¬ w (.byte st x))
    (hp : ∀ st g, ¬ w (.psn st g)) : readAcc u = readAcc s := by
  funext a
  unfold readAcc
  rw [h.readNat (fun x _ _ => hb _ x), h.poisoned (fun g _ => hp _ g)]

theorem find_k_of_nodup {as : List Acc} (hn : (as.map (·.k)).Nodup) {a : Acc} (ha : a ∈ as) {k : Nat} (hk : a.k = k) :
    as.find? (fun b => b.k == k) = some a := by
  induction as with
  | nil => cases ha
  | cons b as ih =>
    rw [List.map_cons, List.nodup_cons] at hn
    rcases List.mem_cons.1 ha with rfl | ha
    · simp [hk]
    · have hne : b.k ≠ k := fun he => hn.1 (he ▸ hk ▸ List.mem_map_of_mem ha)
      rw [List.find?_cons_of_neg (by simpa using hne)]
      exact ih hn.2 ha

/-! ## Registers of a lane written -/

/-- A tangent that is given stands in the register. -/
theorem get_put_tan {ts : AMap (W32 × Bool)} (hn : (AMap.keys ts).Nodup) {q : Nat × W32 × Bool} (hq : q ∈ ts) (m : AMap W32) :
    (ts.foldl (fun m p => if p.2.1 = 0#32 then AMap.del m p.1 else AMap.set m p.1 p.2.1) m).get q.1 0#32 = q.2.1 := by
  have hother : ∀ (ts : AMap (W32 × Bool)) (m : AMap W32), q.1 ∉ AMap.keys ts →
      (ts.foldl (fun m p => if p.2.1 = 0#32 then AMap.del m p.1 else AMap.set m p.1 p.2.1) m).get q.1 0#32 = m.get q.1 0#32 := by
    intro ts
    induction ts with
    | nil => exact fun _ _ => rfl
    | cons p ts ih =>
      intro m hni
      rw [AMap.keys, List.map_cons, List.mem_cons, not_or] at hni
      rw [List.foldl_cons, ih _ hni.2]
      split <;> simp [AMap.get, AMap.find_del, AMap.find_set, hni.1]
  induction ts generalizing m with
  | nil => cases hq
  | cons p ts ih =>
    rw [AMap.keys, List.map_cons, List.nodup_cons] at hn
    rw [List.foldl_cons]
    rcases List.mem_cons.1 hq with rfl | hq
    · rw [hother ts _ hn.1]
      by_cases hz : q.2.1 = 0#32 <;> simp [hz, AMap.get, AMap.find_del, AMap.find_set]
    · exact ih hn.2 hq _

/-- The mark of a tangent that is given stands in the register. -/
theorem contains_put_tpsn {ts : AMap (W32 × Bool)} (hn : (AMap.keys ts).Nodup) {q : Nat × W32 × Bool} (hq : q ∈ ts) (m : List Nat) :
    (ts.foldl (fun m p => if p.2.2 then setIns m p.1 else setDel m p.1) m).contains q.1 = q.2.2 := by
  have hother : ∀ (ts : AMap (W32 × Bool)) (m : List Nat), q.1 ∉ AMap.keys ts →
      (ts.foldl (fun m p => if p.2.2 then setIns m p.1 else setDel m p.1) m).contains q.1 = m.contains q.1 := by
    intro ts
    induction ts with
    | nil => exact fun _ _ => rfl
    | cons p ts ih =>
      intro m hni
      rw [AMap.keys, List.map_cons, List.mem_cons, not_or] at hni
      rw [List.foldl_cons, ih _ hni.2]
      refine contains_eq_of_mem_iff ?_
      split <;> simp [mem_setIns, mem_setDel, hni.1]
  induction ts generalizing m with
  | nil => cases hq
  | cons p ts ih =>
    rw [AMap.keys, List.map_cons, List.nodup_cons] at hn
    rw [List.foldl_cons]
    rcases List.mem_cons.1 hq with rfl | hq
    · rw [hother ts _ hn.1, Bool.eq_iff_iff, List.contains_iff_mem]
      cases hz : q.2.2 <;> simp [mem_setIns, mem_setDel]
    · exact ih hn.2 hq _

/-- The registers that the landing lanes of a group write. -/
def landRegs (p : Pend) (ls : List Nat) (w : Place) : Prop :=
  ∃ l ∈ ls, (p.dst = some .seed ∧ w = .seed p.ref l) ∨
    ∃ n, p.dst = some (.v n) ∧ (w = .v p.ref l n.toNat ∨ (p.tag = .f64 ∧ w = .v p.ref l (n.toNat + 1)))

theorem landPlaces_iff {p : Pend} {ls : List Nat} {w : Place} : landPlaces p ls w ↔ landPlaces p [] w ∨ landRegs p ls w := by
  simp [landPlaces, landRegs, or_assoc]

theorem Thread.putD_rest (t : Thread) (d : Dst) (wide : Bool) (q : Option (W64 × Tag × Bool)) (ts : AMap (W64 × Bool)) :
    (t.putD d wide q ts).m = t.m ∧ (t.putD d wide q ts).resv = t.resv ∧ (t.putD d wide q ts).t = t.t ∧ (t.putD d wide q ts).tid = t.tid
    ∧ (t.putD d wide q ts).bid = t.bid ∧ (d ≠ .seed → (t.putD d wide q ts).seed = t.seed)
    ∧ ∀ m, (∀ n, d = .v n → m ≠ n.toNat ∧ (wide = true → m ≠ n.toNat + 1)) → (t.putD d wide q ts).vreg m = t.vreg m := by
  cases d with
  | v n =>
    refine ⟨?_, ?_, ?_, ?_, ?_, fun _ => ?_, fun m hm => ?_⟩
    case refine_7 =>
      obtain ⟨h1, h2⟩ := hm n rfl
      rw [Thread.putD, Thread.vreg_putV, if_neg h1, if_neg (fun h => h2 h.1 h.2)]
    all_goals
      simp only [Thread.putD, Thread.putV]
      split <;> simp [Thread.setV]
  | seed =>
    simp only [Thread.putD]
    split <;> simp [Thread.vreg]
  | _ => simp [Thread.putD]

/-- A landed lane writes its registers and logs nothing. -/
theorem State.landReg_calm {s : State} (h : s.calm) (p : Pend) (lane : Nat) (wide : Bool) (q : Option (W64 × Tag × Bool))
    (ts : AMap (W64 × Bool)) : s.landReg p lane wide q ts =
      match p.dst with
      | some d => s.updCoh p.ref (fun c => c.updThread lane (fun t => t.putD d wide q ts))
      | none => s := by
  unfold State.landReg
  cases p.dst with
  | some d =>
    refine State.logRec_calm (State.movesOnly.calm (w := fun _ => True) (State.movesOnly_updCoh (fun _ _ z hz => ?_)) h) ..
    exact absurd trivial hz
  | none => rfl

theorem State.movesOnly_landReg {s : State} (h : s.calm) (p : Pend) {lane : Nat} {ls : List Nat} (hl : lane ∈ ls)
    (q : Option (W64 × Tag × Bool)) (ts : AMap (W64 × Bool)) :
    s.movesOnly (s.landReg p lane (p.tag == .f64) q ts) (landRegs p ls) := by
  rw [State.landReg_calm h]
  split
  · rename_i d hd
    refine State.movesOnly_updCoh (fun c _ z hz => ?_)
    have hthr (l : Nat) := c.thread_updThread lane l (fun t => t.putD d (p.tag == .f64) q ts)
    cases z with
    | v r l m =>
      rintro rfl
      rw [hthr]
      split
      · next he =>
        subst he
        cases hc : c.thread l with
        | none => rfl
        | some t =>
          have hrest := (t.putD_rest d (p.tag == .f64) q ts).2.2.2.2.2.2 m (fun n hn => by
            subst hn
            refine ⟨fun hm => hz ⟨l, hl, .inr ⟨n, hd, .inl (by rw [hm])⟩⟩,
              fun hw hm => hz ⟨l, hl, .inr ⟨n, hd, .inr ⟨by simpa using hw, by rw [hm]⟩⟩⟩⟩)
          simp [hrest]
      · rfl
    | seed r l =>
      rintro rfl
      rw [hthr]
      split
      · next he =>
        subst he
        have hne : d ≠ .seed := fun he => hz ⟨l, hl, .inl ⟨he ▸ hd, rfl⟩⟩
        cases hc : c.thread l with
        | none => rfl
        | some t => simp [(t.putD_rest d (p.tag == .f64) q ts).2.2.2.2.2.1 hne]
      · rfl
    | m r l n | resv r l | ident r l =>
      rintro rfl
      rw [hthr]
      split
      · next he =>
        subst he
        cases hc : c.thread l with
        | none => rfl
        | some t =>
          obtain ⟨h1, h2, h3, h4, h5, -⟩ := t.putD_rest d (p.tag == .f64) q ts
          simp [Thread.mreg, h1, h2, h3, h4, h5]
      · rfl
    | _ =>
      unfold Cohort.updThread
      split <;> simp [cohSame, Cohort.setThread, Cohort.sreg, Cohort.kreg, Cohort.ctr, Cohort.path, Cohort.counts, Cohort.bare]
  · exact s.movesOnly_refl _

end Sys2Proof.Machine
end

section
/-! SUPPORT. The lanes of GATH (R130; O19). -/
namespace Sys2Proof.Machine

/-! ## GATH (R130) -/

theorem landRegs_mono {p : Pend} {ls ks : List Nat} (h : ∀ l ∈ ls, l ∈ ks) {w : Place} (hw : landRegs p ls w) : landRegs p ks w := by
  obtain ⟨l, hl, hw⟩ := hw
  exact ⟨l, h l hl, hw⟩

/-- The registers of a lane behind the landing of its values. -/
theorem State.vAt_landReg {u : State} (h : u.calm) {p : Pend} {l : Nat} {th : Thread} (ht : u.thr p.ref l = some th) {n : VNum}
    (hd : p.dst = some (.v n)) (wide : Bool) (q : Option (W64 × Tag × Bool)) (ts : AMap (W64 × Bool)) (m : Nat) :
    (u.landReg p l wide q ts).vAt p.ref l m = (th.putV n.toNat wide q ts).vreg m := by
  obtain ⟨-, c, t, -, -, hc, hct⟩ := State.coh_of_thr (s := u) (r := p.ref) (l := l) (by rw [ht]; rfl)
  have htt : t = th := by
    rw [State.thr, hc] at ht
    exact Option.some.inj (hct.symm.trans ht)
  subst htt
  rw [State.landReg_calm h, hd]
  simp [State.vAt, State.thr, State.coh_updCoh, hc, Cohort.thread_updThread, hct, Thread.putD]

/-- The primal that a lane read, and a tangent that it read. -/
theorem accPrimal_read {s : State} {as : List Acc} (hn : (as.map (·.k)).Nodup) {a : Acc} (ha : a ∈ as) (hz : a.z ≠ 0) (hk : a.k = 0)
    (tag : Tag) : accPrimal (as.map (readAcc s)) tag =
      some (BitVec.ofNat 64 (s.readNat a.store a.addr a.z), tag, s.poisoned a.store a.addr a.z) := by
  have hfind := find_k_of_nodup (as := as.map (readAcc s)) (by simpa [List.map_map, Function.comp_def] using hn)
    (List.mem_map_of_mem ha) (k := 0) (by simpa using hk)
  simp [accPrimal, hfind, readAcc, hz]

theorem mem_accTans_read {s : State} {as : List Acc} {a : Acc} (ha : a ∈ as) (hz : a.z ≠ 0) (hk : a.k ≠ 0) :
    (a.k, BitVec.ofNat 64 (s.readNat a.store a.addr a.z), s.poisoned a.store a.addr a.z) ∈ accTans (as.map (readAcc s)) := by
  refine List.mem_map.2 ⟨readAcc s a, List.mem_filter.2 ⟨List.mem_map_of_mem ha, by simpa using hk⟩, ?_⟩
  simp [readAcc, hz]

theorem nodup_keys_accTans {s : State} {as : List Acc} (hn : (as.map (·.k)).Nodup) : (AMap.keys (accTans (as.map (readAcc s)))).Nodup := by
  have hkeys : AMap.keys (accTans (as.map (readAcc s))) = (as.map (·.k)).filter (fun k => k != 0) := by
    simp [AMap.keys, accTans, List.filter_map, List.map_map, Function.comp_def]
  rw [hkeys]
  exact hn.filter _

/-- The values that a lane read stand in its registers (R130, R139). -/
theorem State.landed_landReg {s u : State} (h : u.calm) {p : Pend} {l : Nat} (ht : (u.thr p.ref l).isSome) {as : List Acc}
    (hn : (as.map (·.k)).Nodup) :
    landed s (u.landReg p l (p.tag == .f64) (accPrimal (as.map (readAcc s)) p.tag) (accTans (as.map (readAcc s)))) p l as := by
  obtain ⟨th, ht⟩ := Option.isSome_iff_exists.1 ht
  intro n a hd ha hz
  simp only [State.vAt_landReg h ht hd, Thread.vreg_putV, if_true, Nat.succ_ne_self, if_false]
  have hkeys (g : W64 → W32) :
      (AMap.keys ((accTans (as.map (readAcc s))).map (fun q => (q.1, g q.2.1, q.2.2)))).Nodup := by
    have := nodup_keys_accTans (s := s) hn
    simpa [AMap.keys, List.map_map, Function.comp_def] using this
  split
  · rename_i hk
    rw [accPrimal_read hn ha hz hk]
    refine ⟨rfl, rfl, rfl, fun hw => ?_⟩
    simp [hw, VReg.put]
  · rename_i hk
    have hin (g : W64 → W32) := List.mem_map_of_mem (f := fun q : Nat × W64 × Bool => (q.1, g q.2.1, q.2.2)) (mem_accTans_read (s := s) ha hz hk)
    refine ⟨get_put_tan (hkeys _) (hin _) _, contains_put_tpsn (hkeys _) (hin _) _, fun hw => ?_⟩
    simp only [hw, beq_self_eq_true, if_true, and_self]
    exact ⟨get_put_tan (hkeys _) (hin _) _, contains_put_tpsn (hkeys _) (hin _) _⟩

/-- What stands in the registers of a lane stays behind a step that leaves them. -/
theorem landed_of_movesOnly {s u v : State} {p : Pend} {l : Nat} {as : List Acc} {w : Place → Prop} (h : landed s u p l as)
    (hm : u.movesOnly v w) (hw : ∀ m, ¬ w (.v p.ref l m)) : landed s v p l as := by
  have hsame (m : Nat) : v.vAt p.ref l m = u.vAt p.ref l m := hm.keeps (.v p.ref l m) (hw m)
  unfold landed
  simp only [hsame]
  exact h

theorem State.gathLane_calm {u : State} (h : u.calm) {p : Pend} {id l : Nat} (hp : u.pendOf id = some p) {as : List Acc}
    (hl : p.lanes.find l = some as) :
    u.gathLane id l = (u.landReg p l (p.tag == .f64) (accPrimal (as.map (readAcc u)) p.tag) (accTans (as.map (readAcc u)))).laneOff id l := by
  unfold State.gathLane
  simp only [hp, hl, State.readLane_calm h]

/-- GATH (R126, R130): the lanes that name the element write their registers. -/
theorem gathLands {s : State} {id lane : Nat} {p : Pend} {as : List Acc} {h : Thread} (hm : mayLand s id lane p as h) (hrec : noRecord s)
    (hgroup : s.groupOk p (p.sameElement lane) = true)
    (hlanes : ∀ l ∈ p.sameElement lane, (s.thr p.ref l).isSome ∧ (((p.lanes.find l).getD []).map (·.k)).Nodup) (hk : p.kind = .gath) :
    ∃ t, exec (.turretLaneReply id lane) s = .next t ∧ (∀ l ∈ p.sameElement lane, landed s t p l ((p.lanes.find l).getD []))
      ∧ lanesLeft s t p (p.sameElement lane) ∧ s.keeps t (landPlaces p (p.sameElement lane)) := by
  have hcalm := calm_of_mayLand hm
  have hid := State.id_of_pendOf hm.1
  obtain ⟨hlane, hsub⟩ := p.sameElement_spec (AMap.mem_keys_of_find (State.find_of_landable hm.2.1))
  obtain ⟨hleft, hmoves, hC⟩ := State.lanesLand hm (by rw [hk]; rfl) (step := fun s l => s.gathLane id l)
    (w := landRegs p (p.sameElement lane)) (C := fun done u => ∀ l ∈ done, landed s u p l ((p.lanes.find l).getD []))
    (by simp [landRegs]) (by simp [landRegs]) (by simp [landRegs]) (by simp) (by
      intro done l rest u he hop hmoves hC
      have hu := hmoves.calm hcalm
      have hl : l ∈ p.sameElement lane := by simp [he]
      have hnew : l ∉ done := fun hin => by
        have hnodup := hsub.nodup hm.2.2.2.2.2.2.1
        rw [he] at hnodup
        exact (List.nodup_append.1 hnodup).2.2 l hin l (List.mem_cons_self ..) rfl
      obtain ⟨accs, hfind⟩ := Option.isSome_iff_exists.1 (AMap.find_of_mem_keys (hsub.subset hl))
      obtain ⟨hthr, hnodup⟩ := hlanes l hl
      rw [hfind] at hnodup
      have hread : readAcc u = readAcc s := readAcc_of_movesOnly hmoves (by simp [landPlaces, landRegs]) (by simp [landPlaces, landRegs])
      have hrun := State.gathLane_calm hu hop ((p.find_behind hnew).trans hfind)
      rw [hread] at hrun
      have hthr' : (u.thr p.ref l).isSome := (hmoves.thr (by simp [landPlaces, landRegs])).trans hthr
      have hland : landed s (u.landReg p l (p.tag == .f64) (accPrimal (accs.map (readAcc s)) p.tag) (accTans (accs.map (readAcc s)))) p l accs :=
        State.landed_landReg hu hthr' hnodup
      have hreg := State.movesOnly_landReg hu p (List.mem_singleton_self l) (accPrimal (accs.map (readAcc s)) p.tag)
        (accTans (accs.map (readAcc s)))
      refine ⟨_, hrun, hreg.mono (fun _ => landRegs_mono (by simpa using hl)), fun t ht k hk => ?_⟩
      refine landed_of_movesOnly ?_ ht (by simp [landPlaces])
      rcases List.mem_append.1 hk with hk | hk
      · have hne : k ≠ l := fun he => hnew (he ▸ hk)
        exact landed_of_movesOnly (hC k hk) hreg (by simp [landRegs, hne])
      · obtain rfl := List.mem_singleton.1 hk
        rw [hfind]
        exact hland)
  refine ⟨_, exec_turretLaneReply hm ?_, hC, hleft, State.keeps_mono hmoves.keeps (fun w => landPlaces_iff.2)⟩
  rw [State.turretLane, hk]
  simp only [hgroup, if_true, hid]
  rw [State.turretLog_of_noRecord hrec hmoves (by simp [landPlaces, landRegs])]

end Sys2Proof.Machine
end

section
/-! SUPPORT. The lanes of LDSPL: a sparse line expanded (R135, R136; O19). -/
namespace Sys2Proof.Machine

/-! ## The elements of a sparse line (R135, R136) -/

/-- A number that passes a test, and its position among those that do. -/
theorem find_zipIdx_filter_range (f : Nat → Bool) {n p : Nat} (hp : p < n) :
    ((List.range n).filter f).zipIdx.find? (fun q => q.1 == p) = if f p = true then some (p, (List.range p).countP f) else none := by
  have hsplit : (List.range n).filter f = (List.range p).filter f ++ (p :: List.range' (p + 1) (n - p - 1)).filter f := by
    rw [← List.filter_append]
    congr 1
    have hn : n = p + (n - p - 1 + 1) := by omega
    conv_lhs => rw [hn, List.range_eq_range', ← List.range'_append_1, List.range'_succ, Nat.zero_add]
    rw [List.range_eq_range']
  have hbefore : ((List.range p).filter f).zipIdx.find? (fun q => q.1 == p) = none := by
    refine List.find?_eq_none.2 (fun q hq => ?_)
    have := (List.mem_filter.1 (List.fst_mem_of_mem_zipIdx hq)).1
    simp only [List.mem_range] at this
    simp [this.ne]
  rw [hsplit, List.zipIdx_append, List.find?_append, hbefore, Option.none_or, List.filter_cons]
  split
  · simp [List.countP_eq_length_filter]
  · refine List.find?_eq_none.2 (fun q hq => ?_)
    have := (List.mem_filter.1 (List.fst_mem_of_mem_zipIdx hq)).1
    simp only [List.mem_range'_1] at this
    simp only [beq_iff_eq]
    omega

/-- How many positions below `q` a line's bitmap holds. -/
def lineCount (line q : Nat) : Nat := (List.range q).countP (fun i => line.testBit i)

/-- A line's metadata are malformed for a format (R135). -/
abbrev lineBad (line : Nat) (f : Tag) : Prop :=
  bitsAt line 104 8 ≠ lineCount line 64 ∨ 896 < lineCount line 64 * f.width ∨ bitsAt line 120 8 ≠ 0 ∨ bitsAt line 100 4 ≠ 0

/-- Element `p` of a line expanded by its own metadata. -/
theorem splExpand_elem (line : Nat) {p : Nat} (hp : p < 64) : ((splExpand (splMeta line) line).getD p 0#64).toNat =
    match splTag (bitsAt line 96 4) with
    | none => 0x7FC00000
    | some f => if lineBad line f then 0x7FC00000 else if line.testBit p = false then 0 else
        (Tag.pack .f32 .rne false false (if bitsAt line 112 8 = 0xFF then .nan
          else scaleVal (f.value false (bitsAt line (128 + f.width * lineCount line p) f.width)) (bitsAt line 112 8 - 127))).bits := by
  have hnan : ((splExpand none line).getD p 0#64).toNat = 0x7FC00000 := by
    rw [splExpand, List.getD_replicate _ hp]
    rfl
  have hcount : ((List.range 64).filter (fun p => line.testBit p)).length = lineCount line 64 := List.countP_eq_length_filter.symm
  unfold splMeta
  cases splTag (bitsAt line 96 4) with
  | none => exact hnan
  | some f =>
    simp only [hcount]
    by_cases hbad : lineBad line f
    · rw [if_pos hbad, if_neg (by unfold lineBad at hbad; omega)]
      exact hnan
    · rw [if_neg hbad, if_pos (by unfold lineBad at hbad; omega)]
      have hlt (v : FVal) : (BitVec.ofNat 64 (Tag.pack .f32 .rne false false v).bits).toNat = (Tag.pack .f32 .rne false false v).bits := by
        have := pack_f32_lt .rne false false v
        rw [BitVec.toNat_ofNat]
        omega
      simp only [splExpand, List.getD_eq_getElem?_getD, List.getElem?_map, List.getElem?_range hp, Option.map_some, Option.getD_some,
        find_zipIdx_filter_range (fun p => line.testBit p) hp]
      cases hbit : line.testBit p with
      | false => simp
      | true => simpa [lineCount] using hlt _

/-! ## The register that a line leaves -/

/-- The write of a matrix outside TONLY gives shape, tag and elements of the new value. -/
theorem matFinal_prop (ks : List Nat) (T : Nat) (old new : MReg) (rt : Option MTans) :
    let m := matFinal .prop ks T old new rt
    m.rows = new.rows ∧ m.cols = new.cols ∧ m.tag = new.tag ∧ m.el = new.el := by
  simp only [matFinal, reduceCtorEq, if_false]
  split
  · exact ⟨rfl, rfl, rfl, rfl⟩
  · split
    · exact ⟨rfl, rfl, rfl, rfl⟩
    · cases rt <;> exact ⟨rfl, rfl, rfl, rfl⟩

/-- The bytes of the primal line or of a tangent's, as they stand. -/
def State.lineAt (s : State) (as : List Acc) (k : Nat) : Nat :=
  ((as.find? (fun a => a.k == k)).map (fun a => s.readNat a.store a.addr a.z)).getD 0

/-- What a lane of LDSPL leaves in its register (R136, R139). -/
def State.lineReg (s : State) (T : Nat) (as : List Acc) (old : MReg) : MReg :=
  let pm := splMeta (s.lineAt as 0)
  let ks := (as.map (·.k)).filter (fun k => k != 0)
  { matFinal .prop ks T old { zeroReg 8 8 .f32 false with el := splExpand pm (s.lineAt as 0) }
      (some (ks.map (fun k => (k, splExpand pm (s.lineAt as k))))) with
    psn := as.any (fun a => s.poisoned a.store a.addr a.z) }

theorem State.lineReg_shape (s : State) (T : Nat) (as : List Acc) (old : MReg) :
    let m := s.lineReg T as old
    m.rows = 8 ∧ m.cols = 8 ∧ m.tag = .f32 ∧ m.psn = as.any (fun a => s.poisoned a.store a.addr a.z)
      ∧ m.el = splExpand (splMeta (s.lineAt as 0)) (s.lineAt as 0) := by
  obtain ⟨hrows, hcols, htag, hel⟩ := matFinal_prop ((as.map (·.k)).filter (fun k => k != 0)) T old
    { zeroReg 8 8 .f32 false with el := splExpand (splMeta (s.lineAt as 0)) (s.lineAt as 0) }
    (some (((as.map (·.k)).filter (fun k => k != 0)).map (fun k => (k, splExpand (splMeta (s.lineAt as 0)) (s.lineAt as k)))))
  exact ⟨hrows, hcols, htag, rfl, hel⟩

theorem State.lineAt_of_mem {s : State} {as : List Acc} (hn : (as.map (·.k)).Nodup) {a : Acc} (ha : a ∈ as) :
    s.lineAt as a.k = s.readNat a.store a.addr a.z := by
  simp [State.lineAt, find_k_of_nodup hn ha rfl]

theorem State.lineReg_of_movesOnly {s u : State} {w : Place → Prop} (h : s.movesOnly u w) (hb : ∀ st x, ¬ w (.byte st x))
    (hp : ∀ st g, ¬ w (.psn st g)) (T : Nat) (as : List Acc) (old : MReg) : u.lineReg T as old = s.lineReg T as old := by
  have hread : u.readNat = s.readNat := funext (fun st => funext (fun a => funext (fun n => h.readNat (fun x _ _ => hb st x))))
  have hmark : u.poisoned = s.poisoned := funext (fun st => funext (fun a => funext (fun n => h.poisoned (fun g _ => hp st g))))
  simp only [State.lineReg, State.lineAt, hread, hmark]

/-- A matrix register of a lane changed. -/
def State.updMat (s : State) (r : CohRef) (l n : Nat) (f : MReg → MReg) : State :=
  s.updCoh r (fun c => c.updThread l (fun t => t.setM n (f (t.mreg n))))

theorem State.mAt_updMat {s : State} {r : CohRef} {l : Nat} (h : (s.thr r l).isSome) (n : Nat) (f : MReg → MReg) :
    (s.updMat r l n f).mAt r l n = f (s.mAt r l n) := by
  obtain ⟨-, c, t, -, -, hc, hct⟩ := State.coh_of_thr h
  simp [State.updMat, State.mAt, State.thr, State.coh_updCoh, hc, Cohort.thread_updThread, hct, Thread.mreg_setM]

theorem State.movesOnly_updMat (s : State) (r : CohRef) (l n : Nat) (f : MReg → MReg) :
    s.movesOnly (s.updMat r l n f) (fun w => w = .m r l n) := by
  refine State.movesOnly_updCoh (fun c _ z hz => ?_)
  have hthr (k : Nat) := c.thread_updThread l k (fun t => t.setM n (f (t.mreg n)))
  cases z with
  | m q k j =>
    rintro rfl
    rw [hthr]
    split
    · next he =>
      subst he
      have hj : j ≠ n := fun he => hz (by rw [he])
      cases c.thread k with
      | none => rfl
      | some t => simp [Thread.mreg_setM, hj]
    · rfl
  | v q k j | seed q k | resv q k | ident q k =>
    rintro rfl
    rw [hthr]
    split
    · next he =>
      subst he
      cases c.thread k with
      | none => rfl
      | some t => simp [Thread.setM, Thread.vreg]
    · rfl
  | _ =>
    unfold Cohort.updThread
    split <;> simp [cohSame, Cohort.setThread, Cohort.sreg, Cohort.kreg, Cohort.ctr, Cohort.path, Cohort.counts, Cohort.bare]

theorem State.ldsplLane_calm {u : State} (h : u.calm) {p : Pend} {id l : Nat} (hp : u.pendOf id = some p) {as : List Acc}
    (hl : p.lanes.find l = some as) {d : MNum} (hd : p.dst = some (.m d)) :
    ∃ T, u.ldsplLane id l = (u.updMat p.ref l d.toNat (u.lineReg T as)).laneOff id l := by
  have hread : as.foldl (fun s a => (s.readCheck a.store a.addr a.z).logRead p.ref l a (BitVec.ofNat 64 (s.readNat a.store a.addr 8))) u
      = u := by
    clear hl
    induction as with
    | nil => rfl
    | cons a as ih => rwa [List.foldl_cons, State.readCheck_quiet h.errs, State.logRead_calm h]
  refine ⟨((u.block p.blk).map (fun b => b.cfg.t)).getD 0, ?_⟩
  unfold State.ldsplLane
  simp only [hp, hl, hd, hread]
  rfl

/-- LDSPL (R126, R135, R136): each lane that names the line expands it into its register. -/
theorem ldsplLands {s : State} {id lane : Nat} {p : Pend} {as : List Acc} {h : Thread} (hm : mayLand s id lane p as h) (hrec : noRecord s)
    (hgroup : s.groupOk p (p.sameElement lane) = true) (hthr : ∀ l ∈ p.sameElement lane, (s.thr p.ref l).isSome) (hk : p.kind = .ldspl)
    {d : MNum} (hd : p.dst = some (.m d)) :
    ∃ t, exec (.turretLaneReply id lane) s = .next t ∧ lanesLeft s t p (p.sameElement lane)
      ∧ s.keeps t (fun w => landPlaces p [] w ∨ ∃ l ∈ p.sameElement lane, w = .m p.ref l d.toNat)
      ∧ ∀ l ∈ p.sameElement lane, ∃ T old, t.mAt p.ref l d.toNat = s.lineReg T ((p.lanes.find l).getD []) old := by
  have hcalm := calm_of_mayLand hm
  have hid := State.id_of_pendOf hm.1
  obtain ⟨hlane, hsub⟩ := p.sameElement_spec (AMap.mem_keys_of_find (State.find_of_landable hm.2.1))
  obtain ⟨hleft, hmoves, hC⟩ := State.lanesLand hm (by rw [hk]; rfl) (step := fun s l => s.ldsplLane id l)
    (w := fun w => ∃ l ∈ p.sameElement lane, w = .m p.ref l d.toNat)
    (C := fun done u => ∀ l ∈ done, ∃ T old, u.mAt p.ref l d.toNat = s.lineReg T ((p.lanes.find l).getD []) old)
    (by simp) (by simp) (by simp) (by simp) (by
      intro done l rest u he hop hmoves hC
      have hl : l ∈ p.sameElement lane := by simp [he]
      have hnew : l ∉ done := fun hin => by
        have hnodup := hsub.nodup hm.2.2.2.2.2.2.1
        rw [he] at hnodup
        exact (List.nodup_append.1 hnodup).2.2 l hin l (List.mem_cons_self ..) rfl
      obtain ⟨accs, hfind⟩ := Option.isSome_iff_exists.1 (AMap.find_of_mem_keys (hsub.subset hl))
      obtain ⟨T, hrun⟩ := State.ldsplLane_calm (hmoves.calm hcalm) hop ((p.find_behind hnew).trans hfind) hd
      have hthr' : (u.thr p.ref l).isSome := (hmoves.thr (by simp [landPlaces])).trans (hthr l hl)
      have hreg := u.movesOnly_updMat p.ref l d.toNat (u.lineReg T accs)
      refine ⟨_, hrun, hreg.mono (fun w hw => ⟨l, hl, hw⟩), fun t ht k hk => ?_⟩
      have hsame : t.mAt p.ref k d.toNat = (u.updMat p.ref l d.toNat (u.lineReg T accs)).mAt p.ref k d.toNat :=
        ht.keeps (.m p.ref k d.toNat) (by simp [landPlaces])
      rw [hsame]
      rcases List.mem_append.1 hk with hk | hk
      · have hne : k ≠ l := fun he => hnew (he ▸ hk)
        obtain ⟨T', old, hold⟩ := hC k hk
        exact ⟨T', old, (hreg.keeps (.m p.ref k d.toNat) (by simp [hne])).trans hold⟩
      · obtain rfl := List.mem_singleton.1 hk
        refine ⟨T, u.mAt p.ref k d.toNat, ?_⟩
        rw [State.mAt_updMat hthr', hfind, State.lineReg_of_movesOnly hmoves (by simp [landPlaces]) (by simp [landPlaces])]
        rfl)
  refine ⟨_, exec_turretLaneReply hm ?_, hleft, hmoves.keeps, hC⟩
  rw [State.turretLane, hk]
  simp only [hgroup, if_true, hid]
  rw [State.turretLog_of_noRecord hrec hmoves (by simp [landPlaces])]

/-- The register of a lane of LDSPL, element by element. -/
theorem ldsplLands_elements {s : State} {T : Nat} {as : List Acc} {old m : MReg} (hm : m = s.lineReg T as old) (hn : (as.map (·.k)).Nodup)
    {a : Acc} (ha : a ∈ as) (hk : a.k = 0) (hz : a.z = 128) :
    let line := s.readNat a.store a.addr 128
    let n (q : Nat) : Nat := (List.range q).countP (fun i => line.testBit i)
    let scale := bitsAt line 112 8
    let bad (f : Tag) : Prop := bitsAt line 104 8 ≠ n 64 ∨ 896 < n 64 * f.width ∨ bitsAt line 120 8 ≠ 0 ∨ bitsAt line 100 4 ≠ 0
    m.rows = 8 ∧ m.cols = 8 ∧ m.tag = .f32 ∧ m.psn = as.any (fun a => s.poisoned a.store a.addr a.z)
      ∧ ∀ i < 8, ∀ j < 8, match splTag (bitsAt line 96 4) with
        | none => elemAt m i j = 0x7FC00000
        | some f => elemAt m i j = if bad f then 0x7FC00000 else if line.testBit (8 * i + j) = false then 0 else
            (Tag.pack .f32 .rne false false (if scale = 0xFF then .nan
              else scaleVal (f.value false (bitsAt line (128 + f.width * n (8 * i + j)) f.width)) (scale - 127))).bits := by
  intro line n scale bad
  have hline : s.lineAt as 0 = line := by
    rw [← hk, State.lineAt_of_mem hn ha, hz]
  obtain ⟨hrows, hcols, htag, hpsn, hel⟩ := s.lineReg_shape T as old
  subst hm
  refine ⟨hrows, hcols, htag, hpsn, fun i hi j hj => ?_⟩
  have helem := splExpand_elem line (p := 8 * i + j) (by omega)
  have hat : elemAt (s.lineReg T as old) i j = ((splExpand (splMeta line) line).getD (8 * i + j) 0#64).toNat := by
    rw [elemAt, hel, hcols, hline, Nat.mul_comm i 8]
  rw [hat]
  revert helem
  cases splTag (bitsAt line 96 4) with
  | none => exact id
  | some f => exact id

end Sys2Proof.Machine
end

section
/-! SUPPORT. Objects updated, and one element of GATHS landed (R105, R106, R108, R131; O19). -/
namespace Sys2Proof.Machine

/-! ## Objects updated (R105, R106) -/

/-- The fields of an object fit its 16 bytes. -/
structure Obj.fits (o : Obj) : Prop where
  pend : o.pend < 2 ^ 32
  exp  : o.exp < 2 ^ 16
  arr  : o.arr < 2 ^ 16
  osc  : o.osc < 8

theorem objOf_fits (n : Nat) : (objOf n).fits :=
  ⟨Nat.mod_lt _ (by decide), Nat.mod_lt _ (by decide), Nat.mod_lt _ (by decide), Nat.mod_lt _ (by decide)⟩

theorem Obj.fits_step {o : Obj} (h : o.fits) : o.step.fits := by
  unfold Obj.step
  split
  · exact ⟨h.pend, h.exp, Nat.two_pow_pos 16, h.osc⟩
  · exact h

theorem Obj.bits_lt (o : Obj) : o.bits < 256 ^ 16 := by
  unfold Obj.bits
  split <;> split <;> omega

/-- An object written reads back. -/
theorem objOf_bits {o : Obj} (h : o.fits) : objOf o.bits = o := by
  obtain ⟨pend, exp, arr, phase, abort, osc⟩ := o
  obtain ⟨hpend, hexp, harr, hosc⟩ := h
  dsimp only at hpend hexp harr hosc
  simp only [objOf, Obj.bits, bitsAt, Nat.shiftRight_eq_div_pow, Nat.testBit_eq_decide_div_mod_eq, Obj.mk.injEq]
  refine ⟨?_, ?_, ?_, ?_, ?_, ?_⟩
  case refine_4 => cases phase <;> cases abort <;> simp <;> omega
  case refine_5 => cases phase <;> cases abort <;> simp <;> omega
  all_goals
    split <;> split <;> omega

/-- Where an update of the object at `o` moves something. -/
def objectMoves (o : Store × Nat) (w : Place) : Prop :=
  (∃ r l, w = .resv r l) ∨ (∃ k, w = .objs k) ∨ ∃ a, w = .byte o.1 a ∧ o.2 ≤ a ∧ a < o.2 + 16

theorem State.movesOnly_objUpd (s : State) (o : Store × Nat) (f : Obj → Obj) : s.movesOnly (s.objUpd o f) (objectMoves o) := by
  have hbytes := s.movesOnly_writeBytes o.1 o.2 (leBytes 16 (f (s.objAt o.1 o.2)).step.bits) (w := objectMoves o)
    (fun x h h' => .inr (.inr ⟨x, rfl, h, by simpa using h'⟩)) (fun r l => .inl ⟨r, l, rfl⟩)
  exact hbytes.trans (State.movesOnly_setObjs _ (fun k _ => .inr (.inl ⟨k, rfl⟩)))

/-- An update leaves what it computes, with the step of R106. -/
theorem State.objAt_objUpd {s : State} {o : Store × Nat} (h : isThere s o.1) {f : Obj → Obj} (hf : (f (s.objAt o.1 o.2)).fits) :
    (s.objUpd o f).objAt o.1 o.2 = (f (s.objAt o.1 o.2)).step := by
  have hset := State.movesOnly_setObjs (s.writeBytes o.1 o.2 (leBytes 16 (f (s.objAt o.1 o.2)).step.bits)) (st := o.1)
    (l := setIns ((s.writeBytes o.1 o.2 (leBytes 16 (f (s.objAt o.1 o.2)).step.bits)).objs o.1) (o.2 / 16))
    (w := fun w => ∃ k, w = .objs k) (fun k _ => ⟨k, rfl⟩)
  have hread : (s.objUpd o f).readNat o.1 o.2 16 = (f (s.objAt o.1 o.2)).step.bits := by
    refine (hset.readNat (by simp)).trans ?_
    rw [State.readNat_writeBytes h]
    exact Nat.mod_eq_of_lt (Obj.bits_lt _)
  rw [State.objAt, hread, objOf_bits (Obj.fits_step hf)]

theorem Obj.fits_sub {o : Obj} (h : o.fits) (n : Nat) : (o.sub n).fits :=
  ⟨lt_of_le_of_lt (Nat.sub_le _ _) h.pend, h.exp, h.arr, h.osc⟩

/-- Subtracted from step after step while bytes are pending, an object takes the step of R106 at the end alone. -/
theorem Obj.sub_step_sub {o : Obj} {m n : Nat} (h : m < o.pend) : ((o.sub m).step.sub n).step = (o.sub (m + n)).step := by
  have hstay : (o.sub m).step = o.sub m := by
    refine if_neg ?_
    rintro ⟨-, -, h0⟩
    exact absurd h0 (Nat.sub_ne_zero_of_lt h)
  rw [hstay]
  simp only [Obj.sub, Nat.sub_sub]

theorem objStep_step (o : Obj) : objStep o o.step := by
  unfold objStep Obj.step
  split <;> rfl

theorem State.movesOnly.objAt {s t : State} {w : Place → Prop} (h : s.movesOnly t w) {st : Store} {a : Nat}
    (hw : ∀ x, a ≤ x → x < a + 16 → ¬ w (.byte st x)) : t.objAt st a = s.objAt st a := by
  rw [State.objAt, h.readNat hw, State.objAt]

/-! ## One element of GATHS (R131, R108) -/

/-- The access touches granule `g` of a store. -/
def Acc.inGranule (st : Store) (g : Nat) (b : Acc) : Bool := b.store == st && (granules 16 b.addr b.z).contains g

/-- What one landing element of GATHS does beside its object where it is within reach. -/
def State.landBytes (s : State) (later : Nat → Bool) (q e : Acc) : State :=
  let s2 := s.writeEl q.store q.addr q.z e.val e.psn
  let gs := granules 16 q.addr q.z
  let s3 := if (s2.objs q.store).isEmpty then s2 else s2.setObjs q.store (gs.foldl setDel (s2.objs q.store))
  gs.foldl (fun s g => if later g then s else s.setFull q.store (16 * g)) s3

/-- What one landing element of GATHS does where it is within reach. -/
def State.landEl (s : State) (obj : Option (Store × Nat)) (later : Nat → Bool) (q e : Acc) : State :=
  match obj with
  | some o => (s.landBytes later q e).objUpd o (Obj.sub q.z)
  | none => s.landBytes later q e

/-- The places that landing elements of GATHS move. -/
def gathsPlaces (obj : Option (Store × Nat)) (outs : List Acc) (w : Place) : Prop :=
  storePlaces outs w ∨ (∃ k, w = .objs k) ∨ (∃ q ∈ outs, ∃ a, w = .full q.store a ∧ a / 16 ∈ granules 16 q.addr q.z)
    ∨ ∃ o, obj = some o ∧ ∃ a, w = .byte o.1 a ∧ o.2 ≤ a ∧ a < o.2 + 16

theorem gathsPlaces_mono {obj : Option (Store × Nat)} {as bs : List Acc} (h : ∀ a ∈ as, a ∈ bs) {w : Place} (hw : gathsPlaces obj as w) :
    gathsPlaces obj bs w := by
  rcases hw with hw | hw | ⟨q, hq, hw⟩ | hw
  · exact .inl (storePlaces_mono h hw)
  · exact .inr (.inl hw)
  · exact .inr (.inr (.inl ⟨q, h q hq, hw⟩))
  · exact .inr (.inr (.inr hw))

theorem State.movesOnly_setFull (s : State) (st : Store) (g : Nat) {w : Place → Prop} (hw : ∀ a, a / 16 = g → w (.full st a)) :
    s.movesOnly (s.setFull st (16 * g)) w := by
  refine s.movesOnly_setFes (fun a ha => contains_eq_of_mem_iff ?_)
  have hne : a / 16 ≠ g := fun he => ha (hw a he)
  simp [mem_setIns, hne]

theorem State.fes_setFes_core (s : State) (k : Nat) (l : List Nat) : (s.setFes (.core k) l).fes (.core k) = l := by
  simp [State.setFes, State.fes]

theorem State.full_setFull (s : State) (k g j : Nat) :
    (s.setFull (.core k) (16 * g)).full (.core k) (16 * j) = (decide (j = g) || s.full (.core k) (16 * j)) := by
  rw [State.full, State.setFull, State.fes_setFes_core, State.full, Bool.eq_iff_iff]
  simp [mem_setIns]

/-- The full-empty bits behind the granules of one element. -/
theorem State.full_foldl_setFull (s : State) (later : Nat → Bool) (k j : Nat) (gs : List Nat) :
    (gs.foldl (fun s g => if later g then s else s.setFull (.core k) (16 * g)) s).full (.core k) (16 * j)
      = (gs.contains j && !later j || s.full (.core k) (16 * j)) := by
  induction gs generalizing s with
  | nil => simp
  | cons g gs ih =>
    rw [List.foldl_cons, ih]
    cases hg : later g with
    | true =>
      by_cases he : j = g
      · simp [he, hg]
      · simp [he]
    | false =>
      rw [if_neg (by simp), State.full_setFull]
      by_cases he : j = g
      · simp [he, hg]
      · simp [he]

theorem State.movesOnly_landBytes (s : State) (later : Nat → Bool) (q e : Acc) :
    (s.writeEl q.store q.addr q.z e.val e.psn).movesOnly (s.landBytes later q e)
      (fun w => (∃ k, w = .objs k) ∨ ∃ a, w = .full q.store a ∧ a / 16 ∈ granules 16 q.addr q.z) := by
  unfold State.landBytes
  refine State.movesOnly.trans ?_ (State.movesOnly_foldl (fun s g hg => ?_) _)
  · split
    · exact State.movesOnly_refl _ _
    · exact State.movesOnly_setObjs _ (fun k _ => .inl ⟨k, rfl⟩)
  · split
    · exact State.movesOnly_refl _ _
    · exact State.movesOnly_setFull s q.store g (fun a ha => .inr ⟨a, rfl, ha ▸ hg⟩)

theorem State.full_landBytes (s : State) (later : Nat → Bool) {q : Acc} (e : Acc) {k : Nat} (j : Nat) (hk : q.store = .core k) :
    (s.landBytes later q e).full (.core k) (16 * j)
      = (q.inGranule (.core k) j && !later j || (s.writeEl q.store q.addr q.z e.val e.psn).full (.core k) (16 * j)) := by
  have hin : q.inGranule (.core k) j = (granules 16 q.addr q.z).contains j := by simp [Acc.inGranule, hk]
  rw [hin, State.landBytes, hk]
  refine (State.full_foldl_setFull _ later k j _).trans (congrArg _ ?_)
  split
  · rfl
  · exact (State.movesOnly_setObjs _ (w := fun w => ∃ k, w = .objs k) (fun k _ => ⟨k, rfl⟩)).keeps (.full (.core k) (16 * j)) (by simp)

/-- The element lies outside the object. -/
def offObject (obj : Option (Store × Nat)) (q : Acc) : Prop :=
  ∀ o, obj = some o → ∀ x, q.addr ≤ x → x < q.addr + q.z → ¬ (q.store = o.1 ∧ o.2 ≤ x ∧ x < o.2 + 16)

theorem State.movesOnly_landEl (s : State) (obj : Option (Store × Nat)) (later : Nat → Bool) (q e : Acc) :
    s.movesOnly (s.landEl obj later q e) (gathsPlaces obj [q]) := by
  obtain ⟨hb, hp, hr⟩ := storePlaces_of_mem (List.mem_singleton_self q)
  have hwrite := s.movesOnly_writeEl q.store q.addr q.z e.val e.psn (w := gathsPlaces obj [q]) (fun x h h' => .inl (hb x h h'))
    (fun g hg => .inl (hp g hg)) (fun r l => .inl (hr r l))
  have hrest := hwrite.trans ((s.movesOnly_landBytes later q e).mono (fun w hw => by
    rcases hw with hw | hw
    · exact .inr (.inl hw)
    · exact .inr (.inr (.inl ⟨q, List.mem_singleton_self q, hw⟩))))
  cases obj with
  | none => exact hrest
  | some o =>
    refine hrest.trans ((State.movesOnly_objUpd _ o _).mono (fun w hw => ?_))
    rcases hw with ⟨r, l, rfl⟩ | hw | hw
    · exact .inl (.inl ⟨r, l, rfl⟩)
    · exact .inr (.inl hw)
    · exact .inr (.inr (.inr ⟨o, rfl, hw⟩))

/-- The element reads back. -/
theorem State.readNat_landEl {s : State} {obj : Option (Store × Nat)} {later : Nat → Bool} {q e : Acc} (h : isThere s q.store)
    (hoff : offObject obj q) : (s.landEl obj later q e).readNat q.store q.addr q.z = e.val.toNat % 2 ^ (8 * q.z) := by
  rw [← State.readNat_writeEl h q.addr q.z e.val e.psn,
    ← (s.movesOnly_landBytes later q e).readNat (st := q.store) (a := q.addr) (n := q.z) (by simp)]
  cases obj with
  | none => rfl
  | some o =>
    refine (State.movesOnly_objUpd _ o _).readNat (fun x hx hx' => ?_)
    rintro (⟨r, l, hw⟩ | ⟨k, hw⟩ | ⟨a, hw, ha⟩)
    · cases hw
    · cases hw
    · obtain ⟨hst, rfl⟩ := Place.byte.inj hw
      exact hoff o rfl x hx hx' ⟨hst, ha⟩

/-- The object has the element's bytes less to wait for. -/
theorem State.objAt_landEl {s : State} {o : Store × Nat} {later : Nat → Bool} {q e : Acc} (h : isThere s o.1)
    (hoff : offObject (some o) q) : (s.landEl (some o) later q e).objAt o.1 o.2 = ((s.objAt o.1 o.2).sub q.z).step := by
  have hmoves := s.movesOnly_landBytes later q e
  have hwrite := s.movesOnly_writeEl q.store q.addr q.z e.val e.psn
    (w := fun w => (∃ x, w = .byte q.store x ∧ q.addr ≤ x ∧ x < q.addr + q.z) ∨ (∃ g, w = .psn q.store g) ∨ ∃ r l, w = .resv r l)
    (fun x h h' => .inl ⟨x, rfl, h, h'⟩) (fun g _ => .inr (.inl ⟨g, rfl⟩)) (fun r l => .inr (.inr ⟨r, l, rfl⟩))
  have hobj : (s.landBytes later q e).objAt o.1 o.2 = s.objAt o.1 o.2 := by
    rw [hmoves.objAt (by simp), hwrite.objAt (fun x hx hx' => ?_)]
    rintro (⟨y, hw, hy⟩ | ⟨g, hw⟩ | ⟨r, l, hw⟩)
    · obtain ⟨hst, rfl⟩ := Place.byte.inj hw
      exact hoff o rfl x hy.1 hy.2 ⟨hst.symm, hx, hx'⟩
    · cases hw
    · cases hw
  have hthere : isThere (s.landBytes later q e) o.1 := isThere_of_keeps (isThere_of_keeps h hwrite.keeps (by simp)) hmoves.keeps (by simp)
  refine (State.objAt_objUpd hthere ?_).trans (by rw [hobj])
  rw [hobj]
  exact Obj.fits_sub (objOf_fits _) _

/-- The full-empty bits of a core behind one element (R108). -/
theorem State.full_landEl (s : State) (obj : Option (Store × Nat)) (later : Nat → Bool) (q e : Acc) (k j : Nat) :
    (s.landEl obj later q e).full (.core k) (16 * j) = (q.inGranule (.core k) j && !later j || s.full (.core k) (16 * j)) := by
  have hwrite : (s.writeEl q.store q.addr q.z e.val e.psn).full (.core k) (16 * j) = s.full (.core k) (16 * j) :=
    (s.movesOnly_writeEl q.store q.addr q.z e.val e.psn (w := fun w => (∃ st x, w = .byte st x) ∨ (∃ st g, w = .psn st g) ∨ ∃ r l, w = .resv r l)
      (fun x _ _ => .inl ⟨_, x, rfl⟩) (fun g _ => .inr (.inl ⟨_, g, rfl⟩)) (fun r l => .inr (.inr ⟨r, l, rfl⟩))).keeps
      (.full (.core k) (16 * j)) (by simp)
  have hobj : (s.landEl obj later q e).full (.core k) (16 * j) = (s.landBytes later q e).full (.core k) (16 * j) := by
    cases obj with
    | none => rfl
    | some o => exact (State.movesOnly_objUpd _ o _).keeps (.full (.core k) (16 * j)) (by simp [objectMoves])
  rw [hobj, ← hwrite]
  by_cases hst : q.store = .core k
  · exact s.full_landBytes later e j hst
  · have hout : q.inGranule (.core k) j = false := by simp [Acc.inGranule, hst]
    rw [hout]
    exact (s.movesOnly_landBytes later q e).keeps (.full (.core k) (16 * j)) (by simp [Ne.symm hst])

end Sys2Proof.Machine
end

section
/-! SUPPORT. The elements of one lane of GATHS (R131; O19). -/
namespace Sys2Proof.Machine

/-! ## The elements of one lane of GATHS -/

/-- Two folds agree when their steps agree along what the second one keeps. -/
theorem foldl_eq_of_invariant {σ β : Type} {f g : σ → β → σ} {P : σ → Prop} {ls : List β}
    (h : ∀ u, ∀ l ∈ ls, P u → f u l = g u l ∧ P (g u l)) {s : σ} (hs : P s) : ls.foldl f s = ls.foldl g s := by
  induction ls generalizing s with
  | nil => rfl
  | cons l ls ih =>
    obtain ⟨heq, hnext⟩ := h s l (List.mem_cons_self ..) hs
    rw [List.foldl_cons, List.foldl_cons, heq]
    exact ih (fun u k hk => h u k (List.mem_cons_of_mem _ hk)) hnext

/-- Reach reads what no step here moves. -/
theorem State.movesOnly.accReach {s t : State} {w : Place → Prop} (h : s.movesOnly t w) (p : Pend) (a : Acc) :
    t.accReach p a = s.accReach p a := by
  have hany (f : Nat × Block → Bool) (hf : ∀ b, f b = f (shell b)) : t.blocks.any f = s.blocks.any f := by
    have hshell (bs : List (Nat × Block)) : bs.any f = (bs.map shell).any f := by
      rw [List.any_map]
      exact congrArg bs.any (funext hf)
    rw [hshell t.blocks, hshell s.blocks, Bool.eq_iff_iff, List.any_eq_true, List.any_eq_true]
    exact exists_congr (fun q => and_congr_left (fun _ => h.shells q))
  unfold State.accReach
  split
  · rw [hany _ (fun _ => rfl)]
  · rfl

/-- A granule in which the lane's later elements or those of other lanes still write (R108). -/
def stillOpen (els rest : List Acc) (q : Acc) (g : Nat) : Bool :=
  (els.filter (fun b => decide (q.k < b.k)) ++ rest).any (Acc.inGranule q.store g)

/-- What was read for an element. -/
def readFor (rs : List Acc) (q : Acc) : Acc := (rs.find? (fun a => a.k == q.k)).getD q

theorem State.foldl_putFe_calm {s : State} (h : s.calm) (st : Store) (later : Nat → Bool) (gs : List Nat) :
    gs.foldl (fun s g => if later g then s else s.putFe st (16 * g) true) s
      = gs.foldl (fun s g => if later g then s else s.setFull st (16 * g)) s := by
  refine foldl_eq_of_invariant (P := State.calm) (fun u g _ hu => ?_) h
  have hset : (u.setFull st (16 * g)).calm :=
    (State.movesOnly_setFull u st g (w := fun w => ∃ a, w = .full st a) (fun a _ => ⟨a, rfl⟩)).calm hu
  split
  · exact ⟨rfl, hu⟩
  · refine ⟨?_, hset⟩
    rw [State.putFe, if_pos rfl, State.logFe_calm hset]

/-- A lane of GATHS lands its elements one after another. -/
def State.landEls (s : State) (obj : Option (Store × Nat)) (rs rest els : List Acc) : State :=
  els.foldl (fun s q => s.landEl obj (stillOpen els rest q) q (readFor rs q)) s

theorem State.gathsLane_calm {u : State} (h : u.calm) {p : Pend} {id l : Nat} (hp : u.pendOf id = some p) {dst : AMap (List Acc)}
    {obj : Option (Store × Nat)} (hk : p.kind = .gaths dst obj) {as : List Acc} (hl : p.lanes.find l = some as)
    (hreach : ∀ q ∈ dst.get l [], u.accReach p q = true) :
    u.gathsLane id l = (u.landEls obj (as.map (readAcc u))
      ((dst.filter (fun k => k.1 != l && !p.done.getLsbD k.1)).flatMap (·.2)) (dst.get l [])).laneOff id l := by
  unfold State.gathsLane
  simp only [hp, hk, hl, State.readLane_calm h]
  refine congrArg (fun t => State.laneOff t id l) (foldl_eq_of_invariant
    (P := fun v => v.calm ∧ ∀ q ∈ dst.get l [], v.accReach p q = true) (fun v q hq hv => ?_) ⟨h, hreach⟩)
  obtain ⟨hcalm, hin⟩ := hv
  have hmoves := v.movesOnly_landEl obj (stillOpen (dst.get l [])
    ((dst.filter (fun k => k.1 != l && !p.done.getLsbD k.1)).flatMap (·.2)) q) q (readFor (as.map (readAcc u)) q)
  refine ⟨?_, hmoves.calm hcalm, fun b hb => (hmoves.accReach p b).trans (hin b hb)⟩
  have hwrite : (v.writeEl q.store q.addr q.z (readFor (as.map (readAcc u)) q).val (readFor (as.map (readAcc u)) q).psn).calm :=
    (v.movesOnly_writeEl _ _ _ _ _ (w := fun _ => True) (fun _ _ _ => trivial) (fun _ _ => trivial) (fun _ _ => trivial)).calm hcalm
  have hobjs (l : List Nat) : ((v.writeEl q.store q.addr q.z (readFor (as.map (readAcc u)) q).val
      (readFor (as.map (readAcc u)) q).psn).setObjs q.store l).calm :=
    (State.movesOnly_setObjs _ (w := fun _ => True) (fun _ _ => trivial)).calm hwrite
  have hbytes : (v.writeBytes q.store q.addr (leBytes q.z (readFor (as.map (readAcc u)) q).val.toNat)).writePsn q.store q.addr q.z
      (readFor (as.map (readAcc u)) q).psn
      = v.writeEl q.store q.addr q.z (readFor (as.map (readAcc u)) q).val (readFor (as.map (readAcc u)) q).psn := rfl
  have hfe : v.landBytes (stillOpen (dst.get l []) ((dst.filter (fun k => k.1 != l && !p.done.getLsbD k.1)).flatMap (·.2)) q) q
      (readFor (as.map (readAcc u)) q) = _ := (State.foldl_putFe_calm (by split; exacts [hwrite, hobjs _]) _ _ _).symm
  unfold State.landEl
  rw [hfe]
  simp only [hin q hq, Bool.not_true, Bool.false_eq_true, if_false]
  rw [show ((as.map (readAcc u)).find? (fun a => a.k == q.k)).getD q = readFor (as.map (readAcc u)) q from rfl, hbytes,
    State.logLanded_calm hwrite]
  rfl

/-! ## What the elements of a lane leave -/

/-- The elements of GATHS lie in stores that are there, apart from one another and from the object. -/
structure gathsFits (s : State) (obj : Option (Store × Nat)) (els : List Acc) : Prop where
  there : ∀ q ∈ els, isThere s q.store
  off   : ∀ q ∈ els, offObject obj q
  home  : ∀ o, obj = some o → isThere s o.1
  apart : els.Pairwise (fun a b => a.overlaps b = false)
  pos   : ∀ q ∈ els, 0 < q.z

theorem gathsPlaces_not {obj : Option (Store × Nat)} {els : List Acc} {w : Place} (hpsn : ∀ st g, w ≠ .psn st g) (hbyte : ∀ st x, w ≠ .byte st x)
    (hresv : ∀ r l, w ≠ .resv r l) (hobjs : ∀ k, w ≠ .objs k) (hfull : ∀ st a, w ≠ .full st a) : ¬ gathsPlaces obj els w := by
  rintro ((⟨r, l, h⟩ | ⟨_, -, ⟨n, h, -⟩ | ⟨g, -, h⟩⟩) | ⟨k, h⟩ | ⟨q, -, a, h, -⟩ | ⟨o, -, x, h, -⟩)
  · exact hresv r l h
  · exact hbyte _ _ h
  · exact hpsn _ _ h
  · exact hobjs k h
  · exact hfull _ _ h
  · exact hbyte _ _ h

theorem gathsFits_of_movesOnly {s t : State} {obj : Option (Store × Nat)} {els all : List Acc} (h : gathsFits s obj els)
    (hm : s.movesOnly t (gathsPlaces obj all)) : gathsFits t obj els := by
  have hblk (b : Nat) : ¬ gathsPlaces obj all (.blk b) := gathsPlaces_not (by simp) (by simp) (by simp) (by simp) (by simp)
  exact ⟨fun q hq => isThere_of_keeps (h.there q hq) hm.keeps hblk, h.off, fun o ho => isThere_of_keeps (h.home o ho) hm.keeps hblk,
    h.apart, h.pos⟩

/-- Bytes of an element are no bytes of elements apart from it, nor of the object. -/
theorem not_gathsPlaces_byte {obj : Option (Store × Nat)} {q : Acc} {els : List Acc} (hoff : offObject obj q)
    (h : ∀ b ∈ els, q.overlaps b = false) {x : Nat} (hx : q.addr ≤ x) (hx' : x < q.addr + q.z) :
    ¬ gathsPlaces obj els (.byte q.store x) := by
  rintro (hw | ⟨k, hw⟩ | ⟨b, -, a, hw, -⟩ | ⟨o, ho, a, hw, ha⟩)
  · exact not_storePlaces_byte h hx hx' hw
  · cases hw
  · cases hw
  · obtain ⟨hst, rfl⟩ := Place.byte.inj hw
    exact hoff o ho x hx hx' ⟨hst, ha⟩

theorem Acc.overlaps_comm (a b : Acc) : a.overlaps b = b.overlaps a := by
  rw [Bool.eq_iff_iff]
  simp only [Acc.overlaps, Bool.and_eq_true, beq_iff_eq, decide_eq_true_eq]
  constructor <;> rintro ⟨⟨h, h1⟩, h2⟩ <;> exact ⟨⟨h.symm, h2⟩, h1⟩

/-- An object from which `n` bytes have been subtracted, with the step of R106 behind each time. -/
def Obj.counted (o : Obj) (n : Nat) : Obj := if n = 0 then o else (o.sub n).step

theorem Obj.counted_sub_step {o : Obj} {m n : Nat} (hn : 0 < n) (h : m + n ≤ o.pend) : ((o.counted m).sub n).step = o.counted (m + n) := by
  unfold Obj.counted
  rw [if_neg (by omega : ¬ m + n = 0)]
  split
  · rename_i hm
    rw [hm, Nat.zero_add]
  · exact Obj.sub_step_sub (by omega)

/-- The bytes of a list of elements. -/
def elBytesSum (els : List Acc) : Nat := (els.map (·.z)).sum

@[simp] theorem elBytesSum_append (as bs : List Acc) : elBytesSum (as ++ bs) = elBytesSum as + elBytesSum bs := by
  simp [elBytesSum]

theorem State.movesOnly_landEls (s : State) (obj : Option (Store × Nat)) (rs rest els : List Acc) :
    s.movesOnly (s.landEls obj rs rest els) (gathsPlaces obj els) :=
  State.movesOnly_foldl (fun u q hq => (u.movesOnly_landEl obj _ q _).mono
    (fun _ => gathsPlaces_mono (fun _ ha => (List.mem_singleton.1 ha) ▸ hq))) s

/-- Each element of a lane stands in its place. -/
theorem State.readNat_landEls {s : State} {obj : Option (Store × Nat)} {rs rest els : List Acc} (hfit : gathsFits s obj els) :
    ∀ q ∈ els, (s.landEls obj rs rest els).readNat q.store q.addr q.z = (readFor rs q).val.toNat % 2 ^ (8 * q.z) := by
  have hmain := foldl_along (f := fun (s : State) q => s.landEl obj (stillOpen els rest q) q (readFor rs q)) (ls := els) (s := s)
    (P := fun done u => gathsFits u obj els ∧ ∀ q ∈ done, u.readNat q.store q.addr q.z = (readFor rs q).val.toNat % 2 ^ (8 * q.z))
    ⟨hfit, by simp⟩ (by
      rintro done l more u he ⟨hu, hdone⟩
      have hmoves := u.movesOnly_landEl obj (stillOpen els rest l) l (readFor rs l)
      have hl : l ∈ els := by simp [he]
      refine ⟨gathsFits_of_movesOnly hu hmoves, fun q hq => ?_⟩
      rcases List.mem_append.1 hq with hq | hq
      · have hqels : q ∈ els := by simp [he, hq]
        have hapart : q.overlaps l = false := by
          have := hfit.apart
          rw [he] at this
          exact (List.pairwise_append.1 this).2.2 q hq l (List.mem_cons_self ..)
        rw [← hdone q hq]
        exact hmoves.readNat (fun x hx hx' => not_gathsPlaces_byte (hfit.off q hqels) (by simpa using hapart) hx hx')
      · obtain rfl := List.mem_singleton.1 hq
        exact State.readNat_landEl (hu.there q hl) (hu.off q hl))
  exact hmain.2

/-- The object counts the bytes of every element. -/
theorem State.objAt_landEls {s : State} {o : Store × Nat} {rs rest els : List Acc} (hfit : gathsFits s (some o) els) {X : Obj} {m : Nat}
    (hm : s.objAt o.1 o.2 = X.counted m) (hle : m + elBytesSum els ≤ X.pend) :
    (s.landEls (some o) rs rest els).objAt o.1 o.2 = X.counted (m + elBytesSum els) := by
  have hmain := foldl_along (f := fun (s : State) q => s.landEl (some o) (stillOpen els rest q) q (readFor rs q)) (ls := els) (s := s)
    (P := fun done u => gathsFits u (some o) els ∧ u.objAt o.1 o.2 = X.counted (m + elBytesSum done))
    ⟨hfit, hm⟩ (by
      rintro done l more u he ⟨hu, hdone⟩
      have hmoves := u.movesOnly_landEl (some o) (stillOpen els rest l) l (readFor rs l)
      have hl : l ∈ els := by simp [he]
      have hsum : elBytesSum els = elBytesSum done + (l.z + elBytesSum more) := by
        rw [he, elBytesSum_append]
        rfl
      refine ⟨gathsFits_of_movesOnly hu hmoves, ?_⟩
      rw [State.objAt_landEl (hu.home o rfl) (hu.off l hl), hdone, Obj.counted_sub_step (hu.pos l hl) (by omega), elBytesSum_append, Nat.add_assoc]
      rfl)
  exact hmain.2

/-- A granule of a core becomes full with the last element that writes in it (R108). -/
theorem any_last_iff (st : Store) (j : Nat) (els rest : List Acc) :
    els.any (fun q => q.inGranule st j && !stillOpen els rest q j) = (els.any (Acc.inGranule st j) && !rest.any (Acc.inGranule st j)) := by
  have hstore {q : Acc} (hq : q.inGranule st j = true) : q.store = st := by
    simp only [Acc.inGranule, Bool.and_eq_true, beq_iff_eq] at hq
    exact hq.1
  rw [Bool.eq_iff_iff]
  constructor
  · intro h
    obtain ⟨q, hq, hlast⟩ := List.any_eq_true.1 h
    simp only [Bool.and_eq_true, Bool.not_eq_true'] at hlast ⊢
    obtain ⟨hin, hlast⟩ := hlast
    rw [stillOpen, hstore hin, List.any_append, Bool.or_eq_false_iff] at hlast
    exact ⟨List.any_eq_true.2 ⟨q, hq, hin⟩, hlast.2⟩
  · intro h
    simp only [Bool.and_eq_true, Bool.not_eq_true'] at h
    obtain ⟨hany, hrest⟩ := h
    obtain ⟨a, ha, hin⟩ := List.any_eq_true.1 hany
    obtain ⟨q, hq, hmax⟩ := Finset.exists_max_image (els.filter (Acc.inGranule st j)).toFinset (·.k) ⟨a, by simp [ha, hin]⟩
    simp only [List.mem_toFinset, List.mem_filter] at hq hmax
    refine List.any_eq_true.2 ⟨q, hq.1, ?_⟩
    simp only [hq.2, stillOpen, hstore hq.2, List.any_append, hrest, Bool.or_false, Bool.true_and, Bool.not_eq_true',
      List.any_filter, List.any_eq_false, Bool.and_eq_true, decide_eq_true_eq, not_and]
    exact fun b hb hlt hinb => absurd (hmax b ⟨hb, hinb⟩) (by omega)

/-- The full-empty bits of a core behind a lane (R108). -/
theorem State.full_landEls (s : State) (obj : Option (Store × Nat)) (rs rest els : List Acc) (k j : Nat) :
    (s.landEls obj rs rest els).full (.core k) (16 * j) =
      (els.any (Acc.inGranule (.core k) j) && !rest.any (Acc.inGranule (.core k) j) || s.full (.core k) (16 * j)) := by
  rw [← any_last_iff]
  have hmain (es : List Acc) (u : State) : (es.foldl (fun (s : State) q => s.landEl obj (stillOpen els rest q) q (readFor rs q)) u).full
      (.core k) (16 * j) = (es.any (fun q => q.inGranule (.core k) j && !stillOpen els rest q j) || u.full (.core k) (16 * j)) := by
    induction es generalizing u with
    | nil => simp
    | cons q es ih =>
      rw [List.foldl_cons, ih, State.full_landEl, List.any_cons]
      ac_rfl
  exact hmain els s

end Sys2Proof.Machine
end

section
/-! SUPPORT. The lanes of GATHS that land together (R126, R131; O19). -/
namespace Sys2Proof.Machine

/-! ## The lanes of GATHS that name one element (R126, R131) -/

theorem gathsFits.of_sublist {s : State} {obj : Option (Store × Nat)} {els all : List Acc} (h : gathsFits s obj all)
    (hsub : List.Sublist els all) : gathsFits s obj els :=
  ⟨fun q hq => h.there q (hsub.subset hq), fun q hq => h.off q (hsub.subset hq), h.home, h.apart.sublist hsub,
    fun q hq => h.pos q (hsub.subset hq)⟩

/-- The elements that a word of GATHS writes for some lanes. -/
def outsOf (dst : AMap (List Acc)) (ls : List Nat) : List Acc := ls.flatMap (fun l => dst.get l [])

@[simp] theorem outsOf_append (dst : AMap (List Acc)) (as bs : List Nat) : outsOf dst (as ++ bs) = outsOf dst as ++ outsOf dst bs := by
  simp [outsOf]

@[simp] theorem outsOf_singleton (dst : AMap (List Acc)) (l : Nat) : outsOf dst [l] = dst.get l [] := by simp [outsOf]

theorem outsOf_cons (dst : AMap (List Acc)) (l : Nat) (ls : List Nat) : outsOf dst (l :: ls) = dst.get l [] ++ outsOf dst ls := by
  simp [outsOf]

theorem outsOf_split {dst : AMap (List Acc)} {ls done rest : List Nat} {l : Nat} (he : ls = done ++ l :: rest) :
    outsOf dst ls = outsOf dst done ++ (dst.get l [] ++ outsOf dst rest) := by
  rw [he, outsOf_append, outsOf_cons]

/-- The elements of some lanes are apart when those of all lanes are. -/
theorem outsOf_apart {dst : AMap (List Acc)} (h : (dst.flatMap (·.2)).Pairwise (fun a b => a.overlaps b = false)) {ls : List Nat}
    (hls : ls.Nodup) : (outsOf dst ls).Pairwise (fun a b => a.overlaps b = false) := by
  obtain ⟨hin, hacross⟩ := List.pairwise_flatMap.1 h
  have hget (l : Nat) {q : Acc} (hq : q ∈ dst.get l []) : (l, dst.get l []) ∈ dst := by
    cases hf : dst.find l with
    | none => simp [AMap.get, hf] at hq
    | some as =>
      rw [AMap.get, hf, Option.getD_some]
      exact AMap.mem_of_find hf
  refine List.pairwise_flatMap.2 ⟨fun l _ => ?_, List.Pairwise.imp ?_ hls⟩
  · rcases h0 : dst.get l [] with _ | ⟨q, as⟩
    · exact List.Pairwise.nil
    · rw [← h0]
      exact hin _ (hget l (q := q) (by simp [h0]))
  · intro l k hne a ha b hb
    have hsymm : Std.Symm (fun p q : Nat × List Acc => ∀ x ∈ p.2, ∀ y ∈ q.2, x.overlaps y = false) :=
      ⟨fun _ _ hpq y hy x hx => (Acc.overlaps_comm y x).trans (hpq x hx y hy)⟩
    exact hacross.forall (hget l ha) (hget k hb) (by simp [hne]) a ha b hb

/-- Lanes that neither are done nor will be done now still write in a granule. -/
def openBy (dst : AMap (List Acc)) (before : W32) (done : List Nat) (st : Store) (j : Nat) : Bool :=
  dst.any (fun l => !done.contains l.1 && !before.getLsbD l.1 && l.2.any (Acc.inGranule st j))

/-- With one lane more done, a granule is still open, or it was that lane's. -/
theorem openBy_step {dst : AMap (List Acc)} (hn : (AMap.keys dst).Nodup) (before : W32) (done : List Nat) (l : Nat) (st : Store) (j : Nat) :
    (openBy dst before (done ++ [l]) st j = true → openBy dst before done st j = true)
    ∧ (openBy dst before done st j = true → openBy dst before (done ++ [l]) st j = true ∨ (dst.get l []).any (Acc.inGranule st j) = true) := by
  simp only [openBy, List.any_eq_true, Bool.and_eq_true, Bool.not_eq_true', List.contains_eq_mem, decide_eq_false_iff_not, List.mem_append,
    List.mem_singleton, not_or]
  constructor
  · rintro ⟨k, hk, ⟨⟨hd, -⟩, hb⟩, hin⟩
    exact ⟨k, hk, ⟨hd, hb⟩, hin⟩
  · rintro ⟨k, hk, ⟨hd, hb⟩, hin⟩
    by_cases he : k.1 = l
    · refine .inr ?_
      subst he
      rwa [AMap.get, AMap.find_of_mem hn hk]
    · exact .inl ⟨k, hk, ⟨⟨hd, he⟩, hb⟩, hin⟩

theorem getLsbD_done (done : List Nat) (hdone : ∀ l ∈ done, l < 32) (m : W32) (i : Nat) :
    (done.foldl (fun m l => m ||| (1#32 <<< l)) m).getLsbD i = (done.contains i || m.getLsbD i) := by
  induction done generalizing m with
  | nil => simp
  | cons l done ih =>
    have hl := hdone l (List.mem_cons_self ..)
    rw [List.foldl_cons, ih (fun k hk => hdone k (List.mem_cons_of_mem _ hk)), List.contains_cons, BitVec.getLsbD_or,
      BitVec.getLsbD_shiftLeft]
    by_cases he : i = l
    · subst he
      simp [hl]
    · have hne : (i == l) = false := by simpa using he
      by_cases hlt : l < i
      · simp [hne, Nat.sub_ne_zero_of_lt hlt]
      · simp [hne, show i < l by omega]

/-- What the lanes that land together need: their elements are in place, within reach, and counted by the object. -/
structure gathsReady (s : State) (p : Pend) (ls : List Nat) (dst : AMap (List Acc)) (obj : Option (Store × Nat)) : Prop where
  fits  : gathsFits s obj (outsOf dst ls)
  reach : ∀ q ∈ outsOf dst ls, s.accReach p q = true
  outs  : ∀ q ∈ outsOf dst ls, q.store ≠ .phys
  home  : ∀ o, obj = some o → o.1 ≠ .phys ∧ elBytesSum (outsOf dst ls) ≤ (s.objAt o.1 o.2).pend
  reads : ∀ l ∈ ls, ∀ a ∈ (p.lanes.find l).getD [], a.store = .phys
  lanes : ∀ l ∈ ls, l < 32
  keys  : (AMap.keys dst).Nodup

theorem not_gathsPlaces_phys {s : State} {p : Pend} {ls : List Nat} {dst : AMap (List Acc)} {obj : Option (Store × Nat)}
    (h : gathsReady s p ls dst obj) : (∀ x, ¬ gathsPlaces obj (outsOf dst ls) (.byte .phys x))
      ∧ ∀ g, ¬ gathsPlaces obj (outsOf dst ls) (.psn .phys g) := by
  constructor
  · rintro x ((⟨r, l, hw⟩ | ⟨a, ha, ⟨n, hw, -⟩ | ⟨g, -, hw⟩⟩) | ⟨k, hw⟩ | ⟨q, -, a, hw, -⟩ | ⟨o, ho, a, hw, -⟩)
    · cases hw
    · exact h.outs a ha (Place.byte.inj hw).1.symm
    · cases hw
    · cases hw
    · cases hw
    · exact (h.home o ho).1 (Place.byte.inj hw).1.symm
  · rintro x ((⟨r, l, hw⟩ | ⟨a, ha, ⟨n, hw, -⟩ | ⟨g, -, hw⟩⟩) | ⟨k, hw⟩ | ⟨q, -, a, hw, -⟩ | ⟨o, ho, a, hw, -⟩)
    · cases hw
    · cases hw
    · exact h.outs a ha (Place.psn.inj hw).1.symm
    · cases hw
    · cases hw
    · cases hw

/-- What stands behind some lanes of GATHS. -/
structure gathsDone (s u : State) (p : Pend) (dst : AMap (List Acc)) (obj : Option (Store × Nat)) (done : List Nat) : Prop where
  els  : ∀ l ∈ done, ∀ q ∈ dst.get l [], u.readNat q.store q.addr q.z
      = (readFor (((p.lanes.find l).getD []).map (readAcc s)) q).val.toNat % 2 ^ (8 * q.z)
  obj  : ∀ o, obj = some o → u.objAt o.1 o.2 = (s.objAt o.1 o.2).counted (elBytesSum (outsOf dst done))
  full : ∀ k j, u.full (.core k) (16 * j) = (s.full (.core k) (16 * j)
      || (outsOf dst done).any (Acc.inGranule (.core k) j) && !openBy dst p.done done (.core k) j)

theorem gathsDone_nil (s : State) (p : Pend) (dst : AMap (List Acc)) (obj : Option (Store × Nat)) : gathsDone s s p dst obj [] :=
  ⟨by simp, fun o _ => rfl, by simp [outsOf]⟩

theorem gathsDone.move {s u v : State} {p : Pend} {dst : AMap (List Acc)} {obj : Option (Store × Nat)} {done : List Nat}
    (h : gathsDone s u p dst obj done) (hm : u.movesOnly v (landPlaces p [])) : gathsDone s v p dst obj done :=
  ⟨fun l hl q hq => (hm.readNat (by simp [landPlaces])).trans (h.els l hl q hq),
    fun o ho => (hm.objAt (by simp [landPlaces])).trans (h.obj o ho),
    fun k j => (hm.keeps (.full (.core k) (16 * j)) (by simp [landPlaces])).trans (h.full k j)⟩

/-- One lane of GATHS more. -/
theorem gathsDone.lane {s u : State} {p : Pend} {ls : List Nat} {dst : AMap (List Acc)} {obj : Option (Store × Nat)}
    (hready : gathsReady s p ls dst obj) {done rest : List Nat} {l : Nat} (he : ls = done ++ l :: rest)
    (hm : s.movesOnly u (fun z => landPlaces p [] z ∨ gathsPlaces obj (outsOf dst ls) z)) (h : gathsDone s u p dst obj done) :
    gathsDone s (u.landEls obj (((p.lanes.find l).getD []).map (readAcc s))
      ((dst.filter (fun k => k.1 != l && !(p.behind done).done.getLsbD k.1)).flatMap (·.2)) (dst.get l [])) p dst obj (done ++ [l]) := by
  have hsplit := outsOf_split (dst := dst) he
  have hfit : gathsFits u obj (outsOf dst ls) := by
    have hblk (b : Nat) : ¬ (landPlaces p [] (.blk b) ∨ gathsPlaces obj (outsOf dst ls) (.blk b)) := by
      rintro (hw | hw)
      · simp [landPlaces] at hw
      · exact gathsPlaces_not (by simp) (by simp) (by simp) (by simp) (by simp) hw
    exact ⟨fun q hq => isThere_of_keeps (hready.fits.there q hq) hm.keeps hblk, hready.fits.off,
      fun o ho => isThere_of_keeps (hready.fits.home o ho) hm.keeps hblk, hready.fits.apart, hready.fits.pos⟩
  have hown : List.Sublist (dst.get l []) (outsOf dst ls) := by
    rw [hsplit]
    exact (List.sublist_append_left _ _).trans (List.sublist_append_right _ _)
  have hels : gathsFits u obj (dst.get l []) := hfit.of_sublist hown
  refine ⟨fun k hk q hq => ?_, fun o ho => ?_, fun k j => ?_⟩
  · rcases List.mem_append.1 hk with hk | hk
    · have hqdone : q ∈ outsOf dst done := List.mem_flatMap.2 ⟨k, hk, hq⟩
      have hqall : q ∈ outsOf dst ls := by
        rw [hsplit]
        exact List.mem_append_left _ hqdone
      have hapart : ∀ b ∈ dst.get l [], q.overlaps b = false := by
        intro b hb
        have := hready.fits.apart
        rw [hsplit] at this
        exact (List.pairwise_append.1 this).2.2 q hqdone b (List.mem_append_left _ hb)
      rw [← h.els k hk q hq]
      exact (State.movesOnly_landEls u obj _ _ _).readNat (fun x hx hx' => not_gathsPlaces_byte (hready.fits.off q hqall) hapart hx hx')
    · obtain rfl := List.mem_singleton.1 hk
      exact State.readNat_landEls hels q hq
  · subst ho
    have hcount := (hready.home o rfl).2
    rw [hsplit, elBytesSum_append, elBytesSum_append] at hcount
    rw [outsOf_append, outsOf_singleton, elBytesSum_append]
    exact State.objAt_landEls hels (h.obj o rfl) (by omega)
  · have hdone : ∀ i ∈ done, i < 32 := fun i hi => hready.lanes i (by simp [he, hi])
    have hrest : ((dst.filter (fun k => k.1 != l && !(p.behind done).done.getLsbD k.1)).flatMap (·.2)).any (Acc.inGranule (.core k) j)
        = openBy dst p.done (done ++ [l]) (.core k) j := by
      rw [List.any_flatMap, List.any_filter, openBy]
      congr 1
      funext i
      simp only [Pend.behind, getLsbD_done done hdone]
      rw [Bool.eq_iff_iff]
      simp
      tauto
    obtain ⟨hless, hmore⟩ := openBy_step hready.keys p.done done l (.core k) j
    rw [State.full_landEls, hrest, h.full, outsOf_append, outsOf_singleton, List.any_append]
    revert hless hmore
    cases openBy dst p.done (done ++ [l]) (.core k) j <;> cases openBy dst p.done done (.core k) j
      <;> cases (dst.get l []).any (Acc.inGranule (.core k) j) <;> cases s.full (.core k) (16 * j) <;> simp

/-- GATHS (R126, R131): the lanes that name the element land it. -/
theorem gathsLands {s : State} {id lane : Nat} {p : Pend} {as : List Acc} {h : Thread} (hm : mayLand s id lane p as h) (hrec : noRecord s)
    (hgroup : s.groupOk p (p.sameElement lane) = true) {dst : AMap (List Acc)} {obj : Option (Store × Nat)} (hk : p.kind = .gaths dst obj)
    (hready : gathsReady s p (p.sameElement lane) dst obj) :
    ∃ t, exec (.turretLaneReply id lane) s = .next t ∧ lanesLeft s t p (p.sameElement lane)
      ∧ gathsDone s t p dst obj (p.sameElement lane)
      ∧ s.keeps t (fun w => landPlaces p [] w ∨ gathsPlaces obj (outsOf dst (p.sameElement lane)) w) := by
  have hcalm := calm_of_mayLand hm
  have hid := State.id_of_pendOf hm.1
  obtain ⟨hlane, hsub⟩ := p.sameElement_spec (AMap.mem_keys_of_find (State.find_of_landable hm.2.1))
  have hnot {w : Place} (hpsn : ∀ st g, w ≠ .psn st g) (hbyte : ∀ st x, w ≠ .byte st x) (hresv : ∀ r l, w ≠ .resv r l)
      (hobjs : ∀ k, w ≠ .objs k) (hfull : ∀ st a, w ≠ .full st a) := gathsPlaces_not (obj := obj) (els := outsOf dst (p.sameElement lane))
    hpsn hbyte hresv hobjs hfull
  obtain ⟨hleft, hmoves, hC⟩ := State.lanesLand hm (by rw [hk]; rfl) (step := fun s l => s.gathsLane id l)
    (w := gathsPlaces obj (outsOf dst (p.sameElement lane))) (C := fun done u => gathsDone s u p dst obj done)
    (hnot (by simp) (by simp) (by simp) (by simp) (by simp)) (fun k _ => hnot (by simp) (by simp) (by simp) (by simp) (by simp))
    (fun r l => hnot (by simp) (by simp) (by simp) (by simp) (by simp)) (gathsDone_nil s p dst obj) (by
      intro done l rest u he hop hmoves hC
      have hl : l ∈ p.sameElement lane := by simp [he]
      have hnew : l ∉ done := fun hin => by
        have hnodup := hsub.nodup hm.2.2.2.2.2.2.1
        rw [he] at hnodup
        exact (List.nodup_append.1 hnodup).2.2 l hin l (List.mem_cons_self ..) rfl
      obtain ⟨accs, hfind⟩ := Option.isSome_iff_exists.1 (AMap.find_of_mem_keys (hsub.subset hl))
      have hmine : ∀ q ∈ dst.get l [], q ∈ outsOf dst (p.sameElement lane) := fun q hq => List.mem_flatMap.2 ⟨l, hl, hq⟩
      obtain ⟨hbyte, hpsn⟩ := not_gathsPlaces_phys hready
      have hread : accs.map (readAcc u) = accs.map (readAcc s) := by
        refine List.map_congr_left (fun a ha => ?_)
        have hst : a.store = .phys := hready.reads l hl a (by rw [hfind]; exact ha)
        unfold readAcc
        rw [hst, hmoves.readNat (fun x _ _ => by simp [landPlaces, hbyte]), hmoves.poisoned (fun g _ => by simp [landPlaces, hpsn])]
      have hrun := State.gathsLane_calm (hmoves.calm hcalm) hop (p := p.behind done) hk ((p.find_behind hnew).trans hfind)
        (fun q hq => (hmoves.accReach (p.behind done) q).trans (hready.reach q (hmine q hq)))
      rw [hread] at hrun
      have hnext := hC.lane hready he hmoves
      rw [hfind, Option.getD_some] at hnext
      exact ⟨_, hrun, (State.movesOnly_landEls u obj _ _ _).mono (fun w => gathsPlaces_mono hmine), fun t ht => hnext.move ht⟩)
  refine ⟨_, exec_turretLaneReply hm ?_, hleft, hC, hmoves.keeps⟩
  rw [State.turretLane, hk]
  simp only [hgroup, if_true, hid]
  rw [State.turretLog_of_noRecord hrec hmoves (fun g hw => hw.elim (by simp [landPlaces])
    (hnot (by simp) (by simp) (by simp) (by simp) (by simp)))]

end Sys2Proof.Machine
end

section
/-! SUPPORT. A lane's step of HACC (R137, R138; O19). -/
namespace Sys2Proof.Machine

/-! ## The slot of a key (R137) -/

/-- The first value that a list gives is that of the first element that gives one. -/
theorem findSome_eq_map_find {α β : Type} {f : α → Option β} {q : α → Bool} {g : α → β}
    (h : ∀ x, f x = if q x = true then some (g x) else none) (l : List α) : l.findSome? f = (l.find? q).map g := by
  induction l with
  | nil => rfl
  | cons x l ih =>
    cases hx : q x <;> simp [h, hx, ih]

/-- The address of the slot that a key tries as its `i`-th. -/
def HTable.slot (t : HTable) (k i : Nat) : Nat := t.base + 8 * ((haccHash k t.n + i) % t.n)

theorem HTable.slot_eq {t : HTable} {j : Nat} (hn : t.n = 2 ^ j) (k i : Nat) :
    t.slot k i = t.base + 8 * (((if j = 0 then 0 else k * 0x9E3779B9 % 2 ^ 32 / 2 ^ (32 - j)) + i) % 2 ^ j) := by
  rw [HTable.slot, haccHash, hn, Nat.log2_two_pow]

/-- The slot found is the first that holds the key or nothing. -/
theorem haccSlot_eq (s : State) (t : HTable) {k : Nat} (hk : k ≠ 0xFFFFFFFF) :
    haccSlot s t k = ((List.range (min 8 t.n)).find? (fun i => s.readNat t.store (t.slot k i) 4 == k
      || s.readNat t.store (t.slot k i) 4 == 0xFFFFFFFF)).map (fun i => (t.slot k i, !(s.readNat t.store (t.slot k i) 4 == k))) := by
  rw [haccSlot, if_neg hk]
  refine findSome_eq_map_find (fun i => ?_) _
  show (if s.readNat t.store (t.slot k i) 4 = k then some (t.slot k i, false)
    else if s.readNat t.store (t.slot k i) 4 = 0xFFFFFFFF then some (t.slot k i, true) else none) = _
  by_cases hkey : s.readNat t.store (t.slot k i) 4 = k
  · simp [hkey]
  · by_cases hempty : s.readNat t.store (t.slot k i) 4 = 0xFFFFFFFF
    · simp [hempty, Ne.symm hk]
    · simp [hkey, hempty]

/-! ## The table updated -/

theorem State.haccPut_calm {s : State} (h : s.calm) (blk : Nat) {t : HTable} (hobj : s.objs t.store = []) (a v : Nat) :
    s.haccPut blk t a v = s.writeEl t.store a 4 (BitVec.ofNat 64 v) false :=
  State.storeAcc_calm (a := ⟨0, t.store, a, 4, BitVec.ofNat 64 v, 0#64, false⟩) h blk (by simp [hobj])

/-- The places that a lane's step moves in its slot. -/
def slotPlaces (t : HTable) (a : Nat) (w : Place) : Prop :=
  (∃ r l, w = .resv r l) ∨ (∃ g, w = .psn t.store g) ∨ ∃ b, w = .byte t.store b ∧ a ≤ b ∧ b < a + 8

theorem State.movesOnly_slot (s : State) (t : HTable) {a x : Nat} (hx : a ≤ x) (hx' : x + 4 ≤ a + 8) (v : W64) :
    s.movesOnly (s.writeEl t.store x 4 v false) (slotPlaces t a) :=
  s.movesOnly_writeEl _ _ _ _ _ (fun y h h' => .inr (.inr ⟨y, rfl, by omega, by omega⟩)) (fun g _ => .inr (.inl ⟨g, rfl⟩))
    (fun r l => .inl ⟨r, l, rfl⟩)

/-- A key and a value put into a slot, or a value alone where the slot holds the key. -/
def State.slotPut (s : State) (t : HTable) (a : Nat) (new : Bool) (k v : Nat) : State :=
  (if new then s.writeEl t.store a 4 (BitVec.ofNat 64 k) false else s).writeEl t.store (a + 4) 4 (BitVec.ofNat 64 v) false

/-- What stands in the slot behind it. -/
theorem State.slotPut_spec {s : State} {t : HTable} (hthere : isThere s t.store) {a k v : Nat} {new : Bool} (hk : k < 2 ^ 32) (hv : v < 2 ^ 32)
    (hold : new = false → s.readNat t.store a 4 = k) :
    (s.slotPut t a new k v).readNat t.store a 4 = k ∧ (s.slotPut t a new k v).readNat t.store (a + 4) 4 = v
      ∧ s.movesOnly (s.slotPut t a new k v) (slotPlaces t a) := by
  have hnum {n : Nat} (hn : n < 2 ^ 32) : (BitVec.ofNat 64 n).toNat % 2 ^ (8 * 4) = n := by
    rw [BitVec.toNat_ofNat]
    omega
  have hfirst : s.movesOnly (if new then s.writeEl t.store a 4 (BitVec.ofNat 64 k) false else s) (slotPlaces t a) := by
    split
    · exact s.movesOnly_slot t (le_refl a) (by omega) _
    · exact s.movesOnly_refl _
  have hkey : (if new then s.writeEl t.store a 4 (BitVec.ofNat 64 k) false else s).readNat t.store a 4 = k := by
    cases new with
    | true => exact (State.readNat_writeEl hthere a 4 _ _).trans (hnum hk)
    | false => exact hold rfl
  have hthere' := isThere_of_keeps hthere hfirst.keeps (by simp [slotPlaces])
  refine ⟨?_, (State.readNat_writeEl hthere' (a + 4) 4 _ _).trans (hnum hv),
    hfirst.trans (State.movesOnly_slot _ t (Nat.le_add_right a 4) (by omega) _)⟩
  refine ((State.movesOnly_writeEl _ t.store (a + 4) 4 (BitVec.ofNat 64 v) false
    (w := fun w => (∃ r l, w = .resv r l) ∨ (∃ g, w = .psn t.store g) ∨ ∃ b, w = .byte t.store b ∧ a + 4 ≤ b)
    (fun y h _ => .inr (.inr ⟨y, rfl, h⟩)) (fun g _ => .inr (.inl ⟨g, rfl⟩)) (fun r l => .inl ⟨r, l, rfl⟩)).readNat ?_).trans hkey
  rintro x - hx (⟨r, l, hw⟩ | ⟨g, hw⟩ | ⟨y, hw, hy⟩)
  · cases hw
  · cases hw
  · obtain ⟨-, rfl⟩ := Place.byte.inj hw
    omega

/-- The sum of two 32-bit values in a format of HACC. -/
theorem tagAdd_lt {f : Tag} (hf : f = .i32 ∨ f = .n32 ∨ f = .raw ∨ f = .f32) (x y : Nat) : tagAdd f x y < 2 ^ 32
    ∧ tagAdd f x y = if f = .f32 then ((fAdd .rne (Tag.f32.value false x) (Tag.f32.value false y)).pack .f32 .rne).bits
        else (x + y) % 2 ^ 32 := by
  rcases hf with rfl | rfl | rfl | rfl
  case inr.inr.inr => exact ⟨pack_f32_lt .rne false false _, rfl⟩
  all_goals exact ⟨Nat.mod_lt _ (by decide), rfl⟩

/-- A lane's step that finds no slot (R137). -/
theorem State.haccLane_none {s : State} {t : HTable} {a : Acc} (h : haccSlot s t (a.cmp.toNat % 2 ^ 32) = none) (blk : Nat) (f : Tag) :
    s.haccLane blk t f [a] = (s, false) := by
  unfold State.haccLane
  simp only [List.map_cons, List.headD_cons, h]

/-- A lane's step that finds a slot. -/
theorem State.haccLane_some {s : State} (hs : s.calm) {t : HTable} (hobj : s.objs t.store = []) {a : Acc} (ha : a.k = 0) {x : Nat} {new : Bool}
    (h : haccSlot s t (a.cmp.toNat % 2 ^ 32) = some (x, new)) (blk : Nat) (f : Tag) :
    s.haccLane blk t f [a] = (s.slotPut t x new (a.cmp.toNat % 2 ^ 32)
      (if new then a.val.toNat % 2 ^ 32 else tagAdd f (s.readNat t.store (x + 4) 4) (a.val.toNat % 2 ^ 32)), true) := by
  unfold State.haccLane
  simp only [List.map_cons, List.headD_cons, h, List.foldl_cons, List.foldl_nil, ha, Nat.zero_mul, Nat.add_zero, State.slotPut,
    State.haccPut_calm hs blk hobj]
  cases new with
  | true =>
    have hmoves := s.movesOnly_slot t (le_refl x) (by omega) (BitVec.ofNat 64 (a.cmp.toNat % 2 ^ 32))
    simp only [if_true]
    rw [State.haccPut_calm (hmoves.calm hs) blk (t := t) ((State.sameObjs_writeEl s _ _ _ _ _ _).trans hobj)]
  | false =>
    simp only [Bool.false_eq_true, if_false]
    rw [State.haccPut_calm hs blk hobj]

/-! ## The step of a lane in flight -/

theorem lanes_eq_singleton_iff {p : Pend} {lane : Nat} {as : List Acc} (h : p.lanes.find lane = some as) :
    p.lanes.length = 1 ↔ p.lanes = [(lane, as)] := by
  constructor
  · intro hlen
    obtain ⟨⟨k, v⟩, hl⟩ := List.length_eq_one_iff.1 hlen
    rw [hl] at h ⊢
    simp only [AMap.find] at h
    split at h
    · rename_i hk
      cases h
      rw [hk]
    · cases h
  · intro hl
    rw [hl]
    rfl

theorem State.movesOnly_putS_s (s : State) (r : CohRef) (d : Sys2Proof.SNum) (v : W64) :
    s.movesOnly (s.putS r (.s d) v) (fun w => w = .s r d.toNat) := by
  refine State.movesOnly_updCoh (fun c _ z hz => ?_)
  cases z with
  | s q n =>
    rintro rfl
    have hn : n ≠ d.toNat := fun he => hz (by rw [he])
    simp [Cohort.sreg_setS, hn]
  | _ => simp [cohSame, Cohort.setS, Cohort.thread, Cohort.kreg, Cohort.ctr, Cohort.path, Cohort.counts, Cohort.bare]

/-- An operation with another state of its kind. -/
def Pend.stepped (p : Pend) (k : PKind) : Pend := { p with kind := k }

/-- The last lane's step writes the mask (R138). -/
def State.writeMask (s : State) (p : Pend) (d : Sys2Proof.SNum) (mask : W32) : State :=
  if p.lanes.length = 1 then s.putS p.ref (.s d) (mask.setWidth 64) else s

theorem State.movesOnly_writeMask {s : State} {p : Pend} {lane : Nat} {as : List Acc} (h : p.lanes.find lane = some as)
    (d : Sys2Proof.SNum) (mask : W32) :
    s.movesOnly (s.writeMask p d mask) (fun z => p.lanes = [(lane, as)] ∧ z = .s p.ref d.toNat) := by
  unfold State.writeMask
  split
  · rename_i hlen
    exact (s.movesOnly_putS_s p.ref d _).mono (fun z hz => ⟨(lanes_eq_singleton_iff h).1 hlen, hz⟩)
  · exact State.movesOnly_refl _ _

theorem State.sAt_writeMask {s : State} {p : Pend} {lane : Nat} {as : List Acc} (h : p.lanes = [(lane, as)]) {l : Nat}
    (hthr : (s.thr p.ref l).isSome) (d : Sys2Proof.SNum) (mask : W32) : (s.writeMask p d mask).sAt p.ref d.toNat = mask.setWidth 64 := by
  obtain ⟨-, c, -, -, -, hc, -⟩ := State.coh_of_thr hthr
  rw [State.writeMask, if_pos (by rw [h]; rfl)]
  simp [State.sAt, State.putS, State.coh_updCoh, hc, Cohort.sreg_setS]

/-- The step of a lane of HACC: its step in the table, the mask, and the lane is done. -/
theorem State.haccStep_eq {s s1 : State} {lane : Nat} {p : Pend} {as : List Acc} (hop : s.pendOf p.id = some p)
    (hfind : p.lanes.find lane = some as) {t : HTable} {tags : AMap Tag} {mask : W32} {d : Sys2Proof.SNum} {f : Tag}
    (hk : p.kind = .hacc t tags mask) (hd : p.dst = some (.s d)) (hf : tags.find lane = some f) {placed : Bool}
    (hlane : s.haccLane p.blk t f as = (s1, placed)) (hcalm : s1.calm) :
    let mask' := if placed then mask else mask ||| (1#32 <<< lane)
    s.haccStep p.id lane = ((s1.setPend (p.stepped (.hacc t tags mask'))).writeMask p d mask').laneOff p.id lane := by
  intro mask'
  have hq : ({ p with kind := .hacc t tags mask', dst := some (.s d) } : Pend) = p.stepped (.hacc t tags mask') := by
    rw [Pend.stepped, ← hd]
  have hlog : (((s1.setPend (p.stepped (.hacc t tags mask'))).putS p.ref (.s d) (mask'.setWidth 64))).calm :=
    ((s1.movesOnly_setPend _ (w := fun _ => True) trivial).trans ((State.movesOnly_putS_s _ p.ref d _).mono fun _ _ => trivial)).calm hcalm
  unfold State.haccStep State.writeMask
  simp only [hop, hk, AMap.get, hf, hfind, Option.getD_some, hlane, hd]
  rw [← hq]
  rw [← hq] at hlog
  refine congrArg (fun u => State.laneOff u p.id lane) ?_
  split
  · exact State.logRec_calm hlog ..
  · rfl

/-- What the lane's step in the table leaves is kept behind the operation: it stands without the lane, and behind the last one its mask
(R138). -/
theorem State.haccStep_of_haccLane {s s1 : State} {id lane : Nat} {p : Pend} {as : List Acc} {h : Thread} (hm : mayLand s id lane p as h)
    {t : HTable} {tags : AMap Tag} {mask : W32} {d : Sys2Proof.SNum} {f : Tag} (hk : p.kind = .hacc t tags mask) (hd : p.dst = some (.s d))
    (hf : tags.find lane = some f) {placed : Bool} (hlane : s.haccLane p.blk t f as = (s1, placed)) {w : Place → Prop} (hmoves : s.movesOnly s1 w)
    (hpend : ¬ w .pend) (hctr : ∀ k, ¬ w (.ctr p.ref k)) (hident : ∀ r l, ¬ w (.ident r l)) :
    lanesLeft s (s.haccStep id lane) p [lane]
      ∧ (p.lanes = [(lane, as)] → (s.haccStep id lane).sAt p.ref d.toNat = (if placed then mask else mask ||| (1#32 <<< lane)).setWidth 64)
      ∧ s1.movesOnly (s.haccStep id lane) (fun z => landPlaces { p with dst := none } [] z ∨ (p.lanes = [(lane, as)] ∧ z = .s p.ref d.toNat)) := by
  have hcalm := hmoves.calm (calm_of_mayLand hm)
  obtain ⟨hop, hland, hthr, -, -, hsmp, -⟩ := hm
  obtain rfl := State.id_of_pendOf hop
  have hfind := State.find_of_landable hland
  rw [State.haccStep_eq hop hfind hk hd hf hlane hcalm]
  generalize (if placed then mask else mask ||| (1#32 <<< lane)) = mask'
  have hset : s1.movesOnly (s1.setPend (p.stepped (.hacc t tags mask'))) (fun z => z = .pend) := s1.movesOnly_setPend _ rfl
  have hput := State.movesOnly_writeMask (s := s1.setPend (p.stepped (.hacc t tags mask'))) hfind d mask'
  have hthr1 : ((s1.setPend (p.stepped (.hacc t tags mask'))).thr p.ref lane).isSome := by
    rw [hset.thr (by simp), hmoves.thr (hident _ _), hthr]
    rfl
  have hmask (hl : p.lanes = [(lane, as)]) := State.sAt_writeMask hl hthr1 d mask'
  have hop1 : (s1.setPend (p.stepped (.hacc t tags mask'))).pendOf p.id = some (p.stepped (.hacc t tags mask')) :=
    State.pendOf_setPend (p := p.stepped (.hacc t tags mask')) (by rw [hmoves.pendOf hpend]; exact hop)
  have hctr2 (k : Nat) : ((s1.setPend (p.stepped (.hacc t tags mask'))).writeMask p d mask').ctrAt p.ref k = s.ctrAt p.ref k :=
    ((hput.keeps (.ctr p.ref k) (by simp)).trans (hset.keeps (.ctr p.ref k) (by simp))).trans (hmoves.keeps (.ctr p.ref k) (hctr k))
  generalize (s1.setPend (p.stepped (.hacc t tags mask'))).writeMask p d mask' = s2 at *
  have hop2 : s2.pendOf p.id = some (p.stepped (.hacc t tags mask')) := (hput.pendOf (by simp) p.id).trans hop1
  have hnone : ((p.stepped (.hacc t tags mask')).behind []).lanes ≠ [] := by
    rw [Pend.behind_nil]
    intro he
    have hnil : p.lanes = [] := he
    rw [hnil] at hfind
    cases hfind
  have hthr2 : (s2.thr p.ref lane).isSome := (hput.thr (by simp)).trans hthr1
  obtain ⟨hstands, hoff⟩ := State.laneOff_behind (p := p.stepped (.hacc t tags mask')) (l := lane) (opBehind_nil hop2) hnone hsmp rfl hthr2
  have hleft : lanesLeft s2 (s2.laneOff p.id lane) (p.stepped (.hacc t tags mask')) [lane] := lanesLeft_of_opBehind (by simp) hstands
  refine ⟨?_, fun hl => ?_, ?_⟩
  · have hctrq (k : Nat) : s2.ctrAt (p.stepped (.hacc t tags mask')).ref k = s.ctrAt p.ref k := hctr2 k
    unfold lanesLeft at hleft ⊢
    simp only [hctrq] at hleft
    exact hleft
  · exact (hoff.keeps (.s p.ref d.toNat) (by simp [landPlaces])).trans (hmask hl)
  · refine ((hset.mono fun z hz => .inl (.inl hz)).trans (hput.mono fun z hz => .inr hz)).trans (hoff.mono fun z hz => .inl ?_)
    have hz' := landPlaces_nil.1 hz
    exact landPlaces_nil.2 hz'

end Sys2Proof.Machine
end

section
/-! SUPPORT. The Turret's replies, scatters and steps together (O19). -/
namespace Sys2Proof.Machine

/-- HACC (R137, R138): the event of a lane. -/
theorem exec_haccStep {s : State} {id lane : Nat} {p : Pend} {as : List Acc} {h : Thread} (hm : mayLand s id lane p as h) (hrec : noRecord s)
    (hord : s.ordOk p lane as = true) {t : HTable} {tags : AMap Tag} {mask : W32} (hk : p.kind = .hacc t tags mask) {w : Place → Prop}
    (hmoves : s.movesOnly (s.haccStep id lane) w) (hw : ∀ g, ¬ w (.grid g)) :
    exec (.turretLaneReply id lane) s = .next (s.haccStep id lane) := by
  have hid := State.id_of_pendOf hm.1
  refine exec_turretLaneReply hm ?_
  rw [State.turretLane, hk]
  simp only [hord, if_true, hid]
  rw [State.turretLog_of_noRecord hrec hmoves hw]

theorem haccTakesItsSteps : haccTakesItsStepsRule := by
  intro s id lane p a h t tags mask d f j hm hrec hord hk hd hf htag ha hn hj hlane hthere hobj k v hash slot key hit
  have hcalm := calm_of_mayLand hm
  have hslot : slot = t.slot k := funext (fun i => (HTable.slot_eq hn k i).symm)
  have hhit : hit = (List.range (min 8 t.n)).find? (fun i => s.readNat t.store (t.slot k i) 4 == k
      || s.readNat t.store (t.slot k i) 4 == 0xFFFFFFFF) := by
    rw [hn, ← hslot]
  have hfound : haccSlot s t k = (if k = 0xFFFFFFFF then none else hit).map (fun i => (slot i, !(key i == k))) := by
    by_cases hkey : k = 0xFFFFFFFF
    · simp [haccSlot, hkey]
    · rw [haccSlot_eq s t hkey, if_neg hkey, hhit, ← hslot]
  clear_value hit slot
  cases hi : (if k = 0xFFFFFFFF then none else hit) with
  | none =>
    rw [hi, Option.map_none] at hfound
    obtain ⟨hleft, hmask, hmoves⟩ := State.haccStep_of_haccLane hm hk hd hf (State.haccLane_none hfound p.blk f)
      (s.movesOnly_refl (fun _ => False)) not_false (fun _ => not_false) (fun _ _ => not_false)
    exact ⟨_, exec_haccStep hm hrec hord hk hmoves (by simp [landPlaces]), hleft, hmask, hmoves.keeps⟩
  | some i =>
    rw [hi, Option.map_some] at hfound
    have hsum := (tagAdd_lt htag (s.readNat t.store (slot i + 4) 4) v).2
    have hval : (if (!(key i == k)) = true then v else tagAdd f (s.readNat t.store (slot i + 4) 4) v) < 2 ^ 32 := by
      split
      · exact Nat.mod_lt _ (by decide)
      · exact (tagAdd_lt htag _ _).1
    obtain ⟨hkey, hput, hslots⟩ := State.slotPut_spec (s := s) (new := !(key i == k)) hthere (a := slot i)
      (show k < 2 ^ 32 from Nat.mod_lt _ (by decide)) hval (by simp [key])
    obtain ⟨hleft, hmask, hmoves⟩ := State.haccStep_of_haccLane hm hk hd hf (State.haccLane_some hcalm hobj ha hfound p.blk f)
      hslots (by simp [slotPlaces]) (by simp [slotPlaces]) (by simp [slotPlaces])
    have hall := (hslots.mono (w := fun w => (landPlaces { p with dst := none } [] w ∨ (p.lanes = [(lane, [a])] ∧ w = .s p.ref d.toNat))
      ∨ slotPlaces t (slot i) w) fun _ => .inr).trans (hmoves.mono fun _ => .inl)
    refine ⟨_, exec_haccStep hm hrec hord hk hall (by simp [landPlaces, slotPlaces]), hleft, ?_, ?_, hmask, hall.keeps⟩
    · exact (hmoves.readNat (by simp [landPlaces])).trans hkey
    · refine (hmoves.readNat (by simp [landPlaces])).trans (hput.trans ?_)
      by_cases he : key i = k
      · simp [he, hsum]
      · simp [he]

theorem mem_granules_of_byte {a n x : Nat} (g : Nat) (hx : a ≤ x) (hx' : x < a + n) : x / g ∈ granules g a n := by
  have hlow : a / g ≤ x / g := Nat.div_le_div_right hx
  have hhigh : x / g ≤ (a + n - 1) / g := Nat.div_le_div_right (by omega)
  rw [granules, if_neg (by omega)]
  exact List.mem_map.2 ⟨x / g - a / g, List.mem_range.2 (by omega), by omega⟩

/-- An element outside the granule of an object is outside the object. -/
theorem offObject_of_granules {obj : Option (Store × Nat)} {q : Acc} (hal : ∀ o, obj = some o → o.2 % 16 = 0)
    (h : ∀ o, obj = some o → ∀ g ∈ granules 16 q.addr q.z, (q.store, 16 * g) ≠ o) : offObject obj q := by
  rintro o ho x hx hx' ⟨hst, hlow, hhigh⟩
  have halign := hal o ho
  refine h o ho (x / 16) (mem_granules_of_byte 16 hx hx') (Prod.ext hst ?_)
  show 16 * (x / 16) = o.2
  omega

/-- What GATHS read for an element is what its access reads. -/
theorem readFor_of_mem {s : State} {as : List Acc} (hn : (as.map (·.k)).Nodup) {a q : Acc} (ha : a ∈ as) (hk : a.k = q.k) (hz : a.z ≠ 0) :
    (readFor (as.map (readAcc s)) q).val = BitVec.ofNat 64 (s.readNat a.store a.addr a.z) := by
  have hfind := find_k_of_nodup (as := as.map (readAcc s)) (by simpa [List.map_map, Function.comp_def] using hn)
    (List.mem_map_of_mem ha) (k := q.k) (by simpa using hk)
  simp [readFor, hfind, readAcc, hz]

theorem leNat_lt (bs : List Byte) : leNat bs < 256 ^ bs.length := by
  induction bs with
  | nil => exact Nat.one_pos
  | cons b bs ih =>
    have hb := b.isLt
    have hcons : leNat (b :: bs) = b.toNat + 256 * leNat bs := rfl
    rw [hcons, List.length_cons, pow_succ]
    omega

theorem State.readNat_lt (s : State) (st : Store) (a n : Nat) : s.readNat st a n < 2 ^ (8 * n) := by
  have h := leNat_lt ((s.mem st).readN a n)
  have hlen : ((s.mem st).readN a n).length = n := by simp [Memory.readN]
  rw [hlen] at h
  rw [Nat.pow_mul]
  exact h

theorem turretReadsLand : turretReadsLandRule := by
  intro s id lane p as h hm hrec ls accs run hgroup hlanes
  refine ⟨fun hk => ?_, fun d hk hd => ?_, ?_⟩
  · exact gathLands hm hrec hgroup (fun l hl => (hlanes l hl).2) hk
  · obtain ⟨t, hrun, hleft, hkeep, hregs⟩ := ldsplLands hm hrec hgroup (fun l hl => (hlanes l hl).2.1) hk hd
    refine ⟨t, hrun, hleft, hkeep, fun l hl a ha hak hz => ?_⟩
    obtain ⟨T, old, hreg⟩ := hregs l hl
    exact ldsplLands_elements hreg (hlanes l hl).2.2 ha hak hz
  · intro dst obj hk hkeys out outs sum hsum hapart houts hobj haccs
    obtain ⟨-, hsub⟩ := p.sameElement_spec (AMap.mem_keys_of_find (State.find_of_landable hm.2.1))
    have hready : gathsReady s p ls dst obj := {
      fits := {
        there := fun q hq => (houts q hq).1
        off := fun q hq => offObject_of_granules (fun o ho => (hobj o ho).2.2.1) (houts q hq).2.2.2.2
        home := fun o ho => (hobj o ho).1
        apart := outsOf_apart hapart (hsub.nodup hm.2.2.2.2.2.2.1)
        pos := fun q hq => by
          obtain ⟨-, -, hz, -⟩ := houts q hq
          omega }
      reach := fun q hq => (houts q hq).2.2.2.1
      outs := fun q hq => (houts q hq).2.1
      home := fun o ho => ⟨(hobj o ho).2.1, (hobj o ho).2.2.2⟩
      reads := fun l hl a ha => ((haccs l hl).1 a ha).1
      lanes := fun l hl => (hlanes l hl).1
      keys := hkeys }
    obtain ⟨t, hrun, hleft, hdone, hkeep⟩ := gathsLands hm hrec hgroup hk hready
    refine ⟨t, hrun, hleft, fun l hl q hq a ha hak => ?_, fun o ho => ?_, fun q hq k hst g hg => ?_, hkeep⟩
    · have hz : a.z = q.z := by
        have hpair : (q.k, q.z) ∈ (accs l).map (fun a => (a.k, a.z)) := by
          rw [← (haccs l hl).2]
          exact List.mem_map_of_mem (f := fun q : Acc => (q.k, q.z)) hq
        obtain ⟨b, hb, he⟩ := List.mem_map.1 hpair
        have hbk : b.k = q.k := congrArg (·.1) he
        have hbz : b.z = q.z := congrArg (·.2) he
        have hfa := find_k_of_nodup (hlanes l hl).2.2 ha hak
        rw [find_k_of_nodup (hlanes l hl).2.2 hb hbk] at hfa
        exact (Option.some.inj hfa) ▸ hbz
      obtain ⟨-, -, hqz, -⟩ := houts q (List.mem_flatMap.2 ⟨l, hl, hq⟩)
      have hlt := s.readNat_lt a.store a.addr a.z
      rw [hdone.els l hl q hq, readFor_of_mem (hlanes l hl).2.2 ha hak ((haccs l hl).1 a ha).2.ne', BitVec.toNat_ofNat]
      rw [hz] at hlt ⊢
      have hle : 2 ^ (8 * q.z) ≤ 2 ^ 64 := Nat.pow_le_pow_right (by decide) (by omega)
      rw [Nat.mod_eq_of_lt (lt_of_lt_of_le hlt hle), Nat.mod_eq_of_lt hlt]
    · rw [hdone.obj o ho, Obj.counted, if_neg (show elBytesSum (outsOf dst ls) ≠ 0 from hsum.ne')]
      exact objStep_step _
    · have hany : (outsOf dst ls).any (Acc.inGranule q.store g) = true :=
        List.any_eq_true.2 ⟨q, hq, by simp [Acc.inGranule, hg]⟩
      have hfull := hdone.full k g
      rw [← hst, hany, Bool.true_and] at hfull
      exact hfull.trans (Bool.or_comm _ _)

/-- Settles O19: the reads by `turretReadsLand`, the scatters by `scattersArePerformed`, HACC's steps by `haccTakesItsSteps`. -/
theorem turretOperationsRun : Obligations.TurretOperationsRun :=
  ⟨turretReadsLand, scattersArePerformed, haccTakesItsSteps⟩

end Sys2Proof.Machine
end

section
/-! SUPPORT. Stage 1 of the Turret words (R127, R128; O18). -/
namespace Sys2Proof.Machine

/-! ## Stage 1 (R127, R128) -/

/-- A lane that stage 1 lets pass: no poison, aligned to its element. -/
structure TLane.fine (t : TLane) : Prop where
  clean   : t.psn = false
  aligned : t.a.toNat % t.z = 0

theorem okLanes_some (ls : List Nat) (L : Nat → TLane) : okLanes (ls.map (fun l => (l, some (L l)))) = ls.map (fun l => (l, L l)) := by
  simp [okLanes, List.filterMap_map]

theorem lanesWhere_map_false {α : Type} (ls : List Nat) (g : Nat → α) {f : Nat → α → Bool} (h : ∀ l ∈ ls, f l (g l) = false) :
    lanesWhere (ls.map (fun l => (l, g l))) f = 0#32 := by
  have hnil : (ls.map (fun l => (l, g l))).filter (fun q => f q.1 q.2) = [] := by
    refine List.filter_eq_nil_iff.2 (fun q hq => ?_)
    obtain ⟨l, hl, rfl⟩ := List.mem_map.1 hq
    simp [h l hl]
  rw [lanesWhere, hnil]
  rfl

/-- Lanes that all pass leave the checks of the word itself. -/
theorem stage1_passes {ls : List Nat} {L : Nat → TLane} (h : ∀ l ∈ ls, (L l).fine) (sp : Option Fz) :
    stage1 (ls.map (fun l => (l, some (L l)))) 0#32 sp = sp := by
  unfold stage1
  simp only [okLanes_some]
  rw [lanesWhere_map_false ls (fun l => some (L l)) (fun _ _ => rfl), lanesWhere_map_false ls L (fun l hl => (h l hl).clean),
    lanesWhere_map_false ls L (fun l hl => by simp [(h l hl).aligned])]
  simp

/-! ## The lanes of a word -/

/-- An accepted index gives the lane its address. -/
theorem turretAddr_of_idxAddr {s : State} {x : Ctx} {c : Ctl} {mode : IdxMode} {z : Nat} {a b : Src} {l : Nat} {A : W64}
    (h : idxAddr s x c mode z a b l A) : turretAddr x s c.lit mode z a b l = some (A, false) := by
  obtain ⟨hok, hpsn, hadr⟩ := h
  cases mode with
  | a64 =>
    obtain ⟨hpair, hadr⟩ := hadr
    have hok : idxOk (x.el s.clk c.lit true l b) = true := hok
    have hpsn : (x.el s.clk c.lit true l b).psn = false := hpsn
    have hadr : A = x.sca s.clk c.lit a + (x.el s.clk c.lit true l b).val := hadr
    have hhi : ∀ n, b = .v n → idxOk (x.el s.clk c.lit false l (.v (n + 1#8))) = true := hpair
    rw [hadr]
    cases b with
    | v n => simp [turretAddr, hok, hhi n rfl, hpsn]
    | _ => simp [turretAddr, hok, hpsn]
  | sx =>
    have hok : idxOk (x.el s.clk c.lit false l b) = true := hok
    have hpsn : (x.el s.clk c.lit false l b).psn = false := hpsn
    have hadr : A = x.sca s.clk c.lit a + ((x.el s.clk c.lit false l b).val.setWidth 32).signExtend 64 * BitVec.ofNat 64 z := hadr
    rw [hadr]
    simp [turretAddr, hok, hpsn]
  | uns =>
    have hok : idxOk (x.el s.clk c.lit false l b) = true := hok
    have hpsn : (x.el s.clk c.lit false l b).psn = false := hpsn
    have hadr : A = x.sca s.clk c.lit a + BitVec.ofNat 64 ((x.el s.clk c.lit false l b).val.toNat % 2 ^ 32) * BitVec.ofNat 64 z := hadr
    have hval (v : W64) : BitVec.ofNat 64 (v.toNat % 2 ^ 32) = (v.setWidth 32).setWidth 64 := by
      refine BitVec.eq_of_toNat_eq ?_
      simp only [BitVec.toNat_setWidth, BitVec.toNat_ofNat]
    rw [hadr, hval]
    simp [turretAddr, hok, hpsn]

theorem readTLane_of_idxAddr {s : State} {x : Ctx} {c : Ctl} {mode : IdxMode} {z : Nat} {a b : Src} {l : Nat} {A : W64}
    (h : idxAddr s x c mode z a b l A) : readTLane x s c.lit mode z a b l = some ⟨A, z, false, 0#64, .raw, [], 0#64⟩ := by
  rw [readTLane, turretAddr_of_idxAddr h]
  rfl

/-- A value without poison has none among fewer tangents. -/
theorem El.poisoned_of_subset {e : El} {ks js : List Nat} (h : e.poisoned ks = false) (hsub : js ⊆ ks) : e.poisoned js = false := by
  simp only [El.poisoned, Bool.or_eq_false_iff, El.tpoisoned, List.any_eq_false] at h ⊢
  exact ⟨h.1, fun k hk => h.2 k (hsub hk)⟩

/-- The size of the value that a lane stores. -/
def valSize (s : State) (x : Ctx) (c : Ctl) (l : Nat) (v : Src) : Nat := if (x.rd s c l v).tag = some .f64 then 8 else 4

/-- The value that a lane of SCAT or SCATA stores is read, without poison. -/
def readsValue (s : State) (x : Ctx) (c : Ctl) (l : Nat) (v : Src) (e : El) : Prop :=
  (if valSize s x c l v = 8 then x.elFmt s.clk c.lit .f64 l v = some e else e = x.rd s c l v) ∧ e.poisoned x.tans = false

theorem storeVal_of_readsValue {s : State} {x : Ctx} {c : Ctl} {l : Nat} {v : Src} {e : El} (h : readsValue s x c l v e) :
    storeVal x s c.lit l v = some (valSize s x c l v, e) := by
  obtain ⟨hval, -⟩ := h
  unfold storeVal valSize at *
  by_cases ht : (x.rd s c l v).tag = some .f64
  · simp only [ht, if_true] at hval ⊢
    rw [if_pos (show (x.el s.clk c.lit false l v).tag = some .f64 from ht), hval]
    rfl
  · simp only [ht, if_false, show ¬ (4 = 8) by decide] at hval ⊢
    rw [if_neg (show ¬ (x.el s.clk c.lit false l v).tag = some .f64 from ht), hval]
    rfl

theorem writeTLane_of_readsValue {s : State} {x : Ctx} {c : Ctl} {mode : IdxMode} {a b v : Src} {l : Nat} {A : W64} {e : El}
    (hv : readsValue s x c l v e) (ha : idxAddr s x c mode (valSize s x c l v) a b l A) {ks : Tag → List Nat} (hks : ks (e.moved v) ⊆ x.tans) :
    writeTLane x s c.lit mode ks a b v l = some ⟨A, valSize s x c l v, false, e.val, e.moved v, e.tan, 0#64⟩ := by
  unfold writeTLane
  simp only [storeVal_of_readsValue hv]
  rw [turretAddr_of_idxAddr ha]
  simp [El.poisoned_of_subset hv.2 hks]

end Sys2Proof.Machine
end

section
/-! SUPPORT. What a translation leaves, and the lanes sent one after another (R86 to R95, R128; O18). -/
namespace Sys2Proof.Machine

/-! ## What a translation leaves (R86 to R95) -/

/-- A step of stage 2: it leaves the operations in flight, the names, the clock, the cores of the blocks, and of each cohort all but the
reservations of its lanes. -/
structure State.onlyTranslates (s t : State) : Prop where
  errs : t.errIn = s.errIn
  pend : t.pend = s.pend
  nid  : t.nid = s.nid
  clk  : t.clk = s.clk
  cohs : ∀ r k, s.coh r = some k → ∃ ls, t.coh r = some { k with lanes := ls }
  cores : ∀ n b, s.block n = some b → ∃ b', t.block n = some b' ∧ b'.coreId = b.coreId

theorem State.onlyTranslates_refl (s : State) : s.onlyTranslates s := ⟨rfl, rfl, rfl, rfl, fun _ k h => ⟨k.lanes, h⟩, fun _ b h => ⟨b, h, rfl⟩⟩

theorem State.onlyTranslates.trans {s t u : State} (h : s.onlyTranslates t) (k : t.onlyTranslates u) : s.onlyTranslates u := by
  refine ⟨k.errs.trans h.errs, k.pend.trans h.pend, k.nid.trans h.nid, k.clk.trans h.clk, fun r c hc => ?_, fun n b hb => ?_⟩
  · obtain ⟨ls, ht⟩ := h.cohs r c hc
    obtain ⟨ls', hu⟩ := k.cohs r _ ht
    exact ⟨ls', hu⟩
  · obtain ⟨b', hb', he⟩ := h.cores n b hb
    obtain ⟨b'', hb'', he'⟩ := k.cores n b' hb'
    exact ⟨b'', hb'', he'.trans he⟩

/-- The same machine with other operations in flight. -/
def State.withPend (s : State) (ps : List Pend) : State := { s with pend := ps }

/-- An update of the machine that does not read the operations in flight, and only translates. -/
structure translating (f : State → State) (s : State) : Prop where
  only : s.onlyTranslates (f s)
  pend : ∀ ps, f (s.withPend ps) = (f s).withPend ps

theorem translating_writeBytes (s : State) (a : Nat) (bs : List Byte) : translating (fun s => s.writeBytes .phys a bs) s := by
  have hfirst : s.onlyTranslates (s.setMem .phys ((s.mem .phys).writeN a bs)) :=
    ⟨rfl, rfl, rfl, rfl, fun _ k h => ⟨k.lanes, h⟩, fun _ b h => ⟨b, h, rfl⟩⟩
  constructor
  · unfold State.writeBytes
    dsimp only
    split
    · refine hfirst.trans ⟨rfl, rfl, rfl, rfl, fun r k h => ?_, fun n b h => ?_⟩
      · rw [State.coh_clearResv, h]
        exact ⟨_, rfl⟩
      · rw [State.block_clearResv, h]
        exact ⟨_, rfl, rfl⟩
    · exact hfirst
  · intro ps
    unfold State.writeBytes
    dsimp only
    have hresv : ((s.withPend ps).setMem .phys (((s.withPend ps).mem .phys).writeN a bs)).anyResv
        = (s.setMem .phys ((s.mem .phys).writeN a bs)).anyResv := rfl
    rw [hresv]
    split <;> rfl

theorem translating_tlbPut (s : State) (unit : Nat) (pasid : BitVec 20) (va : W64) (lv : Nat) (e : W64) :
    translating (fun s => s.tlbPut unit pasid va lv e) s := by
  have hroom (s : State) (leaf : Bool) : translating (fun s => s.tlbRoom unit leaf) s := by
    constructor
    · unfold State.tlbRoom
      dsimp only
      split
      · exact s.onlyTranslates_refl
      · exact ⟨rfl, rfl, rfl, rfl, fun _ k h => ⟨k.lanes, h⟩, fun _ b h => ⟨b, h, rfl⟩⟩
    · intro ps
      unfold State.tlbRoom
      dsimp only
      have htlb : (s.withPend ps).tlb = s.tlb := rfl
      rw [htlb]
      split <;> rfl
  have hcut := hroom { s with tlb := s.tlb.filter (fun t => !(t.unit == unit && t.pasid == pasid && t.lg == lvBits lv
    && t.page == pageOf va (lvBits lv))) } (e.getLsbD 1)
  constructor
  · have h1 : s.onlyTranslates { s with tlb := s.tlb.filter (fun t => !(t.unit == unit && t.pasid == pasid && t.lg == lvBits lv
      && t.page == pageOf va (lvBits lv))) } := ⟨rfl, rfl, rfl, rfl, fun _ k h => ⟨k.lanes, h⟩, fun _ b h => ⟨b, h, rfl⟩⟩
    exact (h1.trans hcut.only).trans ⟨rfl, rfl, rfl, rfl, fun _ k h => ⟨k.lanes, h⟩, fun _ b h => ⟨b, h, rfl⟩⟩
  · intro ps
    have h2 := hcut.pend ps
    unfold State.tlbPut
    dsimp only [State.withPend] at h2 ⊢
    rw [h2]

theorem translating_foldl {β : Type} {f : State → β → State} {ls : List β} (h : ∀ s : State, ∀ l ∈ ls, translating (fun s => f s l) s)
    (s : State) : translating (fun s => ls.foldl f s) s := by
  induction ls generalizing s with
  | nil => exact ⟨s.onlyTranslates_refl, fun _ => rfl⟩
  | cons l ls ih =>
    have hfirst := h s l (List.mem_cons_self ..)
    have hrest := ih (fun s k hk => h s k (List.mem_cons_of_mem _ hk)) (f s l)
    refine ⟨hfirst.only.trans hrest.only, fun ps => ?_⟩
    simp only [List.foldl_cons]
    rw [hfirst.pend ps]
    exact hrest.pend ps

/-- The same of an update that answers as well. -/
structure translates {α : Type} (f : State → State × α) (s : State) : Prop where
  only : s.onlyTranslates (f s).1
  pend : ∀ ps, f (s.withPend ps) = ((f s).1.withPend ps, (f s).2)

theorem translates_pasidEntry {s : State} (h : s.errIn = []) (pasid : BitVec 20) : translates (fun s => s.pasidEntry pasid) s := by
  have hwrite := translating_writeBytes s (s.physLoc (s.host.qtbase.toNat + 16 * pasid.toNat))
    (leBytes 8 (BitVec.ofNat 64 (s.readNat .phys (s.physLoc (s.host.qtbase.toNat + 16 * pasid.toNat)) 8) ||| 4#64).toNat)
  constructor
  · unfold State.pasidEntry
    split
    · exact s.onlyTranslates_refl
    · simp only [State.readCheck_quiet h]
      split
      · exact hwrite.only.trans ⟨rfl, rfl, rfl, rfl, fun _ k h => ⟨k.lanes, h⟩, fun _ b h => ⟨b, h, rfl⟩⟩
      · exact s.onlyTranslates_refl
  · intro ps
    have hp := hwrite.pend ps
    have hhost : (s.withPend ps).host = s.host := rfl
    unfold State.pasidEntry
    rw [hhost]
    cases s.host.pasids.find pasid.toNat with
    | some e => rfl
    | none =>
      have hloc : (s.withPend ps).physLoc = s.physLoc := rfl
      have hread : (s.withPend ps).readNat = s.readNat := rfl
      simp only [State.readCheck_quiet h, State.readCheck_quiet (s := s.withPend ps) h, hloc, hread, hp]
      split <;> rfl

theorem State.physCheck_withPend (s : State) (ps : List Pend) : (s.withPend ps).physCheck = s.physCheck := by
  have haddr : (s.withPend ps).physAddr = s.physAddr := rfl
  have herr : (s.withPend ps).errIn = s.errIn := rfl
  funext e va lv
  simp only [State.physCheck, haddr, herr]

theorem walkLevels_withPend (s : State) (ps : List Pend) (unit : Nat) (pasid : BitVec 20) (va : W64) (base lv : Nat) (ptrs : List (Nat × W64)) :
    walkLevels (s.withPend ps) unit pasid va base lv ptrs = walkLevels s unit pasid va base lv ptrs := by
  have htlb (n : Nat) : (s.withPend ps).tlbFind unit pasid va n = s.tlbFind unit pasid va n := rfl
  have hent : (s.withPend ps).tableEntry = s.tableEntry := rfl
  induction lv generalizing base ptrs with
  | zero =>
    unfold walkLevels
    simp only [htlb, hent]
  | succ n ih =>
    unfold walkLevels
    simp only [htlb, hent, ih]

/-- The leaf that a walk keeps, behind the pointers that it read (R93). -/
def State.keepWalk (s : State) (unit : Nat) (pasid : BitVec 20) (va : W64) (ptrs : List (Nat × W64)) (lv : Nat) (e : W64) : State :=
  (ptrs.foldl (fun s p => s.tlbPut unit pasid va p.1 p.2) s).tlbPut unit pasid va lv e

theorem translating_keepWalk (s : State) (unit : Nat) (pasid : BitVec 20) (va : W64) (ptrs : List (Nat × W64)) (lv : Nat) (e : W64) :
    translating (fun s => s.keepWalk unit pasid va ptrs lv e) s := by
  have hptrs := translating_foldl (f := fun (s : State) (p : Nat × W64) => s.tlbPut unit pasid va p.1 p.2) (ls := ptrs)
    (fun s p _ => translating_tlbPut s unit pasid va p.1 p.2) s
  have hleaf := translating_tlbPut (ptrs.foldl (fun s p => s.tlbPut unit pasid va p.1 p.2) s) unit pasid va lv e
  refine ⟨hptrs.only.trans hleaf.only, fun ps => ?_⟩
  unfold State.keepWalk
  rw [hptrs.pend ps]
  exact hleaf.pend ps

/-- A walk from the root of the tables, with what it keeps (R89 to R95). -/
def State.walk (s : State) (unit : Nat) (pasid : BitVec 20) (va : W64) (ac : Access) (base : Nat) : State × Except XFault Nat :=
  match walkLevels s unit pasid va base 2 [] with
  | .error f => (s, .error f)
  | .ok (a, e, lv, ptrs) =>
    match permCode e ac with
    | some c => (s.keepWalk unit pasid va ptrs lv e, .error ⟨kProtection, c, lv⟩)
    | none =>
      match s.physCheck e va lv with
      | .error f => (s, .error f)
      | .ok pa =>
        let now := BitVec.ofNat 64 (s.readNat .phys a 8)
        let s3 := if now &&& adBits ac = adBits ac then s else s.writeBytes .phys a (leBytes 8 (now ||| adBits ac).toNat)
        (s3.keepWalk unit pasid va ptrs lv (e ||| adBits ac), .ok pa)

theorem translates_walk (s : State) (unit : Nat) (pasid : BitVec 20) (va : W64) (ac : Access) (base : Nat) :
    translates (fun s => s.walk unit pasid va ac base) s := by
  have hpair (ps : List Pend) : walkLevels (s.withPend ps) unit pasid va base 2 [] = walkLevels s unit pasid va base 2 [] :=
    walkLevels_withPend s ps unit pasid va base 2 []
  have hphys := s.physCheck_withPend
  have hread (ps : List Pend) : (s.withPend ps).readNat = s.readNat := rfl
  unfold State.walk
  constructor
  · cases walkLevels s unit pasid va base 2 [] with
    | error f => exact s.onlyTranslates_refl
    | ok r =>
      obtain ⟨a, e, lv, ptrs⟩ := r
      dsimp only
      cases permCode e ac with
      | some c => exact (translating_keepWalk s unit pasid va ptrs lv e).only
      | none =>
        cases s.physCheck e va lv with
        | error f => exact s.onlyTranslates_refl
        | ok pa =>
          dsimp only
          split
          · exact (translating_keepWalk s unit pasid va ptrs lv _).only
          · exact (translating_writeBytes s a _).only.trans (translating_keepWalk _ unit pasid va ptrs lv _).only
  · intro ps
    rw [hpair, hphys, hread]
    cases walkLevels s unit pasid va base 2 [] with
    | error f => rfl
    | ok r =>
      obtain ⟨a, e, lv, ptrs⟩ := r
      dsimp only
      cases permCode e ac with
      | some c => exact Prod.ext ((translating_keepWalk s unit pasid va ptrs lv e).pend ps) rfl
      | none =>
        cases s.physCheck e va lv with
        | error f => rfl
        | ok pa =>
          dsimp only
          split
          · exact Prod.ext ((translating_keepWalk s unit pasid va ptrs lv _).pend ps) rfl
          · rw [(translating_writeBytes s a _).pend ps]
            exact Prod.ext ((translating_keepWalk _ unit pasid va ptrs lv _).pend ps) rfl

/-- A translation that no cached leaf serves, behind the PASID's entry `q` (R376). -/
def State.walkFrom (unit : Nat) (pasid : BitVec 20) (va : W64) (ac : Access) (q : State × W64 × W64) : State × Except XFault Nat :=
  if !q.2.1.getLsbD 0 then (q.1, .error ⟨kTranslation, 0x02, 3⟩)
  else if q.2.2.extractLsb' 0 16 ≠ 0#16 ∨ q.2.2.extractLsb' 52 12 ≠ 0#12 then (q.1, .error ⟨kTranslation, 0x03, 3⟩)
  else match q.1.physAddr q.2.2.toNat with
    | none => (q.1, .error ⟨kTranslation, 0x04, 3⟩)
    | some base => q.1.walk unit pasid va ac base

/-- With no error to strike, a translation is served by a leaf or walks from the PASID's entry. -/
theorem State.translate_eq {s : State} (h : s.errIn = []) (unit : Nat) (pasid : BitVec 20) (va : W64) (ac : Access) :
    s.translate unit pasid va ac =
      if va.extractLsb' 55 9 ≠ 0#9 then (s, .error ⟨kTranslation, 0x01, 0xF⟩)
      else match s.leafHit unit pasid va ac with
        | some (e, lv) => (s, match permCode e ac with
          | some c => .error ⟨kProtection, c, lv⟩
          | none => s.physCheck e va lv)
        | none => State.walkFrom unit pasid va ac (s.pasidEntry pasid) := by
  have herr : (s.pasidEntry pasid).1.errIn = [] := (translates_pasidEntry h pasid).only.errs.trans h
  unfold State.translate State.walkFrom
  split
  · rfl
  · cases s.leafHit unit pasid va ac with
    | some r =>
      dsimp only
      cases permCode r.1 ac <;> rfl
    | none =>
      dsimp only
      split
      · rfl
      · split
        · rfl
        · cases (s.pasidEntry pasid).1.physAddr (s.pasidEntry pasid).2.2.toNat with
          | none => rfl
          | some base =>
            dsimp only
            rw [State.walkCheck_of_errIn herr]
            rfl

theorem translates_walkFrom (unit : Nat) (pasid : BitVec 20) (va : W64) (ac : Access) (s : State) (e : W64 × W64) :
    translates (fun s => State.walkFrom unit pasid va ac (s, e)) s := by
  have hphys (ps : List Pend) : (s.withPend ps).physAddr = s.physAddr := rfl
  unfold State.walkFrom
  constructor
  · split
    · exact s.onlyTranslates_refl
    · split
      · exact s.onlyTranslates_refl
      · cases s.physAddr e.2.toNat with
        | none => exact s.onlyTranslates_refl
        | some base => exact (translates_walk s unit pasid va ac base).only
  · intro ps
    dsimp only
    rw [hphys]
    split
    · rfl
    · split
      · rfl
      · cases s.physAddr e.2.toNat with
        | none => rfl
        | some base => exact (translates_walk s unit pasid va ac base).pend ps

theorem translates_translate {s : State} (h : s.errIn = []) (unit : Nat) (pasid : BitVec 20) (va : W64) (ac : Access) :
    translates (fun s => s.translate unit pasid va ac) s := by
  have hent := translates_pasidEntry h pasid
  have hwalk := translates_walkFrom unit pasid va ac (s.pasidEntry pasid).1 (s.pasidEntry pasid).2
  constructor
  · rw [State.translate_eq h]
    split
    · exact s.onlyTranslates_refl
    · cases s.leafHit unit pasid va ac with
      | some r => exact s.onlyTranslates_refl
      | none => exact hent.only.trans hwalk.only
  · intro ps
    have hleaf : (s.withPend ps).leafHit = s.leafHit := rfl
    have hphys := s.physCheck_withPend ps
    rw [State.translate_eq h, State.translate_eq (s := s.withPend ps) h, hleaf, hphys]
    split
    · rfl
    · cases s.leafHit unit pasid va ac with
      | some r => rfl
      | none =>
        dsimp only
        rw [hent.pend ps]
        exact hwalk.pend ps

/-! ## The lanes of a word sent (R128) -/

/-- Updates one after another that answer on the way. -/
theorem translates_foldl {α β : Type} {g : State × α → β → State × α}
    (h : ∀ (u : State) (r : α) (k : β), u.errIn = [] → translates (fun u => g (u, r) k) u) (ls : List β) {s : State} (hs : s.errIn = []) (r : α) :
    translates (fun s => ls.foldl g (s, r)) s := by
  induction ls generalizing s r with
  | nil => exact ⟨s.onlyTranslates_refl, fun _ => rfl⟩
  | cons k ls ih =>
    have hfirst := h s r k hs
    have hrest := ih (hfirst.only.errs.trans hs) (g (s, r) k).2
    refine ⟨hfirst.only.trans hrest.only, fun ps => ?_⟩
    simp only [List.foldl_cons]
    rw [hfirst.pend ps]
    exact hrest.pend ps

/-- The primal or a tangent of a lane translated behind those before it. -/
def sendOne (x : Ctx) (lost : Bool) (ac : Access) (t : TLane) (p : State × Except (XFault × W64) (List Acc)) (k : Nat) :
    State × Except (XFault × W64) (List Acc) :=
  match p.2 with
  | .error _ => p
  | .ok as =>
    let va := t.a + x.grid.lrec.dstride * BitVec.ofNat 64 k
    let q := p.1.translate (xunit x.blk.coreId) x.grid.pasid va ac
    (q.1, match q.2 with
      | .error f => .error (f, va)
      | .ok pa =>
        if lost && decide (0x8000000000000 ≤ pa) then
          .error (⟨kTranslation, 0x04, ((q.1.leafHit (xunit x.blk.coreId) x.grid.pasid va ac).map (·.2)).getD 0⟩, va)
        else .ok (as ++ [⟨k, .phys, pa, t.z, if k = 0 then t.val else t.tan.get k 0#64, t.cmp, false⟩]))

theorem sendLane_eq (x : Ctx) (lost : Bool) (ac : Access) (ks : List Nat) (t : TLane) (s : State) :
    sendLane x false lost ac ks t s = (0 :: ks).foldl (sendOne x lost ac t) (s, .ok []) := by
  unfold sendLane
  congr 1
  funext p k
  unfold sendOne
  obtain ⟨u, r⟩ := p
  cases r with
  | error f => rfl
  | ok as =>
    dsimp only
    rcases hq : u.translate (xunit x.blk.coreId) x.grid.pasid (t.a + x.grid.lrec.dstride * BitVec.ofNat 64 k) ac with ⟨u', r⟩
    cases r with
    | error f => rfl
    | ok pa =>
      dsimp only
      split <;> simp

theorem translates_sendOne (x : Ctx) (lost : Bool) (ac : Access) (t : TLane) (u : State) (r : Except (XFault × W64) (List Acc)) (k : Nat)
    (hu : u.errIn = []) : translates (fun u => sendOne x lost ac t (u, r) k) u := by
  have htr := translates_translate hu (xunit x.blk.coreId) x.grid.pasid (t.a + x.grid.lrec.dstride * BitVec.ofNat 64 k) ac
  unfold sendOne
  cases r with
  | error f => exact ⟨u.onlyTranslates_refl, fun _ => rfl⟩
  | ok as =>
    refine ⟨htr.only, fun ps => ?_⟩
    dsimp only
    rw [htr.pend ps]
    rfl

theorem translates_sendLane {s : State} (h : s.errIn = []) (x : Ctx) (lost : Bool) (ac : Access) (ks : List Nat) (t : TLane) :
    translates (fun s => sendLane x false lost ac ks t s) s := by
  simp only [sendLane_eq]
  exact translates_foldl (translates_sendOne x lost ac t) (0 :: ks) h (.ok [])

/-- A lane sent behind those before it. -/
def sendNext (x : Ctx) (lost : W32) (ac : Access) (ks : TLane → List Nat) (r : State × AMap (List Acc) × AMap (XFault × W64)) (p : Nat × TLane) :
    State × AMap (List Acc) × AMap (XFault × W64) :=
  let q := sendLane x false (lost.getLsbD p.1) ac (ks p.2) p.2 r.1
  (q.1, match q.2 with
    | .ok as => (r.2.1 ++ [(p.1, as)], r.2.2)
    | .error f => (r.2.1, r.2.2 ++ [(p.1, f)]))

theorem sendLanes_eq (x : Ctx) (lost : W32) (ac : Access) (ks : TLane → List Nat) (ok : AMap TLane) (s : State) :
    let r := ok.foldl (sendNext x lost ac ks) (s, [], [])
    sendLanes x false lost ac ks ok s = ⟨r.1, r.2.1, r.2.2⟩ := by
  have hmain (r : Sent) : ok.foldl (fun (r : Sent) p => match sendLane x false (lost.getLsbD p.1) ac (ks p.2) p.2 r.s with
      | (s1, .ok as) => { r with s := s1, lanes := r.lanes ++ [(p.1, as)] }
      | (s1, .error f) => { r with s := s1, fails := r.fails ++ [(p.1, f)] }) r
      = (fun q => (⟨q.1, q.2.1, q.2.2⟩ : Sent)) (ok.foldl (sendNext x lost ac ks) (r.s, r.lanes, r.fails)) := by
    induction ok generalizing r with
    | nil => rfl
    | cons p ok ih =>
      rw [List.foldl_cons, List.foldl_cons, ih]
      unfold sendNext
      rcases sendLane x false (lost.getLsbD p.1) ac (ks p.2) p.2 r.s with ⟨u, q⟩
      cases q <;> rfl
  exact hmain ⟨s, [], []⟩

theorem translates_sendNext (x : Ctx) (lost : W32) (ac : Access) (ks : TLane → List Nat) (u : State) (r : AMap (List Acc) × AMap (XFault × W64))
    (p : Nat × TLane) (hu : u.errIn = []) : translates (fun u => sendNext x lost ac ks (u, r) p) u := by
  have hsend := translates_sendLane hu x (lost.getLsbD p.1) ac (ks p.2) p.2
  unfold sendNext
  refine ⟨hsend.only, fun ps => ?_⟩
  dsimp only
  rw [hsend.pend ps]

/-- The lanes sent leave the operations in flight, and do not depend on them. -/
theorem sendLanes_spec {s : State} (h : s.errIn = []) (x : Ctx) (lost : W32) (ac : Access) (ks : TLane → List Nat) (ok : AMap TLane) :
    s.onlyTranslates (sendLanes x false lost ac ks ok s).s
    ∧ ∀ ps, sendLanes x false lost ac ks ok (s.withPend ps)
        = { sendLanes x false lost ac ks ok s with s := (sendLanes x false lost ac ks ok s).s.withPend ps } := by
  have hall := translates_foldl (translates_sendNext x lost ac ks) ok h ([], [])
  refine ⟨?_, fun ps => ?_⟩
  · rw [sendLanes_eq]
    exact hall.only
  · have hps := hall.pend ps
    rw [sendLanes_eq, sendLanes_eq, hps]

end Sys2Proof.Machine
end

section
/-! SUPPORT. A path that begins to wait (R61, R102, R240; O18). -/
namespace Sys2Proof.Machine

/-! ## A path that begins to wait (R102) -/

/-- Cohorts that differ in the paths' places and the fairness timer at most. -/
def Cohort.repathed (k k' : Cohort) : Prop :=
  ∃ a b sp f m t, k' = { k with pa := a, pb := b, spill := sp, selB := f, mid := m, fair := t }

theorem Cohort.repathed_refl (k : Cohort) : k.repathed k := ⟨k.pa, k.pb, k.spill, k.selB, k.mid, k.fair, rfl⟩

theorem Cohort.repathed.trans {k k' k'' : Cohort} (h : k.repathed k') (h' : k'.repathed k'') : k.repathed k'' := by
  obtain ⟨a, b, sp, f, m, t, rfl⟩ := h
  obtain ⟨a', b', sp', f', m', t', rfl⟩ := h'
  exact ⟨a', b', sp', f', m', t', rfl⟩

theorem Cohort.repathed_setPath (k : Cohort) (i : Bool) (p : Option Path) : k.repathed (k.setPath i p) := by
  cases i
  · exact ⟨p, k.pb, k.spill, k.selB, k.mid, k.fair, rfl⟩
  · exact ⟨k.pa, p, k.spill, k.selB, k.mid, k.fair, rfl⟩

theorem Cohort.repathed_demote (k : Cohort) (i : Bool) : k.repathed (k.demote i) := by
  unfold Cohort.demote
  split
  · exact k.repathed_refl
  · split
    · refine (k.repathed_setPath i _).trans ⟨_, _, _, _, _, _, rfl⟩
    · refine (k.repathed_setPath i _).trans ⟨_, _, _, _, _, _, rfl⟩

theorem Cohort.repathed_yieldBar (n : Nat) (k : Cohort) : k.repathed (Cohort.yieldBar n k) := by
  induction n generalizing k with
  | zero => exact k.repathed_refl
  | succ n ih =>
    unfold Cohort.yieldBar
    split
    · exact k.repathed_refl
    · split
      · exact (k.repathed_demote false).trans (ih _)
      · split
        · exact (k.repathed_demote true).trans (ih _)
        · exact k.repathed_refl

/-- Behind a demotion the other slot stands as before. -/
theorem Cohort.path_demote_ne {k : Cohort} {i j : Bool} (h : j ≠ i) : (k.demote i).path j = k.path j := by
  unfold Cohort.demote
  split
  · rfl
  · split
    · exact (Cohort.path_setPath k i j _).trans (if_neg h)
    · exact (Cohort.path_setPath k i j _).trans (if_neg h)

/-- A path that does not wait at a barrier keeps its slot. -/
theorem Cohort.path_yieldBar {k : Cohort} {i : Bool} {p : Path} (hp : k.path i = some p) (hb : p.barWait = false) (n : Nat) :
    (Cohort.yieldBar n k).path i = some p := by
  induction n generalizing k with
  | zero => exact hp
  | succ n ih =>
    have hother {j : Bool} (hj : ((k.path j).map Path.barWait).getD false = true) : i ≠ j := by
      rintro rfl
      simp [hp, hb] at hj
    unfold Cohort.yieldBar
    split
    · exact hp
    · split
      · rename_i h
        exact ih ((Cohort.path_demote_ne (hother (j := false) h)).trans hp)
      · split
        · rename_i h
          exact ih ((Cohort.path_demote_ne (hother (j := true) h)).trans hp)
        · exact hp

/-- Where no slot waits at a barrier, none yields. -/
theorem Cohort.yieldBar_none {k : Cohort} (h : ∀ i, ((k.path i).map Path.barWait).getD false = false) (n : Nat) : Cohort.yieldBar n k = k := by
  cases n with
  | zero => rfl
  | succ n =>
    unfold Cohort.yieldBar
    split
    · rfl
    · have hpa : (k.pa.map Path.barWait).getD false = false := h false
      have hpb : (k.pb.map Path.barWait).getD false = false := h true
      simp [hpa, hpb]

/-- The places that a cohort moves whose paths change places. -/
theorem cohSame_of_repathed {k k' : Cohort} (h : k.repathed k') (r : CohRef) {z : Place} (hslot : ∀ i, z ≠ .slot r i) (hspill : z ≠ .spill r)
    (hsel : z ≠ .sel r) (hcnt : z ≠ .cnt r) : cohSame r k k' z := by
  obtain ⟨a, b, sp, f, m, t, rfl⟩ := h
  cases z with
  | slot q i => exact fun hq => absurd (by rw [hq]) (hslot i)
  | spill q => exact fun hq => absurd (by rw [hq]) hspill
  | sel q => exact fun hq => absurd (by rw [hq]) hsel
  | cnt q => exact fun hq => absurd (by rw [hq]) hcnt
  | _ => simp [cohSame, Cohort.sreg, Cohort.kreg, Cohort.ctr, Cohort.thread, Cohort.bare]

/-- A partition gives up a cohort that it is inside a clause of. -/
def State.leavePart (s : State) (core part : Nat) (r : CohRef) : State :=
  if ((s.core core).part part).cur = some (r.blk, r.coh) then
    s.setCore core ((s.core core).setPart part { (s.core core).part part with cur := none, last := none }) else s

/-- A cohort that issues issues no more. -/
def State.dropCur (s : State) (r : CohRef) : State := if s.cur = some r then { s with cur := none } else s

theorem State.releaseIssue_eq {s : State} {r : CohRef} {b : Block} {c : Cohort} (hb : s.block r.blk = some b) (hc : b.coh r.coh = some c) :
    s.releaseIssue r = (s.leavePart b.coreId c.part r).dropCur r := by
  unfold State.releaseIssue
  simp only [hb, hc]
  rfl

theorem State.keeps_leavePart (s : State) (core part : Nat) (r : CohRef) :
    s.keeps (s.leavePart core part r) (fun z => z = .part core part) ∧ ∀ q, (s.leavePart core part r).coh q = s.coh q := by
  unfold State.leavePart
  split
  · refine ⟨State.keeps_setCore (fun z hz => ?_), fun q => rfl⟩
    cases z with
    | byte q _ | full q _ | psn q _ => cases q <;> simp [coreSame, Core.setPart]
    | part n p =>
      rintro rfl
      have hp : p ≠ part := fun he => hz (by rw [he])
      rw [Core.part_setPart, if_neg hp]
    | smp n p =>
      rintro rfl
      rw [Core.part_setPart]
      split
      · next he => rw [he]
      · rfl
    | _ => simp [coreSame, Core.setPart, Core.bare]
  · exact ⟨s.keeps_refl _, fun q => rfl⟩

theorem State.keeps_dropCur (s : State) (r : CohRef) : s.keeps (s.dropCur r) (fun z => z = .cur) ∧ ∀ q, (s.dropCur r).coh q = s.coh q := by
  unfold State.dropCur
  split
  · refine ⟨fun z hz => ?_, fun q => rfl⟩
    cases z with
    | cur => exact absurd rfl hz
    | byte q _ | full q _ | psn q _ => cases q <;> rfl
    | names | xlat => exact ⟨rfl, rfl⟩
    | _ => rfl
  · exact ⟨s.keeps_refl _, fun q => rfl⟩

/-- A partition gives up a cohort: who issues next (R102, R313). -/
theorem State.keeps_releaseIssue {s : State} {r : CohRef} {b : Block} {c : Cohort} (hb : s.block r.blk = some b) (hc : b.coh r.coh = some c) :
    s.keeps (s.releaseIssue r) (fun z => z = .cur ∨ z = .part b.coreId c.part) ∧ ∀ q, (s.releaseIssue r).coh q = s.coh q := by
  obtain ⟨hpart, hcoh⟩ := s.keeps_leavePart b.coreId c.part r
  obtain ⟨hcur, hcoh'⟩ := (s.leavePart b.coreId c.part r).keeps_dropCur r
  rw [State.releaseIssue_eq hb hc]
  exact ⟨State.keeps_trans (State.keeps_mono hpart (fun _ => .inr)) (State.keeps_mono hcur (fun _ => .inl)),
    fun q => (hcoh' q).trans (hcoh q)⟩

/-! ## The path stands in its wait -/

/-- A clause at a word with a dual-extension word before it stands at that one again (R61). -/
def Clause.back (cl : Clause) : Clause := if cl.dx.isSome then { cl with wi := cl.wi - 1, dx := none } else cl

/-- The word of the issuing path stands first in its clause. -/
def Ctx.standsFirst (x : Ctx) : Bool := (x.path.cl.map (fun cl => cl.back.wi)).getD 0 == 1

/-- The cohort whose path stands in a wait, before it yields to paths of the spill stack. -/
def Cohort.waited (k : Cohort) (x : Ctx) (w : PWait) : Cohort :=
  { k.setPath x.isB ((k.path x.isB).map (fun p => { p with wait := some w, cl := p.cl.map Clause.back })) with mid := !x.standsFirst }

/-- The same behind a demotion that waited for the boundary (R240). -/
def Cohort.waitedOn (k : Cohort) (x : Ctx) (w : PWait) : Cohort :=
  if x.standsFirst && ((k.waited x w).path x.isB).any (fun p => p.dem && p.waitsFirst) then (k.waited x w).demote x.isB else k.waited x w

/-- The cohort behind a word that begins to wait. -/
def Cohort.stood (k : Cohort) (x : Ctx) (w : PWait) : Cohort := Cohort.yieldBar (k.waitedOn x w).spill.length (k.waitedOn x w)

theorem State.stand_eq (s : State) (x : Ctx) (w : PWait) : s.stand x w = (s.updCoh x.ref (fun k => k.stood x w)).releaseIssue x.ref := rfl

theorem Ctx.standing_waitsFirst {x : Ctx} {w : PWait} (hw : w.released = false) : (x.standing w).waitsFirst = x.standsFirst := by
  unfold Ctx.standing Ctx.standsFirst Path.waitsFirst
  cases x.path.cl with
  | none => simp
  | some cl => simp [hw, Clause.back]

theorem Cohort.path_waited {k : Cohort} {x : Ctx} (hp : k.path x.isB = some x.path) (w : PWait) :
    (k.waited x w).path x.isB = some (x.standing w) := by
  show (k.setPath x.isB _).path x.isB = _
  rw [Cohort.path_setPath, if_pos rfl, hp]
  rfl

theorem Cohort.repathed_waitedOn (k : Cohort) (x : Ctx) (w : PWait) : k.repathed (k.waitedOn x w) := by
  have hfirst : k.repathed (k.waited x w) := (k.repathed_setPath x.isB _).trans ⟨_, _, _, _, _, _, rfl⟩
  unfold Cohort.waitedOn
  split
  · exact hfirst.trans (Cohort.repathed_demote _ _)
  · exact hfirst

theorem Cohort.repathed_stood (k : Cohort) (x : Ctx) (w : PWait) : k.repathed (k.stood x w) :=
  (k.repathed_waitedOn x w).trans (Cohort.repathed_yieldBar _ _)

/-- A demotion waits, the path stands first, and an entry of the spill stack takes its slot. -/
theorem Cohort.waitedOn_cons {k : Cohort} {x : Ctx} {w : PWait} (hp : k.path x.isB = some x.path) (hw : w.released = false)
    (hfirst : x.standsFirst = true) (hdem : x.path.dem = true) {e : Spill} {es : List Spill} (hspill : k.spill = e :: es) :
    k.waitedOn x w = { (k.waited x w).setPath x.isB (some e.path) with
      spill := es ++ [⟨{ x.standing w with dem := false }, 0#2⟩]
      fair := 0 } := by
  have hstand : (x.standing w).dem = true := hdem
  have hsp : (k.waited x w).spill = e :: es := (Cohort.setPath_spill k x.isB _).trans hspill
  unfold Cohort.waitedOn
  rw [if_pos (by simp [Cohort.path_waited hp, hfirst, hstand, Ctx.standing_waitsFirst hw]), Cohort.demote]
  simp only [Cohort.path_waited hp, hsp]

/-- Else the path keeps its slot; a demotion that waits is then done with. -/
theorem Cohort.path_waitedOn {k : Cohort} {x : Ctx} {w : PWait} (hp : k.path x.isB = some x.path) (hw : w.released = false)
    (h : (x.standsFirst && x.path.dem) = false ∨ k.spill = []) :
    (k.waitedOn x w).path x.isB = some { x.standing w with dem := x.path.dem && !x.standsFirst } := by
  have hpath := Cohort.path_waited hp w
  have hstand : (x.standing w).dem = x.path.dem := rfl
  have hsp : (k.waited x w).spill = k.spill := Cohort.setPath_spill k x.isB _
  unfold Cohort.waitedOn
  by_cases hgo : x.standsFirst = true ∧ x.path.dem = true
  · obtain ⟨hfirst, hdem⟩ := hgo
    have hnil : k.spill = [] := h.resolve_left (by simp [hfirst, hdem])
    rw [if_pos (by simp [hpath, hfirst, hstand, hdem, Ctx.standing_waitsFirst hw]), Cohort.demote]
    simp only [hpath, hsp, hnil, hfirst, hdem, Bool.not_true, Bool.and_false]
    exact (Cohort.path_setPath (k.waited x w) x.isB x.isB _).trans (if_pos rfl)
  · have hno : (x.standsFirst && x.path.dem) = false := by simpa using hgo
    have hcond : ¬ (x.standsFirst && ((k.waited x w).path x.isB).any (fun p => p.dem && p.waitsFirst)) = true := by
      rw [hpath]
      simp only [Option.any_some, Bool.and_eq_true]
      exact fun h => hgo ⟨h.1, h.2.1⟩
    rw [if_neg hcond, hpath]
    have hdem : (x.path.dem && !x.standsFirst) = x.path.dem := by
      revert hno
      cases x.path.dem <;> cases x.standsFirst <;> simp
    rw [hdem]
    rfl

/-- What a word leaves that begins to wait, not at a barrier (R102, R240). -/
theorem State.waits_stand {s : State} {x : Ctx} {k : Cohort} {b : Block} (hc : s.coh x.ref = some k) (hb : s.block x.ref.blk = some b)
    (hcore : b.coreId = x.blk.coreId) (hpart : k.part = x.coh.part) (hpaths : ∀ i, k.path i = x.coh.path i) (hspill : k.spill = x.coh.spill)
    (hp : x.coh.path x.isB = some x.path) {w : PWait} (hw : w.released = false) (hbar : ∀ p : Path, p.wait = some w → p.barWait = false) :
    (x.yields (x.standing w) = false →
      (s.stand x w).slot x.ref x.isB = some { x.standing w with dem := x.path.dem && !(x.standing w).waitsFirst })
    ∧ (x.yields (x.standing w) = true → (∀ e ∈ x.coh.spill, e.path.barWait = false) →
        ((x.coh.path (!x.isB)).map Path.barWait).getD false = false →
        ((s.stand x w).coh x.ref).map (·.spill) = some (x.coh.spill.tail ++ [⟨{ x.standing w with dem := false }, 0#2⟩])
        ∧ (s.stand x w).slot x.ref x.isB = x.coh.spill.head?.map (·.path))
    ∧ s.keeps (s.stand x w) x.waitPlaces := by
  have hkp : k.path x.isB = some x.path := (hpaths _).trans hp
  have hfirst := Ctx.standing_waitsFirst (x := x) hw
  have hnobar : (x.standing w).barWait = false := hbar _ rfl
  have hyields : x.yields (x.standing w) = (x.standsFirst && !x.coh.spill.isEmpty && x.path.dem) := by
    simp [Ctx.yields, hfirst, hnobar]
  have hupd : s.keeps (s.updCoh x.ref (fun k => k.stood x w)) x.waitPlaces := State.keeps_updCoh (fun c _ z hz =>
    cohSame_of_repathed (c.repathed_stood x w) x.ref (fun i he => hz (.inl ⟨i, he⟩)) (fun he => hz (.inr (.inl he)))
      (fun he => hz (.inr (.inr (.inl he)))) (fun he => hz (.inr (.inr (.inr (.inl he))))))
  have hcoh : (s.updCoh x.ref (fun k => k.stood x w)).coh x.ref = some (k.stood x w) := by
    rw [State.coh_updCoh, if_pos rfl, hc]
    rfl
  obtain ⟨cs, hblk⟩ := s.block_updCoh x.ref (fun k => k.stood x w) x.ref.blk
  rw [hb, Option.map_some] at hblk
  have hin : ({ b with cohs := cs b } : Block).coh x.ref.coh = some (k.stood x w) := by
    rw [State.coh, hblk] at hcoh
    exact hcoh
  obtain ⟨hrel, hsame⟩ := State.keeps_releaseIssue hblk hin
  have hpart' : (k.stood x w).part = x.coh.part := by
    obtain ⟨_, _, _, _, _, _, he⟩ := k.repathed_stood x w
    rw [he]
    exact hpart
  have hend : (s.stand x w).coh x.ref = some (k.stood x w) := by
    rw [State.stand_eq]
    exact (hsame x.ref).trans hcoh
  refine ⟨fun hy => ?_, fun hy hsp hother => ?_, State.keeps_trans hupd (State.keeps_mono hrel (fun z hz => ?_))⟩
  · rw [hyields] at hy
    have hpath := Cohort.path_waitedOn (w := w) hkp hw (by
      rw [hspill]
      revert hy
      cases x.standsFirst <;> cases x.path.dem <;> simp)
    rw [State.slot, hend, hfirst]
    exact Cohort.path_yieldBar hpath (hbar _ rfl) _
  · rw [hyields] at hy
    simp only [Bool.and_eq_true, Bool.not_eq_true', List.isEmpty_eq_false_iff] at hy
    obtain ⟨⟨hf, hne⟩, hdem⟩ := hy
    obtain ⟨e, es, hes⟩ := List.exists_cons_of_ne_nil hne
    have hon := Cohort.waitedOn_cons (w := w) hkp hw hf hdem (hspill.trans hes)
    have hquiet : ∀ i, (((k.waitedOn x w).path i).map Path.barWait).getD false = false := by
      intro i
      rw [hon]
      by_cases hi : i = x.isB
      · subst hi
        have hpath : ((k.waited x w).setPath x.isB (some e.path)).path x.isB = some e.path :=
          (Cohort.path_setPath _ x.isB x.isB _).trans (if_pos rfl)
        exact (congrArg (fun o => (Option.map Path.barWait o).getD false) hpath).trans (hsp e (by simp [hes]))
      · have hi' : i = !x.isB := by
          revert hi
          cases i <;> cases x.isB <;> simp
        have hpath : ((k.waited x w).setPath x.isB (some e.path)).path i = x.coh.path (!x.isB) := by
          refine (Cohort.path_setPath _ x.isB i _).trans ((if_neg hi).trans ?_)
          refine (Cohort.path_setPath k x.isB i _).trans ((if_neg hi).trans ?_)
          rw [hpaths, hi']
        exact (congrArg (fun o => (Option.map Path.barWait o).getD false) hpath).trans hother
    have hstood : k.stood x w = k.waitedOn x w := Cohort.yieldBar_none hquiet _
    rw [State.slot, hend, hstood, hon, hes]
    exact ⟨rfl, (Cohort.path_setPath (k.waited x w) x.isB x.isB _).trans (if_pos rfl)⟩
  · rcases hz with hz | hz
    · exact .inr (.inr (.inr (.inr (.inl hz))))
    · refine .inr (.inr (.inr (.inr (.inr ?_))))
      rw [hz, hpart']
      exact congrArg (fun n => Place.part n x.coh.part) hcore

end Sys2Proof.Machine
end

section
/-! SUPPORT. The operation of a word, and what a word's body answers (R55, R60, R128; O18). -/
namespace Sys2Proof.Machine

/-! ## The operation of a word (R55, R60) -/

/-- A cohort behind the count of a word. -/
def Cohort.plus (k : Cohort) (slot : Option (BitVec 3)) : Cohort :=
  match slot with
  | some n => k.incCtr n
  | none => k

theorem Cohort.plus_eq (k : Cohort) (slot : Option (BitVec 3)) : ∃ m, k.plus slot = { k with d := m } := by
  cases slot with
  | none => exact ⟨k.d, rfl⟩
  | some n => exact ⟨_, rfl⟩

/-- The operation that joins the machine as its newest. -/
def Pend.joined (p : Pend) (t : State) (lanes : AMap (List Acc)) (more : Bool) : Pend :=
  { p with
    id := t.nid
    lanes := lanes
    more := more
    sect := sectors lanes
    smp := if more then none else p.smp }

/-- The count of a word's operation (R55). -/
def State.countOp (s : State) (r : CohRef) (slot : Option (BitVec 3)) : State :=
  match slot with
  | some n => s.updCoh r (fun k => k.incCtr n)
  | none => s

/-- A count moves its counter. -/
theorem State.keeps_countOp (s : State) (r : CohRef) (slot : Option (BitVec 3)) :
    s.keeps (s.countOp r slot) (fun z => ∃ n, slot = some n ∧ z = .ctr r n.toNat) := by
  cases slot with
  | none => exact s.keeps_refl _
  | some n =>
    refine State.keeps_updCoh (fun k _ z hz => ?_)
    cases z with
    | ctr q m =>
      rintro rfl
      have hm : m ≠ n.toNat := fun he => hz ⟨n, rfl, by rw [he]⟩
      simp [Cohort.incCtr, Cohort.ctr_setCtr, hm]
    | _ => simp [cohSame, Cohort.incCtr, Cohort.setCtr, Cohort.sreg, Cohort.kreg, Cohort.thread, Cohort.path, Cohort.counts, Cohort.bare]

theorem State.coh_countOp {s : State} {r : CohRef} {k : Cohort} (h : s.coh r = some k) (slot : Option (BitVec 3)) :
    (s.countOp r slot).coh r = some (k.plus slot) := by
  cases slot with
  | none => exact h
  | some n => rw [State.countOp, State.coh_updCoh, if_pos rfl, h]; rfl

theorem State.block_countOp {s : State} {r : CohRef} {n : Nat} {b : Block} (h : s.block n = some b) (slot : Option (BitVec 3)) :
    ∃ b', (s.countOp r slot).block n = some b' ∧ b'.coreId = b.coreId := by
  cases slot with
  | none => exact ⟨b, h, rfl⟩
  | some m =>
    obtain ⟨g, hg⟩ := s.block_updCoh r (fun k => k.incCtr m) n
    exact ⟨_, hg.trans (congrArg (Option.map _) h), rfl⟩

theorem State.pend_countOp (s : State) (r : CohRef) (slot : Option (BitVec 3)) :
    (s.countOp r slot).pend = s.pend ∧ (s.countOp r slot).nid = s.nid := by
  cases slot <;> simp [State.countOp]

theorem State.keeps_addPend (t : State) (p : Pend) : t.keeps (t.addPend p) (fun z => z = .pend ∨ z = .names) := by
  intro z hz
  cases z with
  | pend => exact absurd (.inl rfl) hz
  | names => exact absurd (.inr rfl) hz
  | byte st _ | full st _ | psn st _ => cases st <;> rfl
  | cur | xlat => exact ⟨rfl, rfl⟩
  | _ => rfl

theorem State.joinPend_eq {t : State} {x : Ctx} (h : t.wordOp x = none) {p : Pend} (hd : p.kind.demotes = false) (lanes : AMap (List Acc))
    (more : Bool) : t.joinPend x p lanes more = (t.addPend (p.joined t lanes more)).countOp x.ref p.slot := by
  unfold State.joinPend
  rw [h]
  dsimp only
  rw [if_neg (by simp [hd])]
  rfl

/-- The lanes sent by a word that has no operation yet are a new one, which counts. -/
theorem State.joinPend_new {t : State} {x : Ctx} (h : t.wordOp x = none) {p : Pend} (hd : p.kind.demotes = false) (lanes : AMap (List Acc))
    (more : Bool) :
    let j := t.joinPend x p lanes more
    j.pend = t.pend ++ [p.joined t lanes more] ∧ j.nid = t.nid + 1
      ∧ (∀ k, t.coh x.ref = some k → j.coh x.ref = some (k.plus p.slot))
      ∧ (∀ n b, t.block n = some b → ∃ b', j.block n = some b' ∧ b'.coreId = b.coreId)
      ∧ t.keeps j (fun z => z = .pend ∨ z = .names ∨ ∃ n, p.slot = some n ∧ z = .ctr x.ref n.toNat) := by
  obtain ⟨hpend, hnid⟩ := (t.addPend (p.joined t lanes more)).pend_countOp x.ref p.slot
  rw [State.joinPend_eq h hd]
  exact ⟨hpend, hnid, fun _ hk => State.coh_countOp (s := t.addPend (p.joined t lanes more)) hk p.slot,
    fun _ _ hb => State.block_countOp (s := t.addPend (p.joined t lanes more)) hb p.slot,
    State.keeps_trans (State.keeps_mono (t.keeps_addPend (p.joined t lanes more)) (fun _ hz => hz.elim .inl (fun hz => .inr (.inl hz))))
      (State.keeps_mono (State.keeps_countOp _ x.ref p.slot) (fun _ hz => .inr (.inr hz)))⟩

/-! ## What a word's body answers -/

/-- A word that begins to wait. -/
theorem word_wait {s s' : State} {x : Ctx} {c : Ctl} {body : Ctx → WRes} {w : PWait} (h : s.issues x c)
    (hb : body { x with smp := s.sampleOf x } = .wait s' w) : word c s body = .next (s'.stand x w) := by
  obtain ⟨hx, hw, hf, hk⟩ := issues_checks h
  simp only [word, hx]
  rw [if_neg (by simp [hw]), if_neg ?_, hk, Option.getD_none, hb]
  exact hf

/-- The state in which a word freezes behind a part of its effect (R60). -/
def State.frozenBehind (s s' : State) (x : Ctx) : State :=
  ((s'.issued { x with smp := s.sampleOf x }).noteOps x.ref x.isB s.nid).sampleFroze { x with smp := s.sampleOf x }

theorem word_part {s s' : State} {x : Ctx} {c : Ctl} {body : Ctx → WRes} {z : Fz} (h : s.issues x c)
    (hb : body { x with smp := s.sampleOf x } = .part s' z false) :
    word c s body = .next ((s.frozenBehind s' x).freezeCoh x.ref (x.frz z) z.flane z.pmask z.pidx) := by
  obtain ⟨hx, hw, hf, hk⟩ := issues_checks h
  simp only [word, hx]
  rw [if_neg (by simp [hw]), if_neg ?_, hk, Option.getD_none, hb]
  · rfl
  · exact hf

/-- Where no buffer takes samples, the path notes its operations and nothing else moves but what issue counts. -/
theorem State.frozenBehind_spec {s s' : State} {x : Ctx} (hsmp : (s.die x.blk.die).smpsize = 0) {k : Cohort} {p : Path}
    (hc : s'.coh x.ref = some k) (hp : k.path x.isB = some p) :
    (∃ ids, (s.frozenBehind s' x).slot x.ref x.isB = some { p with ops := ids } ∧ p.ops ⊆ ids) ∧ s'.keeps (s.frozenBehind s' x) x.moved := by
  have hnone : s.sampleOf x = none := by simp [State.sampleOf, hsmp]
  unfold State.frozenBehind
  rw [hnone]
  show (∃ ids, ((s'.issued { x with smp := none }).noteOps x.ref x.isB s.nid).slot x.ref x.isB = some { p with ops := ids } ∧ p.ops ⊆ ids)
    ∧ s'.keeps ((s'.issued { x with smp := none }).noteOps x.ref x.isB s.nid) x.moved
  obtain ⟨k', hk', ek⟩ := s'.coh_issued { x with smp := none } k hc
  have hp' : k'.path x.isB = some p := by rw [ek]; exact hp
  obtain ⟨o, ho, hsub, -⟩ := (s'.issued { x with smp := none }).coh_noteOps x.ref x.isB s.nid hk' hp'
  refine ⟨⟨o, ?_, hsub⟩, ?_⟩
  · rw [State.slot, ho]
    exact (Cohort.path_setPath k' x.isB x.isB _).trans (if_pos rfl)
  · exact State.keeps_trans (s'.keeps_issued { x with smp := none } (fun z hz => by cases z <;> exact hz))
      (State.keeps_noteOps _ x.ref x.isB s.nid ⟨rfl, rfl⟩)

/-! ## The issuer while its lanes are sent -/

/-- In `u` the issuer of `s` stands as it was read: but for reservations and the open group of its copies. -/
structure issuerIn (s u : State) (x : Ctx) : Prop where
  errs : u.errIn = []
  pend : u.pend = s.pend
  nid  : u.nid = s.nid
  clk  : u.clk = s.clk
  coh  : ∃ ls og, u.coh x.ref = some { x.coh with lanes := ls, openg := og }
  core : ∃ b, u.block x.ref.blk = some b ∧ b.coreId = x.blk.coreId

theorem issuerIn_self {s : State} {x : Ctx} (hx : s.ctx = some x) (herr : s.errIn = []) : issuerIn s s x := by
  obtain ⟨-, hblk, hcoh, -⟩ := State.ctx_some hx
  exact ⟨herr, rfl, rfl, rfl, ⟨x.coh.lanes, x.coh.openg, hcoh⟩, ⟨x.blk, hblk, rfl⟩⟩

theorem issuerIn.translated {s u t : State} {x : Ctx} (h : issuerIn s u x) (ht : u.onlyTranslates t) : issuerIn s t x := by
  obtain ⟨ls, og, hcoh⟩ := h.coh
  obtain ⟨ls', hcoh'⟩ := ht.cohs _ _ hcoh
  obtain ⟨b, hb, hcore⟩ := h.core
  obtain ⟨b', hb', hcore'⟩ := ht.cores _ _ hb
  exact ⟨ht.errs.trans h.errs, ht.pend.trans h.pend, ht.nid.trans h.nid, ht.clk.trans h.clk, ⟨ls', og, hcoh'⟩, ⟨b', hb', hcore'.trans hcore⟩⟩

theorem issuerIn.wordOp {s u : State} {x : Ctx} (h : issuerIn s u x) : u.wordOp x = s.wordOp x := by
  simp only [State.wordOp, State.pathOp, State.pendOf, h.pend]

/-- The end of a Turret word behind its lanes sent (R128): a wait for far replies, the word complete, or a freeze. -/
def turretEnd (x : Ctx) (zs : List Nat) (old : Option Pend) (clk : Nat) (r : Sent) (p : Pend) : WRes :=
  let far := r.lanes.any (fun l => accsFar l.2)
  let w : PWait := ⟨.reply, !far, clk, (old.map (·.id)).getD r.s.nid, []⟩
  let s1 := r.s.joinPend x p (withZeros zs r.lanes) (far || !r.fails.isEmpty)
  if far then .wait s1 w
  else if r.fails.isEmpty then .done s1 .none
  else .part (s1.updCoh x.ref (fun c => c.setPath x.isB ((c.path x.isB).map (fun q => { q with wait := some w })))) (x.stage2Fz r.fails) false

theorem turretBody_passes {s : State} {x : Ctx} {pc : Bool} {zs : List Nat} {rs : AMap (Option TLane)} {cap : W32} {sp : Option Fz}
    (h : stage1 rs cap sp = none) (ac : Access) (ks : TLane → List Nat) (pre : State → State) (p : State → Pend) :
    turretBody x pc zs s rs cap sp ac ks pre p =
      let r := sendLanes x pc (((s.wordOp x).map (·.lost)).getD 0#32) ac ks (okLanes rs) (if (s.wordOp x).isSome then s else pre s)
      turretEnd x zs (s.wordOp x) s.clk r (p r.s) := by
  unfold turretBody
  rw [h]
  rfl

theorem popcount_eq_countP (m : W32) : popcount m = (List.range 32).countP (fun i => m.getLsbD i) := by
  have hmain (is : List Nat) (n : Nat) : is.foldl (fun n i => if m.getLsbD i then n + 1 else n) n = n + is.countP (fun i => m.getLsbD i) := by
    induction is generalizing n with
    | nil => rfl
    | cons i is ih =>
      rw [List.foldl_cons, ih, List.countP_cons]
      split <;> omega
  rw [popcount, hmain, Nat.zero_add]

end Sys2Proof.Machine
end

section
/-! SUPPORT. A word behind its lanes sent: it waits, has issued, or freezes (R55, R60, R128; O18). -/
namespace Sys2Proof.Machine

/-! ## The word behind its lanes sent (R55, R60, R128) -/

theorem turretEnd_far {x : Ctx} {zs : List Nat} {old : Option Pend} {clk : Nat} {r : Sent} {p : Pend}
    (h : r.lanes.any (fun l => accsFar l.2) = true) :
    turretEnd x zs old clk r p = .wait (r.s.joinPend x p (withZeros zs r.lanes) true) ⟨.reply, false, clk, (old.map (·.id)).getD r.s.nid, []⟩ := by
  simp [turretEnd, h]

theorem turretEnd_sent {x : Ctx} {zs : List Nat} {old : Option Pend} {clk : Nat} {r : Sent} {p : Pend}
    (h : r.lanes.any (fun l => accsFar l.2) = false) (hf : r.fails = []) :
    turretEnd x zs old clk r p = .done (r.s.joinPend x p (withZeros zs r.lanes) false) .none := by
  simp [turretEnd, h, hf]

/-- The path of a word that freezes behind the lanes sent stands in a wait that has ended. -/
def State.standsReleased (s : State) (x : Ctx) (w : PWait) : State :=
  s.updCoh x.ref (fun c => c.setPath x.isB ((c.path x.isB).map (fun q => { q with wait := some w })))

theorem turretEnd_part {x : Ctx} {zs : List Nat} {old : Option Pend} {clk : Nat} {r : Sent} {p : Pend}
    (h : r.lanes.any (fun l => accsFar l.2) = false) (hf : r.fails ≠ []) :
    turretEnd x zs old clk r p = .part ((r.s.joinPend x p (withZeros zs r.lanes) true).standsReleased x
      ⟨.reply, true, clk, (old.map (·.id)).getD r.s.nid, []⟩) (x.stage2Fz r.fails) false := by
  have hne : r.fails.isEmpty = false := by simpa using hf
  simp only [turretEnd, h, hne, Bool.false_eq_true, if_false, Bool.not_false, Bool.or_true]
  rfl

theorem State.keeps_standsReleased (s : State) (x : Ctx) (w : PWait) : s.keeps (s.standsReleased x w) x.moved := by
  refine State.keeps_updCoh (fun k _ z hz => ?_)
  cases z with
  | slot q i =>
    intro hq
    have hi : i ≠ x.isB := fun hi => hz ⟨hq, hi⟩
    rw [Cohort.path_setPath, if_neg hi]
  | _ => cases x.isB <;> simp [cohSame, Cohort.setPath, Cohort.sreg, Cohort.kreg, Cohort.ctr, Cohort.thread, Cohort.counts, Cohort.bare]

theorem State.coh_standsReleased {s : State} {x : Ctx} {k : Cohort} {p : Path} (hc : s.coh x.ref = some k) (hp : k.path x.isB = some p) (w : PWait) :
    (s.standsReleased x w).coh x.ref = some (k.setPath x.isB (some { p with wait := some w })) := by
  rw [State.standsReleased, State.coh_updCoh, if_pos rfl, hc, Option.map_some, hp]
  rfl

/-- In `j` the lanes sent in `t` are the newest operation in flight, and counted. -/
structure opCounted (x : Ctx) (c : Ctl) (t j : State) (q : Pend) : Prop where
  pend : j.pend = t.pend ++ [q]
  nid  : j.nid = t.nid + 1
  coh  : ∃ ls og d, j.coh x.ref = some { x.coh with lanes := ls, openg := og, d := d }
  core : ∃ b, j.block x.ref.blk = some b ∧ b.coreId = x.blk.coreId
  ctr  : ∀ n, c.set = some n → j.ctrAt x.ref n.toNat = x.coh.ctr n.toNat + 1#6
  rest : t.keeps j (x.flight c)

theorem issuerIn.counted {s t : State} {x : Ctx} {c : Ctl} (h : issuerIn s t x) (hnone : s.wordOp x = none) {p : Pend}
    (hd : p.kind.demotes = false) (hs : p.slot = c.set) (lanes : AMap (List Acc)) (more : Bool) :
    opCounted x c t (t.joinPend x p lanes more) (p.joined t lanes more) := by
  obtain ⟨hpend, hnid, hcoh, hcore, hrest⟩ := State.joinPend_new (h.wordOp.trans hnone) hd lanes more
  obtain ⟨ls, og, hk⟩ := h.coh
  obtain ⟨b, hb, hid⟩ := h.core
  obtain ⟨b', hb', hid'⟩ := hcore _ _ hb
  have hk' := hcoh _ hk
  refine ⟨hpend, hnid, ?_, ⟨b', hb', hid'.trans hid⟩, fun n hn => ?_, State.keeps_mono hrest (fun z hz => ?_)⟩
  · obtain ⟨m, hm⟩ := Cohort.plus_eq { x.coh with lanes := ls, openg := og } p.slot
    exact ⟨ls, og, m, hk'.trans (congrArg some hm)⟩
  · rw [hs, hn] at hk'
    rw [State.ctrAt, hk']
    exact (Cohort.ctr_setCtr _ n.toNat n.toNat _).trans (if_pos rfl)
  · rcases hz with rfl | rfl | ⟨n, hn, rfl⟩
    · trivial
    · trivial
    · exact ⟨rfl, n, hs ▸ hn, rfl⟩

/-- The word waits for far replies. -/
theorem opCounted.waits {x : Ctx} {c : Ctl} {t j : State} {q : Pend} (h : opCounted x c t j q) (hp : x.coh.path x.isB = some x.path) (clk num : Nat)
    {ops : List Nat → Prop} (hops : ops x.path.ops) :
    (j.stand x ⟨.reply, false, clk, num, []⟩).pend = t.pend ++ [q]
    ∧ (∀ n, c.set = some n → (j.stand x ⟨.reply, false, clk, num, []⟩).ctrAt x.ref n.toNat = x.coh.ctr n.toNat + 1#6)
    ∧ waitsWith t x (.next (j.stand x ⟨.reply, false, clk, num, []⟩)) ⟨.reply, false, clk, num, []⟩ ops (x.flight c) := by
  obtain ⟨ls, og, d, hk⟩ := h.coh
  obtain ⟨b, hb, hid⟩ := h.core
  obtain ⟨hstay, hyield, hkeep⟩ := State.waits_stand (w := ⟨.reply, false, clk, num, []⟩) hk hb hid rfl (fun i => by cases i <;> rfl) rfl hp rfl
    (fun p hp => by simp [Path.barWait, hp])
  have hrest : t.keeps (j.stand x ⟨.reply, false, clk, num, []⟩) (fun z => x.waitPlaces z ∨ x.flight c z) :=
    State.keeps_trans (State.keeps_mono h.rest (fun _ => .inr)) (State.keeps_mono hkeep (fun _ => .inl))
  refine ⟨(hkeep .pend (by simp [Ctx.waitPlaces])).trans h.pend,
    fun n hn => (hkeep (.ctr x.ref n.toNat) (by simp [Ctx.waitPlaces])).trans (h.ctr n hn), _, x.path.ops, rfl, hops, hstay, hyield, hrest⟩

/-- The word has issued. -/
theorem opCounted.issues {s : State} {x : Ctx} {c : Ctl} {t j : State} {q : Pend} {body : Ctx → WRes} (h : opCounted x c t j q)
    (hx : s.issues x c) (hrinc : x.coh.rinc = false) (hb : body { x with smp := s.sampleOf x } = .done j .none) (hd : q.kind.demotes = false)
    (hq : q.id = t.nid ∧ q.ref = x.ref ∧ q.isB = x.isB ∧ q.grid = x.blk.grid ∧ q.slot = c.set) :
    t.asyncDone x c (word c s body) q (fun _ => False) := by
  obtain ⟨-, -, -, -, hpath, -⟩ := State.ctx_some hx.1
  obtain ⟨ls, og, d, hk⟩ := h.coh
  have hp : ({ x.coh with lanes := ls, openg := og, d := d } : Cohort).path x.isB = some x.path := hpath
  obtain ⟨u, hword, ⟨⟨o, hslot, rfl⟩, hlatch⟩, hkeep⟩ := word_done hx hb hk hp rfl rfl
  obtain ⟨hid, href, hB, hgrid, hset⟩ := hq
  refine ⟨hid, href, hB, hgrid, hset, u, hword, (hkeep .pend (fun hz => hz)).trans h.pend, ?_, fun n hn => ?_,
    ⟨⟨_, hslot, List.Subset.refl _, by simp [hd]⟩, hlatch⟩, ?_⟩
  · exact ((hkeep .names (fun hz => hz)).1).trans h.nid
  · rw [hrinc]
    exact (hkeep (.ctr x.ref n.toNat) (fun hz => hz)).trans (h.ctr n hn)
  · exact State.keeps_trans (State.keeps_mono h.rest (fun _ hz => .inr (.inl hz))) (State.keeps_mono hkeep (fun _ => .inl))

/-- The cohort freezes behind the lanes sent. -/
theorem opCounted.freezes {s : State} {x : Ctx} {c : Ctl} {t j : State} {q : Pend} (h : opCounted x c t j q)
    (hp : x.coh.path x.isB = some x.path) (hsmp : (s.die x.blk.die).smpsize = 0) (w : PWait) :
    let v := s.frozenBehind (j.standsReleased x w) x
    v.pend = t.pend ++ [q] ∧ (∀ n, c.set = some n → v.ctrAt x.ref n.toNat = x.coh.ctr n.toNat + 1#6)
      ∧ (∃ ids, v.slot x.ref x.isB = some { x.path with wait := some w, ops := ids } ∧ x.path.ops ⊆ ids)
      ∧ t.keeps v (fun z => x.moved z ∨ x.flight c z) := by
  obtain ⟨ls, og, d, hk⟩ := h.coh
  have hp' : ({ x.coh with lanes := ls, openg := og, d := d } : Cohort).path x.isB = some x.path := hp
  have hk' := State.coh_standsReleased hk hp' w
  obtain ⟨⟨ids, hslot, hsub⟩, hkeep⟩ := State.frozenBehind_spec (s := s) hsmp hk' ((Cohort.path_setPath _ x.isB x.isB _).trans (if_pos rfl))
  have hall := State.keeps_trans (j.keeps_standsReleased x w) hkeep
  exact ⟨(hall .pend (fun hz => hz)).trans h.pend, fun n hn => (hall (.ctr x.ref n.toNat) (fun hz => hz)).trans (h.ctr n hn), ⟨ids, hslot, hsub⟩,
    State.keeps_trans (State.keeps_mono h.rest (fun _ => .inr)) (State.keeps_mono hall (fun _ => .inl))⟩

/-- The freeze of a word some of whose lanes fail (R90, R128). -/
theorem Ctx.frz_stage2Fz (x : Ctx) {l : Nat} {f : XFault} {va : W64} {r fails : AMap (XFault × W64)} (h : fails = (l, f, va) :: r) :
    x.frz (x.stage2Fz fails) = ⟨f.kind, f.code, f.level, (x.path.cl.map (·.wi)).getD 0, x.isB, x.path.pc, va, false, false,
      fails.map (fun k => (k.1, k.2.1.code, k.2.1.level, k.2.2))⟩ := by
  subst h
  rfl

/-- A word on main memory without an operation yet whose body ends with its lanes sent from `u` on. -/
theorem sentOrFrozen_of_body {s u : State} {x : Ctx} {c : Ctl} {body : Ctx → WRes} {ac : Access} {ks : TLane → List Nat} {zs : List Nat}
    {L : Nat → TLane} {isOp : Pend → Prop} {kind : PKind} {dst : Option Dst} {tag : Tag} (h : s.issues x c) (hrinc : x.coh.rinc = false)
    (hnone : s.wordOp x = none) (hu : issuerIn s u x) (hd : kind.demotes = false) (hop : ∀ q : Pend, q.kind = kind → q.dst = dst → q.tag = tag → isOp q)
    (hb : ∀ y : Ctx, y = { x with smp := s.sampleOf x } → body y = turretEnd y zs none s.clk
      (sendLanes x false 0#32 ac ks (x.lanes.map (fun l => (l, L l))) u)
      (y.pend (sendLanes x false 0#32 ac ks (x.lanes.map (fun l => (l, L l))) u).s kind dst tag c.set [])) :
    sentOrFrozen s x c (word c s body) u false ac ks zs L isOp := by
  obtain ⟨-, -, -, -, hpath, -⟩ := State.ctx_some h.1
  have hR := hu.translated (sendLanes_spec hu.errs x 0#32 ac ks (x.lanes.map (fun l => (l, L l)))).1
  have hbody := hb _ rfl
  unfold sentOrFrozen
  generalize sendLanes x false 0#32 ac ks (x.lanes.map (fun l => (l, L l))) u = R at hR hbody ⊢
  dsimp only
  have hclk := hR.clk
  have hcount (more : Bool) := hR.counted (c := c) hnone
    (p := { x with smp := s.sampleOf x : Ctx }.pend R.s kind dst tag c.set []) hd rfl (withZeros zs R.lanes) more
  split
  · rename_i hfar
    rw [turretEnd_far hfar] at hbody
    obtain ⟨hpend, hctr, hwait⟩ := (hcount true).waits hpath s.clk R.s.nid
      (ops := fun ids => x.path.ops ⊆ ids ∧ (kind.demotes = true → R.s.nid ∈ ids)) ⟨List.Subset.refl _, by simp [hd]⟩
    rw [hclk, word_wait h hbody]
    exact ⟨_, _, rfl, hpend, ⟨rfl, rfl, rfl, hop _ rfl rfl rfl, rfl, rfl, rfl, rfl, rfl⟩, hctr, hwait⟩
  · rename_i hfar
    simp only [Bool.not_eq_true] at hfar
    split
    · rename_i hfails
      rw [turretEnd_sent hfar hfails] at hbody
      exact ⟨_, (hcount false).issues h hrinc hbody hd ⟨rfl, rfl, rfl, rfl, rfl⟩, rfl, rfl, rfl, hop _ rfl rfl rfl, rfl, rfl, rfl, rfl, rfl⟩
    · rename_i hfails
      intro hsmp _
      rw [turretEnd_part hfar hfails] at hbody
      obtain ⟨hpend, hctr, ⟨ids, hslot, hsub⟩, hkeep⟩ := (hcount true).freezes hpath hsmp ⟨.reply, true, s.clk, R.s.nid, []⟩
      rw [hclk, word_part h hbody]
      refine ⟨_, _, _, rfl, hpend, ⟨rfl, rfl, rfl, hop _ rfl rfl rfl, rfl, rfl, rfl, rfl, rfl⟩, hctr, ⟨ids, hslot, hsub, ?_⟩, hkeep, ?_⟩
      · intro hdem
        exact absurd hdem (by simp [Pend.joined, Ctx.pend, hd])
      · intro l f va r hr
        rw [← popcount_eq_countP]
        exact congrArg (fun z => State.freezeCoh _ _ z _ _ _) (x.frz_stage2Fz hr)

end Sys2Proof.Machine
end

section
/-! SUPPORT. A word issued again for the lanes left (R60, R128; O18). -/
namespace Sys2Proof.Machine

/-! ## The word issued again for the lanes left (R60, R128) -/

/-- An operation that the lanes left have joined. -/
def Pend.completed (q : Pend) (lanes : AMap (List Acc)) : Pend :=
  { q with lanes := lanes.foldl (fun m l => AMap.set m l.1 l.2) q.lanes, more := false, lost := 0#32 }

theorem State.joinPend_old {t : State} {x : Ctx} {q : Pend} (h : t.wordOp x = some q) (p : Pend) {lanes : AMap (List Acc)}
    (hne : lanes.foldl (fun m l => AMap.set m l.1 l.2) q.lanes ≠ []) :
    t.joinPend x p lanes false = t.setPend (q.completed lanes) := by
  unfold State.joinPend
  rw [h]
  dsimp only
  rw [if_neg (by simp [hne])]
  rfl

theorem State.pendOf_of_wordOp {s : State} {x : Ctx} {q : Pend} (h : s.wordOp x = some q) : s.pendOf q.id = some q := by
  unfold State.wordOp State.pathOp at h
  split at h
  · split at h
    · rw [State.id_of_pendOf h]
      exact h
    · simp at h
  · simp at h

theorem State.wordOp_of_pend {s t : State} (h : t.pend = s.pend) (x : Ctx) : t.wordOp x = s.wordOp x := by
  simp only [State.wordOp, State.pathOp, State.pendOf, h]

theorem State.pendOf_of_pend {s t : State} (h : t.pend = s.pend) (id : Nat) : t.pendOf id = s.pendOf id := by
  simp only [State.pendOf, h]

/-- Other operations in flight, and nothing else. -/
theorem State.keeps_withPend (s : State) (ps : List Pend) : s.keeps (s.withPend ps) (fun z => z = .pend) := by
  intro z hz
  cases z with
  | pend => exact absurd rfl hz
  | byte st _ | full st _ | psn st _ => cases st <;> rfl
  | cur | xlat | names => exact ⟨rfl, rfl⟩
  | _ => rfl

/-- A word that has sent lanes before, whose body ends with the others sent, where the operations in flight may differ in its own kind. -/
theorem resent_of_body {s : State} {x : Ctx} {c : Ctl} {body : Ctx → WRes} {ac : Access} {ks : TLane → List Nat} {zs : List Nat}
    {L : Nat → TLane} {q0 : Pend} {ps : List Pend} {k : PKind} (h : s.issues x c) (herr : s.errIn = [])
    (hk : k = q0.kind ∨ ∃ tags, k = .scata tags) (hop : (s.withPend ps).wordOp x = some { q0 with kind := k })
    (hothers : ∀ id, id ≠ q0.id → (s.withPend ps).pendOf id = s.pendOf id)
    (hb : ∀ y : Ctx, y = { x with smp := s.sampleOf x } → ∃ p, body y = turretEnd y zs (some { q0 with kind := k }) s.clk
      (sendLanes x false q0.lost ac ks ((x.unsent s).map (fun l => (l, L l))) (s.withPend ps)) p) :
    resent s x c (word c s body) q0 false ac ks zs L := by
  obtain ⟨-, -, hcoh, -, hpath, -⟩ := State.ctx_some h.1
  obtain ⟨honly, hsend⟩ := sendLanes_spec herr x q0.lost ac ks ((x.unsent s).map (fun l => (l, L l)))
  obtain ⟨p, hbody⟩ := hb _ rfl
  rw [hsend ps] at hbody
  unfold resent
  generalize sendLanes x false q0.lost ac ks ((x.unsent s).map (fun l => (l, L l))) s = R at honly hbody ⊢
  dsimp only
  intro hfails hfar hne
  obtain ⟨ls, hk'⟩ := honly.cohs _ _ hcoh
  have hown : (R.s.withPend ps).wordOp x = some { q0 with kind := k } := (State.wordOp_of_pend rfl x).trans hop
  have hjoin := State.joinPend_old (x := { x with smp := s.sampleOf x }) hown p hne
  have hdone := (hbody.trans (turretEnd_sent (r := { R with s := R.s.withPend ps }) hfar hfails)).trans (congrArg (WRes.done · .none) hjoin)
  obtain ⟨t, hword, hpass, hkeep⟩ := word_done h hdone (k := { x.coh with lanes := ls }) hk' hpath rfl rfl
  have hfind : (R.s.withPend ps).pendOf q0.id = some { q0 with kind := k } := State.pendOf_of_wordOp hown
  have hpend : t.pend = _ := hkeep .pend (fun hz => hz)
  refine ⟨t, k, hword, ?_, hk, fun id hid => ?_, hpass, ?_⟩
  · rw [State.pendOf_of_pend hpend]
    exact State.pendOf_setPend (p := { q0 with kind := k }.completed _) hfind
  · rw [State.pendOf_of_pend hpend]
    exact (State.pendOf_setPend_ne (R.s.withPend ps) (p := { q0 with kind := k }.completed _) hid).trans ((State.pendOf_of_pend rfl id).trans (hothers id hid))
  · exact State.keeps_trans (State.keeps_mono (R.s.keeps_withPend _) (fun _ => .inr)) (State.keeps_mono hkeep (fun _ => .inl))

/-- The same where no operation in flight differs. -/
theorem resent_of_body_same {s : State} {x : Ctx} {c : Ctl} {body : Ctx → WRes} {ac : Access} {ks : TLane → List Nat} {zs : List Nat}
    {L : Nat → TLane} {q0 : Pend} (h : s.issues x c) (herr : s.errIn = []) (hop : s.wordOp x = some q0)
    (hb : ∀ y : Ctx, y = { x with smp := s.sampleOf x } → ∃ p, body y = turretEnd y zs (some q0) s.clk
      (sendLanes x false q0.lost ac ks ((x.unsent s).map (fun l => (l, L l))) s) p) :
    resent s x c (word c s body) q0 false ac ks zs L :=
  resent_of_body (ps := s.pend) h herr (.inl rfl) hop (fun _ _ => rfl) hb

/-- A word on main memory whose lanes pass stage 1 and whose own checks pass. -/
theorem sends_of_body {s : State} {x : Ctx} {c : Ctl} {body : Ctx → WRes} {ac : Access} {ks : TLane → List Nat} {zs : List Nat}
    {L : Nat → TLane} {isOp : Pend → Prop} {kind : PKind} {dst : Option Dst} {tag : Tag} (h : s.issues x c) (herr : s.errIn = [])
    (hrinc : x.coh.rinc = false) (hd : kind.demotes = false) (hop : ∀ q : Pend, q.kind = kind → q.dst = dst → q.tag = tag → isOp q)
    (hb : ∀ y : Ctx, y = { x with smp := s.sampleOf x } → body y =
      let R := sendLanes x false (((s.wordOp x).map (·.lost)).getD 0#32) ac ks ((x.unsent s).map (fun l => (l, L l))) s
      turretEnd y zs (s.wordOp x) s.clk R (y.pend R.s kind dst tag c.set [])) :
    sends s x c (word c s body) false ac ks zs L isOp := by
  refine ⟨fun hnone => ?_, fun q0 hq0 => ?_⟩
  · refine sentOrFrozen_of_body h hrinc hnone (issuerIn_self h.1 herr) hd hop (fun y hy => ?_)
    have hall : x.unsent s = x.lanes := by simp [Ctx.unsent, hnone]
    rw [hb y hy, hnone, hall]
    rfl
  · refine resent_of_body_same h herr hq0 (fun y hy => ?_)
    rw [hb y hy, hq0]
    exact ⟨_, rfl⟩

end Sys2Proof.Machine
end

section
/-! SUPPORT. GATH, SCAT, SCATA and LDSPL issue (R130, R132, R133, R136; O18). -/
namespace Sys2Proof.Machine

/-! ## The Turret words on main memory (R130, R132, R133, R136) -/

/-- What a lane writes does not depend on the word's sample. -/
theorem writeTLane_smp (x : Ctx) (o : Option (BitVec 16 × Bool)) : writeTLane { x with smp := o } = writeTLane x := by
  have hval (s : State) (lit : Option W64) (l : Nat) (v : Src) : storeVal { x with smp := o } s lit l v = storeVal x s lit l v := rfl
  have haddr (s : State) (lit : Option W64) (m : IdxMode) (z : Nat) (a b : Src) (l : Nat) :
      turretAddr { x with smp := o } s lit m z a b l = turretAddr x s lit m z a b l := rfl
  funext s lit m ks a b v l
  unfold writeTLane
  rw [hval]
  simp only [haddr]

/-- The lanes of a word pass stage 1, and its own checks pass: they are sent. -/
theorem turretBody_sends {x : Ctx} {s : State} {ls : List Nat} {f : Nat → Option TLane} {L : Nat → TLane} (hf : ∀ l ∈ ls, f l = some (L l))
    (hL : ∀ l ∈ ls, (L l).fine) {cap : W32} {sp : Option Fz} (hcap : cap = 0#32) (hsp : sp = none) (o : Option (BitVec 16 × Bool)) (ac : Access)
    (ks : TLane → List Nat) (pre : State → State) (p : State → Pend) :
    turretBody { x with smp := o } false [] s (ls.map (fun l => (l, f l))) cap sp ac ks pre p =
      let R := sendLanes x false (((s.wordOp x).map (·.lost)).getD 0#32) ac ks (ls.map (fun l => (l, L l)))
        (if (s.wordOp x).isSome then s else pre s)
      turretEnd { x with smp := o } [] (s.wordOp x) s.clk R (p R.s) := by
  have hmap : ls.map (fun l => (l, f l)) = ls.map (fun l => (l, some (L l))) := List.map_congr_left (fun l hl => by rw [hf l hl])
  have hpass : stage1 (ls.map (fun l => (l, some (L l)))) cap sp = none := by rw [hcap, stage1_passes hL, hsp]
  rw [hmap, turretBody_passes hpass, okLanes_some]
  rfl

/-- The lane of a word that reads. -/
def readLaneAt (A : Nat → W64) (z l : Nat) : TLane := ⟨A l, z, false, 0#64, .raw, [], 0#64⟩

/-- The lane of a word that writes. -/
def writeLaneAt (s : State) (x : Ctx) (c : Ctl) (v : Src) (A : Nat → W64) (e : Nat → El) (l : Nat) : TLane :=
  ⟨A l, valSize s x c l v, false, (e l).val, (e l).moved v, (e l).tan, 0#64⟩

/-- A lane's address is accepted, and aligned to its element. -/
def addrOk (s : State) (x : Ctx) (c : Ctl) (mode : IdxMode) (a b : Src) (A : Nat → W64) (l z : Nat) : Prop :=
  idxAddr s x c mode z a b l (A l) ∧ (A l).toNat % z = 0

section
variable {s : State} {x : Ctx} {c : Ctl} {mode : IdxMode} {a b v : Src} {A : Nat → W64} {e : Nat → El}

/-- R130: GATH. -/
theorem sends_gath (fmt : Tag) (d : Dst) (h : s.issues x c) (herr : s.errIn = []) (hrinc : x.coh.rinc = false)
    (hok : ∀ l ∈ x.unsent s, addrOk s x c mode a b A l (if fmt = .f64 then 8 else 4)) :
    sends s x c (exec (.gath c mode fmt d a b) s) false .read (fun _ => x.tans) [] (readLaneAt A (if fmt = .f64 then 8 else 4))
      (fun q => q.kind = .gath ∧ q.dst = some d ∧ q.tag = fmt) := by
  show sends s x c (execGath c mode fmt d a b s) _ _ _ _ _ _
  refine sends_of_body (kind := .gath) (dst := some d) (tag := fmt) h herr hrinc rfl (fun q hk hd ht => ⟨hk, hd, ht⟩) ?_
  rintro _ rfl
  simp only [parityCheck_quiet herr]
  refine (turretBody_sends (L := readLaneAt A (if fmt = .f64 then 8 else 4)) (fun l hl => readTLane_of_idxAddr (hok l hl).1)
    (fun l hl => ⟨rfl, (hok l hl).2⟩) rfl rfl _ _ _ _ _).trans ?_
  simp only [id, ite_self]
  rfl

/-- R132: SCAT. -/
theorem sends_scat (h : s.issues x c) (herr : s.errIn = []) (hrinc : x.coh.rinc = false)
    (hok : ∀ l ∈ x.unsent s, readsValue s x c l v (e l) ∧ addrOk s x c mode a b A l (valSize s x c l v)) :
    sends s x c (exec (.scat c mode a b v) s) false .write (fun _ => x.tans) [] (writeLaneAt s x c v A e) (fun q => q.kind = .scat) := by
  show sends s x c (execScat c mode a b v s) _ _ _ _ _ _
  refine sends_of_body (kind := .scat) (dst := none) (tag := .raw) h herr hrinc rfl (fun q hk _ _ => hk) ?_
  rintro _ rfl
  simp only [parityCheck_quiet herr, writeTLane_smp]
  refine (turretBody_sends (L := writeLaneAt s x c v A e)
    (fun l hl => writeTLane_of_readsValue (hok l hl).1 (hok l hl).2.1 (List.Subset.refl _)) (fun l hl => ⟨rfl, (hok l hl).2.2⟩) rfl rfl _ _ _ _ _).trans ?_
  simp only [id, ite_self]
  rfl

/-- The tags of the lanes sent take their places among those sent before. -/
theorem find_foldl_set (ls : List Nat) (g : Nat → Tag) (m : AMap Tag) {l : Nat} (hl : l ∈ ls) :
    ((ls.map (fun l => (l, g l))).foldl (fun m p => AMap.set m p.1 p.2) m).find l = some (g l) := by
  have hkeep (ls : List Nat) (m : AMap Tag) (h : m.find l = some (g l)) :
      ((ls.map (fun l => (l, g l))).foldl (fun m p => AMap.set m p.1 p.2) m).find l = some (g l) := by
    induction ls generalizing m with
    | nil => exact h
    | cons k ls ih =>
      refine ih _ ?_
      rw [AMap.find_set]
      split
      · rename_i he
        rw [he]
      · exact h
  induction ls generalizing m with
  | nil => simp at hl
  | cons k ls ih =>
    rcases List.mem_cons.1 hl with rfl | hl
    · exact hkeep ls _ (AMap.find_set_same m l (g l))
    · exact ih _ hl

/-- The word's operation replaced. -/
theorem State.wordOp_setPend {s : State} {x : Ctx} {q0 q : Pend} (h : s.wordOp x = some q0) (hid : q.id = q0.id) : (s.setPend q).wordOp x = some q := by
  unfold State.wordOp State.pathOp at *
  split at h
  · split at h
    · rename_i w hw hk
      have hnum := State.id_of_pendOf h
      rw [if_pos hk, ← hnum, ← hid]
      exact State.pendOf_setPend (by rw [hid, hnum]; exact h)
    · simp at h
  · simp at h

theorem laneTags_some {ls : List Nat} {f : Nat → Option TLane} {L : Nat → TLane} (hf : ∀ l ∈ ls, f l = some (L l)) :
    laneTags (ls.map (fun l => (l, f l))) = ls.map (fun l => (l, (L l).tag)) := by
  have hmap : ls.map (fun l => (l, f l)) = ls.map (fun l => (l, some (L l))) := List.map_congr_left (fun l hl => by rw [hf l hl])
  rw [hmap, laneTags, okLanes_some, List.map_map]
  rfl

/-- The lanes of SCATA, none where a value's tag has no sum (R133). -/
def scataLane (s : State) (x : Ctx) (c : Ctl) (mode : IdxMode) (a b v : Src) (l : Nat) : Option TLane :=
  (writeTLane x s c.lit mode (fun t => if t.isFp then x.tans else []) a b v l).filter (fun t => addTag t.tag || t.tag == .f64)

/-- The tags of the lanes, behind those sent before. -/
def scataTags (s : State) (x : Ctx) (c : Ctl) (mode : IdxMode) (a b v : Src) (old : AMap Tag) : AMap Tag :=
  (laneTags ((x.unsent s).map (fun l => (l, scataLane s x c mode a b v l)))).foldl (fun m p => AMap.set m p.1 p.2) old

/-- The tags that an operation of SCATA has. -/
def PKind.scataTags (k : PKind) : AMap Tag :=
  match k with
  | .scata tags => tags
  | _ => []

/-- An operation of SCATA that takes the tags of the lanes left. -/
def scataOp (s : State) (x : Ctx) (c : Ctl) (mode : IdxMode) (a b v : Src) (q : Pend) : Pend :=
  { q with kind := .scata (scataTags s x c mode a b v q.kind.scataTags) }

/-- R133: SCATA. -/
theorem sends_scata (h : s.issues x c) (herr : s.errIn = []) (hrinc : x.coh.rinc = false)
    (hok : ∀ l ∈ x.unsent s, readsValue s x c l v (e l) ∧ addrOk s x c mode a b A l (valSize s x c l v)
      ∧ (addTag ((e l).moved v) || (e l).moved v == .f64) = true) :
    sends s x c (exec (.scata c mode a b v) s) false .atomic (fun t => if t.tag.isFp then x.tans else []) [] (writeLaneAt s x c v A e)
      (fun q => ∃ tags, q.kind = .scata tags ∧ ∀ l ∈ x.unsent s, tags.find l = some ((e l).moved v)) := by
  have hf : ∀ l ∈ x.unsent s, scataLane s x c mode a b v l = some (writeLaneAt s x c v A e l) := by
    intro l hl
    obtain ⟨hval, hadr, htag⟩ := hok l hl
    rw [scataLane, writeTLane_of_readsValue hval hadr.1 (by split <;> simp), Option.filter_some, if_pos htag]
    rfl
  have hL : ∀ l ∈ x.unsent s, (writeLaneAt s x c v A e l).fine := fun l hl => ⟨rfl, (hok l hl).2.1.2⟩
  have htags (old : AMap Tag) : ∀ l ∈ x.unsent s, (scataTags s x c mode a b v old).find l = some ((e l).moved v) := by
    intro l hl
    rw [scataTags, laneTags_some hf]
    exact find_foldl_set _ (fun l => (e l).moved v) old hl
  show sends s x c (execScata c mode a b v s) _ _ _ _ _ _
  refine ⟨fun hnone => ?_, fun q0 hq0 => ?_⟩
  · have hall : x.unsent s = x.lanes := by simp [Ctx.unsent, hnone]
    refine sentOrFrozen_of_body (kind := .scata (scataTags s x c mode a b v [])) (dst := none) (tag := .raw) h hrinc hnone
      (issuerIn_self h.1 herr) rfl (fun q hk _ _ => ⟨_, hk, htags []⟩) ?_
    rintro _ rfl
    have hnone' : s.wordOp { x with smp := s.sampleOf x } = none := hnone
    simp only [parityCheck_quiet herr, writeTLane_smp, hnone']
    refine (turretBody_sends (f := scataLane s x c mode a b v) hf hL rfl rfl _ _ _ _ _).trans ?_
    rw [hnone, hall]
    rfl
  · have hown := State.wordOp_setPend hq0 (q := scataOp s x c mode a b v q0) rfl
    refine resent_of_body (ps := (s.setPend (scataOp s x c mode a b v q0)).pend) (k := (scataOp s x c mode a b v q0).kind) h herr
      (.inr ⟨_, rfl⟩) hown (fun id hid => State.pendOf_setPend_ne s (p := scataOp s x c mode a b v q0) hid) ?_
    rintro _ rfl
    have hq0' : s.wordOp { x with smp := s.sampleOf x } = some q0 := hq0
    simp only [parityCheck_quiet herr, writeTLane_smp, hq0']
    have hbody (p : State → Pend) := turretBody_sends (x := x) (s := s.setPend (scataOp s x c mode a b v q0)) hf hL rfl rfl (s.sampleOf x) .atomic
      (fun t => if t.tag.isFp then x.tans else []) id p
    simp only [hown, Option.isSome_some, if_true] at hbody
    exact ⟨_, hbody _⟩

/-- R136: LDSPL. -/
theorem sends_ldspl (m : MNum) (h : s.issues x c) (herr : s.errIn = []) (hrinc : x.coh.rinc = false)
    (hok : ∀ l ∈ x.unsent s, addrOk s x c mode a b A l 128
      ∧ ∃ th, s.thr x.ref l = some th ∧ s.laneTiles x.ref l th m (splReg x.blk.cfg.t x.tans (th.mreg m.toNat)) ≤ x.blk.cfg.mtb) :
    sends s x c (exec (.ldspl c mode m a b) s) false .read (fun _ => x.tans) [] (readLaneAt A 128)
      (fun q => q.kind = .ldspl ∧ q.dst = some (.m m)) := by
  obtain ⟨-, -, hcoh, -⟩ := State.ctx_some h.1
  show sends s x c (execLdspl c mode m a b s) _ _ _ _ _ _
  refine sends_of_body (kind := .ldspl) (dst := some (.m m)) (tag := .f32) h herr hrinc rfl (fun q hk hd _ => ⟨hk, hd⟩) ?_
  rintro _ rfl
  simp only [parityCheck_quiet herr]
  refine (turretBody_sends (L := readLaneAt A 128) (fun l hl => readTLane_of_idxAddr (hok l hl).1.1)
    (fun l hl => ⟨rfl, (hok l hl).1.2⟩) ?_ rfl _ _ _ _ _).trans ?_
  · rw [List.filter_eq_nil_iff.2 ?_]
    · rfl
    · intro l hl
      obtain ⟨-, th, hth, htiles⟩ := hok l hl
      have hth' : x.coh.thread l = some th := by simpa [State.thr, hcoh] using hth
      simp only [hth', decide_eq_true_eq, Nat.not_lt]
      exact htiles
  · simp only [id, ite_self]
    rfl

/-- R128, R130, R132, R133, R136, R139: the words that send their lanes to main memory. -/
theorem turretWordsIssueRule_holds : turretWordsIssueRule := by
  intro s x c mode fmt d m a b v A e h herr hrinc
  refine ⟨fun hok => sends_gath fmt d h herr hrinc hok, fun hok => sends_scat h herr hrinc fun l hl => ?_, fun hok => sends_scata h herr hrinc fun l hl => ?_,
    fun hok => sends_ldspl m h herr hrinc hok⟩
  · obtain ⟨hval, hpsn, hadr⟩ := hok l hl
    exact ⟨⟨hval, hpsn⟩, hadr⟩
  · obtain ⟨⟨hval, hpsn, hadr⟩, hsum⟩ := hok l hl
    refine ⟨⟨hval, hpsn⟩, hadr, ?_⟩
    rcases hsum with ht | ht | ht | ht | ht <;> rw [ht] <;> rfl

end

end Sys2Proof.Machine
end

section
/-! SUPPORT. GATHS issues (R101, R110, R131; O18). -/
namespace Sys2Proof.Machine

/-! ## The object of GATHS counted, and its open group (R106, R110, R131) -/

theorem State.onlyTranslates_setBlock {s : State} {n : Nat} {b b' : Block} (hb : s.block n = some b) (hcohs : b'.cohs = b.cohs)
    (hcore : b'.coreId = b.coreId) : s.onlyTranslates (s.setBlock n b') := by
  refine ⟨rfl, rfl, rfl, rfl, fun r k hk => ⟨k.lanes, ?_⟩, fun m c hc => ?_⟩
  · by_cases he : r.blk = n
    · simpa [State.coh, State.block_setBlock, he, hb, Block.coh, hcohs] using hk
    · simpa [State.coh, State.block_setBlock, he] using hk
  · rw [State.block_setBlock]
    split
    · rename_i he
      rw [he, hb, Option.some.injEq] at hc
      exact ⟨b', rfl, hcore.trans (congrArg Block.coreId hc)⟩
    · exact ⟨c, hc, rfl⟩

theorem State.onlyTranslates_setMem (s : State) (st : Store) (m : Memory) : s.onlyTranslates (s.setMem st m) := by
  cases st with
  | hblk n =>
    cases hb : s.block n with
    | none => simpa only [State.setMem, hb] using s.onlyTranslates_refl
    | some b =>
      simp only [State.setMem, hb]
      exact State.onlyTranslates_setBlock hb rfl rfl
  | _ => exact ⟨rfl, rfl, rfl, rfl, fun _ k h => ⟨k.lanes, h⟩, fun _ b h => ⟨b, h, rfl⟩⟩

theorem State.onlyTranslates_setObjs (s : State) (st : Store) (gs : List Nat) : s.onlyTranslates (s.setObjs st gs) := by
  cases st with
  | hblk n =>
    cases hb : s.block n with
    | none => simpa only [State.setObjs, hb] using s.onlyTranslates_refl
    | some b =>
      simp only [State.setObjs, hb]
      exact State.onlyTranslates_setBlock hb rfl rfl
  | _ => exact ⟨rfl, rfl, rfl, rfl, fun _ k h => ⟨k.lanes, h⟩, fun _ b h => ⟨b, h, rfl⟩⟩

theorem State.onlyTranslates_clearResv (s : State) (st : Store) (a n : Nat) : s.onlyTranslates (s.clearResv st a n) := by
  refine ⟨rfl, rfl, rfl, rfl, fun r k h => ?_, fun m b h => ?_⟩
  · rw [State.coh_clearResv, h]
    exact ⟨_, rfl⟩
  · rw [State.block_clearResv, h]
    exact ⟨_, rfl, rfl⟩

theorem State.onlyTranslates_objUpd (s : State) (o : Store × Nat) (f : Obj → Obj) : s.onlyTranslates (s.objUpd o f) := by
  have hwrite : s.onlyTranslates (s.writeBytes o.1 o.2 (leBytes 16 (f (s.objAt o.1 o.2)).step.bits)) := by
    have hmem := s.onlyTranslates_setMem o.1 ((s.mem o.1).writeN o.2 (leBytes 16 (f (s.objAt o.1 o.2)).step.bits))
    unfold State.writeBytes
    dsimp only
    split
    · exact hmem.trans (State.onlyTranslates_clearResv _ _ _ _)
    · exact hmem
  exact hwrite.trans (State.onlyTranslates_setObjs _ _ _)

theorem issuerIn.joined {s u : State} {x : Ctx} (h : issuerIn s u x) (id : Nat) : issuerIn s (u.joinGroup x.ref id) x := by
  obtain ⟨ls, og, hcoh⟩ := h.coh
  obtain ⟨b, hb, hcore⟩ := h.core
  obtain ⟨g, hg⟩ := u.block_updCoh x.ref (fun c => { c with openg := c.openg ++ [id] }) x.ref.blk
  refine ⟨by simpa [State.joinGroup] using h.errs, by simpa [State.joinGroup] using h.pend, by simpa [State.joinGroup] using h.nid,
    by simpa [State.joinGroup] using h.clk, ⟨ls, og ++ [id], ?_⟩, ⟨_, hg.trans (congrArg (Option.map _) hb), hcore⟩⟩
  rw [State.joinGroup, State.coh_updCoh, if_pos rfl, hcoh]
  rfl

/-- The bytes of GATHS counted on its object, and its number in the open group (R110, R131). -/
def State.gathsCounts (s : State) (x : Ctx) (pl : Option (Store × Nat)) (add : Nat) : State :=
  (match pl with
    | some q => s.objUpd q (Obj.add add)
    | none => s).joinGroup x.ref s.nid

theorem issuerIn_gathsCounts {s : State} {x : Ctx} (hx : s.ctx = some x) (herr : s.errIn = []) (pl : Option (Store × Nat)) (add : Nat) :
    issuerIn s (s.gathsCounts x pl add) x := by
  have hself := issuerIn_self hx herr
  cases pl with
  | none => exact hself.joined _
  | some q => exact (hself.translated (s.onlyTranslates_objUpd q (Obj.add add))).joined _

/-! ## Where GATHS lands (R131) -/

theorem popcount_exec (x : Ctx) : popcount x.exec = x.lanes.length := by
  rw [popcount_eq_countP, List.countP_eq_length_filter]
  rfl

/-- The scratchpad checks passed, every lane of EXEC has its place. -/
theorem State.gathsDst_some {s : State} {x : Ctx} {v : W64} {ob : Option W64} {z add : Nat} (h : s.gathsChk x v ob z add = none) :
    ∀ l ∈ x.lanes, (s.gathsDst x (locOf v) z l).isSome := by
  intro l hl
  by_contra hnone
  have hne := Ctx.maskOf_lanes_ne_zero (p := fun k => (s.gathsDst x (locOf v) z k).isNone) hl (by simpa using hnone)
  unfold State.gathsChk at h
  dsimp only at h
  rw [if_pos hne] at h
  split_ifs at h

/-- In the program scratch, a lane's primal lands at the locator's offset plus z times its LANE. -/
theorem State.gathsDst_head {s : State} {x : Ctx} {lc : Loc} {z l : Nat} {as : List Acc} (h : s.gathsDst x lc z l = some as) (hsp : lc.sp = 0)
    (hlt : lc.off + z * l < 2 ^ 64) : as.head?.map (fun k => (k.store, k.addr)) = some (x.own.1, x.own.2 + (lc.off + z * l)) := by
  unfold State.gathsDst at h
  rw [List.foldr_cons] at h
  dsimp only at h
  split at h
  · split at h
    · rw [Option.some.injEq] at h
      have ha : (BitVec.ofNat 64 (lc.off + z * l + 0 * x.grid.lrec.sdstr.toNat)).toNat = lc.off + z * l := by
        rw [Nat.zero_mul, Nat.add_zero, BitVec.toNat_ofNat, Nat.mod_eq_of_lt hlt]
      have hplace (a : W64) : (x.spEnd lc).place a = (x.own.1, x.own.2 + a.toNat) := by simp [Ctx.spEnd, SpEnd.place, hsp]
      rw [← h, List.head?_cons, Option.map_some]
      simp only [hplace, ha]
    · simp at h
  · simp at h

theorem locOf_off_lt (v : W64) : (locOf v).off < 2 ^ 32 := Nat.mod_lt _ (by decide)

/-! ## GATHS (R131) -/

theorem slotGate_open {s : State} {x : Ctx} (h : slotOpen s x) (o : Option (BitVec 16 × Bool)) (go : State → WRes) :
    slotGate { x with smp := o } s go = go s := by
  obtain ⟨hfree, hline⟩ := h
  have hnone : ((s.slotLine x.blk.coreId).any (fun p => decide (p.1 < x.ticket s) && s.slotTakes x.blk.coreId p.2)) = false := by
    rw [List.any_eq_false]
    intro p hp
    by_cases hlt : p.1 < x.ticket s
    · simp [hlt, hline p hp hlt]
    · simp [hlt]
  unfold slotGate
  refine if_neg ?_
  rintro (h0 | hany)
  · exact hfree h0
  · exact absurd (hany.symm.trans hnone) (by decide)

theorem Ctx.obj_eq (x : Ctx) (clk : Nat) (lit : Option W64) (o : Src) :
    x.obj clk lit o = if o = .special 0x0D#5 then none else some (x.sca clk lit o) := by
  cases o <;> simp [Ctx.obj]

/-- Where the lanes of GATHS land. -/
def State.gathsLands (s : State) (x : Ctx) (lc : Loc) (z : Nat) : AMap (List Acc) := x.lanes.map (fun l => (l, (s.gathsDst x lc z l).getD []))

/-- The object of GATHS. -/
def State.gathsObj (s : State) (x : Ctx) (c : Ctl) (o : Src) : Option (Store × Nat) :=
  (if o = .special 0x0D#5 then none else some (x.sca s.clk c.lit o)).bind (fun q => s.objPlace x q)

theorem State.gathsLands_get {s : State} {x : Ctx} {lc : Loc} {z l : Nat} (hl : l ∈ x.lanes) (h : (s.gathsDst x lc z l).isSome) :
    s.gathsDst x lc z l = some ((s.gathsLands x lc z).get l []) := by
  obtain ⟨as, has⟩ := Option.isSome_iff_exists.1 h
  rw [AMap.get, State.gathsLands, find_mapLanes, if_pos hl, has]
  rfl

/-- R131, R101, R110: GATHS. -/
theorem gathsIssuesRule_holds : gathsIssuesRule := by
  intro s x c w sx d a b o A h herr hrinc
  dsimp only
  intro hok
  have hL : ∀ l ∈ x.unsent s, (readLaneAt A (if w then 8 else 4) l).fine := fun l hl => ⟨rfl, (hok l hl).2⟩
  have hf : ∀ l ∈ x.unsent s, readTLane x s c.lit (if sx then .sx else .uns) (if w then 8 else 4) a b l
      = some (readLaneAt A (if w then 8 else 4) l) := fun l hl => readTLane_of_idxAddr (hok l hl).1
  refine ⟨fun q0 hq0 => ?_, fun hnone hopen hchk => ?_⟩
  · show resent s x c (execGaths c w sx d a b o s) q0 _ _ _ _ (readLaneAt A (if w then 8 else 4))
    refine resent_of_body_same h herr hq0 ?_
    rintro _ rfl
    have hq0' : s.wordOp { x with smp := s.sampleOf x } = some q0 := hq0
    simp only [hq0', Option.isSome_some, if_true, parityCheck_quiet herr]
    have hbody (pre : State → State) (p : State → Pend) := turretBody_sends (x := x) (s := s) hf hL rfl rfl (s.sampleOf x) .read (fun _ => x.tans) pre p
    simp only [hq0, Option.isSome_some, if_true] at hbody
    exact ⟨_, hbody _ _⟩
  · show sentOrFrozen s x c (execGaths c w sx d a b o s) _ _ _ _ _ (readLaneAt A (if w then 8 else 4)) _
    have hall : x.unsent s = x.lanes := by simp [Ctx.unsent, hnone]
    refine sentOrFrozen_of_body (kind := .gaths (s.gathsLands x (locOf (x.coh.sreg d.toNat)) (if w then 8 else 4)) (s.gathsObj x c o)) (dst := none)
      (tag := .raw) h hrinc hnone (issuerIn_gathsCounts h.1 herr _ _) rfl ?_ ?_
    · rintro q hk - -
      refine ⟨_, hk, fun l hl => ?_⟩
      have hdst := State.gathsLands_get hl (State.gathsDst_some hchk l hl)
      refine ⟨hdst, fun hsp => State.gathsDst_head hdst hsp ?_⟩
      have hoff := locOf_off_lt (x.coh.sreg d.toNat)
      have hlt := Ctx.lt_of_mem_lanes hl
      split <;> omega
    · rintro _ rfl
      have hnone' : s.wordOp { x with smp := s.sampleOf x } = none := hnone
      simp only [hnone', Option.isSome_none, Bool.false_eq_true, if_false, slotGate_open hopen, parityCheck_quiet herr, Ctx.obj_eq, popcount_exec]
      have hbody (pre : State → State) (p : State → Pend) := turretBody_sends (x := x) (s := s) hf hL rfl hchk (s.sampleOf x) .read (fun _ => x.tans) pre p
      simp only [hnone, Option.isSome_none, Bool.false_eq_true, if_false] at hbody
      refine (hbody _ _).trans ?_
      rw [hall]
      rfl

end Sys2Proof.Machine
end

section
/-! SUPPORT. HACC issues (R137, R138; O18). -/
namespace Sys2Proof.Machine

/-! ## HACC (R137, R138) -/

/-- A word whose body puts one operation in flight (R56). -/
theorem asyncDone_of_addPend {s : State} {x : Ctx} {c : Ctl} {body : Ctx → WRes} {q : Pend} (h : s.issues x c)
    (hb : body { x with smp := s.sampleOf x } = .async (s.addPend q)) (href : q.ref = x.ref) (hB : q.isB = x.isB) (hgrid : q.grid = x.blk.grid)
    (hslot : q.slot = c.set) (hid : q.id = s.nid) : s.asyncDone x c (word c s body) q (fun _ => False) := by
  have hq : { q with id := s.nid } = q := by rw [← hid]
  obtain ⟨-, -, hcoh, -, hpath, -⟩ := State.ctx_some h.1
  obtain ⟨t, hword, ⟨⟨o, hstands, hsub, hnotes⟩, hlatch⟩, hctr, hpend, hnid, -, hkeep⟩ := word_async h hb hcoh hpath rfl rfl rfl rfl
  rw [State.addPend, hq] at hpend hnotes
  refine ⟨hid, href, hB, hgrid, hslot, t, hword, hpend, hnid, hctr, ⟨⟨o, hstands, hsub, hnotes q ?_ hid.ge⟩, hlatch⟩, ?_⟩
  · exact List.mem_append_right _ (List.mem_singleton_self q)
  · refine State.keeps_trans (State.keeps_mono (s.keeps_addPend q) (fun z hz => ?_)) (State.keeps_mono hkeep (fun z hz => ?_))
    · rcases hz with rfl | rfl <;> exact .inr (.inl trivial)
    · rcases hz with hz | ⟨n, hn, rfl⟩
      · exact .inl hz
      · exact .inr (.inl ⟨rfl, n, hn, rfl⟩)

/-- No watchpoint is enabled, and none matches (R341). -/
theorem watched_of_noWatch {s : State} {x : Ctx} (h : noWatch s x) (o : Option (BitVec 16 × Bool)) (rd wr : Bool) (lanes : AMap (List Acc))
    (s' : State) : watched s { x with smp := o } rd wr lanes s' = .async s' := by
  have hquiet (n : Nat) : wpLanes { x with smp := o } ((s.core x.blk.coreId).wpb.get n 0#64) rd wr lanes = 0#32 := by
    have hnil : lanes.filter (fun l => l.2.any (fun a => a.store == .core x.blk.coreId
        && wpHit ((s.core x.blk.coreId).wpb.get n 0#64) rd wr a.addr a.z)) = [] := by
      have hno (off m : Nat) : wpHit ((s.core x.blk.coreId).wpb.get n 0#64) rd wr off m = false := by rw [wpHit, h n]; rfl
      exact List.filter_eq_nil_iff.2 (fun l _ => by simp [hno])
    show maskOf (AMap.keys (lanes.filter _)) = 0#32
    rw [hnil]
    rfl
  have hnone : s.watch { x with smp := o } rd wr lanes = none := by
    unfold State.watch
    split
    · rfl
    · rw [List.findSome?_eq_none_iff]
      intro n _
      exact if_pos (hquiet n)
  rw [watched, hnone]

/-- The tangents that a word moves are none of the primal's. -/
theorem Ctx.zero_notMem_tans (x : Ctx) : 0 ∉ x.tans := by
  have hidx : 0 ∉ tanIdx := by decide
  unfold Ctx.tans
  split
  · exact fun h => hidx (List.mem_filter.1 h).1
  · exact fun h => hidx (List.mem_filter.1 h).1

/-- The table that a ring register describes (R137). -/
def Ctx.ringTable (x : Ctx) (k : W64) : HTable := ⟨x.own.1, x.own.2 + k.toNat % 2 ^ 32, bitsAt k.toNat 32 27 / 8, x.grid.lrec.sdstr.toNat⟩

theorem Ctx.htable_some {x : Ctx} {k : W64} (hres : bitsAt k.toNat 59 5 = 0) (hbase : k.toNat % 2 ^ 32 % 8 = 0)
    (hsize : ∃ j < 16, bitsAt k.toNat 32 27 = 8 * 2 ^ j) :
    x.htable k = some (x.ringTable k) := by
  obtain ⟨j, hj, hsz⟩ := hsize
  refine if_pos ⟨hres, hbase, ?_⟩
  rw [List.any_eq_true]
  exact ⟨j, List.mem_range.2 hj, by simpa using hsz⟩

section
variable (s : State) (x : Ctx) (c : Ctl) (key v : Src) (l : Nat)

/-- The tag that a lane of HACC adds in. -/
def haccTag : Tag := (x.rd s c l v).moved v

/-- A lane of HACC with its key and value. -/
def haccTLane : TLane :=
  ⟨0#64, 1, (x.rd s c l key).psn || (x.rd s c l v).poisoned (haccTans (haccTag s x c v l) x.tans), (x.rd s c l v).val, haccTag s x c v l,
    (x.rd s c l v).tan, (x.rd s c l key).val⟩

/-- The accesses of a lane of HACC: the primal's and its tangents'. -/
def haccAccs (t : HTable) : List Acc :=
  (0 :: haccTans (haccTag s x c v l) x.tans).map (fun i =>
    ⟨i, t.store, t.base + i * t.str, 8 * t.n, if i = 0 then (x.rd s c l v).val else (x.rd s c l v).t i, (x.rd s c l key).val, false⟩)

end

/-- A lane's accesses carry its key with its value and its tangents. -/
theorem haccAccs_vals (s : State) (x : Ctx) (c : Ctl) (key v : Src) (l : Nat) (t : HTable) :
    (haccAccs s x c key v l t).map (fun a => (a.k, a.val, a.cmp)) = (0, (x.rd s c l v).val, (x.rd s c l key).val)
      :: (haccTans (haccTag s x c v l) x.tans).map (fun i => (i, (x.rd s c l v).t i, (x.rd s c l key).val)) := by
  rw [haccAccs, List.map_map, List.map_cons]
  refine congrArg₂ _ rfl (List.map_congr_left (fun i hi => ?_))
  have hi0 : i ≠ 0 := by
    rintro rfl
    unfold haccTans at hi
    split at hi
    · exact x.zero_notMem_tans hi
    · simp at hi
  simp [hi0]

/-- The operation that HACC leaves in flight: one step for each lane of EXEC. -/
def haccOp (s : State) (x : Ctx) (c : Ctl) (d : SNum) (key v : Src) (t : HTable) : Pend :=
  { { x with smp := s.sampleOf x : Ctx }.pend s (.hacc t (x.lanes.map (fun l => (l, haccTag s x c v l))) 0#32) (some (.s d)) .raw c.set
      (x.lanes.map (fun l => (l, haccAccs s x c key v l t))) with
    sect := sectors (x.lanes.map (fun l => (l, haccTouch s t ((x.rd s c l key).val.toNat % 2 ^ 32)))) }

/-- The own checks of HACC: the table and its reach. -/
def haccCheck (x : Ctx) (ring : W64) (rs : AMap (Option TLane)) : Option Fz :=
  match x.htable ring with
  | none => some (Fz.of kProtection 0x28 x.exec)
  | some _ =>
    let far := lanesWhere (okLanes rs) (fun _ r => !x.htReach ring (haccTans r.tag x.tans))
    if far = 0#32 then none else some (Fz.of kProtection cReach far)

/-- The steps of HACC in flight, behind all checks. -/
def haccSend (x : Ctx) (s : State) (c : Ctl) (d : SNum) (t : HTable) (ls : AMap TLane) (tags : AMap Tag) : WRes :=
  let accs (r : TLane) : List Acc := (0 :: haccTans r.tag x.tans).map (fun i =>
    ⟨i, t.store, t.base + i * t.str, 8 * t.n, if i = 0 then r.val else r.tan.get i 0#64, r.cmp, false⟩)
  let hits : AMap (List Acc) := ls.map (fun p => (p.1, haccTouch s t (p.2.cmp.toNat % 2 ^ 32)))
  watched s x true true hits
    (s.addPend { x.pend s (.hacc t tags 0#32) (some (.s d)) .raw c.set (ls.map (fun p => (p.1, accs p.2))) with sect := sectors hits })

/-- HACC behind the reading of its lanes. -/
def haccBody (x : Ctx) (s : State) (c : Ctl) (d : SNum) (ring : W64) (rs : AMap (Option TLane)) : WRes :=
  match stage1 rs 0#32 (haccCheck x ring rs), x.htable ring with
  | some z, _ => .trap z
  | none, none => .trap (Fz.of kProtection 0x28 x.exec)
  | none, some t => haccSend x s c d t (okLanes rs) (laneTags rs)

theorem haccBody_passes {x : Ctx} {s : State} {c : Ctl} {d : SNum} {ring : W64} {rs : AMap (Option TLane)} {t : HTable}
    (hpass : stage1 rs 0#32 (haccCheck x ring rs) = none) (htab : x.htable ring = some t) :
    haccBody x s c d ring rs = haccSend x s c d t (okLanes rs) (laneTags rs) := by
  rw [haccBody, hpass, htab]

/-- A lane of HACC as it is read; none is a format fault. -/
def haccRead (s : State) (x : Ctx) (c : Ctl) (key v : Src) (l : Nat) : Option TLane :=
  if idxOk (x.rd s c l key) && addTag (haccTag s x c v l) then some (haccTLane s x c key v l) else none

theorem execHacc_eq {s : State} (herr : s.errIn = []) (c : Ctl) (d : SNum) (k : KNum) (key v : Src) :
    execHacc c d k key v s = word c s (fun x => haccBody x s c d (x.coh.kreg k.toNat) (x.lanes.map (fun l => (l, haccRead s x c key v l)))) := by
  unfold execHacc
  simp only [parityCheck_quiet herr]
  rfl

theorem haccRead_some {s : State} {x : Ctx} {c : Ctl} {key v : Src} {l : Nat} (hkey : idxOk (x.rd s c l key) = true)
    (htag : addTag (haccTag s x c v l) = true) : haccRead s x c key v l = some (haccTLane s x c key v l) := by
  simp [haccRead, hkey, htag]

/-- A permitted table within reach of every lane passes. -/
theorem haccCheck_none {s : State} {x : Ctx} {c : Ctl} {key v : Src} {ring : W64} {t : HTable} {o : Option (BitVec 16 × Bool)}
    (htab : x.htable ring = some t) (hreach : ∀ l ∈ x.lanes, x.htReach ring (haccTans (haccTag s x c v l) x.tans) = true) :
    haccCheck { x with smp := o } ring (x.lanes.map (fun l => (l, some (haccTLane s x c key v l)))) = none := by
  have htab' : ({ x with smp := o } : Ctx).htable ring = some t := htab
  unfold haccCheck
  rw [htab']
  dsimp only
  rw [okLanes_some, lanesWhere_map_false x.lanes (haccTLane s x c key v)]
  · rfl
  · intro l hl
    exact congrArg not (hreach l hl)

/-- Without watchpoints the steps are in flight. -/
theorem haccSend_eq {s : State} {x : Ctx} (h : noWatch s x) (c : Ctl) (d : SNum) {key v : Src} (t : HTable) :
    let rs := x.lanes.map (fun l => (l, some (haccTLane s x c key v l)))
    haccSend { x with smp := s.sampleOf x } s c d t (okLanes rs) (laneTags rs) = .async (s.addPend (haccOp s x c d key v t)) := by
  dsimp only
  rw [haccSend, watched_of_noWatch h, laneTags_some (L := haccTLane s x c key v) (fun _ _ => rfl), okLanes_some]
  simp only [List.map_map]
  rfl

theorem haccIssuesRule_holds : haccIssuesRule := by
  intro s x c d k key v h herr hwatch
  dsimp only
  intro hlanes hres hbase hsize
  have htab := Ctx.htable_some (x := x) hres hbase hsize
  have hkey : ∀ l ∈ x.lanes, idxOk (x.rd s c l key) = true := fun l hl => (hlanes l hl).1
  have htag : ∀ l ∈ x.lanes, addTag (haccTag s x c v l) = true := fun l hl => by
    obtain ⟨-, -, ht | ht | ht | ht, -⟩ := hlanes l hl <;> rw [haccTag, ht] <;> rfl
  have hfine : ∀ l ∈ x.lanes, (haccTLane s x c key v l).fine := fun l hl => by
    obtain ⟨-, hpsn, -, hval, -⟩ := hlanes l hl
    exact ⟨Bool.or_eq_false_iff.2 ⟨hpsn, hval⟩, rfl⟩
  have hreach : ∀ l ∈ x.lanes, x.htReach (x.coh.kreg k.toNat) (haccTans (haccTag s x c v l) x.tans) = true := fun l hl => by
    obtain ⟨-, -, -, -, hr⟩ := hlanes l hl
    exact List.all_eq_true.2 (fun i hi => decide_eq_true (hr i hi))
  refine ⟨haccOp s x c d key v (x.ringTable (x.coh.kreg k.toNat)), x.ringTable (x.coh.kreg k.toNat), ?_, rfl, rfl, rfl, rfl, rfl, rfl, ?_, fun l hl => ?_⟩
  · show s.asyncDone x c (execHacc c d k key v s) _ _
    rw [execHacc_eq herr]
    refine asyncDone_of_addPend (q := haccOp s x c d key v _) h ?_ rfl rfl rfl rfl rfl
    have hmap : x.lanes.map (fun l => (l, haccRead s x c key v l)) = x.lanes.map (fun l => (l, some (haccTLane s x c key v l))) :=
      List.map_congr_left (fun l hl => by rw [haccRead_some (hkey l hl) (htag l hl)])
    show haccBody { x with smp := s.sampleOf x } s c d (x.coh.kreg k.toNat) (x.lanes.map (fun l => (l, haccRead s x c key v l))) = _
    rw [hmap, haccBody_passes (x := { x with smp := s.sampleOf x }) ((stage1_passes hfine _).trans (haccCheck_none htab hreach)) htab]
    exact haccSend_eq hwatch c d _
  · exact List.map_map.trans (List.map_id x.lanes)
  · rw [haccOp, AMap.get]
    dsimp only [Ctx.pend]
    rw [find_mapLanes, if_pos hl]
    exact haccAccs_vals s x c key v l _

/-- Settles O18: the lanes pass stage 1, what is sent joins the operation, and the word waits, completes or freezes behind it. -/
theorem turretWordsIssue : Obligations.TurretWordsIssue := by
  unfold Obligations.TurretWordsIssue
  exact ⟨turretWordsIssueRule_holds, gathsIssuesRule_holds, haccIssuesRule_holds⟩

end Sys2Proof.Machine
end

section
/-! SUPPORT. The bytes that a scratchpad address names (R141, R143, R159; O13). -/
namespace Sys2Proof.Machine

/-! ## What a window address reaches (R141, R142) -/

/-- A resident block of a grid on a core whose program scratch holds a byte. -/
def Block.scratchHas (b : Block) (grid core off : Nat) : Bool :=
  b.grid == grid && b.coreId == core && b.resident && !b.isHandler && decide (b.base ≤ off) && decide (off < b.base + b.cfg.sb)

/-- Some block of the grid holds a byte of a core in its program scratch. -/
def State.scratchCovers (s : State) (grid core off : Nat) : Prop := ∃ k ∈ s.blocks, k.2.scratchHas grid core off = true

theorem State.scratchCovers_iff {s : State} {grid core off : Nat} : s.scratchCovers grid core off ↔
    ∃ k ∈ s.blocks, k.2.grid = grid ∧ k.2.coreId = core ∧ k.2.saved = false ∧ k.2.isHandler = false ∧ k.2.base ≤ off
      ∧ off < k.2.base + k.2.cfg.sb := by
  simp [State.scratchCovers, Block.scratchHas, Block.resident, and_assoc]

theorem State.reachEnd_succ (s : State) (grid core n off : Nat) : s.reachEnd grid core (n + 1) off =
    match s.blocks.find? (fun k => k.2.scratchHas grid core off) with
    | some k => s.reachEnd grid core n (k.2.base + k.2.cfg.sb)
    | none => off := rfl

/-- From an offset up to its reach every byte is covered. -/
theorem State.covers_below_reachEnd (s : State) (grid core n off : Nat) :
    off ≤ s.reachEnd grid core n off ∧ ∀ a, off ≤ a → a < s.reachEnd grid core n off → s.scratchCovers grid core a := by
  induction n generalizing off with
  | zero => exact ⟨Nat.le_refl off, fun a h h' => absurd h' (Nat.not_lt.2 h)⟩
  | succ n ih =>
    rw [State.reachEnd_succ]
    split
    · rename_i k hk
      have hhas := List.find?_some hk
      obtain ⟨hle, hcov⟩ := ih (k.2.base + k.2.cfg.sb)
      have hin : k.2.base ≤ off ∧ off < k.2.base + k.2.cfg.sb := by
        simp only [Block.scratchHas, Bool.and_eq_true, decide_eq_true_eq] at hhas
        exact ⟨hhas.1.2, hhas.2⟩
      refine ⟨by omega, fun a ha ha' => ?_⟩
      by_cases hend : a < k.2.base + k.2.cfg.sb
      · refine ⟨k, List.mem_of_find?_eq_some hk, ?_⟩
        simp only [Block.scratchHas, Bool.and_eq_true, decide_eq_true_eq] at hhas ⊢
        exact ⟨⟨hhas.1.1, by omega⟩, hend⟩
      · exact hcov a (by omega) ha'
    · exact ⟨Nat.le_refl off, fun a h h' => absurd h' (Nat.not_lt.2 h)⟩

/-- A condition that is stronger, and fails for an element that the weaker one counts, counts fewer. -/
theorem countP_lt_of_imp {α : Type} {p q : α → Bool} {l : List α} (h : ∀ a ∈ l, p a = true → q a = true) {a : α} (ha : a ∈ l)
    (hq : q a = true) (hp : p a = false) : l.countP p < l.countP q := by
  induction l with
  | nil => cases ha
  | cons b l ih =>
    have hrest := List.countP_mono_left (fun c hc => h c (List.mem_cons_of_mem b hc))
    rw [List.countP_cons, List.countP_cons]
    rcases List.mem_cons.1 ha with rfl | ha
    · simp only [hp, hq, if_true, Bool.false_eq_true, if_false]
      omega
    · have := ih (fun c hc => h c (List.mem_cons_of_mem b hc)) ha
      have hhead := h b (List.mem_cons_self ..)
      cases hb : p b with
      | false => simp only [Bool.false_eq_true, if_false]; split <;> omega
      | true => simp only [hhead hb, if_true]; omega

/-- Each block found ends above the offset, and at its end ends so no more: the blocks that are left bound the steps of `reachEnd`. -/
theorem State.not_covers_reachEnd (s : State) (grid core n off : Nat) (hn : s.blocks.countP (fun k => decide (off < k.2.base + k.2.cfg.sb)) < n) :
    ¬ s.scratchCovers grid core (s.reachEnd grid core n off) := by
  induction n generalizing off with
  | zero => exact absurd hn (Nat.not_lt_zero _)
  | succ n ih =>
    rw [State.reachEnd_succ]
    split
    · rename_i k hk
      have hhas := List.find?_some hk
      have hin : off < k.2.base + k.2.cfg.sb := by
        simp only [Block.scratchHas, Bool.and_eq_true, decide_eq_true_eq] at hhas
        exact hhas.2
      refine ih _ (Nat.lt_of_lt_of_le ?_ (Nat.le_of_lt_succ hn))
      refine countP_lt_of_imp (fun j _ hj => ?_) (List.mem_of_find?_eq_some hk) (by simpa using hin) (by simp)
      simp only [decide_eq_true_eq] at hj ⊢
      omega
    · rename_i hnone
      rintro ⟨k, hk, hhas⟩
      exact List.find?_eq_none.1 hnone k hk hhas

/-- A range is in reach exactly where each of its bytes is covered. -/
theorem State.winReach_iff {s : State} {grid core off n : Nat} :
    s.winReach grid core off n = true ↔ ∀ i < n, s.scratchCovers grid core (off + i) := by
  obtain ⟨hle, hcov⟩ := s.covers_below_reachEnd grid core (s.blocks.length + 1) off
  have hend := s.not_covers_reachEnd grid core (s.blocks.length + 1) off (Nat.lt_succ_of_le List.countP_le_length)
  rw [State.winReach, decide_eq_true_eq]
  constructor
  · exact fun h i hi => hcov _ (Nat.le_add_right ..) (by omega)
  · intro h
    by_contra hlt
    refine hend ?_
    have := h (s.reachEnd grid core (s.blocks.length + 1) off - off) (by omega)
    rwa [Nat.add_sub_of_le hle] at this

/-! ## The places of the spaces -/

/-- R141, R143, R159: what an address of each space names. -/
theorem scratchpadSpaces : scratchpadSpacesRule := by
  intro s x l a n h hl hhnd b r frame core
  have hown : x.own = (.core (256 * b.die + b.core), b.base) := by
    rw [Ctx.own, hhnd]
    rfl
  have hframe : s.place x l .frame a n =
      if a + n ≤ frame then some (.core (256 * b.die + b.core), b.base + (b.cfg.sb + h.t * b.cfg.pfb) + a) else none := by
    simp only [State.place, hown, hl, Option.map_some, Option.getD_some, Nat.add_assoc]
    rfl
  have hwindow : s.place x l .window a n = if s.winReach b.grid core (a % 2 ^ 18) n then some (.core core, a % 2 ^ 18) else none := rfl
  refine ⟨?_, rfl, hframe, ?_, ?_, fun k => ⟨rfl, rfl, rfl, rfl⟩⟩
  · rw [State.place, hown]
  · rw [hwindow]
    split
    · exact .inl rfl
    · exact .inr rfl
  · rw [hwindow]
    simp only [ite_eq_left_iff, reduceCtorEq, imp_false, not_not, State.winReach_iff, State.scratchCovers_iff]

end Sys2Proof.Machine
end

section
/-! SUPPORT. The address checks of scratchpad words (R153, R154; O13). -/
namespace Sys2Proof.Machine

/-! ## The first address check that a lane fails (R154) -/

section AddrFault
variable {ls : List Nat} {adr : Nat → Nat} {win ali rea : Nat → Nat → Bool}

theorem maskOf_filter_none {ls : List Nat} {p : Nat → Bool} (h : ∀ l ∈ ls, p l = true) : maskOf (ls.filter (fun l => !p l)) = 0#32 := by
  rw [List.filter_eq_nil_iff.2 (fun l hl => by simp [h l hl])]
  rfl

theorem addrFault_none (h : ∀ l ∈ ls, win l (adr l) = true ∧ ali l (adr l) = true ∧ rea l (adr l) = true) :
    addrFault (ls.map (fun l => (l, adr l))) win ali rea = none := by
  have hw := maskOf_filter_none (fun l hl => (h l hl).1)
  have ha := maskOf_filter_none (fun l hl => (h l hl).2.1)
  have hr := maskOf_filter_none (fun l hl => (h l hl).2.2)
  simp only [addrFault, keys_filter_lanes, hw, ha, hr, ne_eq, not_true_eq_false, if_false]

theorem addrFault_window (hne : maskOf (ls.filter (fun l => !win l (adr l))) ≠ 0#32) :
    addrFault (ls.map (fun l => (l, adr l))) win ali rea = some (cWindow, maskOf (ls.filter (fun l => !win l (adr l)))) := by
  simp only [addrFault, keys_filter_lanes]
  exact if_pos hne

theorem addrFault_align (h : ∀ l ∈ ls, win l (adr l) = true) (hne : maskOf (ls.filter (fun l => !ali l (adr l))) ≠ 0#32) :
    addrFault (ls.map (fun l => (l, adr l))) win ali rea = some (cAlign, maskOf (ls.filter (fun l => !ali l (adr l)))) := by
  simp only [addrFault, keys_filter_lanes, maskOf_filter_none h, ne_eq, not_true_eq_false, if_false]
  exact if_pos hne

theorem addrFault_reach (h : ∀ l ∈ ls, win l (adr l) = true ∧ ali l (adr l) = true)
    (hne : maskOf (ls.filter (fun l => !rea l (adr l))) ≠ 0#32) :
    addrFault (ls.map (fun l => (l, adr l))) win ali rea = some (cReach, maskOf (ls.filter (fun l => !rea l (adr l)))) := by
  simp only [addrFault, keys_filter_lanes, maskOf_filter_none (fun l hl => (h l hl).1), maskOf_filter_none (fun l hl => (h l hl).2), ne_eq,
    not_true_eq_false, if_false]
  exact if_pos hne

end AddrFault

/-! ## The lanes of a scratchpad word at issue (R153) -/

/-- The ring register that the base of an address names. -/
def ringReg (x : Ctx) (a : Src) : W64 :=
  match a with
  | .k n => x.coh.kreg n.toNat
  | _ => 0#64

theorem laneAddr_fst (ring : W64) (mode : AMode) (z : Nat) (disp : Int) (p : Nat × Nat) :
    (laneAddr ring mode z disp p).1 = formAddr mode ring z disp p.1 p.2 := by
  cases mode <;> simp [laneAddr, formAddr]

/-- Lanes whose operands are accepted and carry no poison. -/
def checkedLanes (ls : List Nat) (z : Nat → Nat) (ops : Nat → Nat × Nat) : AMap (Option SLane) :=
  ls.map (fun l => (l, some ⟨z l, ops l, false⟩))

section Checked
variable {s : State} {x : Ctx} {sp : Space} {mode : AMode} {disp : Int} {a b : Src} {ks ls : List Nat} {z : Nat → Nat} {ops : Nat → Nat × Nat}
  {val : Nat → Nat → W64 × Bool} {go : State → AMap (List Acc) → WRes}

theorem checkedLanes_bad (ls : List Nat) (z : Nat → Nat) (ops : Nat → Nat × Nat) :
    (checkedLanes ls z ops).filter (fun p => p.2.isNone) = [] := by
  simp [checkedLanes]

theorem checkedLanes_ok (ls : List Nat) (z : Nat → Nat) (ops : Nat → Nat × Nat) :
    (checkedLanes ls z ops).filterMap (fun p => p.2.map (fun r => (p.1, r))) = ls.map (fun l => (l, ⟨z l, ops l, false⟩)) := by
  simp [checkedLanes, List.filterMap_map]

theorem checkedLanes_psn (ls : List Nat) (z : Nat → Nat) (ops : Nat → Nat × Nat) :
    (ls.map (fun l => (l, (⟨z l, ops l, false⟩ : SLane)))).filter (fun p => p.2.psn) = [] := by
  simp

/-- The address of a checked lane. -/
def spAddr (x : Ctx) (mode : AMode) (disp : Int) (a : Src) (z : Nat → Nat) (ops : Nat → Nat × Nat) (l : Nat) : Nat :=
  formAddr mode (ringReg x a) (z l) disp (ops l).1 (ops l).2

/-- The next ring index of a checked lane. -/
def spIndex (x : Ctx) (mode : AMode) (disp : Int) (a : Src) (z : Nat → Nat) (ops : Nat → Nat × Nat) (l : Nat) : Nat :=
  (laneAddr (ringReg x a) mode (z l) disp (ops l)).2

/-- The alignment and the reach of a checked lane's primal and tangents (R154). -/
def alignOk (x : Ctx) (sp : Space) (ks ls : List Nat) (z : Nat → Nat) (l a : Nat) : Bool :=
  (0 :: ks).all (fun k => tanAddr x sp a k % (if l ∈ ls then z l else 4) == 0)
def reachOk (s : State) (x : Ctx) (sp : Space) (ks ls : List Nat) (z : Nat → Nat) (val : Nat → Nat → W64 × Bool) (l a : Nat) : Bool :=
  (s.laneAccs x sp l a (if l ∈ ls then z l else 4) ks (val l)).isSome

/-- The address checks of checked lanes. -/
def spFault (s : State) (x : Ctx) (sp : Space) (mode : AMode) (disp : Int) (a : Src) (ks ls : List Nat) (z : Nat → Nat) (ops : Nat → Nat × Nat)
    (val : Nat → Nat → W64 × Bool) : Option (Nat × W32) :=
  addrFault (ls.map (fun l => (l, spAddr x mode disp a z ops l))) (fun _ => winOk x sp ks)
    (alignOk x sp ks ls z) (reachOk s x sp ks ls z val)

/-- Checked lanes meet the address checks: a fault of one traps or, behind ring indices, leaves them; else the word goes on. -/
theorem spIssue_checked (hr : mode = .ring → ls ≠ [] → ringOk (ringReg x a) sp = true) :
    (∀ f, spFault s x sp mode disp a ks ls z ops val = some f → mode ≠ .ring →
      spIssue s x sp mode disp a b ks (checkedLanes ls z ops) val go = .trap (addrFz f (ls.map (fun l => (l, spAddr x mode disp a z ops l)))))
    ∧ (spFault s x sp mode disp a ks ls z ops val = none →
      spIssue s x sp mode disp a b ks (checkedLanes ls z ops) val go
        = go (putRing x s mode b (ls.map (fun l => (l, spIndex x mode disp a z ops l))))
          (ls.map (fun l => (l, (s.laneAccs x sp l (spAddr x mode disp a z ops l) (if l ∈ ls then z l else 4) ks (val l)).getD [])))) := by
  have hz (l : Nat) : ((AMap.find (ls.map (fun l => (l, (⟨z l, ops l, false⟩ : SLane)))) l).map (·.z)).getD 4 = if l ∈ ls then z l else 4 := by
    rw [find_mapLanes]
    split <;> rfl
  have hring : ¬ (mode = .ring ∧ (!ringOk (ringReg x a) sp) = true ∧ (!(checkedLanes ls z ops).isEmpty) = true) := by
    rintro ⟨hmode, hbad, hne⟩
    simp only [checkedLanes, List.isEmpty_map, Bool.not_eq_true', List.isEmpty_eq_false_iff] at hne
    simp [hr hmode hne] at hbad
  have hmask : maskOf (AMap.keys ([] : AMap (Option SLane))) = 0#32 ∧ maskOf (AMap.keys ([] : AMap SLane)) = 0#32 := ⟨rfl, rfl⟩
  have hrun : spIssue s x sp mode disp a b ks (checkedLanes ls z ops) val go =
      match spFault s x sp mode disp a ks ls z ops val with
      | some f => if mode = .ring then
          .part (putRing x s mode b (ls.map (fun l => (l, spIndex x mode disp a z ops l))))
            (addrFz f (ls.map (fun l => (l, spAddr x mode disp a z ops l)))) false
        else .trap (addrFz f (ls.map (fun l => (l, spAddr x mode disp a z ops l))))
      | none => go (putRing x s mode b (ls.map (fun l => (l, spIndex x mode disp a z ops l))))
          (ls.map (fun l => (l, (s.laneAccs x sp l (spAddr x mode disp a z ops l) (if l ∈ ls then z l else 4) ks (val l)).getD []))) := by
    unfold spIssue
    dsimp only
    rw [checkedLanes_bad, checkedLanes_ok, checkedLanes_psn, if_neg (by simp [hmask]), if_neg (by simp [hmask])]
    refine (if_neg hring).trans ?_
    simp only [hz, List.map_map, Function.comp_def, laneAddr_fst]
    rfl
  exact ⟨fun f hf hmode => by rw [hrun, hf]; exact if_neg hmode, fun hf => by rw [hrun, hf]⟩

/-- Checked lanes that pass the address checks issue their accesses. -/
theorem spIssue_go (hr : mode = .ring → ls ≠ [] → ringOk (ringReg x a) sp = true) {as : Nat → List Acc}
    (hpass : ∀ l ∈ ls, winOk x sp ks (spAddr x mode disp a z ops l) = true
      ∧ (∀ k ∈ 0 :: ks, tanAddr x sp (spAddr x mode disp a z ops l) k % z l = 0)
      ∧ s.laneAccs x sp l (spAddr x mode disp a z ops l) (z l) ks (val l) = some (as l)) :
    spIssue s x sp mode disp a b ks (checkedLanes ls z ops) val go
      = go (putRing x s mode b (ls.map (fun l => (l, spIndex x mode disp a z ops l)))) (ls.map (fun l => (l, as l))) := by
  have hnone : spFault s x sp mode disp a ks ls z ops val = none := addrFault_none (fun l hl => by
    obtain ⟨hwin, hali, hacc⟩ := hpass l hl
    refine ⟨hwin, List.all_eq_true.2 (fun k hk => ?_), ?_⟩
    · simpa [hl] using hali k hk
    · simp [reachOk, hl, hacc])
  rw [(spIssue_checked hr).2 hnone]
  congr 1
  refine List.map_congr_left (fun l hl => ?_)
  rw [if_pos hl, (hpass l hl).2.2]
  rfl

end Checked

end Sys2Proof.Machine
end

section
/-! SUPPORT. Scratchpad words whose lanes pass every check issue (R152, R153, R159; O13). -/
namespace Sys2Proof.Machine

/-! ## The ring indices written at issue (R153) -/

theorem Ctx.todo_nodup (x : Ctx) : x.todo.Nodup := x.lanes_nodup.filter _

/-- A ring index put into a register of a thread. -/
def Thread.putIndex (t : Thread) (n i : Nat) : Thread := t.setV n { t.vreg n with val := BitVec.ofNat 32 i, tag := .n32, psn := false }

theorem putRing_ring (x : Ctx) (s : State) (n : VNum) (ls : List Nat) (i : Nat → Nat) :
    putRing x s .ring (.v n) (ls.map (fun l => (l, i l)))
      = s.updCoh x.ref (fun c => ls.foldl (fun c l => c.updThread l (fun t => t.putIndex n.toNat (i l))) c) := by
  simp only [putRing, List.foldl_map]
  rfl

/-- Ring indices are written in the ring form alone, and only to a vector register. -/
theorem putRing_cases (x : Ctx) (s : State) (mode : AMode) (b : Src) (idx : AMap Nat) :
    (mode = .ring ∧ ∃ n, b = .v n) ∨ putRing x s mode b idx = s := by
  cases mode with
  | ring =>
    cases b with
    | v n => exact .inl ⟨rfl, n, rfl⟩
    | _ => exact .inr rfl
  | _ => exact .inr rfl

section PutRing
variable (x : Ctx) (s : State) (mode : AMode) (b : Src) (i : Nat → Nat)

theorem putRing_coh {k : Cohort} (hk : s.coh x.ref = some k) :
    ∃ m, (putRing x s mode b (x.todo.map (fun l => (l, i l)))).coh x.ref = some { k with lanes := m } := by
  rcases putRing_cases x s mode b (x.todo.map (fun l => (l, i l))) with ⟨rfl, n, rfl⟩ | hsame
  · obtain ⟨m, hm⟩ := foldUpd_rest (fun l t => t.putIndex n.toNat (i l)) x.todo k
    rw [putRing_ring, State.coh_updCoh, if_pos rfl, hk]
    exact ⟨m, congrArg some hm⟩
  · exact ⟨k.lanes, by rw [hsame, hk]⟩

theorem putRing_rest :
    (putRing x s mode b (x.todo.map (fun l => (l, i l)))).nid = s.nid ∧ (putRing x s mode b (x.todo.map (fun l => (l, i l)))).pend = s.pend
    ∧ (putRing x s mode b (x.todo.map (fun l => (l, i l)))).cores = s.cores := by
  rcases putRing_cases x s mode b (x.todo.map (fun l => (l, i l))) with ⟨rfl, n, rfl⟩ | hsame
  · rw [putRing_ring]
    simp
  · simp [hsame]

theorem State.keeps_putRing : s.keeps (putRing x s mode b (x.todo.map (fun l => (l, i l)))) (ringPlaces x mode b) := by
  rcases putRing_cases x s mode b (x.todo.map (fun l => (l, i l))) with ⟨rfl, n, rfl⟩ | hsame
  · rw [putRing_ring]
    refine State.keeps_updCoh (fun k _ p hp => ?_)
    have hthr (l : Nat) := thread_foldUpd (fun l t => t.putIndex n.toNat (i l)) x.todo x.todo_nodup k l
    obtain ⟨m, hm⟩ := foldUpd_rest (fun l t => t.putIndex n.toNat (i l)) x.todo k
    cases p with
    | v q l m =>
      rintro rfl
      rw [hthr]
      split
      · rename_i hl
        have hne : m ≠ n.toNat := fun he => hp ⟨rfl, n, l, rfl, hl, by rw [he]⟩
        cases k.thread l <;> simp [Thread.putIndex, Thread.vreg_setV, hne]
      · rfl
    | m q l _ | seed q l | resv q l | ident q l =>
      rintro rfl
      rw [hthr]
      split
      · cases k.thread l <;> rfl
      · rfl
    | _ => simp [hm, cohSame, Cohort.sreg, Cohort.kreg, Cohort.ctr, Cohort.path, Cohort.counts, Cohort.bare]
  · rw [hsame]
    exact s.keeps_refl _

theorem vAt_putRing {n : VNum} {l : Nat} (hl : l ∈ x.todo) (ht : (s.thr x.ref l).isSome) :
    (putRing x s .ring (.v n) (x.todo.map (fun l => (l, i l)))).vAt x.ref l n.toNat
      = { s.vAt x.ref l n.toNat with val := BitVec.ofNat 32 (i l), tag := .n32, psn := false } := by
  obtain ⟨-, c, t, -, -, hc, hct⟩ := State.coh_of_thr ht
  have hthr := thread_foldUpd (fun l t => t.putIndex n.toNat (i l)) x.todo x.todo_nodup c l
  rw [if_pos hl, hct] at hthr
  have hread : (putRing x s .ring (.v n) (x.todo.map (fun l => (l, i l)))).thr x.ref l = some (t.putIndex n.toNat (i l)) := by
    rw [putRing_ring, State.thr, State.coh_updCoh, if_pos rfl, hc]
    exact hthr
  have hold : s.thr x.ref l = some t := by rw [State.thr, hc]; exact hct
  simp [State.vAt, hread, hold, Thread.putIndex, Thread.vreg_setV]

end PutRing

/-- The index that a permitted ring register gives is the one of R153. -/
theorem ofNat_spIndex {x : Ctx} {disp : Int} {k : Sys2Proof.KNum} {sp : Space} (h : ringOk (x.coh.kreg k.toNat) sp = true) (z : Nat → Nat)
    (ops : Nat → Nat × Nat) (l : Nat) :
    BitVec.ofNat 32 (spIndex x .ring disp (.k k) z ops l)
      = BitVec.ofInt 32 ((((ops l).2 % bitsAt (x.coh.kreg k.toNat).toNat 32 27 : Nat) + disp * z l) % bitsAt (x.coh.kreg k.toNat).toNat 32 27) := by
  have hsize : 1 ≤ bitsAt (x.coh.kreg k.toNat).toNat 32 27 := by
    simp only [ringOk, Bool.and_eq_true, decide_eq_true_eq] at h
    exact h.1.2
  have hnn := Int.emod_nonneg ((((ops l).2 % bitsAt (x.coh.kreg k.toNat).toNat 32 27 : Nat) : Int) + disp * z l)
    (b := bitsAt (x.coh.kreg k.toNat).toNat 32 27) (by omega)
  rw [← BitVec.ofInt_natCast]
  congr 1
  exact Int.toNat_of_nonneg hnn

/-! ## The word issues -/

/-- A word whose body leaves its ring indices and one new operation has issued (R153, R159). -/
theorem word_ringAsync {s : State} {x : Ctx} {c : Ctl} {body : Ctx → WRes} {mode : AMode} {disp : Int} {a b : Src} {sp : Space}
    {z : Nat → Nat} {ops : Nat → Nat × Nat} {kind : PKind} {dst : Option Dst} {tag : Tag} {lanes : AMap (List Acc)} (h : s.issues x c)
    (hr : mode = .ring → x.todo ≠ [] → ringOk (ringReg x a) sp = true)
    (hb : let y : Ctx := { x with smp := s.sampleOf x }
      let s1 := putRing x s mode b (x.todo.map (fun l => (l, spIndex x mode disp a z ops l)))
      body y = .async (s1.addPend (y.pend s1 kind dst tag c.set lanes))) :
    ∃ t p, word c s body = .next t ∧ s.asyncDone x c (.next t) p (ringPlaces x mode b) ∧ p.kind = kind ∧ p.exec = x.exec ∧ p.dst = dst
      ∧ p.tag = tag ∧ p.lanes = lanes ∧ ringSteps s t x mode disp a b ops z := by
  obtain ⟨-, -, hcoh, -, hpath, -⟩ := State.ctx_some h.1
  set i := fun l => spIndex x mode disp a z ops l with hi
  set s1 := putRing x s mode b (x.todo.map (fun l => (l, i l))) with hs1
  set p := ({ x with smp := s.sampleOf x } : Ctx).pend s1 kind dst tag c.set lanes with hp
  obtain ⟨m, hm⟩ := putRing_coh x s mode b i hcoh
  obtain ⟨hnid, hpend, -⟩ := putRing_rest x s mode b i
  have hring := State.keeps_putRing x s mode b i
  obtain ⟨t, hrun, ⟨⟨o, hslot, hsub, hops⟩, hlatch⟩, hctr, htp, htn, -, hkeep⟩ :=
    word_async (s' := s1.addPend p) (k := { x.coh with lanes := m }) h hb hm hpath rfl rfl rfl rfl
  have hid : p.id = s.nid := hnid
  have hall : s.pend ++ [p] = (s1.addPend p).pend := by
    rw [← hpend]
    rfl
  refine ⟨t, p, hrun, ⟨hid, rfl, rfl, rfl, rfl, t, rfl, htp.trans hall.symm, ?_, hctr, ⟨⟨o, hslot, hsub, fun hd => ?_⟩, hlatch⟩, ?_⟩,
    rfl, rfl, rfl, rfl, rfl, ?_⟩
  · rw [htn, ← hnid]
    rfl
  · exact hops p (by rw [← hall]; simp) (by rw [hid]) hd
  · refine State.keeps_trans (State.keeps_mono hring (fun _ hz => .inr (.inr hz))) (State.keeps_trans
      (State.keeps_mono (s1.keeps_addPend p) ?_) (State.keeps_mono hkeep ?_))
    · rintro _ (rfl | rfl)
      · exact .inr (.inl trivial)
      · exact .inr (.inl trivial)
    · rintro _ (hz | ⟨n, hn, rfl⟩)
      · exact .inl hz
      · exact .inr (.inl ⟨rfl, n, hn, rfl⟩)
  · rintro n k rfl rfl rfl l hl ht
    have hok : ringOk (x.coh.kreg k.toNat) sp = true := hr rfl (List.ne_nil_of_mem hl)
    have hsame : t.vAt x.ref l n.toNat = s1.vAt x.ref l n.toNat :=
      (hkeep (.v x.ref l n.toNat) (by simp [Ctx.moved])).trans (s1.keeps_addPend p (.v x.ref l n.toNat) (by simp))
    rw [hsame, hs1, vAt_putRing x s i hl ht]
    exact ⟨ofNat_spIndex hok z ops l, rfl, rfl⟩

theorem wpHit_disabled {w : W64} (h : w.getLsbD 63 = false) (rd wr : Bool) (a n : Nat) : wpHit w rd wr a n = false := by
  simp only [wpHit, h, Bool.false_and]

/-- Where no watchpoint of the issuer's core is enabled, none matches (R341). -/
theorem watch_none {s s1 : State} {x : Ctx} (hw : noWatch s x) (hcores : s1.cores = s.cores) (y : Ctx) (hy : y.blk = x.blk) (rd wr : Bool)
    (lanes : AMap (List Acc)) : s1.watch y rd wr lanes = none := by
  have hcore : s1.core y.blk.coreId = s.core x.blk.coreId := by rw [hy, State.core, State.core, hcores]
  have hmask (n : Nat) : wpLanes y ((s.core x.blk.coreId).wpb.get n 0#64) rd wr lanes = 0#32 := by
    rw [wpLanes, List.filter_eq_nil_iff.2 (fun l _ => by simp [wpHit_disabled (hw n)])]
    rfl
  unfold State.watch
  split
  · rfl
  · simp only [hcore, hmask, if_true]
    simp

theorem watchedSp_async {s s1 : State} {x : Ctx} (hw : noWatch s x) (hcores : s1.cores = s.cores) (y : Ctx) (hy : y.blk = x.blk) (sp : Space)
    (rd wr : Bool) (lanes : AMap (List Acc)) (s' : State) : watchedSp sp s1 y rd wr lanes s' = .async s' := by
  cases sp <;> simp [watchedSp, watched, watch_none hw hcores y hy]

/-! ## The operands of an address (R74, R153) -/

/-- An operand of an address carries poison. -/
def Ctx.addrPsn (x : Ctx) (s : State) (c : Ctl) (mode : AMode) (l : Nat) (a b : Src) : Bool :=
  (match mode with | .ring => false | _ => (x.rd s c l a).psn) || (x.rd s c l b).psn

/-- The address operands of a lane are accepted, unpoisoned, and these. -/
def Ctx.addrReads (x : Ctx) (s : State) (c : Ctl) (mode : AMode) (a b : Src) (l : Nat) (ops : Nat × Nat) : Prop :=
  addrOps x s c.lit mode l a b = some ops ∧ x.addrPsn s c mode l a b = false

theorem addr32_of_accepted {e : El} (h : e.accepted (ityAccepts .n32) = true) : e.addr32 = some (e.val.toNat % 2 ^ 32) := if_pos h

theorem Ctx.addrReads_ring {x : Ctx} {s : State} {c : Ctl} {a b : Src} {l : Nat} (hb : (x.rd s c l b).accepted (ityAccepts .n32) = true)
    (hpb : (x.rd s c l b).psn = false) : x.addrReads s c .ring a b l (0, (x.rd s c l b).val.toNat % 2 ^ 32) := by
  have h := addr32_of_accepted hb
  unfold Ctx.rd at h
  refine ⟨?_, hpb⟩
  simp only [addrOps, h]
  rfl

theorem Ctx.addrReads_sum {x : Ctx} {s : State} {c : Ctl} {mode : AMode} {a b : Src} {l : Nat} (hm : mode ≠ .ring)
    (ha : (x.rd s c l a).accepted (ityAccepts .n32) = true) (hpa : (x.rd s c l a).psn = false)
    (hb : (x.rd s c l b).accepted (ityAccepts .n32) = true) (hpb : (x.rd s c l b).psn = false) :
    x.addrReads s c mode a b l ((x.rd s c l a).val.toNat % 2 ^ 32, (x.rd s c l b).val.toNat % 2 ^ 32) := by
  have h := addr32_of_accepted hb
  have h' := addr32_of_accepted ha
  unfold Ctx.rd at h h'
  cases mode with
  | ring => exact absurd rfl hm
  | _ =>
    refine ⟨?_, by simp [Ctx.addrPsn, hpa, hpb]⟩
    simp only [addrOps, h, h']
    rfl

/-- A lane that passes the checks of R154 has accepted operands, a permitted ring register, and its accesses. -/
theorem spLaneOk_spec {s : State} {x : Ctx} {c : Ctl} {sp : Space} {mode : AMode} {disp : Int} {a b : Src} {ks : List Nat} {l : Nat}
    {ops : Nat → Nat × Nat} {z : Nat → Nat} {val : Nat → W64 × Bool} {as : List Acc}
    (h : spLaneOk s x c sp mode disp a b ks l (ops l) (z l) val as) :
    x.addrReads s c mode a b l (ops l) ∧ (mode = .ring → ringOk (ringReg x a) sp = true) ∧ winOk x sp ks (spAddr x mode disp a z ops l) = true
    ∧ (∀ k ∈ 0 :: ks, tanAddr x sp (spAddr x mode disp a z ops l) k % z l = 0)
    ∧ s.laneAccs x sp l (spAddr x mode disp a z ops l) (z l) ks val = some as := by
  obtain ⟨hq, ⟨hb, hpb⟩, hbase, hwin, hali, hacc⟩ := h
  refine ⟨?_, fun hm => ?_, hwin, hali, hacc⟩
  · by_cases hm : mode = .ring
    · rw [if_pos hm] at hbase
      have hops : ops l = (0, (x.rd s c l b).val.toNat % 2 ^ 32) := Prod.ext hbase.1 hq
      rw [hops, hm]
      exact Ctx.addrReads_ring hb hpb
    · rw [if_neg hm] at hbase
      obtain ⟨hp, ha, hpa⟩ := hbase
      have hops : ops l = ((x.rd s c l a).val.toNat % 2 ^ 32, (x.rd s c l b).val.toNat % 2 ^ 32) := Prod.ext hp hq
      rw [hops]
      exact Ctx.addrReads_sum hm ha hpa hb hpb
  · rw [if_pos hm] at hbase
    exact hbase.2

end Sys2Proof.Machine
end

section
/-! SUPPORT. The scratchpad loads and stores (R151 to R159; O13). -/
namespace Sys2Proof.Machine

/-! ## Loads -/

/-- The tangents that a load moves: none under STOP (R223). -/
def loadTans (x : Ctx) : List Nat := if x.dxMode = .stop then [] else x.tans

/-- The accesses of a load's lanes beside those that it makes: the tangents that it will zero under STOP (R159, R223). -/
def loadStops (x : Ctx) : List Acc := if x.dxMode = .stop then x.tans.map (fun k => Acc.reg k 0#64 false) else []

/-- What the destination of a poll holds in a lane as it issues (R158). -/
def pollOld (x : Ctx) (q : LdCtl) (d : Dst) (l : Nat) : W64 :=
  match d with
  | .v n => ((x.coh.thread l).map (fun t => (t.el (loadZ q.fmt == 8) n.toNat).val)).getD 0#64
  | .seed => ((x.coh.thread l).map (fun t => t.seed.setWidth 64)).getD 0#64
  | _ => 0#64

section LoadWord
variable {s : State} {x : Ctx} {c : Ctl} {sp : Space} {q : LdCtl} {d : Dst} {a b : Src} {ops : Nat → Nat × Nat}

/-- A load whose address operands are accepted is a word of checked lanes. -/
theorem loadWord_checked (he : s.errIn = []) (hops : ∀ l ∈ x.todo, x.addrReads s c q.mode a b l (ops l)) :
    ∃ body go, loadWord sp c q d a b s = word c s body
      ∧ body { x with smp := s.sampleOf x } = spIssue s { x with smp := s.sampleOf x } sp q.mode q.disp.toInt a b (loadTans x)
          (checkedLanes x.todo (fun _ => loadZ q.fmt) ops) (fun _ _ => (0#64, false)) go
      ∧ ∀ s1 las, go s1 las =
          let lanes := las.map (fun p => (p.1, p.2 ++ loadStops x))
          watchedSp sp s1 { x with smp := s.sampleOf x } true (q.q == .feClr) lanes
            (s1.addPend (({ x with smp := s.sampleOf x } : Ctx).pend s1
              (.load q.q (if q.q = .poll then las.map (fun p => (p.1, pollOld x q d p.1)) else [])) (some d) q.fmt c.set lanes)) := by
  have hrs : x.todo.map (fun l => (l, (addrOps x s c.lit q.mode l a b).map (fun p =>
      (⟨loadZ q.fmt, p, x.addrPsn s c q.mode l a b⟩ : SLane)))) = checkedLanes x.todo (fun _ => loadZ q.fmt) ops :=
    List.map_congr_left (fun l hl => by rw [(hops l hl).1, (hops l hl).2]; rfl)
  have hks : (match x.dxMode with | .stop => [] | _ => x.tans) = loadTans x := by
    unfold loadTans
    cases x.dxMode <;> rfl
  refine ⟨_, _, rfl, ?_, fun s1 las => rfl⟩
  dsimp only
  rw [parityCheck_quiet he]
  rw [← hrs, ← hks]
  rfl

/-- R153, R154, R159: a load whose lanes pass every check issues. -/
theorem loadWord_issues (h : s.issues x c) (he : s.errIn = []) (hw : noWatch s x) {as : Nat → List Acc}
    (hok : ∀ l ∈ x.todo, spLaneOk s x c sp q.mode q.disp.toInt a b (loadTans x) l (ops l) (loadZ q.fmt) (fun _ => (0#64, false)) (as l)) :
    ∃ t p old, loadWord sp c q d a b s = .next t ∧ s.asyncDone x c (.next t) p (ringPlaces x q.mode b)
      ∧ p.kind = .load q.q old ∧ p.exec = x.exec
      ∧ p.dst = some d ∧ p.tag = q.fmt ∧ p.lanes = x.todo.map (fun l => (l, as l ++ loadStops x))
      ∧ (q.q = .poll → ∀ l ∈ x.todo, old.find l = some (pollOld x q d l))
      ∧ ringSteps s t x q.mode q.disp.toInt a b ops (fun _ => loadZ q.fmt) := by
  have hspec (l : Nat) (hl : l ∈ x.todo) := spLaneOk_spec (z := fun _ => loadZ q.fmt) (hok l hl)
  have hr : q.mode = .ring → x.todo ≠ [] → ringOk (ringReg x a) sp = true := fun hm hne => by
    obtain ⟨l, hl⟩ := List.exists_mem_of_ne_nil _ hne
    exact (hspec l hl).2.1 hm
  obtain ⟨body, go, hword, hbody, hgo⟩ := loadWord_checked (sp := sp) (q := q) (d := d) he (fun l hl => (hspec l hl).1)
  have hissue := spIssue_go (s := s) (x := { x with smp := s.sampleOf x }) (sp := sp) (mode := q.mode) (disp := q.disp.toInt) (a := a) (b := b)
    (z := fun _ => loadZ q.fmt) (ops := ops) (val := fun _ _ => (0#64, false)) (go := go) hr (fun l hl => (hspec l hl).2.2)
  have hcores := (putRing_rest x s q.mode b (fun l => spIndex x q.mode q.disp.toInt a (fun _ => loadZ q.fmt) ops l)).2.2
  have hasync := hbody.trans (hissue.trans ((hgo _ _).trans (watchedSp_async hw hcores _ rfl sp ..)))
  obtain ⟨t, p, hrun, hdone, hkind, hexec, hdst, htag, hlanes, hring⟩ := word_ringAsync h hr hasync
  refine ⟨t, p, _, hword.trans hrun, hdone, hkind, hexec, hdst, htag, hlanes.trans (by simp), fun hq l hl => ?_, hring⟩
  rw [if_pos hq, List.map_map]
  exact (find_mapLanes x.todo (fun l => pollOld x q d l) l).trans (if_pos hl)

end LoadWord

theorem scratchpadLoadsIssue : scratchpadLoadsIssueRule := by
  intro s x c q d a b ops as h he hw z ks loads
  have hall (i : Instr) (sp : Space) (hi : exec i s = loadWord sp c q d a b s) : loads i sp := by
    intro hok
    obtain ⟨t, p, old, hrun, hdone, hkind, hexec, hdst, htag, hlanes, hold, hring⟩ := loadWord_issues (d := d) h he hw hok
    refine ⟨t, p, old, hi.trans hrun, hdone, hkind, hexec, hdst, htag, hlanes, fun hq l hl n th hd ht => ?_, hring⟩
    obtain ⟨-, -, hcoh, -⟩ := State.ctx_some h.1
    have hct : x.coh.thread l = some th := by simpa [State.thr, hcoh] using ht
    rw [hold hq l hl, hd, pollOld, hct]
    rfl
  exact ⟨hall _ _ rfl, hall _ _ rfl, hall _ _ rfl, hall _ _ rfl⟩

/-! ## Stores -/

/-- What a store writes of an element: its value and, by index, its tangents, each with its poison (R152, R159). -/
def storeGives (e : El) (k : Nat) : W64 × Bool := if k = 0 then (e.val, e.psn) else (e.t k, e.tpsn.contains k)

/-- What the lanes of a store write. -/
def storedVals (x : Ctx) (s : State) (c : Ctl) (v : Src) (l k : Nat) : W64 × Bool :=
  match AMap.find (x.todo.map (fun l => (l, storeVal x s c.lit l v))) l with
  | some (some w) => storeGives w.2 k
  | _ => (0#64, false)

section StoreWord
variable {s : State} {x : Ctx} {c : Ctl} {sp : Space} {q : StCtl} {a b v : Src} {ops : Nat → Nat × Nat} {z : Nat → Nat} {e : Nat → El}

/-- A store whose address operands and values are accepted is a word of checked lanes. -/
theorem storeWord_checked (he : s.errIn = [])
    (hops : ∀ l ∈ x.todo, x.addrReads s c q.mode a b l (ops l) ∧ storeVal x s c.lit l v = some (z l, e l)) :
    ∃ body go val, storeWord sp c q a b v s = word c s body
      ∧ body { x with smp := s.sampleOf x } = spIssue s { x with smp := s.sampleOf x } sp q.mode q.disp.toInt a b x.tans
          (checkedLanes x.todo z ops) val go
      ∧ (∀ l ∈ x.todo, val l = storeGives (e l))
      ∧ ∀ s1 las, go s1 las = watchedSp sp s1 { x with smp := s.sampleOf x } false true las
          (s1.addPend (({ x with smp := s.sampleOf x } : Ctx).pend s1 (.store q.q (wholeGranules las)) none .raw c.set las)) := by
  have hrs : (x.todo.map (fun l => (l, storeVal x s c.lit l v))).map (fun p => (p.1, match addrOps x s c.lit q.mode p.1 a b, p.2 with
      | some ops, some w => some (⟨w.1, ops, x.addrPsn s c q.mode p.1 a b⟩ : SLane)
      | _, _ => none)) = checkedLanes x.todo z ops := by
    rw [List.map_map]
    refine List.map_congr_left (fun l hl => ?_)
    obtain ⟨⟨hop, hpsn⟩, hval⟩ := hops l hl
    simp only [Function.comp_apply, hop, hval, hpsn]
  refine ⟨_, _, storedVals x s c v, rfl, ?_, fun l hl => ?_, fun s1 las => rfl⟩
  · dsimp only
    rw [parityCheck_quiet he]
    rw [← hrs]
    rfl
  · funext k
    rw [storedVals, find_mapLanes, if_pos hl, (hops l hl).2]

/-- R152, R153, R154, R159: a store whose lanes pass every check issues. -/
theorem storeWord_issues (h : s.issues x c) (he : s.errIn = []) (hw : noWatch s x) {as : Nat → List Acc}
    (hok : ∀ l ∈ x.todo, storeVal x s c.lit l v = some (z l, e l)
      ∧ spLaneOk s x c sp q.mode q.disp.toInt a b x.tans l (ops l) (z l) (storeGives (e l)) (as l)) :
    ∃ t p, storeWord sp c q a b v s = .next t ∧ s.asyncDone x c (.next t) p (ringPlaces x q.mode b)
      ∧ p.kind = .store q.q (wholeGranules p.lanes) ∧ p.exec = x.exec ∧ p.lanes = x.todo.map (fun l => (l, as l))
      ∧ ringSteps s t x q.mode q.disp.toInt a b ops z := by
  have hspec (l : Nat) (hl : l ∈ x.todo) := spLaneOk_spec (hok l hl).2
  have hr : q.mode = .ring → x.todo ≠ [] → ringOk (ringReg x a) sp = true := fun hm hne => by
    obtain ⟨l, hl⟩ := List.exists_mem_of_ne_nil _ hne
    exact (hspec l hl).2.1 hm
  obtain ⟨body, go, val, hword, hbody, hval, hgo⟩ := storeWord_checked (sp := sp) he (fun l hl => ⟨(hspec l hl).1, (hok l hl).1⟩)
  have hissue := spIssue_go (s := s) (x := { x with smp := s.sampleOf x }) (sp := sp) (mode := q.mode) (disp := q.disp.toInt) (a := a) (b := b)
    (z := z) (ops := ops) (val := val) (go := go) (ks := x.tans) (as := as) hr
    (fun l hl => by rw [hval l hl]; exact (hspec l hl).2.2)
  have hcores := (putRing_rest x s q.mode b (fun l => spIndex x q.mode q.disp.toInt a z ops l)).2.2
  have hasync := hbody.trans (hissue.trans ((hgo _ _).trans (watchedSp_async hw hcores _ rfl sp ..)))
  obtain ⟨t, p, hrun, hdone, hkind, hexec, -, -, hlanes, hring⟩ := word_ringAsync h hr hasync
  exact ⟨t, p, hword.trans hrun, hdone, by rw [hkind, hlanes], hexec, hlanes, hring⟩

end StoreWord

theorem scratchpadStoresIssue : scratchpadStoresIssueRule := by
  intro s x c q a b v ops as e h he hw z stores
  have hall (i : Instr) (sp : Space) (hi : exec i s = storeWord sp c q a b v s) : stores i sp := by
    intro hok
    have hval (l : Nat) (hl : l ∈ x.todo) : storeVal x s c.lit l v = some (z l, e l) := by
      have hval := (hok l hl).1
      show (if (x.rd s c l v).tag = some .f64 then _ else _) = some ((if (x.rd s c l v).tag = some .f64 then 8 else 4), e l)
      by_cases htag : (x.rd s c l v).tag = some .f64
      · have hz : z l = 8 := if_pos htag
        rw [if_pos hz] at hval
        rw [if_pos htag, if_pos htag, hval]
        rfl
      · have hz : z l ≠ 8 := by
          show (if _ then 8 else 4) ≠ 8
          rw [if_neg htag]
          decide
        rw [if_neg hz] at hval
        rw [if_neg htag, if_neg htag, hval]
        rfl
    obtain ⟨t, p, hrun, hdone⟩ := storeWord_issues (z := z) (e := e) (as := as) h he hw (fun l hl => ⟨hval l hl, (hok l hl).2⟩)
    exact ⟨t, p, hi.trans hrun, hdone⟩
  exact ⟨hall _ _ rfl, hall _ _ rfl, hall _ _ rfl, hall _ _ rfl⟩

/-! ## Loads whose address checks fail (R154) -/

theorem winOk_iff {x : Ctx} {sp : Space} {ks : List Nat} {a : Nat} :
    winOk x sp ks a = true ↔ ¬ (sp = .window ∧ ∃ k ∈ 0 :: ks, bitsAt (tanAddr x sp a k) 24 8 ≠ 0) := by
  simp only [winOk, Bool.or_eq_true, bne_iff_ne, List.all_eq_true, beq_iff_eq, not_and, not_exists, ne_eq, not_not]
  exact (Decidable.imp_iff_not_or).symm

theorem alignOk_iff {x : Ctx} {sp : Space} {ks ls : List Nat} {z : Nat → Nat} {l a : Nat} (hl : l ∈ ls) :
    alignOk x sp ks ls z l a = true ↔ ¬ ∃ k ∈ 0 :: ks, tanAddr x sp a k % z l ≠ 0 := by
  simp only [alignOk, if_pos hl, List.all_eq_true, beq_iff_eq, not_exists, not_and, ne_eq, not_not]

theorem State.isSome_laneAccs {s : State} {x : Ctx} {sp : Space} {l a z : Nat} {ks : List Nat} {val : Nat → W64 × Bool} :
    (s.laneAccs x sp l a z ks val).isSome = true ↔ ¬ ∃ k ∈ 0 :: ks, s.placeTan x l sp a z k = none := by
  unfold State.laneAccs
  generalize 0 :: ks = is
  induction is with
  | nil => simp
  | cons k is ih =>
    rw [List.foldr_cons]
    generalize List.foldr _ _ is = r at ih
    cases r with
    | none => simp_all
    | some as => cases hp : s.placeTan x l sp a z k <;> simp_all

theorem getLsbD_lowBit {m : W32} (h : m ≠ 0#32) : lowBit m < 32 ∧ m.getLsbD (lowBit m) = true := by
  obtain ⟨j, hj, hbit⟩ := bitVec_ne_zero_iff.1 h
  have hsome : ((List.range 32).find? (fun i => m.getLsbD i)).isSome := List.find?_isSome.2 ⟨j, List.mem_range.2 hj, hbit⟩
  obtain ⟨i, hi⟩ := Option.isSome_iff_exists.1 hsome
  rw [lowBit, hi]
  exact ⟨List.mem_range.1 (List.mem_of_find?_eq_some hi), List.find?_some hi⟩

theorem lt_of_mem_lanesOf {m : W32} {l : Nat} (h : l ∈ lanesOf m) : l < 32 := (by decide : ∀ k ∈ lanes32, k < 32) l (List.mem_filter.1 h).1

/-- The fault of an address check names the lanes' addresses (R90, R154). -/
theorem addrFz_lanes {ls : List Nat} {m : W32} (h : ∀ l < 32, m.getLsbD l = true → l ∈ ls) (hne : m ≠ 0#32) (adr : Nat → Nat) (code : Nat) :
    addrFz (code, m) (ls.map (fun l => (l, adr l))) = { Fz.of kProtection code m with
      va := BitVec.ofNat 64 (adr (lowBit m)), per := (lanesOf m).map (fun l => (l, code, 0xF, BitVec.ofNat 64 (adr l))) } := by
  have hget (l : Nat) (hl : l ∈ ls) : AMap.get (ls.map (fun l => (l, adr l))) l 0 = adr l := by
    rw [AMap.get, find_mapLanes, if_pos hl]
    rfl
  obtain ⟨hlt, hlow⟩ := getLsbD_lowBit hne
  have hper : (lanesOf m).map (fun l => (l, code, 0xF, BitVec.ofNat 64 (AMap.get (ls.map (fun l => (l, adr l))) l 0)))
      = (lanesOf m).map (fun l => (l, code, 0xF, BitVec.ofNat 64 (adr l))) :=
    List.map_congr_left (fun l hl => by rw [hget l (h l (lt_of_mem_lanesOf hl) (mem_lanesOf hl))])
  simp only [addrFz, hget _ (h _ hlt hlow), hper]

theorem reachOk_iff {s : State} {x : Ctx} {sp : Space} {ks ls : List Nat} {z : Nat → Nat} {val : Nat → Nat → W64 × Bool} {l a : Nat}
    (hl : l ∈ ls) : reachOk s x sp ks ls z val l a = true ↔ ¬ ∃ k ∈ 0 :: ks, s.placeTan x l sp a (z l) k = none := by
  rw [reachOk, if_pos hl]
  exact State.isSome_laneAccs

section LoadFault
variable {s : State} {x : Ctx} {c : Ctl} {q : LdCtl} {a b : Src}

/-- The address operands of a lane in base or scaled form. -/
def sumOps (s : State) (x : Ctx) (c : Ctl) (a b : Src) (l : Nat) : Nat × Nat :=
  ((x.rd s c l a).val.toNat % 2 ^ 32, (x.rd s c l b).val.toNat % 2 ^ 32)

theorem spAddr_sum (hm : q.mode ≠ .ring) (l : Nat) : spAddr x q.mode q.disp.toInt a (fun _ => loadZ q.fmt) (sumOps s x c a b) l
    = formAddr q.mode 0#64 (loadZ q.fmt) q.disp.toInt ((x.rd s c l a).val.toNat % 2 ^ 32) ((x.rd s c l b).val.toNat % 2 ^ 32) := by
  unfold spAddr
  cases hq : q.mode with
  | ring => exact absurd hq hm
  | _ => rfl

/-- A load in base or scaled form with accepted operands, a lane of which fails an address check, traps on it. -/
theorem loadWord_faults (h : s.issues x c) (he : s.errIn = []) (hm : q.mode ≠ .ring) (hrpm : x.coh.rpm = 0#32) (hstop : x.dxMode ≠ .stop)
    (hrd : ∀ l ∈ x.lanes, ∀ p ∈ [a, b], (x.rd s c l p).accepted (ityAccepts .n32) = true ∧ (x.rd s c l p).psn = false)
    {sp : Space} {d : Dst}
    {code : Nat} {f : Nat → Bool} (hsome : ∃ l ∈ x.lanes, f l = true)
    (hf : spFault s x sp q.mode q.disp.toInt a x.tans x.lanes (fun _ => loadZ q.fmt) (sumOps s x c a b) (fun _ _ => (0#64, false))
      = some (code, maskOf (x.lanes.filter f))) :
    let adr (l : Nat) : Nat := formAddr q.mode 0#64 (loadZ q.fmt) q.disp.toInt ((x.rd s c l a).val.toNat % 2 ^ 32) ((x.rd s c l b).val.toNat % 2 ^ 32)
    ∃ m : W32, (∀ l < 32, (m.getLsbD l = true ↔ l ∈ x.lanes ∧ f l = true)) ∧
      loadWord sp c q d a b s = .next (s.trapped x { Fz.of 0x02 code m with
        va := BitVec.ofNat 64 (adr (lowBit m)), per := (lanesOf m).map (fun l => (l, code, 0xF, BitVec.ofNat 64 (adr l))) }) := by
  intro adr
  have htodo : x.todo = x.lanes := by simp [Ctx.todo, hrpm]
  have hks : loadTans x = x.tans := if_neg hstop
  have hbits : ∀ l < 32, ((maskOf (x.lanes.filter f)).getLsbD l = true ↔ l ∈ x.lanes ∧ f l = true) :=
    fun l hl => by rw [getLsbD_maskOf hl, List.mem_filter]
  obtain ⟨l, hl, hfl⟩ := hsome
  have hne := Ctx.maskOf_lanes_ne_zero hl hfl
  have hreads : ∀ l ∈ x.todo, x.addrReads s c q.mode a b l (sumOps s x c a b l) := by
    rw [htodo]
    intro l hl
    obtain ⟨ha, hpa⟩ := hrd l hl a (by simp)
    obtain ⟨hb, hpb⟩ := hrd l hl b (by simp)
    exact Ctx.addrReads_sum hm ha hpa hb hpb
  obtain ⟨body, go, hword, hbody, -⟩ := loadWord_checked (sp := sp) (q := q) (d := d) he hreads
  rw [htodo, hks] at hbody
  have htrap := (spIssue_checked (s := s) (x := { x with smp := s.sampleOf x }) (sp := sp) (mode := q.mode) (disp := q.disp.toInt) (a := a)
    (b := b) (ks := x.tans) (ls := x.lanes) (z := fun _ => loadZ q.fmt) (ops := sumOps s x c a b) (val := fun _ _ => (0#64, false)) (go := go)
    (fun hr => absurd hr hm)).1 _ hf hm
  have hfz := addrFz_lanes (fun l hl hbit => ((hbits l hl).1 hbit).1) hne adr code
  have haddr : x.lanes.map (fun l => (l, spAddr x q.mode q.disp.toInt a (fun _ => loadZ q.fmt) (sumOps s x c a b) l))
      = x.lanes.map (fun l => (l, adr l)) := List.map_congr_left (fun l _ => by rw [spAddr_sum hm])
  refine ⟨_, hbits, hword.trans ?_⟩
  exact (word_trap h (hbody.trans htrap)).trans
    (congrArg (fun z => Host.Outcome.next (s.trapped x z)) ((congrArg (addrFz _) haddr).trans hfz))

end LoadFault

theorem scratchpadAddressFaults : scratchpadAddressFaultsRule := by
  intro s x c q d a b h he hm hrpm hstop hrd z adr faults
  have hall (i : Instr) (sp : Space) (hi : exec i s = loadWord sp c q d a b s) : faults i sp := by
    have hadr (l : Nat) : spAddr x q.mode q.disp.toInt a (fun _ => loadZ q.fmt) (sumOps s x c a b) l = adr l := spAddr_sum hm l
    have hwin (l : Nat) : winOk x sp x.tans (spAddr x q.mode q.disp.toInt a (fun _ => loadZ q.fmt) (sumOps s x c a b) l) = true
        ↔ ¬ (sp = .window ∧ ∃ k ∈ 0 :: x.tans, bitsAt (tanAddr x sp (adr l) k) 24 8 ≠ 0) := by
      rw [hadr]
      exact winOk_iff
    have hali (l : Nat) (hl : l ∈ x.lanes) : alignOk x sp x.tans x.lanes (fun _ => loadZ q.fmt) l
          (spAddr x q.mode q.disp.toInt a (fun _ => loadZ q.fmt) (sumOps s x c a b) l) = true
        ↔ ¬ ∃ k ∈ 0 :: x.tans, tanAddr x sp (adr l) k % z ≠ 0 := by
      rw [hadr]
      exact alignOk_iff hl
    have hrea (l : Nat) (hl : l ∈ x.lanes) : reachOk s x sp x.tans x.lanes (fun _ => loadZ q.fmt) (fun _ _ => (0#64, false)) l
          (spAddr x q.mode q.disp.toInt a (fun _ => loadZ q.fmt) (sumOps s x c a b) l) = true
        ↔ ¬ ∃ k ∈ 0 :: x.tans, s.placeTan x l sp (adr l) z k = none := by
      rw [hadr]
      exact reachOk_iff hl
    have hfault {code : Nat} {g : Nat → Prop} {f : Nat → Bool} (hfg : ∀ l ∈ x.lanes, f l = true ↔ ¬ g l) (hsome : ∃ l ∈ x.lanes, g l)
        (hf : maskOf (x.lanes.filter (fun l => !f l)) ≠ 0#32 →
          spFault s x sp q.mode q.disp.toInt a x.tans x.lanes (fun _ => loadZ q.fmt) (sumOps s x c a b) (fun _ _ => (0#64, false))
            = some (code, maskOf (x.lanes.filter (fun l => !f l)))) :
        ∃ m : W32, (∀ l < 32, (m.getLsbD l = true ↔ l ∈ x.lanes ∧ g l)) ∧ exec i s = .next (s.trapped x { Fz.of 0x02 code m with
          va := BitVec.ofNat 64 (adr (lowBit m)), per := (lanesOf m).map (fun l => (l, code, 0xF, BitVec.ofNat 64 (adr l))) }) := by
      have hneg : ∀ l ∈ x.lanes, (!f l) = true ↔ g l := fun l hl => by
        rw [Bool.not_eq_true', ← Bool.not_eq_true, hfg l hl, not_not]
      obtain ⟨l, hl, hg⟩ := hsome
      have hbad := (hneg l hl).2 hg
      obtain ⟨m, hbits, hrun⟩ := loadWord_faults (d := d) h he hm hrpm hstop hrd ⟨l, hl, hbad⟩ (hf (Ctx.maskOf_lanes_ne_zero hl hbad))
      exact ⟨m, fun l hl => (hbits l hl).trans (and_congr_right fun hl => hneg l hl), hi.trans hrun⟩
    refine ⟨fun hsome => ?_, fun hw hsome => ?_, fun hwa hsome => ?_⟩
    · exact hfault (fun l _ => hwin l) hsome addrFault_window
    · exact hfault hali hsome (addrFault_align (ali := alignOk x sp x.tans x.lanes (fun _ => loadZ q.fmt)) (fun l hl => (hwin l).2 (hw l hl)))
    · exact hfault hrea hsome (addrFault_reach (rea := reachOk s x sp x.tans x.lanes (fun _ => loadZ q.fmt) (fun _ _ => (0#64, false)))
        (fun l hl => ⟨(hwin l).2 (hwa l hl).1, (hali l hl).2 (hwa l hl).2⟩))
  exact ⟨hall _ _ rfl, hall _ _ rfl, hall _ _ rfl, hall _ _ rfl⟩

/-- Settles O13: the places of the spaces by what `reachEnd` covers, the words by the checks that each lane passes or fails. -/
theorem scratchpadWordsIssue : Obligations.ScratchpadWordsIssue :=
  ⟨scratchpadLoadsIssue, scratchpadStoresIssue, scratchpadSpaces, scratchpadAddressFaults⟩

end Sys2Proof.Machine
end

section
/-! SUPPORT. The lanes that a load reads together are closed under common bytes (R155; O14). -/
namespace Sys2Proof.Machine

/-- The accesses that a lane of an operation still makes. -/
def Pend.accs (p : Pend) (l : Nat) : List Acc := (p.lanes.find l).getD []

/-- A lane with an element that touches a byte of a lane of the group is of the group. -/
def Pend.closed (p : Pend) (g : List Nat) : Prop :=
  ∀ l ∈ AMap.keys p.lanes, (∃ k ∈ g, accsOverlap ((p.accs l).filter (fun a => a.z != 0)) (p.accs k) = true) → l ∈ g

/-- A group and the lanes that touch a byte of it. -/
def Pend.grown (p : Pend) (g : List Nat) : List Nat :=
  AMap.keys (p.lanes.filter (fun l => g.contains l.1 || accsOverlap (l.2.filter (fun a => a.z != 0))
    (p.lanes.flatMap (fun l => if g.contains l.1 then l.2 else []))))

theorem Pend.grow_succ (p : Pend) (n : Nat) (g : List Nat) :
    p.grow (n + 1) g = if (p.grown g).length = g.length then p.grown g else p.grow n (p.grown g) := rfl

theorem Pend.grown_sublist (p : Pend) (g : List Nat) : List.Sublist (p.grown g) (AMap.keys p.lanes) := List.Sublist.map _ List.filter_sublist

theorem Pend.mem_lanes_accs {p : Pend} {l : Nat} (hl : l ∈ AMap.keys p.lanes) : (l, p.accs l) ∈ p.lanes := by
  obtain ⟨as, has⟩ := Option.isSome_iff_exists.1 (AMap.find_of_mem_keys hl)
  rw [Pend.accs, has]
  exact AMap.mem_of_find has

theorem Pend.subset_grown {p : Pend} {g : List Nat} (h : g ⊆ AMap.keys p.lanes) : g ⊆ p.grown g := fun l hl =>
  List.mem_map.2 ⟨(l, p.accs l), List.mem_filter.2 ⟨Pend.mem_lanes_accs (h hl), by simp [hl]⟩, rfl⟩

theorem accsOverlap_mono {as bs cs : List Acc} (h : bs ⊆ cs) (ho : accsOverlap as bs = true) : accsOverlap as cs = true := by
  simp only [accsOverlap, List.any_eq_true] at ho ⊢
  obtain ⟨a, ha, b, hb, hab⟩ := ho
  exact ⟨a, ha, b, h hb, hab⟩

/-- A lane that touches a byte of a lane of a group is in the group grown. -/
theorem Pend.mem_grown {p : Pend} {g : List Nat} {l k : Nat} (hl : l ∈ AMap.keys p.lanes) (hk : k ∈ g) (hkey : k ∈ AMap.keys p.lanes)
    (h : accsOverlap ((p.accs l).filter (fun a => a.z != 0)) (p.accs k) = true) : l ∈ p.grown g := by
  refine List.mem_map.2 ⟨(l, p.accs l), List.mem_filter.2 ⟨Pend.mem_lanes_accs hl, ?_⟩, rfl⟩
  rw [Bool.or_eq_true]
  refine .inr (accsOverlap_mono (fun a ha => ?_) h)
  exact List.mem_flatMap.2 ⟨(k, p.accs k), Pend.mem_lanes_accs hkey, by simpa [hk] using ha⟩

/-- A group that grows no more is closed; one that grows takes lanes, of which there are as many as steps. -/
theorem Pend.grow_closed {p : Pend} (hn : (AMap.keys p.lanes).Nodup) (n : Nat) (g : List Nat) (hg : g.Nodup) (hsub : g ⊆ AMap.keys p.lanes)
    (hlen : (AMap.keys p.lanes).length < n + g.length) : p.closed (p.grow n g) := by
  induction n generalizing g with
  | zero => exact absurd (hg.subperm hsub).length_le (by omega)
  | succ n ih =>
    have hgrown := p.grown_sublist g
    have hle := hg.subperm (Pend.subset_grown hsub)
    rw [Pend.grow_succ]
    split
    · rename_i hsame
      have hperm := hle.perm_of_length_le (by omega)
      rintro l hl ⟨k, hk, hover⟩
      have hkg : k ∈ g := hperm.mem_iff.2 hk
      exact Pend.mem_grown hl hkg (hsub hkg) hover
    · rename_i hmore
      have := hle.length_le
      exact ih _ (hgrown.nodup hn) hgrown.subset (by omega)

theorem Pend.sameElement_closed {p : Pend} (hn : (AMap.keys p.lanes).Nodup) {lane : Nat} (hl : lane ∈ AMap.keys p.lanes) :
    p.closed (p.sameElement lane) :=
  Pend.grow_closed hn _ _ (List.nodup_singleton lane) (by simpa using hl) (by simp [AMap.keys])

end Sys2Proof.Machine
end

section
/-! SUPPORT. Demotions (R158, R240): where the path that has issued an operation stands behind `Cohort.demand` (O14). -/
namespace Sys2Proof.Machine

/-! ## The paths marked, and the slots that a mark frees -/

/-- The path that has issued an operation marked for its demotion. -/
def Path.markFor (p : Path) (id : Nat) : Path := if p.ops.contains id then { p with dem := true } else p

/-- The paths of a cohort marked; entries of the spill stack that are marked go to its end (R240). -/
def Cohort.marked (c : Cohort) (id : Nat) : Cohort :=
  let c1 := c.mapPaths (fun p => p.markFor id)
  { c1 with
    spill := c1.spill.filter (fun e => !e.path.dem)
      ++ (c1.spill.filter (fun e => e.path.dem)).map (fun e => { e with path := { e.path with dem := false } }) }

/-- A slot whose path stands marked at its boundary goes to the newest entry of the spill stack. -/
def Cohort.demoteDue (k : Cohort) (i : Bool) : Cohort :=
  if (k.path i).any (fun p => p.dem && p.atBoundary) && !k.spill.isEmpty then k.demote i else k

theorem Cohort.demand_eq (c : Cohort) (id : Nat) : c.demand id = ((c.marked id).demoteDue false).demoteDue true := rfl

theorem Cohort.path_marked (c : Cohort) (id : Nat) (i : Bool) : (c.marked id).path i = (c.path i).map (fun p => p.markFor id) := by
  cases i <;> rfl

theorem Cohort.spill_marked_eq_nil {c : Cohort} {id : Nat} : (c.marked id).spill = [] ↔ c.spill = [] := by
  simp only [Cohort.marked, Cohort.mapPaths, List.append_eq_nil_iff, List.map_eq_nil_iff, List.filter_eq_nil_iff, List.forall_mem_map]
  constructor
  · rintro ⟨h1, h2⟩
    refine List.eq_nil_iff_forall_not_mem.2 (fun e he => ?_)
    have := h1 e he
    have := h2 e he
    simp_all
  · rintro h
    simp [h]

theorem Cohort.path_demoteDue_ne {k : Cohort} {i j : Bool} (h : j ≠ i) : (k.demoteDue i).path j = k.path j := by
  unfold Cohort.demoteDue
  split
  · exact Cohort.path_demote_ne h
  · rfl

theorem Cohort.demoteDue_none {k : Cohort} {i : Bool} (h : k.spill = [] ∨ (k.path i).any (fun p => p.dem && p.atBoundary) = false) :
    k.demoteDue i = k := by
  unfold Cohort.demoteDue
  rcases h with h | h <;> simp [h]

/-- The path that gives up its slot is the oldest entry of the spill stack. -/
theorem Cohort.spill_demoteDue {k : Cohort} {i : Bool} {p : Path} (hp : k.path i = some p) (hdem : p.dem = true) (hat : p.atBoundary = true)
    (hne : k.spill ≠ []) : (k.demoteDue i).spill.getLast? = some ⟨{ p with dem := false }, 0#2⟩ := by
  obtain ⟨e, es, hes⟩ := List.exists_cons_of_ne_nil hne
  unfold Cohort.demoteDue
  rw [if_pos (by simp [hp, hdem, hat, hne]), Cohort.demote]
  simp only [hp, hes, List.getLast?_append, List.getLast?_singleton]
  rfl

/-! ## What a demotion leaves -/

/-- The path of a cohort that has issued an operation is demoted (R240): in a slot, where it does not stand at its boundary or no entry waits;
else at the end of the spill stack. -/
def Cohort.demoted (c d : Cohort) (id : Nat) : Prop :=
  ∀ i o, c.path i = some o → o.ops.contains id = true →
    (o.atBoundary = false ∨ c.spill = [] → (d.path i).map (·.dem) = some true)
    ∧ (o.atBoundary = true → c.spill ≠ [] → (∀ k, c.path (!i) = some k → k.dem = false ∧ k.ops.contains id = false) →
      ∃ e, d.spill.getLast? = some e ∧ e.path.pc = o.pc ∧ e.path.mask = o.mask ∧ e.path.dem = false)

/-- The other slot is not due where its path is neither marked nor has issued the operation. -/
theorem Cohort.demoteDue_other {c : Cohort} {id : Nat} {i : Bool} (h : ∀ k, c.path i = some k → k.dem = false ∧ k.ops.contains id = false)
    {k : Cohort} (hk : k.path i = (c.marked id).path i) : k.demoteDue i = k := by
  refine Cohort.demoteDue_none (.inr ?_)
  rw [hk, Cohort.path_marked]
  cases hp : c.path i with
  | none => rfl
  | some q =>
    obtain ⟨hdem, hops⟩ := h q hp
    simp only [Option.map_some, Option.any_some, Path.markFor, hops, Bool.false_eq_true, if_false, hdem, Bool.false_and]

theorem Cohort.demoted_demand (c : Cohort) (id : Nat) : c.demoted (c.demand id) id := by
  intro i o ho hops
  have hmark : (c.marked id).path i = some { o with dem := true } := by
    rw [Cohort.path_marked, ho, Option.map_some, Path.markFor, if_pos hops]
  rw [Cohort.demand_eq]
  refine ⟨fun hstay => ?_, fun hat hne hother => ?_⟩
  · have hslot {k : Cohort} (hk : k.path i = some { o with dem := true }) (hsp : o.atBoundary = false ∨ k.spill = []) :
        (k.demoteDue i) = k := Cohort.demoteDue_none (hsp.symm.imp_right (fun h => by
          rw [hk]
          have : ({ o with dem := true } : Path).atBoundary = false := h
          simp [this]))
    cases i with
    | false =>
      rw [hslot hmark (hstay.imp_right Cohort.spill_marked_eq_nil.2), Cohort.path_demoteDue_ne (by simp), hmark]
      rfl
    | true =>
      have hkeep : ((c.marked id).demoteDue false).path true = some { o with dem := true } :=
        (Cohort.path_demoteDue_ne (by simp)).trans hmark
      rw [hslot hkeep (hstay.imp_right (fun h => ?_)), hkeep]
      · rfl
      · have hnil := Cohort.spill_marked_eq_nil (id := id).2 h
        rw [Cohort.demoteDue_none (.inl hnil), hnil]
  · have hsp : (c.marked id).spill ≠ [] := fun h => hne (Cohort.spill_marked_eq_nil.1 h)
    have hlast := Cohort.spill_demoteDue hmark rfl hat hsp
    refine ⟨⟨{ o with dem := false }, 0#2⟩, ?_, rfl, rfl, rfl⟩
    cases i with
    | false =>
      rw [Cohort.demoteDue_other (i := true) hother (Cohort.path_demoteDue_ne (by simp))]
      exact hlast
    | true =>
      rw [Cohort.demoteDue_other (i := false) hother rfl]
      exact hlast

/-- An operation that is gone from the paths (R55). -/
def Cohort.dropOp (c : Cohort) (id : Nat) : Cohort := c.mapPaths (fun q => { q with ops := q.ops.filter (fun i => i != id) })

theorem Cohort.demoted_dropOp {c d : Cohort} {id : Nat} (h : c.demoted d id) (x : Nat) : c.demoted (d.dropOp x) id := by
  intro i o ho hops
  obtain ⟨hslot, hspill⟩ := h i o ho hops
  refine ⟨fun hstay => ?_, fun hat hne hother => ?_⟩
  · have hdem := hslot hstay
    have hpath : (d.dropOp x).path i = (d.path i).map (fun q => { q with ops := q.ops.filter (fun i => i != x) }) := by cases i <;> rfl
    rw [hpath, Option.map_map]
    exact hdem
  · obtain ⟨e, he, hpc, hmask, hdem⟩ := hspill hat hne hother
    refine ⟨{ e with path := { e.path with ops := e.path.ops.filter (fun i => i != x) } }, ?_, hpc, hmask, hdem⟩
    simp [Cohort.dropOp, Cohort.mapPaths, List.getLast?_map, he]

/-! ## The places that a demotion moves -/

/-- Cohorts that differ in the paths' places, the fairness timer and the count of polls at most. -/
def Cohort.restacked (k k' : Cohort) : Prop := ∃ a b sp f n, k' = { k with pa := a, pb := b, spill := sp, fair := f, polls := n }

theorem Cohort.restacked_refl (k : Cohort) : k.restacked k := ⟨k.pa, k.pb, k.spill, k.fair, k.polls, rfl⟩

theorem Cohort.restacked.trans {k k' k'' : Cohort} (h : k.restacked k') (h' : k'.restacked k'') : k.restacked k'' := by
  obtain ⟨a, b, sp, f, n, rfl⟩ := h
  obtain ⟨a', b', sp', f', n', rfl⟩ := h'
  exact ⟨a', b', sp', f', n', rfl⟩

theorem Cohort.restacked_mapPaths (k : Cohort) (f : Path → Path) : k.restacked (k.mapPaths f) := ⟨_, _, _, k.fair, k.polls, rfl⟩

theorem Cohort.restacked_demoteDue (k : Cohort) (i : Bool) : k.restacked (k.demoteDue i) := by
  unfold Cohort.demoteDue
  split
  · rename_i hdue
    obtain ⟨e, es, hes⟩ : ∃ e es, k.spill = e :: es := List.exists_cons_of_ne_nil (by simp_all)
    unfold Cohort.demote
    split
    · exact k.restacked_refl
    · rw [hes]
      cases i
      · exact ⟨_, _, _, _, k.polls, rfl⟩
      · exact ⟨_, _, _, _, k.polls, rfl⟩
  · exact k.restacked_refl

theorem Cohort.restacked_demand (k : Cohort) (id : Nat) : k.restacked (k.demand id) := by
  have hmark : k.restacked (k.marked id) := ⟨_, _, _, k.fair, k.polls, rfl⟩
  exact (hmark.trans (Cohort.restacked_demoteDue _ false)).trans (Cohort.restacked_demoteDue _ true)

theorem Cohort.restacked_polled (k : Cohort) (id : Nat) (same : Bool) : k.restacked (k.polled id same) := by
  unfold Cohort.polled
  split
  · exact (k.restacked_demand id).trans ⟨_, _, _, _, _, rfl⟩
  · exact ⟨_, _, _, _, _, rfl⟩

theorem Cohort.polls_polled (k : Cohort) (id : Nat) (same : Bool) : (k.polled id same).polls = if same then k.polls + 1 else 0 := by
  cases same <;> rfl

theorem cohSame_of_restacked {k k' : Cohort} (h : k.restacked k') (r : CohRef) {z : Place} (hz : ¬ demotePlaces r z) : cohSame r k k' z := by
  obtain ⟨a, b, sp, f, n, rfl⟩ := h
  cases z with
  | slot q i => exact fun hq => absurd (.inl ⟨i, by rw [hq]⟩) hz
  | spill q => exact fun hq => absurd (.inr (.inl (by rw [hq]))) hz
  | cnt q => exact fun hq => absurd (.inr (.inr (by rw [hq]))) hz
  | _ => simp [cohSame, Cohort.sreg, Cohort.kreg, Cohort.ctr, Cohort.thread, Cohort.bare]

theorem State.movesOnly_restack (s : State) (r : CohRef) {f : Cohort → Cohort} (h : ∀ k, Cohort.restacked k (f k)) :
    s.movesOnly (s.updCoh r f) (demotePlaces r) :=
  State.movesOnly_updCoh (fun c _ _ hz => cohSame_of_restacked (h c) r hz)

end Sys2Proof.Machine
end

section
/-! SUPPORT. The lanes of scratchpad loads land (R154, R155, R158; O14). -/
namespace Sys2Proof.Machine

/-! ## The end of an operation that may demote its path -/

/-- The paths of an operation's cohort note it no more, when its result may have demoted one (R55). -/
def State.dropOps (s : State) (p : Pend) : State := if p.kind.demotes then s.updCoh p.ref (fun c => c.dropOp p.id) else s

/-- What the end of an operation moves beside it and its counter: under a kind that may demote, where paths stand. -/
def demoteEnds (p : Pend) (w : Place) : Prop := p.kind.demotes = true ∧ demotePlaces p.ref w

theorem State.movesOnly_dropOps (s : State) (p : Pend) : s.movesOnly (s.dropOps p) (demoteEnds p) := by
  unfold State.dropOps
  split
  · rename_i hd
    exact (s.movesOnly_restack p.ref (fun k => k.restacked_mapPaths _)).mono (fun _ hz => ⟨hd, hz⟩)
  · exact s.movesOnly_refl _

theorem State.pend_dropOps (s : State) (p : Pend) : (s.dropOps p).pend = s.pend := by
  unfold State.dropOps
  split <;> simp

theorem State.pend_discharge (s : State) (p : Pend) : (s.discharge p).pend = s.pend := by
  unfold State.discharge
  split <;> simp

/-- An operation that is not sampled ends (R55): it is gone, also from the paths, and its counter is one less. -/
theorem State.finishPend_drops {s : State} {p : Pend} {l : Nat} (hsmp : p.smp = none) (h : (s.thr p.ref l).isSome) (x : Option Nat) :
    s.finishPend p x = ((s.delPend p.id).dropOps p).discharge p := by
  have hthr : ((((s.delPend p.id).dropOps p).discharge p).thr p.ref l).isSome := by
    rw [(((s.delPend p.id).dropOps p).movesOnly_discharge p).thr not_landPlaces_ident,
      ((s.delPend p.id).movesOnly_dropOps p).thr (by simp [demoteEnds, demotePlaces])]
    exact h
  have hreap := State.reap_of_thr hthr
  unfold State.finishPend
  simp only [hsmp]
  exact hreap

/-- One more lane is done (R55, R58), whatever the operation's result may demote. -/
theorem State.laneOff_ends {s u : State} {p : Pend} {done : List Nat} {l j : Nat} (h : opBehind s u p done)
    (hl : (p.behind done).lanes ≠ []) (hsmp : p.smp = none) (hthr : (u.thr p.ref j).isSome) :
    opBehind s (u.laneOff p.id l) p (done ++ [l]) ∧ u.movesOnly (u.laneOff p.id l) (fun w => landPlaces p [] w ∨ demoteEnds p w) := by
  have hop := pendOf_of_opBehind h hl
  have hctr : ∀ k, p.slot = some k → u.ctrAt p.ref k.toNat = s.ctrAt p.ref k.toNat := by
    unfold opBehind at h
    rw [if_neg (fun hend => hl hend.2.1)] at h
    exact h.2
  have hpend : landPlaces p [] .pend := .inl rfl
  have hoff : u.laneOff p.id l = if (p.behind (done ++ [l])).lanes.isEmpty && !p.more then
      u.finishPend (p.behind (done ++ [l])) (if p.kind.writesReg then some l else none) else u.setPend (p.behind (done ++ [l])) := by
    unfold State.laneOff
    rw [hop, Pend.behind_append]
    rfl
  by_cases hend : (p.behind (done ++ [l])).lanes = [] ∧ p.more = false
  · have hfin : u.laneOff p.id l = ((u.delPend p.id).dropOps (p.behind (done ++ [l]))).discharge (p.behind (done ++ [l])) := by
      rw [hoff, if_pos (by simp [hend.1, hend.2])]
      exact State.finishPend_drops (p := p.behind (done ++ [l])) hsmp hthr _
    have hdrop := (u.delPend p.id).movesOnly_dropOps (p.behind (done ++ [l]))
    have hdis := ((u.delPend p.id).dropOps (p.behind (done ++ [l]))).movesOnly_discharge (p.behind (done ++ [l]))
    rw [hfin]
    refine ⟨?_, ((u.movesOnly_delPend p.id hpend).mono fun _ => .inl).trans ((hdrop.mono fun _ => .inr).trans (hdis.mono fun _ => .inl))⟩
    unfold opBehind
    rw [if_pos ⟨by simp, hend⟩]
    refine ⟨?_, fun k hk => ?_⟩
    · rw [State.pendOf, State.pend_discharge, State.pend_dropOps]
      exact u.pendOf_delPend p.id
    · have hthr' : (((u.delPend p.id).dropOps (p.behind (done ++ [l]))).thr p.ref j).isSome := by
        rw [hdrop.thr (by simp [demoteEnds, demotePlaces])]
        exact hthr
      have hless := State.ctrAt_discharge (p := p.behind (done ++ [l])) (l := j) hthr' hk
      have hkeep := hdrop.keeps (.ctr p.ref k.toNat) (by simp [demoteEnds, demotePlaces])
      exact hless.trans (congrArg ctrLess (hkeep.trans (hctr k hk)))
  · have hset : u.laneOff p.id l = u.setPend (p.behind (done ++ [l])) := by
      rw [hoff, if_neg (by simpa using hend)]
    rw [hset]
    refine ⟨?_, u.movesOnly_setPend _ (.inl hpend)⟩
    unfold opBehind
    rw [if_neg (fun hall => hend hall.2)]
    exact ⟨State.pendOf_setPend (p := p.behind (done ++ [l])) hop, hctr⟩

/-! ## A lane of a load -/

/-- A load with the old values of a poll that are still unchanged (R158). -/
def Pend.loading (p : Pend) (q : LQual) (old : AMap W64) : Pend := { p with kind := .load q old }

/-- The value that a lane of a load reads. -/
def readVal (s : State) (p : Pend) (as : List Acc) : W64 := ((accPrimal (as.map (readAcc s)) p.tag).map (·.1)).getD 0#64

/-- The old values of a poll behind a lane that reads `v`: a lane that reads its old value is struck out. -/
def pollLeft (old : AMap W64) (lane : Nat) (v : W64) : AMap W64 := if old.find lane = some v then old.del lane else old

/-- The machine behind a lane's registers, and the old values of the poll. -/
def State.loadRead (s : State) (p : Pend) (lane : Nat) (as : List Acc) : State :=
  s.landReg p lane (p.tag == .f64) (accPrimal (as.map (readAcc s)) p.tag) (accTans (as.map (readAcc s)))

/-- The last lane of a poll compares (R158). -/
def State.pollEnds (s : State) (p : Pend) (q : LQual) (old : AMap W64) : State :=
  if q = .poll ∧ p.lanes.length = 1 then s.updCoh p.ref (fun c => c.polled p.id old.isEmpty) else s

theorem State.loadLane_calm {u : State} (h : u.calm) {p : Pend} {q : LQual} {old : AMap W64} (hp : u.pendOf p.id = some (p.loading q old))
    {lane : Nat} {as : List Acc} (hl : p.lanes.find lane = some as) :
    u.loadLane p.id lane = (((u.loadRead p lane as).setPend (p.loading q (pollLeft old lane (readVal u p as)))).pollEnds p q
      (pollLeft old lane (readVal u p as))).laneOff p.id lane := by
  have hl' : (p.loading q old).lanes.find lane = some as := hl
  unfold State.loadLane
  simp only [hp, hl', State.readLane_calm h]
  rfl

theorem State.movesOnly_pollEnds (s : State) (p : Pend) (q : LQual) (old : AMap W64) :
    s.movesOnly (s.pollEnds p q old) (fun w => q = .poll ∧ demotePlaces p.ref w) := by
  unfold State.pollEnds
  split
  · rename_i hq
    exact (s.movesOnly_restack p.ref (fun k => k.restacked_polled _ _)).mono (fun _ hw => ⟨hq.1, hw⟩)
  · exact s.movesOnly_refl _

/-- The places that the lanes of a load move. -/
def loadPlaces (p : Pend) (q : LQual) (ls : List Nat) (w : Place) : Prop := landPlaces p ls w ∨ (q = .poll ∧ demotePlaces p.ref w)

theorem demoteEnds_loading {p : Pend} {q : LQual} {old : AMap W64} {w : Place} (h : demoteEnds (p.loading q old) w) :
    q = .poll ∧ demotePlaces p.ref w := by
  obtain ⟨hd, hw⟩ := h
  cases q with
  | poll => exact ⟨rfl, hw⟩
  | _ => cases hd

/-- The kind of an operation in flight changed: it stands behind the same lanes. -/
theorem opBehind.loading {s u : State} {p : Pend} {q : LQual} {old : AMap W64} {done : List Nat} (h : opBehind s u (p.loading q old) done)
    (hl : (p.behind done).lanes ≠ []) (old' : AMap W64) :
    opBehind s (u.setPend ((p.behind done).loading q old')) (p.loading q old') done := by
  have hop : u.pendOf p.id = some ((p.loading q old).behind done) := pendOf_of_opBehind h hl
  unfold opBehind at h ⊢
  rw [if_neg (fun hend => hl hend.2.1)] at h ⊢
  exact ⟨State.pendOf_setPend (p := (p.behind done).loading q old') hop, h.2⟩

/-- A lane of a load lands: its registers hold what it read, and one more lane is done. -/
theorem State.loadLane_lands {s u : State} {p : Pend} {q : LQual} {old : AMap W64} {done : List Nat} {l : Nat} {as : List Acc} (hu : u.calm)
    (hop : opBehind s u (p.loading q old) done) (hnew : l ∉ done) (hl : p.lanes.find l = some as) (hn : (as.map (·.k)).Nodup)
    (hthr : (u.thr p.ref l).isSome) (hsmp : p.smp = none) (hread : readAcc u = readAcc s) :
    (∃ old', opBehind s (u.loadLane p.id l) (p.loading q old') (done ++ [l]))
    ∧ u.movesOnly (u.loadLane p.id l) (loadPlaces p q [l]) ∧ landed s (u.loadLane p.id l) p l as := by
  have hfind := (p.find_behind hnew).trans hl
  have hleft : (p.behind done).lanes ≠ [] := fun he => by
    rw [he] at hfind
    cases hfind
  have hrun := State.loadLane_calm hu (p := p.behind done) (pendOf_of_opBehind hop hleft) hfind
  set old' := pollLeft old l (readVal u (p.behind done) as) with hold
  set v := u.loadRead (p.behind done) l as with hv
  set w := v.setPend ((p.behind done).loading q old') with hw
  set x := w.pollEnds (p.behind done) q old' with hx
  have hreg : u.movesOnly v (landRegs p [l]) := State.movesOnly_landReg hu (p.behind done) (List.mem_singleton_self l) _ _
  have hset : v.movesOnly w (fun z => z = .pend) := v.movesOnly_setPend _ rfl
  have hpoll : w.movesOnly x (fun z => q = .poll ∧ demotePlaces p.ref z) := w.movesOnly_pollEnds (p.behind done) q old'
  have hstands : opBehind s x (p.loading q old') done :=
    ((hop.move hreg (by simp [landRegs]) (by simp [landRegs])).loading hleft old').move hpoll (by simp [demotePlaces]) (by simp [demotePlaces])
  have hthrx : (x.thr p.ref l).isSome := by
    rw [hpoll.thr (by simp [demotePlaces]), hset.thr (by simp), hreg.thr (by simp [landRegs])]
    exact hthr
  obtain ⟨hnext, hoff⟩ := State.laneOff_ends (l := l) hstands hleft hsmp hthrx
  have hend : x.movesOnly (x.laneOff p.id l) (fun z => landPlaces p [] z ∨ (q = .poll ∧ demotePlaces p.ref z)) :=
    hoff.mono (fun _ hz => hz.imp_right demoteEnds_loading)
  have hland : landed s v p l as := by
    rw [hv, State.loadRead, hread]
    exact State.landed_landReg (p := p.behind done) hu hthr hn
  rw [show u.loadLane p.id l = x.laneOff p.id l from hrun]
  refine ⟨⟨old', hnext⟩, ?_, ?_⟩
  · refine (hreg.mono fun _ hz => .inl (landPlaces_iff.2 (.inr hz))).trans ((hset.mono fun _ hz => .inl (.inl hz)).trans
      ((hpoll.mono fun _ => .inr).trans (hend.mono ?_)))
    exact fun _ hz => hz.imp_left (fun hz => landPlaces_iff.2 (.inl hz))
  · exact landed_of_movesOnly (landed_of_movesOnly (landed_of_movesOnly hland hset (by simp)) hpoll (by simp [demotePlaces])) hend
      (by simp [landPlaces, demotePlaces])

/-! ## The lanes of a group -/

/-- The lanes of a load that land together, one after another. -/
theorem State.loadLanes_land {s : State} {id lane : Nat} {p : Pend} {as : List Acc} {h : Thread} (hm : mayLand s id lane p as h)
    {q : LQual} {old : AMap W64} (hk : p.kind = .load q old) {ls : List Nat} (hsub : List.Sublist ls (AMap.keys p.lanes)) (hne : ls ≠ [])
    (hlanes : ∀ l ∈ ls, (s.thr p.ref l).isSome ∧ ((p.accs l).map (·.k)).Nodup) :
    let t := ls.foldl (fun s l => s.loadLane id l) s
    (∀ l ∈ ls, landed s t p l (p.accs l)) ∧ lanesLeft s t p ls ∧ s.movesOnly t (loadPlaces p q ls) := by
  have hcalm := calm_of_mayLand hm
  obtain ⟨hop, -, -, -, -, hsmp, hnodup, -⟩ := hm
  obtain rfl := State.id_of_pendOf hop
  have hself : p.loading q old = p := by rw [Pend.loading, ← hk]
  have hstart : opBehind s s (p.loading q old) [] := by
    rw [hself]
    exact opBehind_nil hop
  have hls := hsub.nodup hnodup
  obtain ⟨⟨old', hstands⟩, hmoves, hlanded⟩ := foldl_along (f := fun s l => s.loadLane p.id l) (ls := ls) (s := s)
    (P := fun done u => (∃ old', opBehind s u (p.loading q old') done) ∧ s.movesOnly u (loadPlaces p q ls)
      ∧ ∀ l ∈ done, landed s u p l (p.accs l)) ⟨⟨old, hstart⟩, s.movesOnly_refl _, by simp⟩ (by
    rintro done l rest u he ⟨⟨old', hstands⟩, hmoves, hlanded⟩
    have hl : l ∈ ls := by simp [he]
    have hnew : l ∉ done := fun hin => by
      rw [he] at hls
      exact (List.nodup_append.1 hls).2.2 l hin l (List.mem_cons_self ..) rfl
    obtain ⟨accs, hfind⟩ := Option.isSome_iff_exists.1 (AMap.find_of_mem_keys (hsub.subset hl))
    have haccs : p.accs l = accs := by rw [Pend.accs, hfind]; rfl
    obtain ⟨hthr, hkeys⟩ := hlanes l hl
    rw [haccs] at hkeys
    have hthr' : (u.thr p.ref l).isSome := (hmoves.thr (by simp [loadPlaces, landPlaces, demotePlaces])).trans hthr
    have hread : readAcc u = readAcc s := readAcc_of_movesOnly hmoves (by simp [loadPlaces, landPlaces, demotePlaces])
      (by simp [loadPlaces, landPlaces, demotePlaces])
    obtain ⟨hnext, hstep, hland⟩ := State.loadLane_lands (hmoves.calm hcalm) hstands hnew hfind hkeys hthr' hsmp hread
    refine ⟨hnext, hmoves.trans (hstep.mono (fun z hz => hz.imp_left (fun hz => ?_))), fun k hk => ?_⟩
    · exact landPlaces_iff.2 ((landPlaces_iff.1 hz).imp_right (landRegs_mono (by simpa using hl)))
    · rcases List.mem_append.1 hk with hk | hk
      · have hkl : k ≠ l := fun he => hnew (he ▸ hk)
        exact landed_of_movesOnly (hlanded k hk) hstep (by simp [loadPlaces, landPlaces, demotePlaces, hkl])
      · obtain rfl := List.mem_singleton.1 hk
        rw [haccs]
        exact hland)
  exact ⟨hlanded, lanesLeft_of_opBehind (p := p.loading q old') hne hstands, hmoves⟩

end Sys2Proof.Machine
end

section
/-! SUPPORT. Polls (R158, R240), and the event of a load (O14). -/
namespace Sys2Proof.Machine

/-! ## What a poll compares -/

/-- What is left of the old values: those that no lane has read unchanged. -/
theorem pollLeft_eq {old : AMap W64} (hn : (AMap.keys old).Nodup) (lane : Nat) (v : W64) :
    pollLeft old lane v = old.filter (fun e => !(e.1 == lane && e.2 == v)) := by
  unfold pollLeft
  split
  · rename_i hfind
    refine List.filter_congr (fun e he => ?_)
    have hval := AMap.find_of_mem hn he
    by_cases hlane : e.1 = lane
    · rw [hlane, hfind] at hval
      simp [hlane, Option.some.inj hval]
    · have hne : (e.1 == lane) = false := by simpa using hlane
      simp [bne, hne]
  · rename_i hfind
    refine (List.filter_eq_self.2 (fun e he => ?_)).symm
    have hval := AMap.find_of_mem hn he
    by_contra hno
    simp only [Bool.not_eq_true', Bool.not_eq_false, Bool.and_eq_true, beq_iff_eq] at hno
    rw [hno.1, hno.2] at hval
    exact hfind hval

/-! ## The cohort behind the last lane of a poll -/

theorem State.coh_loadRead {s : State} (h : s.calm) {p : Pend} {c : Cohort} (hc : s.coh p.ref = some c) (lane : Nat) (as : List Acc) :
    ∃ m, (s.loadRead p lane as).coh p.ref = some { c with lanes := m } := by
  rw [State.loadRead, State.landReg_calm h]
  split
  · rw [State.coh_updCoh, if_pos rfl, hc]
    unfold Cohort.updThread
    rw [Option.map_some]
    split
    · exact ⟨_, rfl⟩
    · exact ⟨c.lanes, rfl⟩
  · exact ⟨c.lanes, hc⟩

/-- A lane done leaves of its cohort all but a counter, and with the last lane the notes of the operation (R55). -/
theorem State.coh_laneOff {u : State} {p : Pend} {l j : Nat} {k : Cohort} (hop : u.pendOf p.id = some p) (hsmp : p.smp = none)
    (hthr : (u.thr p.ref j).isSome) (hk : u.coh p.ref = some k) :
    ∃ d, (u.laneOff p.id l).coh p.ref = some { k with d := d } ∨ (u.laneOff p.id l).coh p.ref = some { k.dropOp p.id with d := d } := by
  set p' : Pend := { p with lanes := p.lanes.del l, done := p.done ||| (1#32 <<< l) } with hp'
  have hoff : u.laneOff p.id l = if p'.lanes.isEmpty && !p'.more then
      u.finishPend p' (if p.kind.writesReg then some l else none) else u.setPend p' := by
    unfold State.laneOff
    rw [hop]
  have hdrop : ((u.delPend p.id).dropOps p').coh p.ref = some k ∨ ((u.delPend p.id).dropOps p').coh p.ref = some (k.dropOp p.id) := by
    unfold State.dropOps
    split
    · exact .inr ((State.coh_updCoh _ p'.ref p.ref _).trans ((if_pos rfl).trans (congrArg (Option.map _) hk)))
    · exact .inl hk
  have hdis {v : State} {c : Cohort} (hc : v.coh p.ref = some c) : ∃ d, (v.discharge p').coh p.ref = some { c with d := d } := by
    unfold State.discharge
    split
    · exact ⟨_, (State.coh_updCoh _ p'.ref p.ref _).trans ((if_pos rfl).trans (congrArg (Option.map _) hc))⟩
    · exact ⟨c.d, hc⟩
  rw [hoff]
  split
  · rw [State.finishPend_drops (p := p') hsmp hthr]
    rcases hdrop with hdrop | hdrop
    · obtain ⟨d, hd⟩ := hdis hdrop
      exact ⟨d, .inl hd⟩
    · obtain ⟨d, hd⟩ := hdis hdrop
      exact ⟨d, .inr hd⟩
  · exact ⟨k.d, .inl hk⟩

theorem isDemoted_of_demoted {s t : State} {r : CohRef} {id : Nat} {c d : Cohort} (hc : s.coh r = some c) (hd : t.coh r = some d)
    (h : c.demoted d id) : isDemoted s t r id := by
  intro c' i o hc' ho hops
  obtain rfl : c = c' := Option.some.inj (hc.symm.trans hc')
  obtain ⟨hslot, hspill⟩ := h i o ho hops
  rw [State.slot, hd]
  exact ⟨hslot, fun hat hne hother => ⟨d, rfl, hspill hat hne hother⟩⟩

/-- The last lane of a poll counts an unchanged poll and demotes its path, or starts the count again (R158, R240, R302). -/
theorem State.pollLane_ends {s : State} {id lane : Nat} {p : Pend} {as : List Acc} {h : Thread} (hm : mayLand s id lane p as h)
    {old : AMap W64} (hk : p.kind = .load .poll old) (hlast : p.lanes = [(lane, as)]) :
    let same := (pollLeft old lane (readVal s p as)).isEmpty
    ((s.loadLane id lane).coh p.ref).map (·.polls) = (s.coh p.ref).map (fun c => if same then c.polls + 1 else 0)
    ∧ (same = true → isDemoted s (s.loadLane id lane) p.ref id) := by
  intro same
  have hcalm := calm_of_mayLand hm
  obtain ⟨hop, hland, hthr, -, -, hsmp, -⟩ := hm
  obtain rfl := State.id_of_pendOf hop
  have hself : p.loading .poll old = p := by rw [Pend.loading, ← hk]
  have hrun := State.loadLane_calm hcalm (hself.symm ▸ hop) (State.find_of_landable hland)
  set old' := pollLeft old lane (readVal s p as)
  set v := s.loadRead p lane as with hv
  set p' := p.loading .poll old'
  have hthrs : (s.thr p.ref lane).isSome := by rw [hthr]; rfl
  obtain ⟨-, c, -, -, -, hc, -⟩ := State.coh_of_thr hthrs
  obtain ⟨m, hm⟩ := State.coh_loadRead hcalm hc lane as
  have hreg : s.movesOnly v (landRegs p [lane]) := State.movesOnly_landReg hcalm p (List.mem_singleton_self lane) _ _
  have hset := v.movesOnly_setPend p' (w := fun z => z = .pend) rfl
  have hpoll := (v.setPend p').movesOnly_pollEnds p .poll old'
  have hlen : p.lanes.length = 1 := by simp [hlast]
  have hcoh : ((v.setPend p').pollEnds p .poll old').coh p.ref = some (({ c with lanes := m } : Cohort).polled p.id same) := by
    rw [State.pollEnds, if_pos ⟨rfl, hlen⟩, State.coh_updCoh, if_pos rfl]
    exact congrArg (Option.map _) hm
  have hpend : ((v.setPend p').pollEnds p .poll old').pendOf p'.id = some p' := by
    rw [hpoll.pendOf (by simp [demotePlaces])]
    exact State.pendOf_setPend (p := p') ((hreg.pendOf (by simp [landRegs]) p.id).trans hop)
  have hthr' : (((v.setPend p').pollEnds p .poll old').thr p'.ref lane).isSome :=
    (hpoll.thr (by simp [demotePlaces])).trans ((hset.thr (by simp)).trans ((hreg.thr (by simp [landRegs])).trans hthrs))
  obtain ⟨d, hend⟩ := State.coh_laneOff (l := lane) hpend hsmp hthr' hcoh
  have hpolls := Cohort.polls_polled { c with lanes := m } p.id same
  rw [hrun, hc]
  refine ⟨?_, fun hsame => ?_⟩
  · rcases hend with hend | hend
    · exact (congrArg (Option.map _) hend).trans (congrArg some hpolls)
    · exact (congrArg (Option.map _) hend).trans (congrArg some hpolls)
  · have hdem : c.demoted (({ c with lanes := m } : Cohort).polled p.id same) p.id := by
      rw [Cohort.polled, if_pos hsame]
      exact Cohort.demoted_demand { c with lanes := m } p.id
    rcases hend with hend | hend
    · exact isDemoted_of_demoted hc hend hdem
    · exact isDemoted_of_demoted hc hend (Cohort.demoted_dropOp hdem p.id)

/-! ## SCRATCHPAD_LOAD_LANDS -/

theorem exec_scratchpadLoadLands {s : State} {id lane : Nat} {p : Pend} {as : List Acc} {h : Thread} (hm : mayLand s id lane p as h)
    {q : LQual} {old : AMap W64} (hk : p.kind = .load q old) (hq : q = .none ∨ q = .poll) (hg : s.groupOk p (p.sameElement lane) = true) :
    exec (.scratchpadLoadLands id lane) s = .next ((p.sameElement lane).foldl (fun s l => s.loadLane id l) s) := by
  obtain ⟨hop, hland, -⟩ := hm
  show execScratchpadLoadLands id lane s = _
  rcases hq with rfl | rfl <;> simp only [execScratchpadLoadLands, hop, hk, hland, hg, if_true]

theorem sublist_singleton {l : Nat} {ls : List Nat} (h : List.Sublist ls [l]) (hl : l ∈ ls) : ls = [l] := by
  rcases List.sublist_singleton.1 h with rfl | h
  · cases hl
  · exact h

theorem loadsLand : loadsLandRule := by
  intro s id lane p as h q old hm hk hq ls accs hg hlanes
  have hnodup := hm.2.2.2.2.2.2.1
  have hkeys := hm.2.2.2.2.2.2.2
  have hfind := State.find_of_landable hm.2.1
  have hkey := AMap.mem_keys_of_find hfind
  obtain ⟨hlane, hsub⟩ := p.sameElement_spec hkey
  obtain ⟨hlanded, hleft, hmoves⟩ := State.loadLanes_land hm hk hsub (List.ne_nil_of_mem hlane) hlanes
  refine ⟨hlane, Pend.sameElement_closed hnodup hkey, _, exec_scratchpadLoadLands hm hk hq hg, hlanded, hleft, hmoves.keeps, ?_⟩
  rintro rfl hlast a ha ha0 haz same hold
  have hval : readVal s p as = BitVec.ofNat 64 (s.readNat a.store a.addr a.z) := by
    rw [readVal, accPrimal_read hkeys ha haz ha0]
    rfl
  have hsame : same = (pollLeft old lane (readVal s p as)).isEmpty := by rw [pollLeft_eq hold, hval]
  have hone : p.sameElement lane = [lane] := sublist_singleton (by simpa [AMap.keys, hlast] using hsub) hlane
  have hends := State.pollLane_ends hm hk hlast
  rw [hone, hsame]
  exact hends

end Sys2Proof.Machine
end

section
/-! SUPPORT. The lanes of scratchpad stores are performed (R154, R156; O14). -/
namespace Sys2Proof.Machine

/-! ## Granules that a store covers whole (R154) -/

/-- The mark of poison of a granule cleared. -/
def State.clearMark (s : State) (g : Store × Nat) : State :=
  if (s.psns g.1).contains g.2 then s.setPsns g.1 (setDel (s.psns g.1) g.2) else s

theorem State.movesOnly_clearMark (s : State) (g : Store × Nat) {w : Place → Prop} (hw : w (.psn g.1 g.2)) : s.movesOnly (s.clearMark g) w := by
  unfold State.clearMark
  split
  · refine s.movesOnly_setPsns (fun k hk => contains_eq_of_mem_iff ?_)
    have hne : k ≠ g.2 := fun he => hk (he ▸ hw)
    simp [mem_setDel, hne]
  · exact s.movesOnly_refl w

theorem State.sameObjs_clearMark (s : State) (g : Store × Nat) : s.sameObjs (s.clearMark g) := by
  unfold State.clearMark
  split
  · exact s.sameObjs_setPsns _ _
  · exact fun _ => rfl

theorem isThere_of_marked {s : State} {st : Store} {g : Nat} (h : (s.psns st).contains g = true) : isThere s st := by
  rintro b rfl
  simp only [State.psns] at h
  cases hb : s.block b with
  | none => simp [hb] at h
  | some _ => rfl

theorem State.clearMark_clears (s : State) (g : Store × Nat) : ((s.clearMark g).psns g.1).contains g.2 = false := by
  unfold State.clearMark
  split
  · rename_i hg
    rw [State.psns_setPsns (isThere_of_marked hg)]
    simp [mem_setDel]
  · rename_i hg
    simpa using hg

theorem State.clearMark_keeps_clear {s : State} {st : Store} {n : Nat} (h : (s.psns st).contains n = false) (g : Store × Nat) :
    ((s.clearMark g).psns st).contains n = false := by
  by_cases he : g = (st, n)
  · rw [he]
    exact s.clearMark_clears (st, n)
  · refine ((s.movesOnly_clearMark g (w := fun z => z = .psn g.1 g.2) rfl).keeps (.psn st n) (fun hz => he ?_)).trans h
    obtain ⟨hst, hn⟩ := Place.psn.inj hz
    exact Prod.ext hst.symm hn.symm

theorem State.clearMarks_clear (gs : List (Store × Nat)) (s : State) {g : Store × Nat} (hg : g ∈ gs ∨ (s.psns g.1).contains g.2 = false) :
    ((gs.foldl State.clearMark s).psns g.1).contains g.2 = false := by
  induction gs generalizing s with
  | nil => exact hg.resolve_left (List.not_mem_nil)
  | cons k gs ih =>
    refine ih _ ?_
    rcases hg with hg | hg
    · rcases List.mem_cons.1 hg with rfl | hg
      · exact .inr (s.clearMark_clears g)
      · exact .inl hg
    · exact .inr (State.clearMark_keeps_clear hg k)

theorem State.sameObjs_clearMarks (gs : List (Store × Nat)) (s : State) : s.sameObjs (gs.foldl State.clearMark s) := by
  induction gs generalizing s with
  | nil => exact fun _ => rfl
  | cons k gs ih => exact fun q => (ih _ q).trans (s.sameObjs_clearMark k q)

/-- The covered granules of which a lane of the store is the last. -/
def Pend.lastOf (p : Pend) (cov : List (Store × Nat)) (lane : Nat) (as : List Acc) : List (Store × Nat) :=
  cov.filter (fun g => as.any (fun a => a.store == g.1 && a.addr / 16 == g.2)
    && p.lanes.all (fun l => l.1 == lane || l.2.all (fun a => !(a.store == g.1 && a.addr / 16 == g.2))))

theorem Pend.mem_lastOf {p : Pend} {cov : List (Store × Nat)} {lane : Nat} {as : List Acc} {g : Store × Nat} :
    g ∈ p.lastOf cov lane as ↔ g ∈ cov ∧ (∃ a ∈ as, a.store = g.1 ∧ a.addr / 16 = g.2)
      ∧ ∀ l ∈ p.lanes, l.1 ≠ lane → ∀ a ∈ l.2, a.store = g.1 → a.addr / 16 ≠ g.2 := by
  simp only [Pend.lastOf, List.mem_filter, Bool.and_eq_true, List.any_eq_true, List.all_eq_true, Bool.or_eq_true, beq_iff_eq,
    Bool.not_eq_true', Bool.and_eq_false_iff, beq_eq_false_iff_ne, ne_eq, Decidable.or_iff_not_imp_left, not_not]

theorem State.clearWhole_eq (s : State) {p : Pend} {q : SQual} {cov : List (Store × Nat)} (hk : p.kind = .store q cov) (lane : Nat)
    (as : List Acc) : s.clearWhole p lane as = (p.lastOf cov lane as).foldl State.clearMark s := by
  unfold State.clearWhole
  rw [hk]
  rfl

/-- A granule in which an element begins is one that the element touches. -/
theorem mem_granules_addr {a : Acc} (hz : a.z ≠ 0) : a.addr / 16 ∈ granules 16 a.addr a.z := mem_granules_of_byte 16 (Nat.le_refl _) (by omega)

/-! ## What is stored stays -/

theorem storedAll_of_movesOnly {u v : State} {as : List Acc} {w : Place → Prop} (h : storedAll u as) (hm : u.movesOnly v w)
    (hb : ∀ st x, ¬ w (.byte st x)) (hp : ∀ a ∈ as, a.psn = true → ∀ g ∈ granules a.store.pg a.addr a.z, ¬ w (.psn a.store g)) :
    storedAll v as := by
  intro a ha
  obtain ⟨hval, hpsn⟩ := h a ha
  exact ⟨(hm.readNat (fun x _ _ => hb _ x)).trans hval,
    fun hmark g hg => (hm.keeps (.psn a.store g) (hp a ha hmark g hg)).trans (hpsn hmark g hg)⟩

theorem plainAccs_sublist {s : State} {as bs : List Acc} (h : List.Sublist bs as) (hp : plainAccs s as) : plainAccs s bs := by
  refine ⟨hp.1.sublist h, fun a ha => ?_⟩
  obtain ⟨hz, hthere, hobj, hpsn⟩ := hp.2 a (h.subset ha)
  exact ⟨hz, hthere, hobj, fun b hb => hpsn b (h.subset hb)⟩

theorem plainAccs_move {s u : State} {as : List Acc} {w : Place → Prop} (hp : plainAccs s as) (hm : s.movesOnly u w) (hw : ∀ b, ¬ w (.blk b))
    (ho : s.sameObjs u) : plainAccs u as := by
  refine ⟨hp.1, fun a ha => ?_⟩
  obtain ⟨hz, hthere, hobj, hpsn⟩ := hp.2 a ha
  exact ⟨hz, isThere_of_keeps hthere hm.keeps hw, fun g hg => by rw [ho]; exact hobj g hg, hpsn⟩

theorem State.sameObjs_storeAccs {s : State} (h : s.calm) (blk : Nat) {as : List Acc} (hp : plainAccs s as) :
    s.sameObjs (as.foldl (fun s a => s.storeAcc blk a) s) := by
  induction as generalizing s with
  | nil => exact fun _ => rfl
  | cons a as ih =>
    obtain ⟨-, -, hobj, -⟩ := hp.2 a (List.mem_cons_self ..)
    have hfirst := State.movesOnly_storeAcc h blk (List.mem_singleton_self a) hobj
    intro q
    refine (ih (hfirst.calm h) (plainAccs_tail h blk hp) q).trans ?_
    rw [State.storeAcc_calm h blk hobj]
    exact s.sameObjs_writeEl _ _ _ _ _ q

/-! ## The elements of a lane of a store -/

/-- The elements of a lane of a store written, and the poison of covered granules cleared with the last lane (R154). -/
def State.storeEls (s : State) (p : Pend) (lane : Nat) (as : List Acc) : State :=
  (as.foldl (fun s a => s.storeAcc p.blk a) s).clearWhole p lane as

/-- No mark that a poisoned element leaves is among those that are cleared. -/
theorem Pend.not_lastOf_of_coverOk {p : Pend} {cov : List (Store × Nat)} {as bs : List Acc} (hc : coverOk cov bs) (lane : Nat) {b : Acc}
    (hb : b ∈ bs) (hpsn : b.psn = true) {g : Nat} (hg : g ∈ granules b.store.pg b.addr b.z) :
    (b.store, g) ∉ p.lastOf cov lane as := fun hin => by
  obtain ⟨hpg, hclean⟩ := hc _ (Pend.mem_lastOf.1 hin).1
  have hpg' : b.store.pg = 16 := hpg
  rw [hpg'] at hg
  exact hclean b hb hpsn rfl hg

theorem State.movesOnly_clearWhole (s : State) {p : Pend} {q : SQual} {cov : List (Store × Nat)} (hk : p.kind = .store q cov) (lane : Nat)
    (as : List Acc) : s.movesOnly (s.clearWhole p lane as) (fun z => ∃ g ∈ p.lastOf cov lane as, z = .psn g.1 g.2) := by
  rw [s.clearWhole_eq hk]
  exact State.movesOnly_foldl (fun s g hg => s.movesOnly_clearMark g ⟨g, hg, rfl⟩) s

theorem State.clear_storeEls {u : State} {p : Pend} {q : SQual} {cov : List (Store × Nat)} (hk : p.kind = .store q cov) {lane : Nat}
    {as : List Acc} {g : Store × Nat} (hg : g ∈ p.lastOf cov lane as) : ((u.storeEls p lane as).psns g.1).contains g.2 = false := by
  rw [State.storeEls, State.clearWhole_eq _ hk]
  exact State.clearMarks_clear _ _ (.inl hg)

section StoreEls
variable {u : State} {p : Pend} {q : SQual} {cov : List (Store × Nat)} {as : List Acc} (hu : u.calm) (hk : p.kind = .store q cov)
  (hp : plainAccs u as)
include hu hk hp

theorem State.movesOnly_storeEls (hc : coverOk cov as) (lane : Nat) : u.movesOnly (u.storeEls p lane as) (storePlaces as) := by
  refine (State.movesOnly_storeAccs hu p.blk hp).trans ((State.movesOnly_clearWhole _ hk lane as).mono ?_)
  rintro _ ⟨g, hg, rfl⟩
  obtain ⟨hcov, ⟨a, ha, hst, hgran⟩, -⟩ := Pend.mem_lastOf.1 hg
  have hpg : a.store.pg = 16 := hst ▸ (hc g hcov).1
  refine .inr ⟨a, ha, .inr ⟨g.2, ?_, by rw [hst]⟩⟩
  rw [hpg, ← hgran]
  exact mem_granules_addr (hp.2 a ha).1

theorem State.sameObjs_storeEls (lane : Nat) : u.sameObjs (u.storeEls p lane as) := by
  intro st
  rw [State.storeEls, State.clearWhole_eq _ hk]
  exact (State.sameObjs_clearMarks _ _ st).trans (State.sameObjs_storeAccs hu p.blk hp st)

theorem State.storedAll_storeEls (hc : coverOk cov as) (lane : Nat) : storedAll (u.storeEls p lane as) as := by
  refine storedAll_of_movesOnly (State.storedAll_storeAccs hu p.blk hp) (State.movesOnly_clearWhole _ hk lane as) (by simp) ?_
  rintro a ha hpsn g hg ⟨k, hin, he⟩
  obtain ⟨hst, rfl⟩ := Place.psn.inj he
  exact Pend.not_lastOf_of_coverOk hc lane ha hpsn hg (by rwa [hst])

/-- What other lanes have stored stays behind the elements of a lane. -/
theorem State.storedAll_storeEls_other {bs : List Acc} (hb : storedAll u bs) (hc : coverOk cov bs)
    (hover : ∀ b ∈ bs, ∀ a ∈ as, b.overlaps a = false)
    (hmark : ∀ b ∈ bs, b.psn = true → ∀ a ∈ as, a.psn = false → b.store = a.store →
      ∀ g ∈ granules b.store.pg b.addr b.z, g ∉ granules a.store.pg a.addr a.z) (lane : Nat) :
    storedAll (u.storeEls p lane as) bs := by
  have hwrite : storedAll (as.foldl (fun s a => s.storeAcc p.blk a) u) bs := by
    intro b hin
    obtain ⟨hval, hpsn⟩ := hb b hin
    refine ⟨?_, fun hbp g hg => ?_⟩
    · exact ((State.movesOnly_storeAccs hu p.blk hp).readNat (fun x hx hx' => not_storePlaces_byte (hover b hin) hx hx')).trans hval
    · exact State.marks_storeAccs hu p.blk hp (hpsn hbp g hg)
        (fun a ha hclean hst hga => hmark b hin hbp a ha hclean hst.symm g hg hga)
  refine storedAll_of_movesOnly hwrite (State.movesOnly_clearWhole _ hk lane as) (by simp) ?_
  rintro b hin hpsn g hg ⟨k, hlast, he⟩
  obtain ⟨hst, rfl⟩ := Place.psn.inj he
  exact Pend.not_lastOf_of_coverOk hc lane hin hpsn hg (by rwa [hst])

end StoreEls

/-! ## Full-empty bits in a machine that logs nothing (R156) -/

/-- The full-empty bit of a granule. -/
def bitPlace (st : Store) (a : Nat) (z : Place) : Prop := ∃ n, z = .full st n ∧ n / 16 = a / 16

theorem State.putFe_calm {s : State} (h : s.calm) (st : Store) (a : Nat) (full : Bool) :
    s.putFe st a full = (if full then s.setFull st a else s.setEmpty st a)
    ∧ s.movesOnly (s.putFe st a full) (bitPlace st a) := by
  have hset : s.movesOnly (if full then s.setFull st a else s.setEmpty st a) (bitPlace st a) := by
    split
    · refine s.movesOnly_setFes (fun n hn => contains_eq_of_mem_iff ?_)
      have hne : n / 16 ≠ a / 16 := fun he => hn ⟨n, rfl, he⟩
      simp [mem_setIns, hne]
    · refine s.movesOnly_setFes (fun n hn => contains_eq_of_mem_iff ?_)
      have hne : n / 16 ≠ a / 16 := fun he => hn ⟨n, rfl, he⟩
      simp [mem_setDel, hne]
  have heq : s.putFe st a full = (if full then s.setFull st a else s.setEmpty st a) := State.logFe_calm (hset.calm h) ..
  exact ⟨heq, heq ▸ hset⟩

theorem State.full_putFe_core {s : State} (h : s.calm) (k a : Nat) (full : Bool) : (s.putFe (.core k) a full).full (.core k) a = full := by
  rw [(State.putFe_calm h _ a full).1]
  cases full
  · simp [State.full, State.setEmpty, State.fes_setFes_core, mem_setDel]
  · simp [State.full, State.setFull, State.fes_setFes_core, mem_setIns]

/-! ## A lane of a store -/

/-- The bit that a .fill store sets behind its elements. -/
def State.fillBit (s : State) (set : Bool) (as : List Acc) : State :=
  match set, granOf as with
  | true, some g => s.putFe g.1 g.2 true
  | _, _ => s

theorem State.storeLane_eq {u : State} {p : Pend} (hp : u.pendOf p.id = some p) {lane : Nat} {as : List Acc} (hl : p.lanes.find lane = some as)
    (set : Bool) : u.storeLane p.id lane set = ((u.storeEls p lane as).fillBit set as).laneOff p.id lane := by
  unfold State.storeLane
  simp only [hp, hl]
  rfl

theorem State.movesOnly_fillBit {s : State} (h : s.calm) (q : SQual) (as : List Acc) :
    s.movesOnly (s.fillBit (q == .fill) as) (fun z => q = .fill ∧ ∃ g, granOf as = some g ∧ bitPlace g.1 g.2 z) := by
  unfold State.fillBit
  split
  · rename_i g hq hg
    exact (State.putFe_calm h g.1 g.2 true).2.mono (fun _ hz => ⟨by simpa using hq, g, hg, hz⟩)
  · exact s.movesOnly_refl _

theorem State.full_fillBit {s : State} (h : s.calm) {as : List Acc} {k a : Nat} (hg : granOf as = some (.core k, a)) :
    (s.fillBit true as).full (.core k) a = true := by
  unfold State.fillBit
  simp only [hg]
  exact State.full_putFe_core h k a true

theorem exec_scratchpadStorePerformed {s : State} {id lane : Nat} {p : Pend} {as : List Acc} {h : Thread} (hm : mayLand s id lane p as h)
    {q : SQual} {cov : List (Store × Nat)} (hk : p.kind = .store q cov) (hq : q = .none ∨ q = .fill) (hord : s.ordOk p lane as = true) :
    exec (.scratchpadStorePerformed id lane) s = .next (s.storeLane id lane (q == .fill)) := by
  obtain ⟨hop, hland, -⟩ := hm
  show execScratchpadStorePerformed id lane s = _
  rcases hq with rfl | rfl <;> simp only [execScratchpadStorePerformed, hop, hk, hland, hord, if_true] <;> rfl

theorem storesArePerformed : storesArePerformedRule := by
  intro s id lane p as h q cov hm hk hord hp hc hq bit
  have hcalm := calm_of_mayLand hm
  have hexec := exec_scratchpadStorePerformed hm hk hq hord
  obtain ⟨hop, hland, hthr, -, -, hsmp, -⟩ := hm
  obtain rfl := State.id_of_pendOf hop
  have hfind := State.find_of_landable hland
  have hleft : (p.behind []).lanes ≠ [] := fun he => by
    rw [Pend.behind_nil] at he
    rw [he] at hfind
    cases hfind
  have hels := State.movesOnly_storeEls hcalm hk hp hc lane
  set v := s.storeEls p lane as with hv
  have hbit := State.movesOnly_fillBit (hels.calm hcalm) q as
  set w := v.fillBit (q == .fill) as with hw
  have hstands : opBehind s w p [] :=
    ((opBehind_nil hop).move hels (by simp [storePlaces]) (by simp [storePlaces])).move hbit (by simp [bitPlace]) (by simp [bitPlace])
  have hthr' : (w.thr p.ref lane).isSome := by
    rw [hbit.thr (by simp [bitPlace]), hels.thr (by simp [storePlaces]), hthr]
    rfl
  obtain ⟨hdone, hoff⟩ := State.laneOff_behind (l := lane) hstands hleft hsmp (by rw [hk]; rfl) hthr'
  rw [State.storeLane_eq hop hfind] at hexec
  have hstored := storedAll_of_movesOnly (State.storedAll_storeEls hcalm hk hp hc lane) hbit (by simp [bitPlace]) (by simp [bitPlace])
  refine ⟨_, hexec, storedAll_of_movesOnly hstored hoff (by simp [landPlaces]) (by simp [landPlaces]), lanesLeft_of_opBehind (by simp) hdone,
    fun g hg hown hlast => ?_, fun st n hfill hgran => ?_, ?_⟩
  · have hclear := State.clear_storeEls (u := s) hk (Pend.mem_lastOf.2 ⟨hg, hown, hlast⟩)
    exact (hoff.keeps (.psn g.1 g.2) (by simp [landPlaces])).trans ((hbit.keeps (.psn g.1 g.2) (by simp [bitPlace])).trans hclear)
  · rintro ⟨k, rfl⟩
    refine (hoff.keeps (.full (.core k) n) (by simp [landPlaces])).trans ?_
    rw [hw, hfill]
    exact State.full_fillBit (hels.calm hcalm) hgran
  · exact State.keeps_trans (State.keeps_mono hels.keeps (fun _ hz => .inr (.inl hz))) (State.keeps_trans
      (State.keeps_mono hbit.keeps (fun _ hz => .inr (.inr hz))) (State.keeps_mono hoff.keeps (fun _ => .inl)))

end Sys2Proof.Machine
end

section
/-! SUPPORT. Lanes that wait on full-empty bits (R156; O14). -/
namespace Sys2Proof.Machine

/-! ## Barrier objects behind a lane that is done -/

theorem State.sameObjs_updCoh (s : State) (r : CohRef) (f : Cohort → Cohort) : s.sameObjs (s.updCoh r f) := by
  intro q
  cases q with
  | hblk k =>
    obtain ⟨g, hg⟩ := s.block_updCoh r f k
    simp only [State.objs, hg]
    cases s.block k <;> rfl
  | core k => simp only [State.objs, State.core, State.updCoh_cores]
  | _ => rfl

theorem State.sameObjs_discharge (s : State) (p : Pend) : s.sameObjs (s.discharge p) := by
  unfold State.discharge
  split
  · exact s.sameObjs_updCoh _ _
  · exact fun _ => rfl

theorem State.sameObjs_laneOff {u : State} {p : Pend} (hop : u.pendOf p.id = some p) (hsmp : p.smp = none) (hdem : p.kind.demotes = false)
    {j : Nat} (hthr : (u.thr p.ref j).isSome) (l : Nat) : u.sameObjs (u.laneOff p.id l) := by
  set p' : Pend := { p with lanes := p.lanes.del l, done := p.done ||| (1#32 <<< l) } with hp'
  have hoff : u.laneOff p.id l = if p'.lanes.isEmpty && !p'.more then
      u.finishPend p' (if p.kind.writesReg then some l else none) else u.setPend p' := by
    unfold State.laneOff
    rw [hop]
  rw [hoff]
  split
  · rw [State.finishPend_eq (p := p') hsmp hdem hthr]
    exact (u.delPend p.id).sameObjs_discharge p'
  · exact fun _ => rfl

/-! ## The lanes of a store, one after another -/

/-- A lane of a store without a bit of its own: its elements are written, and one more lane is done. -/
theorem State.storeLane_performed {s u : State} {p : Pend} {q : SQual} {cov : List (Store × Nat)} {done : List Nat} {l : Nat} {as : List Acc}
    (hu : u.calm) (hop : opBehind s u p done) (hnew : l ∉ done) (hl : p.lanes.find l = some as) (hk : p.kind = .store q cov)
    (hp : plainAccs u as) (hc : coverOk cov as) (hsmp : p.smp = none) (hthr : (u.thr p.ref l).isSome) :
    let v := u.storeEls (p.behind done) l as
    opBehind s (u.storeLane p.id l false) p (done ++ [l]) ∧ v.movesOnly (u.storeLane p.id l false) (landPlaces p [])
    ∧ u.sameObjs (u.storeLane p.id l false) := by
  intro v
  have hfind := (p.find_behind hnew).trans hl
  have hleft : (p.behind done).lanes ≠ [] := fun he => by
    rw [he] at hfind
    cases hfind
  have hdem : p.kind.demotes = false := by rw [hk]; rfl
  have hrun : u.storeLane p.id l false = v.laneOff p.id l := State.storeLane_eq (pendOf_of_opBehind hop hleft) hfind false
  have hels : u.movesOnly v (storePlaces as) := State.movesOnly_storeEls (p := p.behind done) hu hk hp hc l
  have hstands : opBehind s v p done := hop.move hels (by simp [storePlaces]) (by simp [storePlaces])
  have hthr' : (v.thr p.ref l).isSome := (hels.thr (by simp [storePlaces])).trans hthr
  obtain ⟨hdone, hoff⟩ := State.laneOff_behind (l := l) hstands hleft hsmp hdem hthr'
  have hobjs := State.sameObjs_laneOff (p := p.behind done) (pendOf_of_opBehind hstands hleft) hsmp hdem hthr' l
  rw [hrun]
  exact ⟨hdone, hoff, fun st => (hobjs st).trans (State.sameObjs_storeEls (p := p.behind done) hu hk hp l st)⟩

/-- The places that the lanes of a store move. -/
def storeLanesPlaces (p : Pend) (as : List Acc) (w : Place) : Prop := landPlaces p [] w ∨ storePlaces as w

/-- The lanes of a store that are performed together, one after another: what one lane has stored stays behind the next. -/
theorem State.storeLanes_performed {s : State} {id lane : Nat} {p : Pend} {as : List Acc} {h : Thread} (hm : mayLand s id lane p as h)
    {q : SQual} {cov : List (Store × Nat)} (hk : p.kind = .store q cov) {ls : List Nat} (hsub : List.Sublist ls (AMap.keys p.lanes))
    (hne : ls ≠ []) (hthrs : ∀ l ∈ ls, (s.thr p.ref l).isSome) (hp : plainAccs s (ls.flatMap p.accs)) (hc : coverOk cov (ls.flatMap p.accs)) :
    let t := ls.foldl (fun s l => s.storeLane id l false) s
    storedAll t (ls.flatMap p.accs) ∧ lanesLeft s t p ls ∧ s.movesOnly t (storeLanesPlaces p (ls.flatMap p.accs)) := by
  have hcalm := calm_of_mayLand hm
  obtain ⟨hop, -, -, -, -, hsmp, hnodup, -⟩ := hm
  obtain rfl := State.id_of_pendOf hop
  have hls := hsub.nodup hnodup
  obtain ⟨hstands, hmoves, -, hstored⟩ := foldl_along (f := fun s l => s.storeLane p.id l false) (ls := ls) (s := s)
    (P := fun done u => opBehind s u p done ∧ s.movesOnly u (storeLanesPlaces p (ls.flatMap p.accs)) ∧ s.sameObjs u
      ∧ storedAll u (done.flatMap p.accs)) ⟨opBehind_nil hop, s.movesOnly_refl _, fun _ => rfl, by simp [storedAll]⟩ (by
    rintro done l rest u he ⟨hstands, hmoves, hobjs, hstored⟩
    have hl : l ∈ ls := by simp [he]
    have hnew : l ∉ done := fun hin => by
      rw [he] at hls
      exact (List.nodup_append.1 hls).2.2 l hin l (List.mem_cons_self ..) rfl
    obtain ⟨accs, hfind⟩ := Option.isSome_iff_exists.1 (AMap.find_of_mem_keys (hsub.subset hl))
    have haccs : p.accs l = accs := by rw [Pend.accs, hfind]; rfl
    have hboth : List.Sublist (done.flatMap p.accs ++ accs) (ls.flatMap p.accs) := by
      rw [he, List.flatMap_append, List.flatMap_cons, haccs, ← List.append_assoc]
      exact List.sublist_append_left _ _
    have hplain := plainAccs_move (plainAccs_sublist hboth hp) hmoves (by simp [storeLanesPlaces, landPlaces, not_storePlaces_blk]) hobjs
    have hmine := plainAccs_sublist (List.sublist_append_right _ _) hplain
    have hcovers {bs : List Acc} (h : bs ⊆ ls.flatMap p.accs) : coverOk cov bs :=
      fun g hg => ⟨(hc g hg).1, fun a ha => (hc g hg).2 a (h ha)⟩
    have hin : accs ⊆ ls.flatMap p.accs := fun a ha => hboth.subset (List.mem_append_right _ ha)
    have hdone : done.flatMap p.accs ⊆ ls.flatMap p.accs := fun a ha => hboth.subset (List.mem_append_left _ ha)
    have hcu := hmoves.calm hcalm
    have hthr : (u.thr p.ref l).isSome := (hmoves.thr (by simp [storeLanesPlaces, landPlaces, storePlaces])).trans (hthrs l hl)
    obtain ⟨hnext, hoff, hsame⟩ := State.storeLane_performed hcu hstands hnew hfind hk hmine (hcovers hin) hsmp hthr
    have hels := State.movesOnly_storeEls (p := p.behind done) hcu hk hmine (hcovers hin) l
    refine ⟨hnext, ?_, fun st => (hsame st).trans (hobjs st), ?_⟩
    · exact hmoves.trans ((hels.mono fun _ hz => .inr (storePlaces_mono hin hz)).trans (hoff.mono fun _ => .inl))
    · have hold := State.storedAll_storeEls_other (p := p.behind done) hcu hk hmine hstored (hcovers hdone)
        (fun b hb a ha => (List.pairwise_append.1 hplain.1).2.2 b hb a ha)
        (fun b hb hpsn a ha hclean hst => (hplain.2 b (List.mem_append_left _ hb)).2.2.2 a (List.mem_append_right _ ha) hpsn hclean hst) l
      have hnow := State.storedAll_storeEls (p := p.behind done) hcu hk hmine (hcovers hin) l
      refine storedAll_of_movesOnly ?_ hoff (by simp [landPlaces]) (by simp [landPlaces])
      rw [List.flatMap_append, List.flatMap_singleton, haccs]
      exact fun a ha => (List.mem_append.1 ha).elim (hold a) (hnow a))
  exact ⟨hstored, lanesLeft_of_opBehind hne hstands, hmoves⟩

/-! ## The lanes that name a granule -/

theorem Pend.sameGranule_sublist (p : Pend) (g : Store × Nat) : List.Sublist (p.sameGranule g) (AMap.keys p.lanes) :=
  List.Sublist.map _ List.filter_sublist

theorem Pend.mem_sameGranule {p : Pend} {lane : Nat} {as : List Acc} {g : Store × Nat} (hl : p.lanes.find lane = some as)
    (hg : granOf as = some g) : lane ∈ p.sameGranule g := by
  refine List.mem_map.2 ⟨(lane, as), List.mem_filter.2 ⟨AMap.mem_of_find hl, ?_⟩, rfl⟩
  simp [hg]

/-! ## What a bit put leaves -/

theorem lanesLeft_of_movesOnly {s t u : State} {p : Pend} {ls : List Nat} {w : Place → Prop} (h : lanesLeft s t p ls) (hm : t.movesOnly u w)
    (hp : ¬ w .pend) (hc : ∀ k, ¬ w (.ctr p.ref k)) : lanesLeft s u p ls := by
  have hctr (k : Nat) : u.ctrAt p.ref k = t.ctrAt p.ref k := hm.keeps (.ctr p.ref k) (hc k)
  unfold lanesLeft at h ⊢
  simp only [hm.pendOf hp, hctr]
  exact h

/-! ## FE_WAIT_SATISFIED -/

section Waiting
variable {s : State} {id lane : Nat} {p : Pend} {as : List Acc} {h : Thread} {g : Store × Nat} (hm : mayLand s id lane p as h)
  (hg : granOf as = some g) (hok : s.groupOk p (p.sameGranule g) = true)
include hm hg hok

theorem exec_feWaitSatisfied_load {old : AMap W64} (hk : p.kind = .load .fe old) :
    exec (.feWaitSatisfied id lane) s =
      if s.full g.1 g.2 then .next ((p.sameGranule g).foldl (fun s l => s.loadLane id l) s) else .next s := by
  obtain ⟨hop, hland, -⟩ := hm
  show execFeWaitSatisfied id lane s = _
  simp only [execFeWaitSatisfied, hop, hland, hg, hok, hk, Bool.not_true, Bool.false_eq_true, if_false, idle]

theorem exec_feWaitSatisfied_loadClr {old : AMap W64} (hk : p.kind = .load .feClr old) :
    exec (.feWaitSatisfied id lane) s =
      if s.full g.1 g.2 then .next (((p.sameGranule g).foldl (fun s l => s.loadLane id l) s).putFe g.1 g.2 false) else .next s := by
  obtain ⟨hop, hland, -⟩ := hm
  show execFeWaitSatisfied id lane s = _
  simp only [execFeWaitSatisfied, hop, hland, hg, hok, hk, Bool.not_true, Bool.false_eq_true, if_false, idle]

theorem exec_feWaitSatisfied_store {cov : List (Store × Nat)} (hk : p.kind = .store .fe cov) :
    exec (.feWaitSatisfied id lane) s =
      if s.full g.1 g.2 then .next s else .next (((p.sameGranule g).foldl (fun s l => s.storeLane id l false) s).putFe g.1 g.2 true) := by
  obtain ⟨hop, hland, -⟩ := hm
  show execFeWaitSatisfied id lane s = _
  simp only [execFeWaitSatisfied, hop, hland, hg, hok, hk, Bool.not_true, Bool.false_eq_true, if_false, idle]

end Waiting

/-- The places that the lanes of a load that is no poll move. -/
theorem landPlaces_of_loadPlaces {p : Pend} {q : LQual} (hq : q ≠ .poll) {ls : List Nat} {w : Place} (h : loadPlaces p q ls w) :
    landPlaces p ls w := h.resolve_right (fun h => hq h.1)

theorem fullEmptyWaits : fullEmptyWaitsRule := by
  intro s id lane p as h n a hm hg full ls accs run bit hok hlanes
  have hcalm := calm_of_mayLand hm
  have hsub : List.Sublist ls (AMap.keys p.lanes) := p.sameGranule_sublist (.core n, a)
  have hne : ls ≠ [] := List.ne_nil_of_mem (Pend.mem_sameGranule (State.find_of_landable hm.2.1) hg)
  refine ⟨fun old hk => ?_, fun old hk => ?_, fun cov hk hp hc => ?_⟩
  · have hrun : run = _ := exec_feWaitSatisfied_load hm hg hok hk
    obtain ⟨hlanded, hleft, hmoves⟩ := State.loadLanes_land hm hk hsub hne hlanes
    split
    · rename_i hfull
      refine ⟨_, hrun.trans (if_pos hfull), hlanded, hleft, ?_⟩
      exact State.keeps_mono hmoves.keeps (fun _ => landPlaces_of_loadPlaces (by simp))
    · rename_i hempty
      exact hrun.trans (if_neg hempty)
  · have hrun : run = _ := exec_feWaitSatisfied_loadClr hm hg hok hk
    obtain ⟨hlanded, hleft, hmoves⟩ := State.loadLanes_land hm hk hsub hne hlanes
    split
    · rename_i hfull
      have hcalm' := hmoves.calm hcalm
      have hbit := (State.putFe_calm hcalm' (.core n) a false).2
      refine ⟨_, hrun.trans (if_pos hfull), fun l hl => landed_of_movesOnly (hlanded l hl) hbit (by simp [bitPlace]),
        lanesLeft_of_movesOnly hleft hbit (by simp [bitPlace]) (by simp [bitPlace]), State.full_putFe_core hcalm' n a false, ?_⟩
      exact State.keeps_trans (State.keeps_mono hmoves.keeps (fun _ hz => .inl (landPlaces_of_loadPlaces (by simp) hz)))
        (State.keeps_mono hbit.keeps (fun _ => .inr))
    · rename_i hempty
      exact hrun.trans (if_neg hempty)
  · have hrun : run = _ := exec_feWaitSatisfied_store hm hg hok hk
    obtain ⟨hstored, hleft, hmoves⟩ := State.storeLanes_performed hm hk hsub hne (fun l hl => (hlanes l hl).1) hp hc
    split
    · rename_i hfull
      exact hrun.trans (if_pos hfull)
    · rename_i hempty
      have hcalm' := hmoves.calm hcalm
      have hbit := (State.putFe_calm hcalm' (.core n) a true).2
      refine ⟨_, hrun.trans (if_neg hempty), storedAll_of_movesOnly hstored hbit (by simp [bitPlace]) (by simp [bitPlace]),
        lanesLeft_of_movesOnly hleft hbit (by simp [bitPlace]) (by simp [bitPlace]), State.full_putFe_core hcalm' n a true, ?_⟩
      exact State.keeps_trans (State.keeps_mono hmoves.keeps (fun _ hz => hz.imp_right .inl))
        (State.keeps_mono hbit.keeps (fun _ hz => .inr (.inr hz)))

/-- Settles O14: the lanes of a load read and write their registers together and a poll's last lane counts or demotes, a store writes its
elements with their poison, and full-empty accesses wait for their bit and move it once. -/
theorem scratchpadAccessesArePerformed : Obligations.ScratchpadAccessesArePerformed := ⟨loadsLand, storesArePerformed, fullEmptyWaits⟩

end Sys2Proof.Machine
end

section
/-! SUPPORT. Scalar words (O1): the values of R163's table, and SRDLANE. -/

namespace Sys2Proof.Machine

/-! ## The values of the table (R163) -/

theorem min64_signed (a b : W64) : min64 false a b = BitVec.ofInt 64 (min a.toInt b.toInt) := by
  simp only [min64, Bool.false_eq_true, if_false, BitVec.sle, decide_eq_true_eq]
  split
  · rw [min_eq_left ‹_›, BitVec.ofInt_toInt]
  · rw [min_eq_right (by omega), BitVec.ofInt_toInt]

theorem min64_unsigned (a b : W64) : min64 true a b = BitVec.ofNat 64 (min a.toNat b.toNat) := by
  simp only [min64, if_true, BitVec.ule, decide_eq_true_eq]
  split
  · rw [min_eq_left ‹_›, BitVec.ofNat_toNat, BitVec.setWidth_eq]
  · rw [min_eq_right (by omega), BitVec.ofNat_toNat, BitVec.setWidth_eq]

theorem max64_signed (a b : W64) : max64 false a b = BitVec.ofInt 64 (max a.toInt b.toInt) := by
  simp only [max64, Bool.false_eq_true, if_false, BitVec.sle, decide_eq_true_eq]
  split
  · rw [max_eq_left ‹_›, BitVec.ofInt_toInt]
  · rw [max_eq_right (by omega), BitVec.ofInt_toInt]

theorem max64_unsigned (a b : W64) : max64 true a b = BitVec.ofNat 64 (max a.toNat b.toNat) := by
  simp only [max64, if_true, BitVec.ule, decide_eq_true_eq]
  split
  · rw [max_eq_left ‹_›, BitVec.ofNat_toNat, BitVec.setWidth_eq]
  · rw [max_eq_right (by omega), BitVec.ofNat_toNat, BitVec.setWidth_eq]

/-- A shift amount is the low byte of its operand. -/
theorem shAmt_eq (b : W64) : shAmt b = b.toNat % 256 := by
  simp [shAmt, BitVec.extractLsb'_toNat]

theorem shl64_eq (a b : W64) : shl64 a b = BitVec.ofNat 64 (a.toNat * 2 ^ (b.toNat % 256)) := by
  rw [shl64, shAmt_eq]
  apply BitVec.eq_of_toNat_eq
  split
  · rename_i h
    have hdvd : 2 ^ 64 ∣ a.toNat * 2 ^ (b.toNat % 256) := Dvd.dvd.mul_left (pow_dvd_pow 2 h) _
    rw [BitVec.toNat_ofNat (x := a.toNat * 2 ^ (b.toNat % 256)), Nat.mod_eq_zero_of_dvd hdvd]
    rfl
  · rw [BitVec.toNat_shiftLeft, Nat.shiftLeft_eq, BitVec.toNat_ofNat]

theorem shr64_eq (a b : W64) : shr64 a b = BitVec.ofNat 64 (a.toNat / 2 ^ (b.toNat % 256)) := by
  rw [shr64, shAmt_eq]
  apply BitVec.eq_of_toNat_eq
  have hlt := a.isLt
  split
  · rename_i h
    have hpow : 2 ^ 64 ≤ 2 ^ (b.toNat % 256) := Nat.pow_le_pow_right (by decide) h
    rw [Nat.div_eq_of_lt (by omega)]
  · rw [BitVec.toNat_ushiftRight, Nat.shiftRight_eq_div_pow, BitVec.toNat_ofNat,
      Nat.mod_eq_of_lt (lt_of_le_of_lt (Nat.div_le_self _ _) hlt)]

/-- Beyond the width of a number of that range, a floor quotient is its sign. -/
theorem ediv_two_pow_of_le {z : Int} {w n : Nat} (hlo : -(2 ^ w) ≤ z) (hhi : z < 2 ^ w) (h : w ≤ n) : z / 2 ^ n = z / 2 ^ w := by
  have hpow : (2 : Int) ^ w ≤ 2 ^ n := pow_le_pow_right₀ (by decide) h
  have hw : (0 : Int) < 2 ^ w := by positivity
  rcases lt_or_ge z 0 with hz | hz
  · rw [show z / 2 ^ n = -1 by rw [Int.ediv_eq_iff_of_pos (by omega)]; omega, show z / 2 ^ w = -1 by rw [Int.ediv_eq_iff_of_pos hw]; omega]
  · rw [Int.ediv_eq_zero_of_lt hz (by omega), Int.ediv_eq_zero_of_lt hz hhi]

theorem sshiftRight_eq_ofInt {w : Nat} (a : BitVec w) (n : Nat) : a.sshiftRight n = BitVec.ofInt w (a.toInt / 2 ^ n) := by
  rw [BitVec.sshiftRight, Int.shiftRight_eq_div_pow]
  norm_cast

theorem sar64_eq (a b : W64) : sar64 a b = BitVec.ofInt 64 (a.toInt / 2 ^ (b.toNat % 256)) := by
  rw [sar64, shAmt_eq, sshiftRight_eq_ofInt]
  split
  · have hlo := a.le_two_mul_toInt
    have hhi := a.two_mul_toInt_lt
    rw [ediv_two_pow_of_le (w := 63) (n := b.toNat % 256) (by omega) (by omega) (by omega)]
  · rfl

theorem popcount_eq {w : Nat} (x : BitVec w) : popcount x = (List.range w).countP (fun i => x.getLsbD i) := by
  have hfold (ls : List Nat) (n : Nat) :
      ls.foldl (fun n i => if x.getLsbD i then n + 1 else n) n = n + ls.countP (fun i => x.getLsbD i) := by
    induction ls generalizing n with
    | nil => rfl
    | cons i r ih =>
      rw [List.foldl_cons, ih, List.countP_cons]
      split <;> omega
  rw [popcount, hfold, Nat.zero_add]

/-- The lowest set bit. -/
theorem lowBit_spec {w : Nat} (x : BitVec w) : (∀ j < lowBit x, j < w → x.getLsbD j = false)
    ∧ if x = 0#w then lowBit x = w else lowBit x < w ∧ x.getLsbD (lowBit x) = true := by
  rw [lowBit]
  cases hf : (List.range w).find? (fun i => x.getLsbD i) with
  | none =>
    have hnone : ∀ i < w, x.getLsbD i = false := by simpa using hf
    have hx : x = 0#w := BitVec.eq_of_getLsbD_eq (fun i hi => by rw [hnone i hi, BitVec.getLsbD_zero])
    exact ⟨fun j _ hj => hnone j hj, by rw [if_pos hx]; rfl⟩
  | some i =>
    obtain ⟨hset, hi, hbelow⟩ := List.find?_range_eq_some.1 hf
    have hx : x ≠ 0#w := fun h => by simp [h] at hset
    rw [if_neg hx]
    exact ⟨fun j hj _ => by simpa using hbelow j hj, List.mem_range.1 hi, hset⟩

/-- The highest set bit. -/
theorem highBit_spec {w : Nat} (x : BitVec w) : (∀ j, highBit x < j → x.getLsbD j = false)
    ∧ if x = 0#w then highBit x = w else highBit x < w ∧ x.getLsbD (highBit x) = true := by
  rw [highBit]
  by_cases hx : x = 0#w
  · simp [hx]
  · have hn : x.toNat ≠ 0 := fun h => hx (BitVec.eq_of_toNat_eq (by simpa using h))
    have hself := Nat.testBit_log2 hn
    rw [if_neg hn, if_neg hx]
    refine ⟨fun j hj => Nat.testBit_lt_two_pow ((Nat.log2_lt hn).1 hj), ?_, hself⟩
    exact (Nat.log2_lt hn).2 x.isLt

/-! ## Scalar words complete -/

section
variable {s : State} {x : Ctx} {c : Ctl} {d : Dst} {a b : Src}

theorem scaBin_done (h : s.issues x c) (he : s.errIn = []) {o : Out} {u : Nat} {f : W64 → W64 → W64} {v : W64}
    (ho : o = scaBin c s u d a b f) (hv : f (x.sca s.clk c.lit a) (x.sca s.clk c.lit b) = v) : s.scaDone x c d o v :=
  ho ▸ scaWord_done h he hv

theorem scaUn_done (h : s.issues x c) (he : s.errIn = []) {o : Out} {f : W64 → W64} {v : W64} (ho : o = scaUn c s d a f)
    (hv : f (x.sca s.clk c.lit a) = v) : s.scaDone x c d o v :=
  ho ▸ scaWord_done h he hv

/-- SCMP answers 1 where its condition holds. -/
theorem scmp_done (h : s.issues x c) (he : s.errIn = []) (cc : Cond) (u : Bool) {p : Prop} [Decidable p]
    (hp : condHolds cc (int64 u (x.sca s.clk c.lit a)) (int64 u (x.sca s.clk c.lit b)) = true ↔ p) :
    s.scaDone x c d (exec (.scmp c cc u d a b) s) (if p then 1#64 else 0#64) :=
  scaBin_done h he (rfl : _ = execScmp c cc u d a b s) (if_congr hp rfl rfl)

end

theorem int64_inj {u : Bool} {a b : W64} : int64 u a = int64 u b ↔ a = b := by
  cases u
  · exact BitVec.toInt_inj
  · exact Int.ofNat_inj.trans BitVec.toNat_inj

theorem scalarWordsGiveTheirResults : scalarWordsGiveTheirResultsRule := by
  unfold scalarWordsGiveTheirResultsRule
  intro s x c d a b p h he A B P n
  refine ⟨scaBin_done h he (rfl : _ = execSadd c d a b s) rfl,
    scaBin_done h he (rfl : _ = execSsub c d a b s) rfl,
    scaBin_done h he (rfl : _ = execSmul c d a b s) rfl,
    scaBin_done h he (rfl : _ = execSmin c false d a b s) (min64_signed A B),
    scaBin_done h he (rfl : _ = execSmin c true d a b s) (min64_unsigned A B),
    scaBin_done h he (rfl : _ = execSmax c false d a b s) (max64_signed A B),
    scaBin_done h he (rfl : _ = execSmax c true d a b s) (max64_unsigned A B),
    scaBin_done h he (rfl : _ = execSand c d a b s) rfl,
    scaBin_done h he (rfl : _ = execSor c d a b s) rfl,
    scaBin_done h he (rfl : _ = execSxor c d a b s) rfl,
    scaBin_done h he (rfl : _ = execSandn c d a b s) rfl,
    scaUn_done h he (rfl : _ = execSnot c d a s) rfl,
    scaBin_done h he (rfl : _ = execSshl c d a b s) (shl64_eq A B),
    scaBin_done h he (rfl : _ = execSshr c d a b s) (shr64_eq A B),
    scaBin_done h he (rfl : _ = execSsar c d a b s) (sar64_eq A B),
    scaUn_done h he (rfl : _ = execSmov c d a s) rfl,
    ?sel,
    scaUn_done h he (rfl : _ = execSpopc c d a s) (congrArg (BitVec.ofNat 64) (popcount_eq A)),
    ⟨lowBit A, scaUn_done h he (rfl : _ = execSffs c d a s) rfl, lowBit_spec A⟩,
    ⟨highBit A, scaUn_done h he (rfl : _ = execSfls c d a s) rfl, highBit_spec A⟩,
    ?cmp⟩
  case sel =>
    change s.scaDone x c d (execSsel c d p a b s) _
    exact scaWord_done h he (ite_not ..)
  case cmp =>
    intro u I
    have hne : (if A = B then 0#64 else 1#64) = if A ≠ B then 1#64 else 0#64 := (ite_not ..).symm
    rw [hne]
    refine ⟨scmp_done h he .eq u ?_, scmp_done h he .ne u ?_, scmp_done h he .lt u decide_eq_true_iff,
      scmp_done h he .le u decide_eq_true_iff, scmp_done h he .gt u decide_eq_true_iff, scmp_done h he .ge u decide_eq_true_iff⟩
    · exact beq_iff_eq.trans int64_inj
    · exact bne_iff_ne.trans int64_inj.not

/-! ## SRDLANE (R164) -/

/-- What a lane reads from a register that a thread holds. -/
theorem Ctx.el_v {s : State} {x : Ctx} (hc : s.coh x.ref = some x.coh) (clk : Nat) (lit : Option W64) (w : Bool) (l : Nat) (n : VNum) :
    x.el clk lit w l (.v n) = match s.thr x.ref l with
      | some t => t.el w n.toNat
      | none => ⟨0#64, some .raw, false, [], []⟩ := by
  simp only [State.thr, hc]
  rfl

theorem pairVal_eq (lo hi : W32) : pairVal lo hi = BitVec.ofNat 64 (lo.toNat + hi.toNat * 2 ^ 32) := by
  apply BitVec.eq_of_toNat_eq
  have h1 := lo.isLt
  have h2 := hi.isLt
  rw [pairVal, BitVec.toNat_append, Nat.shiftLeft_eq, Nat.or_comm, ← Nat.mul_comm, Nat.or_comm, ← Nat.two_pow_add_eq_or_of_lt h1,
    BitVec.toNat_ofNat, Nat.mod_eq_of_lt (by omega)]
  omega

/-- The element of a register or of a pair. -/
theorem Thread.el_val (t : Thread) (w : Bool) (n : Nat) : (t.el w n).val
    = BitVec.ofNat 64 ((t.vreg n).val.toNat + if w then (t.vreg (n + 1)).val.toNat * 2 ^ 32 else 0) := by
  cases w
  · simp [Thread.el]
  · exact pairVal_eq _ _

theorem Thread.el_psn (t : Thread) (w : Bool) (n : Nat) :
    (t.el w n).psn = true ↔ (t.vreg n).psn = true ∨ (w = true ∧ (t.vreg (n + 1)).psn = true) := by
  cases w
  · exact ⟨.inl, fun h => h.elim id (fun h => absurd h.1 (by decide))⟩
  · simp [Thread.el]

theorem srdlaneReadsOneLane : srdlaneReadsOneLaneRule := by
  unfold srdlaneReadsOneLaneRule
  intro s x c w d n l h he q lo hi
  obtain ⟨-, -, hcoh, -⟩ := State.ctx_some h.1
  have hthr : x.coh.thread q = s.thr x.ref q := by simp [State.thr, hcoh]
  have hel := Ctx.el_v hcoh s.clk c.lit w q n
  have hlo : lo = s.vAt x.ref q n.toNat := rfl
  have hhi : hi = s.vAt x.ref q (n.toNat + 1) := rfl
  have hpsn : (x.el s.clk c.lit w q (.v n)).psn = true ↔ lo.psn = true ∨ (w = true ∧ hi.psn = true) := by
    rw [hel, hlo, hhi, State.vAt, State.vAt]
    cases s.thr x.ref q with
    | none => simp [VReg.zero]
    | some t => exact t.el_psn w n.toNat
  have hval : (if (x.coh.thread q).isNone then 0#64 else (x.el s.clk c.lit w q (.v n)).val)
      = BitVec.ofNat 64 (lo.val.toNat + if w then hi.val.toNat * 2 ^ 32 else 0) := by
    rw [hthr, hel, hlo, hhi, State.vAt, State.vAt]
    cases s.thr x.ref q with
    | none => simp [VReg.zero]
    | some t => exact t.el_val w n.toNat
  rw [if_congr hpsn.symm rfl rfl]
  split
  · rename_i hp
    refine (word_trap h ?_ : execSrdlane c w d (.v n) l s = _)
    simp only [parityCheck_quiet he]
    exact if_pos hp
  · rename_i hp
    change s.scaDone x c d (execSrdlane c w d (.v n) l s) _
    refine word_sca h ?_
    simp only [parityCheck_quiet he, ← hval]
    exact if_neg hp

/-- Settles O1: each word's body is one of `scaWord`, and its function is the table's. -/
theorem scalarWords : Obligations.ScalarWords := ⟨scalarWordsGiveTheirResults, srdlaneReadsOneLane⟩

end Sys2Proof.Machine
end

section
/-! SUPPORT. Integer element words, division and ICMP (O2): the elements of a word of 32 bits, integers wrapped and clamped, and what an
integer word leaves. -/

namespace Sys2Proof.Machine

/-! ## Elements put together and taken apart -/

theorem bitsAt_eq (x o n : Nat) : bitsAt x o n = x / 2 ^ o % 2 ^ n := by
  rw [bitsAt, Nat.shiftRight_eq_div_pow]

theorem bitsAt_lt (x o n : Nat) : bitsAt x o n < 2 ^ n := Nat.mod_lt _ (Nat.two_pow_pos n)

theorem foldl_els_succ (w : Nat) (g : Nat → Nat) (n : Nat) :
    (List.range (n + 1)).foldl (fun a i => a + g i % 2 ^ w * 2 ^ (i * w)) 0
      = (List.range n).foldl (fun a i => a + g i % 2 ^ w * 2 ^ (i * w)) 0 + g n % 2 ^ w * 2 ^ (n * w) := by
  rw [List.range_succ, List.foldl_append]
  rfl

theorem foldl_els_lt (w : Nat) (g : Nat → Nat) (n : Nat) :
    (List.range n).foldl (fun a i => a + g i % 2 ^ w * 2 ^ (i * w)) 0 < 2 ^ (n * w) := by
  induction n with
  | zero => simp
  | succ n ih =>
    have hmod : g n % 2 ^ w + 1 ≤ 2 ^ w := Nat.mod_lt _ (Nat.two_pow_pos w)
    have hmul := Nat.mul_le_mul_right (2 ^ (n * w)) hmod
    rw [Nat.succ_mul] at hmul
    rw [foldl_els_succ, Nat.succ_mul, Nat.add_comm (n * w), Nat.pow_add]
    omega

/-- Element i of a sum of elements, each at its own position. -/
theorem bitsAt_foldl_els (w : Nat) (g : Nat → Nat) {n i : Nat} (hi : i < n) :
    bitsAt ((List.range n).foldl (fun a i => a + g i % 2 ^ w * 2 ^ (i * w)) 0) (i * w) w = g i % 2 ^ w := by
  induction n with
  | zero => exact absurd hi (Nat.not_lt_zero i)
  | succ n ih =>
    rw [foldl_els_succ]
    rcases Nat.lt_or_eq_of_le (Nat.lt_succ_iff.1 hi) with hlt | rfl
    · have hle : (i + 1) * w ≤ n * w := Nat.mul_le_mul_right w hlt
      have hsplit : n * w = i * w + (w + (n * w - (i + 1) * w)) := by rw [Nat.succ_mul] at hle ⊢; omega
      rw [bitsAt_eq, hsplit, Nat.pow_add, Nat.mul_left_comm, Nat.add_mul_div_left _ _ (Nat.two_pow_pos _), Nat.pow_add,
        Nat.mul_left_comm, Nat.add_mul_mod_self_left, ← bitsAt_eq]
      exact ih hlt
    · rw [bitsAt_eq, Nat.add_mul_div_right _ _ (Nat.two_pow_pos _), Nat.div_eq_of_lt (foldl_els_lt w g i), Nat.zero_add, Nat.mod_mod]

/-- The elements of a TYPE fill a word of 32 bits. -/
theorem count_mul_ityW (ty : IType) : 32 / ityW ty * ityW ty = 32 := by cases ty <;> rfl

theorem ityW_pos (ty : IType) : 0 < ityW ty := by cases ty <;> decide

theorem narrow_false_toNat (v : W64) : (narrow false v).toNat = v.toNat % 2 ^ 32 := by
  have h : v.toNat % 2 ^ 32 < 2 ^ 64 := lt_trans (Nat.mod_lt _ (by decide)) (by decide)
  simp only [narrow, Bool.false_eq_true, if_false, BitVec.toNat_setWidth, Nat.mod_eq_of_lt h]

theorem eachEl_toNat (ty : IType) (f : Nat → Nat → Nat → Nat) (a b e : W64) : (narrow false (eachEl (ityW ty) f a b e)).toNat
    = (List.range (32 / ityW ty)).foldl (fun n i => n + f (bitsAt a.toNat (i * ityW ty) (ityW ty)) (bitsAt b.toNat (i * ityW ty) (ityW ty))
        (bitsAt e.toNat (i * ityW ty) (ityW ty)) % 2 ^ ityW ty * 2 ^ (i * ityW ty)) 0 := by
  have hlt := foldl_els_lt (ityW ty) (fun i => f (bitsAt a.toNat (i * ityW ty) (ityW ty)) (bitsAt b.toNat (i * ityW ty) (ityW ty))
    (bitsAt e.toNat (i * ityW ty) (ityW ty))) (32 / ityW ty)
  rw [count_mul_ityW] at hlt
  rw [narrow_false_toNat, eachEl, BitVec.toNat_ofNat, Nat.mod_eq_of_lt (lt_trans hlt (by decide)), Nat.mod_eq_of_lt hlt]

/-! ## Integers in elements (R166, R167) -/

theorem elInt_mod (w : Nat) (g : Bool) (x : Nat) : elInt w g (x % 2 ^ w) = elInt w g x := by
  rw [elInt, elInt, Nat.mod_mod]

theorem two_pow_pred {w : Nat} (hw : 0 < w) : 2 ^ w = 2 * 2 ^ (w - 1) := by
  rw [← Nat.pow_succ', Nat.succ_eq_add_one, Nat.sub_add_cancel hw]

theorem elInt_range {w : Nat} (hw : 0 < w) (g : Bool) (x : Nat) : elMin w g ≤ elInt w g x ∧ elInt w g x ≤ elMax w g := by
  have hmod := Nat.mod_lt x (Nat.two_pow_pos w)
  have hpow := two_pow_pred hw
  rw [elInt, elMin, elMax]
  cases g
  · simp only [Bool.false_and, Bool.false_eq_true, if_false]
    omega
  · simp only [Bool.true_and, decide_eq_true_eq, if_true]
    split <;> omega

/-- An element holds an integer modulo its width. -/
theorem elInt_wrapInt_sub_emod (w : Nat) (g : Bool) (v : Int) : (elInt w g (wrapInt w v) - v) % 2 ^ w = 0 := by
  have hpos : (0 : Int) < 2 ^ w := by positivity
  have hcast : ((2 ^ w : Nat) : Int) = 2 ^ w := by norm_cast
  have hnn := Int.emod_nonneg v (ne_of_gt hpos)
  have hlt := Int.emod_lt_of_pos v hpos
  have hnat : wrapInt w v % 2 ^ w = wrapInt w v := by
    refine Nat.mod_eq_of_lt ?_
    rw [wrapInt, hcast]
    omega
  have hval : ((wrapInt w v : Nat) : Int) = v % 2 ^ w := by rw [wrapInt, hcast, Int.toNat_of_nonneg hnn]
  rw [elInt, hnat, hcast, hval]
  refine Int.emod_eq_zero_of_dvd ?_
  split
  · exact ⟨-1 - v / 2 ^ w, by rw [Int.emod_def]; ring⟩
  · exact ⟨-(v / 2 ^ w), by rw [Int.emod_def]; ring⟩

/-- An integer in the range of an element is what the element holds. -/
theorem elInt_wrapInt {w : Nat} (hw : 0 < w) {g : Bool} {v : Int} (hlo : elMin w g ≤ v) (hhi : v ≤ elMax w g) :
    elInt w g (wrapInt w v) = v := by
  obtain ⟨klo, khi⟩ := elInt_range hw g (wrapInt w v)
  have hz : elInt w g (wrapInt w v) - v = 0 := by
    refine Int.eq_zero_of_abs_lt_dvd (Int.dvd_of_emod_eq_zero (elInt_wrapInt_sub_emod w g v)) ?_
    have hpow := two_pow_pred hw
    have hcast : ((2 ^ w : Nat) : Int) = 2 ^ w := by norm_cast
    rw [← hcast, abs_lt]
    cases g
    · simp only [elMin, elMax, Bool.false_eq_true, if_false] at klo khi hlo hhi
      omega
    · simp only [elMin, elMax, if_true] at klo khi hlo hhi
      omega
  omega

theorem elOf_range (ty : IType) (v : W64) (i : Nat) :
    elMin (ityW ty) (itySigned ty) ≤ elOf ty v i ∧ elOf ty v i ≤ elMax (ityW ty) (itySigned ty) := elInt_range (ityW_pos ty) _ _

/-- R166: wrapped, or clamped with .sat. -/
theorem fitsEl_fitEl (sat : Bool) (ty : IType) (e : Int) : fitsEl sat ty e (elInt (ityW ty) (itySigned ty) (fitEl sat ty e)) := by
  have hw := ityW_pos ty
  cases sat
  · exact elInt_wrapInt_sub_emod _ _ e
  · have hmin : elMin (ityW ty) (itySigned ty) ≤ elMax (ityW ty) (itySigned ty) :=
      le_trans (elInt_range hw (itySigned ty) 0).1 (elInt_range hw (itySigned ty) 0).2
    have hclamp : elInt (ityW ty) (itySigned ty) (fitEl true ty e)
        = max (elMin (ityW ty) (itySigned ty)) (min (elMax (ityW ty) (itySigned ty)) e) := by
      rw [fitEl, if_pos rfl, satInt, elInt_wrapInt hw] <;> split_ifs <;> omega
    rw [fitsEl, if_pos rfl, hclamp, elMin, elMax]
    cases itySigned ty <;> norm_cast

/-! ## Integer words complete -/

/-- What lane l reads from operand n of a word. -/
def Ctx.operand (x : Ctx) (s : State) (c : Ctl) (srcs : List Src) (l n : Nat) : W64 := (srcs[n]?.map (fun a => (x.rd s c l a).val)).getD 0#64

section
variable {s : State} {x : Ctx} {c : Ctl} {d : Dst}

/-- A lane of an integer word whose operands are accepted and clean. -/
theorem intLane_pass {l : Nat} {srcs : List Src} {ok : Tag → Bool} {tag : Tag} {f : W64 → W64 → W64 → W64}
    (h : ∀ a ∈ srcs, (x.rd s c l a).accepted ok = true ∧ (x.rd s c l a).psn = false) : intLane c s x l srcs ok tag f
      = some (.plain (narrow false (f (x.operand s c srcs l 0) (x.operand s c srcs l 1) (x.operand s c srcs l 2))) tag false) := by
  have hok : (srcs.map (fun a => x.rd s c l a)).all (fun e => e.accepted ok) = true := by simpa using fun a ha => (h a ha).1
  have hpsn : (srcs.map (fun a => x.rd s c l a)).any (·.psn) = false := by simpa using fun a ha => (h a ha).2
  have hop (n : Nat) : ((srcs.map (fun a => x.rd s c l a))[n]?.map (·.val)).getD 0#64 = x.operand s c srcs l n := by
    rw [List.getElem?_map, Option.map_map]
    rfl
  have hlane : intLane c s x l srcs ok tag f = some (.plain _ tag ((srcs.map (fun a => x.rd s c l a)).any (·.psn))) := if_pos hok
  rw [hlane, hpsn, ← hop, ← hop, ← hop]
  rfl

/-- An integer word whose fields can be read gives each lane of EXEC its function of the operands. -/
theorem intWord_done (h : s.issues x c) (he : s.errIn = []) {u : Nat} {srcs : List Src} {ok : Tag → Bool} {tag : Tag} {f : W64 → W64 → W64 → W64}
    (hr : s.readable x c d srcs ok tag) : s.vecDone x c d (intWord c s u d srcs ok tag f) (fun l =>
      .plain (narrow false (f (x.operand s c srcs l 0) (x.operand s c srcs l 1) (x.operand s c srcs l 2))) tag false) :=
  vecWord_done h he (fun l hl => intLane_pass (hr l hl).2) (fun l hl => ⟨rfl, (hr l hl).1, BitVec.zero_and⟩)

theorem LRes.flat_plain (v : W64) (tag : Tag) (psn : Bool) : (LRes.plain (narrow false v) tag psn).flat tag := by
  refine ⟨rfl, rfl, rfl, fun _ => rfl, ?_⟩
  rw [LRes.plain, narrow_false_toNat]
  exact Nat.mod_lt _ (by decide)

/-- An element word whose fields can be read: each element of the result is the function of the operands' elements. -/
theorem elWord_done (h : s.issues x c) (he : s.errIn = []) {u : Nat} {ty : IType} {srcs : List Src} {a b e : Src} {g : Int → Int → Int → Nat}
    {f : Int → Int → Int → Int → Prop} (hr : s.readable x c d srcs (ityAccepts ty) (ityTag ty))
    (hf : ∀ l i, f (elOf ty (x.rd s c l a).val i) (elOf ty (x.rd s c l b).val i) (elOf ty (x.rd s c l e).val i)
      (elInt (ityW ty) (itySigned ty) (g (elOf ty (x.operand s c srcs l 0) i) (elOf ty (x.operand s c srcs l 1) i)
        (elOf ty (x.operand s c srcs l 2) i)))) :
    s.elemsDone x c ty d a b e (elWord c s u ty d srcs g) f := by
  refine ⟨_, intWord_done h he hr, fun l _ => ⟨LRes.flat_plain _ _ _, fun i hi => ?_⟩⟩
  have hel : elOf ty (narrow false (eachEl (ityW ty) (fun a b e => g (elInt (ityW ty) (itySigned ty) a) (elInt (ityW ty) (itySigned ty) b)
      (elInt (ityW ty) (itySigned ty) e)) (x.operand s c srcs l 0) (x.operand s c srcs l 1) (x.operand s c srcs l 2))) i
      = elInt (ityW ty) (itySigned ty) (g (elOf ty (x.operand s c srcs l 0) i) (elOf ty (x.operand s c srcs l 1) i)
        (elOf ty (x.operand s c srcs l 2) i)) := by
    rw [elOf, eachEl_toNat, bitsAt_foldl_els _ _ hi, elInt_mod]
    rfl
  have hrel := hf l i
  rw [← hel] at hrel
  exact hrel

end

/-! ## The element words (R166) -/

/-- Fields that can be read, fewer of them. -/
theorem State.readable_mono {s : State} {x : Ctx} {c : Ctl} {d : Dst} {srcs srcs' : List Src} {ok : Tag → Bool} {tag : Tag}
    (h : s.readable x c d srcs ok tag) (hs : srcs' ⊆ srcs) : s.readable x c d srcs' ok tag :=
  fun l hl => ⟨(h l hl).1, fun a ha => (h l hl).2 a (hs ha)⟩

/-- The lesser of two elements is an element, and so is the greater. -/
theorem elInt_wrapInt_min (ty : IType) (v w : W64) (i : Nat) :
    elInt (ityW ty) (itySigned ty) (wrapInt (ityW ty) (if elOf ty v i ≤ elOf ty w i then elOf ty v i else elOf ty w i))
      = min (elOf ty v i) (elOf ty w i) := by
  obtain ⟨hv, hv'⟩ := elOf_range ty v i
  obtain ⟨hw, hw'⟩ := elOf_range ty w i
  rw [← min_def, elInt_wrapInt (ityW_pos ty) (le_min hv hw) (min_le_of_left_le hv')]

theorem elInt_wrapInt_max (ty : IType) (v w : W64) (i : Nat) :
    elInt (ityW ty) (itySigned ty) (wrapInt (ityW ty) (if elOf ty w i ≤ elOf ty v i then elOf ty v i else elOf ty w i))
      = max (elOf ty v i) (elOf ty w i) := by
  obtain ⟨hv, hv'⟩ := elOf_range ty v i
  obtain ⟨hw, hw'⟩ := elOf_range ty w i
  rw [max_comm, ← max_def, elInt_wrapInt (ityW_pos ty) (le_max_of_le_left hw) (max_le hw' hv')]

theorem integerElementWords : integerElementWordsRule := by
  unfold integerElementWordsRule
  intro s x c ty d a b e h he hr
  have h1 := State.readable_mono hr (srcs' := [a]) (by simp)
  have h2 := State.readable_mono hr (srcs' := [a, b]) (by simp)
  refine ⟨fun sat => ⟨?_, ?_, ?_, ?_⟩, ?_, ?_, fun hw => ?_, fun u hty => ?_⟩
  · change s.elemsDone x c ty d a b e (execIadd c sat ty d a b s) _
    exact elWord_done h he h2 (fun _ _ => fitsEl_fitEl sat ty _)
  · change s.elemsDone x c ty d a b e (execIsub c sat ty d a b s) _
    exact elWord_done h he h2 (fun _ _ => fitsEl_fitEl sat ty _)
  · change s.elemsDone x c ty d a b e (execImul c sat ty d a b s) _
    exact elWord_done h he h2 (fun _ _ => fitsEl_fitEl sat ty _)
  · change s.elemsDone x c ty d a b e (execIabs c sat ty d a s) _
    exact elWord_done h he h1 (fun _ _ => fitsEl_fitEl sat ty _)
  · change s.elemsDone x c ty d a b e (execImin c ty d a b s) _
    exact elWord_done h he h2 (fun _ i => elInt_wrapInt_min ty _ _ i)
  · change s.elemsDone x c ty d a b e (execImax c ty d a b s) _
    exact elWord_done h he h2 (fun _ i => elInt_wrapInt_max ty _ _ i)
  · change s.elemsDone x c ty d a b e (execImulh c ty d a b s) _
    have hwrap (v : Int) : wrapInt 32 v = fitEl false ty v := congrArg (fun n => wrapInt n v) hw.symm
    refine elWord_done h he h2 (fun _ _ => ?_)
    rw [hwrap]
    exact fitsEl_fitEl false ty _
  · change s.elemsDone x c ty d a b e (execImad c u d a b e s) _
    subst hty
    refine elWord_done h he hr (fun _ _ => ?_)
    cases u <;> exact fitsEl_fitEl false _ _

/-! ## Division (R167) -/

/-- A quotient is no greater than its dividend. -/
theorem natAbs_tdiv_le (p q : Int) : (p.tdiv q).natAbs ≤ p.natAbs := by
  rw [Int.natAbs_tdiv]
  exact Nat.div_le_self _ _

/-- But for the signed overflow, a quotient of two elements is an element. -/
theorem tdiv_range {g : Bool} {p q : Int} (hp : elMin 32 g ≤ p ∧ p ≤ elMax 32 g) (hq : elMin 32 g ≤ q) (hq0 : q ≠ 0)
    (hov : ¬ (g = true ∧ p = -(2 ^ 31) ∧ q = -1)) : elMin 32 g ≤ p.tdiv q ∧ p.tdiv q ≤ elMax 32 g := by
  have hle := natAbs_tdiv_le p q
  cases g with
  | false =>
    have hnn : 0 ≤ p.tdiv q := Int.tdiv_nonneg hp.1 hq
    simp only [elMin, elMax, Bool.false_eq_true, if_false] at hp ⊢
    omega
  | true =>
    simp only [elMin, elMax, if_true] at hp ⊢
    refine ⟨by omega, ?_⟩
    by_cases hm : q = -1
    · have hp' : p ≠ -(2 ^ 31) := fun hp' => hov ⟨rfl, hp', hm⟩
      rw [hm, Int.tdiv_neg, Int.tdiv_one]
      omega
    · by_cases hn : q = 1
      · rw [hn, Int.tdiv_one]
        omega
      · have hhalf := Nat.div_le_div_left (a := p.natAbs) (show 2 ≤ q.natAbs by omega) (by decide)
        have hdiv : (p.tdiv q).natAbs = p.natAbs / q.natAbs := Int.natAbs_tdiv p q
        omega

theorem elInt_idivRes_zero {ty : IType} (hw : ityW ty = 32) (p : Int) : elInt 32 (itySigned ty) (idivRes ty p 0)
    = if ty = .n32 then 2 ^ 32 - 1 else if 0 ≤ p then 2 ^ 31 - 1 else -(2 ^ 31) := by
  cases ty with
  | n32 => rfl
  | i32 => by_cases hp : 0 ≤ p <;> simp [idivRes, hp, elInt, itySigned]
  | i8 | n8 | i4 => exact absurd hw (by decide)

theorem idivRes_ne_zero {ty : IType} (p : Int) {q : Int} (hq : q ≠ 0) : idivRes ty p q = wrapInt 32 (p.tdiv q) := if_neg hq

theorem itySigned_iff {ty : IType} (hw : ityW ty = 32) : itySigned ty = true ↔ ty = .i32 := by
  revert hw
  cases ty <;> decide

theorem elInt_idivRes {ty : IType} (hw : ityW ty = 32) {p q : Int} (hp : elMin 32 (itySigned ty) ≤ p ∧ p ≤ elMax 32 (itySigned ty))
    (hq : elMin 32 (itySigned ty) ≤ q) :
    if q = 0 then elInt 32 (itySigned ty) (idivRes ty p q)
        = (if ty = .n32 then 2 ^ 32 - 1 else if 0 ≤ p then 2 ^ 31 - 1 else -(2 ^ 31))
    else if ty = .i32 ∧ p = -(2 ^ 31) ∧ q = -1 then elInt 32 (itySigned ty) (idivRes ty p q) = -(2 ^ 31)
    else elInt 32 (itySigned ty) (idivRes ty p q) = p.tdiv q := by
  by_cases h0 : q = 0
  · rw [if_pos h0, h0]
    exact elInt_idivRes_zero hw p
  · rw [if_neg h0]
    by_cases hov : ty = .i32 ∧ p = -(2 ^ 31) ∧ q = -1
    · rw [if_pos hov]
      obtain ⟨rfl, rfl, rfl⟩ := hov
      rfl
    · rw [if_neg hov, idivRes_ne_zero p h0]
      rw [← itySigned_iff hw] at hov
      obtain ⟨hlo, hhi⟩ := tdiv_range hp hq h0 hov
      exact elInt_wrapInt (by decide) hlo hhi

theorem elInt_iremRes {g : Bool} {p : Int} (hp : elMin 32 g ≤ p ∧ p ≤ elMax 32 g) (q : Int) :
    elInt 32 g (iremRes p q) = if q = 0 then p else p - p.tdiv q * q := by
  rw [iremRes]
  split_ifs with h0
  · exact elInt_wrapInt (by decide) hp.1 hp.2
  · have hle : (p.tmod q).natAbs ≤ p.natAbs := by
      rw [Int.natAbs_tmod]
      exact Nat.mod_le _ _
    have hpos : 0 ≤ p → 0 ≤ p.tmod q := Int.tmod_nonneg q
    have hneg : 0 ≤ -p → 0 ≤ -p.tmod q := fun h => Int.neg_tmod p q ▸ Int.tmod_nonneg q h
    have hzero : elMin 32 g ≤ 0 ∧ 0 ≤ elMax 32 g := by cases g <;> decide
    rw [mul_comm, ← Int.tmod_def]
    refine elInt_wrapInt (by decide) ?_ ?_ <;> omega

/-- The remainder of the signed overflow is 0. -/
theorem elInt_iremRes_split {g : Bool} {p : Int} (hp : elMin 32 g ≤ p ∧ p ≤ elMax 32 g) (q : Int) (ty : IType) :
    if q = 0 then elInt 32 g (iremRes p q) = p
    else if ty = .i32 ∧ p = -(2 ^ 31) ∧ q = -1 then elInt 32 g (iremRes p q) = 0
    else elInt 32 g (iremRes p q) = p - p.tdiv q * q := by
  rw [elInt_iremRes hp]
  split_ifs with h0 hov
  · rfl
  · obtain ⟨-, rfl, rfl⟩ := hov
    rfl
  · rfl

theorem integerDivision : integerDivisionRule := by
  unfold integerDivisionRule
  intro s x c ty d a b h he hw hr
  have hrange := elOf_range ty
  rw [hw] at hrange
  refine ⟨?_, ?_⟩
  · change s.elemsDone x c ty d a b a (execIdiv c ty d a b s) _
    refine elWord_done h he hr (fun l i => ?_)
    rw [hw]
    exact elInt_idivRes hw (hrange _ i) (hrange _ i).1
  · change s.elemsDone x c ty d a b a (execIrem c ty d a b s) _
    refine elWord_done h he hr (fun l i => ?_)
    rw [hw]
    refine (elInt_iremRes_split (hrange _ i) _ ty)

/-! ## ICMP (R169) -/

/-- The mask of the lanes whose result is not zero, bit by bit. -/
theorem getLsbD_laneMask {x : Ctx} {r : Nat → LRes} {i : Nat} :
    (laneMask (x.lanes.map (fun l => (l, r l)))).getLsbD i = true ↔ i ∈ x.lanes ∧ (r i).val ≠ 0#64 := by
  have hmask : laneMask (x.lanes.map (fun l => (l, r l))) = (maskOf (x.lanes.filter (fun l => (r l).val != 0#64))).setWidth 64 := by
    rw [laneMask, keys_filter_lanes]
  rw [hmask, BitVec.getLsbD_setWidth, Bool.and_eq_true, decide_eq_true_eq]
  by_cases hi : i < 32
  · rw [getLsbD_maskOf hi, List.mem_filter, bne_iff_ne]
    exact and_iff_right (by omega)
  · refine ⟨fun h => ?_, fun h => absurd (Ctx.lt_of_mem_lanes h.1) hi⟩
    rw [BitVec.getLsbD_of_ge _ _ (Nat.le_of_not_lt hi)] at h
    exact absurd h.2 (by decide)

/-- An element of 32 bits, signed or unsigned. -/
theorem elOf_bool (u : Bool) (v : W64) : elOf (if u then .n32 else .i32) v 0 = elInt 32 (!u) v.toNat := by
  have hbits : bitsAt v.toNat 0 32 = v.toNat % 2 ^ 32 := rfl
  cases u <;> exact (congrArg _ hbits).trans (elInt_mod 32 _ _)

theorem narrow_ite_ne_zero (q : Bool) : narrow false (if q = true then 1#64 else 0#64) ≠ 0#64 ↔ q = true := by cases q <;> decide

/-- ICMP answers the lanes in which its condition holds. -/
theorem icmp_done {s : State} {x : Ctx} {c : Ctl} {d : Dst} {a b : Src} (h : s.issues x c) (he : s.errIn = []) (cc : Cond) (u : Bool)
    (hr : s.readable x c d [a, b] (ityAccepts .i32) .i32) {p : Nat → Prop}
    (hp : ∀ l, condHolds cc (elOf (if u then .n32 else .i32) (x.rd s c l a).val 0) (elOf (if u then .n32 else .i32) (x.rd s c l b).val 0)
      = true ↔ p l) :
    ∃ v, s.scaDone x c d (exec (.icmp c cc u d a b) s) v ∧ ∀ i < 64, (v.getLsbD i = true ↔ i ∈ x.lanes ∧ p i) := by
  change ∃ v, s.scaDone x c d (execIcmp c cc u d a b s) v ∧ _
  refine ⟨_, maskWord_done h he (fun l hl => intLane_pass (hr l hl).2) (fun l hl => ⟨rfl, (hr l hl).1, BitVec.zero_and⟩), fun i _ => ?_⟩
  rw [getLsbD_laneMask, ← hp, elOf_bool, elOf_bool]
  refine and_congr_right (fun _ => ?_)
  exact narrow_ite_ne_zero _

theorem icmpWritesTheMask : icmpWritesTheMaskRule := by
  unfold icmpWritesTheMaskRule
  intro s x c u d a b h he hread A B masks
  have hr : s.readable x c d [a, b] (ityAccepts .i32) .i32 := by
    have hacc : (fun t => decide (t = .raw ∨ t = .i32 ∨ t = .n32)) = ityAccepts .i32 := by
      funext t
      cases t <;> rfl
    exact hacc ▸ hread
  exact ⟨icmp_done h he .eq u hr (fun l => beq_iff_eq), icmp_done h he .ne u hr (fun l => bne_iff_ne),
    icmp_done h he .lt u hr (fun l => decide_eq_true_iff), icmp_done h he .le u hr (fun l => decide_eq_true_iff),
    icmp_done h he .gt u hr (fun l => decide_eq_true_iff), icmp_done h he .ge u hr (fun l => decide_eq_true_iff)⟩

/-- Settles O2: an integer word computes each element apart, and what it leaves is what a vector word or a word that answers a mask leaves. -/
theorem integerWords : Obligations.IntegerWords := ⟨integerElementWords, integerDivision, icmpWritesTheMask⟩

end Sys2Proof.Machine
end

section
/-! SUPPORT. Bitwise, shift and bit-field words, selects and moves (O3): the bits of each result, and the lanes that take a value as it
stands. -/

namespace Sys2Proof.Machine

/-! ## A vector field of 32 bits -/

theorem narrow_false_lt (v : W64) : (narrow false v).toNat < 2 ^ 32 := by
  rw [narrow_false_toNat]
  exact Nat.mod_lt _ (by decide)

/-- A 32-bit field reads 32 bits. -/
theorem Ctx.rd_lt (x : Ctx) (s : State) (c : Ctl) (l : Nat) (a : Src) : (x.rd s c l a).val.toNat < 2 ^ 32 := by
  cases a with
  | v n =>
    cases hv : x.coh.thread l with
    | none => simp [Ctx.rd, Ctx.el, hv]
    | some t =>
      have hlt := (t.vreg n.toNat).val.isLt
      simp only [Ctx.rd, Ctx.el, hv, Thread.el, Bool.false_eq_true, if_false, BitVec.toNat_setWidth]
      omega
  | latch n =>
    simp only [Ctx.rd, Ctx.el]
    split
    · exact narrow_false_lt _
    · exact narrow_false_lt _
    · decide
  | _ => exact narrow_false_lt _

theorem getLsbD_narrow (v : W64) {i : Nat} (hi : i < 32) : (narrow false v).getLsbD i = v.getLsbD i := by
  have h64 : i < 64 := by omega
  simp [narrow, hi, h64]

/-! ## The bits of a field -/

theorem bitsAt_testBit (x o n i : Nat) : (bitsAt x o n).testBit i = (decide (i < n) && x.testBit (o + i)) := by
  rw [bitsAt, Nat.testBit_mod_two_pow, Nat.testBit_shiftRight]

/-- The bits [o + n − 1 : o] replaced, bit by bit. -/
theorem putBits_testBit (x o n v i : Nat) :
    (putBits x o n v).testBit i = if o ≤ i ∧ i < o + n then v.testBit (i - o) else x.testBit i := by
  have hx : x = 2 ^ o * (2 ^ n * (x / 2 ^ o / 2 ^ n) + x / 2 ^ o % 2 ^ n) + x % 2 ^ o := by
    rw [Nat.div_add_mod, Nat.div_add_mod]
  have hput : putBits x o n v = 2 ^ o * (2 ^ n * (x / 2 ^ o / 2 ^ n) + v % 2 ^ n) + x % 2 ^ o := by
    rw [putBits, bitsAt_eq]
    conv_lhs => enter [1, 1]; rw [hx]
    rw [Nat.mul_add, Nat.mul_add, Nat.mul_comm (x / 2 ^ o % 2 ^ n), Nat.mul_comm (v % 2 ^ n)]
    omega
  have hlo := Nat.mod_lt x (Nat.two_pow_pos o)
  have hv := Nat.mod_lt v (Nat.two_pow_pos n)
  have hm := Nat.mod_lt (x / 2 ^ o) (Nat.two_pow_pos n)
  rw [hput, Nat.testBit_two_pow_mul_add _ hlo, Nat.testBit_two_pow_mul_add _ hv, Nat.testBit_mod_two_pow, Nat.testBit_mod_two_pow]
  by_cases h1 : i < o
  · rw [if_pos h1, if_neg (by omega)]
    simp [h1]
  · rw [if_neg h1]
    by_cases h2 : i - o < n
    · rw [if_pos h2, if_pos (by omega)]
      simp [h2]
    · rw [if_neg h2, if_neg (by omega), ← Nat.shiftRight_eq_div_pow, ← Nat.shiftRight_eq_div_pow, Nat.testBit_shiftRight,
        Nat.testBit_shiftRight]
      congr 1
      omega

/-- The low bits of an integer, as a word. -/
theorem wrapInt_eq (w : Nat) (z : Int) : wrapInt w z = (BitVec.ofInt w z).toNat := (BitVec.toNat_ofInt z).symm

/-- An element as a word of its width. -/
theorem elInt_true (w x : Nat) : elInt w true x = (BitVec.ofNat w x).toInt := by
  rw [elInt, BitVec.toInt_eq_msb_cond, BitVec.msb_eq_decide, BitVec.toNat_ofNat]
  rfl

theorem elInt_false (w x : Nat) : elInt w false x = ((BitVec.ofNat w x).toNat : Int) := by
  rw [BitVec.toNat_ofNat]
  rfl

/-- An element extended to 32 bits. -/
theorem wrapInt_elInt_testBit {n : Nat} (hn : n ≠ 0) (sx : Bool) (x : Nat) {i : Nat} (hi : i < 32) :
    (wrapInt 32 (elInt n sx x)).testBit i = if i < n then x.testBit i else sx && x.testBit (n - 1) := by
  have hbit (j : Nat) : (BitVec.ofNat n x).getLsbD j = (decide (j < n) && x.testBit j) := by rw [BitVec.getLsbD_ofNat]
  rw [wrapInt_eq]
  cases sx with
  | false =>
    rw [elInt_false, BitVec.ofInt_natCast, BitVec.ofNat_toNat, BitVec.testBit_toNat, BitVec.getLsbD_setWidth, hbit]
    simp [hi]
  | true =>
    rw [elInt_true, BitVec.testBit_toNat, ← BitVec.signExtend, BitVec.getLsbD_signExtend, BitVec.msb_eq_getLsbD_last, hbit, hbit]
    have hn' : n - 1 < n := by omega
    by_cases h : i < n <;> simp [hi, h, hn']

/-! ## The results of R168 -/

theorem shl_narrow (p q : W64) : (narrow false (if 32 ≤ shAmt q then 0#64 else p <<< shAmt q)).toNat = p.toNat * 2 ^ (q.toNat % 256) % 2 ^ 32 := by
  rw [narrow_false_toNat, shAmt_eq]
  split
  · rename_i h
    have hdvd : 2 ^ 32 ∣ p.toNat * 2 ^ (q.toNat % 256) := Dvd.dvd.mul_left (pow_dvd_pow 2 h) _
    rw [Nat.mod_eq_zero_of_dvd hdvd]
    rfl
  · rw [BitVec.toNat_shiftLeft, Nat.shiftLeft_eq, Nat.mod_mod_of_dvd _ (by decide)]

theorem shr_narrow {p : W64} (hp : p.toNat < 2 ^ 32) (q : W64) :
    (narrow false (if 32 ≤ shAmt q then 0#64 else p >>> shAmt q)).toNat = p.toNat / 2 ^ (q.toNat % 256) := by
  rw [narrow_false_toNat, shAmt_eq]
  split
  · rename_i h
    have hpow : 2 ^ 32 ≤ 2 ^ (q.toNat % 256) := Nat.pow_le_pow_right (by decide) h
    rw [Nat.div_eq_of_lt (by omega)]
    rfl
  · rw [BitVec.toNat_ushiftRight, Nat.shiftRight_eq_div_pow, Nat.mod_eq_of_lt (lt_of_le_of_lt (Nat.div_le_self _ _) hp)]

theorem setWidth_narrow_setWidth (v : W32) : (narrow false (v.setWidth 64)).setWidth 32 = v := by
  apply BitVec.eq_of_toNat_eq
  have hv := v.isLt
  rw [BitVec.toNat_setWidth, narrow_false_toNat, BitVec.toNat_setWidth]
  omega

theorem sar_narrow (p q : W64) : (narrow false (((p.setWidth 32).sshiftRight (if 32 ≤ shAmt q then 31 else shAmt q)).setWidth 64)).setWidth 32
    = BitVec.ofInt 32 ((p.setWidth 32 : W32).toInt / 2 ^ (q.toNat % 256)) := by
  rw [setWidth_narrow_setWidth, shAmt_eq, sshiftRight_eq_ofInt]
  split
  · have hlo := (p.setWidth 32 : W32).le_two_mul_toInt
    have hhi := (p.setWidth 32 : W32).two_mul_toInt_lt
    rw [ediv_two_pow_of_le (w := 31) (n := q.toNat % 256) (by omega) (by omega) (by omega)]
  · rfl

theorem rot_narrow (p q : W64) {i : Nat} (hi : i < 32) :
    (narrow false (((p.setWidth 32).rotateLeft (q.toNat % 32)).setWidth 64)).getLsbD ((i + q.toNat % 32) % 32) = p.getLsbD i := by
  have hr := Nat.mod_lt q.toNat (show 0 < 32 by decide)
  have hj := Nat.mod_lt (i + q.toNat % 32) (show 0 < 32 by decide)
  rw [getLsbD_narrow _ hj, BitVec.getLsbD_setWidth, BitVec.getLsbD_rotateLeft, Nat.mod_mod]
  have hidx : if (i + q.toNat % 32) % 32 < q.toNat % 32 then 32 - q.toNat % 32 + (i + q.toNat % 32) % 32 = i
      else (i + q.toNat % 32) % 32 - q.toNat % 32 = i := by
    split <;> omega
  generalize (i + q.toNat % 32) % 32 = j at hj hidx ⊢
  have h64 : j < 64 := by omega
  by_cases hw : j < q.toNat % 32
  · rw [if_pos hw] at hidx
    simp [hw, h64, hidx, hi]
  · rw [if_neg hw] at hidx
    simp [hw, h64, hj, hidx, hi]

theorem bfe_narrow (sx : Bool) {p : W64} (hp : p.toNat < 2 ^ 32) (q : W64) {i : Nat} (hi : i < 32) :
    (narrow false (bfeRes sx p q)).getLsbD i
      = if q.toNat / 256 % 256 = 0 ∨ 32 ≤ q.toNat % 256 then false
        else if i < q.toNat / 256 % 256 then p.getLsbD (q.toNat % 256 + i)
        else sx && p.getLsbD (q.toNat % 256 + q.toNat / 256 % 256 - 1) := by
  have h64 : i < 64 := by omega
  rw [getLsbD_narrow _ hi, bfeRes]
  simp only
  split
  · exact BitVec.getLsbD_zero
  · rename_i h
    have hn : q.toNat / 256 % 256 ≠ 0 := fun e => h (.inl e)
    have hlast : q.toNat / 256 % 256 - 1 < q.toNat / 256 % 256 := by omega
    have hidx : q.toNat % 256 + (q.toNat / 256 % 256 - 1) = q.toNat % 256 + q.toNat / 256 % 256 - 1 := by omega
    rw [BitVec.getLsbD_ofNat, wrapInt_elInt_testBit hn sx _ hi, Nat.mod_eq_of_lt hp, bitsAt_testBit, bitsAt_testBit, hidx,
      BitVec.testBit_toNat, BitVec.testBit_toNat]
    split <;> simp_all

theorem bfi_narrow (p q z : W64) (hq : q.toNat < 2 ^ 32) {i : Nat} (hi : i < 32) :
    (narrow false (bfiRes p q z)).getLsbD i
      = if z.toNat % 256 ≤ i ∧ i < z.toNat % 256 + z.toNat / 256 % 256 then p.getLsbD (i - z.toNat % 256) else q.getLsbD i := by
  have h64 : i < 64 := by omega
  rw [getLsbD_narrow _ hi, bfiRes]
  split
  · rw [if_neg (by omega)]
  · rename_i h
    rw [BitVec.getLsbD_ofNat, putBits_testBit, Nat.mod_eq_of_lt hq, BitVec.testBit_toNat, BitVec.testBit_toNat]
    have hiff : z.toNat % 256 ≤ i ∧ i < z.toNat % 256 + ((if z.toNat % 256 + z.toNat / 256 % 256 < 32
        then z.toNat % 256 + z.toNat / 256 % 256 else 32) - z.toNat % 256)
        ↔ z.toNat % 256 ≤ i ∧ i < z.toNat % 256 + z.toNat / 256 % 256 := by
      split <;> omega
    simp only [hiff, h64, decide_true, Bool.true_and]

theorem popc_narrow (p : W64) : (narrow false (BitVec.ofNat 64 (popcount (p.setWidth 32)))).toNat
    = (List.range 32).countP (fun i => p.getLsbD i) := by
  have hle : (List.range 32).countP (fun i => p.getLsbD i) ≤ 32 := List.countP_le_length.trans_eq List.length_range
  have hpop : popcount (p.setWidth 32) = (List.range 32).countP (fun i => p.getLsbD i) := by
    rw [popcount_eq]
    refine List.countP_congr (fun i hi => ?_)
    simp [List.mem_range.1 hi]
  rw [narrow_false_toNat, BitVec.toNat_ofNat, hpop]
  omega

theorem clz_narrow {p : W64} (hp : p.toNat < 2 ^ 32) {v : W64} (hv : v = narrow false (BitVec.ofNat 64 (32 - bitLen (p.toNat % 2 ^ 32)))) :
    v.toNat ≤ 32 ∧ (∀ i < 32, 32 ≤ i + v.toNat → p.getLsbD i = false) ∧ (v.toNat < 32 → p.getLsbD (31 - v.toNat) = true) := by
  have hval : v.toNat = 32 - bitLen p.toNat := by
    rw [hv, narrow_false_toNat, BitVec.toNat_ofNat, Nat.mod_eq_of_lt hp]
    omega
  rw [hval, bitLen]
  by_cases h0 : p.toNat = 0
  · have hz : p = 0#64 := BitVec.eq_of_toNat_eq h0
    simp [hz]
  · have hlog := (Nat.log2_lt h0).2 hp
    rw [if_neg h0]
    refine ⟨by omega, fun i _ hle => Nat.testBit_lt_two_pow ((Nat.log2_lt h0).1 (by omega)), fun _ => ?_⟩
    rw [show 31 - (32 - (p.toNat.log2 + 1)) = p.toNat.log2 by omega]
    exact Nat.testBit_log2 h0

theorem bitRev_getLsbD {w : Nat} (x : BitVec w) {i : Nat} (hi : i < w) : (bitRev x).getLsbD i = x.getLsbD (w - 1 - i) := by
  have hor : bitRev x = (List.range w).foldl (fun r j => r ||| (if x.getLsbD j then 1#w <<< (w - 1 - j) else 0#w)) 0#w := by
    rw [bitRev]
    congr 1
    funext r j
    split <;> simp
  rw [hor, Bool.eq_iff_iff, getLsbD_foldl_or]
  constructor
  · rintro (h | ⟨j, hj, hb⟩)
    · simp at h
    · split at hb
      · rename_i hx
        rw [← BitVec.twoPow_eq, BitVec.getLsbD_twoPow, Bool.and_eq_true, decide_eq_true_eq, decide_eq_true_eq] at hb
        rw [show w - 1 - i = j by have := List.mem_range.1 hj; omega]
        exact hx
      · simp at hb
  · refine fun hx => .inr ⟨w - 1 - i, List.mem_range.2 (by omega), ?_⟩
    rw [if_pos hx, ← BitVec.twoPow_eq, BitVec.getLsbD_twoPow]
    simp only [Bool.and_eq_true, decide_eq_true_eq]
    omega

theorem brev_narrow (p : W64) {i : Nat} (hi : i < 32) : (narrow false ((bitRev (p.setWidth 32 : W32)).setWidth 64)).getLsbD i = p.getLsbD (31 - i) := by
  have h64 : i < 64 := by omega
  have h31 : 31 - i < 32 := by omega
  rw [getLsbD_narrow _ hi, BitVec.getLsbD_setWidth, bitRev_getLsbD _ hi]
  simp [h64, h31]

/-! ## Bitwise words complete (R168) -/

section
variable {s : State} {x : Ctx} {c : Ctl} {d : Dst}

/-- A bitwise word: the relation holds in each lane. -/
theorem bitWord_done (h : s.issues x c) (he : s.errIn = []) {srcs : List Src} {a b e : Src} {g : W64 → W64 → W64 → W64}
    {f : W64 → W64 → W64 → W64 → Prop} (hr : s.readable x c d srcs (fun _ => true) .raw)
    (hf : ∀ l, f (x.rd s c l a).val (x.rd s c l b).val (x.rd s c l e).val
      (narrow false (g (x.operand s c srcs l 0) (x.operand s c srcs l 1) (x.operand s c srcs l 2)))) :
    s.bitsDone x c d a b e (bitWord c s d srcs g) f :=
  ⟨_, intWord_done h he hr, fun l _ => ⟨LRes.flat_plain _ _ _, hf l⟩⟩

end

theorem bitwiseWords : bitwiseWordsRule := by
  unfold bitwiseWordsRule
  intro s x c d a b e h he hr
  have h1 := State.readable_mono hr (srcs' := [a]) (by simp)
  have h2 := State.readable_mono hr (srcs' := [a, b]) (by simp)
  have hlt (l : Nat) (q : Src) := x.rd_lt s c l q
  refine ⟨?_, ?_, ?_, ?_, ?_, ?_, ?_, ?_, ?_, fun sx => ?_, ?_, ?_, ?_, ?_⟩
  · change s.bitsDone x c d a b e (execVand c d a b s) _
    exact bitWord_done h he h2 (fun l i hi => by rw [getLsbD_narrow _ hi, BitVec.getLsbD_and]; rfl)
  · change s.bitsDone x c d a b e (execVor c d a b s) _
    exact bitWord_done h he h2 (fun l i hi => by rw [getLsbD_narrow _ hi, BitVec.getLsbD_or]; rfl)
  · change s.bitsDone x c d a b e (execVxor c d a b s) _
    exact bitWord_done h he h2 (fun l i hi => by rw [getLsbD_narrow _ hi, BitVec.getLsbD_xor]; rfl)
  · change s.bitsDone x c d a b e (execVandn c d a b s) _
    exact bitWord_done h he h2 (fun l i hi => by
      rw [getLsbD_narrow _ hi, BitVec.getLsbD_and, BitVec.getLsbD_not, decide_eq_true (by omega), Bool.true_and]; rfl)
  · change s.bitsDone x c d a b e (execVnot c d a s) _
    exact bitWord_done h he h1 (fun l i hi => by
      rw [getLsbD_narrow _ hi, BitVec.getLsbD_not, decide_eq_true (by omega), Bool.true_and]; rfl)
  · change s.bitsDone x c d a b e (execShl c d a b s) _
    exact bitWord_done h he h2 (fun l => shl_narrow _ _)
  · change s.bitsDone x c d a b e (execShr c d a b s) _
    exact bitWord_done h he h2 (fun l => shr_narrow (hlt l a) _)
  · change s.bitsDone x c d a b e (execSar c d a b s) _
    exact bitWord_done h he h2 (fun l => sar_narrow _ _)
  · change s.bitsDone x c d a b e (execRot c d a b s) _
    exact bitWord_done h he h2 (fun l i hi => rot_narrow _ _ hi)
  · change s.bitsDone x c d a b e (execBfe c sx d a b s) _
    exact bitWord_done h he h2 (fun l i hi => bfe_narrow sx (hlt l a) _ hi)
  · change s.bitsDone x c d a b e (execBfi c d a b e s) _
    exact bitWord_done h he hr (fun l i hi => bfi_narrow _ _ _ (hlt l b) hi)
  · change s.bitsDone x c d a b e (execPopc c d a s) _
    exact bitWord_done h he h1 (fun l => popc_narrow _)
  · change s.bitsDone x c d a b e (execClz c d a s) _
    exact bitWord_done h he h1 (fun l => clz_narrow (hlt l a) rfl)
  · change s.bitsDone x c d a b e (execBrev c d a s) _
    exact bitWord_done h he h1 (fun l i hi => brev_narrow _ hi)

/-! ## Selects and moves (R169) -/

theorem El.moved_eq (e : El) (a : Src) : e.moved a = movedTag e a := by
  obtain ⟨v, tag, psn, tan, tpsn⟩ := e
  cases tag <;> cases a <;> rfl

/-- A destination that takes a tag fits a result that has it. -/
theorem Ctx.dstFits_of_takes {x : Ctx} {d : Dst} {l : Nat} {r : LRes} (h : x.takes d l r.tag r.wide) (hk : r.keep = false) :
    x.dstFits d l r = true := by
  obtain ⟨v, w, tag, tan, psn, c, keep⟩ := r
  cases hk
  exact h

section
variable {s : State} {x : Ctx} {c : Ctl} {d : Dst} {w : Bool}

/-- What a lane that takes a value as it stands holds. -/
theorem moveLane_eq (l : Nat) (a : Src) (as : Option Tag) : moveLane x s c w l a as
    = ⟨(x.el s.clk c.lit w l a).val, w, as.getD (movedTag (x.el s.clk c.lit w l a) a), (x.el s.clk c.lit w l a).tan,
      (x.el s.clk c.lit w l a).poisoned x.want, 0#3, false⟩ := by
  rw [moveLane, El.moved_eq]

/-- A clean value that the destination takes can be moved. -/
theorem moveLane_runs {l : Nat} {a : Src} {as : Option Tag} (hp : (x.el s.clk c.lit w l a).poisoned x.want = false)
    (ht : x.takes d l (as.getD (movedTag (x.el s.clk c.lit w l a) a)) w) :
    (moveLane x s c w l a as).psn = false ∧ x.dstFits d l (moveLane x s c w l a as) = true
      ∧ (moveLane x s c w l a as).c &&& x.grid.lrec.trapen = 0#3 := by
  rw [moveLane_eq]
  exact ⟨hp, Ctx.dstFits_of_takes ht rfl, BitVec.zero_and⟩

/-- A lane of MOVS that keeps its destination fits it, and meets nothing. -/
theorem keepLane_runs {l : Nat} (hd : evenPair d w) : (keepLane x s w l d).psn = false ∧ x.dstFits d l (keepLane x s w l d) = true
    ∧ (keepLane x s w l d).c &&& x.grid.lrec.trapen = 0#3 ∧ (keepLane x s w l d).keep = true := by
  cases d with
  | v n =>
    refine ⟨rfl, ?_, BitVec.zero_and, rfl⟩
    have hpair : (!w || n.toNat % 2 == 0) = true := by
      cases w
      · rfl
      · simpa using hd rfl
    simp only [Ctx.dstFits, keepLane, hpair]
    cases x.dxMode <;> rfl
  | seed =>
    refine ⟨rfl, ?_, BitVec.zero_and, rfl⟩
    have hw : w = false := hd
    simp only [Ctx.dstFits, keepLane, hw]
    cases x.dxMode <;> rfl
  | _ =>
    refine ⟨rfl, ?_, BitVec.zero_and, rfl⟩
    simp only [Ctx.dstFits, keepLane]
    cases x.dxMode <;> rfl

end

/-- A free value used moves its counter alone (log entry 3). -/
theorem State.keeps_free (s : State) (n : Nat) : s.keeps { s with free := n } (fun q => q = .names) := by
  intro p hp
  cases p with
  | names => exact absurd rfl hp
  | cur | xlat => exact ⟨rfl, rfl⟩
  | byte st a | full st a | psn st a => cases st <;> rfl
  | _ => rfl

/-- What MOVS does beside its lanes: with NWB it uses free values. -/
theorem State.keeps_movs (s : State) (d : Dst) :
    s.keeps (if d = .nwb then { s with free := s.free + 64 } else s) (fun q => d = .nwb ∧ q = .names) := by
  split
  · exact State.keeps_mono (s.keeps_free _) (fun _ hp => ⟨‹_›, hp⟩)
  · exact s.keeps_refl _

theorem selectsAndMoves : selectsAndMovesRule := by
  unfold selectsAndMovesRule
  intro s x c w d p a b h he M e moves free
  refine ⟨fun hfree => ?_, fun as hfree => ?_, fun hfree => ?_⟩
  · change ∃ r, s.vecDone x c d (execSel c w d p a b s) r ∧ _
    refine ⟨_, vecWord_done h he (fun l _ => rfl) (fun l hl => moveLane_runs (hfree l hl).1 (hfree l hl).2), fun l _ => ?_⟩
    rw [moveLane_eq]
    exact ⟨rfl, rfl, rfl, rfl, rfl⟩
  · change ∃ r, s.vecDone x c d (execMov c w as d a s) r ∧ _
    refine ⟨_, vecWord_done h he (fun l _ => rfl) (fun l hl => moveLane_runs (hfree l hl).1 (hfree l hl).2), fun l _ => ?_⟩
    rw [moveLane_eq]
    exact ⟨rfl, rfl, rfl, rfl, rfl⟩
  · change ∃ r, s.vecDoneBut x c d (execMovs c w d p a s) r _ ∧ _
    have hcoh (q : CohRef) : (if d = .nwb then { s with free := s.free + 64 } else s).coh q = s.coh q := by split <;> rfl
    refine ⟨fun l => if M.getLsbD l then moveLane x s c w l a none else keepLane x s w l d,
      vecBody_done h he (s.keeps_movs d) hcoh (fun l _ => rfl) (fun l hl => ?_), fun l hl => ?_⟩
    · have hl' := hfree l hl
      split_ifs at hl' ⊢
      · exact moveLane_runs hl'.1 hl'.2
      · obtain ⟨hp, hd, hc, -⟩ := keepLane_runs (s := s) (x := x) (l := l) hl'
        exact ⟨hp, hd, hc⟩
    · have hl' := hfree l hl
      beta_reduce
      split_ifs at hl' ⊢
      · rw [moveLane_eq]
        exact ⟨rfl, rfl, rfl, rfl, rfl⟩
      · obtain ⟨-, -, -, hk⟩ := keepLane_runs (s := s) (x := x) (l := l) hl'
        exact hk

/-- Settles O3: a bitwise word is an integer word of any tag, and a move gives its lanes what they read. -/
theorem bitwiseWordsSelectsAndMoves : Obligations.BitwiseWordsSelectsAndMoves := ⟨bitwiseWords, selectsAndMoves⟩

end Sys2Proof.Machine
end

section
/-! SUPPORT. Floating-point words (O4, O5): the elements of a register put together, what a floating-point word leaves in its lanes, and
the values of each word. -/

namespace Sys2Proof.Machine

/-! ## The elements of a register -/

theorem count_mul_width_le (t : Tag) : t.count * t.width ≤ 64 := by cases t <;> decide

theorem joinEls_lt (t : Tag) (xs : List Nat) : t.joinEls xs < 2 ^ (xs.length * t.width) := by
  induction xs with
  | nil => simp [Tag.joinEls]
  | cons y r ih =>
    have hmod := Nat.mod_lt y (Nat.two_pow_pos t.width)
    have hmul := Nat.mul_le_mul_right (2 ^ t.width) (Nat.succ_le_of_lt ih)
    rw [Nat.succ_mul] at hmul
    rw [List.length_cons, Nat.succ_mul, Nat.pow_add]
    exact lt_of_lt_of_le (Nat.add_lt_add_right hmod _) (by rw [Nat.add_comm]; exact hmul)

theorem bitsAt_joinEls (t : Tag) (xs : List Nat) (i : Nat) : bitsAt (t.joinEls xs) (i * t.width) t.width = xs.getD i 0 % 2 ^ t.width := by
  induction xs generalizing i with
  | nil => simp [bitsAt_eq, Tag.joinEls]
  | cons y r ih =>
    have hjoin : t.joinEls (y :: r) = y % 2 ^ t.width + t.joinEls r * 2 ^ t.width := rfl
    rw [bitsAt_eq, hjoin]
    cases i with
    | zero => simp
    | succ i =>
      rw [Nat.succ_mul, Nat.add_comm (i * t.width), Nat.pow_add, ← Nat.div_div_eq_div_mul, Nat.add_mul_div_right _ _ (Nat.two_pow_pos _),
        Nat.div_eq_of_lt (Nat.mod_lt _ (Nat.two_pow_pos _)), Nat.zero_add, ← bitsAt_eq, ih]
      rfl

theorem getD_elems (t : Tag) (v : Nat) {i : Nat} (hi : i < t.count) : (t.elems v).getD i 0 = bitsAt v (i * t.width) t.width := by
  simp [Tag.elems, hi]

theorem getD_elems_lt (t : Tag) (v i : Nat) : (t.elems v).getD i 0 < 2 ^ t.width := by
  by_cases hi : i < t.count
  · rw [getD_elems t v hi]
    exact bitsAt_lt _ _ _
  · rw [List.getD_eq_default _ _ (by simpa [Tag.elems] using hi)]
    exact Nat.two_pow_pos _

/-- The elements that a register was put together from. -/
theorem getD_elems_joinEls {t : Tag} {xs : List Nat} (hlen : xs.length ≤ t.count) {i : Nat} (hi : i < t.count) (hx : xs.getD i 0 < 2 ^ t.width) :
    (t.elems (BitVec.ofNat 64 (t.joinEls xs)).toNat).getD i 0 = xs.getD i 0 := by
  have hle : 2 ^ (xs.length * t.width) ≤ 2 ^ 64 :=
    Nat.pow_le_pow_right (by decide) (le_trans (Nat.mul_le_mul_right _ hlen) (count_mul_width_le t))
  rw [BitVec.toNat_ofNat, Nat.mod_eq_of_lt (lt_of_lt_of_le (joinEls_lt t xs) hle), getD_elems t _ hi, bitsAt_joinEls, Nat.mod_eq_of_lt hx]

/-- The same for elements computed from their positions. -/
theorem getD_elems_range {t : Tag} {g : Nat → Nat} {i : Nat} (hi : i < t.count) (hg : g i < 2 ^ t.width) :
    (t.elems (BitVec.ofNat 64 (t.joinEls ((List.range t.count).map g))).toNat).getD i 0 = g i := by
  have hget : ((List.range t.count).map g).getD i 0 = g i := by simp [hi]
  rw [getD_elems_joinEls (by simp) hi (by rwa [hget]), hget]

theorem getD_elems_zero (t : Tag) (i : Nat) : (t.elems 0).getD i 0 = 0 := by
  by_cases hi : i < t.count
  · rw [getD_elems t 0 hi, bitsAt_eq, Nat.zero_div, Nat.zero_mod]
  · exact List.getD_eq_default _ _ (by simpa [Tag.elems] using hi)

theorem get_mapLanes {α : Type} {ls : List Nat} (g : Nat → α) (d : α) {k : Nat} (hk : k ∈ ls) : AMap.get (ls.map (fun k => (k, g k))) k d = g k := by
  rw [AMap.get, find_mapLanes, if_pos hk]
  rfl

/-! ## Packed elements fit their format -/

theorem pack_lt {f : Tag} (hf : f.isFp = true) (r : Rnd) (sat u : Bool) (v : FVal) : (f.pack r sat u v).bits < 2 ^ f.width := by
  cases f with
  | f32 => exact pack_f32_lt r sat u v
  | f64 => exact pack_f64_lt r sat u v
  | h16 =>
    cases v with
    | nan => exact (by decide : 0x7E00 < 2 ^ 16)
    | inf s => cases s <;> cases sat <;> simp [Tag.pack, Tag.maxCode, Tag.infCode, Tag.lay, lay16, Tag.signBit, Tag.width]
    | fin s m e => exact Lay.packed_lt (l := lay16) (by decide) (by cases r <;> cases sat <;> cases s <;> decide)
  | b16 =>
    cases v with
    | nan => exact (by decide : 0x7FC0 < 2 ^ 16)
    | inf s => cases s <;> cases sat <;> simp [Tag.pack, Tag.maxCode, Tag.infCode, Tag.lay, layB16, Tag.signBit, Tag.width]
    | fin s m e => exact Lay.packed_lt (l := layB16) (by decide) (by cases r <;> cases sat <;> cases s <;> decide)
  | _ => exact absurd hf (by decide)

theorem nanCode_lt {f : Tag} (hf : f.isFp = true) : f.nanCode < 2 ^ f.width := by
  revert hf
  cases f <;> decide

theorem op3_lt (f : Tag) (es : List El) (k i : Nat) : (op3 f es k i).a < 2 ^ f.width ∧ (op3 f es k i).b < 2 ^ f.width
    ∧ (op3 f es k i).ta < 2 ^ f.width ∧ (op3 f es k i).tb < 2 ^ f.width :=
  ⟨getD_elems_lt _ _ _, getD_elems_lt _ _ _, getD_elems_lt _ _ _, getD_elems_lt _ _ _⟩

/-! ## Floating-point words complete -/

section
variable {want : List Nat} {f tag : Tag} {es : List El} {prim : Op3 → BRes} {tanf : Nat → Op3 → Nat} {i : Nat}

/-- An element of what a lane computes. -/
theorem fmtRes_elem (hi : i < f.count) (hb : (prim (op3 f es 0 i)).bits < 2 ^ f.width) :
    (f.elems (fmtRes want f tag es prim tanf).val.toNat).getD i 0 = (prim (op3 f es 0 i)).bits := by
  rw [fmtRes, List.map_map]
  exact getD_elems_range (g := fun i => (prim (op3 f es 0 i)).bits) hi hb

/-- An element of a tangent that a lane computes. -/
theorem fmtRes_tan {k : Nat} (hk : k ∈ want) (hi : i < f.count)
    (hb : tanf (prim (op3 f es 0 i)).bits (op3 f es k i) < 2 ^ f.width) :
    (f.elems ((fmtRes want f tag es prim tanf).tan.get k 0#64).toNat).getD i 0 = tanf (prim (op3 f es 0 i)).bits (op3 f es k i) := by
  have hget : (((List.range f.count).map (fun i => prim (op3 f es 0 i)))[i]?.map (·.bits)).getD 0 = (prim (op3 f es 0 i)).bits := by
    simp [hi]
  rw [← hget] at hb ⊢
  rw [fmtRes]
  dsimp only
  rw [get_mapLanes _ _ hk]
  exact getD_elems_range hi hb

/-- A lane none of whose elements meets an enabled condition meets none. -/
theorem fmtRes_quiet {en : Cnd} (h : ∀ i < f.count, (prim (op3 f es 0 i)).c &&& en = 0#3) : (fmtRes want f tag es prim tanf).c &&& en = 0#3 := by
  by_contra hne
  obtain ⟨j, -, hj⟩ := bitVec_ne_zero_iff.1 hne
  rw [BitVec.getLsbD_and, Bool.and_eq_true, fmtRes_c] at hj
  obtain ⟨⟨i, hi, hc⟩, hen⟩ := hj
  have hz := congrArg (fun v => v.getLsbD j) (h i hi)
  simp [hc, hen] at hz

end

/-- A word whose lanes compute what `prim` and `tan` say, wherever their operands can be read. -/
theorem fpDone_of_lanes {s : State} {x : Ctx} {c : Ctl} {d : Dst} {srcs srcs' : List Src} {u : Nat} {lane : Ctx → Nat → Option LRes}
    {prim : Nat → Tag → Op3 → BRes} {tan : Nat → Tag → Nat → Op3 → BRes} (h : s.issues x c) (he : s.errIn = [])
    (hlane : ∀ l ∈ x.lanes, ∀ es, fpReads s x c d srcs l es → lane { x with smp := s.sampleOf x } l
      = (let f := x.fmt s.clk l .f32 srcs; some (fmtRes x.want f f es (prim l f) (fun q o => (tan l f q o).bits))))
    (hprim : ∀ l f es i, f.isFp = true → (prim l f (op3 f es 0 i)).bits < 2 ^ f.width)
    (htan : ∀ l f es k i q, f.isFp = true → (tan l f q (op3 f es k i)).bits < 2 ^ f.width) :
    fpDone s x c d srcs (vecWord c s u d srcs' lane) prim tan := by
  intro es hes
  refine ⟨_, vecWord_done h he (fun l hl => hlane l hl (es l) (hes l hl).1) (fun l hl => ?_), fun l hl => ⟨rfl, rfl, rfl, fun i hi => ?_⟩⟩
  · obtain ⟨⟨-, -, hclean, htakes⟩, hquiet⟩ := hes l hl
    exact ⟨List.any_eq_false.2 (fun e he => Bool.eq_false_iff.1 (hclean e he)), htakes, fmtRes_quiet hquiet⟩
  · obtain ⟨⟨hfp, -⟩, -⟩ := hes l hl
    exact ⟨fmtRes_elem hi (hprim l _ _ i hfp), fun k hk => fmtRes_tan hk hi (htan l _ _ k i _ hfp)⟩

/-- The same for a word of one rule for all lanes. -/
theorem fpWord_done {s : State} {x : Ctx} {c : Ctl} {d : Dst} {srcs : List Src} {u : Nat} {prim : Tag → Op3 → BRes} {tan : Tag → Nat → Op3 → BRes}
    (h : s.issues x c) (he : s.errIn = []) (hprim : ∀ f es i, f.isFp = true → (prim f (op3 f es 0 i)).bits < 2 ^ f.width)
    (htan : ∀ f es k i q, f.isFp = true → (tan f q (op3 f es k i)).bits < 2 ^ f.width) :
    fpDone s x c d srcs (fpWord c s u d srcs prim (fun f q o => (tan f q o).bits)) (fun _ => prim) (fun _ => tan) :=
  fpDone_of_lanes h he (fun l _ _ hread => (fpLane_smp x _ l).trans (fpLane_eq hread)) (fun _ => hprim) (fun _ => htan)

theorem floatingPointArithmetic : floatingPointArithmeticRule := by
  unfold floatingPointArithmeticRule
  intro s x c m d a b e h he v mul fma
  have hlt {f : Tag} {r : Rnd} {y : FRes} (hf : f.isFp = true) : (y.pack f r).bits < 2 ^ f.width := pack_lt hf _ _ _ _
  refine ⟨?_, ?_, ?_, ?_, ?_, ?_⟩
  · change fpDone s x c d [a, b] (execFadd c m d a b s) _ _
    exact fpWord_done h he (fun _ _ _ hf => hlt hf) (fun _ _ _ _ _ hf => hlt hf)
  · change fpDone s x c d [a, b] (execFsub c m d a b s) _ _
    exact fpWord_done h he (fun _ _ _ hf => hlt hf) (fun _ _ _ _ _ hf => hlt hf)
  · change fpDone s x c d [a, b] (execFmul c m d a b s) _ _
    exact fpWord_done h he (fun _ _ _ hf => hlt hf) (fun _ _ _ _ _ hf => hlt hf)
  · change fpDone s x c d [a, b, e] (execFfma c m d a b e s) _ _
    exact fpWord_done h he (fun _ _ _ hf => hlt hf) (fun _ _ _ _ _ hf => hlt hf)
  · change fpDone s x c d [a, b] (execFdiv c m d a b s) _ _
    exact fpWord_done h he (fun _ _ _ hf => hlt hf) (fun _ _ _ _ _ hf => hlt hf)
  · change fpDone s x c d [a] (execFsqrt c m d a s) _ _
    exact fpWord_done h he (fun _ _ _ hf => hlt hf) (fun _ _ _ _ _ hf => hlt hf)

/-! ## Lanes one by one -/

/-- What a result needs of its lane for the word to complete (R161). -/
def Ctx.laneRuns (x : Ctx) (d : Dst) (l : Nat) (r : LRes) : Prop := r.psn = false ∧ x.dstFits d l r = true ∧ r.c &&& x.grid.lrec.trapen = 0#3

/-- A vector word completes where each lane of EXEC has a result that runs. -/
theorem vecWord_done_of_lanes {s : State} {x : Ctx} {c : Ctl} {u : Nat} {d : Dst} {srcs : List Src} {f : Ctx → Nat → Option LRes}
    (h : s.issues x c) (he : s.errIn = []) {r : Nat → LRes → Prop}
    (hlane : ∀ l ∈ x.lanes, ∃ q, f { x with smp := s.sampleOf x } l = some q ∧ x.laneRuns d l q ∧ r l q) :
    ∃ q, s.vecDone x c d (vecWord c s u d srcs f) q ∧ ∀ l ∈ x.lanes, r l (q l) := by
  have : Nonempty LRes := ⟨.plain 0#64 .raw false⟩
  choose! q hf hrun hr using hlane
  exact ⟨q, vecWord_done h he hf hrun, hr⟩

/-! ## Dot products (R175) -/

/-- What a lane of a dot product computes from its operands. -/
def dotRes (want : List Nat) (f : Tag) (m : Rnd) (ea eb ec : El) : LRes :=
  let p := (fDot m ((dotVals f ea.val.toNat).zip (dotVals f eb.val.toNat))).pack .f32 m
  let q := opAdd .f32 m p.bits ec.val.toNat
  ⟨BitVec.ofNat 64 q.bits, false, .f32, want.map (fun k => (k, BitVec.ofNat 64 (opAdd .f32 .rne
    ((fDot .rne ((dotVals f (ea.tn k)).zip (dotVals f eb.val.toNat) ++ (dotVals f ea.val.toNat).zip (dotVals f (eb.tn k)))).pack .f32 .rne).bits
    (ec.tn k)).bits)), ea.poisoned want || eb.poisoned want || ec.poisoned want, p.c ||| q.c, false⟩

theorem dotLane_eq {c : Ctl} {s : State} {x : Ctx} {l : Nat} {ok : Tag → Bool} {dflt : Tag} {m : Rnd} {a b e : Src} {ea eb ec : El}
    (hok : ok (x.fmt s.clk l dflt [a, b]) = true) (ha : x.elFmt s.clk c.lit (x.fmt s.clk l dflt [a, b]) l a = some ea)
    (hb : x.elFmt s.clk c.lit (x.fmt s.clk l dflt [a, b]) l b = some eb) (hc : x.elFmt s.clk c.lit .f32 l e = some ec) :
    dotLane c s x l ok dflt m a b e = some (dotRes x.want (x.fmt s.clk l dflt [a, b]) m ea eb ec) := by
  rw [dotLane, dotFmt, if_pos hok, ha, hb, hc]
  rfl

theorem dotProducts : dotProductsRule := by
  unfold dotProductsRule
  intro s x c m d a b e h he dot
  have hdot (u : Nat) (srcs : List Src) (dflt : Tag) (ok : Tag → Bool) :
      dot (vecWord c s u d srcs (fun x l => dotLane c s x l ok dflt m a b e)) dflt ok := by
    intro ea eb ec f vs sum res hes
    have hlane (l : Nat) (hl : l ∈ x.lanes) : ∃ q, dotLane c s { x with smp := s.sampleOf x } l ok dflt m a b e = some q
        ∧ x.laneRuns d l q ∧ q = dotRes x.want (f l) m (ea l) (eb l) (ec l) := by
      obtain ⟨hok, ha, hb, hc, hpa, hpb, hpc, htakes, hquiet⟩ := hes l hl
      exact ⟨dotRes x.want (f l) m (ea l) (eb l) (ec l), dotLane_eq hok ha hb hc, ⟨by rw [dotRes, hpa, hpb, hpc]; rfl, htakes, hquiet⟩, rfl⟩
    obtain ⟨r, hdone, hr⟩ := vecWord_done_of_lanes (u := u) (srcs := srcs) (f := fun x l => dotLane c s x l ok dflt m a b e)
      (r := fun l q => q = dotRes x.want (f l) m (ea l) (eb l) (ec l)) h he hlane
    refine ⟨r, hdone, fun l hl => ?_⟩
    rw [hr l hl]
    have hlt : (res l).bits < 2 ^ 32 := pack_lt (f := .f32) rfl _ _ _ _
    have hval : (BitVec.ofNat 64 (res l).bits).toNat = (res l).bits := by
      rw [BitVec.toNat_ofNat]
      exact Nat.mod_eq_of_lt (lt_trans hlt (by decide))
    exact ⟨rfl, rfl, rfl, hval, fun k hk => get_mapLanes _ _ hk⟩
  exact ⟨hdot uFp [a, b, e] .h16 (fun t => t == .h16 || t == .b16), hdot uFp [a, b, e] .e4m3 (fun t => t == .e4m3 || t == .e5m2 || t == .pt8)⟩

end Sys2Proof.Machine
end

section
/-! SUPPORT. Floating-point selection and comparison (O5): the order of values, and the words that select, round to integral, scale,
compare and classify. -/

namespace Sys2Proof.Machine

/-! ## The order of values (R172, R173) -/

theorem finInt_zero (sg : Bool) (k : Nat) : finInt sg 0 k = 0 := by cases sg <;> simp [finInt]

theorem finInt_eq_zero {sg : Bool} {m k : Nat} (h : finInt sg m k = 0) : m = 0 := by
  have hz : m <<< k = 0 := by cases sg <;> simpa [finInt] using h
  rw [Nat.shiftLeft_eq, Nat.mul_eq_zero] at hz
  exact hz.resolve_right (Nat.two_pow_pos k).ne'

/-- The order of two values is antisymmetric. -/
theorem fCmp_swap (p q : FVal) : fCmp q p = -fCmp p q := by
  cases p with
  | nan => cases q <;> rfl
  | inf s =>
    cases q with
    | nan => rfl
    | inf s' => cases s <;> cases s' <;> rfl
    | fin s' m e => cases s <;> rfl
  | fin s1 m1 e1 =>
    cases q with
    | nan => rfl
    | inf s' => cases s' <;> rfl
    | fin s2 m2 e2 =>
      have hmin : (if e2 < e1 then e2 else e1) = if e1 < e2 then e1 else e2 := by split <;> split <;> omega
      simp only [fCmp, hmin]
      split_ifs <;> omega

/-- Two values between which the order does not decide. -/
theorem finInt_eq_of_fCmp_eq_zero {s1 s2 : Bool} {m1 m2 : Nat} {e1 e2 : Int} (h : fCmp (.fin s1 m1 e1) (.fin s2 m2 e2) = 0) :
    finInt s1 m1 (e1 - if e1 < e2 then e1 else e2).toNat = finInt s2 m2 (e2 - if e1 < e2 then e1 else e2).toNat := by
  rw [fCmp] at h
  generalize hd : finInt s1 m1 _ - finInt s2 m2 _ = d at h
  by_cases hneg : d < 0
  · rw [if_pos hneg] at h
    exact absurd h (by decide)
  · rw [if_neg hneg] at h
    by_cases hz : d = 0
    · exact sub_eq_zero.1 (hd.trans hz)
    · rw [if_neg hz] at h
      exact absurd h (by decide)

theorem exists_fin_of_isZero {p : FVal} (h : p.isZero = true) : ∃ s e, p = .fin s 0 e := by
  cases p with
  | fin s m e => exact ⟨s, e, by rw [show m = 0 from eq_of_beq h]⟩
  | _ => exact absurd h Bool.false_ne_true

/-- A value equal to a zero is a zero. -/
theorem isZero_of_fCmp_eq_zero {p q : FVal} (h : fCmp p q = 0) (hp : p.isZero = true) (hq : q.isNan = false) : q.isZero = true := by
  obtain ⟨s1, e1, rfl⟩ := exists_fin_of_isZero hp
  cases q with
  | nan => exact absurd hq (by decide)
  | inf s' => cases s' <;> exact absurd h (by simp [fCmp])
  | fin s2 m2 e2 =>
    have hz := finInt_eq_of_fCmp_eq_zero h
    rw [finInt_zero] at hz
    exact beq_iff_eq.2 (finInt_eq_zero hz.symm)

theorem fCmp_of_zeros {p q : FVal} (hp : p.isZero = true) (hq : q.isZero = true) : fCmp p q = 0 := by
  obtain ⟨s1, e1, rfl⟩ := exists_fin_of_isZero hp
  obtain ⟨s2, e2, rfl⟩ := exists_fin_of_isZero hq
  simp [fCmp, finInt_zero]

/-- −0 below +0, or less (R172). -/
def fBelow (p q : FVal) : Prop := fCmp p q < 0 ∨ (p.isZero = true ∧ q.isZero = true ∧ p.sign = true ∧ q.sign = false)

/-- Between values that the order decides, below is less. -/
theorem fBelow_iff_of_ne {p q : FVal} (h : fCmp p q ≠ 0) : fBelow p q ↔ fCmp p q < 0 :=
  or_iff_left (fun hz => h (fCmp_of_zeros hz.1 hz.2.1))

/-- Between equal values, only −0 is below +0. -/
theorem fBelow_iff_of_eq {p q : FVal} (h : fCmp p q = 0) (hq : q.isNan = false) : fBelow p q ↔ p.isZero = true ∧ p.sign = true ∧ q.sign = false := by
  refine ⟨?_, fun ⟨hz, hs⟩ => .inr ⟨hz, isZero_of_fCmp_eq_zero h hz hq, hs⟩⟩
  rintro (hlt | ⟨hz, -, hs⟩)
  · exact absurd hlt (by rw [h]; decide)
  · exact ⟨hz, hs⟩

/-- Of two values, not both NaN, the first is selected where it is no NaN and the second is none, or not better. -/
theorem fSelA_iff {mx : Bool} {p q : FVal} (h : ¬ (p.isNan && q.isNan) = true) :
    fSelA mx p q = true ↔ q.isNan = true ∨ (p.isNan = false ∧ ¬ (if mx then fBelow p q else fBelow q p)) := by
  rw [fSelA]
  cases hp : p.isNan with
  | true =>
    cases hq : q.isNan with
    | true => exact absurd (by rw [hp, hq]; rfl) h
    | false => simp
  | false =>
    cases hq : q.isNan with
    | true => simp
    | false =>
      have hswap := fCmp_swap p q
      by_cases hc : fCmp p q = 0
      · have hc' : fCmp q p = 0 := by omega
        have hz : q.isZero = p.isZero := Bool.eq_iff_iff.2
          ⟨fun hz => isZero_of_fCmp_eq_zero hc' hz hp, fun hz => isZero_of_fCmp_eq_zero hc hz hq⟩
        rw [fBelow_iff_of_eq hc hq, fBelow_iff_of_eq hc' hp, hz]
        dsimp only
        rw [if_pos hc]
        cases mx <;> cases p.isZero <;> cases p.sign <;> cases q.sign <;> decide
      · have hc' : fCmp q p ≠ 0 := by omega
        rw [fBelow_iff_of_ne hc, fBelow_iff_of_ne hc']
        dsimp only
        rw [if_neg hc]
        cases mx <;> simp <;> omega

/-! ## Words of one source -/

theorem fpDone_congr {s : State} {x : Ctx} {c : Ctl} {d : Dst} {srcs : List Src} {o : Out} {prim prim' : Nat → Tag → Op3 → BRes}
    {tan : Nat → Tag → Nat → Op3 → BRes} (hp : ∀ l f o, prim l f o = prim' l f o) (h : fpDone s x c d srcs o prim tan) :
    fpDone s x c d srcs o prim' tan := by
  obtain rfl : prim = prim' := funext (fun l => funext (fun f => funext (hp l f)))
  exact h

theorem eq_singleton_of_reads {a : Src} {g : Src → Option El} {es : List El} (h : [a].map g = es.map some) : ∃ e, es = [e] ∧ g a = some e := by
  obtain ⟨e, rfl, he⟩ := List.map_eq_singleton_iff.1 h.symm
  exact ⟨e, rfl, he.symm⟩

theorem El.psn_of_not_poisoned {e : El} {ks : List Nat} (h : e.poisoned ks = false) : e.psn = false := (Bool.or_eq_false_iff.1 h).1

/-! ## FMIN and FMAX (R172) -/

/-- A word that selects an operand, given by what it selects. -/
theorem selectWord_done {s : State} {x : Ctx} {c : Ctl} {d : Dst} {a b : Src} {mx : Bool} {g : Tag → Op3 → Bool}
    (h : s.issues x c) (he : s.errIn = [])
    (hg : ∀ f o, g f o = true ↔ (f.value false o.b).isNan = true ∨ ((f.value false o.a).isNan = false
      ∧ ¬ (if mx then fBelow (f.value false o.a) (f.value false o.b) else fBelow (f.value false o.b) (f.value false o.a)))) :
    let nan (f : Tag) (o : Op3) : Bool := (f.value false o.a).isNan && (f.value false o.b).isNan
    fpDone s x c d [a, b] (fpWord c s 0 d [a, b] (fun f o => ⟨minMax mx f o.a o.b, 0#3⟩) (tanMinMax mx))
      (fun _ f o => ⟨if nan f o then f.nanCode else if g f o then o.a else o.b, 0#3⟩)
      (fun _ f _ o => ⟨if nan f o then 0 else if g f o then o.ta else o.tb, 0#3⟩) := by
  intro nan
  have hsel (f : Tag) (o : Op3) (hn : ¬ nan f o = true) : fSelA mx (f.value false o.a) (f.value false o.b) = g f o :=
    Bool.eq_iff_iff.2 ((fSelA_iff hn).trans (hg f o).symm)
  have hval : (fun f (o : Op3) => (⟨minMax mx f o.a o.b, 0#3⟩ : BRes))
      = fun f o => ⟨if nan f o then f.nanCode else if g f o then o.a else o.b, 0#3⟩ := by
    funext f o
    by_cases hn : nan f o = true
    · rw [minMax, if_pos hn, if_pos hn]
    · rw [minMax, if_neg hn, if_neg hn, hsel f o hn]
  have htan : tanMinMax mx = fun f _ o => (⟨if nan f o then 0 else if g f o then o.ta else o.tb, 0#3⟩ : BRes).bits := by
    funext f _ o
    by_cases hn : nan f o = true
    · rw [tanMinMax, if_pos hn, if_pos hn]
    · rw [tanMinMax, if_neg hn, if_neg hn, hsel f o hn]
  rw [hval, htan]
  refine fpWord_done h he (fun f es i hf => ?_) (fun f es k i _ _ => ?_)
  · obtain ⟨ha, hb, -, -⟩ := op3_lt f es 0 i
    dsimp only
    split_ifs
    · exact nanCode_lt hf
    · exact ha
    · exact hb
  · obtain ⟨-, -, hta, htb⟩ := op3_lt f es k i
    dsimp only
    split_ifs
    · exact Nat.two_pow_pos _
    · exact hta
    · exact htb

/-! ## FRND and FSCL (R174) -/

theorem opRnd_lt {f : Tag} {m : Rnd} {n : Nat} (hf : f.isFp = true) (hn : n < 2 ^ f.width) : opRnd f m n < 2 ^ f.width := by
  rw [opRnd]
  cases f.value false n with
  | nan => exact nanCode_lt hf
  | inf sg => exact hn
  | fin sg k e =>
    dsimp only
    split_ifs
    · exact hn
    · exact pack_lt hf _ _ _ _

/-- What FRND leaves in a lane. -/
def rndRes (f : Tag) (m : Rnd) (e : El) : LRes :=
  ⟨BitVec.ofNat 64 (f.joinEls ((List.range f.count).map (fun i => opRnd f m (elAt f [e] 0 i)))), f == .f64, f, [], e.psn, 0#3, false⟩

theorem rndWord_done {s : State} {x : Ctx} {c : Ctl} {m : Rnd} {d : Dst} {a : Src} (h : s.issues x c) (he : s.errIn = []) :
    fpDone s x c d [a] (execFrnd c m d a s) (fun _ f o => ⟨opRnd f m o.a, 0#3⟩) (fun _ _ _ _ => ⟨0, 0#3⟩) := by
  intro es hes
  have hlane (l : Nat) (hl : l ∈ x.lanes) : ∃ q, (if (x.fmt s.clk l .f32 [a]).isFp then (x.elFmt s.clk c.lit (x.fmt s.clk l .f32 [a]) l a).map
        (rndRes (x.fmt s.clk l .f32 [a]) m) else none) = some q ∧ x.laneRuns d l q
      ∧ ∃ e, es l = [e] ∧ (x.fmt s.clk l .f32 [a]).isFp = true ∧ q = rndRes (x.fmt s.clk l .f32 [a]) m e := by
    obtain ⟨⟨hfp, hread, hclean, htakes⟩, -⟩ := hes l hl
    obtain ⟨e, hl1, he1⟩ := eq_singleton_of_reads hread
    have hpsn : e.psn = false := El.psn_of_not_poisoned (hclean e (by rw [hl1]; exact List.mem_singleton_self e))
    exact ⟨rndRes _ m e, by rw [if_pos hfp, he1]; rfl, ⟨hpsn, htakes, BitVec.zero_and⟩, e, hl1, hfp, rfl⟩
  obtain ⟨r, hdone, hr⟩ := vecWord_done_of_lanes (u := 0) (srcs := [a]) (r := fun l q => ∃ e, es l = [e] ∧ (x.fmt s.clk l .f32 [a]).isFp = true
    ∧ q = rndRes (x.fmt s.clk l .f32 [a]) m e) (f := fun x l => if (x.fmt s.clk l .f32 [a]).isFp
      then (x.elFmt s.clk c.lit (x.fmt s.clk l .f32 [a]) l a).map (rndRes (x.fmt s.clk l .f32 [a]) m) else none) h he hlane
  refine ⟨r, hdone, fun l hl => ?_⟩
  obtain ⟨e, hl1, hfp, hq⟩ := hr l hl
  rw [hq, hl1]
  exact ⟨rfl, rfl, rfl, fun i hi => ⟨getD_elems_range (g := fun i => opRnd _ m (elAt _ [e] 0 i)) hi (opRnd_lt hfp (getD_elems_lt _ _ _)),
    fun k _ => getD_elems_zero _ i⟩⟩

theorem opScale_lt {f : Tag} (hf : f.isFp = true) (m : Rnd) (a : Nat) (n : Int) : (opScale f m a n).bits < 2 ^ f.width := by
  rw [opScale]
  cases f.value false a <;> exact pack_lt hf _ _ _ _

theorem LRes.or_psn_of_false {q : LRes} {p : Bool} (h : p = false) : { q with psn := q.psn || p } = q := by rw [h, Bool.or_false]

theorem sclWord_done {s : State} {x : Ctx} {c : Ctl} {m : Rnd} {d : Dst} {a b : Src} (h : s.issues x c) (he : s.errIn = [])
    (hb : ∀ l ∈ x.lanes, (x.rd s c l b).accepted (fun t => t == .raw || t == .i32) = true ∧ (x.rd s c l b).psn = false) :
    let n (l : Nat) : Int := elInt 32 true (x.rd s c l b).val.toNat
    fpDone s x c d [a] (execFscl c m d a b s) (fun l f o => opScale f m o.a (n l)) (fun l f _ o => opScale f .rne o.ta (n l)) := by
  intro n
  refine fpDone_of_lanes h he (fun l hl es hread => ?_) (fun l f es i hf => opScale_lt hf _ _ _) (fun l f es k i _ hf => opScale_lt hf _ _ _)
  obtain ⟨hfp, hsrc, -, -⟩ := hread
  obtain ⟨hacc, hpsn⟩ := hb l hl
  have hrun : ((x.fmt s.clk l .f32 [a]).isFp && (x.rd s c l b).accepted (fun t => t == .raw || t == .i32)) = true := by rw [hfp, hacc]; rfl
  have hlane := (fmtLane_eq (tag := x.fmt s.clk l .f32 [a]) (prim := fun o => opScale (x.fmt s.clk l .f32 [a]) m o.a (n l))
    (tanf := fun _ o => (opScale (x.fmt s.clk l .f32 [a]) .rne o.ta (n l)).bits) hsrc)
  refine (if_pos hrun).trans ((congrArg (Option.map (fun q : LRes => { q with psn := q.psn || (x.rd s c l b).psn })) hlane).trans ?_)
  exact congrArg some (LRes.or_psn_of_false hpsn)

/-! ## FCMP and FCLASS (R173, R174) -/

theorem fcondHolds_iff (fc : FCond) (p q : FVal) : fcondHolds fc p q = true ↔ (let n := p.isNan = true ∨ q.isNan = true
    match fc with
    | .eq => ¬ n ∧ fCmp p q = 0
    | .ne => n ∨ fCmp p q ≠ 0
    | .lt => ¬ n ∧ fCmp p q < 0
    | .le => ¬ n ∧ fCmp p q ≤ 0
    | .gt => ¬ n ∧ 0 < fCmp p q
    | .ge => ¬ n ∧ 0 ≤ fCmp p q
    | .ord => ¬ n
    | .uno => n) := by
  cases fc <;> simp [fcondHolds]

/-- What FCMP leaves in a lane: whether the condition holds in every element. -/
def cmpRes (f : Tag) (fc : FCond) (ea eb : El) : LRes :=
  .plain (if (List.range f.count).all (fun i => fcondHolds fc (f.value false ((f.elems ea.val.toNat).getD i 0))
    (f.value false ((f.elems eb.val.toNat).getD i 0))) then 1#64 else 0#64) .raw (ea.psn || eb.psn)

/-- The same from the operands as they are read. -/
def cmpLane (f : Tag) (fc : FCond) (a b : Option El) : Option LRes :=
  match a, b with
  | some ea, some eb => some (cmpRes f fc ea eb)
  | _, _ => none

theorem cmpRes_ne_zero {f : Tag} {fc : FCond} {ea eb : El} : (cmpRes f fc ea eb).val ≠ 0#64 ↔ ∀ j < f.count,
    fcondHolds fc (f.value false ((f.elems ea.val.toNat).getD j 0)) (f.value false ((f.elems eb.val.toNat).getD j 0)) = true := by
  rw [cmpRes, LRes.plain]
  dsimp only
  split_ifs with hall
  · simpa using hall
  · simpa using hall

theorem cmpWord_done {s : State} {x : Ctx} {c : Ctl} {fc : FCond} {d : Dst} {a b : Src} {ea eb : Nat → El} (h : s.issues x c) (he : s.errIn = [])
    (hread : ∀ l ∈ x.lanes, let f := x.fmt s.clk l .f32 [a, b]
      f.isFp = true ∧ x.elFmt s.clk c.lit f l a = some (ea l) ∧ x.elFmt s.clk c.lit f l b = some (eb l) ∧ (ea l).psn = false
      ∧ (eb l).psn = false ∧ x.takes d l .raw false) :
    s.scaDone x c d (execFcmp c fc d a b s) (laneMask (x.lanes.map (fun l => (l, cmpRes (x.fmt s.clk l .f32 [a, b]) fc (ea l) (eb l))))) := by
  refine maskWord_done h he (fun l hl => ?_) (fun l hl => ?_)
  · obtain ⟨hfp, ha, hb, -⟩ := hread l hl
    exact (if_pos hfp).trans (congrArg₂ (cmpLane (x.fmt s.clk l .f32 [a, b]) fc) ha hb)
  · obtain ⟨-, -, -, hpa, hpb, htakes⟩ := hread l hl
    exact ⟨by rw [cmpRes, LRes.plain, hpa, hpb]; rfl, htakes, BitVec.zero_and⟩

/-- What the class mask of an element holds at a bit (R174). -/
def classAt (f : Tag) (p j : Nat) : Prop :=
  let sub : Prop := ∃ y, f.lay = some y ∧ bitsAt p y.mb y.eb = 0
  match f.value false p with
  | .nan => j = 8
  | .inf sg => j = if sg then 0 else 7
  | .fin sg k _ =>
    if k = 0 then j = (if sg then 3 else 4)
    else (sub → j = if sg then 2 else 5) ∧ (¬ sub → j = if sg then 1 else 6)

theorem exists_opClass_eq (f : Tag) (p : Nat) : ∃ k ≤ 8, opClass f p = 2 ^ k ∧ ∀ j, classAt f p j ↔ j = k := by
  rw [opClass]
  unfold classAt
  cases f.value false p with
  | nan => exact ⟨8, le_rfl, rfl, fun _ => Iff.rfl⟩
  | inf sg => cases sg with
    | false => exact ⟨7, by decide, rfl, fun _ => Iff.rfl⟩
    | true => exact ⟨0, by decide, rfl, fun _ => Iff.rfl⟩
  | fin sg k e =>
    dsimp only
    by_cases hk : k = 0
    · rw [if_pos hk]
      cases sg with
      | false => exact ⟨4, by decide, rfl, fun _ => by rw [if_pos hk]; exact Iff.rfl⟩
      | true => exact ⟨3, by decide, rfl, fun _ => by rw [if_pos hk]; exact Iff.rfl⟩
    · rw [if_neg hk]
      simp only [if_neg hk]
      have hnormal : ∃ k ≤ 8, (if sg = true then 2 else 2 ^ 6) = 2 ^ k ∧ ∀ j, (j = if sg = true then 1 else 6) ↔ j = k := by
        cases sg with
        | false => exact ⟨6, by decide, rfl, fun _ => Iff.rfl⟩
        | true => exact ⟨1, by decide, rfl, fun _ => Iff.rfl⟩
      cases f.lay with
      | none => simpa using hnormal
      | some y =>
        by_cases hs : bitsAt p y.mb y.eb = 0
        · simp only [Option.some.injEq, exists_eq_left', hs, decide_true, if_true, true_imp_iff, not_true, false_imp_iff, and_true]
          cases sg with
          | false => exact ⟨5, by decide, rfl, fun _ => Iff.rfl⟩
          | true => exact ⟨2, by decide, rfl, fun _ => Iff.rfl⟩
        · simpa [hs] using hnormal

theorem opClass_lt (f : Tag) (p : Nat) : opClass f p < 2 ^ 16 := by
  obtain ⟨k, hk, heq, -⟩ := exists_opClass_eq f p
  rw [heq]
  exact Nat.pow_lt_pow_right (by decide) (by omega)

theorem testBit_opClass {f : Tag} {p j : Nat} : (opClass f p).testBit j = true ↔ classAt f p j := by
  obtain ⟨k, -, heq, hat⟩ := exists_opClass_eq f p
  rw [heq, Nat.testBit_two_pow, decide_eq_true_eq, hat, eq_comm]

theorem le_of_classAt {f : Tag} {p j : Nat} (h : classAt f p j) : j ≤ 8 := by
  obtain ⟨k, hk, -, hat⟩ := exists_opClass_eq f p
  rw [(hat j).1 h]
  exact hk

/-- The class masks of the two elements that a register can hold. -/
def classMask (f : Tag) (v : Nat) : Nat :=
  opClass f ((f.elems v).getD 0 0) + (if f.count = 2 then opClass f ((f.elems v).getD 1 0) else 0) * 2 ^ 16

theorem classMask_lt (f : Tag) (v : Nat) : classMask f v < 2 ^ 32 := by
  have hlo := opClass_lt f ((f.elems v).getD 0 0)
  have hhi := opClass_lt f ((f.elems v).getD 1 0)
  rw [classMask]
  split_ifs <;> omega

theorem count_of_isFp {f : Tag} (h : f.isFp = true) : f.count = 1 ∨ f.count = 2 := by
  revert h
  cases f <;> decide

theorem testBit_classMask {f : Tag} (hf : f.isFp = true) (v : Nat) {i : Nat} (hi : i < 32) :
    (classMask f v).testBit i = true ↔ i / 16 < f.count ∧ classAt f ((f.elems v).getD (i / 16) 0) (i % 16) := by
  rw [classMask, Nat.add_comm, Nat.mul_comm, Nat.testBit_two_pow_mul_add _ (opClass_lt _ _)]
  by_cases hlow : i < 16
  · have h0 : i / 16 = 0 := by omega
    have hmod : i % 16 = i := by omega
    have hcount : 0 < f.count := by rcases count_of_isFp hf with hc | hc <;> omega
    rw [if_pos hlow, h0, hmod, testBit_opClass, and_iff_right hcount]
  · have h1 : i / 16 = 1 := by omega
    have hmod : i % 16 = i - 16 := by omega
    rw [if_neg hlow, h1, hmod]
    rcases count_of_isFp hf with hc | hc
    · simp [hc]
    · simp [hc, testBit_opClass]

theorem classWord_done {s : State} {x : Ctx} {c : Ctl} {d : Dst} {a : Src} {ea : Nat → El} (h : s.issues x c) (he : s.errIn = [])
    (hread : ∀ l ∈ x.lanes, let f := x.fmt s.clk l .f32 [a]
      f.isFp = true ∧ x.elFmt s.clk c.lit f l a = some (ea l) ∧ (ea l).psn = false ∧ x.takes d l .raw false) :
    s.vecDone x c d (execFclass c d a s)
      (fun l => .plain (BitVec.ofNat 64 (classMask (x.fmt s.clk l .f32 [a]) (ea l).val.toNat)) .raw (ea l).psn) := by
  refine vecWord_done h he (fun l hl => ?_) (fun l hl => ?_)
  · obtain ⟨hfp, ha, -, -⟩ := hread l hl
    exact (if_pos hfp).trans (congrArg (Option.map (fun e : El =>
      LRes.plain (BitVec.ofNat 64 (classMask (x.fmt s.clk l .f32 [a]) e.val.toNat)) .raw e.psn)) ha)
  · obtain ⟨-, -, hpsn, htakes⟩ := hread l hl
    exact ⟨hpsn, htakes, BitVec.zero_and⟩

/-! ## The obligation -/

theorem floatingPointSelection : floatingPointSelectionRule := by
  unfold floatingPointSelectionRule
  intro s x c m d a b h he v nan less takesA
  refine ⟨fun g hg => ⟨?_, ?_⟩, ?_, fun hb => ?_⟩
  · exact selectWord_done (mx := false) h he (hg false)
  · exact selectWord_done (mx := true) h he (hg true)
  · refine fpDone_congr (fun l f o => ?_) (rndWord_done h he)
    simp only [v, opRnd]
    cases f.value false o.a <;> rfl
  · exact sclWord_done h he hb

theorem floatingPointComparison : floatingPointComparisonRule := by
  unfold floatingPointComparisonRule
  intro s x c d a b h he
  refine ⟨fun fc ea eb hread => ⟨_, cmpWord_done h he hread, fun i _ => ?_⟩, fun ea hread => ⟨_, classWord_done h he hread, fun l hl => ?_⟩⟩
  · rw [getLsbD_laneMask, cmpRes_ne_zero]
    exact and_congr_right (fun _ => forall₂_congr (fun j _ => fcondHolds_iff fc _ _))
  · obtain ⟨hfp, -⟩ := hread l hl
    have hlt := classMask_lt (x.fmt s.clk l .f32 [a]) (ea l).val.toNat
    refine ⟨⟨rfl, rfl, rfl, fun _ => rfl, ?_⟩, fun i hi => ?_⟩
    · rw [LRes.plain, BitVec.toNat_ofNat, Nat.mod_eq_of_lt (by omega)]
      exact hlt
    · rw [LRes.plain, BitVec.getLsbD_ofNat, decide_eq_true (by omega : i < 64), Bool.true_and, testBit_classMask hfp _ hi]
      exact ⟨fun ⟨hc, hat⟩ => ⟨le_of_classAt hat, hc, hat⟩, fun ⟨_, hc, hat⟩ => ⟨hc, hat⟩⟩

/-- Settles O5: each word's lanes are computed one by one, and the selections follow the order of values. -/
theorem floatingPointSelectionAndComparison : Obligations.FloatingPointSelectionAndComparison :=
  ⟨floatingPointSelection, floatingPointComparison⟩

end Sys2Proof.Machine
end

section
/-! SUPPORT. Rounding (O4, R76): the magnitudes of the codes of a format in ascending order, the two codes around a value, and the one
that each mode takes. -/

namespace Sys2Proof

open Machine

/-! ## The magnitude of a code -/

/-- The significand of a code without its sign. -/
def Lay.sig (l : Lay) (c : Nat) : Nat := if c < 2 ^ l.mb then c else c % 2 ^ l.mb + 2 ^ l.mb

/-- The exponent of the unit of a code without its sign. -/
def Lay.unit (l : Lay) (c : Nat) : Int := if c < 2 ^ l.mb then l.emin else ((c / 2 ^ l.mb : Nat) : Int) - l.bias - l.mb

/-- The magnitude of a code, as if exponents had no upper limit. -/
def Lay.mag (l : Lay) (c : Nat) : ℚ := l.sig c * (2 : ℚ) ^ l.unit c

/-- A significand with its unit as a format holds it: only with the least unit may the leading bit be missing. -/
def Lay.IsSig (l : Lay) (x : Nat) (q : Int) : Prop := x < 2 ^ (l.mb + 1) ∧ l.emin ≤ q ∧ (x < 2 ^ l.mb → q = l.emin)

theorem Lay.bits_of_lt {l : Lay} {x : Nat} (q : Int) (h : x < 2 ^ l.mb) : l.bits false x q = x := by
  rw [Lay.bits, if_pos h]
  exact Nat.zero_add x

theorem Lay.bits_of_le {l : Lay} {x : Nat} (q : Int) (h : 2 ^ l.mb ≤ x) :
    l.bits false x q = (q + l.mb + l.bias).toNat * 2 ^ l.mb + (x - 2 ^ l.mb) := by
  rw [Lay.bits, if_neg (Nat.not_lt.2 h)]
  exact Nat.zero_add _

/-- The biased exponent of a unit is at least 1. -/
theorem Lay.exponent_cast {l : Lay} {q : Int} (h : l.emin ≤ q) : (((q + l.mb + l.bias).toNat : Nat) : Int) = q + l.mb + l.bias
    ∧ 1 ≤ (q + l.mb + l.bias).toNat := by
  rw [Lay.emin] at h
  omega

theorem Lay.IsSig.sig_bits {l : Lay} {x : Nat} {q : Int} (h : l.IsSig x q) : l.sig (l.bits false x q) = x ∧ l.unit (l.bits false x q) = q := by
  obtain ⟨hlt, hmin, hsub⟩ := h
  by_cases hx : x < 2 ^ l.mb
  · rw [Lay.bits_of_lt q hx, Lay.sig, Lay.unit, if_pos hx, if_pos hx]
    exact ⟨rfl, (hsub hx).symm⟩
  · have hle := Nat.not_lt.1 hx
    obtain ⟨hcast, hone⟩ := Lay.exponent_cast hmin
    have hrest : x - 2 ^ l.mb < 2 ^ l.mb := by rw [Nat.pow_succ] at hlt; omega
    have hbig : ¬ (q + l.mb + l.bias).toNat * 2 ^ l.mb + (x - 2 ^ l.mb) < 2 ^ l.mb :=
      Nat.not_lt.2 (le_trans (Nat.le_mul_of_pos_left _ hone) (Nat.le_add_right _ _))
    have hdiv : ((q + l.mb + l.bias).toNat * 2 ^ l.mb + (x - 2 ^ l.mb)) / 2 ^ l.mb = (q + l.mb + l.bias).toNat := by
      rw [Nat.add_comm, Nat.add_mul_div_right _ _ (Nat.two_pow_pos _), Nat.div_eq_of_lt hrest, Nat.zero_add]
    have hmod : ((q + l.mb + l.bias).toNat * 2 ^ l.mb + (x - 2 ^ l.mb)) % 2 ^ l.mb = x - 2 ^ l.mb := by
      rw [Nat.add_comm, Nat.add_mul_mod_self_right, Nat.mod_eq_of_lt hrest]
    rw [Lay.bits_of_le q hle, Lay.sig, Lay.unit, if_neg hbig, if_neg hbig, hdiv, hmod, hcast]
    exact ⟨Nat.sub_add_cancel hle, by omega⟩

theorem Lay.IsSig.mag_bits {l : Lay} {x : Nat} {q : Int} (h : l.IsSig x q) : l.mag (l.bits false x q) = x * (2 : ℚ) ^ q := by
  rw [Lay.mag, h.sig_bits.1, h.sig_bits.2]

/-- The next code stands for the next multiple of the unit. -/
theorem Lay.IsSig.bits_succ {l : Lay} {x : Nat} {q : Int} (h : l.IsSig x q) : l.bits false x q + 1
    = if 2 ^ (l.mb + 1) ≤ x + 1 then l.bits false ((x + 1) / 2) (q + 1) else l.bits false (x + 1) q := by
  obtain ⟨hlt, hmin, hsub⟩ := h
  have hpow : 2 ^ (l.mb + 1) = 2 * 2 ^ l.mb := by rw [Nat.pow_succ, Nat.mul_comm]
  have hpos := Nat.two_pow_pos l.mb
  obtain ⟨hcast, hone⟩ := Lay.exponent_cast hmin
  by_cases hcarry : 2 ^ (l.mb + 1) ≤ x + 1
  · have hexp : (q + 1 + l.mb + l.bias).toNat = (q + l.mb + l.bias).toNat + 1 := by omega
    rw [if_pos hcarry, Lay.bits_of_le q (by omega), Lay.bits_of_le (q + 1) (by omega), hexp, Nat.succ_mul]
    omega
  · rw [if_neg hcarry]
    by_cases hx : x + 1 < 2 ^ l.mb
    · rw [Lay.bits_of_lt q (by omega), Lay.bits_of_lt q hx]
    · by_cases hx' : x < 2 ^ l.mb
      · have hexp : (q + l.mb + l.bias).toNat = 1 := by
          have := hsub hx'
          rw [Lay.emin] at this
          omega
        rw [Lay.bits_of_lt q hx', Lay.bits_of_le q (by omega), hexp, Nat.one_mul]
        omega
      · rw [Lay.bits_of_le q (by omega), Lay.bits_of_le q (by omega)]
        omega

/-- The last bit of a code is that of its significand. -/
theorem Lay.bits_mod_two {l : Lay} (hmb : 1 ≤ l.mb) (x : Nat) (q : Int) : l.bits false x q % 2 = x % 2 := by
  obtain ⟨j, hj⟩ : ∃ j, l.mb = j + 1 := ⟨l.mb - 1, by omega⟩
  have hpow : 2 ^ l.mb = 2 * 2 ^ j := by rw [hj, Nat.pow_succ, Nat.mul_comm]
  by_cases hx : x < 2 ^ l.mb
  · rw [Lay.bits_of_lt q hx]
  · rw [Lay.bits_of_le q (Nat.not_lt.1 hx), hpow, Nat.mul_left_comm]
    omega

/-- Every code has a significand and a unit that the format holds. -/
theorem Lay.isSig_sig (l : Lay) (c : Nat) : l.IsSig (l.sig c) (l.unit c) ∧ l.bits false (l.sig c) (l.unit c) = c := by
  have hpos := Nat.two_pow_pos l.mb
  by_cases hc : c < 2 ^ l.mb
  · rw [Lay.sig, Lay.unit, if_pos hc, if_pos hc]
    exact ⟨⟨lt_trans hc (Nat.pow_lt_pow_right (by decide) (Nat.lt_succ_self _)), le_rfl, fun _ => rfl⟩, Lay.bits_of_lt _ hc⟩
  · have hmod := Nat.mod_lt c hpos
    have hdiv : 1 ≤ c / 2 ^ l.mb := Nat.div_pos (Nat.not_lt.1 hc) hpos
    rw [Lay.sig, Lay.unit, if_neg hc, if_neg hc, Lay.bits_of_le _ (by omega)]
    refine ⟨⟨by rw [Nat.pow_succ]; omega, by rw [Lay.emin]; omega, fun h => absurd h (by omega)⟩, ?_⟩
    have hexp : (((c / 2 ^ l.mb : Nat) : Int) - l.bias - l.mb + l.mb + l.bias).toNat = c / 2 ^ l.mb := by omega
    rw [hexp, Nat.add_sub_cancel, Nat.mul_comm]
    exact Nat.div_add_mod _ _

theorem Lay.mag_succ (l : Lay) (c : Nat) : l.mag (c + 1) = l.mag c + 2 ^ l.unit c := by
  obtain ⟨hsig, hbits⟩ := l.isSig_sig c
  have hnext := hsig.bits_succ
  obtain ⟨hlt, hmin, hsub⟩ := hsig
  have hpow : 2 ^ (l.mb + 1) = 2 * 2 ^ l.mb := by rw [Nat.pow_succ, Nat.mul_comm]
  rw [hbits] at hnext
  by_cases hcarry : 2 ^ (l.mb + 1) ≤ l.sig c + 1
  · have hhalf : (l.sig c + 1) / 2 = 2 ^ l.mb := by omega
    have hcast : (l.sig c : ℚ) + 1 = 2 * 2 ^ l.mb := by exact_mod_cast (by omega : l.sig c + 1 = 2 * 2 ^ l.mb)
    rw [if_pos hcarry, hhalf] at hnext
    have hsig' : l.IsSig (2 ^ l.mb) (l.unit c + 1) := ⟨by omega, by omega, fun h => absurd h (lt_irrefl _)⟩
    rw [hnext, hsig'.mag_bits, zpow_add_one₀ (by norm_num), Lay.mag, eq_sub_of_add_eq hcast]
    push_cast
    ring
  · rw [if_neg hcarry] at hnext
    have hsig' : l.IsSig (l.sig c + 1) (l.unit c) := ⟨by omega, hmin, fun h => hsub (by omega)⟩
    rw [hnext, hsig'.mag_bits, Lay.mag]
    push_cast
    ring

theorem Lay.mag_strictMono (l : Lay) : StrictMono l.mag :=
  strictMono_nat_of_lt_succ (fun c => by rw [Lay.mag_succ]; exact lt_add_of_pos_right _ (zpow_pos (by norm_num) _))

theorem Lay.mag_zero (l : Lay) : l.mag 0 = 0 := by
  rw [Lay.mag, Lay.sig, if_pos (Nat.two_pow_pos _), Nat.cast_zero, zero_mul]

theorem Lay.mag_nonneg (l : Lay) (c : Nat) : 0 ≤ l.mag c := by
  rw [← l.mag_zero]
  exact l.mag_strictMono.monotone (Nat.zero_le c)

/-! ## Rounding at a unit -/

/-- Whether a mode takes the upper one of two neighbours of a magnitude (R76); `odd` is the last bit of the lower one. -/
def roundsUp (r : Rnd) (sg : Bool) (odd : Prop) (lo y hi : ℚ) : Prop :=
  lo < y ∧ match r with
    | .rne => hi - y < y - lo ∨ (hi - y = y - lo ∧ odd)
    | .rtz => False
    | .rup => sg = false
    | .rdn => sg = true

/-- The same from the remainder at the lower one, in halves of the step between the two, and the lower multiple. -/
def upBit (r : Rnd) (sg : Bool) (rem half k : Nat) : Bool :=
  match r with
  | .rne => decide (half < rem) || (rem == half && k % 2 == 1)
  | .rtz => false
  | .rup => !sg && rem != 0
  | .rdn => sg && rem != 0

theorem upBit_iff {r : Rnd} {sg : Bool} {rem half k : Nat} {u : ℚ} (hhalf : 0 < half) (hu : 0 < u) : upBit r sg rem half k = true
    ↔ roundsUp r sg (k % 2 = 1) (k * (2 * half : Nat) * u) ((k * (2 * half : Nat) + rem) * u) ((k + 1 : Nat) * (2 * half : Nat) * u) := by
  have hlo : (k : ℚ) * (2 * half : Nat) * u < (k * (2 * half : Nat) + rem) * u ↔ rem ≠ 0 := by
    rw [mul_lt_mul_iff_of_pos_right hu, lt_add_iff_pos_right, Nat.cast_pos, Nat.pos_iff_ne_zero]
  have hbelow : ((k * (2 * half : Nat) + rem) * u : ℚ) - k * (2 * half : Nat) * u = rem * u := by ring
  have habove : ((k + 1 : Nat) * (2 * half : Nat) * u : ℚ) - (k * (2 * half : Nat) + rem) * u = ((2 * half : Nat) - rem) * u := by
    push_cast
    ring
  have hnear : ((2 * half : Nat) - rem : ℚ) * u < rem * u ↔ half < rem := by
    rw [mul_lt_mul_iff_of_pos_right hu, sub_lt_iff_lt_add]
    norm_cast
    omega
  have htie : ((2 * half : Nat) - rem : ℚ) * u = rem * u ↔ rem = half := by
    rw [mul_left_inj' hu.ne', sub_eq_iff_eq_add]
    norm_cast
    omega
  unfold roundsUp
  rw [hlo, hbelow, habove, hnear, htie]
  cases r with
  | rne =>
    simp only [upBit, Bool.or_eq_true, Bool.and_eq_true, decide_eq_true_eq, beq_iff_eq]
    omega
  | rtz => simp [upBit]
  | rup => simp [upBit, and_comm]
  | rdn => simp [upBit, and_comm]

/-- Of two neighbouring multiples of the unit, the one that the mode takes. -/
theorem roundAt_spec (r : Rnd) (sg : Bool) (n : Nat) (e q : Int) :
    ∃ k : Nat, (k : ℚ) * 2 ^ q ≤ n * (2 : ℚ) ^ e ∧ n * (2 : ℚ) ^ e < ((k + 1 : Nat) : ℚ) * 2 ^ q ∧ (roundAt r sg n e q = k + 1 ∧ roundsUp r sg (k % 2 = 1) (k * 2 ^ q) (n * 2 ^ e) ((k + 1 : Nat) * 2 ^ q)
      ∨ roundAt r sg n e q = k ∧ ¬ roundsUp r sg (k % 2 = 1) (k * 2 ^ q) (n * 2 ^ e) ((k + 1 : Nat) * 2 ^ q)) := by
  have hq : (0 : ℚ) < 2 ^ q := zpow_pos (by norm_num) q
  by_cases hle : q ≤ e
  · refine ⟨n <<< (e - q).toNat, ?_⟩
    have hval : ((n <<< (e - q).toNat : Nat) : ℚ) * 2 ^ q = n * (2 : ℚ) ^ e := by
      rw [Nat.shiftLeft_eq, Nat.cast_mul, Nat.cast_pow, Nat.cast_two, mul_assoc, ← zpow_natCast, ← zpow_add₀ (by norm_num)]
      congr 2
      omega
    have hup : n * (2 : ℚ) ^ e < ((n <<< (e - q).toNat + 1 : Nat) : ℚ) * 2 ^ q := by
      rw [Nat.cast_add, add_mul, hval, Nat.cast_one, one_mul]
      exact lt_add_of_pos_right _ hq
    refine ⟨hval.le, hup, .inr ⟨by rw [roundAt, if_pos hle], fun hr => ?_⟩⟩
    exact absurd hr.1 (by rw [hval]; exact lt_irrefl _)
  · set sh := (q - e).toNat with hsh
    have hstep : (2 : ℚ) ^ q = ((2 ^ sh : Nat) : ℚ) * 2 ^ e := by
      rw [Nat.cast_pow, Nat.cast_two, ← zpow_natCast, ← zpow_add₀ (by norm_num)]
      congr 1
      omega
    have hu : (0 : ℚ) < 2 ^ e := zpow_pos (by norm_num) e
    have hsplit : (n : ℚ) = ((n / 2 ^ sh : Nat) : ℚ) * ((2 ^ sh : Nat) : ℚ) + ((n % 2 ^ sh : Nat) : ℚ) := by
      exact_mod_cast (Nat.div_add_mod' n (2 ^ sh)).symm
    have hrem := Nat.mod_lt n (Nat.two_pow_pos sh)
    have hhalf : 2 * 2 ^ (sh - 1) = 2 ^ sh := by
      rw [← Nat.pow_succ', Nat.succ_eq_add_one, Nat.sub_add_cancel (by omega)]
    refine ⟨n / 2 ^ sh, ?_⟩
    have hround : roundAt r sg n e q = if upBit r sg (n % 2 ^ sh) (2 ^ (sh - 1)) (n / 2 ^ sh) then n / 2 ^ sh + 1 else n / 2 ^ sh := by
      rw [roundAt, if_neg hle, ← Nat.shiftRight_eq_div_pow]
      cases r <;> rfl
    have hup := upBit_iff (r := r) (sg := sg) (rem := n % 2 ^ sh) (half := 2 ^ (sh - 1)) (k := n / 2 ^ sh) (Nat.two_pow_pos _) hu
    rw [hhalf, ← hsplit, mul_assoc, mul_assoc, ← hstep] at hup
    refine ⟨?_, ?_, ?_⟩
    · rw [hstep, hsplit, ← mul_assoc, add_mul]
      exact le_add_of_nonneg_right (mul_nonneg (Nat.cast_nonneg _) hu.le)
    · have hlt : ((n % 2 ^ sh : Nat) : ℚ) < ((2 ^ sh : Nat) : ℚ) := by exact_mod_cast hrem
      rw [hstep, hsplit, ← mul_assoc, Nat.cast_add, Nat.cast_one]
      exact mul_lt_mul_of_pos_right (by rw [add_mul, one_mul]; exact add_lt_add_right hlt _) hu
    · rw [hround, ← hup]
      by_cases hb : upBit r sg (n % 2 ^ sh) (2 ^ (sh - 1)) (n / 2 ^ sh) = true
      · exact .inl ⟨if_pos hb, hb⟩
      · exact .inr ⟨if_neg hb, hb⟩

/-! ## Rounding to a significand -/

theorem pow_bitLen_le {n : Nat} (h : n ≠ 0) : 2 ^ (bitLen n - 1) ≤ n ∧ n < 2 ^ bitLen n ∧ 1 ≤ bitLen n := by
  rw [bitLen, if_neg h]
  exact ⟨Nat.log2_self_le h, Nat.lt_log2_self, Nat.le_add_left _ _⟩

/-- The multiple of the unit of `roundP` below a magnitude is a significand. -/
theorem Lay.isSig_of_floor {l : Lay} {n k : Nat} {e q : Int} (hn : n ≠ 0)
    (hq : q = if e + (bitLen n : Int) - ((l.mb + 1 : Nat) : Int) < l.emin then l.emin else e + (bitLen n : Int) - ((l.mb + 1 : Nat) : Int))
    (hlo : (k : ℚ) * 2 ^ q ≤ n * (2 : ℚ) ^ e) (hhi : n * (2 : ℚ) ^ e < ((k + 1 : Nat) : ℚ) * 2 ^ q) : l.IsSig k q := by
  obtain ⟨hge, hlt, hone⟩ := pow_bitLen_le hn
  have hbounds : e + (bitLen n : Int) - ((l.mb + 1 : Nat) : Int) ≤ q ∧ l.emin ≤ q
      ∧ (q = l.emin ∨ q = e + (bitLen n : Int) - ((l.mb + 1 : Nat) : Int)) := by
    split_ifs at hq <;> omega
  obtain ⟨hle, hmin, hcase⟩ := hbounds
  have hu : (0 : ℚ) < 2 ^ e := zpow_pos (by norm_num) e
  have hqpos : (0 : ℚ) < 2 ^ q := zpow_pos (by norm_num) q
  refine ⟨?_, hmin, fun hsmall => ?_⟩
  · have htop : (k : ℚ) * 2 ^ q < ((2 ^ (l.mb + 1) : Nat) : ℚ) * 2 ^ q := by
      calc (k : ℚ) * 2 ^ q ≤ n * (2 : ℚ) ^ e := hlo
        _ < ((2 ^ bitLen n : Nat) : ℚ) * 2 ^ e := mul_lt_mul_of_pos_right (by exact_mod_cast hlt) hu
        _ = (2 : ℚ) ^ ((bitLen n : Int) + e) := by rw [Nat.cast_pow, Nat.cast_two, ← zpow_natCast, ← zpow_add₀ (by norm_num)]
        _ ≤ (2 : ℚ) ^ (((l.mb + 1 : Nat) : Int) + q) := zpow_le_zpow_right₀ (by norm_num) (by omega)
        _ = ((2 ^ (l.mb + 1) : Nat) : ℚ) * 2 ^ q := by rw [Nat.cast_pow, Nat.cast_two, ← zpow_natCast, ← zpow_add₀ (by norm_num)]
    exact_mod_cast lt_of_mul_lt_mul_right htop hqpos.le
  · refine hcase.resolve_right (fun hq0 => ?_)
    have hbottom : ((2 ^ l.mb : Nat) : ℚ) * 2 ^ q < ((k + 1 : Nat) : ℚ) * 2 ^ q := by
      calc ((2 ^ l.mb : Nat) : ℚ) * 2 ^ q = (2 : ℚ) ^ (((bitLen n - 1 : Nat) : Int) + e) := by
            rw [Nat.cast_pow, Nat.cast_two, ← zpow_natCast, ← zpow_add₀ (by norm_num)]
            congr 1
            omega
        _ = ((2 ^ (bitLen n - 1) : Nat) : ℚ) * 2 ^ e := by rw [Nat.cast_pow, Nat.cast_two, ← zpow_natCast, ← zpow_add₀ (by norm_num)]
        _ ≤ n * (2 : ℚ) ^ e := mul_le_mul_of_nonneg_right (by exact_mod_cast hge) hu.le
        _ < ((k + 1 : Nat) : ℚ) * 2 ^ q := hhi
    have hk : 2 ^ l.mb < k + 1 := by exact_mod_cast lt_of_mul_lt_mul_right hbottom hqpos.le
    omega

/-- The code, without its sign, that a magnitude is rounded to. -/
def Lay.roundCode (l : Lay) (r : Rnd) (sg : Bool) (n : Nat) (e : Int) : Nat :=
  let p := roundP r (l.mb + 1) l.emin sg n e
  l.bits false p.1 p.2

/-- A code is the one of two neighbours around a magnitude that the mode takes. -/
def Lay.Takes (l : Lay) (r : Rnd) (sg : Bool) (y : ℚ) (c code : Nat) : Prop :=
  l.mag c ≤ y ∧ y < l.mag (c + 1) ∧ (code = c + 1 ∧ roundsUp r sg (c % 2 = 1) (l.mag c) y (l.mag (c + 1))
    ∨ code = c ∧ ¬ roundsUp r sg (c % 2 = 1) (l.mag c) y (l.mag (c + 1)))

/-- Rounding takes one of the two codes around a magnitude. -/
theorem Lay.exists_takes {l : Lay} (hmb : 1 ≤ l.mb) (r : Rnd) (sg : Bool) (n : Nat) (e : Int) :
    ∃ c, l.Takes r sg (n * (2 : ℚ) ^ e) c (l.roundCode r sg n e) := by
  unfold Lay.Takes
  by_cases hn : n = 0
  · have hcode : l.roundCode r sg n e = 0 := by
      rw [roundCode, roundP, if_pos hn]
      exact Lay.bits_of_lt _ (Nat.two_pow_pos _)
    have hy : (n : ℚ) * 2 ^ e = 0 := by rw [hn, Nat.cast_zero, zero_mul]
    rw [hy]
    exact ⟨0, l.mag_zero.le, lt_of_eq_of_lt l.mag_zero.symm (l.mag_strictMono Nat.zero_lt_one),
      .inr ⟨hcode, fun hr => absurd hr.1 (by rw [l.mag_zero]; exact lt_irrefl _)⟩⟩
  · generalize hq : (if e + (bitLen n : Int) - ((l.mb + 1 : Nat) : Int) < l.emin then l.emin
      else e + (bitLen n : Int) - ((l.mb + 1 : Nat) : Int)) = q
    have hcode : l.roundCode r sg n e = if 2 ^ (l.mb + 1) ≤ roundAt r sg n e q then l.bits false (roundAt r sg n e q / 2) (q + 1)
        else l.bits false (roundAt r sg n e q) q := by
      rw [roundCode, roundP, if_neg hn]
      simp only [hq]
      split_ifs <;> rfl
    obtain ⟨k, hlo, hhi, hround⟩ := roundAt_spec r sg n e q
    have hsig := Lay.isSig_of_floor hn hq.symm hlo hhi
    have hmag : l.mag (l.bits false k q + 1) = ((k + 1 : Nat) : ℚ) * 2 ^ q := by
      rw [l.mag_succ, hsig.mag_bits, hsig.sig_bits.2]
      push_cast
      ring
    refine ⟨l.bits false k q, ?_⟩
    rw [hmag, hsig.mag_bits, Lay.bits_mod_two hmb]
    refine ⟨hlo, hhi, ?_⟩
    rcases hround with ⟨hk, hup⟩ | ⟨hk, hup⟩
    · rw [hk] at hcode
      exact .inl ⟨hcode.trans hsig.bits_succ.symm, hup⟩
    · rw [hk, if_neg (Nat.not_le.2 hsig.1)] at hcode
      exact .inr ⟨hcode, hup⟩

/-! ## What each mode takes -/

section
variable {l : Lay} {r : Rnd} {sg : Bool} {y : ℚ} {c code : Nat}

theorem Lay.Takes.toward (h : l.Takes r sg y c code) (hno : ∀ odd lo hi, ¬ roundsUp r sg odd lo y hi) :
    l.mag code ≤ y ∧ ∀ c', l.mag c' ≤ y → l.mag c' ≤ l.mag code := by
  obtain ⟨hlo, hhi, ⟨-, hup⟩ | ⟨rfl, -⟩⟩ := h
  · exact absurd hup (hno _ _ _)
  · exact ⟨hlo, fun c' hc' => l.mag_strictMono.monotone (Nat.lt_succ_iff.1 (l.mag_strictMono.lt_iff_lt.1 (lt_of_le_of_lt hc' hhi)))⟩

theorem Lay.Takes.away (h : l.Takes r sg y c code) (hyes : ∀ odd lo hi, lo < y → roundsUp r sg odd lo y hi) :
    y ≤ l.mag code ∧ ∀ c', y ≤ l.mag c' → l.mag code ≤ l.mag c' := by
  obtain ⟨hlo, hhi, ⟨rfl, hup⟩ | ⟨rfl, hup⟩⟩ := h
  · exact ⟨hhi.le, fun c' hc' => l.mag_strictMono.monotone (l.mag_strictMono.lt_iff_lt.1 (lt_of_lt_of_le hup.1 hc'))⟩
  · have heq : l.mag code = y := le_antisymm hlo (not_lt.1 (fun hlt => hup (hyes _ _ _ hlt)))
    exact ⟨heq.ge, fun c' hc' => heq.trans_le hc'⟩

/-- In RNE no code lies nearer, and of two at the same distance the even one is taken. -/
theorem Lay.Takes.nearest (h : l.Takes .rne sg y c code) (c' : Nat) :
    |l.mag code - y| ≤ |l.mag c' - y| ∧ (|l.mag code - y| = |l.mag c' - y| → c' ≠ code → code % 2 = 0) := by
  obtain ⟨hlo, hhi, hcode⟩ := h
  have hdist : y - l.mag c ≤ |l.mag c' - y| ∧ (c' < c → y - l.mag c < |l.mag c' - y|) ∧ c' ≤ c
      ∨ l.mag (c + 1) - y ≤ |l.mag c' - y| ∧ (c + 1 < c' → l.mag (c + 1) - y < |l.mag c' - y|) ∧ c + 1 ≤ c' := by
    rcases Nat.lt_or_ge c c' with hlt | hge
    · have hle : l.mag (c + 1) ≤ l.mag c' := l.mag_strictMono.monotone hlt
      rw [abs_of_nonneg (by linarith)]
      exact .inr ⟨by linarith, fun hc => by linarith [l.mag_strictMono hc], hlt⟩
    · have hle : l.mag c' ≤ l.mag c := l.mag_strictMono.monotone hge
      rw [abs_of_nonpos (by linarith)]
      exact .inl ⟨by linarith, fun hc => by linarith [l.mag_strictMono hc], hge⟩
  rcases hcode with ⟨rfl, hlt, hup⟩ | ⟨rfl, hup⟩
  · rw [abs_of_pos (by linarith : 0 < l.mag (c + 1) - y)]
    rcases hdist with ⟨hd, -, -⟩ | ⟨hd, hfar, hle⟩
    · rcases hup with hnear | ⟨htie, hodd⟩
      · exact ⟨by linarith, fun heq => absurd heq (by linarith)⟩
      · exact ⟨by linarith, fun _ _ => by omega⟩
    · exact ⟨hd, fun heq hne => absurd heq (hfar (by omega)).ne⟩
  · rw [abs_of_nonpos (by linarith : l.mag code - y ≤ 0), neg_sub]
    rcases hdist with ⟨hd, hfar, hle⟩ | ⟨hd, -, -⟩
    · exact ⟨hd, fun heq hne => absurd heq (hfar (by omega)).ne⟩
    · have hback (hge : l.mag (code + 1) - y ≤ y - l.mag code) : code % 2 = 0 ∧ l.mag (code + 1) - y = y - l.mag code := by
        have hlt : l.mag code < y := by linarith
        have heq : l.mag (code + 1) - y = y - l.mag code := le_antisymm hge (not_lt.1 (fun hn => hup ⟨hlt, .inl hn⟩))
        exact ⟨Nat.mod_two_ne_one.1 (fun hodd => hup ⟨hlt, .inr ⟨heq, hodd⟩⟩), heq⟩
      rcases le_total (l.mag (code + 1) - y) (y - l.mag code) with hge | hle
      · exact ⟨(hback hge).2.ge.trans hd, fun _ _ => (hback hge).1⟩
      · exact ⟨hle.trans hd, fun heq _ => (hback (heq ▸ hd)).1⟩

end

/-! ## Values of codes -/

theorem Lay.bitsAt_code {l : Lay} {b c : Nat} (hb : b < 2) (hc : c < 2 ^ (l.eb + l.mb)) :
    bitsAt (b * 2 ^ (l.eb + l.mb) + c) l.mb l.eb = c / 2 ^ l.mb ∧ bitsAt (b * 2 ^ (l.eb + l.mb) + c) 0 l.mb = c % 2 ^ l.mb
    ∧ bitsAt (b * 2 ^ (l.eb + l.mb) + c) (l.eb + l.mb) 1 = b := by
  have hpow : 2 ^ (l.eb + l.mb) = 2 ^ l.mb * 2 ^ l.eb := by rw [Nat.pow_add, Nat.mul_comm]
  have hexp : c / 2 ^ l.mb < 2 ^ l.eb := Nat.div_lt_of_lt_mul (hpow ▸ hc)
  refine ⟨?_, ?_, ?_⟩
  · rw [bitsAt_eq, hpow, Nat.mul_left_comm, Nat.add_comm, Nat.add_mul_div_left _ _ (Nat.two_pow_pos _), Nat.add_mul_mod_self_right,
      Nat.mod_eq_of_lt hexp]
  · rw [bitsAt_eq, Nat.pow_zero, Nat.div_one, hpow, Nat.mul_left_comm, Nat.add_comm, Nat.add_mul_mod_self_left]
  · rw [bitsAt_eq, Nat.add_comm, Nat.add_mul_div_right _ _ (Nat.two_pow_pos _), Nat.div_eq_of_lt hc, Nat.zero_add, Nat.pow_one, Nat.mod_eq_of_lt hb]

/-- The codes of finite values, without their sign. -/
def Lay.limit (l : Lay) : Nat := (2 ^ l.eb - 1) * 2 ^ l.mb

theorem Lay.limit_lt (l : Lay) : l.limit < 2 ^ (l.eb + l.mb) := by
  rw [Lay.limit, Nat.pow_add]
  exact Nat.mul_lt_mul_of_pos_right (Nat.sub_lt (Nat.two_pow_pos _) Nat.one_pos) (Nat.two_pow_pos _)

/-- The sign of a code. -/
def Lay.signPart (l : Lay) (sg : Bool) : Nat := sg.toNat * 2 ^ (l.eb + l.mb)

theorem Lay.finVal_code {l : Lay} {sg : Bool} {c : Nat} (hc : c < 2 ^ (l.eb + l.mb)) :
    l.finVal (l.signPart sg + c) = .fin sg (l.sig c) (l.unit c) := by
  obtain ⟨hexp, hfrac, hsign⟩ := Lay.bitsAt_code (Bool.toNat_lt sg) hc
  rw [Lay.finVal, Lay.signPart, hexp, hfrac, hsign, Lay.sig, Lay.unit]
  have hs : (sg.toNat == 1) = sg := by cases sg <;> rfl
  by_cases hsub : c < 2 ^ l.mb
  · rw [if_pos (Nat.div_eq_of_lt hsub), if_pos hsub, if_pos hsub, hs, Nat.mod_eq_of_lt hsub]
    rfl
  · rw [if_neg (Nat.div_pos (Nat.not_lt.1 hsub) (Nat.two_pow_pos _)).ne', if_neg hsub, if_neg hsub, hs]

theorem Lay.ieee_code {l : Lay} {sg : Bool} {c : Nat} (hc : c < l.limit) : l.ieee (l.signPart sg + c) = .fin sg (l.sig c) (l.unit c) := by
  have hc' := lt_trans hc l.limit_lt
  have hexp : c / 2 ^ l.mb < 2 ^ l.eb - 1 := Nat.div_lt_of_lt_mul (by rwa [Nat.mul_comm])
  rw [Lay.ieee, Lay.signPart, (Lay.bitsAt_code (Bool.toNat_lt sg) hc').1, if_neg hexp.ne]
  exact Lay.finVal_code hc'

/-- Every finite value of a format has a code. -/
theorem Lay.exists_code {l : Lay} {z : Nat} (hz : z < 2 ^ (l.eb + l.mb + 1)) (hnan : (l.ieee z).isNan = false) (hinf : (l.ieee z).isInf = false) :
    ∃ sg c, c < l.limit ∧ l.ieee z = .fin sg (l.sig c) (l.unit c) := by
  have hb : z / 2 ^ (l.eb + l.mb) < 2 := Nat.div_lt_of_lt_mul (by rwa [Nat.pow_succ] at hz)
  have hc := Nat.mod_lt z (Nat.two_pow_pos (l.eb + l.mb))
  have hsplit := Nat.div_add_mod' z (2 ^ (l.eb + l.mb))
  have hlim : z % 2 ^ (l.eb + l.mb) < l.limit := by
    by_contra hge
    have hones : bitsAt z l.mb l.eb = 2 ^ l.eb - 1 := by
      rw [← hsplit, (Lay.bitsAt_code hb hc).1]
      refine le_antisymm (Nat.le_sub_one_of_lt (Nat.div_lt_of_lt_mul ?_)) ((Nat.le_div_iff_mul_le (Nat.two_pow_pos _)).2 (Nat.not_lt.1 hge))
      rwa [Nat.mul_comm, ← Nat.pow_add]
    rw [Lay.ieee, if_pos hones] at hnan hinf
    split_ifs at hnan hinf
    · exact absurd hinf (by simp [FVal.isInf])
    · exact absurd hnan (by simp [FVal.isNan])
  refine ⟨z / 2 ^ (l.eb + l.mb) == 1, z % 2 ^ (l.eb + l.mb), hlim, ?_⟩
  rw [← Lay.ieee_code hlim, Lay.signPart]
  have hbool : (z / 2 ^ (l.eb + l.mb) == 1).toNat = z / 2 ^ (l.eb + l.mb) := by
    generalize z / 2 ^ (l.eb + l.mb) = b at hb
    interval_cases b <;> rfl
  rw [hbool, hsplit]

/-! ## Packing and reading a finite value -/

/-- A rational with a sign. -/
def signed (sg : Bool) (x : ℚ) : ℚ := if sg then -x else x

theorem abs_signed (sg : Bool) (x : ℚ) : |signed sg x| = |x| := by cases sg <;> simp [signed]

theorem abs_signed_sub (sg : Bool) (x y : ℚ) : |signed sg x - signed sg y| = |x - y| := by
  cases sg with
  | false => rfl
  | true => rw [signed, signed, if_pos rfl, if_pos rfl, neg_sub_neg, abs_sub_comm]

/-- Numbers of different signs lie apart by the sum of their magnitudes. -/
theorem abs_signed_sub_of_ne {sz sg : Bool} (hs : sz ≠ sg) {x y : ℚ} (hx : 0 ≤ x) (hy : 0 ≤ y) : |signed sz x - signed sg y| = x + y := by
  cases sg with
  | false =>
    obtain rfl : sz = true := by simpa using hs
    rw [show signed true x - signed false y = -(x + y) by simp [signed]; ring, abs_neg, abs_of_nonneg (by linarith)]
  | true =>
    obtain rfl : sz = false := by simpa using hs
    rw [show signed false x - signed true y = x + y by simp [signed], abs_of_nonneg (by linarith)]

/-- The number that a finite value stands for. -/
def FVal.rat : FVal → ℚ
  | .fin s k q => (if s then -1 else 1) * (k : ℚ) * (2 : ℚ) ^ q
  | _ => 0

theorem FVal.rat_fin (sg : Bool) (k : Nat) (q : Int) : (FVal.fin sg k q).rat = signed sg (k * 2 ^ q) := by
  cases sg <;> simp [FVal.rat, signed]

/-- A format of R66 with its layout: how it reads codes and packs finite values. -/
structure IeeeTag (f : Tag) (l : Lay) : Prop where
  fp : f.isFp = true
  one_le : 1 ≤ l.mb
  width : f.width = l.eb + l.mb + 1
  value : f.value false = l.ieee
  maxCode : f.maxCode + 1 = l.limit
  pack (r : Rnd) (sg : Bool) (n : Nat) (e : Int) : f.pack r false false (.fin sg n e)
    = if f.maxCode < l.roundCode r sg n e then ⟨f.overflow r false sg, cOv⟩ else ⟨l.signPart sg + l.roundCode r sg n e, 0#3⟩
  overflow (r : Rnd) (sg : Bool) : l.ieee (f.overflow r false sg)
    = if r = .rne ∨ (r = .rup ∧ sg = false) ∨ (r = .rdn ∧ sg = true) then .inf sg else l.ieee (f.maxCode + f.signBit sg)

theorem Lay.packed_eq {l : Lay} {r : Rnd} {sg : Bool} {n top ovf : Nat} {e : Int} : (let p := roundP r (l.mb + 1) l.emin sg n e
      if p.1 ≠ 0 ∧ top < l.bits false p.1 p.2 then (⟨ovf, cOv⟩ : BRes) else ⟨l.bits sg p.1 p.2, 0#3⟩)
    = if top < l.roundCode r sg n e then ⟨ovf, cOv⟩ else ⟨l.signPart sg + l.roundCode r sg n e, 0#3⟩ := by
  have hsign : l.bits sg (roundP r (l.mb + 1) l.emin sg n e).1 (roundP r (l.mb + 1) l.emin sg n e).2 = l.signPart sg + l.roundCode r sg n e := by
    cases sg <;> simp [Lay.roundCode, Lay.bits, Lay.signPart]
  dsimp only
  rw [hsign]
  refine if_congr (and_iff_right_of_imp (fun htop hz => ?_)) rfl rfl
  rw [hz, Lay.bits_of_lt _ (Nat.two_pow_pos _)] at htop
  exact absurd htop (Nat.not_lt_zero _)

theorem exists_ieeeTag {f : Tag} (h : f = .f32 ∨ f = .f64 ∨ f = .h16 ∨ f = .b16) : ∃ l, IeeeTag f l := by
  rcases h with rfl | rfl | rfl | rfl
  · exact ⟨lay32, rfl, by decide, rfl, rfl, rfl, fun _ _ _ _ => Lay.packed_eq (l := lay32), fun r sg => by cases r <;> cases sg <;> decide⟩
  · exact ⟨lay64, rfl, by decide, rfl, rfl, rfl, fun _ _ _ _ => Lay.packed_eq (l := lay64), fun r sg => by cases r <;> cases sg <;> decide⟩
  · exact ⟨lay16, rfl, by decide, rfl, rfl, rfl, fun _ _ _ _ => Lay.packed_eq (l := lay16), fun r sg => by cases r <;> cases sg <;> decide⟩
  · exact ⟨layB16, rfl, by decide, rfl, rfl, rfl, fun _ _ _ _ => Lay.packed_eq (l := layB16), fun r sg => by cases r <;> cases sg <;> decide⟩

/-! ## R76 -/

theorem Lay.rat_code {l : Lay} {sg : Bool} {c : Nat} : (FVal.fin sg (l.sig c) (l.unit c)).rat = signed sg (l.mag c) := FVal.rat_fin _ _ _

theorem Lay.Takes.lt_of_overflow {l : Lay} {r : Rnd} {sg : Bool} {y : ℚ} {c code top : Nat} (h : l.Takes r sg y c code) (ht : top < code) :
    l.mag top < y := by
  obtain ⟨hlo, -, ⟨rfl, hup⟩ | ⟨rfl, -⟩⟩ := h
  · exact lt_of_le_of_lt (l.mag_strictMono.monotone (Nat.lt_succ_iff.1 ht)) hup.1
  · exact lt_of_lt_of_le (l.mag_strictMono ht) hlo

/-- What a mode asks of a code with the sign of a magnitude, against another code with a sign (R76). -/
theorem Lay.Takes.best {l : Lay} {m : Rnd} {sg : Bool} {y : ℚ} {c code : Nat} (hy : 0 ≤ y) (h : l.Takes m sg y c code) (sz : Bool) (z : Nat) :
    match m with
    | .rtz => |signed sg (l.mag code)| ≤ |signed sg y| ∧ (|signed sz (l.mag z)| ≤ |signed sg y| → |signed sz (l.mag z)| ≤ |signed sg (l.mag code)|)
    | .rup => signed sg y ≤ signed sg (l.mag code) ∧ (signed sg y ≤ signed sz (l.mag z) → signed sg (l.mag code) ≤ signed sz (l.mag z))
    | .rdn => signed sg (l.mag code) ≤ signed sg y ∧ (signed sz (l.mag z) ≤ signed sg y → signed sz (l.mag z) ≤ signed sg (l.mag code))
    | .rne => |signed sg (l.mag code) - signed sg y| ≤ |signed sz (l.mag z) - signed sg y|
      ∧ (|signed sg (l.mag code) - signed sg y| = |signed sz (l.mag z) - signed sg y| → signed sz (l.mag z) ≠ signed sg (l.mag code)
        → code % 2 = 0) := by
  have hz := l.mag_nonneg z
  have hc := l.mag_nonneg code
  cases m with
  | rtz =>
    obtain ⟨hle, hbest⟩ := h.toward (fun _ _ _ hr => hr.2)
    simp only [abs_signed, abs_of_nonneg hz, abs_of_nonneg hc, abs_of_nonneg hy]
    exact ⟨hle, hbest z⟩
  | rup =>
    cases sg with
    | false =>
      obtain ⟨hle, hbest⟩ := h.away (fun _ _ _ hlt => ⟨hlt, rfl⟩)
      refine ⟨hle, fun hyz => ?_⟩
      cases sz with
      | false => exact hbest z hyz
      | true =>
        have hyz' : y ≤ -l.mag z := hyz
        have h0 := hbest 0 (by rw [l.mag_zero]; linarith)
        rw [l.mag_zero] at h0
        change l.mag code ≤ -l.mag z
        linarith
    | true =>
      obtain ⟨hle, hbest⟩ := h.toward (fun _ _ _ hr => Bool.false_ne_true hr.2.symm)
      refine ⟨neg_le_neg hle, fun hyz => ?_⟩
      cases sz with
      | false => exact (neg_nonpos.2 hc).trans hz
      | true => exact neg_le_neg (hbest z (neg_le_neg_iff.1 hyz))
  | rdn =>
    cases sg with
    | true =>
      obtain ⟨hle, hbest⟩ := h.away (fun _ _ _ hlt => ⟨hlt, rfl⟩)
      refine ⟨neg_le_neg hle, fun hyz => ?_⟩
      cases sz with
      | true => exact neg_le_neg (hbest z (neg_le_neg_iff.1 hyz))
      | false =>
        have hyz' : l.mag z ≤ -y := hyz
        have h0 := hbest 0 (by rw [l.mag_zero]; linarith)
        rw [l.mag_zero] at h0
        change l.mag z ≤ -l.mag code
        linarith
    | false =>
      obtain ⟨hle, hbest⟩ := h.toward (fun _ _ _ hr => Bool.false_ne_true hr.2)
      refine ⟨hle, fun hyz => ?_⟩
      cases sz with
      | true => exact (neg_nonpos.2 hz).trans hc
      | false => exact hbest z hyz
  | rne =>
    obtain ⟨hnear, htie⟩ := h.nearest z
    rw [abs_signed_sub]
    by_cases hs : sz = sg
    · rw [hs, abs_signed_sub]
      exact ⟨hnear, fun heq hne => htie heq (fun hzc => hne (by rw [hzc]))⟩
    · obtain ⟨hnear0, htie0⟩ := h.nearest 0
      rw [l.mag_zero, zero_sub, abs_neg, abs_of_nonneg hy] at hnear0 htie0
      rw [abs_signed_sub_of_ne hs hz hy]
      refine ⟨by linarith, fun heq _ => ?_⟩
      by_cases h0 : code = 0
      · rw [h0]
      · exact htie0 (le_antisymm hnear0 (by linarith)) (Ne.symm h0)

/-- A code keeps its parity under its sign. -/
theorem Lay.signPart_add_mod_two {l : Lay} (h : 1 ≤ l.mb) (sg : Bool) (c : Nat) : (l.signPart sg + c) % 2 = c % 2 := by
  obtain ⟨j, hj⟩ : ∃ j, l.eb + l.mb = j + 1 := ⟨l.eb + l.mb - 1, by omega⟩
  rw [Lay.signPart, hj, Nat.pow_succ, ← Nat.mul_assoc]
  omega

end Sys2Proof

namespace Sys2Proof.Machine

theorem resultsAreRoundedOnce : resultsAreRoundedOnceRule := by
  unfold resultsAreRoundedOnceRule
  intro f m sg n e hf rat p w y
  have hrat : rat = FVal.rat := by
    funext v
    cases v <;> rfl
  obtain ⟨l, hl⟩ := exists_ieeeTag hf
  refine ⟨pack_lt hl.fp _ _ _ _, ?_⟩
  have hY : y = signed sg (n * 2 ^ e) := (congrFun hrat _).trans (FVal.rat_fin sg n e)
  have hpos : (0 : ℚ) ≤ n * 2 ^ e := mul_nonneg (Nat.cast_nonneg _) (zpow_pos (by norm_num) e).le
  obtain ⟨c, htakes⟩ := l.exists_takes hl.one_le m sg n e
  have hp : p = _ := hl.pack m sg n e
  by_cases hover : f.maxCode < l.roundCode m sg n e
  · rw [if_pos hover] at hp
    have hmax : (l.ieee f.maxCode).rat = l.mag f.maxCode := by
      have hcode := l.ieee_code (sg := false) (c := f.maxCode) (by rw [← hl.maxCode]; exact Nat.lt_succ_self _)
      rw [Lay.signPart, Bool.toNat_false, Nat.zero_mul, Nat.zero_add] at hcode
      rw [hcode, Lay.rat_code]
      rfl
    rw [if_pos (congrArg BRes.c hp)]
    refine ⟨?_, ?_⟩
    · rw [hY, abs_signed, abs_of_nonneg hpos, hrat, hl.value, hmax]
      exact htakes.lt_of_overflow hover
    · change f.value false p.bits = _
      rw [hp, hl.value]
      exact hl.overflow m sg
  · rw [if_neg hover] at hp
    have hcode : l.roundCode m sg n e < l.limit := by rw [← hl.maxCode]; omega
    have hw : w = .fin sg (l.sig (l.roundCode m sg n e)) (l.unit (l.roundCode m sg n e)) := by
      change f.value false p.bits = _
      rw [hp, hl.value]
      exact l.ieee_code hcode
    have hratw : rat w = signed sg (l.mag (l.roundCode m sg n e)) := by rw [hrat, hw, Lay.rat_code]
    have hpar : p.bits % 2 = l.roundCode m sg n e % 2 := by
      rw [hp]
      exact l.signPart_add_mod_two hl.one_le sg _
    rw [if_neg (by rw [hp]; exact (by decide : (0#3 : Cnd) ≠ cOv))]
    refine ⟨congrArg BRes.c hp, by rw [hw]; rfl, fun z hz hnan hinf => ?_⟩
    rw [hl.value] at hnan hinf
    rw [hl.width] at hz
    obtain ⟨sz, cz, -, hcz⟩ := l.exists_code hz hnan hinf
    have hratz : rat (f.value false z) = signed sz (l.mag cz) := by rw [hrat, hl.value, hcz, Lay.rat_code]
    rw [hratw, hratz, hY, hpar]
    have hbest := htakes.best hpos sz cz
    cases m <;> exact hbest

/-- Settles O4: each word's lanes are computed one by one, and the codes of a format stand in the order of their magnitudes. -/
theorem floatingPointWords : Obligations.FloatingPointWords :=
  ⟨floatingPointArithmetic, dotProducts, resultsAreRoundedOnce⟩

end Sys2Proof.Machine
end

section
/-! SUPPORT. Special functions (O7): the operation that a special function puts in flight, the values at the points of R180, and the
landing of a lane, whose record (R345, R349) reaches no register. -/

namespace Sys2Proof.Machine

/-! ## Issue (R179) -/

/-- What a lane of a special function computes. -/
def sfuRes (want : List Nat) (fn : SfuFn) (e : El) : LRes :=
  ⟨BitVec.ofNat 64 (fn.run e.val.toNat).bits, false, .f32,
    want.map (fun k => (k, BitVec.ofNat 64 (sfuTan fn e.val.toNat (fn.run e.val.toNat).bits (e.tn k)))),
    e.poisoned want, (fn.run e.val.toNat).c, false⟩

theorem sfuLane_eq {c : Ctl} {s : State} {x : Ctx} {fn : SfuFn} {a : Src} {l : Nat} {e : El} (h : x.elFmt s.clk c.lit .f32 l a = some e) :
    sfuLane c s x fn a l = some (sfuRes x.want fn e) := by
  rw [sfuLane, h]
  rfl

/-- The tangents among what a result brings. -/
theorem accTans_resAccs (x : Ctx) (r : LRes) : accTans (x.resAccs r) = x.tans.map (fun k => (k, x.givenTan r.tag r.tan k, false)) := by
  have hprimal : ((if x.dxMode = .tonly then [] else [Acc.reg 0 r.val false]).filter (fun a => a.k != 0)) = [] := by
    split <;> rfl
  have htans : (x.tans.map (fun k => Acc.reg k (x.givenTan r.tag r.tan k) false)).filter (fun a => a.k != 0)
      = x.tans.map (fun k => Acc.reg k (x.givenTan r.tag r.tan k) false) := by
    refine List.filter_eq_self.2 (fun a ha => ?_)
    obtain ⟨k, hk, rfl⟩ := List.mem_map.1 ha
    exact bne_iff_ne.2 (fun h0 => x.zero_notMem_tans (h0 ▸ hk))
  rw [accTans, Ctx.resAccs, Ctx.newTans_eq, List.map_map, List.filter_append, hprimal, List.nil_append]
  exact (congrArg _ htans).trans List.map_map

/-- The primal among them: none under TONLY (R223). -/
theorem accPrimal_resAccs (x : Ctx) (r : LRes) (tag : Tag) :
    accPrimal (x.resAccs r) tag = if x.dxMode = .tonly then none else some (r.val, tag, false) := by
  rw [accPrimal, Ctx.resAccs, Ctx.newTans_eq]
  by_cases ht : x.dxMode = .tonly
  · rw [if_pos ht, if_pos ht, List.nil_append, List.find?_eq_none.2, Option.map_none]
    intro a ha
    obtain ⟨p, hp, rfl⟩ := List.mem_map.1 ha
    obtain ⟨k, hk, rfl⟩ := List.mem_map.1 hp
    exact fun h0 => x.zero_notMem_tans ((eq_of_beq h0 : k = 0) ▸ hk)
  · rw [if_neg ht, if_neg ht]
    rfl

/-- A special function puts its results in flight. -/
theorem sfuWord_issues {s : State} {x : Ctx} {c : Ctl} {d : Dst} {a : Src} {fn : SfuFn} {e : Nat → El} (h : s.issues x c) (he : s.errIn = [])
    (hread : ∀ l ∈ x.lanes, x.elFmt s.clk c.lit .f32 l a = some (e l) ∧ (e l).poisoned x.want = false ∧ x.takes d l .f32 false
      ∧ (fn.run (e l).val.toNat).c &&& x.grid.lrec.trapen = 0#3) :
    ∃ q, s.asyncDone x c (sfuWord c fn d a s) q (fun _ => False) ∧ q.kind = .sfu ∧ q.exec = x.exec ∧ q.dst = some d ∧ q.tag = .f32
      ∧ AMap.keys q.lanes = x.lanes ∧ ∀ l ∈ x.lanes, ∃ as, q.lanes.find l = some as
        ∧ accPrimal as .f32 = (if x.dxMode = .tonly then none else some (BitVec.ofNat 64 (fn.run (e l).val.toNat).bits, .f32, false))
        ∧ ∀ k ∈ x.tans, (accTans as).find k = some (x.givenTan .f32
            (x.want.map (fun k => (k, BitVec.ofNat 64 (sfuTan fn (e l).val.toNat (fn.run (e l).val.toNat).bits ((e l).tn k))))) k, false) := by
  set y : Ctx := { x with smp := s.sampleOf x } with hy
  have hlanes : y.lanes.map (fun l => (l, sfuLane c s y fn a l)) = x.lanes.map (fun l => (l, some (sfuRes x.want fn (e l)))) :=
    List.map_congr_left (fun l hl => by rw [show sfuLane c s y fn a l = some (sfuRes x.want fn (e l)) from sfuLane_eq (hread l hl).1])
  have hchk : vecChecks y s 0 d [a] y.lanes (x.lanes.map (fun l => (l, some (sfuRes x.want fn (e l))))) = .ok s :=
    vecChecks_pass he (fun l hl => (hread l hl).2)
  refine ⟨y.pend s .sfu (some d) .f32 c.set (x.lanes.map (fun l => (l, x.resAccs (sfuRes x.want fn (e l))))), ?_, rfl, rfl, rfl, rfl,
    List.map_map.trans (List.map_id x.lanes), fun l hl => ?_⟩
  · refine asyncDone_of_addPend h ?_ rfl rfl rfl rfl rfl
    dsimp only
    rw [hlanes, hchk, okRes_some, List.map_map]
    rfl
  · refine ⟨x.resAccs (sfuRes x.want fn (e l)), (find_mapLanes _ _ l).trans (if_pos hl), accPrimal_resAccs x _ .f32, fun k hk => ?_⟩
    rw [accTans_resAccs, find_mapLanes, if_pos hk]
    rfl

theorem specialFunctionsIssue : specialFunctionsIssueRule := by
  unfold specialFunctionsIssueRule
  intro s x c d a e h he arg mul neg cos sin sfu
  exact ⟨sfuWord_issues (fn := .rcp) h he, sfuWord_issues (fn := .rsq) h he, sfuWord_issues (fn := .exp2) h he, sfuWord_issues (fn := .log2) h he,
    sfuWord_issues (fn := .sin) h he, sfuWord_issues (fn := .cos) h he, sfuWord_issues (fn := .tanh) h he, fun _ => rfl⟩

/-! ## Values (R180) -/

/-- A special function of a NaN is the canonical NaN, with no condition. -/
theorem sfuRun_of_nan (fn : SfuFn) {p : Nat} (h : Tag.f32.value false p = .nan) : SfuFn.run fn p = ⟨0x7FC00000, 0#3⟩ := by
  rw [SfuFn.run, h]
  cases fn <;> rfl

/-- Below zero the roots and logarithms are invalid. -/
theorem sfuRun_of_neg {p : Nat} (h : Tag.f32.value false p = .inf true ∨ (∃ k e, Tag.f32.value false p = .fin true k e ∧ k ≠ 0)) :
    SfuFn.run .rsq p = ⟨0x7FC00000, cInv⟩ ∧ SfuFn.run .log2 p = ⟨0x7FC00000, cInv⟩ := by
  rw [SfuFn.run, SfuFn.run]
  rcases h with h | ⟨k, e, h, hk⟩
  · rw [h]
    exact ⟨rfl, rfl⟩
  · have hrsq : sfuRsq (.fin true k e) = ⟨.nan, cInv⟩ := by rw [sfuRsq, if_neg hk, if_pos rfl]
    have hlog : sfuLog2 (.fin true k e) = ⟨.nan, cInv⟩ := by rw [sfuLog2, if_neg hk, if_pos rfl]
    rw [h, SfuFn.val, SfuFn.val, hrsq, hlog]
    exact ⟨rfl, rfl⟩

theorem specialFunctionValues : specialFunctionValuesRule := by
  unfold specialFunctionValuesRule
  exact ⟨by decide, by decide, by decide +kernel, by decide, fun _ => sfuRun_of_neg, fun fn _ => sfuRun_of_nan fn, by decide, by decide, by decide,
    by decide +kernel, by decide +kernel, by decide⟩

/-! ## Landing (R58, R179) -/

/-- The places that the record of a landing moves (R345, R349): main memory and the reservations on it, the log, a die's sample pointer. -/
def recordPlaces : Place → Prop
  | .byte _ _ | .resv _ _ | .grid _ | .dbg | .die _ | .names => True
  | _ => False

theorem recordPlaces_of_physWrite {a n : Nat} {z : Place} (h : physWrite a n z) : recordPlaces z := by
  rcases h with ⟨x, rfl, -⟩ | ⟨r, l, rfl⟩ <;> trivial

theorem State.keeps_recorded (s : State) (a : Nat) (bs : List Byte) : s.keeps (s.writeBytes .phys a bs) recordPlaces :=
  State.keeps_mono (s.keeps_writeBytes_phys a bs) (fun _ => recordPlaces_of_physWrite)

theorem State.keeps_logRec (s : State) (r : CohRef) (kind lane : Nat) (data : W64) : s.keeps (s.logRec r kind lane data) recordPlaces := by
  unfold State.logRec
  split
  · exact s.keeps_refl _
  · split
    · dsimp only
      split_ifs
      · exact s.keeps_refl _
      · intro z hz
        cases z with
        | grid _ | dbg => exact absurd trivial hz
        | byte st _ => exact absurd trivial hz
        | full st _ | psn st _ => cases st <;> rfl
        | cur | xlat | names => exact ⟨rfl, rfl⟩
        | _ => rfl
      · exact State.keeps_trans (s.keeps_recorded _ _) (State.keeps_recorded _ _ _)
    · exact s.keeps_refl _

theorem State.keeps_putSample (s : State) (die r : Nat) : s.keeps (s.putSample die r) recordPlaces := by
  have hdie (t : State) (d : Die) (hd : d.dw = (t.die die).dw ∧ d.dwpsn = (t.die die).dwpsn) : t.keeps (t.setDie die d) recordPlaces := by
    refine State.keeps_setDie (fun z hz => ?_)
    cases z with
    | byte _ _ | die _ => exact absurd trivial hz
    | psn st _ =>
      cases st with
      | die k => exact fun _ => by rw [hd.2]
      | _ => trivial
    | _ => trivial
  have hdies (a : Nat) (bs : List Byte) : (s.writeBytes .phys a bs).dies = s.dies := by
    rw [State.writeBytes_phys]
    split <;> rfl
  unfold State.putSample
  dsimp only
  split
  · set u := s.writeBytes .phys (s.physLoc ((s.die die).smpbase.toNat + (s.die die).smpptr)) (leBytes 64 r) with hu
    have hsame : u.die die = s.die die := by rw [State.die, State.die, hu, hdies]
    have hset := hdie u { s.die die with smpptr := (s.die die).smpptr + 64 } (by rw [hsame]; exact ⟨rfl, rfl⟩)
    refine State.keeps_trans (State.keeps_trans (s.keeps_recorded _ _) hset) (fun z hz => ?_)
    cases z with
    | names => exact absurd trivial hz
    | byte st _ | full st _ | psn st _ => cases st <;> rfl
    | cur | xlat => exact ⟨rfl, rfl⟩
    | _ => rfl
  · exact hdie _ _ ⟨rfl, rfl⟩

theorem pendOf_of_keeps {s t : State} {w : Place → Prop} (h : s.keeps t w) (hw : ¬ w .pend) (id : Nat) : t.pendOf id = s.pendOf id := by
  rw [State.pendOf, State.pendOf, show t.pend = s.pend from h .pend hw]

theorem thr_isSome_of_keeps {s t : State} {w : Place → Prop} (h : s.keeps t w) {r : CohRef} {l : Nat} (hw : ¬ w (.ident r l))
    (hs : (s.thr r l).isSome) : (t.thr r l).isSome := by
  have hsame : (t.thr r l).map (fun h => (h.t, h.tid, h.bid)) = (s.thr r l).map (fun h => (h.t, h.tid, h.bid)) := h (.ident r l) hw
  rw [← Option.isSome_map, hsame, Option.isSome_map]
  exact hs

/-- The record of an operation that ends moves nothing that the end itself moves (R345). -/
theorem State.keeps_finishPend {s : State} {p : Pend} {l : Nat} (hdem : p.kind.demotes = false) (h : (s.thr p.ref l).isSome) (x : Option Nat) :
    ((s.delPend p.id).discharge p).keeps (s.finishPend p x) recordPlaces := by
  have hthr : (((s.delPend p.id).discharge p).thr p.ref l).isSome := by
    rw [((s.delPend p.id).movesOnly_discharge p).thr not_landPlaces_ident]
    exact h
  have hreap : ((s.delPend p.id).discharge p).keeps (((s.delPend p.id).discharge p).reap p.blk) recordPlaces := by
    rw [show ((s.delPend p.id).discharge p).reap p.blk = (s.delPend p.id).discharge p from State.reap_of_thr hthr]
    exact State.keeps_refl _ _
  unfold State.finishPend
  simp only [hdem, Bool.false_eq_true, if_false]
  split
  · exact State.keeps_trans hreap (State.keeps_putSample _ _ _)
  · exact hreap

/-- A lane of an operation that demotes no path is done (R55, R58). -/
theorem State.laneOff_done {s : State} {id l : Nat} {p : Pend} (hp : s.pendOf id = some p) (hdem : p.kind.demotes = false)
    (h : (s.thr p.ref l).isSome) :
    (if (p.lanes.del l).isEmpty && !p.more then (s.laneOff id l).pendOf id = none
        ∧ ∀ k, p.slot = some k → (s.laneOff id l).ctrAt p.ref k.toNat = ctrLess (s.ctrAt p.ref k.toNat)
      else ∃ q, (s.laneOff id l).pendOf id = some q ∧ q.lanes = p.lanes.del l)
    ∧ s.keeps (s.laneOff id l) (fun z => landPlaces p [] z ∨ recordPlaces z) := by
  obtain rfl := State.id_of_pendOf hp
  set q : Pend := { p with lanes := p.lanes.del l, done := p.done ||| (1#32 <<< l) } with hq
  have hoff : s.laneOff p.id l = if (p.lanes.del l).isEmpty && !p.more then s.finishPend q (if p.kind.writesReg then some l else none)
      else s.setPend q := by
    unfold State.laneOff
    rw [hp]
  have hpend : landPlaces p [] .pend := .inl rfl
  by_cases hend : ((p.lanes.del l).isEmpty && !p.more) = true
  · rw [if_pos hend] at hoff ⊢
    have hdis := (s.delPend p.id).movesOnly_discharge q
    have hrec : ((s.delPend p.id).discharge q).keeps (s.laneOff p.id l) recordPlaces := by
      rw [hoff]
      exact State.keeps_finishPend (p := q) hdem h _
    have hkeep : ((s.delPend p.id).discharge q).pend = (s.delPend p.id).pend := by
      unfold State.discharge
      split <;> simp
    refine ⟨⟨?_, fun k hk => ?_⟩, ?_⟩
    · rw [pendOf_of_keeps hrec id, State.pendOf, hkeep]
      exact s.pendOf_delPend p.id
    · exact (hrec (.ctr p.ref k.toNat) id).trans (State.ctrAt_discharge (p := q) (s := s.delPend p.id) h hk)
    · exact State.keeps_trans (State.keeps_mono ((s.movesOnly_delPend p.id hpend).trans hdis).keeps (fun _ => .inl))
        (State.keeps_mono hrec (fun _ => .inr))
  · rw [if_neg hend] at hoff ⊢
    rw [hoff]
    exact ⟨⟨q, State.pendOf_setPend (p := q) hp, rfl⟩, State.keeps_mono (s.movesOnly_setPend q hpend).keeps (fun _ => .inl)⟩

/-- Threads behind the change of one. -/
theorem State.thr_updThread {s : State} {r : CohRef} {l : Nat} {h : Thread} (hthr : s.thr r l = some h) (f : Thread → Thread) (q : CohRef) (j : Nat) :
    (s.updCoh r (fun c => c.updThread l f)).thr q j = if q = r ∧ j = l then some (f h) else s.thr q j := by
  obtain ⟨c, hc, hct⟩ := Option.bind_eq_some_iff.1 hthr
  rw [State.thr, State.coh_updCoh]
  by_cases hq : q = r
  · subst hq
    rw [if_pos rfl, hc, Option.map_some, Option.bind_some, Cohort.thread_updThread, hct]
    by_cases hj : j = l
    · rw [if_pos hj, if_pos ⟨rfl, hj⟩]
      rfl
    · rw [if_neg hj, if_neg (fun hb => hj hb.2), State.thr, hc]
      rfl
  · rw [if_neg hq, if_neg (fun hb => hq hb.1)]
    rfl

theorem State.ctrAt_updThread (s : State) (r : CohRef) (l : Nat) (f : Thread → Thread) (q : CohRef) (n : Nat) :
    (s.updCoh r (fun c => c.updThread l f)).ctrAt q n = s.ctrAt q n := by
  have hctr (c : Cohort) : (c.updThread l f).ctr n = c.ctr n := by
    unfold Cohort.updThread
    split <;> rfl
  rw [State.ctrAt, State.ctrAt, State.coh_updCoh]
  by_cases hq : q = r
  · subst hq
    rw [if_pos rfl, Option.map_map]
    exact congrArg (fun v : Option (BitVec 6) => v.getD 0#6) (congrFun (congrArg Option.map (funext hctr)) _)
  · rw [if_neg hq]

/-- What a register holds of the values that land in it. -/
theorem vreg_putD {h : Thread} {n : VNum} {q : Option (W64 × Tag × Bool)} {ts : AMap (W64 × Bool)} :
    (h.putD (.v n) false q ts).vreg n.toNat
      = (h.vreg n.toNat).put (q.map (fun p => (p.1.setWidth 32, p.2))) (ts.map (fun q => (q.1, q.2.1.setWidth 32, q.2.2))) := by
  rw [Thread.putD, Thread.vreg_putV, if_pos rfl]

theorem tan_put {ts : AMap (W64 × Bool)} (hn : (AMap.keys ts).Nodup) {k : Nat} {v : W64} {psn : Bool} (hk : ts.find k = some (v, psn))
    (r : VReg) (q : Option (W32 × Tag × Bool)) : (r.put q (ts.map (fun q => (q.1, q.2.1.setWidth 32, q.2.2)))).tan.get k 0#32 = v.setWidth 32 := by
  have hkeys : (AMap.keys (ts.map (fun q => (q.1, (q.2.1.setWidth 32 : W32), q.2.2)))).Nodup := by
    simpa [AMap.keys, List.map_map, Function.comp_def] using hn
  exact get_put_tan hkeys (List.mem_map_of_mem (f := fun q : Nat × W64 × Bool => (q.1, (q.2.1.setWidth 32 : W32), q.2.2)) (AMap.mem_of_find hk)) _

theorem sfuResultsAreWritten : sfuResultsAreWrittenRule := by
  unfold sfuResultsAreWrittenRule
  intro s id l p d as h hp hkind hland hdst hnodup hthr
  set u := s.updCoh p.ref (fun c => c.updThread l (fun t => t.putD d false (accPrimal as p.tag) (accTans as))) with hu
  set v := s.landReg p l false (accPrimal as p.tag) (accTans as) with hv
  have hrec : u.keeps v recordPlaces := by
    rw [hv, State.landReg, hdst]
    exact State.keeps_logRec _ _ _ _ _
  have huthr (q : CohRef) (j : Nat) : u.thr q j = if q = p.ref ∧ j = l then some (h.putD d false (accPrimal as p.tag) (accTans as)) else s.thr q j :=
    State.thr_updThread hthr _ q j
  have hown := (huthr p.ref l).trans (if_pos ⟨rfl, rfl⟩)
  have hvthr : (v.thr p.ref l).isSome := thr_isSome_of_keeps hrec (fun hw => hw) (by rw [hown]; rfl)
  have hvp : v.pendOf id = some p := by
    rw [pendOf_of_keeps hrec (fun hw => hw), State.pendOf, hu, State.updCoh_pend]
    exact hp
  obtain ⟨hleft, hkeep⟩ := State.laneOff_done hvp (by rw [hkind]; rfl) hvthr
  have hall : u.keeps (v.laneOff id l) (fun z => landPlaces p [] z ∨ recordPlaces z) :=
    State.keeps_trans (State.keeps_mono hrec (fun _ => .inr)) hkeep
  have hreg (r : CohRef) (q m : Nat) : (v.laneOff id l).vAt r q m = u.vAt r q m := hall (.v r q m) (by simp [landPlaces, recordPlaces])
  have hseed (r : CohRef) (q : Nat) : (v.laneOff id l).seedAt r q = u.seedAt r q := hall (.seed r q) (by simp [landPlaces, recordPlaces])
  have hown' (m : Nat) : u.vAt p.ref l m = (h.putD d false (accPrimal as p.tag) (accTans as)).vreg m := by rw [State.vAt, hown]; rfl
  refine ⟨v.laneOff id l, ?_, fun w psn hw => ?_, fun k w psn n hk hd => ?_, fun r q m hne => ?_, ?_⟩
  · change execSfuResultWrite id l s = _
    rw [execSfuResultWrite, sfuLand, hp]
    dsimp only
    rw [hkind, hland]
    rfl
  · cases d with
    | v n =>
      dsimp only
      rw [hreg, hown', vreg_putD, hw]
      exact ⟨rfl, rfl⟩
    | seed =>
      dsimp only
      rw [hseed, State.seedAt, hown, hw]
      rfl
    | _ => trivial
  · rw [hd] at hown'
    rw [hreg, hown', vreg_putD]
    exact tan_put hnodup hk _ _
  · rw [hreg, State.vAt, State.vAt, huthr]
    by_cases hat : r = p.ref ∧ q = l
    · obtain ⟨-, -, -, -, -, -, hrest⟩ := h.putD_rest d false (accPrimal as p.tag) (accTans as)
      rw [if_pos hat, hat.1, hat.2, hthr]
      exact hrest m (fun n hn => ⟨hne hat n hn, fun hf => absurd hf (by decide)⟩)
    · rw [if_neg hat]
  · have hctr (k : Nat) : v.ctrAt p.ref k = s.ctrAt p.ref k :=
      (hrec (.ctr p.ref k) (fun hw => hw)).trans (State.ctrAt_updThread _ _ _ _ _ _)
    simp only [hctr] at hleft
    exact hleft

/-- Settles O7: a special function's results are in flight from its issue, at R180's points they are computed, and the record of a landing
moves none of the places that the lane's result and the operation's end stand in. -/
theorem specialFunctions : Obligations.SpecialFunctions := ⟨specialFunctionsIssue, specialFunctionValues, sfuResultsAreWritten⟩

end Sys2Proof.Machine
end

section
/-! SUPPORT. A word behind a DX (O6, O8): one thread under TONLY whose conversion steps SEED, and one whose integer register carries a
tangent. -/

namespace Sys2Proof.Machine

/-- A machine with one thread, at a word behind a DX that names tangent 1 (R229). -/
def behindDxWord (m : DxMode) : State := (State.reset.withFetchWord 64 0x000B000000000000).updCoh ⟨1, 0⟩ (fun c =>
  { c with pa := c.pa.map (fun p => { p with cl := p.cl.map (fun l => { l with dx := some (m, 1#4) }) }) })

/-- A control that waits for nothing and counts nothing. -/
def plainCtl : Ctl := ⟨0#8, none, none⟩

/-! ## CVTS writes SEED under TONLY -/

/-- The issuer under TONLY. -/
def tonlyCtx : Ctx := (behindDxWord .tonly).ctx.get (by decide)

theorem tonlyCtx_issues : (behindDxWord .tonly).issues tonlyCtx plainCtl :=
  ⟨(Option.some_get _).symm, .inr (by decide), fun _ hn => absurd hn.symm (Option.some_ne_none _), by decide⟩

/-- F32 to F16. -/
def toHalf : CvtCtl := ⟨.h16, false, false, false, some .f32⟩

/-- The source of each lane. -/
def tonlySrc (l : Nat) : El := (cvtSrc tonlyCtx (behindDxWord .tonly) toHalf .f32 l (.v 2#8)).getD ⟨0#64, none, false, [], []⟩

theorem tonlySrc_reads : ∀ l ∈ tonlyCtx.lanes, cvtReads (behindDxWord .tonly) tonlyCtx toHalf (.v 2#8) l .f32
    ∧ cvtSrc tonlyCtx (behindDxWord .tonly) toHalf .f32 l (.v 2#8) = some (tonlySrc l) ∧ Tag.f32.count ≤ toHalf.tgt.count
    ∧ (tonlySrc l).psn = false ∧ ((!Tag.f32.isInt && !toHalf.tgt.isInt) = true → (tonlySrc l).tpoisoned tonlyCtx.want = false)
    ∧ tonlyCtx.takes .seed l toHalf.tgt (toHalf.tgt == .f64) := by
  have hlanes : tonlyCtx.lanes = [0] := by decide
  rw [hlanes]
  intro l hl
  obtain rfl := List.mem_singleton.1 hl
  exact ⟨⟨rfl, .inl (by decide)⟩, by decide, by decide, by decide, fun _ => by decide, (by decide : tonlyCtx.dstFits .seed 0 _ = true)⟩

/-- The conversion steps SEED, its destination, though TONLY writes no primal. -/
theorem exec_cvts_stepsSeed : ∃ t, exec (.cvts plainCtl toHalf .seed (.v 2#8)) (behindDxWord .tonly) = .next t
    ∧ t.seedAt ⟨1, 0⟩ 0 ≠ (behindDxWord .tonly).seedAt ⟨1, 0⟩ 0 := ⟨_, rfl, by decide⟩

/-- Refutes O6: a CVTS that names SEED as its destination under TONLY leaves SEED stepped, where the statement asks that TONLY leave the
destination as it was. -/
theorem not_conversionsAndPacking : ¬ Obligations.ConversionsAndPacking := by
  unfold Obligations.ConversionsAndPacking
  rintro ⟨hconv, -⟩
  obtain ⟨-, hstoch⟩ := hconv _ _ plainCtl .rne toHalf .seed (.v 2#8) (fun _ => .f32) tonlySrc tonlyCtx_issues (by decide) tonlySrc_reads
  have hlanes : tonlyCtx.lanes = [0] := by decide
  obtain ⟨r, t, hexec, ⟨t', -, ht', -, hholds, -⟩, hval, -⟩ := hstoch (by
    rw [hlanes]
    intro l hl i _
    obtain rfl := List.mem_singleton.1 hl
    exact BitVec.and_zero)
  have hmem : 0 ∈ tonlyCtx.lanes := by rw [hlanes]; exact List.mem_singleton_self 0
  obtain ⟨u, hu, hstep⟩ := exec_cvts_stepsSeed
  obtain rfl : t = u := Host.Outcome.next.inj (hexec.symm.trans hu)
  obtain rfl : t = t' := Host.Outcome.next.inj ht'
  have hkeep := hholds 0 hmem (by decide) (hval 0 hmem).2.2.1
  rw [State.holdsLane, if_pos (by decide)] at hkeep
  exact hstep hkeep

/-! ## LREDUCE sums the tangents of integers -/

/-- The same machine under PROP, v2 an integer that carries a tangent. -/
def integerTangent : State := (behindDxWord .prop).updCoh ⟨1, 0⟩ (fun c => c.updThread 0 (fun h => h.setV 2 ⟨5#32, .i32, false, [(1, 7#32)], []⟩))

/-- The issuer under PROP. -/
def propCtx : Ctx := integerTangent.ctx.get (by decide)

theorem propCtx_issues : integerTangent.issues propCtx plainCtl :=
  ⟨(Option.some_get _).symm, .inr (by decide), fun _ hn => absurd hn.symm (Option.some_ne_none _), by decide⟩

/-- The reduction of one lane leaves the lane's own tangent. -/
theorem exec_lreduce_keepsTangent : ∃ t, exec (.lreduce plainCtl .add (.v 1#8) (.v 2#8)) integerTangent = .next t
    ∧ (t.vAt ⟨1, 0⟩ 0 1).tan.get 1 0#32 = 7#32 := ⟨_, rfl, by decide⟩

/-- Refutes O8: LREDUCE.add of integers into a vector register leaves the tangent of the operand (here 7), where the statement asks for 0. -/
theorem not_laneOperations : ¬ Obligations.LaneOperations := by
  unfold Obligations.LaneOperations
  rintro ⟨-, -, hred⟩
  have hlanes : propCtx.lanes = [0] := by decide
  have hmem : 0 ∈ propCtx.lanes := by rw [hlanes]; exact List.mem_singleton_self 0
  have hall {P : Nat → Prop} (h : P 0) : ∀ l ∈ propCtx.lanes, P l := by
    rw [hlanes]
    exact fun l hl => List.mem_singleton.1 hl ▸ h
  obtain ⟨r, ⟨t, -, ht, -, hholds, -⟩, hres⟩ := hred _ _ plainCtl .add (.v 1#8) (.v 2#8) .i32
    (fun l => propCtx.rd integerTangent plainCtl l (.v 2#8)) 0 [] propCtx_issues (by decide) hlanes (.inr ⟨by decide, rfl⟩) (hall ⟨by decide, rfl, .inr (by decide)⟩)
    (fun _ hf => absurd hf (by decide)) (hall (by decide : propCtx.dstFits (.v 1#8) 0 _ = true))
  obtain ⟨-, -, hkeep, -, htan⟩ := hres 0 hmem
  obtain ⟨u, hu, hseven⟩ := exec_lreduce_keepsTangent
  obtain rfl : t = u := Host.Outcome.next.inj (ht.symm.trans hu)
  obtain ⟨⟨-, hgiven, -⟩, -⟩ := hholds 0 hmem (by decide) hkeep
  have hzero : (r 0).tan.get 1 0#64 = 0#64 := BitVec.eq_of_toNat_eq (htan 1 (by decide))
  have hgivenZero : propCtx.givenTan (r 0).tag (r 0).tan 1 = 0#64 := by
    rw [Ctx.givenTan, show propCtx.dxMode = .prop by decide]
    exact hzero
  have hone := (hgiven 1).trans (if_pos (by decide))
  dsimp only at hone
  rw [hgivenZero] at hone
  exact absurd (hone.symm.trans hseven) (by decide)

end Sys2Proof.Machine
end
